-- ==== Sys2Proof/Word.lean ====
section
/-! DEFINITION. The word types of the UGS-096A and the plain tables its state is made of. -/

namespace Sys2Proof

/-- One 32-bit register's bits (R256). -/
abbrev Word := BitVec 32

/-- One byte of memory (R4). -/
abbrev Byte := BitVec 8

/-- A byte address of an instruction: 56 bits (R348). -/
abbrev Addr := BitVec 56

/-- A finite table: keys strictly rising. Plain data, so that states can be compared. -/
abbrev Tbl (α : Type) := List (Nat × α)

/-- A 32-bit register with its poison bit (R159, R84). -/
structure Reg where
  bits : Word
  pois : Bool
deriving DecidableEq, Repr

/-- A register that reads zero, clean (R141). -/
def Reg.zero : Reg := ⟨0, false⟩

/-- The three values of a predicate (R281). -/
inductive Tri where
  | F | T | U
deriving DecidableEq, Repr

/-- A predicate register with its poison bit. -/
structure PReg where
  v : Tri
  pois : Bool
deriving DecidableEq, Repr

/-- The bits [lo + n - 1 : lo] of a natural number. -/
def bits (v lo n : Nat) : Nat := v / 2 ^ lo % 2 ^ n

/-- Bit k of a natural number. -/
def bit (v k : Nat) : Bool := v / 2 ^ k % 2 == 1

/-- 1 for true and 0 for false, as a field of one bit. -/
def b2n (b : Bool) : Nat := if b then 1 else 0

end Sys2Proof
end

