-- ==== Sys2Proof/Syntax.lean ====
section
/-! DEFINITION. The instructions and steps of the UGS-096A: one constructor for every row of the opcode table.
Program instructions carry the operands of their encodings (chapters 19 to 22, 12, 13, 16, 17, 18);
the steps of engines, hardware, firmware and host carry what names them. -/

namespace Sys2Proof

/-- The type codes 0x0 to 0xD of the header (R12, R256). -/
inductive Ty where
  | i32 | n32 | i64 | n64 | f32 | f64 | bf16x2 | f32iv | f64iv | bf16iv | e4m3 | e5m2 | e2m1 | pred
deriving DecidableEq, Repr

/-- An operand field (R351): the level and the index, the immediate with its 32 bits, or zero. -/
inductive Opnd where
  | x (n : Nat) | w (n : Nat) | p (n : Nat) | e (n : Nat) | s (n : Nat) | c (n : Nat)
  | lat
  | imm (v : Word)
  | zero
deriving DecidableEq, Repr

/-- The source flags and sat of a T body (R344). -/
structure Flags where
  negA : Bool
  negB : Bool
  negC : Bool
  absA : Bool
  sat : Bool
deriving DecidableEq, Repr

/-- No flag set. -/
def Flags.none : Flags := ⟨false, false, false, false, false⟩

/-- The rounding modes (R261). -/
inductive Rnd where
  | rne | rtz | rdn | rup
deriving DecidableEq, Repr

/-- The relations of ICMP, FCMP and IVCMP (R368, R385, R279). -/
inductive Rel where
  | eq | ne | lt | le | gt | ge
deriving DecidableEq, Repr

/-- The modes of SHFL (R369). -/
inductive ShflMode where
  | idx | rot | xor | rev
deriving DecidableEq, Repr

/-- The modes of VOTE (R369). -/
inductive VoteMode where
  | all | any | ballot | ballotf | ballotu
deriving DecidableEq, Repr

/-- The operations of REDUX (R369). -/
inductive ReduxOp where
  | add | min | max | and | or | xor
deriving DecidableEq, Repr

/-- The access sizes of the plain loads and stores (R401). -/
inductive SubWord where
  | full | b8 | b16
deriving DecidableEq, Repr

/-- The cache policies of the M body (R347). -/
inductive Cache where
  | ca | cs | ck | cb
deriving DecidableEq, Repr

/-- The scopes (R195, R347). -/
inductive Scope where
  | grp | team | clu | die | dev | sys
deriving DecidableEq, Repr

/-- The operations of ATOM (R404). -/
inductive AtomOp where
  | add | min | max | and | or | xor | xchg | cas | fadd | hull
deriving DecidableEq, Repr

/-- The kinds that SINIT names (R225, R227). -/
inductive SettKind where
  | lock | bar | bytes
deriving DecidableEq, Repr

/-- The live-in or carry masks of REGION and PHASE (R350). -/
structure Masks where
  x : BitVec 32
  w : BitVec 12
  p : BitVec 8
  e : BitVec 8
deriving DecidableEq, Repr

/-- A 64-byte event packet (R63): time, class, op, control bits [61:0] and payload words 0 to 11. -/
structure Packet where
  time : Nat
  cls : Nat
  op : Nat
  ctrl : Nat
  payload : List Word
deriving DecidableEq, Repr

/-- A host access to a BAR: link, BAR number, offset, length, PASID prefix, and for a write its value and whether every
byte enable is set (R41, R42, R63, R79). -/
structure BarAccess where
  link : Nat
  bar : Nat
  off : Nat
  len : Nat
  pasid : Option Nat
  write : Bool
  value : Nat
  full : Bool
deriving DecidableEq, Repr

/-- A Delow flit as the part receives it (R50): the header's fields, the header's reserved bits, the payload
sectors as bytes, and whether the CRC holds after FEC. -/
structure Flit where
  type : Nat
  vc : Nat
  part : Nat
  dpkg : Nat
  spkg : Nat
  seq : Nat
  ack : Nat
  credits : Nat
  cvc : Nat
  sectors : Nat
  tag : Nat
  reserved : Nat
  data : List Byte
deriving DecidableEq, Repr

/-- Every row of the opcode table. -/
inductive Instr where
  -- class 000, two-source integer (R361, R362)
  | iadd (ty : Ty) (fl : Flags) (d a b : Opnd)
  | isub (ty : Ty) (fl : Flags) (d a b : Opnd)
  | imul (ty : Ty) (fl : Flags) (d a b : Opnd)
  | imulh (ty : Ty) (fl : Flags) (d a b : Opnd)
  | imin (ty : Ty) (fl : Flags) (d a b : Opnd)
  | imax (ty : Ty) (fl : Flags) (d a b : Opnd)
  | and (ty : Ty) (d a b : Opnd)
  | or (ty : Ty) (d a b : Opnd)
  | xor (ty : Ty) (d a b : Opnd)
  | andn (ty : Ty) (d a b : Opnd)
  | shl (ty : Ty) (d a b : Opnd)
  | shr (ty : Ty) (d a b : Opnd)
  | sar (ty : Ty) (d a b : Opnd)
  | rol (ty : Ty) (d a b : Opnd)
  -- one-source integer and moves (R363, R364)
  | iabs (ty : Ty) (sat : Bool) (d a : Opnd)
  | popc (ty : Ty) (d a : Opnd)
  | clz (ty : Ty) (d a : Opnd)
  | ctz (ty : Ty) (d a : Opnd)
  | brev (ty : Ty) (d a : Opnd)
  | mov (ty : Ty) (d a : Opnd)
  | movi (ty : Ty) (d : Opnd) (v : Word)
  -- three-source and field operations (R365, R366)
  | imad (ty : Ty) (fl : Flags) (d a b c : Opnd)
  | imadw (ty : Ty) (sat : Bool) (d a b c : Opnd)
  | lea (ty : Ty) (n : Nat) (d a b : Opnd)
  | bfx (ty : Ty) (d a b : Opnd)
  | bfi (ty : Ty) (d a b c : Opnd)
  | prmt (ty : Ty) (d a b c : Opnd)
  -- carries, selection, comparison (R367, R368)
  | ladd (ty : Ty) (d a b pc : Opnd)
  | lsub (ty : Ty) (d a b pc : Opnd)
  | sel (ty : Ty) (d a b pc : Opnd)
  | icmp (ty : Ty) (rel : Rel) (fl : Flags) (pd a b : Opnd)
  -- lane network (R369)
  | shfl (ty : Ty) (mode : ShflMode) (d a b : Opnd)
  | vote (mode : VoteMode) (d pa : Opnd)
  | redux (ty : Ty) (op : ReduxOp) (d a : Opnd)
  | readl (ty : Ty) (d a b : Opnd)
  | elect (pd : Opnd)
  -- predicates (R370)
  | pand (negA negB : Bool) (pd pa pb : Opnd)
  | por (negA negB : Bool) (pd pa pb : Opnd)
  | pnot (negA : Bool) (pd pa : Opnd)
  | pset (pd a : Opnd)
  | pdef (d pa : Opnd)
  | ptest (m : Nat) (pd pa : Opnd)
  -- class 001 (R382 to R387)
  | fadd (ty : Ty) (rnd : Rnd) (fl : Flags) (d a b : Opnd)
  | fsub (ty : Ty) (rnd : Rnd) (fl : Flags) (d a b : Opnd)
  | fmul (ty : Ty) (rnd : Rnd) (fl : Flags) (d a b : Opnd)
  | ffma (ty : Ty) (rnd : Rnd) (fl : Flags) (d a b c : Opnd)
  | fmin (ty : Ty) (fl : Flags) (d a b : Opnd)
  | fmax (ty : Ty) (fl : Flags) (d a b : Opnd)
  | fcmp (ty : Ty) (rel : Rel) (fl : Flags) (pd a b : Opnd)
  | fdiv (ty : Ty) (rnd : Rnd) (fl : Flags) (d a b : Opnd)
  | fsqrt (ty : Ty) (rnd : Rnd) (fl : Flags) (d a : Opnd)
  | frcp (ty : Ty) (rnd : Rnd) (fl : Flags) (d a : Opnd)
  | frsq (ty : Ty) (rnd : Rnd) (fl : Flags) (d a : Opnd)
  | fexp2 (ty : Ty) (rnd : Rnd) (fl : Flags) (d a : Opnd)
  | flog2 (ty : Ty) (rnd : Rnd) (fl : Flags) (d a : Opnd)
  | frnd (ty : Ty) (rnd : Rnd) (fl : Flags) (d a : Opnd)
  | fclass (ty : Ty) (fl : Flags) (d a : Opnd)
  | fscale (ty : Ty) (rnd : Rnd) (fl : Flags) (d a b : Opnd)
  -- class 010 (R389, R280)
  | ivadd (ty : Ty) (d a b : Opnd)
  | ivsub (ty : Ty) (d a b : Opnd)
  | ivmul (ty : Ty) (d a b : Opnd)
  | ivdiv (ty : Ty) (d a b : Opnd)
  | ivfma (ty : Ty) (d a b c : Opnd)
  | ivsqr (ty : Ty) (d a : Opnd)
  | ivsqrt (ty : Ty) (d a : Opnd)
  | ivrcp (ty : Ty) (d a : Opnd)
  | ivexp2 (ty : Ty) (d a : Opnd)
  | ivlog2 (ty : Ty) (d a : Opnd)
  | ivabs (ty : Ty) (d a : Opnd)
  | ivneg (ty : Ty) (d a : Opnd)
  | ivmin (ty : Ty) (d a b : Opnd)
  | ivmax (ty : Ty) (d a b : Opnd)
  | ivhull (ty : Ty) (d a b : Opnd)
  | ivisect (ty : Ty) (d a b : Opnd)
  | ivmake (ty : Ty) (d p q : Opnd)
  | ivpt (ty : Ty) (d p : Opnd)
  | ivlo (ty : Ty) (d a : Opnd)
  | ivhi (ty : Ty) (d a : Opnd)
  | ivmid (ty : Ty) (d a : Opnd)
  | ivwid (ty : Ty) (d a : Opnd)
  | ivcmp (ty : Ty) (rel : Rel) (pd a b : Opnd)
  | ivin (ty : Ty) (pd p b : Opnd)
  | ivsubs (ty : Ty) (pd a b : Opnd)
  | ivemp (ty : Ty) (pd a : Opnd)
  | ivbis (ty : Ty) (d a b c : Opnd)
  | ivbfl
  -- class 011 (R394 to R396, R294, R297)
  | cvt (dty sty : Ty) (n : Nat) (rnd : Rnd) (fl : Flags) (d a : Opnd)
  | pack (ty : Ty) (n : Nat) (rnd : Rnd) (fl : Flags) (d a b c : Opnd)
  | unpk (ty : Ty) (n : Nat) (d a : Opnd)
  | qst (k lg : Nat) (cache : Cache) (d base idx : Opnd) (off : BitVec 20)
  | qaxis (lane carry : Bool) (d : Opnd)
  | qclr (d : Opnd)
  | qget (d a : Opnd)
  | qset (d a : Opnd)
  -- class 100 (R401 to R409)
  | ld (ty : Ty) (sw : SubWord) (cache : Cache) (d base idx : Opnd) (off : BitVec 20)
  | st (ty : Ty) (sw : SubWord) (cache : Cache) (d base idx : Opnd) (off : BitVec 20)
  | ldl (ty : Ty) (sw : SubWord) (cache : Cache) (d base idx : Opnd) (off : BitVec 20)
  | stl (ty : Ty) (sw : SubWord) (cache : Cache) (d base idx : Opnd) (off : BitVec 20)
  | ldd (ty : Ty) (sw : SubWord) (cache : Cache) (d base idx : Opnd) (off : BitVec 20)
  | std (ty : Ty) (sw : SubWord) (cache : Cache) (d base idx : Opnd) (off : BitVec 20)
  | ldsp (ty : Ty) (sw : SubWord) (cache : Cache) (d base idx : Opnd) (off : BitVec 20)
  | stsp (ty : Ty) (sw : SubWord) (cache : Cache) (d base idx : Opnd) (off : BitVec 20)
  | ldiv (ty : Ty) (cache : Cache) (d base idx : Opnd) (off : BitVec 20)
  | stiv (ty : Ty) (cache : Cache) (d base idx : Opnd) (off : BitVec 20)
  | atom (ty : Ty) (op : AtomOp) (scope : Scope) (nr : Bool) (d base b : Opnd) (off : BitVec 20)
  | pref (cache : Cache) (base idx : Opnd) (off : BitVec 20)
  | bind (s base n : Opnd) (off : BitVec 20)
  | unbind (s : Opnd)
  | acq (scope : Scope) (s : Opnd)
  | rel (scope : Scope) (s : Opnd)
  | fence (scope : Scope)
  -- class 101 (R227, R233, R238, R247, R298, R412, R414)
  | sinit (kind : SettKind) (a b : Opnd)
  | sarr (scope : Scope) (a b : Opnd)
  | sexp (a b : Opnd)
  | swait (pd a b : Opnd) (t : BitVec 28)
  | swaitTimeout (g lane : Nat)
  | stry (pd a b : Opnd)
  | bar
  | cbar
  | bcopyG2l (d a b : Opnd)
  | bcopyL2g (d a b : Opnd)
  | copyComplete (op : Nat)
  | bqst (d a b : Opnd)
  | bqstComplete (op : Nat)
  | mma (ty : Ty) (z ru : Bool) (d a b : Opnd)
  | mmab (a : Opnd)
  | mmabStage (core : Nat)
  | mmabDone (core : Nat)
  | sampledTileCheck (core : Nat)
  | coll (a : Opnd)
  | collPartialArrival (op child : Nat) (vals : List Nat) (digests : List (Nat × Nat))
  | collDigestArrival (op shard digest : Nat)
  | collComplete (op : Nat) (vals : List Nat)
  | collTimeout (op : Nat)
  | delowAckTimeout (port : Nat)
  | sbind (d a : Opnd)
  | sfree (d : Opnd)
  -- class 110 (R371 to R378, R332, R333)
  | bra (off : BitVec 32)
  | brx (a b : Opnd)
  | call (off : BitVec 32)
  | callx (a b : Opnd)
  | ret
  | join (pd a b : Opnd)
  | joinTimeout (g pc : Nat)
  | bse (n : Nat) (s : Opnd) (off : BitVec 32)
  | region (m : Masks)
  | phase (m : Masks)
  | phaseResume (g : Nat)
  | xacq
  | xrel
  | yield
  | nop
  | waitc
  | exit
  | spawn (queue pin : Bool) (d a b : Opnd)
  | enqueueResume (g : Nat)
  | trap (code : Word) (a : Opnd)
  | bkpt (code : Word) (a : Opnd)
  -- class 111 (R417 to R427, R322, R323, R325)
  | evpost (d a b : Opnd)
  | evld (d a : Opnd)
  | evrel (a : Opnd)
  | wmark (a b : Opnd)
  | autld (d a : Opnd)
  | autctlStop (d a : Opnd)
  | autctlResume (d a : Opnd)
  | autctlCkpt (d a b : Opnd)
  | autctlRemove (d a : Opnd)
  | autctlCount (d a : Opnd)
  | autctlOpen (d a : Opnd)
  | autctlClose (d a : Opnd)
  | sysrd (d a : Opnd)
  | syswrGctl (d a b : Opnd)
  | syswrContextSet (d b : Opnd)
  | syswrInvalidate (d b : Opnd)
  | syswrMigrate (d b : Opnd)
  | syswrContextStop (d b : Opnd)
  | syswrContextResume (d b : Opnd)
  | syswrGroup (d b : Opnd)
  | syswrQueueCreate (d b : Opnd)
  | syswrQueueDestroy (d b : Opnd)
  | syswrQueueSwap (d b : Opnd)
  | ccnt (ty : Ty) (d : Opnd)
  | rand (ty : Ty) (d : Opnd)
  | tokwait
  | tokpass
  | psnt (ty : Ty) (pd a : Opnd)
  | psntClr (ty : Ty) (d a : Opnd)
  -- issue, translation and scheduling steps
  | illegalInstruction
  | loadResultReturn (g idx sector : Nat)
  | tlbWalkComplete (g : Nat)
  | gatherWindowClose (part idx : Nat)
  | pendingOvfRetry (part idx : Nat)
  | timeSliceExpiry (core pasid : Nat)
  | teamEviction (core : Nat)
  | taskDispatch (core : Nat)
  | clusterReserveRequest (core : Nat)
  | clusterReserveGrant (core : Nat)
  | balanceExchange (part : Nat)
  | launchRequest (part : Nat)
  | automatonEventStep (quarter slot : Nat)
  | dropExpiredPass (quarter slot : Nat)
  | matchEngineStateError (quarter : Nat)
  | epochBoundary (part : Nat)
  -- host packets and BAR accesses (chapter 04, R79)
  | eventPacketPost (link port slot : Nat) (pasid : Option Nat) (pkt : Packet)
  | eventPacketWatermark (link port slot : Nat) (pasid : Option Nat) (pkt : Packet)
  | remapHoldoffExpiry (link entry : Nat)
  | refusalWindowClose (link port : Nat)
  | slotcntRead (link port slot : Nat) (pasid : Option Nat)
  | slotBadRead (link port slot : Nat) (pasid : Option Nat) (off len : Nat)
  | barUnsupportedAccess (acc : BarAccess)
  | mbstatWrite (link : Nat) (v : Word)
  | registerWrite (link off : Nat) (v : Word)
  -- firmware commands, run from a link's mailbox (R81)
  | partCreate (link : Nat)
  | partDestroy (link : Nat)
  | partQuarters (link : Nat)
  | delowPorts (link : Nat)
  | routeSet (link : Nat)
  | evportSet (link : Nat)
  | slotSet (link : Nat)
  | remapSet (link : Nat)
  | streamAssign (link : Nat)
  | pasidAdd (link : Nat)
  | pasidRevoke (link : Nat)
  | keySet (link : Nat)
  | keyClear (link : Nat)
  | rangeSet (link : Nat)
  | setWorld (link : Nat)
  | resetGroup (link : Nat)
  | resetTeam (link : Nat)
  | resetCore (link : Nat)
  | resetQuarter (link : Nat)
  | resetPartition (link : Nat)
  | resetMatchEngine (link : Nat)
  | resetDelowPort (link : Nat)
  | resetPcieFunction (link : Nat)
  | quote (link : Nat)
  | patch (link : Nat)
  | energySet (link : Nat)
  | replicaSet (link : Nat)
  | info (link : Nat)
  -- the package and its links
  | replicaDigestArrival (part digest : Nat)
  | replicaTimeout (part : Nat)
  | powerOn
  | perstNReleaseLink0
  | perstNLink1 (assert : Bool)
  | pwrfail
  | thermtrip
  | powerLimitExceeded (watts : Nat)
  | thermalLimit (eighths : Nat)
  | thermalHardLimit (eighths : Nat)
  | currentLimit
  | stepRecovery
  | stepChangeComplete
  | packageTimerTick
  | energyWindowEnd
  | pcieLinkDown (link : Nat)
  | hotReset (link : Nat)
  | functionLevelReset (link : Nat)
  | atsInvalidation (link pasid va pages : Nat)
  | atsCompletion (link tag addr : Nat) (read write : Bool)
  | hostReadCompletion (link tag : Nat) (data : List Byte)
  | dieLinkCrcError (dlink : Nat)
  | dieLinkReplayWindow
  | delowFlitReceive (port : Nat) (bytes : List Byte)
  | delowRetrainComplete (port : Nat) (ok : Bool)
  | uncorrectableError (cls target loc : Nat)
  | pcieLinkUp (link : Nat) (retraining : Bool)
  | perstNAssertLink0
  | delowPortUp (port : Nat)
  | correctedError (cls target loc : Nat)
deriving DecidableEq, Repr

end Sys2Proof
end

