-- ==== Sys2Proof/Machine/Fp.lean ====
section
/-! DEFINITION. Floating-point values, the one conversion function round_to, the correctly rounded operations, and the
block formats (chapter 14, R256 to R269; R382 to R387). Every operation is computed exactly and rounded once. -/

namespace Sys2Proof.Machine

/-- An exact value: NaN, an infinity, or (-1)^neg × m × 2^e. A zero (m = 0) keeps its sign. -/
inductive FVal where
  | nan
  | inf (neg : Bool)
  | fin (neg : Bool) (m : Nat) (e : Int)
deriving DecidableEq, Repr

/-- A format of R258: mantissa bits, bias, the largest finite magnitude's code, the code above which a magnitude is
NaN, whether the format has infinities, the sign's position, and the canonical NaN. -/
structure Fmt where
  mant : Nat
  bias : Nat
  maxCode : Nat
  hasInf : Bool
  signBit : Nat
  qnan : Nat
deriving DecidableEq, Repr

namespace Fmt
/-- binary64. -/
def f64 : Fmt := ⟨52, 1023, 0x7FEFFFFFFFFFFFFF, true, 63, 0x7FF8000000000000⟩
/-- binary32. -/
def f32 : Fmt := ⟨23, 127, 0x7F7FFFFF, true, 31, 0x7FC00000⟩
/-- BF16. -/
def bf16 : Fmt := ⟨7, 127, 0x7F7F, true, 15, 0x7FC0⟩
/-- E5M2. -/
def e5m2 : Fmt := ⟨2, 15, 0x7B, true, 7, 0x7E⟩
/-- E4M3. -/
def e4m3 : Fmt := ⟨3, 7, 0x7E, false, 7, 0x7F⟩
/-- E2M1 as a plain code of four bits: it has no infinity and no NaN. -/
def e2m1 : Fmt := ⟨1, 1, 0x7, false, 3, 0⟩
end Fmt

/-- Floor of the base-2 logarithm of m × 2^e, for m not zero. -/
def expOf (m : Nat) (e : Int) : Int := (Nat.log2 m : Int) + e

/-- The value of a pattern in a format (R258). -/
def Fmt.value (f : Fmt) (bits : Nat) : FVal :=
  let neg := bit bits f.signBit
  let mag := bits % 2 ^ f.signBit
  if f.maxCode < mag then
    if f.hasInf && mag == f.maxCode + 1 then .inf neg else .nan
  else
    let ex := mag / 2 ^ f.mant
    let m := mag % 2 ^ f.mant
    if ex = 0 then .fin neg m (1 - (f.bias : Int) - f.mant)
    else .fin neg (2 ^ f.mant + m) ((ex : Int) - f.bias - f.mant)

/-- m / 2^sh rounded to an integer by the mode; a shift far beyond the bits of m is cut, which changes nothing. -/
def roundShift (rm : Rnd) (neg : Bool) (m sh : Nat) : Nat :=
  let s := min sh (Nat.log2 m + 3)
  let n := m / 2 ^ s
  let r := m % 2 ^ s
  let up := match rm with
    | .rne => decide (2 ^ s < 2 * r) || (2 * r == 2 ^ s && s != 0 && n % 2 == 1)
    | .rtz => false
    | .rdn => neg && r != 0
    | .rup => !neg && r != 0
  if up then n + 1 else n

/-- The pattern of a sign and a magnitude's code. -/
def Fmt.pack (f : Fmt) (neg : Bool) (code : Nat) : Nat := b2n neg * 2 ^ f.signBit + code

/-- overflow of R262. -/
def Fmt.overflow (f : Fmt) (neg : Bool) (rm : Rnd) (sat : Bool) : Nat :=
  if sat || rm == .rtz || (rm == .rdn && !neg) || (rm == .rup && neg) then f.pack neg f.maxCode
  else if f.hasInf then f.pack neg (f.maxCode + 1)
  else f.qnan

/-- round_to of R262 for a floating target. -/
def Fmt.round (f : Fmt) (v : FVal) (rm : Rnd) (sat : Bool) : Nat :=
  match v with
  | .nan => f.qnan
  | .inf neg =>
    if sat then f.pack neg f.maxCode
    else if f.hasInf then f.pack neg (f.maxCode + 1) else f.qnan
  | .fin neg m e =>
    if m = 0 then f.pack neg 0
    else
      let emin : Int := 1 - (f.bias : Int) - f.mant
      let q := max (expOf m e - f.mant) emin
      let n := if e ≤ q then roundShift rm neg m (q - e).toNat else m * 2 ^ (e - q).toNat
      let code := n + (q - emin).toNat * 2 ^ f.mant
      if f.maxCode < code then f.overflow neg rm sat else f.pack neg code

/-- The integer nearest a value in the mode, exactly. -/
def roundToInt (rm : Rnd) (neg : Bool) (m : Nat) (e : Int) : Nat :=
  if 0 ≤ e then m * 2 ^ e.toNat else roundShift rm neg m (-e).toNat

/-- The lowest value of an integer type. -/
def tyLow : Ty → Int
  | .i32 => -(2 ^ 31)
  | .i64 => -(2 ^ 63)
  | _ => 0

/-- The highest value of an integer type. -/
def tyHigh : Ty → Int
  | .i32 => 2 ^ 31 - 1
  | .n32 => 2 ^ 32 - 1
  | .i64 => 2 ^ 63 - 1
  | _ => 2 ^ 64 - 1

/-- The bits of an operand of the type. -/
def tyWidth : Ty → Nat
  | .i64 | .n64 | .f64 => 64
  | .f32iv => 64
  | .f64iv => 128
  | _ => 32

/-- round_int of R263, as the type's bit pattern. A magnitude of 2^70 or more is beyond every range. -/
def roundInt (ty : Ty) (v : FVal) (rm : Rnd) : Nat :=
  let cl (x : Int) : Nat := ((max (tyLow ty) (min (tyHigh ty) x)) % 2 ^ tyWidth ty).toNat
  match v with
  | .nan => 0
  | .inf neg => cl (if neg then tyLow ty else tyHigh ty)
  | .fin neg m e =>
    if m = 0 then 0
    else if 70 < expOf m e then cl (if neg then tyLow ty else tyHigh ty)
    else
      let n : Int := roundToInt rm neg m e
      cl (if neg then -n else n)

/-- The exact value of an integer. -/
def FVal.ofInt (i : Int) : FVal := .fin (decide (i < 0)) i.natAbs 0

/-- The significand with its sign. -/
def sgn (neg : Bool) (m : Nat) : Int := if neg then -(m : Int) else m

namespace FVal

/-- The sign bit of a value; NaN has none. -/
def neg? : FVal → Bool
  | .nan => false
  | .inf n => n
  | .fin n _ _ => n

/-- Negation. -/
def negate : FVal → FVal
  | .nan => .nan
  | .inf n => .inf (!n)
  | .fin n m e => .fin (!n) m e

/-- Magnitude. -/
def abs : FVal → FVal
  | .nan => .nan
  | .inf _ => .inf false
  | .fin _ m e => .fin false m e

/-- Whether the value is a zero. -/
def isZero : FVal → Bool
  | .fin _ m _ => m == 0
  | _ => false

/-- Whether the value is NaN. -/
def isNan : FVal → Bool
  | .nan => true
  | _ => false

/-- Whether the value is real. -/
def isFin : FVal → Bool
  | .fin .. => true
  | _ => false

/-- a × 2^k. -/
def scale (k : Int) : FVal → FVal
  | .fin n m e => .fin n m (e + k)
  | v => v

/-- The exact sum; an exact zero of differing signs is +0, and -0 in mode rdn (R260). -/
def add (rm : Rnd) : FVal → FVal → FVal
  | .nan, _ => .nan
  | _, .nan => .nan
  | .inf a, .inf b => if a = b then .inf a else .nan
  | .inf a, _ => .inf a
  | _, .inf b => .inf b
  | .fin na ma ea, .fin nb mb eb =>
    let e := min ea eb
    let s := sgn na ma * 2 ^ (ea - e).toNat + sgn nb mb * 2 ^ (eb - e).toNat
    if s = 0 then
      .fin (if ma = 0 ∧ mb = 0 ∧ na = nb then na else rm == .rdn) 0 e
    else .fin (decide (s < 0)) s.natAbs e

/-- The exact product. -/
def mul : FVal → FVal → FVal
  | .nan, _ => .nan
  | _, .nan => .nan
  | .inf a, .inf b => .inf (a != b)
  | .inf a, .fin b m _ => if m = 0 then .nan else .inf (a != b)
  | .fin a m _, .inf b => if m = 0 then .nan else .inf (a != b)
  | .fin na ma ea, .fin nb mb eb => .fin (na != nb) (ma * mb) (ea + eb)

/-- A value in the same rounding cell, in every format, as q × 2^e plus a remainder below 2^e: the quotient's bits
followed by one bit that says whether a remainder is left. -/
def withSticky (neg : Bool) (q : Nat) (e : Int) (exact : Bool) : FVal :=
  if exact then .fin neg q e else .fin neg (2 * q + 1) (e - 1)

/-- The quotient, in the rounding cell of the exact one. -/
def div : FVal → FVal → FVal
  | .nan, _ => .nan
  | _, .nan => .nan
  | .inf _, .inf _ => .nan
  | .inf a, .fin b _ _ => .inf (a != b)
  | .fin a _ _, .inf b => .fin (a != b) 0 0
  | .fin na ma ea, .fin nb mb eb =>
    if mb = 0 then (if ma = 0 then .nan else .inf (na != nb))
    else if ma = 0 then .fin (na != nb) 0 0
    else
      let s := 72 + Nat.log2 mb
      let n := ma * 2 ^ s
      withSticky (na != nb) (n / mb) (ea - eb - s) (n % mb == 0)

end FVal

/-- The integer square root found bit by bit, from bit k downwards. -/
def isqrtFrom : Nat → Nat → Nat → Nat
  | 0, n, r => if (r + 1) * (r + 1) ≤ n then r + 1 else r
  | k + 1, n, r =>
    let t := r + 2 ^ (k + 1)
    isqrtFrom k n (if t * t ≤ n then t else r)

/-- The integer square root. -/
def isqrt (n : Nat) : Nat := isqrtFrom (Nat.log2 n / 2 + 1) n 0

/-- The square root of a positive m × 2^e, in its rounding cell. -/
def sqrtPos (m : Nat) (e : Int) : FVal :=
  let odd := (e % 2).toNat
  let n := m * 2 ^ odd * 2 ^ 144
  let r := isqrt n
  FVal.withSticky false r ((e - odd) / 2 - 72) (r * r == n)

/-- The reciprocal square root of a positive m × 2^e, in its rounding cell. -/
def rsqrtPos (m : Nat) (e : Int) : FVal :=
  let odd := (e % 2).toNat
  let m1 := m * 2 ^ odd
  let k := 72 + Nat.log2 m1
  let r := isqrt (2 ^ (2 * k) / m1)
  FVal.withSticky false r (-((e - odd) / 2) - k) (r * r * m1 == 2 ^ (2 * k))

/-- The bits of the fixed-point series of 2^x and log2. -/
def seriesBits : Nat := 448

/-- acc + Σ z^j / j over odd j, from t = z^j onward, in fixed point with p bits. -/
def atanhSum : Nat → Nat → Nat → Nat → Nat → Nat → Nat
  | 0, _, _, _, _, acc => acc
  | n + 1, p, z2, t, j, acc => atanhSum n p z2 (t * z2 / 2 ^ p) (j + 2) (acc + t / j)

/-- ln x for x = num / den in [1, 2], in fixed point: 2 artanh((x - 1) / (x + 1)). -/
def lnFixed (num den : Nat) : Nat :=
  let p := seriesBits
  let z := (num - den) * 2 ^ p / (num + den)
  2 * atanhSum 150 p (z * z / 2 ^ p) z 1 0

/-- acc + Σ x^k / k! from t = x^(k-1) / (k-1)! onward, in fixed point with p bits. -/
def expSum : Nat → Nat → Nat → Nat → Nat → Nat → Nat
  | 0, _, _, _, _, acc => acc
  | n + 1, p, x, t, k, acc =>
    let t' := t * x / 2 ^ p / k
    expSum n p x t' (k + 1) (acc + t')

/-- 2^a for a real a, in the rounding cell of the exact value (DEDUCED: the series has 448 bits, far beyond the
hardest cases known; log entry 19). A magnitude of 2^16 or more lies beyond every format. (DEDUCED: log entry 19) -/
def exp2Fin (neg : Bool) (m : Nat) (e : Int) : FVal :=
  if m = 0 then .fin false 1 0
  else if 16 ≤ expOf m e then .fin false 1 (if neg then -(2 ^ 16) else 2 ^ 16)
  else if expOf m e < -100 then
    if neg then .fin false (2 ^ 160 - 1) (-160) else .fin false (2 ^ 160 + 1) (-160)
  else
    let a := sgn neg m
    let d := 2 ^ (-e).toNat
    let whole : Int := if 0 ≤ e then a * 2 ^ e.toNat else a / d
    let part : Nat := if 0 ≤ e then 0 else (a % d).toNat
    if part = 0 then .fin false 1 whole
    else
      let p := seriesBits
      let x := part * lnFixed 2 1 / 2 ^ (-e).toNat
      let r := expSum 110 p x (2 ^ p) 1 (2 ^ p)
      .fin false (2 * r + 1) (whole - p - 1)

/-- log2 of a positive m × 2^e, in the rounding cell of the exact value (DEDUCED, as exp2Fin). (DEDUCED: log entry 19) -/
def log2Pos (m : Nat) (e : Int) : FVal :=
  let l := Nat.log2 m
  let ex : Int := (l : Int) + e
  if m = 2 ^ l then FVal.ofInt ex
  else
    let p := seriesBits
    let frac := lnFixed m (2 ^ l) * 2 ^ p / lnFixed 2 1
    let s : Int := ex * 2 ^ p + frac
    .fin (decide (s < 0)) (2 * s + 1).natAbs (-(p : Int) - 1)

namespace FVal

/-- FSQRT's value (R384). -/
def sqrt : FVal → FVal
  | .nan => .nan
  | .inf n => if n then .nan else .inf false
  | .fin n m e => if m = 0 then .fin n 0 0 else if n then .nan else sqrtPos m e

/-- FRCP's value (R384). -/
def rcp (v : FVal) : FVal := (FVal.fin false 1 0).div v

/-- FRSQ's value (R384). -/
def rsqrt : FVal → FVal
  | .nan => .nan
  | .inf n => if n then .nan else .fin false 0 0
  | .fin n m e => if m = 0 then .inf n else if n then .nan else rsqrtPos m e

/-- FEXP2's value (R384). -/
def exp2 : FVal → FVal
  | .nan => .nan
  | .inf n => if n then .fin false 0 0 else .inf false
  | .fin n m e => exp2Fin n m e

/-- FLOG2's value (R384). -/
def log2 : FVal → FVal
  | .nan => .nan
  | .inf n => if n then .nan else .inf false
  | .fin n m e => if m = 0 then .inf true else if n then .nan else log2Pos m e

/-- FRND's value: the integral value that the mode selects (R384). -/
def integral (rm : Rnd) : FVal → FVal
  | .fin n m e => if 0 ≤ e then .fin n m e else .fin n (roundToInt rm n m e) 0
  | v => v

/-- IEEE's comparison: none when a NaN takes part; -0 equals +0. -/
def cmp : FVal → FVal → Option Ordering
  | .nan, _ => none
  | _, .nan => none
  | .inf a, .inf b => some (compare (b2n b) (b2n a))
  | .inf a, .fin .. => some (if a then .lt else .gt)
  | .fin .., .inf b => some (if b then .gt else .lt)
  | .fin na ma ea, .fin nb mb eb =>
    let e := min ea eb
    some (compare (sgn na ma * 2 ^ (ea - e).toNat) (sgn nb mb * 2 ^ (eb - e).toNat))

/-- a < b. -/
def lt (a b : FVal) : Bool := cmp a b == some .lt

/-- a ≤ b. -/
def le (a b : FVal) : Bool := cmp a b == some .lt || cmp a b == some .eq

end FVal

/-- Whether a relation holds between ordered values (R368). -/
def relHolds (r : Rel) (o : Ordering) : Bool :=
  match r with
  | .eq => o == .eq
  | .ne => o != .eq
  | .lt => o == .lt
  | .le => o != .gt
  | .gt => o == .gt
  | .ge => o != .lt

/-- A Boolean as a predicate value. -/
def triOf (b : Bool) : Tri := if b then .T else .F

/-- Kleene's conjunction (R282). -/
def kleeneAnd : Tri → Tri → Tri
  | .F, _ => .F
  | _, .F => .F
  | .T, .T => .T
  | _, _ => .U

/-- Kleene's disjunction (R282). -/
def kleeneOr : Tri → Tri → Tri
  | .T, _ => .T
  | _, .T => .T
  | .F, .F => .F
  | _, _ => .U

/-- Kleene's negation (R282). -/
def kleeneNot : Tri → Tri
  | .T => .F
  | .F => .T
  | .U => .U

/-- FCMP on two values (R385). -/
def fcmpVal (r : Rel) (a b : FVal) : Tri :=
  match a.cmp b with
  | none => .U
  | some o => triOf (relHolds r o)

/-- The class bit of a pattern (R386). -/
def fclassBits (f : Fmt) (bits : Nat) : Nat :=
  let mag := bits % 2 ^ f.signBit
  let neg := bit bits f.signBit
  match f.value bits with
  | .nan => if bit bits (f.mant - 1) then 2 ^ 9 else 2 ^ 8
  | .inf _ => if neg then 1 else 2 ^ 7
  | .fin _ m _ =>
    if m = 0 then (if neg then 2 ^ 3 else 2 ^ 4)
    else if mag < 2 ^ f.mant then (if neg then 2 ^ 2 else 2 ^ 5)
    else (if neg then 2 ^ 1 else 2 ^ 6)

/-- minimumNumber and maximumNumber on patterns after the source flags (R384): the chosen operand bit for bit. -/
def fminmaxBits (f : Fmt) (isMax : Bool) (a b : Nat) : Nat :=
  match (f.value a), (f.value b) with
  | .nan, .nan => f.qnan
  | .nan, _ => b
  | _, .nan => a
  | va, vb =>
    match va.cmp vb with
    | some .lt => if isMax then b else a
    | some .gt => if isMax then a else b
    | _ => if bit a f.signBit = bit b f.signBit then a
           else if bit a f.signBit = isMax then b else a

/-- The element formats and the number of elements of a floating type (R383). -/
def fpFmt : Ty → Fmt
  | .f64 | .f64iv => .f64
  | .bf16x2 | .bf16iv => .bf16
  | .e4m3 => .e4m3
  | .e5m2 => .e5m2
  | .e2m1 => .e2m1
  | _ => .f32

/-- negA, negB, negC and absA on an element's bits: absolute value first (R344). -/
def fpFlag (f : Fmt) (neg abs : Bool) (bits : Nat) : Nat :=
  let mag := bits % 2 ^ f.signBit
  let s := bit bits f.signBit && !abs
  f.pack (s != neg) mag

/-- An element-wise operation of class 001: bf16x2 acts on both halves (R383). -/
def perElement (ty : Ty) (op : Nat → Nat → Nat → Nat) (a b c : Nat) : Nat :=
  match ty with
  | .bf16x2 =>
    op (a % 65536) (b % 65536) (c % 65536) + 65536 * op (a / 65536 % 65536) (b / 65536 % 65536) (c / 65536 % 65536)
  | _ => op a b c

/-- A value rounded once into the type's element format. -/
def fpRound (ty : Ty) (rm : Rnd) (sat : Bool) (v : FVal) : Nat := (fpFmt ty).round v rm sat

/-- The value of a pattern as the type's element. -/
def fpVal (ty : Ty) (bits : Nat) : FVal := (fpFmt ty).value bits

/-! Block formats (R264 to R267). -/

/-- The formats of pages (R175): RAW, the two byte formats and the three block formats. -/
inductive PFmt where
  | raw | e4m3 | e5m2 | e4m3b32 | e2m1b32 | e2m1b32x
deriving DecidableEq, Repr

/-- The block formats. -/
def PFmt.isBlock : PFmt → Bool
  | .e4m3b32 | .e2m1b32 | .e2m1b32x => true
  | _ => false

/-- The formats with E2M1 elements. -/
def PFmt.isNibble : PFmt → Bool
  | .e2m1b32 | .e2m1b32x => true
  | _ => false

/-- |v| ≤ lim × 2^s. -/
def magLe (v : FVal) (lim : Nat) (s : Int) : Bool := v.abs.le (.fin false lim s)

/-- The least s among n candidates from s0 upward with |v| ≤ lim × 2^s. -/
def leastScale : Nat → FVal → Nat → Int → Int
  | 0, _, _, s => s
  | n + 1, v, lim, s => if magLe v lim s then s else leastScale n v lim (s + 1)

/-- The value of greatest magnitude; the first one where several are equal, and +0 where there is none. -/
def maxMag : List FVal → FVal
  | [] => .fin false 0 0
  | v :: vs => vs.foldl (fun acc v => if acc.abs.lt v.abs then v else acc) v

/-- block_scale of R265. -/
def blockScale (fmt : PFmt) (vs : List FVal) : Nat :=
  if vs.any (fun v => !v.isFin) then 0xFF
  else
    let lim := if fmt = .e4m3b32 then 448 else 6
    match maxMag vs with
    | .fin _ m e =>
      let s := if m = 0 then -127 else leastScale 12 (.fin false m e) lim (expOf m e - Nat.log2 lim - 1)
      ((max (-127) (min 127 s)) + 127).toNat
    | _ => 0xFF

/-- block_extra of R265; the lowest index of the greatest magnitude gives the value. -/
def blockExtra (vs : List FVal) (e : Nat) : Nat :=
  if e = 0xFF then 0
  else Fmt.e4m3.round ((maxMag vs).scale (127 - (e : Int))) .rne true

/-- |y - c| for real values, as a non-negative value. -/
def distance (y c : FVal) : FVal := (y.add .rne c.negate).abs

/-- Whether code c2 is chosen before c1 for y (R266): nearer; then a code before the extra value; then, of equal
values, the code with y's sign; then the code whose bit 0 is 0. The flag of a candidate says that it is the extra
value. -/
def better (y : FVal) (c1 c2 : Nat × FVal × Bool) : Bool :=
  match (distance y c2.2.1).cmp (distance y c1.2.1) with
  | some .lt => true
  | some .gt => false
  | _ =>
    if c1.2.2 != c2.2.2 then c1.2.2
    else if c1.2.1.cmp c2.2.1 == some .eq then
      (if bit c1.1 3 == bit c2.1 3 then false else bit c2.1 3 == y.neg?)
    else c2.1 % 2 == 0 && c1.1 % 2 == 1

/-- The candidates of an E2M1 element: 16 codes, or 15 codes and the extra value (R266). -/
def e2m1Candidates (extra : Option Nat) : List (Nat × FVal × Bool) :=
  (List.range 16).filterMap fun c =>
    match extra with
    | none => some (c, Fmt.e2m1.value c, false)
    | some x =>
      if c = 8 then
        match Fmt.e4m3.value x with
        | .nan => none
        | v => some (8, v, true)
      else some (c, Fmt.e2m1.value c, false)

/-- The E2M1 code of a real y among its candidates (R266). An infinite y saturates to the code of ±6. -/
def e2m1Code (extra : Option Nat) (y : FVal) : Nat :=
  match y with
  | .nan => 0
  | .inf n => if n then 15 else 7
  | y => ((e2m1Candidates extra).foldl (fun acc c => if better y acc c then c else acc) (0, .fin false 0 0, false)).1

/-- The code of a block's element from the value u to be stored, with scale byte e and extra byte x (R266). In
E2M1B32X an input of -0 encodes as 0000. -/
def blockCode (fmt : PFmt) (u : FVal) (e x : Nat) : Nat :=
  if e = 0xFF then 0
  else
    let y := u.scale (127 - (e : Int))
    match fmt with
    | .e4m3b32 => Fmt.e4m3.round y .rne true
    | .e2m1b32 => e2m1Code none y
    | _ => if y.isZero then 0 else e2m1Code (some x) y

/-- The exact value of a block's element (R267, R241). -/
def blockValue (fmt : PFmt) (code e x : Nat) : FVal :=
  if e = 0xFF then .nan
  else
    let m := match fmt with
      | .e4m3b32 => Fmt.e4m3.value code
      | .e2m1b32x => if code = 8 then Fmt.e4m3.value x else Fmt.e2m1.value code
      | _ => Fmt.e2m1.value code
    m.scale ((e : Int) - 127)

/-- The exact value of an element of any format page; e and x are the block's side bytes. -/
def pageValue (fmt : PFmt) (code e x : Nat) : FVal :=
  match fmt with
  | .e4m3 => Fmt.e4m3.value code
  | .e5m2 => Fmt.e5m2.value code
  | f => blockValue f code e x

end Sys2Proof.Machine
end

