-- ==== Sys2Proof/WellFormed.lean ====
section
/-! DEFINITION. Which instructions have an encoding: the operand levels, types, flags and modifiers that the
entries of chapters 12, 13, 15, 16, 17, 18 and 20 to 22 permit (R351, R352, R355). -/

namespace Sys2Proof

/-- The header fields that every instruction has, apart from opcode, RU, type and subop (R343). -/
structure Header where
  gpred : Nat
  gmask : Nat
  stall : Nat
  y : Bool
  wl : Bool
deriving DecidableEq, Repr

/-- The header of an unguarded instruction without hints (R14, R15). -/
def Header.plain : Header := ⟨0, 7, 0, false, false⟩

/-- The header's fields lie in their widths, and the guard mask is not empty (R343, R14). -/
def Header.wf (h : Header) : Bool :=
  h.gpred < 8 && 0 < h.gmask && h.gmask < 8 && h.stall < 32

/-- The number of 32-bit registers that an operand of the type fills (R256, R270). -/
def Ty.regs : Ty → Nat
  | .i64 | .n64 | .f64 | .f32iv => 2
  | .f64iv => 4
  | _ => 1

/-- The integer types (R361). -/
def Ty.isInt : Ty → Bool
  | .i32 | .n32 | .i64 | .n64 => true
  | _ => false

/-- The signed integer types. -/
def Ty.signed : Ty → Bool
  | .i32 | .i64 => true
  | _ => false

/-- i32 and n32. -/
def Ty.isInt32 : Ty → Bool
  | .i32 | .n32 => true
  | _ => false

/-- f32, f64 and bf16x2 (R382). -/
def Ty.isFp : Ty → Bool
  | .f32 | .f64 | .bf16x2 => true
  | _ => false

/-- f32 and f64. -/
def Ty.isFp2 : Ty → Bool
  | .f32 | .f64 => true
  | _ => false

/-- The interval types (R270). -/
def Ty.isIv : Ty → Bool
  | .f32iv | .f64iv | .bf16iv => true
  | _ => false

/-- The types 0x0 to 0x6. -/
def Ty.plain : Ty → Bool
  | .i32 | .n32 | .i64 | .n64 | .f32 | .f64 | .bf16x2 => true
  | _ => false

/-- The narrow types that PACK, UNPK and CVT take beside bf16x2 (R394 to R396). -/
def Ty.narrow : Ty → Bool
  | .bf16x2 | .e4m3 | .e5m2 | .e2m1 => true
  | _ => false

/-- The point type of an interval type: f64 for f64 intervals, else f32 (R389). -/
def Ty.point : Ty → Ty
  | .f64iv => .f64
  | _ => .f32

namespace Opnd

/-- An aligned range of n x or w registers inside its level (R17, R351). -/
def range (n : Nat) : Opnd → Bool
  | .x k => k % n == 0 && decide (k + n ≤ 256)
  | .w k => k % n == 0 && decide (k + n ≤ 384)
  | _ => false

/-- An aligned range of n x registers. -/
def rangeX (n : Nat) : Opnd → Bool
  | .x k => k % n == 0 && decide (k + n ≤ 256)
  | _ => false

/-- An x, w, c or lat register of 32 bits. -/
def reg32 : Opnd → Bool
  | .x k => decide (k < 256)
  | .w k => decide (k < 384)
  | .c k => decide (k < 8)
  | .lat => true
  | _ => false

/-- An x, w, c or lat register, or zero. -/
def reg32z : Opnd → Bool
  | .zero => true
  | o => o.reg32

/-- A destination of n registers at the levels x, w, c and lat. -/
def dst (n : Nat) (o : Opnd) : Bool := if n = 1 then o.reg32 else o.range n

/-- A source of n registers at the levels x, w, c and lat, or zero. -/
def src (n : Nat) (o : Opnd) : Bool :=
  match o with
  | .zero => true
  | o => o.dst n

/-- A stream register. -/
def sreg : Opnd → Bool
  | .s k => decide (k < 8)
  | _ => false

/-- A destination that may also be a stream register when it has 32 bits (R359). -/
def dstS (n : Nat) (o : Opnd) : Bool := o.dst n || (n == 1 && o.sreg)

/-- A source that may also be a stream register when it has 32 bits (R359). -/
def srcS (n : Nat) (o : Opnd) : Bool := o.src n || (n == 1 && o.sreg)

/-- The immediate of 32 bits. -/
def isImm : Opnd → Bool
  | .imm _ => true
  | _ => false

/-- The immediate of an E body: 28 bits (R349). -/
def isImm28 : Opnd → Bool
  | .imm v => decide (v.toNat < 2 ^ 28)
  | _ => false

/-- A source of n registers, or the immediate of the I body. -/
def srcI (n : Nat) (o : Opnd) : Bool := o.srcS n || o.isImm

/-- The B operand beside an immediate C: in x0 to x127 (R345). -/
def lowX (n : Nat) : Opnd → Bool
  | .x k => k % n == 0 && decide (k < 128)
  | _ => false

/-- A predicate source. -/
def psrc : Opnd → Bool
  | .p k => decide (k < 8)
  | _ => false

/-- A predicate destination: p1 to p7 (R281). -/
def pdst : Opnd → Bool
  | .p k => decide (0 < k) && decide (k < 8)
  | _ => false

/-- A residue register. -/
def ereg : Opnd → Bool
  | .e k => decide (k < 8)
  | _ => false

/-- An interval source: an aligned x or w range, or zero (R380). -/
def ivSrc (n : Nat) : Opnd → Bool
  | .zero => true
  | o => o.range n

/-- An x or w pair, or zero: a generic base (R401). -/
def base64 : Opnd → Bool
  | .zero => true
  | o => o.range 2

/-- The unused field. -/
def isZero : Opnd → Bool
  | .zero => true
  | _ => false

end Opnd

/-- Every set flag is one that the entry permits. -/
def Flags.within (fl : Flags) (negA negB negC absA sat : Bool) : Bool :=
  (!fl.negA || negA) && (!fl.negB || negB) && (!fl.negC || negC) && (!fl.absA || absA) && (!fl.sat || sat)

/-- The flags of a two-source integer operation: negations only at the signed types and in the register form (R361). -/
def wfInt2 (ty : Ty) (fl : Flags) (neg sat : Bool) (d a b : Opnd) : Bool :=
  ty.isInt && d.dstS ty.regs && a.srcS ty.regs && b.srcI ty.regs &&
  (if b.isImm then fl.within false false false false sat
   else fl.within (neg && ty.signed) (neg && ty.signed) false (neg && ty.signed) sat)

/-- A two-source operation of integer types without flags, its second operand of nb registers (R361). -/
def wfBits2 (ty : Ty) (nb : Nat) (d a b : Opnd) : Bool :=
  ty.isInt && d.dstS ty.regs && a.srcS ty.regs && b.srcI nb

/-- A two-source operation of class 001 (R382). -/
def wfFp2 (ok : Bool) (ty : Ty) (fl : Flags) (sat : Bool) (d a b : Opnd) : Bool :=
  ok && d.dstS ty.regs && a.srcS ty.regs && b.srcI ty.regs &&
  (if b.isImm then fl.within false false false false sat else fl.within true true false true sat)

/-- A one-source operation of class 001 (R382). -/
def wfFp1 (ok : Bool) (ty : Ty) (fl : Flags) (sat : Bool) (d a : Opnd) : Bool :=
  ok && d.dstS ty.regs && a.srcI ty.regs &&
  (if a.isImm then fl.within false false false false sat else fl.within true false false true sat)

/-- An interval operation with two or three interval sources (R389). -/
def wfIv (ty : Ty) (d : Opnd) (srcs : List Opnd) : Bool :=
  ty.isIv && d.range ty.regs && srcs.all (·.ivSrc ty.regs)

/-- A point source of class 010: no stream register (R380). -/
def wfPoint (ty : Ty) (o : Opnd) : Bool := o.src ty.point.regs

/-- A plain load or store: the data operand, the base of the given form and the index (R401). -/
def wfMem (ty : Ty) (sw : SubWord) (data base : Bool) (idx : Opnd) : Bool :=
  ty.plain && (sw == .full || ty.isInt32) && data && base && idx.reg32z

/-- The destination of VOTE: a predicate, or a 32-bit register for the ballots (R369). -/
def wfVote (mode : VoteMode) (d : Opnd) : Bool :=
  match mode with
  | .all | .any => d.pdst
  | .ballot | .ballotf | .ballotu => d.dst 1

/-- The highest element that CVT selects in a source register of the type (R394). -/
def cvtTop : Ty → Nat
  | .bf16x2 => 1
  | .e4m3 | .e5m2 => 3
  | .e2m1 => 7
  | _ => 0

/-- The source types of CVT that take negA and absA (R394). -/
def cvtSigned : Ty → Bool
  | .i32 | .i64 | .f32 | .f64 | .bf16x2 => true
  | _ => false

/-- The highest part number of PACK and UNPK (R395, R396). -/
def packTop : Ty → Nat
  | .e4m3 | .e5m2 => 1
  | .e2m1 => 3
  | _ => 0

/-- An aligned w pair: QST's base (R294). -/
def Opnd.uniformPair : Opnd → Bool
  | .w b => b % 2 == 0 && decide (b + 2 ≤ 384)
  | _ => false

/-- A w register or zero: QST's index (R294). -/
def Opnd.uniform : Opnd → Bool
  | .w b => decide (b < 384)
  | .zero => true
  | _ => false

/-- The types of ATOM's operations; cas always returns its old value (R404). -/
def wfAtom (op : AtomOp) (ty : Ty) (nr : Bool) : Bool :=
  match op with
  | .add | .min | .max | .and | .or | .xor => ty.isInt
  | .xchg => ty.plain
  | .cas => ty.plain && !nr
  | .fadd => ty.isFp
  | .hull => ty.isIv

/-- The accumulator and A ranges of MMA (R238). -/
def wfMmaTy (ty : Ty) (d a : Opnd) : Bool :=
  match ty with
  | .f64 => d.rangeX 64 && a.rangeX 8
  | .bf16x2 | .e2m1 => d.rangeX 32 && a.rangeX 8
  | .e4m3 | .e5m2 => d.rangeX 32 && a.rangeX 4
  | _ => false

/-- MMA's ranges do not overlap (R238). -/
def wfMmaApart (ty : Ty) (d a : Opnd) : Bool :=
  match d, a with
  | .x i, .x j =>
    decide (i + (if ty = .f64 then 64 else 32) ≤ j) || decide (j + (if ty = .e4m3 ∨ ty = .e5m2 then 4 else 8) ≤ i)
  | _, _ => false

/-- A selector of SYSWR that names no row from 0x100 to 0x108 at once (R425). -/
def wfSelector : Opnd → Bool
  | .imm v => decide (v.toNat < 2 ^ 28) && !(decide (0x100 ≤ v.toNat) && decide (v.toNat ≤ 0x108))
  | a => a.reg32

/-- The types and the operand levels of every instruction: a word of the instruction exists exactly when this holds.
Steps that are no program instructions have no word. -/
def wf : Instr → Bool
  | .iadd ty fl d a b | .isub ty fl d a b | .imul ty fl d a b => wfInt2 ty fl true true d a b
  | .imulh ty fl d a b | .imin ty fl d a b | .imax ty fl d a b => wfInt2 ty fl true false d a b
  | .and ty d a b | .or ty d a b | .xor ty d a b | .andn ty d a b => wfBits2 ty ty.regs d a b
  | .shl ty d a b | .shr ty d a b | .sar ty d a b | .rol ty d a b => wfBits2 ty 1 d a b
  | .iabs ty _ d a => (ty == .i32 || ty == .i64) && d.dstS ty.regs && a.srcS ty.regs
  | .popc ty d a | .clz ty d a | .ctz ty d a => ty.isInt && d.dstS 1 && a.srcS ty.regs
  | .brev ty d a => ty.isInt && d.dstS ty.regs && a.srcS ty.regs
  | .mov ty d a =>
    (ty.plain && d.dstS ty.regs && a.srcI ty.regs) || (ty.isIv && d.range ty.regs && a.range ty.regs)
  | .movi ty d _ => ty.plain && d.dstS ty.regs
  | .imad ty fl d a b c =>
    ty.isInt && d.dstS ty.regs && a.srcS ty.regs &&
    (if c.isImm then b.lowX ty.regs && fl.within false ty.signed false false false
     else b.srcS ty.regs && c.srcS ty.regs && fl.within ty.signed ty.signed ty.signed ty.signed true)
  | .imadw ty sat d a b c =>
    ty.isInt32 && d.range 2 && a.srcS 1 &&
    (if c.isImm then b.lowX 1 && !sat else b.srcS 1 && c.ivSrc 2)
  | .lea ty n d a b => ty.isInt32 && decide (n < 8) && d.range 2 && a.range 2 && b.srcI 1
  | .bfx ty d a b => wfBits2 ty 1 d a b
  | .bfi ty d a b c =>
    ty.isInt && d.dstS ty.regs && a.srcS ty.regs &&
    (if c.isImm then b.lowX 1 else b.srcS 1 && c.srcS ty.regs)
  | .prmt ty d a b c =>
    ty.isInt32 && d.dstS 1 && a.srcS 1 && (if c.isImm then b.lowX 1 else b.srcS 1 && c.srcS 1)
  | .ladd ty d a b pc | .lsub ty d a b pc =>
    ty.isInt32 && d.dstS 1 && a.srcS 1 && b.srcS 1 && pc.pdst
  | .sel ty d a b pc => ty.plain && d.dstS ty.regs && a.srcS ty.regs && b.srcS ty.regs && pc.psrc
  | .icmp ty _ fl pd a b =>
    ty.isInt && pd.pdst && a.srcS ty.regs && b.srcI ty.regs &&
    (if b.isImm then fl.within false false false false false
     else fl.within ty.signed ty.signed false ty.signed false)
  | .shfl ty _ d a b | .readl ty d a b =>
    ty.plain && d.dst ty.regs && a.src ty.regs && (b.src 1 || b.isImm)
  | .vote mode d pa =>
    pa.psrc && wfVote mode d
  | .redux ty _ d a => ty.isInt && d.dst ty.regs && a.src ty.regs
  | .elect pd => pd.pdst
  | .pand _ _ pd pa pb | .por _ _ pd pa pb => pd.pdst && pa.psrc && pb.psrc
  | .pnot _ pd pa => pd.pdst && pa.psrc
  | .pset pd a => pd.pdst && a.srcI 1
  | .pdef d pa => d.dstS 1 && pa.psrc
  | .ptest m pd pa => decide (0 < m) && decide (m < 8) && pd.pdst && pa.psrc
  | .fadd ty _ fl d a b | .fsub ty _ fl d a b | .fmul ty _ fl d a b => wfFp2 ty.isFp ty fl true d a b
  | .ffma ty _ fl d a b c =>
    ty.isFp && d.dstS ty.regs && a.srcS ty.regs &&
    (if c.isImm then b.lowX ty.regs && fl.within false true false false false
     else b.srcS ty.regs && c.srcS ty.regs && fl.within true true true true true)
  | .fmin ty fl d a b | .fmax ty fl d a b => wfFp2 ty.isFp ty fl false d a b
  | .fcmp ty _ fl pd a b =>
    ty.isFp2 && pd.pdst && a.srcS ty.regs && b.srcI ty.regs &&
    (if b.isImm then fl.within false false false false false else fl.within true true false true false)
  | .fdiv ty _ fl d a b => wfFp2 ty.isFp2 ty fl true d a b
  | .frcp ty _ fl d a | .frsq ty _ fl d a | .fexp2 ty _ fl d a => wfFp1 ty.isFp2 ty fl true d a
  | .fsqrt ty _ fl d a | .flog2 ty _ fl d a => wfFp1 ty.isFp2 ty fl false d a
  | .frnd ty _ fl d a => wfFp1 ty.isFp ty fl false d a
  | .fclass ty fl d a =>
    ty.isFp && d.dstS 1 && a.srcI ty.regs &&
    (if a.isImm then fl.within false false false false false else fl.within true false false true false)
  | .fscale ty _ fl d a b =>
    ty.isFp && d.dstS ty.regs && a.srcS ty.regs && b.srcI 1 &&
    (if b.isImm then fl.within false false false false true else fl.within true false false true true)
  | .ivadd ty d a b | .ivsub ty d a b | .ivmul ty d a b | .ivdiv ty d a b
  | .ivmin ty d a b | .ivmax ty d a b | .ivhull ty d a b | .ivisect ty d a b => wfIv ty d [a, b]
  | .ivfma ty d a b c => wfIv ty d [a, b, c]
  | .ivsqr ty d a | .ivsqrt ty d a | .ivrcp ty d a | .ivexp2 ty d a | .ivlog2 ty d a
  | .ivabs ty d a | .ivneg ty d a => wfIv ty d [a]
  | .ivmake ty d p q => ty.isIv && d.range ty.regs && wfPoint ty p && wfPoint ty q
  | .ivpt ty d p => ty.isIv && d.range ty.regs && wfPoint ty p
  | .ivlo ty d a | .ivhi ty d a | .ivmid ty d a | .ivwid ty d a =>
    ty.isIv && d.dst ty.point.regs && a.ivSrc ty.regs
  | .ivcmp ty _ pd a b | .ivsubs ty pd a b => ty.isIv && pd.pdst && a.ivSrc ty.regs && b.ivSrc ty.regs
  | .ivin ty pd p b => ty.isIv && pd.pdst && wfPoint ty p && b.ivSrc ty.regs
  | .ivemp ty pd a => ty.isIv && pd.pdst && a.ivSrc ty.regs
  | .ivbis ty d a b c =>
    ty.isIv && d.range ty.regs && a.ivSrc ty.regs &&
    (if ty = .f64iv then b.isZero && c.isZero else b.reg32z && c.reg32z)
  | .ivbfl => true
  | .cvt dty sty n _ fl d a =>
    dty.plain && (sty.plain || sty == .e4m3 || sty == .e5m2 || sty == .e2m1) && dty != sty &&
    decide (n ≤ cvtTop sty) && fl.within (cvtSigned sty) false false (cvtSigned sty) true &&
    d.dstS dty.regs && a.srcS sty.regs
  | .pack ty n rnd fl d a b c =>
    ty.narrow && decide (n ≤ packTop ty) &&
    (ty != .e2m1 || rnd == .rne) && fl.within true true false true true &&
    d.dstS 1 && a.srcS 1 && b.srcS 1 && (if ty = .bf16x2 then c.isZero else c.srcS 1)
  | .unpk ty n d a =>
    ty.narrow && decide (n ≤ packTop ty) && d.range 2 && a.srcS 1
  | .qst k lg _ d base idx _ =>
    decide (k < 8) && decide (lg < 4) && (if lg = 0 then d.reg32 else d.rangeX (2 ^ lg)) &&
    base.uniformPair && idx.uniform
  | .qaxis _ _ d => d.ereg
  | .qclr d => d.ereg
  | .qget d a => d.reg32 && a.ereg
  | .qset d a => d.ereg && a.reg32z
  | .ld ty sw _ d base idx _ => wfMem ty sw (d.dst ty.regs) base.base64 idx
  | .st ty sw _ d base idx _ => wfMem ty sw (d.src ty.regs) base.base64 idx
  | .ldl ty sw _ d base idx _ | .ldd ty sw _ d base idx _ | .ldsp ty sw _ d base idx _ =>
    wfMem ty sw (d.dst ty.regs) base.reg32z idx
  | .stl ty sw _ d base idx _ | .std ty sw _ d base idx _ | .stsp ty sw _ d base idx _ =>
    wfMem ty sw (d.src ty.regs) base.reg32z idx
  | .ldiv ty _ d base idx _ | .stiv ty _ d base idx _ =>
    ty.isIv && d.range ty.regs && base.base64 && idx.reg32z
  | .atom ty op _ nr d base b _ =>
    wfAtom op ty nr && base.base64 && (if ty.isIv then b.ivSrc ty.regs else b.src ty.regs) &&
    (if nr then d.isZero else if ty.isIv then d.range ty.regs else d.dst ty.regs)
  | .pref _ base idx _ => base.base64 && idx.reg32z
  | .bind s base n _ => s.reg32z && base.base64 && n.reg32z
  | .unbind s => s.reg32z
  | .acq _ s | .rel _ s => s.reg32z
  | .fence _ => true
  | .sinit _ a b | .sarr _ a b | .sexp a b => a.reg32z && (b.reg32z || b.isImm28)
  | .swait pd a b _ | .stry pd a b => pd.pdst && a.reg32z && b.reg32z
  | .bar | .cbar => true
  | .bcopyG2l d a b | .bcopyL2g d a b | .bqst d a b => d.reg32z && a.reg32z && b.reg32z
  | .mma ty _ _ d a b =>
    wfMmaTy ty d a && wfMmaApart ty d a && b.reg32z
  | .mmab a | .coll a => a.reg32z
  | .sbind d a => d.sreg && (a.reg32z || a.isImm28)
  | .sfree d => d.sreg
  | .bra _ | .call _ | .ret => true
  | .brx a b | .callx a b => a.range 2 && b.reg32z
  | .join pd a b => pd.pdst && a.reg32z && b.reg32z
  | .bse n s _ => decide (n < 3) && s.sreg
  | .region _ | .phase _ => true
  | .xacq | .xrel | .yield | .nop | .waitc | .exit => true
  | .spawn _ _ d a b => d.range 2 && a.reg32z && b.range 8
  | .trap _ a | .bkpt _ a => a.reg32z
  | .evpost d a b => d.reg32 && a.reg32z && (b.reg32z || b.isImm28)
  | .evld d a => d.range 16 && a.range 2
  | .evrel a => a.range 2
  | .wmark a b => a.range 2 && (b.reg32z || b.isImm28)
  | .autld d a => d.reg32 && a.reg32z
  | .autctlStop d a | .autctlResume d a | .autctlRemove d a | .autctlOpen d a | .autctlClose d a =>
    d.reg32 && a.reg32z
  | .autctlCkpt d a b => d.reg32 && a.reg32z && b.range 2
  | .autctlCount d a => d.rangeX 4 && a.reg32z
  | .sysrd d a => d.reg32 && (a.reg32 || a.isImm28)
  | .syswrGctl d a b =>
    d.reg32 && b.reg32z && wfSelector a
  | .syswrContextSet d b | .syswrInvalidate d b | .syswrMigrate d b | .syswrContextStop d b
  | .syswrContextResume d b | .syswrGroup d b | .syswrQueueCreate d b | .syswrQueueDestroy d b
  | .syswrQueueSwap d b => d.reg32 && b.reg32z
  | .ccnt ty d => (ty == .n64 && d.rangeX 2) || (ty == .n32 && d.reg32)
  | .rand ty d => (ty == .n64 && d.range 2) || ((ty == .n32 || ty == .f32) && d.reg32)
  | .tokwait | .tokpass => true
  | .psnt ty pd a => pd.pdst && ((ty == .n32 && a.reg32) || (ty == .n64 && a.range 2))
  | .psntClr ty d a => (ty == .n32 && d.reg32 && a.reg32) || (ty == .n64 && d.range 2 && a.range 2)
  | .swaitTimeout .. | .copyComplete .. | .bqstComplete .. | .mmabStage .. | .mmabDone ..
  | .sampledTileCheck .. | .collPartialArrival .. | .collDigestArrival .. | .collComplete ..
  | .collTimeout .. | .joinTimeout .. | .phaseResume .. | .enqueueResume .. | .illegalInstruction
  | .loadResultReturn .. | .tlbWalkComplete .. | .gatherWindowClose .. | .pendingOvfRetry ..
  | .timeSliceExpiry .. | .teamEviction .. | .taskDispatch .. | .clusterReserveRequest ..
  | .clusterReserveGrant .. | .balanceExchange .. | .launchRequest .. | .automatonEventStep ..
  | .dropExpiredPass .. | .matchEngineStateError .. | .epochBoundary .. | .eventPacketPost ..
  | .eventPacketWatermark .. | .remapHoldoffExpiry .. | .refusalWindowClose .. | .slotcntRead ..
  | .slotBadRead .. | .barUnsupportedAccess .. | .mbstatWrite .. | .registerWrite .. | .partCreate ..
  | .partDestroy .. | .partQuarters .. | .delowPorts .. | .routeSet .. | .evportSet .. | .slotSet ..
  | .remapSet .. | .streamAssign .. | .pasidAdd .. | .pasidRevoke .. | .keySet .. | .keyClear ..
  | .rangeSet .. | .setWorld .. | .resetGroup .. | .resetTeam .. | .resetCore .. | .resetQuarter ..
  | .resetPartition .. | .resetMatchEngine .. | .resetDelowPort .. | .resetPcieFunction .. | .quote ..
  | .patch .. | .energySet .. | .replicaSet .. | .info .. | .replicaDigestArrival .. | .replicaTimeout ..
  | .powerOn | .perstNReleaseLink0 | .perstNLink1 .. | .pwrfail | .thermtrip | .powerLimitExceeded ..
  | .thermalLimit .. | .thermalHardLimit .. | .currentLimit | .stepRecovery | .stepChangeComplete
  | .packageTimerTick | .energyWindowEnd | .pcieLinkDown .. | .hotReset .. | .functionLevelReset ..
  | .atsInvalidation .. | .atsCompletion .. | .hostReadCompletion .. | .dieLinkCrcError ..
  | .dieLinkReplayWindow | .delowFlitReceive .. | .delowAckTimeout .. | .delowRetrainComplete ..
  | .uncorrectableError .. | .pcieLinkUp .. | .perstNAssertLink0 | .delowPortUp .. | .correctedError .. => false

/-- REGION and PHASE take no guard (R343). -/
def guardOk (h : Header) : Instr → Bool
  | .region _ | .phase _ => h.gpred == 0 && h.gmask == 7
  | _ => true

end Sys2Proof
end

