-- ==== Sys2Proof/Machine/Flags.lean ====
section
/-! DEFINITION. Source flags, saturation and wrapping of integers (R344, R361, R362). The part has no condition codes:
the three-valued predicates (R281, R282) are in Fp.lean beside the comparisons that write them. -/

namespace Sys2Proof.Machine

/-- A pattern of w bits taken as signed or unsigned. -/
def intVal (signed : Bool) (w v : Nat) : Int :=
  if signed && decide (2 ^ (w - 1) ≤ v % 2 ^ w) then (v % 2 ^ w : Nat) - (2 ^ w : Nat) else (v % 2 ^ w : Nat)

/-- An integer's pattern modulo 2^w. -/
def wrap (w : Nat) (v : Int) : Nat := (v % (2 ^ w : Nat)).toNat

/-- The value of a pattern of an integer type (R361). -/
def tyInt (ty : Ty) (v : Nat) : Int := intVal ty.signed (tyWidth ty) v

/-- Saturation to the type's bounds when asked for, then the pattern (R362). -/
def finishInt (ty : Ty) (sat : Bool) (v : Int) : Nat :=
  wrap (tyWidth ty) (if sat then max (tyLow ty) (min (tyHigh ty) v) else v)

/-- absA then a negation, modulo the width of the type (R344). -/
def intFlag (ty : Ty) (neg abs : Bool) (v : Nat) : Nat :=
  let w := tyWidth ty
  let a := if abs && decide (tyInt ty v < 0) then wrap w (-(tyInt ty v)) else v % 2 ^ w
  if neg then wrap w (-(a : Int)) else a

/-- The negation and absolute-value flags of a floating operand: every element of it (R344). -/
def fpFlags (ty : Ty) (neg abs : Bool) (v : Nat) : Nat :=
  perElement ty (fun a _ _ => fpFlag (fpFmt ty) neg abs a) v 0 0

end Sys2Proof.Machine
end

