-- ==== Sys2Proof/Machine/Alu.lean ====
section
/-! DEFINITION. The integer operations of class 000 on the bits of one lane (R361 to R368). -/

namespace Sys2Proof.Machine

/-- IADD. -/
def aluAdd (ty : Ty) (sat : Bool) (a b : Nat) : Nat := finishInt ty sat (tyInt ty a + tyInt ty b)

/-- ISUB. -/
def aluSub (ty : Ty) (sat : Bool) (a b : Nat) : Nat := finishInt ty sat (tyInt ty a - tyInt ty b)

/-- IMUL. -/
def aluMul (ty : Ty) (sat : Bool) (a b : Nat) : Nat := finishInt ty sat (tyInt ty a * tyInt ty b)

/-- IMULH: the upper half of the double-width product. -/
def aluMulh (ty : Ty) (a b : Nat) : Nat :=
  finishInt ty false ((tyInt ty a * tyInt ty b) / (2 ^ tyWidth ty : Nat))

/-- IMIN. -/
def aluMin (ty : Ty) (a b : Nat) : Nat := finishInt ty false (min (tyInt ty a) (tyInt ty b))

/-- IMAX. -/
def aluMax (ty : Ty) (a b : Nat) : Nat := finishInt ty false (max (tyInt ty a) (tyInt ty b))

/-- ANDN: a and not b. -/
def aluAndn (ty : Ty) (a b : Nat) : Nat := a &&& ((2 ^ tyWidth ty - 1) - b % 2 ^ tyWidth ty)

/-- SHL by the low 32 bits of the count; 0 from w upward. -/
def aluShl (ty : Ty) (a k : Nat) : Nat :=
  let w := tyWidth ty
  if w ≤ k then 0 else a * 2 ^ k % 2 ^ w

/-- SHR. -/
def aluShr (ty : Ty) (a k : Nat) : Nat :=
  let w := tyWidth ty
  if w ≤ k then 0 else a % 2 ^ w / 2 ^ k

/-- SAR: filled from bit w - 1, whatever the type's sign. -/
def aluSar (ty : Ty) (a k : Nat) : Nat :=
  let w := tyWidth ty
  wrap w (intVal true w a / (2 ^ min k w : Nat))

/-- ROL by k mod w. -/
def aluRol (ty : Ty) (a k : Nat) : Nat :=
  let w := tyWidth ty
  let k := k % w
  a * 2 ^ k % 2 ^ w + a % 2 ^ w / 2 ^ (w - k)

/-- IABS: with sat, the most negative value gives the highest value, and without it, itself. -/
def aluAbs (ty : Ty) (sat : Bool) (a : Nat) : Nat := finishInt ty sat (tyInt ty a).natAbs

/-- The number of 1 bits among the low n bits. -/
def popCount : Nat → Nat → Nat
  | 0, _ => 0
  | n + 1, v => v % 2 + popCount n (v / 2)

/-- POPC. -/
def aluPopc (ty : Ty) (a : Nat) : Nat := popCount (tyWidth ty) a

/-- CLZ: w for 0. -/
def aluClz (ty : Ty) (a : Nat) : Nat :=
  let v := a % 2 ^ tyWidth ty
  if v = 0 then tyWidth ty else tyWidth ty - 1 - Nat.log2 v

/-- The zero bits below the lowest 1 bit among n bits. -/
def trailing : Nat → Nat → Nat
  | 0, _ => 0
  | n + 1, v => if v % 2 = 1 then 0 else 1 + trailing n (v / 2)

/-- CTZ: w for 0. -/
def aluCtz (ty : Ty) (a : Nat) : Nat := trailing (tyWidth ty) a

/-- The low n bits in reverse order, above an accumulator. -/
def reverseBits : Nat → Nat → Nat → Nat
  | 0, _, acc => acc
  | n + 1, v, acc => reverseBits n (v / 2) (2 * acc + v % 2)

/-- BREV. -/
def aluBrev (ty : Ty) (a : Nat) : Nat := reverseBits (tyWidth ty) a 0

/-- IMAD. -/
def aluMad (ty : Ty) (sat : Bool) (a b c : Nat) : Nat := finishInt ty sat (tyInt ty a * tyInt ty b + tyInt ty c)

/-- The 64-bit type beside a 32-bit one (R366). -/
def wide : Ty → Ty
  | .i32 => .i64
  | _ => .n64

/-- IMADW: 32-bit factors and a 64-bit addend. -/
def aluMadw (ty : Ty) (sat : Bool) (a b c : Nat) : Nat :=
  finishInt (wide ty) sat (tyInt ty a * tyInt ty b + tyInt (wide ty) c)

/-- LEA: a + b × 2^n modulo 2^64. -/
def aluLea (ty : Ty) (n a b : Nat) : Nat := wrap 64 ((a : Int) + tyInt ty b * (2 ^ n : Nat))

/-- BFX: the field that the control b names, p = b[7:0] and n = min(b[15:8], w). -/
def aluBfx (ty : Ty) (a b : Nat) : Nat :=
  let w := tyWidth ty
  let p := b % 256
  let n := min (b / 256 % 256) w
  if n = 0 then 0
  else
    let y : Nat := wrap 512 (tyInt ty a)
    let f := y / 2 ^ p % 2 ^ n
    wrap w (intVal ty.signed n f)

/-- BFI: the low n bits of a laid over c from bit p upward; bits at or above w are dropped. -/
def aluBfi (ty : Ty) (a b c : Nat) : Nat :=
  let w := tyWidth ty
  let p := b % 256
  let n := min (b / 256 % 256) w
  let mask := 2 ^ n - 1
  let put := (a % 2 ^ n) * 2 ^ p
  let keep := c % 2 ^ w - (c % 2 ^ w &&& mask * 2 ^ p)
  (keep ||| put) % 2 ^ w

/-- One byte of PRMT's result. -/
def prmtByte (y c k : Nat) : Nat :=
  if bit c (12 + k) then bits c 16 8 else bits y (8 * bits c (3 * k) 3) 8

/-- PRMT. -/
def aluPrmt (a b c : Nat) : Nat :=
  let y := a % 2 ^ 32 + b % 2 ^ 32 * 2 ^ 32
  prmtByte y c 0 + prmtByte y c 1 * 2 ^ 8 + prmtByte y c 2 * 2 ^ 16 + prmtByte y c 3 * 2 ^ 24

/-- ICMP. -/
def aluCmp (ty : Ty) (r : Rel) (a b : Nat) : Tri := triOf (relHolds r (compare (tyInt ty a) (tyInt ty b)))

end Sys2Proof.Machine
end

