-- ==== Sys2Proof/Config.lean ====
section
/-! DEFINITION. What the manual leaves to the part or to the outside world: constants without a body. Nothing can be
proved of their values, so a claim holds whatever they are. -/

namespace Sys2Proof.Config

/-- A 64-bit value that the manual leaves open, drawn by the model's counter of free values. (DEDUCED: log entry 7) -/
opaque freeWord : Nat → BitVec 64

/-- A choice that the manual leaves to the part, drawn by the same counter. (DEDUCED: log entries 6 and 7) -/
opaque freeBool : Nat → Bool

/-- The code of an E2M1 element (bits 3 to 0), and the residue in any format (bits 63 to 32), of a shaped element whose
carried residue is not a number: the manual gives none (R266, R290). The arguments are the page format, the input and the
residue. (DESIGN CHOICE: log entry 20) -/
opaque shapedNan : Nat → Nat → Nat → BitVec 64

/-- Whether a message carries a valid SLH-DSA-SHA2-128s signature under the vendor key that is fused (R77, R78). (DEDUCED: log entry 49) -/
opaque signatureHolds : List Byte → Bool

/-- The patch level that a patch image carries (R77, R78): the manual gives a patch no layout. (DEDUCED: log entry 49) -/
opaque patchLevel : List Byte → Nat

/-- The SLH-DSA-SHA2-128s signature of 7,856 bytes that the device key gives a quote's bytes 0 to 199 (R83); one
function gives byte i. (DEDUCED: log entry 49) -/
opaque quoteSignature : List Byte → Nat → Byte

/-- SHA-256 of the ROM, of the enabled-core and spare-lane map, and of the device public key (R83): fuses and the
ROM are the part's own; one function for the three, by number. (DEDUCED: log entry 49) -/
opaque fusedDigest : Nat → Nat → Byte

/-- The digest of a partition's configuration in a quote (R83): the manual names what it covers and gives no encoding.
The argument is the list of the covered values, byte i. (DEDUCED: log entry 49) -/
opaque configDigest : List Nat → Nat → Byte

/-- Bytes 0 to 239 of a received Delow flit after the correction that its bytes 240 to 255 allow; none where a CRC failure
is left. The manual names the FEC and the CRC and gives neither (R50, R51). (DEDUCED: log entry 42) -/
opaque flitFec : List Byte → Option (List Byte)

/-- Byte i of bytes 240 to 255 of a flit that is sent, for its bytes 0 to 239 (R50). (DEDUCED: log entry 42) -/
opaque flitTail : List Byte → Nat → Byte

/-- The lanes of each of the four die boundaries that fail their check at reset, and the good spares that it has (R48):
properties of one part. (DEDUCED: log entry 40) -/
opaque failedLanes : Nat → Nat

/-- The good spare lanes of a die boundary. (DEDUCED: log entry 40) -/
opaque spareLanes : Nat → Nat

/-- The package id that firmware assigns (R49): the manual does not say which. (DEDUCED: log entry 42) -/
opaque packageId : Nat

/-- Whether the ROM passes its check at a start of the management core (R77). (DEDUCED: log entry 49) -/
opaque romGood : Bool

end Sys2Proof.Config
end

