-- ==== Sys2Proof/Decode.lean ====
section
/-! DEFINITION. The instruction words of the UGS-096A: 12 bytes in memory, a 32-bit header and a 64-bit body
(chapter 19). The decoder reads the fields of a word, and accepts the word when the instruction that they name is
well formed and has exactly this word: every bit that a body marks zero, and every field that holds 0xC01 when
unused, is checked by that comparison (R355). -/

namespace Sys2Proof

/-- Why the decoder refuses a word. Each is Illegal Instruction at issue (R353, R355, R356). -/
inductive DecodeError where
  /-- Fewer than 12 bytes. -/
  | short
  /-- The guard mask is 000 (R14). -/
  | emptyGuard
  /-- The opcode is unallocated (R354), or the type is 0xE or 0xF (R256). -/
  | unallocated
  /-- REGION or PHASE with a guard (R343). -/
  | guardedMarker
  /-- A field that the instruction's entry does not permit (R355). -/
  | malformed
deriving DecidableEq, Repr

/-- The type codes of the header (R12). -/
def Ty.code : Ty → Nat
  | .i32 => 0 | .n32 => 1 | .i64 => 2 | .n64 => 3 | .f32 => 4 | .f64 => 5 | .bf16x2 => 6
  | .f32iv => 7 | .f64iv => 8 | .bf16iv => 9 | .e4m3 => 10 | .e5m2 => 11 | .e2m1 => 12 | .pred => 13

/-- The type of a code; 0xE and 0xF name none (R256). -/
def Ty.ofCode (c : Nat) : Option Ty :=
  match c with
  | 0 => some .i32 | 1 => some .n32 | 2 => some .i64 | 3 => some .n64 | 4 => some .f32 | 5 => some .f64
  | 6 => some .bf16x2 | 7 => some .f32iv | 8 => some .f64iv | 9 => some .bf16iv | 10 => some .e4m3
  | 11 => some .e5m2 | 12 => some .e2m1 | 13 => some .pred | _ => none

/-- The 12-bit operand field (R351). -/
def Opnd.code : Opnd → Nat
  | .x n => n
  | .w n => 0x100 + n
  | .p n => 0x280 + n
  | .e n => 0x288 + n
  | .s n => 0x290 + n
  | .c n => 0x400 + n
  | .lat => 0x800
  | .imm _ => 0xC00
  | .zero => 0xC01

/-- The operand of a field. A value that names nothing reads as zero, whose own code differs from it, so that the
comparison of words refuses it. -/
def Opnd.ofCode (c : Nat) : Opnd :=
  if c < 0x100 then .x c
  else if c < 0x280 then .w (c - 0x100)
  else if c < 0x288 then .p (c - 0x280)
  else if c < 0x290 then .e (c - 0x288)
  else if c < 0x298 then .s (c - 0x290)
  else if 0x400 ≤ c ∧ c < 0x408 then .c (c - 0x400)
  else if c = 0x800 then .lat
  else .zero

/-- The rounding modes' codes (R261). -/
def Rnd.code : Rnd → Nat
  | .rne => 0 | .rtz => 1 | .rdn => 2 | .rup => 3

/-- The rounding mode of a field's low two bits. -/
def Rnd.ofCode (c : Nat) : Rnd :=
  match c % 4 with
  | 0 => .rne | 1 => .rtz | 2 => .rdn | _ => .rup

/-- The relations' codes (R368). -/
def Rel.code : Rel → Nat
  | .eq => 0 | .ne => 1 | .lt => 2 | .le => 3 | .gt => 4 | .ge => 5

/-- The relation of a code; 6 and 7 read as .ge, and the comparison of words refuses them. -/
def Rel.ofCode (c : Nat) : Rel :=
  match c with
  | 0 => .eq | 1 => .ne | 2 => .lt | 3 => .le | 4 => .gt | _ => .ge

/-- The codes of SHFL's modes (R369). -/
def ShflMode.code : ShflMode → Nat
  | .idx => 0 | .rot => 1 | .xor => 2 | .rev => 3

/-- The mode of a code. -/
def ShflMode.ofCode (c : Nat) : ShflMode :=
  match c with
  | 0 => .idx | 1 => .rot | 2 => .xor | _ => .rev

/-- The codes of VOTE's modes (R369). -/
def VoteMode.code : VoteMode → Nat
  | .all => 0 | .any => 1 | .ballot => 2 | .ballotf => 3 | .ballotu => 4

/-- The mode of a code. -/
def VoteMode.ofCode (c : Nat) : VoteMode :=
  match c with
  | 0 => .all | 1 => .any | 2 => .ballot | 3 => .ballotf | _ => .ballotu

/-- The codes of REDUX's operations (R369). -/
def ReduxOp.code : ReduxOp → Nat
  | .add => 0 | .min => 1 | .max => 2 | .and => 3 | .or => 4 | .xor => 5

/-- The operation of a code. -/
def ReduxOp.ofCode (c : Nat) : ReduxOp :=
  match c with
  | 0 => .add | 1 => .min | 2 => .max | 3 => .and | 4 => .or | _ => .xor

/-- The codes of the access sizes (R401). -/
def SubWord.code : SubWord → Nat
  | .full => 0 | .b8 => 1 | .b16 => 2

/-- The access size of a code. -/
def SubWord.ofCode (c : Nat) : SubWord :=
  match c with
  | 0 => .full | 1 => .b8 | _ => .b16

/-- The codes of the cache policies (R347). -/
def Cache.code : Cache → Nat
  | .ca => 0 | .cs => 1 | .ck => 2 | .cb => 3

/-- The policy of a code. -/
def Cache.ofCode (c : Nat) : Cache :=
  match c with
  | 0 => .ca | 1 => .cs | 2 => .ck | _ => .cb

/-- The scope codes (R347). -/
def Scope.code : Scope → Nat
  | .grp => 1 | .team => 2 | .clu => 3 | .die => 4 | .dev => 5 | .sys => 6

/-- The scope of a code; 0 and 7 name none, and the comparison of words refuses them. -/
def Scope.ofCode (c : Nat) : Scope :=
  match c with
  | 1 => .grp | 2 => .team | 3 => .clu | 4 => .die | 5 => .dev | _ => .sys

/-- The codes of ATOM's operations (R404). -/
def AtomOp.code : AtomOp → Nat
  | .add => 0 | .min => 1 | .max => 2 | .and => 3 | .or => 4 | .xor => 5 | .xchg => 6 | .cas => 7 | .fadd => 8
  | .hull => 9

/-- The operation of a code. -/
def AtomOp.ofCode (c : Nat) : AtomOp :=
  match c with
  | 0 => .add | 1 => .min | 2 => .max | 3 => .and | 4 => .or | 5 => .xor | 6 => .xchg | 7 => .cas | 8 => .fadd
  | _ => .hull

/-- The codes of the kinds that SINIT names (R227). -/
def SettKind.code : SettKind → Nat
  | .lock => 1 | .bar => 2 | .bytes => 3

/-- The kind of a code. -/
def SettKind.ofCode (c : Nat) : SettKind :=
  match c with
  | 1 => .lock | 2 => .bar | _ => .bytes

/-- What an instruction puts into its word: opcode, type code, subop, RU and the body. -/
structure Enc where
  opc : Nat
  ty : Nat
  sub : Nat
  ru : Bool
  body : Nat
deriving DecidableEq, Repr

/-- The T body (R344). -/
def bodyT (d a b c : Opnd) (rnd : Nat) (fl : Flags) (xsub : Nat) : Nat :=
  d.code * 2 ^ 52 + a.code * 2 ^ 40 + b.code * 2 ^ 28 + c.code * 2 ^ 16 + rnd * 2 ^ 13 +
  b2n fl.negA * 2 ^ 12 + b2n fl.negB * 2 ^ 11 + b2n fl.negC * 2 ^ 10 + b2n fl.absA * 2 ^ 9 + b2n fl.sat * 2 ^ 8 + xsub

/-- The I body (R345); a is the A field's code. -/
def bodyI (d : Opnd) (a : Nat) (v : Word) (rnd : Nat) (sat : Bool) : Nat :=
  d.code * 2 ^ 52 + a * 2 ^ 40 + v.toNat * 2 ^ 8 + rnd * 2 ^ 5 + b2n sat

/-- The TI arrangement of the T body (R345). -/
def bodyTI (d a b : Opnd) (v : Word) (negB : Bool) : Nat :=
  d.code * 2 ^ 52 + a.code * 2 ^ 40 + v.toNat * 2 ^ 8 + b2n negB * 2 ^ 7 + b.code % 2 ^ 7

/-- The M body (R347). -/
def bodyM (d a b : Opnd) (off : BitVec 20) (scope cache mflags : Nat) : Nat :=
  d.code * 2 ^ 52 + a.code * 2 ^ 40 + b.code * 2 ^ 28 + off.toNat * 2 ^ 8 + scope * 2 ^ 5 + cache * 2 ^ 2 + mflags

/-- The C body (R348). -/
def bodyC (off : Word) (a b : Opnd) (cflags : Nat) : Nat :=
  off.toNat * 2 ^ 32 + a.code * 2 ^ 20 + b.code * 2 ^ 8 + cflags

/-- The E body (R349). -/
def bodyE (d a b : Opnd) (imm : Nat) : Nat :=
  d.code * 2 ^ 52 + a.code * 2 ^ 40 + b.code * 2 ^ 28 + imm

/-- The REGION body (R350). -/
def bodyR (m : Masks) : Nat :=
  m.x.toNat * 2 ^ 32 + m.w.toNat * 2 ^ 20 + m.p.toNat * 2 ^ 12 + m.e.toNat * 2 ^ 4

/-- The immediate field of an E body: the value of an operand that holds 0xC00 (R349). -/
def Opnd.immE : Opnd → Nat
  | .imm v => v.toNat
  | _ => 0

/-- A word of the T body without flags and rounding. -/
def encT (opc : Nat) (ty : Ty) (sub : Nat) (d a b c : Opnd) : Enc :=
  ⟨opc, ty.code, sub, false, bodyT d a b c 0 Flags.none 0⟩

/-- A two-source word: the T body, or the I body when B is the immediate (R345). -/
def enc2 (opc : Nat) (ty : Ty) (sub : Nat) (d a b : Opnd) (rnd : Nat) (fl : Flags) : Enc :=
  match b with
  | .imm v => ⟨opc, ty.code, 8 + sub, false, bodyI d a.code v rnd fl.sat⟩
  | b => ⟨opc, ty.code, sub, false, bodyT d a b .zero rnd fl 0⟩

/-- A one-source word: the T body, or the I body when A is the immediate (R345). -/
def enc1 (opc : Nat) (ty : Ty) (d a : Opnd) (rnd : Nat) (fl : Flags) : Enc :=
  match a with
  | .imm v => ⟨opc, ty.code, 8, false, bodyI d 0xC00 v rnd fl.sat⟩
  | a => ⟨opc, ty.code, 0, false, bodyT d a .zero .zero rnd fl 0⟩

/-- A three-source word: the T body, or its TI arrangement when C is the immediate (R345). -/
def enc3 (opc : Nat) (ty : Ty) (d a b c : Opnd) (rnd : Nat) (fl : Flags) : Enc :=
  match c with
  | .imm v => ⟨opc, ty.code, 8 + rnd, false, bodyTI d a b v fl.negB⟩
  | c => ⟨opc, ty.code, 0, false, bodyT d a b c rnd fl 0⟩

/-- A word of the M body. -/
def encM (opc : Nat) (ty : Nat) (sub : Nat) (d a b : Opnd) (off : BitVec 20) (scope cache mflags : Nat) : Enc :=
  ⟨opc, ty, sub, false, bodyM d a b off scope cache mflags⟩

/-- A word of the E body of type 0x0. -/
def encE (opc sub : Nat) (d a b : Opnd) (imm : Nat) : Enc := ⟨opc, 0, sub, false, bodyE d a b imm⟩

/-- A word of the C body. -/
def encC (opc : Nat) (off : Word) (a b : Opnd) (cflags : Nat) : Enc := ⟨opc, 0, 0, false, bodyC off a b cflags⟩

/-- The type in VOTE's header: pred of .all and .any, n32 of the ballots (R369). -/
def voteTy : VoteMode → Ty
  | .all | .any => .pred
  | .ballot | .ballotf | .ballotu => .n32

/-- The header fields and the body of every program instruction (R354 and the entries); a step that is no program
instruction has no word. -/
def encFields : Instr → Option Enc
  | .iadd ty fl d a b => some (enc2 0x0 ty 0 d a b 0 fl)
  | .isub ty fl d a b => some (enc2 0x1 ty 0 d a b 0 fl)
  | .imul ty fl d a b => some (enc2 0x2 ty 0 d a b 0 fl)
  | .imulh ty fl d a b => some (enc2 0x3 ty 0 d a b 0 fl)
  | .imin ty fl d a b => some (enc2 0x9 ty 0 d a b 0 fl)
  | .imax ty fl d a b => some (enc2 0xa ty 0 d a b 0 fl)
  | .and ty d a b => some (enc2 0xc ty 0 d a b 0 Flags.none)
  | .or ty d a b => some (enc2 0xd ty 0 d a b 0 Flags.none)
  | .xor ty d a b => some (enc2 0xe ty 0 d a b 0 Flags.none)
  | .andn ty d a b => some (enc2 0xf ty 0 d a b 0 Flags.none)
  | .shl ty d a b => some (enc2 0x10 ty 0 d a b 0 Flags.none)
  | .shr ty d a b => some (enc2 0x11 ty 0 d a b 0 Flags.none)
  | .sar ty d a b => some (enc2 0x12 ty 0 d a b 0 Flags.none)
  | .rol ty d a b => some (enc2 0x13 ty 0 d a b 0 Flags.none)
  | .bfx ty d a b => some (enc2 0x18 ty 0 d a b 0 Flags.none)
  | .iabs ty sat d a => some ⟨0xb, ty.code, 0, false, bodyT d a .zero .zero 0 ⟨false, false, false, false, sat⟩ 0⟩
  | .popc ty d a => some (encT 0x14 ty 0 d a .zero .zero)
  | .clz ty d a => some (encT 0x15 ty 0 d a .zero .zero)
  | .ctz ty d a => some (encT 0x16 ty 0 d a .zero .zero)
  | .brev ty d a => some (encT 0x17 ty 0 d a .zero .zero)
  | .mov ty d a => some (enc1 0x1d ty d a 0 Flags.none)
  | .movi ty d v => some ⟨0x1e, ty.code, 0, false, d.code * 2 ^ 52 + v.toNat * 2 ^ 20⟩
  | .imad ty fl d a b c => some (enc3 0x4 ty d a b c 0 fl)
  | .imadw ty sat d a b c => some (enc3 0x5 ty d a b c 0 ⟨false, false, false, false, sat⟩)
  | .lea ty n d a b => some (enc2 0x8 ty n d a b 0 Flags.none)
  | .bfi ty d a b c => some (enc3 0x19 ty d a b c 0 Flags.none)
  | .prmt ty d a b c => some (enc3 0x1a ty d a b c 0 Flags.none)
  | .ladd ty d a b pc => some (encT 0x6 ty 0 d a b pc)
  | .lsub ty d a b pc => some (encT 0x7 ty 0 d a b pc)
  | .sel ty d a b pc => some (encT 0x1b ty 0 d a b pc)
  | .icmp ty rel fl pd a b => some (enc2 0x1c ty rel.code pd a b 0 fl)
  | .shfl ty mode d a b => some (enc2 0x20 ty mode.code d a b 0 Flags.none)
  | .vote mode d pa => some (encT 0x21 (voteTy mode) mode.code d pa .zero .zero)
  | .redux ty op d a => some (encT 0x22 ty op.code d a .zero .zero)
  | .readl ty d a b => some (enc2 0x23 ty 0 d a b 0 Flags.none)
  | .elect pd => some (encT 0x24 .pred 0 pd .zero .zero .zero)
  | .pand na nb pd pa pb => some ⟨0x28, 13, 0, false, bodyT pd pa pb .zero 0 ⟨na, nb, false, false, false⟩ 0⟩
  | .por na nb pd pa pb => some ⟨0x29, 13, 0, false, bodyT pd pa pb .zero 0 ⟨na, nb, false, false, false⟩ 0⟩
  | .pnot na pd pa => some ⟨0x2a, 13, 0, false, bodyT pd pa .zero .zero 0 ⟨na, false, false, false, false⟩ 0⟩
  | .pset pd a => some (enc1 0x2b .n32 pd a 0 Flags.none)
  | .pdef d pa => some (encT 0x2c .n32 0 d pa .zero .zero)
  | .ptest m pd pa => some (encT 0x2d .pred m pd pa .zero .zero)
  | .fadd ty rnd fl d a b => some (enc2 0x80 ty 0 d a b rnd.code fl)
  | .fsub ty rnd fl d a b => some (enc2 0x81 ty 0 d a b rnd.code fl)
  | .fmul ty rnd fl d a b => some (enc2 0x82 ty 0 d a b rnd.code fl)
  | .fdiv ty rnd fl d a b => some (enc2 0x87 ty 0 d a b rnd.code fl)
  | .ffma ty rnd fl d a b c => some (enc3 0x83 ty d a b c rnd.code fl)
  | .fmin ty fl d a b => some (enc2 0x84 ty 0 d a b 0 fl)
  | .fmax ty fl d a b => some (enc2 0x85 ty 0 d a b 0 fl)
  | .fcmp ty rel fl pd a b => some (enc2 0x86 ty rel.code pd a b 0 fl)
  | .fsqrt ty rnd fl d a => some (enc1 0x88 ty d a rnd.code fl)
  | .frcp ty rnd fl d a => some (enc1 0x89 ty d a rnd.code fl)
  | .frsq ty rnd fl d a => some (enc1 0x8a ty d a rnd.code fl)
  | .fexp2 ty rnd fl d a => some (enc1 0x8b ty d a rnd.code fl)
  | .flog2 ty rnd fl d a => some (enc1 0x8c ty d a rnd.code fl)
  | .frnd ty rnd fl d a => some (enc1 0x8d ty d a rnd.code fl)
  | .fclass ty fl d a => some (enc1 0x8e ty d a 0 fl)
  | .fscale ty rnd fl d a b => some (enc2 0x8f ty 0 d a b rnd.code fl)
  | .ivadd ty d a b => some (encT 0x100 ty 0 d a b .zero)
  | .ivsub ty d a b => some (encT 0x101 ty 0 d a b .zero)
  | .ivmul ty d a b => some (encT 0x102 ty 0 d a b .zero)
  | .ivdiv ty d a b => some (encT 0x103 ty 0 d a b .zero)
  | .ivfma ty d a b c => some (encT 0x104 ty 0 d a b c)
  | .ivsqr ty d a => some (encT 0x105 ty 0 d a .zero .zero)
  | .ivsqrt ty d a => some (encT 0x106 ty 0 d a .zero .zero)
  | .ivrcp ty d a => some (encT 0x107 ty 0 d a .zero .zero)
  | .ivexp2 ty d a => some (encT 0x108 ty 0 d a .zero .zero)
  | .ivlog2 ty d a => some (encT 0x109 ty 0 d a .zero .zero)
  | .ivabs ty d a => some (encT 0x10a ty 0 d a .zero .zero)
  | .ivneg ty d a => some (encT 0x10b ty 0 d a .zero .zero)
  | .ivmin ty d a b => some (encT 0x10c ty 0 d a b .zero)
  | .ivmax ty d a b => some (encT 0x10d ty 0 d a b .zero)
  | .ivhull ty d a b => some (encT 0x10e ty 0 d a b .zero)
  | .ivisect ty d a b => some (encT 0x10f ty 0 d a b .zero)
  | .ivmake ty d a b => some (encT 0x110 ty 0 d a b .zero)
  | .ivpt ty d a => some (encT 0x111 ty 0 d a .zero .zero)
  | .ivlo ty d a => some (encT 0x112 ty 0 d a .zero .zero)
  | .ivhi ty d a => some (encT 0x113 ty 0 d a .zero .zero)
  | .ivmid ty d a => some (encT 0x114 ty 0 d a .zero .zero)
  | .ivwid ty d a => some (encT 0x115 ty 0 d a .zero .zero)
  | .ivcmp ty rel pd a b => some (encT 0x116 ty rel.code pd a b .zero)
  | .ivin ty pd p b => some (encT 0x117 ty 0 pd p b .zero)
  | .ivsubs ty pd a b => some (encT 0x118 ty 0 pd a b .zero)
  | .ivemp ty pd a => some (encT 0x119 ty 0 pd a .zero .zero)
  | .ivbis ty d a b c => some (encT 0x11a ty 0 d a b c)
  | .ivbfl => some (encT 0x11b .i32 0 .zero .zero .zero .zero)
  | .cvt dty sty n rnd fl d a => some ⟨0x180, dty.code, n, false, bodyT d a .zero .zero rnd.code fl sty.code⟩
  | .pack ty n rnd fl d a b c => some ⟨0x181, ty.code, n, false, bodyT d a b c rnd.code fl 0⟩
  | .unpk ty n d a => some (encT 0x182 ty n d a .zero .zero)
  | .qst k lg pol d base idx off => some (encM 0x188 4 k d base idx off 0 pol.code lg)
  | .qaxis lane carry d => some (encT 0x189 .i32 (b2n lane + 2 * b2n carry) d .zero .zero .zero)
  | .qclr d => some (encT 0x18a .i32 0 d .zero .zero .zero)
  | .qget d a => some (encT 0x18b .f32 0 d a .zero .zero)
  | .qset d a => some (encT 0x18c .f32 0 d a .zero .zero)
  | .ld ty sw pol d base idx off => some (encM 0x200 ty.code 0 d base idx off 0 pol.code sw.code)
  | .st ty sw pol d base idx off => some (encM 0x201 ty.code 0 d base idx off 0 pol.code sw.code)
  | .ldl ty sw pol d base idx off => some (encM 0x202 ty.code 0 d base idx off 0 pol.code sw.code)
  | .stl ty sw pol d base idx off => some (encM 0x203 ty.code 0 d base idx off 0 pol.code sw.code)
  | .ldd ty sw pol d base idx off => some (encM 0x204 ty.code 0 d base idx off 0 pol.code sw.code)
  | .std ty sw pol d base idx off => some (encM 0x205 ty.code 0 d base idx off 0 pol.code sw.code)
  | .ldsp ty sw pol d base idx off => some (encM 0x206 ty.code 0 d base idx off 0 pol.code sw.code)
  | .stsp ty sw pol d base idx off => some (encM 0x207 ty.code 0 d base idx off 0 pol.code sw.code)
  | .ldiv ty pol d base idx off => some (encM 0x208 ty.code 0 d base idx off 0 pol.code 0)
  | .stiv ty pol d base idx off => some (encM 0x209 ty.code 0 d base idx off 0 pol.code 0)
  | .atom ty op sc nr d base b off => some (encM 0x20a ty.code op.code d base b off sc.code 0 (b2n nr))
  | .pref pol base idx off => some (encM 0x20b 0 0 .zero base idx off 0 pol.code 0)
  | .bind s base n off => some (encM 0x210 0 0 s base n off 0 0 0)
  | .unbind s => some (encM 0x211 0 0 s .zero .zero 0 0 0 0)
  | .acq sc s => some (encM 0x212 0 0 .zero s .zero 0 sc.code 0 0)
  | .rel sc s => some (encM 0x213 0 0 .zero s .zero 0 sc.code 0 0)
  | .fence sc => some (encM 0x214 0 0 .zero .zero .zero 0 sc.code 0 0)
  | .sinit kind a b => some (encE 0x280 kind.code .zero a b b.immE)
  | .sarr sc a b => some (encE 0x281 sc.code .zero a b b.immE)
  | .sexp a b => some (encE 0x282 0 .zero a b b.immE)
  | .swait pd a b t => some (encE 0x283 0 pd a b t.toNat)
  | .stry pd a b => some (encE 0x284 0 pd a b 0)
  | .bar => some (encE 0x285 0 .zero .zero .zero 0)
  | .cbar => some (encE 0x286 0 .zero .zero .zero 0)
  | .bcopyG2l d a b => some (encE 0x288 0 d a b 0)
  | .bcopyL2g d a b => some (encE 0x288 1 d a b 0)
  | .bqst d a b => some (encE 0x289 0 d a b 0)
  | .mma ty z ru d a b => some ⟨0x28a, ty.code, b2n z, ru, bodyE d a b 0⟩
  | .mmab a => some (encE 0x28b 0 .zero a .zero 0)
  | .coll a => some (encE 0x28c 0 .zero a .zero 0)
  | .sbind d a => some (encE 0x290 0 d a .zero a.immE)
  | .sfree d => some (encE 0x291 0 d .zero .zero 0)
  | .bra off => some (encC 0x300 off .zero .zero 0)
  | .brx a b => some (encC 0x301 0 a b 0)
  | .call off => some (encC 0x302 off .zero .zero 0)
  | .callx a b => some (encC 0x303 0 a b 0)
  | .ret => some (encC 0x304 0 .zero .zero 0)
  | .join pd a b => some (encC 0x305 0 a b (pd.code - 0x280))
  | .bse n s off => some (encC 0x306 off s .zero n)
  | .region m => some ⟨0x307, 0, 0, false, bodyR m⟩
  | .xacq => some (encC 0x308 0 .zero .zero 0)
  | .xrel => some (encC 0x309 0 .zero .zero 0)
  | .yield => some (encC 0x30a 0 .zero .zero 0)
  | .nop => some (encC 0x30b 0 .zero .zero 0)
  | .exit => some (encC 0x30c 0 .zero .zero 0)
  | .phase m => some ⟨0x30d, 0, 0, false, bodyR m⟩
  | .spawn q pin d a b => some (encE 0x30e (b2n q + 2 * b2n pin) d a b 0)
  | .trap code a => some (encC 0x30f code a .zero 0)
  | .bkpt code a => some (encC 0x310 code a .zero 0)
  | .waitc => some (encC 0x311 0 .zero .zero 0)
  | .evpost d a b => some (encE 0x380 0 d a b b.immE)
  | .evld d a => some (encE 0x381 0 d a .zero 0)
  | .evrel a => some (encE 0x382 0 .zero a .zero 0)
  | .wmark a b => some (encE 0x383 0 .zero a b b.immE)
  | .autld d a => some (encE 0x384 0 d a .zero 0)
  | .autctlStop d a => some (encE 0x385 0 d a .zero 0)
  | .autctlResume d a => some (encE 0x385 1 d a .zero 0)
  | .autctlCkpt d a b => some (encE 0x385 2 d a b 0)
  | .autctlRemove d a => some (encE 0x385 3 d a .zero 0)
  | .autctlCount d a => some (encE 0x385 4 d a .zero 0)
  | .autctlOpen d a => some (encE 0x385 5 d a .zero 0)
  | .autctlClose d a => some (encE 0x385 6 d a .zero 0)
  | .sysrd d a => some ⟨0x388, 1, 0, false, bodyE d a .zero a.immE⟩
  | .syswrGctl d a b => some (encE 0x389 0 d a b a.immE)
  | .syswrContextSet d b => some (encE 0x389 0 d (.imm 0x100) b 0x100)
  | .syswrInvalidate d b => some (encE 0x389 0 d (.imm 0x101) b 0x101)
  | .syswrMigrate d b => some (encE 0x389 0 d (.imm 0x102) b 0x102)
  | .syswrContextStop d b => some (encE 0x389 0 d (.imm 0x103) b 0x103)
  | .syswrContextResume d b => some (encE 0x389 0 d (.imm 0x104) b 0x104)
  | .syswrGroup d b => some (encE 0x389 0 d (.imm 0x105) b 0x105)
  | .syswrQueueCreate d b => some (encE 0x389 0 d (.imm 0x106) b 0x106)
  | .syswrQueueDestroy d b => some (encE 0x389 0 d (.imm 0x107) b 0x107)
  | .syswrQueueSwap d b => some (encE 0x389 0 d (.imm 0x108) b 0x108)
  | .ccnt ty d => some ⟨0x38a, ty.code, 0, false, bodyE d .zero .zero 0⟩
  | .rand ty d => some ⟨0x38b, ty.code, 0, false, bodyE d .zero .zero 0⟩
  | .tokwait => some (encE 0x38c 0 .zero .zero .zero 0)
  | .tokpass => some (encE 0x38d 0 .zero .zero .zero 0)
  | .psnt ty pd a => some ⟨0x38e, ty.code, 0, false, bodyE pd a .zero 0⟩
  | .psntClr ty d a => some ⟨0x38e, ty.code, 1, false, bodyE d a .zero 0⟩
  | .swaitTimeout .. | .copyComplete .. | .bqstComplete .. | .mmabStage .. | .mmabDone ..
  | .sampledTileCheck .. | .collPartialArrival .. | .collDigestArrival .. | .collComplete ..
  | .collTimeout .. | .joinTimeout .. | .phaseResume .. | .enqueueResume .. | .illegalInstruction
  | .loadResultReturn .. | .tlbWalkComplete .. | .gatherWindowClose .. | .pendingOvfRetry ..
  | .timeSliceExpiry .. | .teamEviction .. | .taskDispatch .. | .clusterReserveRequest ..
  | .clusterReserveGrant .. | .balanceExchange .. | .launchRequest .. | .automatonEventStep ..
  | .dropExpiredPass .. | .matchEngineStateError .. | .epochBoundary .. | .eventPacketPost ..
  | .eventPacketWatermark .. | .remapHoldoffExpiry .. | .refusalWindowClose .. | .slotcntRead ..
  | .slotBadRead .. | .barUnsupportedAccess .. | .mbstatWrite .. | .registerWrite .. | .partCreate ..
  | .partDestroy .. | .partQuarters .. | .delowPorts .. | .routeSet .. | .evportSet .. | .slotSet ..
  | .remapSet .. | .streamAssign .. | .pasidAdd .. | .pasidRevoke .. | .keySet .. | .keyClear ..
  | .rangeSet .. | .setWorld .. | .resetGroup .. | .resetTeam .. | .resetCore .. | .resetQuarter ..
  | .resetPartition .. | .resetMatchEngine .. | .resetDelowPort .. | .resetPcieFunction .. | .quote ..
  | .patch .. | .energySet .. | .replicaSet .. | .info .. | .replicaDigestArrival .. | .replicaTimeout ..
  | .powerOn | .perstNReleaseLink0 | .perstNLink1 .. | .pwrfail | .thermtrip | .powerLimitExceeded ..
  | .thermalLimit .. | .thermalHardLimit .. | .currentLimit | .stepRecovery | .stepChangeComplete
  | .packageTimerTick | .energyWindowEnd | .pcieLinkDown .. | .hotReset .. | .functionLevelReset ..
  | .atsInvalidation .. | .atsCompletion .. | .hostReadCompletion .. | .dieLinkCrcError ..
  | .dieLinkReplayWindow | .delowFlitReceive .. | .delowAckTimeout .. | .delowRetrainComplete ..
  | .uncorrectableError .. | .pcieLinkUp .. | .perstNAssertLink0 | .delowPortUp .. | .correctedError .. => none

/-- The 32-bit header of an encoded instruction (R343). -/
def headBits (h : Header) (e : Enc) : Nat :=
  e.opc * 2 ^ 22 + h.gpred * 2 ^ 19 + h.gmask * 2 ^ 16 + h.stall * 2 ^ 11 + b2n h.y * 2 ^ 10 + b2n h.wl * 2 ^ 9 +
  b2n e.ru * 2 ^ 8 + e.ty * 2 ^ 4 + e.sub

/-- The 96-bit word of an instruction under a header; a step that is no program instruction has none. -/
def encode (h : Header) (i : Instr) : Option Nat :=
  (encFields i).map fun e => headBits h e * 2 ^ 64 + e.body

/-- The fields of a word as the layouts place them. -/
structure Raw where
  ty : Ty
  sub : Nat
  ru : Bool
  body : Nat
deriving DecidableEq, Repr

namespace Raw
/-- D, bits [63:52]. -/
def d (r : Raw) : Opnd := .ofCode (bits r.body 52 12)
/-- A, bits [51:40]. -/
def a (r : Raw) : Opnd := .ofCode (bits r.body 40 12)
/-- B, bits [39:28]. -/
def b (r : Raw) : Opnd := .ofCode (bits r.body 28 12)
/-- C of the T body, bits [27:16]. -/
def c (r : Raw) : Opnd := .ofCode (bits r.body 16 12)
/-- The flags of the T body. -/
def fl (r : Raw) : Flags :=
  ⟨bit r.body 12, bit r.body 11, bit r.body 10, bit r.body 9, bit r.body 8⟩
end Raw

/-- IMM, subop bit [67] of classes 000 and 001 (R345). -/
def immForm (r : Raw) : Bool := decide (8 ≤ r.sub)

/-- The immediate of the I body and of the TI arrangement. -/
def imm32 (r : Raw) : Opnd := .imm (BitVec.ofNat 32 (bits r.body 8 32))

/-- A two-source instruction of classes 000 and 001: the T body, or the I body. -/
def par2 (r : Raw) (f : Ty → Flags → Opnd → Opnd → Opnd → Instr) : Instr :=
  if immForm r then f r.ty ⟨false, false, false, false, bit r.body 0⟩ r.d r.a (imm32 r)
  else f r.ty r.fl r.d r.a r.b

/-- A one-source instruction of classes 000 and 001: the T body, or the I body. -/
def par1 (r : Raw) (f : Ty → Flags → Opnd → Opnd → Instr) : Instr :=
  if immForm r then f r.ty ⟨false, false, false, false, bit r.body 0⟩ r.d (imm32 r)
  else f r.ty r.fl r.d r.a

/-- A three-source instruction: the T body, or its TI arrangement. -/
def par3 (r : Raw) (f : Ty → Flags → Opnd → Opnd → Opnd → Opnd → Instr) : Instr :=
  if immForm r then f r.ty ⟨false, bit r.body 7, false, false, false⟩ r.d r.a (.x (bits r.body 0 7)) (imm32 r)
  else f r.ty r.fl r.d r.a r.b r.c

/-- The rounding field of the T body. -/
def rndT (r : Raw) : Rnd := .ofCode (bits r.body 13 3)

/-- The rounding field of the T body or the I body. -/
def rnd2 (r : Raw) : Rnd := if immForm r then .ofCode (bits r.body 5 3) else rndT r

/-- The rounding field of the T body or the TI arrangement. -/
def rnd3 (r : Raw) : Rnd := if immForm r then .ofCode (r.sub % 8) else rndT r

/-- The cache policy of the M body. -/
def cacheOf (r : Raw) : Cache := .ofCode (bits r.body 2 3)

/-- The scope of the M body. -/
def scopeM (r : Raw) : Scope := .ofCode (bits r.body 5 3)

/-- The offset of the M body. -/
def offM (r : Raw) : BitVec 20 := BitVec.ofNat 20 (bits r.body 8 20)

/-- The offset, or code, of the C body. -/
def offC (r : Raw) : Word := BitVec.ofNat 32 (bits r.body 32 32)

/-- A of the C body. -/
def fieldCA (r : Raw) : Opnd := .ofCode (bits r.body 20 12)

/-- B of the C body. -/
def fieldCB (r : Raw) : Opnd := .ofCode (bits r.body 8 12)

/-- The masks of the REGION body. -/
def masksOf (r : Raw) : Masks :=
  ⟨BitVec.ofNat 32 (bits r.body 32 32), BitVec.ofNat 12 (bits r.body 20 12), BitVec.ofNat 8 (bits r.body 12 8),
   BitVec.ofNat 8 (bits r.body 4 8)⟩

/-- An E-body operand that may be the immediate: the field at bit lo holds 0xC00 (R349). -/
def immOr (r : Raw) (o : Opnd) (lo : Nat) : Opnd :=
  if bits r.body lo 12 = 0xC00 then .imm (BitVec.ofNat 32 (bits r.body 0 28)) else o

/-- SYSWR: an immediate selector of the table's rows 0x0100 to 0x0108 names its row; every other selector is read
when the instruction acts (R425). (DEDUCED: log entry 37) -/
def parSyswr (d a b : Opnd) : Instr :=
  match a with
  | .imm v =>
    match v.toNat with
    | 0x100 => .syswrContextSet d b
    | 0x101 => .syswrInvalidate d b
    | 0x102 => .syswrMigrate d b
    | 0x103 => .syswrContextStop d b
    | 0x104 => .syswrContextResume d b
    | 0x105 => .syswrGroup d b
    | 0x106 => .syswrQueueCreate d b
    | 0x107 => .syswrQueueDestroy d b
    | 0x108 => .syswrQueueSwap d b
    | _ => .syswrGctl d a b
  | a => .syswrGctl d a b

/-- AUTCTL by its subop; 7 and above read as the last operation, and the comparison of words refuses them (R423). -/
def parAutctl (r : Raw) : Instr :=
  match r.sub with
  | 0 => .autctlStop r.d r.a
  | 1 => .autctlResume r.d r.a
  | 2 => .autctlCkpt r.d r.a r.b
  | 3 => .autctlRemove r.d r.a
  | 4 => .autctlCount r.d r.a
  | 5 => .autctlOpen r.d r.a
  | _ => .autctlClose r.d r.a

/-- Class 000 of the opcode map (R354). -/
def parse000 (index : Nat) (r : Raw) : Option Instr :=
  match index with
  | 0x0 => some (par2 r .iadd)
  | 0x1 => some (par2 r .isub)
  | 0x2 => some (par2 r .imul)
  | 0x3 => some (par2 r .imulh)
  | 0x4 => some (par3 r .imad)
  | 0x5 => some (par3 r (fun ty fl d a b c => .imadw ty fl.sat d a b c))
  | 0x6 => some (.ladd r.ty r.d r.a r.b r.c)
  | 0x7 => some (.lsub r.ty r.d r.a r.b r.c)
  | 0x8 => some (par2 r (fun ty _ d a b => .lea ty (r.sub % 8) d a b))
  | 0x9 => some (par2 r .imin)
  | 0xa => some (par2 r .imax)
  | 0xb => some (.iabs r.ty r.fl.sat r.d r.a)
  | 0xc => some (par2 r (fun ty _ d a b => .and ty d a b))
  | 0xd => some (par2 r (fun ty _ d a b => .or ty d a b))
  | 0xe => some (par2 r (fun ty _ d a b => .xor ty d a b))
  | 0xf => some (par2 r (fun ty _ d a b => .andn ty d a b))
  | 0x10 => some (par2 r (fun ty _ d a b => .shl ty d a b))
  | 0x11 => some (par2 r (fun ty _ d a b => .shr ty d a b))
  | 0x12 => some (par2 r (fun ty _ d a b => .sar ty d a b))
  | 0x13 => some (par2 r (fun ty _ d a b => .rol ty d a b))
  | 0x14 => some (.popc r.ty r.d r.a)
  | 0x15 => some (.clz r.ty r.d r.a)
  | 0x16 => some (.ctz r.ty r.d r.a)
  | 0x17 => some (.brev r.ty r.d r.a)
  | 0x18 => some (par2 r (fun ty _ d a b => .bfx ty d a b))
  | 0x19 => some (par3 r (fun ty _ d a b c => .bfi ty d a b c))
  | 0x1a => some (par3 r (fun ty _ d a b c => .prmt ty d a b c))
  | 0x1b => some (.sel r.ty r.d r.a r.b r.c)
  | 0x1c => some (par2 r (fun ty fl d a b => .icmp ty (.ofCode (r.sub % 8)) fl d a b))
  | 0x1d => some (par1 r (fun ty _ d a => .mov ty d a))
  | 0x1e => some (.movi r.ty r.d (BitVec.ofNat 32 (bits r.body 20 32)))
  | 0x20 => some (par2 r (fun ty _ d a b => .shfl ty (.ofCode (r.sub % 8)) d a b))
  | 0x21 => some (.vote (.ofCode r.sub) r.d r.a)
  | 0x22 => some (.redux r.ty (.ofCode r.sub) r.d r.a)
  | 0x23 => some (par2 r (fun ty _ d a b => .readl ty d a b))
  | 0x24 => some (.elect r.d)
  | 0x28 => some (.pand r.fl.negA r.fl.negB r.d r.a r.b)
  | 0x29 => some (.por r.fl.negA r.fl.negB r.d r.a r.b)
  | 0x2a => some (.pnot r.fl.negA r.d r.a)
  | 0x2b => some (par1 r (fun _ _ d a => .pset d a))
  | 0x2c => some (.pdef r.d r.a)
  | 0x2d => some (.ptest r.sub r.d r.a)
  | _ => none

/-- Class 001 of the opcode map (R354). -/
def parse001 (index : Nat) (r : Raw) : Option Instr :=
  match index with
  | 0x0 => some (par2 r (fun ty fl d a b => .fadd ty (rnd2 r) fl d a b))
  | 0x1 => some (par2 r (fun ty fl d a b => .fsub ty (rnd2 r) fl d a b))
  | 0x2 => some (par2 r (fun ty fl d a b => .fmul ty (rnd2 r) fl d a b))
  | 0x3 => some (par3 r (fun ty fl d a b c => .ffma ty (rnd3 r) fl d a b c))
  | 0x4 => some (par2 r .fmin)
  | 0x5 => some (par2 r .fmax)
  | 0x6 => some (par2 r (fun ty fl d a b => .fcmp ty (.ofCode (r.sub % 8)) fl d a b))
  | 0x7 => some (par2 r (fun ty fl d a b => .fdiv ty (rnd2 r) fl d a b))
  | 0x8 => some (par1 r (fun ty fl d a => .fsqrt ty (rnd2 r) fl d a))
  | 0x9 => some (par1 r (fun ty fl d a => .frcp ty (rnd2 r) fl d a))
  | 0xa => some (par1 r (fun ty fl d a => .frsq ty (rnd2 r) fl d a))
  | 0xb => some (par1 r (fun ty fl d a => .fexp2 ty (rnd2 r) fl d a))
  | 0xc => some (par1 r (fun ty fl d a => .flog2 ty (rnd2 r) fl d a))
  | 0xd => some (par1 r (fun ty fl d a => .frnd ty (rnd2 r) fl d a))
  | 0xe => some (par1 r .fclass)
  | 0xf => some (par2 r (fun ty fl d a b => .fscale ty (rnd2 r) fl d a b))
  | _ => none

/-- Class 010 of the opcode map (R354). -/
def parse010 (index : Nat) (r : Raw) : Option Instr :=
  match index with
  | 0x0 => some (.ivadd r.ty r.d r.a r.b)
  | 0x1 => some (.ivsub r.ty r.d r.a r.b)
  | 0x2 => some (.ivmul r.ty r.d r.a r.b)
  | 0x3 => some (.ivdiv r.ty r.d r.a r.b)
  | 0x4 => some (.ivfma r.ty r.d r.a r.b r.c)
  | 0x5 => some (.ivsqr r.ty r.d r.a)
  | 0x6 => some (.ivsqrt r.ty r.d r.a)
  | 0x7 => some (.ivrcp r.ty r.d r.a)
  | 0x8 => some (.ivexp2 r.ty r.d r.a)
  | 0x9 => some (.ivlog2 r.ty r.d r.a)
  | 0xa => some (.ivabs r.ty r.d r.a)
  | 0xb => some (.ivneg r.ty r.d r.a)
  | 0xc => some (.ivmin r.ty r.d r.a r.b)
  | 0xd => some (.ivmax r.ty r.d r.a r.b)
  | 0xe => some (.ivhull r.ty r.d r.a r.b)
  | 0xf => some (.ivisect r.ty r.d r.a r.b)
  | 0x10 => some (.ivmake r.ty r.d r.a r.b)
  | 0x11 => some (.ivpt r.ty r.d r.a)
  | 0x12 => some (.ivlo r.ty r.d r.a)
  | 0x13 => some (.ivhi r.ty r.d r.a)
  | 0x14 => some (.ivmid r.ty r.d r.a)
  | 0x15 => some (.ivwid r.ty r.d r.a)
  | 0x16 => some (.ivcmp r.ty (.ofCode r.sub) r.d r.a r.b)
  | 0x17 => some (.ivin r.ty r.d r.a r.b)
  | 0x18 => some (.ivsubs r.ty r.d r.a r.b)
  | 0x19 => some (.ivemp r.ty r.d r.a)
  | 0x1a => some (.ivbis r.ty r.d r.a r.b r.c)
  | 0x1b => some (.ivbfl)
  | _ => none

/-- Class 011 of the opcode map (R354). -/
def parse011 (index : Nat) (r : Raw) : Option Instr :=
  match index with
  | 0x0 => some (.cvt r.ty ((Ty.ofCode (bits r.body 0 8)).getD .i32) r.sub (rndT r) r.fl r.d r.a)
  | 0x1 => some (.pack r.ty r.sub (rndT r) r.fl r.d r.a r.b r.c)
  | 0x2 => some (.unpk r.ty r.sub r.d r.a)
  | 0x8 => some (.qst r.sub (bits r.body 0 2) (cacheOf r) r.d r.a r.b (offM r))
  | 0x9 => some (.qaxis (bit r.sub 0) (bit r.sub 1) r.d)
  | 0xa => some (.qclr r.d)
  | 0xb => some (.qget r.d r.a)
  | 0xc => some (.qset r.d r.a)
  | _ => none

/-- Class 100 of the opcode map (R354). -/
def parse100 (index : Nat) (r : Raw) : Option Instr :=
  match index with
  | 0x0 => some (.ld r.ty (.ofCode (bits r.body 0 2)) (cacheOf r) r.d r.a r.b (offM r))
  | 0x1 => some (.st r.ty (.ofCode (bits r.body 0 2)) (cacheOf r) r.d r.a r.b (offM r))
  | 0x2 => some (.ldl r.ty (.ofCode (bits r.body 0 2)) (cacheOf r) r.d r.a r.b (offM r))
  | 0x3 => some (.stl r.ty (.ofCode (bits r.body 0 2)) (cacheOf r) r.d r.a r.b (offM r))
  | 0x4 => some (.ldd r.ty (.ofCode (bits r.body 0 2)) (cacheOf r) r.d r.a r.b (offM r))
  | 0x5 => some (.std r.ty (.ofCode (bits r.body 0 2)) (cacheOf r) r.d r.a r.b (offM r))
  | 0x6 => some (.ldsp r.ty (.ofCode (bits r.body 0 2)) (cacheOf r) r.d r.a r.b (offM r))
  | 0x7 => some (.stsp r.ty (.ofCode (bits r.body 0 2)) (cacheOf r) r.d r.a r.b (offM r))
  | 0x8 => some (.ldiv r.ty (cacheOf r) r.d r.a r.b (offM r))
  | 0x9 => some (.stiv r.ty (cacheOf r) r.d r.a r.b (offM r))
  | 0xa => some (.atom r.ty (.ofCode r.sub) (scopeM r) (bit r.body 0) r.d r.a r.b (offM r))
  | 0xb => some (.pref (cacheOf r) r.a r.b (offM r))
  | 0x10 => some (.bind r.d r.a r.b (offM r))
  | 0x11 => some (.unbind r.d)
  | 0x12 => some (.acq (scopeM r) r.a)
  | 0x13 => some (.rel (scopeM r) r.a)
  | 0x14 => some (.fence (scopeM r))
  | _ => none

/-- Class 101 of the opcode map (R354). -/
def parse101 (index : Nat) (r : Raw) : Option Instr :=
  match index with
  | 0x0 => some (.sinit (.ofCode r.sub) r.a (immOr r r.b 28))
  | 0x1 => some (.sarr (.ofCode r.sub) r.a (immOr r r.b 28))
  | 0x2 => some (.sexp r.a (immOr r r.b 28))
  | 0x3 => some (.swait r.d r.a r.b (BitVec.ofNat 28 (bits r.body 0 28)))
  | 0x4 => some (.stry r.d r.a r.b)
  | 0x5 => some (.bar)
  | 0x6 => some (.cbar)
  | 0x8 => some (if r.sub = 0 then .bcopyG2l r.d r.a r.b else .bcopyL2g r.d r.a r.b)
  | 0x9 => some (.bqst r.d r.a r.b)
  | 0xa => some (.mma r.ty (bit r.sub 0) r.ru r.d r.a r.b)
  | 0xb => some (.mmab r.a)
  | 0xc => some (.coll r.a)
  | 0x10 => some (.sbind r.d (immOr r r.a 40))
  | 0x11 => some (.sfree r.d)
  | _ => none

/-- Class 110 of the opcode map (R354). -/
def parse110 (index : Nat) (r : Raw) : Option Instr :=
  match index with
  | 0x0 => some (.bra (offC r))
  | 0x1 => some (.brx (fieldCA r) (fieldCB r))
  | 0x2 => some (.call (offC r))
  | 0x3 => some (.callx (fieldCA r) (fieldCB r))
  | 0x4 => some (.ret)
  | 0x5 => some (.join (.p (bits r.body 0 8)) (fieldCA r) (fieldCB r))
  | 0x6 => some (.bse (bits r.body 0 8) (fieldCA r) (offC r))
  | 0x7 => some (.region (masksOf r))
  | 0x8 => some (.xacq)
  | 0x9 => some (.xrel)
  | 0xa => some (.yield)
  | 0xb => some (.nop)
  | 0xc => some (.exit)
  | 0xd => some (.phase (masksOf r))
  | 0xe => some (.spawn (bit r.sub 0) (bit r.sub 1) r.d r.a r.b)
  | 0xf => some (.trap (offC r) (fieldCA r))
  | 0x10 => some (.bkpt (offC r) (fieldCA r))
  | 0x11 => some (.waitc)
  | _ => none

/-- Class 111 of the opcode map (R354). -/
def parse111 (index : Nat) (r : Raw) : Option Instr :=
  match index with
  | 0x0 => some (.evpost r.d r.a (immOr r r.b 28))
  | 0x1 => some (.evld r.d r.a)
  | 0x2 => some (.evrel r.a)
  | 0x3 => some (.wmark r.a (immOr r r.b 28))
  | 0x4 => some (.autld r.d r.a)
  | 0x5 => some (parAutctl r)
  | 0x8 => some (.sysrd r.d (immOr r r.a 40))
  | 0x9 => some (parSyswr r.d (immOr r r.a 40) r.b)
  | 0xa => some (.ccnt r.ty r.d)
  | 0xb => some (.rand r.ty r.d)
  | 0xc => some (.tokwait)
  | 0xd => some (.tokpass)
  | 0xe => some (if r.sub = 0 then .psnt r.ty r.d r.a else .psntClr r.ty r.d r.a)
  | _ => none

/-- The instruction that a word's fields name, whether or not every field is legal; none where the opcode is
unallocated. -/
def parse (opc : Nat) (r : Raw) : Option Instr :=
  match opc / 128 with
  | 0 => parse000 (opc % 128) r
  | 1 => parse001 (opc % 128) r
  | 2 => parse010 (opc % 128) r
  | 3 => parse011 (opc % 128) r
  | 4 => parse100 (opc % 128) r
  | 5 => parse101 (opc % 128) r
  | 6 => parse110 (opc % 128) r
  | _ => parse111 (opc % 128) r

/-- The header fields of a word (R343). -/
def headerOf (w : Nat) : Header :=
  ⟨bits w 83 3, bits w 80 3, bits w 75 5, bit w 74, bit w 73⟩

/-- A 96-bit word decoded, or the reason that it is refused (R353, R355). -/
def decodeWord (w : Nat) : Except DecodeError (Header × Instr) :=
  let h := headerOf w
  if h.gmask = 0 then .error .emptyGuard
  else match Ty.ofCode (bits w 68 4) with
    | none => .error .unallocated
    | some ty =>
      match parse (bits w 86 10) ⟨ty, bits w 64 4, bit w 72, bits w 0 64⟩ with
      | none => .error .unallocated
      | some i =>
        if guardOk h i = false then .error .guardedMarker
        else if wf i && encode h i == some w then .ok (h, i)
        else .error .malformed

/-- Bytes of a little-endian number (R4). -/
def leBytes : Nat → Nat → List Byte
  | 0, _ => []
  | n + 1, v => BitVec.ofNat 8 v :: leBytes n (v / 256)

/-- The little-endian value of bytes (R4). -/
def leNat : List Byte → Nat
  | [] => 0
  | b :: bs => b.toNat + 256 * leNat bs

/-- The first instruction of a list of bytes as memory holds it, with the bytes after it: bytes 0 to 7 hold the body
and bytes 8 to 11 the header, each little-endian (R340). -/
def decode (bs : List Byte) : Except DecodeError (Header × Instr × List Byte) :=
  if bs.length < 12 then .error .short
  else match decodeWord (leNat (bs.take 12)) with
    | .error e => .error e
    | .ok (h, i) => .ok (h, i, bs.drop 12)

/-- The 12 bytes of a word in memory (R340). -/
def wordBytes (w : Nat) : List Byte := leBytes 12 w

/-- The instruction that the decoder reads from an instruction whose bits are w, bits [95:0] as R340 numbers them;
the bits from nbits upward are zero. -/
def decodeTableWord (nbits w : Nat) : Option Instr :=
  match decode (wordBytes (w % 2 ^ nbits)) with
  | .ok (_, i, _) => some i
  | .error _ => none

end Sys2Proof
end

