-- ==== Sys2Proof/Machine/State.lean ====
section
/-! DEFINITION. The state of one UGS-096A package: everything the spec gives the machine, as plain data. Tables list
what differs from the reset contents. The rule beside a field is the one that names it. -/

namespace Sys2Proof.Machine

/-- Why a lane does not issue (R152). -/
inductive Wait where
  /-- It may issue. -/
  | none
  /-- At a JOIN (R155). -/
  | join
  /-- At BAR, with its stores drained (R228). -/
  | bar
  /-- At CBAR (R228). -/
  | cbar
  /-- At PHASE (R147). -/
  | phase
  /-- At XACQ (R160). -/
  | xacq
  /-- At SWAIT, on the sett at a physical address, for a generation, from the given clock or turn, with a limit
  (0 is none) (R226). -/
  | swait (addr g since limit pd : Nat)
  /-- Until the load counter reads 0: a ~wl hint or WAITC (R164). -/
  | loads
  /-- Until a table walk returns; the lane replays its instruction (R188). -/
  | walk
  /-- The lane's region is discarded, and the lane waits for release (R188). -/
  | aborted
  /-- At a SPAWN that finds the spill pool or the queue full (R143, R378). -/
  | enqueue
  /-- At an instruction whose engine has no room (R233, R247, R412) or whose load counter is full (R164). -/
  | engine
  /-- At a fetch or load that waits for an outstanding host read or ATS answer (R43). -/
  | remote
deriving DecidableEq, Repr

/-- What the next executed instruction of a lane must be (R151, R186). -/
inductive Must where
  | nothing
  /-- A REGION, since the lane executed a commit instruction: else code 0x0B. -/
  | afterCommit
  /-- A REGION, since the lane executed CALL, CALLX or RET: else code 0x1A. -/
  | afterCall
deriving DecidableEq, Repr

/-- A lane's region entry: the REGION's PC, its masks, and the x, p and e registers that they name as they stood at
that entry (R188). -/
structure Entry where
  pc : Nat
  masks : Masks
  stack : List Nat
  spilled : Nat
  x : Tbl Reg
  p : Tbl PReg
  e : Tbl Reg
deriving DecidableEq, Repr

/-- One lane of a group (R149, R159, R162). Registers that the tables do not list read zero, and p registers F. -/
structure Lane where
  live : Bool
  pc : Nat
  wait : Wait
  must : Must
  /-- The return-stack entries held in the core, youngest first. -/
  stack : List Nat
  /-- The number of older entries held in the spill area (R149). -/
  spilled : Nat
  demoted : Bool
  x : Tbl Reg
  p : Tbl PReg
  e : Tbl Reg
  c : Tbl Reg
  lat : Reg
  /-- The region entry; none before any REGION: the dispatch itself. -/
  entry : Option Entry
  /-- The clock, or turn, from which the lane may issue again (R163). -/
  readyAt : Nat
  /-- RAND's draw counter of the lane (R326). -/
  draws : Nat
deriving DecidableEq, Repr

/-- A stream register's binding (R413 to R416). -/
structure SReg where
  bound : Bool
  /-- The pattern's offset in local store. -/
  off : Nat
  base : Nat
  ndim : Nat
  sgn : Bool
  esz : Nat
  n0 : Nat
  n1 : Nat
  n2 : Nat
  st0 : Int
  st1 : Int
  st2 : Int
  pos : Nat
  /-- End flags of dimensions 0 to 2, one bit per lane. -/
  f0 : Nat
  f1 : Nat
  f2 : Nat
deriving DecidableEq, Repr

/-- An unbound stream register. -/
def SReg.free : SReg := ⟨false, 0, 0, 0, false, 0, 0, 0, 0, 0, 0, 0, 0, 0, 0, 0⟩

/-- What the group's most recent REGION recorded for the group (R188). -/
structure GroupRecord where
  masks : Masks
  w : Tbl Reg
  axis : Nat
  sregs : List SReg
deriving DecidableEq, Repr

/-- A spin entry (R157). -/
structure Spin where
  addr : Nat
  lanes : Nat
  count : Nat
  clean : Bool
deriving DecidableEq, Repr

/-- One byte that a group's open regions hold back (R184, R182). -/
structure BufByte where
  lane : Nat
  /-- The first byte of an access. -/
  first : Bool
  addr : Nat
  byte : Byte
  pois : Bool
  /-- The virtual page of 64 KiB, or none for die store by a direct path. -/
  vpage : Option Nat
  /-- The range-table entry of the translation. -/
  range : Option Nat
  /-- The memory type of its page (R177): 0 NORMAL, 1 WC, 2 DEVICE, 3 STRONG; 0 for die store. -/
  mtype : Nat
deriving DecidableEq, Repr

/-- One register write of a result that has not returned: lane, the operand field code of a 32-bit register, value. -/
structure PendWrite where
  lane : Nat
  reg : Nat
  val : Reg
deriving DecidableEq, Repr

/-- An outstanding variable-latency result: its sectors in any order (R164). A predicate result has field codes from
0x280. -/
structure Pending where
  sectors : List (List PendWrite)
  /-- The operations whose results are still to come: serial number and lane (R182, R193, R423). -/
  owed : List (Nat × Nat)
deriving DecidableEq, Repr

/-- A JOIN instance (R155). -/
structure Join where
  pc : Nat
  mask : Nat
  since : Nat
  limit : Nat
  lanes : Nat
  pd : Nat
deriving DecidableEq, Repr

/-- A fixed-latency result that a consumer may not read yet (R163). -/
structure Producer where
  lanes : Nat
  /-- The field codes of the 32-bit registers written. -/
  regs : List Nat
  until_ : Nat
  /-- The number of an MMA's type; 0 of other instructions (R245). -/
  tag : Nat
deriving DecidableEq, Repr

/-- The kinds of a task (R140). -/
inductive TaskKind where
  | spawn | team | pool
deriving DecidableEq, Repr

/-- Why a group waits after a region abort (R188 to R193). -/
structure AbortWait where
  code : Nat
  page : Nat
  acc : Nat
  guest : Nat
  lanes : Nat
  /-- The PC of the instruction that faulted. -/
  pc : Nat
deriving DecidableEq, Repr

/-- Why a group as a whole does not issue. -/
inductive Halt where
  | running
  /-- Waits after a region abort, on each (page, code). -/
  | aborted (ws : List AbortWait)
  /-- Halted at BKPT: the PC and the lanes that executed it, its code, its A value, and that value's poison flag as its
  record shows it (R333). -/
  | bkpt (pc lanes code val flags : Nat)
  /-- Waiting at a PHASE with its registers released (R147). -/
  | phase
deriving DecidableEq, Repr

/-- Whether pre-emption holds a group: in place on its core since a clock, and then whether it is kept whole; or evicted
to the save area, and then whether its context is scheduled again, so that it waits for its slots, and the lanes that a
barrier has released meanwhile (R335 to R337). -/
inductive Pre where
  | no
  | inPlace (at_ : Nat) (whole : Bool)
  | evicted (at_ : Nat) (back : Bool) (freed : Nat)
deriving DecidableEq, Repr

/-- A group in a group slot of a core (chapter 09). -/
structure Group where
  kind : TaskKind
  /-- The team's serial number; none for a SPAWN task's group (R429). -/
  team : Option Nat
  gidx : Nat
  job : Nat
  pasid : Nat
  /-- The grid table entry. -/
  grid : Nat
  prio : Nat
  logicalId : Nat
  /-- The model's own: a number that no other group shares, its ring place's name (R320). -/
  uid : Nat
  /-- Tasks made so far by the group (R317). -/
  made : Nat
  startPc : Nat
  /-- Base registers per lane. -/
  base : Nat
  /-- Extension registers that the template declares. -/
  ext : Nat
  holdsExt : Bool
  age : Nat
  lanes : List Lane
  w : Tbl Reg
  axis : Nat
  sregs : List SReg
  record : Option GroupRecord
  /-- w0 to w7 and the x registers as dispatched, for a lane that has executed no REGION (R188). -/
  dispatchW : Tbl Reg
  dispatchX : List (Tbl Reg)
  spint : Nat
  sbchk : Bool
  eif : Bool
  spins : List Spin
  held : Option Nat
  loads : Nat
  pend : List Pending
  tokwaits : Nat
  producers : List Producer
  buf : List BufByte
  joins : List Join
  halt : Halt
  pre : Pre
  /-- The reuse latch: the A rows kept by an MMA with RU, with the registers' field code and the lanes (R246). -/
  reuse : Option (Nat × List (Nat × List Reg))
  phaseNo : Nat
  phasePc : Nat
  phaseMasks : Masks
  issued : Nat
  resident : Nat
  /-- The group is not ready in the cycle after a yield (R165). -/
  yielded : Bool
  /-- Cycles passed over in a row under a throttle (R38). -/
  skipped : Nat
  /-- Set by an instruction that stores, performs an engine operation or a modifying atomic (R157). -/
  touched : Bool
  /-- Set by an instruction that stores, performs a modifying atomic or exits (R158). -/
  progress : Bool
  /-- The group issued an operation on a sett outside its local store, and waits for the boundary (R314). -/
  distant : Bool
  /-- Virtual pages whose walks an instruction waits for, and whether they have returned (R188). -/
  walks : List Nat
  walked : Bool
deriving DecidableEq, Repr

/-- A team on a core: its groups, its local store, extension and pool (R141, R160, R285). -/
structure Team where
  part : Nat
  core : Nat
  pasid : Nat
  grid : Nat
  job : Nat
  prio : Nat
  /-- The team's index in its grid, its rank in its cluster, and its cluster's number (R133). -/
  idx : Nat
  lstore : Nat
  groups : List Nat
  /-- Groups of the TEAM task that have not ended; the task ends when it is 0. -/
  open_ : Nat
  /-- Attached POOL groups that have not ended. -/
  attached : Nat
  /-- The TEAM task has ended (by exit or as faulted). -/
  ended : Bool
  entry : Nat
  extRegs : Nat
  /-- The extension's registers: key lane × 192 + (register - 64). -/
  ext : Tbl Reg
  extHolder : Option Nat
  extQueue : List Nat
  /-- Requests of the current clock, which follow those of earlier ones (R376). -/
  extNew : List Nat
  pf : Nat
  pn : Nat
  pbusy : Nat
  pb : Nat
  poff : Nat
deriving DecidableEq, Repr

/-- A task record in a queue (R140). -/
structure Task where
  kind : TaskKind
  pc : Nat
  args : List Reg
  job : Nat
  prio : Nat
  pin : Bool
  grid : Nat
  /-- TEAM: the team index. -/
  sub : Nat
  /-- POOL: the team's serial, the batch, and its entry count. -/
  team : Option Nat
  batch : Nat
  count : Nat
  /-- The context and the logical id that the task's first group takes (R110, R317). -/
  pasid : Nat
  lid : Nat
  /-- The number of the task's first group, and the queue handle through which the task came (R145). -/
  uid : Nat
  handle : Option Nat
deriving DecidableEq, Repr

/-- A grid table entry: the template's fields as read at acceptance (R132, R135). -/
structure Grid where
  job : Nat
  pasid : Nat
  entry : Nat
  groups : Nat
  teams : Nat
  cw : Nat
  ch : Nat
  base : Nat
  ext : Nat
  cls : Nat
  prio : Nat
  lstore : Nat
  batches : Nat
  poff : Nat
  args : List Reg
  /-- The placement map's virtual cores, in team order. -/
  map : List Nat
  /-- Tasks of the grid that have not ended. -/
  left : Nat
  ordinal : Nat
  /-- The number of the grid's first group; the others follow in logical order. -/
  uid : Nat
  /-- Serial numbers of the running teams by team index. -/
  running : Tbl Nat
deriving DecidableEq, Repr

/-- A job table entry (R137). -/
structure Job where
  count : Nat
  ended : Nat
  faulted : Nat
  refused : Nat
  launches : Nat
  pasid : Option Nat
  /-- Job class of the first admitted launch (R132, R88). -/
  cls : Option Nat
deriving DecidableEq, Repr

/-- A launch request (R110, R134). -/
structure Launch where
  template : Nat
  args : List Reg
  job : Nat
  pasid : Nat
  quarter : Nat
  /-- Made from a start event whose POIS flag is set: refused with reason 1 (R72). -/
  bad : Bool
deriving DecidableEq, Repr

/-- A queue of the queue table (R145). -/
structure Queue where
  created : Bool
  gen : Nat
  core : Nat
  pasid : Nat
  ring : Nat
  size : Nat
  swapped : Bool
  head : Nat
  used : Nat
  /-- Tasks held in the image, oldest first, beside their memory records. -/
  tasks : List Task
deriving DecidableEq, Repr

/-- A range-table entry (R178). -/
structure Range where
  valid : Bool
  gbase : Nat
  glast : Nat
  hbase : Nat
  gr : Bool
  gw : Bool
  gx : Bool
  sec : Bool
  host : Bool
  link : Nat
  ats : Bool
  key : Nat
deriving DecidableEq, Repr

/-- A range entry that matches nothing. -/
def Range.none : Range := ⟨false, 0, 0, 0, false, false, false, false, false, 0, false, 0⟩

/-- A binding-table entry (R198, R408): the context (none for die store), first line, lines, binding-set id. -/
structure Binding where
  pasid : Nat
  paged : Bool
  line : Nat
  lines : Nat
  bset : Nat
deriving DecidableEq, Repr

/-- Someone that waits for a page: a group by its key, or a suspended engine operation by its number (R190, R191). -/
inductive Waiter where
  | group (key : Nat)
  | engine (op : Nat)
  /-- The hardware that reads and writes the rings of events (R66). -/
  | ring
  /-- The scanner of a quarter's match engine, for the automaton in a slot (R111, R118). -/
  | scanner (quarter slot : Nat)
  /-- The task system, for a partition's oldest launch request (R72, R134). -/
  | launcher (part : Nat)
  /-- The migration engine, for a migration (R193). -/
  | mover (serial : Nat)
deriving DecidableEq, Repr

/-- A page on its way to new frames: the number under which its status is owed, its context and world, its first page of
64 KiB and their number, the guest-physical address of its leaf with the halves it had, and the new frames (R193). -/
structure Migration where
  serial : Nat
  pasid : Nat
  secure : Bool
  vpage : Nat
  units : Nat
  entry : Nat
  lo : Nat
  hi : Nat
  data : Nat
  side : Nat
deriving DecidableEq, Repr

/-- A gathering window (R189). -/
structure Window where
  pasid : Nat
  page : Nat
  code : Nat
  acc : Nat
  guest : Nat
  /-- The grid and cluster that gathers; a SPAWN group's own key when it has none. -/
  cluster : Nat
  closes : Nat
  waiters : List Waiter
  job : Nat
  core : Nat
  pc : Nat
deriving DecidableEq, Repr

/-- A pending-table entry (R190). -/
structure PendPage where
  pasid : Nat
  page : Nat
  acc : Nat
  waiters : List Waiter
deriving DecidableEq, Repr

/-- Groups released for retry after a full table or a dropped record (R190, R331). -/
structure Retry where
  at_ : Nat
  pasid : Nat
  page : Nat
  waiters : List Waiter
deriving DecidableEq, Repr

/-- An open stream (R92, R93). -/
structure Stream where
  base : Nat
  /-- The context through which the ring is reached. -/
  pasid : Nat
  lgent : Nat
  lgret : Nat
  nodev : Bool
  timed : Bool
  hold : Bool
  tail : Nat
  low : Nat
  released : Nat
  left : Option Nat
  wm : Option Nat
  last : Option Nat
  /-- Event times of the held events, oldest first: the part derives lefttime from them (R93). -/
  times : List Nat
deriving DecidableEq, Repr

/-- A context of a partition (R172, R36 to R38, R425). -/
structure Ctx where
  root : Option Nat
  share : Nat
  save : Option Nat
  /-- Slice length in units of 1024 clocks. -/
  slice : Nat
  /-- Clocks of the current slice used on each virtual core. -/
  used : Tbl Nat
  stopped : Bool
  /-- The round at whose end a deterministic partition has halted the context, until it goes on (R327). -/
  haltRound : Option Nat
  /-- Energy of the current window, in hundredths of a picojoule. -/
  energy : Nat
  budget : Option Nat
  throttle : Nat
deriving DecidableEq, Repr

/-- A context as it stands before any context operation (R36, R172). (DESIGN CHOICE: log entry 56) -/
def Ctx.new : Ctx := ⟨none, 1, none, 3223, [], false, none, 0, none, 0⟩

/-- A cluster's reservation (R144). -/
structure Reservation where
  grid : Nat
  cluster : Nat
  /-- Cores that have granted, rank 0's core first. -/
  granted : List Nat
  /-- The core that has been asked and has not granted. -/
  asked : Option Nat
deriving DecidableEq, Repr

/-- A den record (R114). Free records are not listed. -/
structure Candidate where
  state : Nat
  pslot : Nat
  tenter : Nat
  clocks : List Nat
  words : List Nat
deriving DecidableEq, Repr

/-- A state entry of an automaton table (R101). -/
structure AutState where
  exp : Bool
  post : Bool
  clk : Nat
  bound : Nat
deriving DecidableEq, Repr

/-- A transition of an automaton table (R102). -/
structure Transition where
  src : Nat
  dst : Nat
  kind : Nat
  reset : Nat
  cls : Nat
  bind : Nat
  gop : Nat
  gclk : Nat
  op1 : Nat
  idx1 : Nat
  op2 : Nat
  idx2 : Nat
  const1 : Nat
  const2 : Nat
  gconst : Nat
deriving DecidableEq, Repr

/-- An argument spec (R104). -/
structure ArgSpec where
  kind : Nat
  slot : Nat
  idx : Nat
deriving DecidableEq, Repr

/-- An automaton table as an engine slot holds it (R101). -/
structure AutTable where
  nclocks : Nat
  watch : List Nat
  each : Bool
  ovf : Nat
  rep : Bool
  rstream : Nat
  budget : Nat
  template : Nat
  args : List ArgSpec
  start : Nat
  states : List AutState
  trans : List Transition
  /-- The bytes of the table image, for its digest (R120). -/
  image : List Byte
deriving DecidableEq, Repr

/-- An installed automaton of an engine slot (R112 to R127). -/
structure Automaton where
  table : AutTable
  /-- First den record of its segment. -/
  seg : Nat
  job : Nat
  pasid : Nat
  /-- Spoor area, a generic address; the frames follow each other (R121). -/
  area : Nat
  cands : List Candidate
  stopped : Bool
  cause : Nat
  /-- POS, lwatch, ltime, lseq of the spoor. -/
  last : Option (Nat × Nat × Nat)
  /-- S of the last completed pass. -/
  sdone : Option Nat
  next : List Nat
  /-- The next entries of the latest frame, which hold the streams' bases (R122). -/
  frameNext : List Nat
  fserial : Nat
  /-- The frame of the last write: 0 or 1. -/
  frame : Nat
  /-- At least one event processed since the last frame (R122). -/
  dirty : Bool
  oserial : Nat
  refused : Nat
  evicted : Nat
  xrefused : Nat
  /-- The context was stopped by SYSWR: context resume continues it (R338). -/
  ctxStop : Bool
  /-- The slot's segment has been taken for another automaton; resume restores from the frame (R338). -/
  evictedSeg : Bool
deriving DecidableEq, Repr

/-- An entry of an engine's output queue (R119): an accept's launch with the event's time, an expiry report with its
stream and context, or the raise of a report stream's watermark that follows the reports of a pass (R109). -/
inductive Output where
  | launch (slot serial time : Nat) (l : Launch)
  | report (slot serial stream pasid time : Nat) (payload : List Nat)
  | raise (slot stream w : Nat)
deriving DecidableEq, Repr

/-- What an AUTCTL operation on an automaton does (R423). -/
inductive AutAct where
  | stop
  | resume
  | ckpt (at_ : Nat)
  | remove
  | count
deriving DecidableEq, Repr

/-- An AUTCTL operation on an automaton: the value that names it, its lane's context, and the number under which its
group waits for the answer (R423, R124). -/
structure AutOp where
  serial : Nat
  act : AutAct
  value : Nat
  part : Nat
  pasid : Nat
  secure : Bool
deriving DecidableEq, Repr

/-- An event match engine, one per quarter (R112 to R119). -/
structure Engine where
  slots : Tbl Automaton
  /-- Output gates by slot (R123). -/
  gates : Tbl Nat
  /-- The output queue: at most 32 accepts and reports, and the watermark raises between them (R119). -/
  out : List Output
  /-- The outputs of the step under way that have no room in the queue: the scanner stalls with them (R119). -/
  spill : List Output
  /-- The slot last served by the scanner (R118). -/
  rot : Nat
  /-- AUTCTL operations that have not completed, in the order of their issue (R124, R423). -/
  ops : List AutOp
deriving DecidableEq, Repr

/-- An engine that holds nothing. -/
def Engine.empty : Engine := ⟨[], [], [], [], 0, []⟩

/-- An operation on a sett outside the issuer's local store, which takes effect at the next boundary (R314 step 2). -/
structure DeferredSett where
  group : Nat
  /-- The group's number in the ring. -/
  uid : Nat
  lane : Nat
  pc : Nat
  /-- 0 SINIT, 1 SARR, 2 SEXP, 3 STRY, 4 ACQ, 5 REL. -/
  op : Nat
  kind : Nat
  addr : Nat
  val : Nat
  /-- The predicate register that STRY writes. -/
  pd : Nat
deriving DecidableEq, Repr

/-- A place in the ring of a deterministic share: the group's number and context, its key once it is dispatched, the
number of its creator, and whether it has exited (R320). -/
structure Member where
  uid : Nat
  pasid : Nat
  key : Option Nat
  parent : Option Nat
  exited : Bool
deriving DecidableEq, Repr

/-- An event that waits for step 5 of the next boundary: the group's number, the stream's kind, class, payload (R314). -/
structure DeferredPost where
  group : Nat
  stream : Nat
  cls : Nat
  payload : List Nat
deriving DecidableEq, Repr

/-- The deterministic mode's state of a partition's share (R311 to R321). -/
structure Det where
  /-- Rounds completed on every virtual core; an epoch is 256 rounds (R314). -/
  round : Nat
  /-- The round of the last boundary that has been applied. -/
  applied : Option Nat
  /-- The virtual cores' groups that have had their turn in the current round. -/
  turned : List Nat
  /-- The ring of member groups (R320). -/
  ring : List Member
  /-- The holder's number. -/
  holder : Option Nat
  /-- The holder has passed; the pass takes effect at step 3 of the next boundary. -/
  passing : Bool
  /-- The index in the ring from which the next search runs. -/
  lastHolder : Nat
  setts : List DeferredSett
  posts : List DeferredPost
  /-- Launch requests waiting for admission: event time, quarter, slot, serial, launch (R316). -/
  admits : List (Nat × Nat × Nat × Nat × Launch)
  /-- Job-count changes waiting for step 5: the group's number, job, and 0 ended, 1 faulted, 2 one task more, 3 refused. -/
  jobEnds : List (Nat × Nat × Nat)
  /-- Turns that wait for a remote answer: group, PC and lanes (R311). -/
  open_ : List (Nat × Nat × Nat)
deriving DecidableEq, Repr

/-- A deterministic share at its start. -/
def Det.new : Det := ⟨0, none, [], [], none, false, 0, [], [], [], [], []⟩

/-- Replica checking of a partition (R88). -/
structure Replica where
  twinPkg : Nat
  twinPart : Nat
  cls : Nat
  list : Nat
  timeout : Nat
  step : Nat
  /-- Own digests of steps that wait for the twin's, oldest first, and the tick at which each times out. -/
  own : List (Nat × Nat)
  /-- The twin's digests that arrived before the own steps, oldest first. -/
  early : List Nat
deriving DecidableEq, Repr

/-- A partition (R73, R81). -/
structure Part where
  /-- Quarter numbers, increasing. -/
  quarters : List Nat
  home : Nat
  det : Option Det
  push : Nat
  sampling : Nat
  seed : Nat
  pasids : List Nat
  /-- The PASIDs that a revocation has taken and no later addition has given back (R68). -/
  revoked : List Nat
  ranges : List Range
  rangeGen : Nat
  bindings : List Binding
  /-- Migrations that have begun and not ended (R193). -/
  migs : List Migration
  /-- Stream ids assigned by STREAM_ASSIGN, the system streams apart. -/
  assigned : List Nat
  /-- The open streams by id. -/
  streams : Tbl Stream
  jobs : Tbl Job
  grids : Tbl Grid
  queues : Tbl Queue
  launches : List Launch
  /-- An admitted launch's tasks that wait for room in queues (R135, R143): grid entry and team indexes left. -/
  placing : Option (Nat × List Nat)
  windows : List Window
  pending : List PendPage
  retries : List Retry
  lost : Bool
  reservations : List Reservation
  /-- Package id to port mask (R53). -/
  routes : Tbl Nat
  replica : Option Replica
  /-- Halted by a replica mismatch or a firmware error (R85, R88). -/
  halted : Bool
  /-- MMAs completed by each core of the partition, for sampling (R255). -/
  tiles : Tbl Nat
  /-- The virtual cores' hosts where they differ from their own position (R308, R309). -/
  remap : Tbl Nat
  retired : List Nat
deriving DecidableEq, Repr

/-- A core's task queue and reservations (R143, R144). -/
structure CoreSt where
  queue : List Task
  /-- Room set aside for granted reservations: grid entry and cluster. -/
  granted : List (Nat × Nat)
  /-- Requests that wait here, in order of arrival: grid entry and cluster. -/
  requests : List (Nat × Nat)
  /-- The clock from which the matrix engine is no longer occupied by an MMA (R245). -/
  mmaFree : Nat
deriving DecidableEq, Repr

/-- A core with nothing queued. -/
def CoreSt.empty : CoreSt := ⟨[], [], [], 0⟩

/-- The causes of a clock step that are active or wait (R31). -/
structure Power where
  /-- 0 full, 1 three quarters, 2 half, 3 quarter. -/
  step : Nat
  /-- A change in progress: the new step, its cause bits, and the clock at which it completes. -/
  changing : Option (Nat × Nat × Nat)
  /-- A cause that arose during a change: the step called for and its cause bits. -/
  pending : Option (Nat × Nat)
  /-- The tick of the last cause, and of the last step up. -/
  lastCause : Nat
  lastUp : Nat
  hottest : Nat
  watts : Nat
  on : Bool
  /-- PERST_N released on links 0 and 1. -/
  released : List Bool
  thermtrip : Bool
  pwrfail : Bool
deriving DecidableEq, Repr

/-- The management core and its stores (R77 to R82). -/
structure Firmware where
  available : Bool
  fusedLevel : Nat
  /-- The patch memory's accepted patch: level and bytes. -/
  patch : Option (Nat × List Byte)
  running : Option (Nat × List Byte)
  /-- The key table: id to owner partition and key words (R82). -/
  keys : Tbl (Nat × List Word)
  packageId : Nat
  /-- Worlds of quarters, Delow ports and event ports that are secure, by kind and index (R76). -/
  secure : List (Nat × Nat)
deriving DecidableEq, Repr

/-- A link's mailbox (R79). -/
structure Mailbox where
  go : Bool
  tag : Nat
  opcode : Nat
  done : Bool
  doneTag : Nat
  status : Nat
  irqEn : Bool
  irqVec : Nat
  args : List Word
  res : List Word
  /-- The order in which GO was written (R80). -/
  order : Nat
deriving DecidableEq, Repr

/-- A mailbox at reset (R79). (DESIGN CHOICE: log entry 2) -/
def Mailbox.new : Mailbox :=
  ⟨false, 0, 0, false, 0, 0, false, 0, List.replicate 32 0, List.replicate 32 0, 0⟩

/-- A notify slot (R60, R62). -/
structure Slot where
  map : Bool
  w : Bool
  irq : Bool
  stream : Nat
  ridx : Nat
  lastSeq : Nat
  refused : Nat
  posted : Nat
deriving DecidableEq, Repr

/-- A slot at reset (R60, R62). -/
def Slot.new : Slot := ⟨false, false, false, 0, 0, 2 ^ 48 - 1, 0, 0⟩

/-- An event port with its report window (R60, R69). -/
structure Port where
  en : Bool
  part : Nat
  pasid : Nat
  slots : Tbl Slot
  /-- The tick at which the open report window closes. -/
  window : Option Nat
  /-- Refusals pending in the window, and the last one: slot, reason, PASID word, packet bytes 0 to 7. -/
  pendCount : Nat
  pendLast : Nat × Nat × Nat × Nat
deriving DecidableEq, Repr

/-- A port at reset (R60). -/
def Port.new : Port := ⟨false, 0, 0, [], none, 0, (0, 0, 0, 0)⟩

/-- An interrupt remap entry (R70). -/
structure Remap where
  v : Bool
  mask : Bool
  pend : Bool
  part : Nat
  vec : Nat
  mod : Nat
  cls : Nat
  /-- The tick of the last message sent. -/
  lastSent : Option Nat
deriving DecidableEq, Repr

/-- A remap entry at reset (R70). (DESIGN CHOICE: log entry 54) -/
def Remap.new : Remap := ⟨false, true, false, 0, 0, 0, 0xFFFF, none⟩

/-- A read of host memory outstanding on a link: its tag, address, length and the lanes or engine that wait (R43). -/
structure HostRead where
  tag : Nat
  addr : Nat
  len : Nat
  key : Nat
  waiter : Waiter
  lanes : Nat
deriving DecidableEq, Repr

/-- A write to host memory that its link has not accepted (R45): the PASID under which it is issued, the key id that
covers it, its physical address and its bytes. -/
structure HostWrite where
  pasid : Option Nat
  key : Nat
  phys : Nat
  bytes : List Byte
deriving DecidableEq, Repr

/-- An ATS translation request outstanding on a link (R43). -/
structure AtsReq where
  tag : Nat
  pasid : Nat
  /-- The untranslated address, in 64 KiB units. -/
  page : Nat
  waiter : Waiter
  lanes : Nat
deriving DecidableEq, Repr

/-- An entry of a link's address translation cache (R41, R43). -/
structure AtcEntry where
  pasid : Nat
  page : Nat
  addr : Nat
  read : Bool
  write : Bool
deriving DecidableEq, Repr

/-- A PCIe link and its function (R41 to R45, R60, R70). -/
structure Link where
  up : Bool
  enabled : Bool
  mailbox : Mailbox
  ports : Tbl Port
  remaps : Tbl Remap
  /-- The MSI-X table: address, data and vector control of each vector (R41). -/
  msix : Tbl (Nat × Nat × Nat)
  /-- The pending-bit array. -/
  pba : Nat
  reads : List HostRead
  /-- Writes that the link has not accepted, oldest first (R45). -/
  writes : List HostWrite
  ats : List AtsReq
  atc : List AtcEntry
  /-- Sectors returned to a waiter and not yet consumed: waiter, address, whether poisoned. -/
  returned : List (Waiter × Nat × Bool)
  /-- Invalidations that wait for what used their translations: PASID, address, pages, and the voided pages of host
  memory (R43). -/
  invals : List (Nat × Nat × Nat × List Nat)
  /-- Event packets whose ring waits for a translation, and those behind them: port, slot, PASID prefix, packet (R43,
  R66). -/
  parked : List (Nat × Nat × Option Nat × Packet)
  nextTag : Nat
  /-- Link IDE is established by the host and firmware (R82). -/
  ide : Bool
deriving DecidableEq, Repr

/-- A flit that a Delow port has sent and that is not acknowledged (R51). -/
structure SentFlit where
  seq : Nat
  flit : Flit
  /-- The tick at which it was last sent (R51). -/
  at_ : Nat
  /-- What the flit carries: 0 other, 1 a read, 2 a write, 3 a collective, with the collective's number. -/
  carries : Nat
  op : Nat
deriving DecidableEq, Repr

/-- A Delow port (R49 to R53). -/
structure DPort where
  owner : Option Nat
  up : Bool
  nextSeq : Nat
  /-- Highest sequence received in order; none before the first. -/
  got : Option Nat
  /-- Credits held by channel. -/
  credits : List Nat
  replay : List SentFlit
  waiting : List SentFlit
  replays : Nat
  retraining : Bool
  malformed : Nat
  foreign : Nat
deriving DecidableEq, Repr

/-- A Delow port at reset. -/
def DPort.new : DPort := ⟨none, false, 0, none, [0, 0, 0, 0], [], [], 0, false, 0, 0⟩

/-- A die link's replay counter and spare lanes (R48). -/
structure DieLink where
  replays : Nat
  spares : Nat
deriving DecidableEq, Repr

/-- A collective at one shard (R54 to R59). -/
structure CollOp where
  part : Nat
  core : Nat
  group : Nat
  pc : Nat
  pasid : Nat
  lid : Nat
  job : Nat
  /-- The 64 bytes of the request block as read at issue. -/
  block : List Byte
  tag : Nat
  self : Nat
  /-- The node table and the shard map, once the engine has read them. -/
  nodes : List Byte
  map : List Byte
  /-- Physical address of the completion sett. -/
  done : Nat
  timeoutAt : Nat
  /-- This shard's own contribution, widened element codes; bit 128 says poisoned. -/
  own : List Nat
  /-- The children's partial results that have arrived. -/
  partials : Tbl (List Nat)
  /-- Digests known here: shard and digest; and how many of them have gone to the parent. -/
  digests : List (Nat × Nat)
  passed : Nat
  sent : Bool
  /-- The final result is known and waits for its writes (R56). -/
  result : Option (List Nat)
  /-- Due round in deterministic mode (R315). -/
  due : Nat
  /-- The translation code, page and access with which it is suspended (R235). -/
  suspended : Option (Nat × Nat × Nat)
deriving DecidableEq, Repr

/-- A tensor record as an engine read it (R230). -/
structure Tensor where
  fmt : Nat
  base : Nat
  ndim : Nat
  esz : Nat
  swz : Nat
  sh : Bool
  saxis : Nat
  mcast : Nat
  resid : Nat
  ext : List Nat
  box : List Nat
  org : List Nat
  str : List Nat
deriving DecidableEq, Repr

/-- A bulk copy or a BQST in flight (R233, R298). -/
structure BulkOp where
  part : Nat
  core : Nat
  group : Nat
  team : Nat
  pc : Nat
  pasid : Nat
  lid : Nat
  job : Nat
  /-- 0 g2l, 1 l2g, 2 BQST. -/
  kind : Nat
  tensor : Tensor
  off : Nat
  /-- Physical address of the sett of the issuing team's arrival. -/
  sett : Nat
  /-- The sett's local-store offset for multicast receivers. -/
  settOff : Nat
  /-- The serial numbers of the receiving teams, in increasing rank order (R234). -/
  receivers : List Nat
  size : Nat
  /-- The translation code, page and access with which it is suspended (R235). -/
  suspended : Option (Nat × Nat × Nat)
  due : Nat
deriving DecidableEq, Repr

/-- An entry of a core's range-lock table (R204): bytes [lo, hi) of a space as lockAddr numbers them, as a destination
or a source, and the engine operation that it belongs to. -/
structure RangeLock where
  lo : Nat
  hi : Nat
  dst : Bool
  op : Nat
deriving DecidableEq, Repr

/-- An MMAB on a core, running or queued (R247 to R253). -/
structure MmabOp where
  part : Nat
  core : Nat
  group : Nat
  team : Nat
  pc : Nat
  pasid : Nat
  lid : Nat
  job : Nat
  /-- The 64 bytes of the parameter block as read at issue. -/
  block : List Byte
  /-- The next stage; once its reading has begun, the clocks of work that are left of it (R251, R252). -/
  stage : Nat
  left : Option Nat
  /-- The accumulator tile as element codes, row-major. -/
  acc : List Nat
  pois : List Bool
  /-- The same sums as the checker of R255 forms them. -/
  chk : List Nat
  finished : Bool
  /-- Tiles of the finished product that have been completed (R255). -/
  tile : Nat
  due : Nat
deriving DecidableEq, Repr

/-- A combined translation that a TLB holds (R180). -/
structure TlbEntry where
  /-- The TLB that holds it: a core's L1 by the core's key, a die's, or a core's walk-ahead TLB (Machine/Translate.lean). -/
  home : Nat
  part : Nat
  pasid : Nat
  /-- Virtual page of 64 KiB. -/
  vpage : Nat
  /-- Host-physical frame of the virtual page's data, and its side bytes' base. -/
  frame : Nat
  side : Nat
  fmt : Nat
  mtype : Nat
  rd : Bool
  wr : Bool
  ex : Bool
  sec : Bool
  por : Bool
  range : Nat
  sideRange : Nat
  /-- The range-table generation at which it was formed. -/
  gen : Nat
deriving DecidableEq, Repr

/-- What the part sends out of the package, oldest first: messages, completions and pins (R42, R43, R53, R62, R70). -/
inductive Out where
  /-- An MSI-X message of a link's function: its vector, and the address and data of its table entry (R41). -/
  | msix (link vec addr data : Nat)
  /-- A completion of a host read with its value. -/
  | completion (link value : Nat)
  /-- Unsupported Request. -/
  | unsupported (link : Nat)
  /-- A read request to host memory, with the PASID under which it is issued (R42). -/
  | readReq (link tag : Nat) (pasid : Option Nat) (addr len : Nat)
  /-- A write request to host memory, with its PASID. -/
  | writeReq (link : Nat) (pasid : Option Nat) (addr : Nat) (bytes : List Byte)
  /-- An ATS translation request, or the completion of an invalidation. -/
  | atsReq (link tag pasid page : Nat)
  | atsDone (link pasid va : Nat)
  /-- A flit's 256 bytes sent on a Delow port (R50). -/
  | flit (port : Nat) (bytes : List Byte)
  /-- A digest sent to the twin partition's package (R88). -/
  | digest (part twinPkg twinPart digest : Nat)
  /-- THERMTRIP_N and PWRFAIL_N fall. -/
  | thermtrip
  | pwrfail
deriving DecidableEq, Repr

/-- The issuing path of the instruction in hand: the group, the PC, the lanes of the path, and those of them that
execute (R358). Lane sets are masks with bit i for lane i. -/
structure Issue where
  key : Nat
  pc : Nat
  path : Nat
  lanes : Nat
  /-- A fault that was found before the instruction acts, with its lanes: the instruction's own faults that stand before
  it in R329 are reported in its place (R330). -/
  late : Option (Nat × Nat)
deriving DecidableEq, Repr

/-- An act that is due next. With no act due, a clock begins (Machine/Choose.lean). (DESIGN CHOICE: log entry 4) -/
inductive Turn where
  /-- A step of hardware, firmware, host or another package. -/
  | event (i : Instr)
  /-- A group issues (R152). -/
  | issue (key : Nat)
  /-- The secondary path of the same cycle (R152). -/
  | second (key pc lanes : Nat)
  /-- The end of a deterministic group's turn (R312). -/
  | turnEnd (key : Nat)
  /-- The faults of a group's waits on setts, taken as a clock begins (R223). -/
  | waits (key : Nat)
  /-- The issue slots select their groups (R165, R311). -/
  | select
  /-- The end of a clock: what waits is looked at, and timeouts fall due. -/
  | close
  /-- After the timeouts of a clock: the extension's requests, the engines and the cores' contexts. -/
  | settle
deriving DecidableEq, Repr

/-- Why a step stops with a fault. -/
inductive Fault where
  /-- Raised by a program instruction that no issuing path stands behind: no path was chosen, or its group is gone.
  A step of the machine never meets it. Safe: the spec gives an instruction no effect without lanes. -/
  | noIssuer
  /-- Raised by every step once all clocks have stopped: THERMTRIP_N or PWRFAIL_N has fallen, or the package has
  no power (R34, R40). Safe: the part does nothing then. -/
  | clocksStopped
deriving DecidableEq, Repr

/-- Why a step is refused. -/
inductive Refusal where
  /-- Raised by an arm of exec that has no meaning yet. Safe. -/
  | notModelled (mnemonic : String)
deriving DecidableEq, Repr

/-- The whole package. -/
structure State where
  agenda : List Turn
  cur : Option Issue
  /-- Compute clocks since the start (R30), and the part of a tick that has passed, in 1/2475 of it: a tick is 825 clocks
  at full rate (R30, R35). -/
  clock : Nat
  sub : Nat
  /-- The package timer, 48 bits (R35). -/
  timer : Nat
  power : Power
  fw : Firmware
  links : List Link
  dports : Tbl DPort
  dlinks : List DieLink
  parts : Tbl Part
  /-- Contexts by partition × 2^20 + PASID. -/
  ctxs : Tbl Ctx
  /-- Cores by partition × 256 + virtual core. -/
  cores : Tbl CoreSt
  /-- Groups by core key × 48 + group slot. -/
  groups : Tbl Group
  /-- Evicted groups, with their group keys, in the order of eviction (R336): what a frame does not hold. -/
  saved : List (Nat × Group)
  /-- Teams by serial number. -/
  teams : Tbl Team
  /-- Match engines by quarter. -/
  engines : Tbl Engine
  bulks : Tbl BulkOp
  mmabs : Tbl MmabOp
  colls : Tbl CollOp
  /-- Range-lock tables by core key. -/
  locks : Tbl (List RangeLock)
  /-- Sampled tiles whose check has not been posted: core key and payload (R255). -/
  samples : List (Nat × List Nat)
  tlb : List TlbEntry
  mem : List Host.Cell
  /-- Bases of the poisoned granules, rising (R84, R402). -/
  pois : List Nat
  /-- Corrected errors counted by error class, location (R85). -/
  corrected : Tbl Nat
  out : List Out
  /-- The model's own: serial numbers given to teams, engine operations, tasks and groups. -/
  serial : Nat
  /-- The model's own: the number of free values drawn. -/
  free : Nat
deriving DecidableEq, Repr

/-- A link's function as reset leaves it (R41, R60, R70, R79). (DESIGN CHOICE: log entry 2) -/
def Link.new : Link :=
  ⟨false, true, Mailbox.new, [], [], [], 0, [], [], [], [], [], [], [], 0, false⟩

/-- The die links as a reset leaves them: no replay counted, and on a die boundary a spare for each lane that has failed its
check (R48). -/
def DieLink.boot : List DieLink := (List.range 8).map fun k => ⟨0, if k < 4 then Config.failedLanes k else 0⟩

/-- The clock at full rate with no cause active (R30, R31). (DESIGN CHOICE: log entry 2) -/
def Power.new : Power := ⟨0, none, none, 0, 0, 0, 0, true, [true, true], false, false⟩

/-- The management core with the ROM firmware, no key set, and the package id that firmware assigns (R77, R82, R49). (DESIGN CHOICE: log entry 2) -/
def Firmware.new : Firmware := ⟨true, 0, none, none, [], Config.packageId % 1024, []⟩

/-- The package after the power-on sequence of R39: PERST_N is released on both links, the management core runs the
ROM firmware, no partition exists, no quarter runs anything, and memory lists nothing. Values that the manual does not
give are zero, off or empty. (DESIGN CHOICE: log entry 2) -/
def State.reset : State :=
  { agenda := [], cur := none, clock := 0, sub := 0, timer := 0, power := Power.new, fw := Firmware.new,
    links := [Link.new, Link.new], dports := [], dlinks := DieLink.boot, parts := [], ctxs := [],
    cores := [], groups := [], saved := [], teams := [], engines := [], bulks := [], mmabs := [], colls := [],
    locks := [], samples := [], tlb := [], mem := [], pois := [], corrected := [], out := [], serial := 0,
    free := 0 }

end Sys2Proof.Machine
end

