-- ==== Sys2Proof/Machine/Table.lean ====
section
/-! DEFINITION. Tables with strictly rising keys, and sets of lanes as 32-bit masks. -/

namespace Sys2Proof

/-- The entry of a key. -/
def tget? {α : Type} (k : Nat) : Tbl α → Option α
  | [] => none
  | (j, a) :: t => if j = k then some a else tget? k t

/-- The entry of a key, or a default. -/
def tget {α : Type} (t : Tbl α) (k : Nat) (d : α) : α := (tget? k t).getD d

/-- The table with an entry for the key. -/
def tset {α : Type} (k : Nat) (a : α) : Tbl α → Tbl α
  | [] => [(k, a)]
  | (j, b) :: t =>
    if j < k then (j, b) :: tset k a t
    else if j = k then (k, a) :: t
    else (k, a) :: (j, b) :: t

/-- The table without the key. -/
def terase {α : Type} (k : Nat) : Tbl α → Tbl α
  | [] => []
  | (j, b) :: t => if j = k then terase k t else (j, b) :: terase k t

/-- An entry changed, where there is one. -/
def tmod {α : Type} (k : Nat) (f : α → α) : Tbl α → Tbl α
  | [] => []
  | (j, b) :: t => if j = k then (j, f b) :: t else (j, b) :: tmod k f t

/-- Whether the key has an entry. -/
def thas {α : Type} (k : Nat) (t : Tbl α) : Bool := (tget? k t).isSome

/-- An entry, or the table without one where the entry equals the default: equal contents are equal tables. -/
def tput {α : Type} [DecidableEq α] (d : α) (k : Nat) (a : α) (t : Tbl α) : Tbl α :=
  if a = d then terase k t else tset k a t

/-- The keys. -/
def tkeys {α : Type} (t : Tbl α) : List Nat := t.map (·.1)

/-- The numbers from 0 to 31. -/
def laneIds : List Nat := List.range 32

/-- The lanes of a mask, rising. -/
def lanesOf (m : Nat) : List Nat := laneIds.filter (bit m ·)

/-- The mask of the lanes that satisfy a test. -/
def maskOf (f : Nat → Bool) : Nat := laneIds.foldl (fun m i => if f i then m + 2 ^ i else m) 0

/-- The mask of a list of lanes. -/
def maskOfList (l : List Nat) : Nat := maskOf (l.contains ·)

/-- The number of lanes in a mask. -/
def maskCount (m : Nat) : Nat := (lanesOf m).length

/-- The lowest lane of a mask; 0 of an empty one. -/
def lowLane (m : Nat) : Nat := (lanesOf m).headD 0

/-- Every lane. -/
def allLanes : Nat := 2 ^ 32 - 1

/-- The mask a without the mask b. -/
def maskDiff (a b : Nat) : Nat := maskOf fun i => bit a i && !bit b i

/-- A list with entry i changed. -/
def lmod {α : Type} (i : Nat) (f : α → α) : List α → List α
  | [] => []
  | a :: l => match i with
    | 0 => f a :: l
    | i + 1 => a :: lmod i f l

/-- A 64-bit value of two words, low first. -/
def pair64 (lo hi : Nat) : Nat := lo % 2 ^ 32 + 2 ^ 32 * (hi % 2 ^ 32)

/-- The low 32 bits. -/
def lo32 (v : Nat) : Nat := v % 2 ^ 32

/-- The bits from 32 to 63. -/
def hi32 (v : Nat) : Nat := v / 2 ^ 32 % 2 ^ 32

end Sys2Proof
end

