-- ==== Sys2Proof/Machine/Mem.lean ====
section
/-! DEFINITION. Physical memory: the bytes and the poison of HBM, die store, host memory and local store, in one address
space of the model's own (R26, R169, R171, R178, R84, R402). -/

namespace Sys2Proof.Machine

/-- Where die store begins: HBM lies below 2^40 (R179). -/
def dieStoreBase : Nat := 2 ^ 44

/-- Byte a of die store of a die (R26). (DESIGN CHOICE: log entry 45) -/
def dieAddr (die a : Nat) : Nat := dieStoreBase + die * 2 ^ 27 + a

/-- Byte a of host memory behind a link (R42). (DESIGN CHOICE: log entry 45) -/
def hostAddr (link a : Nat) : Nat := 2 ^ 60 + link * 2 ^ 56 + a

/-- Where the local stores begin. -/
def localBase : Nat := 2 ^ 64

/-- Byte a of the local store of the team with a serial number. (DESIGN CHOICE: log entry 45) -/
def localAddr (team a : Nat) : Nat := localBase + team * 2 ^ 20 + a

/-- Whether a physical address is in a team's local store. (DESIGN CHOICE: log entry 45) -/
def isLocal (a : Nat) : Bool := decide (localBase ≤ a)

/-- Whether a physical address is in die store. (DESIGN CHOICE: log entry 45) -/
def isDieStore (a : Nat) : Bool := decide (dieStoreBase ≤ a) && decide (a < dieStoreBase + 2 ^ 29)

/-- Whether a physical address is in HBM. (DESIGN CHOICE: log entry 45) -/
def isHbm (a : Nat) : Bool := decide (a < 2 ^ 40)

/-- Whether a physical address is in host memory. (DESIGN CHOICE: log entry 45) -/
def isHost (a : Nat) : Bool := decide (2 ^ 60 ≤ a) && decide (a < localBase)

/-- Whether a physical address is in a spill window (R170). -/
def isSpill (a : Nat) : Bool :=
  isDieStore a && decide (0x0E00000 ≤ (a - dieStoreBase) % 2 ^ 25) && decide ((a - dieStoreBase) % 2 ^ 25 < 0x1A00000)

/-- The bytes that share one poison bit: words of local store and spill windows, lines elsewhere (R402). -/
def granuleSize (a : Nat) : Nat := if isLocal a || isSpill a then 4 else 128

/-- The base of the granule of a byte. -/
def granule (a : Nat) : Nat := a - a % granuleSize a

/-- What a byte that nothing has written reads as. (DESIGN CHOICE: log entry 1) -/
def unwritten : Byte := 0

/-- A byte of memory. (DESIGN CHOICE: log entry 1) -/
def memGet (m : List Host.Cell) (a : Nat) : Byte := tget m a unwritten

/-- A byte of memory written: the canonical form lists no byte equal to what an unlisted address reads as. (DESIGN CHOICE: log entry 1) -/
def memPut (m : List Host.Cell) (a : Nat) (b : Byte) : List Host.Cell := tput unwritten a b m

/-- Keys strictly rising from a bound. -/
def risingFrom {α : Type} : Option Nat → Tbl α → Bool
  | _, [] => true
  | b, (k, _) :: t => (match b with | none => true | some b => decide (b < k)) && risingFrom (some k) t

/-- The canonical form of memory: addresses strictly rising, and no byte equal to what an unlisted address reads as. (DESIGN CHOICE: log entry 1) -/
def memWf (m : List Host.Cell) : Bool := risingFrom none m && m.all fun c => decide (c.2 ≠ unwritten)

/-- n bytes of memory from an address. -/
def memBytes (m : List Host.Cell) (a n : Nat) : List Byte := (List.range n).map fun k => memGet m (a + k)

/-- Bytes written from an address upward. -/
def memPutBytes (m : List Host.Cell) (a : Nat) : List Byte → List Host.Cell
  | [] => m
  | b :: bs => memPutBytes (memPut m a b) (a + 1) bs

/-- Memory without the bytes from lo to below hi: they read as unwritten. -/
def memClear (m : List Host.Cell) (lo hi : Nat) : List Host.Cell :=
  m.filter fun c => decide (c.1 < lo) || decide (hi ≤ c.1)

/-- A number put into a rising list of numbers. -/
def insertNat (a : Nat) : List Nat → List Nat
  | [] => [a]
  | b :: l => if a < b then a :: b :: l else if a = b then b :: l else b :: insertNat a l

/-- The bases of the granules of n bytes from an address. -/
def granules (a n : Nat) : List Nat := ((List.range n).map fun k => granule (a + k)).eraseDups

/-- One byte of memory. -/
def State.byte (s : State) (a : Nat) : Byte := memGet s.mem a

/-- n bytes as a little-endian number (R4). -/
def State.readNat (s : State) (a n : Nat) : Nat := leNat (memBytes s.mem a n)

/-- One byte written. -/
def State.setByte (s : State) (a : Nat) (b : Byte) : State := { s with mem := memPut s.mem a b }

/-- Bytes written from an address upward; their poison is unchanged. -/
def State.setBytes (s : State) (a : Nat) (bs : List Byte) : State := { s with mem := memPutBytes s.mem a bs }

/-- Whether a granule of n bytes from an address is poisoned (R84). -/
def State.poisonAt (s : State) (a n : Nat) : Bool := (granules a n).any (s.pois.contains ·)

/-- The granule of a byte marked poisoned or clean. -/
def State.setPoison (s : State) (a : Nat) (p : Bool) : State :=
  { s with pois := if p then insertNat (granule a) s.pois else s.pois.filter (· != granule a) }

/-- Bytes stored: poisoned data poison every granule that they touch, and clean data of a whole word clean the word of
local store or spill window (R402, R84). -/
def State.store (s : State) (a : Nat) (bs : List Byte) (p : Bool) : State :=
  let s := s.setBytes a bs
  (granules a bs.length).foldl (fun s g =>
    if p then s.setPoison g true
    else if granuleSize g = 4 && decide (a ≤ g) && decide (g + 4 ≤ a + bs.length) then s.setPoison g false
    else s) s

/-- Memory and poison from lo to below hi cleared: it reads as zero (R82). -/
def State.zeroRange (s : State) (lo hi : Nat) : State :=
  { s with mem := memClear s.mem lo hi, pois := s.pois.filter fun g => decide (g < lo) || decide (hi ≤ g) }

end Sys2Proof.Machine
end

