-- ==== Sys2Proof/Machine/Trap.lean ====
section
/-! DEFINITION. How an instruction may end other than by its own effect (R328 to R330, R188, R164). -/

namespace Sys2Proof.Machine

/-- The kind of an access, in a record's word 0 (R190). -/
inductive Acc where
  | r | w | x | a
deriving DecidableEq, Repr

/-- R, W, X and A as bits [3:0] of the field [23:20]. -/
def Acc.bits : Acc → Nat
  | .r => 8 | .w => 4 | .x => 2 | .a => 1

/-- One gathered fault: its lanes' 64 KiB page, code, accesses as bits, guest-physical address (R189, R190). -/
structure Missed where
  page : Nat
  code : Nat
  acc : Nat
  guest : Nat
  lanes : Nat
deriving DecidableEq, Repr

/-- A fault that ends the task, as its record shows it: code, access bits, lanes, words 6 and 7, and flags of word 10. -/
structure FaultInfo where
  code : Nat
  acc : Nat
  lanes : Nat
  d6 : Nat
  d7 : Nat
  flags : Nat
deriving DecidableEq, Repr

/-- What stops an instruction before it acts. -/
inductive Trap where
  /-- A precise fault or a task fault: the task ends as faulted (R331). -/
  | fault (f : FaultInfo)
  /-- A region abort: gathered faults, and pages in migration (R188, R189). -/
  | abort (ms : List Missed)
  /-- The lanes of the path wait and issue the instruction again. -/
  | stall (w : Wait)
  /-- The whole group waits, and the path issues the instruction again. -/
  | hold (w : Wait)
  /-- The lanes of the path wait for walks of the named virtual pages (R188). -/
  | walk (pages : List Nat)
  /-- The lanes of the path wait for answers of host links: translations (link, PASID, page) and reads of sectors, which
  arrive behind the buffered stores that they are ordered after: lane, and one page or all (R43, R177). -/
  | remote (ats : List (Nat × Nat × Nat)) (reads : List Nat) (behind : List (Nat × Option Nat))
deriving DecidableEq, Repr

/-- A fault without an access or a detail. -/
def Trap.plain (code lanes : Nat) : Trap := .fault ⟨code, 0, lanes, 0, 0, 0⟩

/-- The place of a fault code in the table of R329, after those of R159 (R330). -/
def faultRank (code : Nat) : Nat :=
  match code with
  | 0x14 => 0 | 0x15 | 0x16 => 1 | 0x09 => 22 | 0x0A => 20
  | c => 2 * c + 3

/-- What is taken of a trap and a fault that was found before the instruction acted: a region abort and the walks that may
lead to one come first, then the table of R329 decides (R330). -/
def Trap.first (t : Trap) (late : Option (Nat × Nat)) : Trap :=
  match late with
  | none => t
  | some (code, lanes) =>
    let plain : Trap := .fault ⟨code, 0, lanes, 0, 0, 0⟩
    match t with
    | .abort _ | .walk _ => t
    | .fault f => if faultRank f.code < faultRank code then t else plain
    | .stall _ | .hold _ | .remote .. => plain

/-- A fault whose detail is a 64-bit address or handle. -/
def Trap.at_ (code acc lanes addr : Nat) : Trap := .fault ⟨code, acc, lanes, lo32 addr, hi32 addr, 0⟩

/-- Poison-use of an operand: its field's value and the use (R331, R334, R400). -/
def Trap.poison (lanes field use : Nat) : Trap := .fault ⟨0x23, 0, lanes, field, use, 0⟩

/-- A test that must hold for every lane of a list, else the trap of the lanes that fail it. -/
def requireAll (lanes : List Nat) (ok : Nat → Bool) (t : List Nat → Trap) : Except Trap Unit :=
  match lanes.filter fun i => !ok i with
  | [] => .ok ()
  | bad => .error (t bad)

/-- A test that must hold. -/
def require (ok : Bool) (t : Trap) : Except Trap Unit := if ok then .ok () else .error t

/-- The state of a part, by number; none where no such partition exists. -/
def State.part? (s : State) (p : Nat) : Option Part := tget? p s.parts

/-- The group in a group slot of a core. -/
def State.group? (s : State) (key : Nat) : Option Group := tget? key s.groups

/-- A group put back. -/
def State.setGroup (s : State) (key : Nat) (g : Group) : State := { s with groups := tset key g s.groups }

/-- A group changed, where there is one. -/
def State.modGroup (s : State) (key : Nat) (f : Group → Group) : State := { s with groups := tmod key f s.groups }

/-- A partition changed, where there is one. -/
def State.modPart (s : State) (p : Nat) (f : Part → Part) : State := { s with parts := tmod p f s.parts }

/-- A team changed, where there is one. -/
def State.modTeam (s : State) (t : Nat) (f : Team → Team) : State := { s with teams := tmod t f s.teams }

/-- The core key of a group key. -/
def coreOf (key : Nat) : Nat := key / 48

/-- The group slot of a group key. -/
def slotOf (key : Nat) : Nat := key % 48

/-- The partition of a core key. -/
def partOfCore (ck : Nat) : Nat := ck / 256

/-- The virtual core of a core key. -/
def vcoreOf (ck : Nat) : Nat := ck % 256

/-- The partition of a group key. -/
def partOf (key : Nat) : Nat := partOfCore (coreOf key)

/-- The context key. -/
def ctxKey (part pasid : Nat) : Nat := part * 2 ^ 20 + pasid

/-- The physical quarter of a virtual core (R131). -/
def Part.quarterOf (p : Part) (v : Nat) : Nat := p.quarters.getD (v / 16) 0

/-- The die of a quarter (R26). -/
def dieOf (quarter : Nat) : Nat := quarter / 4

/-- The logical position of a virtual core (R131, R26). -/
def Part.posOf (p : Part) (v : Nat) : Nat × Nat :=
  let q := p.quarterOf v
  (8 * (dieOf q % 2) + v % 8, 8 * (dieOf q / 2) + 2 * (q % 4) + v % 16 / 8)

/-- The quarter of a core. -/
def State.coreQuarter (s : State) (ck : Nat) : Nat :=
  match s.part? (partOfCore ck) with
  | none => 0
  | some p => p.quarterOf (vcoreOf ck)

/-- The index of a core within its quarter (R171). -/
def quarterIndex (ck : Nat) : Nat := vcoreOf ck % 16

/-- The first byte of a slice: quarter q's 32 MiB (R26). -/
def sliceAddr (quarter off : Nat) : Nat := dieAddr (dieOf quarter) (2 ^ 25 * (quarter % 4) + off)

/-- The generic address of a byte of a slice (R168, R74). -/
def sliceGeneric (quarter off : Nat) : Nat := 0xFD * 2 ^ 48 + dieOf quarter * 2 ^ 27 + 2 ^ 25 * (quarter % 4) + off

/-- Byte a of the spill window of a group (R171). -/
def State.spillAddr (s : State) (key a : Nat) : Nat :=
  let ck := coreOf key
  sliceAddr (s.coreQuarter ck) (0x0E00000 + quarterIndex ck * 0xC0000 + slotOf key * 0x4000 + a)

/-- The team of a group. -/
def State.teamOf (s : State) (g : Group) : Option Team :=
  match g.team with
  | none => none
  | some t => tget? t s.teams

/-- The bytes of local store of a group's team; none for a SPAWN task's group (R429). -/
def State.lstoreOf (s : State) (g : Group) : Nat :=
  match s.teamOf g with
  | none => 0
  | some t => t.lstore

/-- The generic address of a byte of the local store of a core (R168). -/
def localGeneric (v a : Nat) : Nat := 0xFE * 2 ^ 48 + v * 2 ^ 20 + a

/-- The location numbers of range locks (R204): local store and die store by physical byte, and paged memory by context
and virtual address. -/
def lockPaged (part pasid va : Nat) : Nat := 2 ^ 100 * (1 + ctxKey part pasid) + va

/-- Energy charged to a context, in hundredths of a picojoule (R37). (DEDUCED: log entry 17) -/
def State.charge (s : State) (part pasid amount : Nat) : State :=
  { s with ctxs := tmod (ctxKey part pasid) (fun c => { c with energy := c.energy + amount }) s.ctxs }

/-- The energy of n bytes at a physical address, in hundredths of a picojoule (R37). (DEDUCED: log entry 17) -/
def memCost (phys n : Nat) : Nat :=
  if isLocal phys then 400 * ((phys % 32 + n + 31) / 32)
  else if isDieStore phys then 150 * n
  else if isHbm phys then 2300 * n
  else 0

/-- Whether n bytes from a overlap a range lock (R204). -/
def RangeLock.meets (l : RangeLock) (a n : Nat) : Bool := decide (a < l.hi) && decide (l.lo < a + n)

/-- Whether the range-lock table of a core forbids an access at a location of a space (R204): any access to a
destination, a store or atomic to a source. -/
def State.locked (s : State) (ck a n : Nat) (store : Bool) : Bool :=
  (tget s.locks ck []).any fun l => l.meets a n && (l.dst || store)

end Sys2Proof.Machine
end

