-- ==== Sys2Proof/Machine/Operands.lean ====
section
/-! DEFINITION. Registers and operand fields: what each operand form reads and writes in a lane (R159, R162, R351,
R352), the walks of stream registers (R413 to R416), and the common runners of the instructions that compute inside
the lanes (R358 to R360, R380, R381). -/

namespace Sys2Proof.Machine

/-- A value with its poison. -/
abbrev Val := Nat × Bool

/-- A value of each lane that executes, in rising lane order. -/
abbrev Vals := Tbl Val

/-- A lane of a group. -/
def Group.lane (g : Group) (i : Nat) : Lane :=
  g.lanes.getD i ⟨false, 0, .none, .nothing, [], 0, false, [], [], [], [], Reg.zero, none, 0, 0⟩

/-- A lane of a group changed. -/
def Group.setLane (g : Group) (i : Nat) (f : Lane → Lane) : Group := { g with lanes := lmod i f g.lanes }

/-- The lanes of a mask changed. -/
def Group.eachLane (g : Group) (m : Nat) (f : Nat → Lane → Lane) : Group :=
  { g with lanes := g.lanes.mapIdx fun i l => if bit m i then f i l else l }

/-- The predicate register that reads T (R281, R141). -/
def PReg.t : PReg := ⟨.T, false⟩

/-- A predicate register that reads F. -/
def PReg.f : PReg := ⟨.F, false⟩

/-- Predicate register k of a lane: p0 reads T (R281). -/
def Lane.pred (l : Lane) (k : Nat) : PReg := if k = 0 then PReg.t else tget l.p k PReg.f

/-- A predicate's 2-bit code (R281). -/
def triNum : Tri → Nat
  | .F => 0 | .T => 1 | .U => 2

/-- The value of a 2-bit code: 11 reads as U (R370). -/
def triOfNum (c : Nat) : Tri :=
  match c % 4 with
  | 0 => .F | 1 => .T | _ => .U

/-- Register j of an operand of a lane (R351). -/
def regOf (g : Group) (i : Nat) (o : Opnd) (j : Nat) : Reg :=
  let l := g.lane i
  match o with
  | .x n => tget l.x (n + j) Reg.zero
  | .w n => tget g.w (n + j) Reg.zero
  | .e n => tget l.e (n + j) Reg.zero
  | .c n => tget l.c (n + j) Reg.zero
  | .lat => l.lat
  | _ => Reg.zero

/-- An immediate at the width of a type (R352). -/
def immVal (ty : Ty) (v : Word) : Nat :=
  match ty with
  | .i64 => wrap 64 (intVal true 32 v.toNat)
  | .f64 => Fmt.f64.round (Fmt.f32.value v.toNat) .rne false
  | _ => v.toNat

/-- n registers as one number, the first one lowest, poisoned when one of them is. -/
def joinRegs : List Reg → Val
  | [] => (0, false)
  | r :: rs => (r.bits.toNat + 2 ^ 32 * (joinRegs rs).1, r.pois || (joinRegs rs).2)

/-- An operand of n registers of a lane, at a type for an immediate; no stream register. -/
def readOp (g : Group) (i : Nat) (ty : Ty) (n : Nat) (o : Opnd) : Val :=
  match o with
  | .imm v => (immVal ty v, false)
  | .p k => (triNum ((g.lane i).pred k).v, ((g.lane i).pred k).pois)
  | o => joinRegs ((List.range n).map (regOf g i o))

/-- A 32-bit operand of a lane. -/
def read32 (g : Group) (i : Nat) (o : Opnd) : Val := readOp g i .n32 1 o

/-- A 64-bit operand of a lane. -/
def read64 (g : Group) (i : Nat) (o : Opnd) : Val := readOp g i .n64 2 o

/-- Register j of an operand written in a lane; the other levels are no destinations. -/
def setReg (g : Group) (i : Nat) (o : Opnd) (j : Nat) (r : Reg) : Group :=
  match o with
  | .x n => g.setLane i fun l => { l with x := tput Reg.zero (n + j) r l.x }
  | .w n => { g with w := tput Reg.zero (n + j) r g.w }
  | .e n => g.setLane i fun l => { l with e := tput Reg.zero (n + j) r l.e }
  | .c n => g.setLane i fun l => { l with c := tput Reg.zero (n + j) r l.c }
  | .lat => g.setLane i fun l => { l with lat := r }
  | _ => g

/-- n registers of a destination written from a value. -/
def writeOp (g : Group) (i : Nat) (o : Opnd) (n : Nat) (v : Val) : Group :=
  (List.range n).foldl (fun g j => setReg g i o j ⟨BitVec.ofNat 32 (v.1 / 2 ^ (32 * j)), v.2⟩) g

/-- A predicate register of a lane written; p0 is never written (R281). -/
def writePred (g : Group) (i : Nat) (o : Opnd) (v : Tri) (p : Bool) : Group :=
  match o with
  | .p 0 => g
  | .p k => g.setLane i fun l => { l with p := tput PReg.f k ⟨v, p⟩ l.p }
  | _ => g

/-- The latch of a lane written with the lowest register of a result (R162). -/
def writeLat (g : Group) (i : Nat) (v : Val) : Group :=
  g.setLane i fun l => { l with lat := ⟨BitVec.ofNat 32 v.1, v.2⟩ }

/-! Stream registers. -/

/-- A stream register of a group. -/
def Group.sreg (g : Group) (k : Nat) : SReg := g.sregs.getD k SReg.free

/-- The number of elements of a walk (R415). -/
def SReg.count (r : SReg) : Nat := max 1 r.n0 * max 1 r.n1 * max 1 r.n2

/-- The coordinates of element e (R415). -/
def SReg.coord (r : SReg) (e : Nat) : Nat × Nat × Nat :=
  let c0 := max 1 r.n0
  let c1 := max 1 r.n1
  (e % c0, e / c0 % c1, e / (c0 * c1))

/-- The local-store offset of element e, modulo 2^32 (R415). -/
def SReg.elem (r : SReg) (e : Nat) : Nat :=
  let k := r.coord e
  wrap 32 ((r.base : Int) + k.1 * r.st0 + k.2.1 * r.st1 + k.2.2 * r.st2)

/-- A stream register after the lanes of a mask have taken their elements: the position and the end flags (R415). -/
def SReg.advance (r : SReg) (m : Nat) : SReg :=
  let n := r.count
  let ls := lanesOf m
  let flag (f : Nat × Nat × Nat → Bool) (old : Nat) : Nat :=
    maskOf fun i => if bit m i then f (r.coord ((r.pos + (ls.idxOf i)) % n)) else bit old i
  let c0 := max 1 r.n0 - 1
  let c1 := max 1 r.n1 - 1
  let c2 := max 1 r.n2 - 1
  { r with
    pos := (r.pos + ls.length) % n
    f0 := flag (fun k => k.1 == c0) r.f0
    f1 := flag (fun k => k.1 == c0 && k.2.1 == c1) r.f1
    f2 := flag (fun k => k.1 == c0 && k.2.1 == c1 && k.2.2 == c2) r.f2 }

/-- The elements that the lanes of a mask take, with their local-store offsets; window-bound or range-lock violation
where an address is refused (R415). -/
def walkAddrs (s : State) (key : Nat) (g : Group) (m k : Nat) (store : Bool) : Except Trap (List (Nat × Nat)) := do
  let r := g.sreg k
  let ls := lanesOf m
  let acc := if store then Acc.w.bits else Acc.r.bits
  let team := g.team.getD 0
  let size := 2 ^ r.esz
  let at_ := fun (i : Nat) => r.elem ((r.pos + ls.idxOf i) % r.count)
  let gen := fun (i : Nat) => localGeneric (vcoreOf (coreOf key)) (at_ i)
  requireAll ls (fun i => r.bound && g.team.isSome && decide (at_ i + size ≤ s.lstoreOf g))
    (fun bad => .at_ 0x09 acc (maskOfList bad) (gen (bad.headD 0)))
  requireAll ls (fun i => !s.locked (coreOf key) (localAddr team (at_ i)) size store)
    (fun bad => .at_ 0x0D acc (maskOfList bad) (gen (bad.headD 0)))
  return ls.map fun i => (i, localAddr team (at_ i))

/-- A stream register read by the lanes of a mask: their values, and the group with the position advanced (R415). -/
def readStream (s : State) (key : Nat) (g : Group) (m k : Nat) : Except Trap (Vals × Group) := do
  let r := g.sreg k
  let at_ ← walkAddrs s key g m k false
  let size := 2 ^ r.esz
  let vals := at_.map fun (i, a) =>
    let v := s.readNat a size
    (i, ((if r.sgn then wrap 32 (intVal true (8 * size) v) else v), s.poisonAt a size))
  return (vals, { g with sregs := lmod k (·.advance m) g.sregs })

/-- A source operand read by the lanes of a mask, in the order of R359. -/
def fetch (s : State) (key : Nat) (g : Group) (m : Nat) (ty : Ty) (n : Nat) (o : Opnd) : Except Trap (Vals × Group) :=
  match o with
  | .s k => readStream s key g m k
  | o => .ok ((lanesOf m).map fun i => (i, readOp g i ty n o), g)

/-- Results of the lanes written to a destination, a stream register among them (R358, R415). (DEDUCED: log entry 53) -/
def deliver (s : State) (key : Nat) (g : Group) (m n : Nat) (o : Opnd) (vals : Vals) : Except Trap (State × Group) :=
  match o with
  | .s k => do
    let r := g.sreg k
    let at_ ← walkAddrs s key g m k true
    let s := at_.foldl (fun s (i, a) =>
      let v := tget vals i (0, false)
      s.store a (leBytes (2 ^ r.esz) v.1) v.2) s
    return (s, { g with sregs := lmod k (·.advance m) g.sregs, touched := true, progress := true })
  | o => .ok (s, vals.foldl (fun g (i, v) => writeOp g i o n v) g)

/-- An instruction as a meaning gives it: from the issuing path and the state before it to the state after it. -/
abbrev Act := Issue → Group → State → Except Trap State

/-- Lanes' results written to D and to the latch (R162). -/
def finish (iss : Issue) (s : State) (g : Group) (n : Nat) (d : Opnd) (vals : Vals) : Except Trap State := do
  let (s, g) ← deliver s iss.key g iss.lanes n d vals
  let g := vals.foldl (fun g (i, v) => writeLat g i v) g
  return s.setGroup iss.key g

/-- A computation of one operand (R358, R360, R381). -/
def alu1 (d : Opnd) (nd : Nat) (ta : Ty) (na : Nat) (a : Opnd) (f : Nat → Nat) : Act := fun iss g s => do
  let (va, g) ← fetch s iss.key g iss.lanes ta na a
  finish iss s g nd d (va.map fun (i, x) => (i, (f x.1, x.2)))

/-- A computation of two operands. -/
def alu2 (d : Opnd) (nd : Nat) (ta : Ty) (na : Nat) (a : Opnd) (tb : Ty) (nb : Nat) (b : Opnd)
    (f : Nat → Nat → Nat) : Act := fun iss g s => do
  let (va, g) ← fetch s iss.key g iss.lanes ta na a
  let (vb, g) ← fetch s iss.key g iss.lanes tb nb b
  finish iss s g nd d (va.map fun (i, x) =>
    let y := tget vb i (0, false)
    (i, (f x.1 y.1, x.2 || y.2)))

/-- A computation of three operands. -/
def alu3 (d : Opnd) (nd : Nat) (ta : Ty) (na : Nat) (a : Opnd) (tb : Ty) (nb : Nat) (b : Opnd) (tc : Ty) (nc : Nat)
    (c : Opnd) (f : Nat → Nat → Nat → Nat) : Act := fun iss g s => do
  let (va, g) ← fetch s iss.key g iss.lanes ta na a
  let (vb, g) ← fetch s iss.key g iss.lanes tb nb b
  let (vc, g) ← fetch s iss.key g iss.lanes tc nc c
  finish iss s g nd d (va.map fun (i, x) =>
    let y := tget vb i (0, false)
    let z := tget vc i (0, false)
    (i, (f x.1 y.1 z.1, x.2 || y.2 || z.2)))

/-- Lanes' predicates written to pD, and their codes to the latch (R162, R360). -/
def finishPred (iss : Issue) (s : State) (g : Group) (pd : Opnd) (vals : Tbl (Tri × Bool)) : State :=
  s.setGroup iss.key (vals.foldl (fun g (i, v) => writeLat (writePred g i pd v.1 v.2) i (triNum v.1, v.2)) g)

/-- A predicate of one operand. -/
def test1 (pd : Opnd) (ta : Ty) (na : Nat) (a : Opnd) (f : Nat → Tri) : Act := fun iss g s => do
  let (va, g) ← fetch s iss.key g iss.lanes ta na a
  return finishPred iss s g pd (va.map fun (i, x) => (i, (f x.1, x.2)))

/-- A predicate of two operands. -/
def test2 (pd : Opnd) (ta : Ty) (na : Nat) (a : Opnd) (tb : Ty) (nb : Nat) (b : Opnd) (f : Nat → Nat → Tri) : Act :=
  fun iss g s => do
  let (va, g) ← fetch s iss.key g iss.lanes ta na a
  let (vb, g) ← fetch s iss.key g iss.lanes tb nb b
  return finishPred iss s g pd (va.map fun (i, x) =>
    let y := tget vb i (0, false)
    (i, (f x.1 y.1, x.2 || y.2)))

/-! The register fields of an instruction, for the checks of R159 and the scoreboard of R163 and R164. -/

/-- The field codes of the n registers of an operand; predicates are one register. -/
def opRegs (n : Nat) (o : Opnd) : List Nat :=
  match o with
  | .x k => (List.range n).map (k + ·)
  | .w k => (List.range n).map (0x100 + k + ·)
  | .p k => [0x280 + k]
  | .e k => [0x288 + k]
  | .c k => [0x400 + k]
  | .lat => [0x800]
  | _ => []

end Sys2Proof.Machine
end

