-- ==== Sys2Proof/Machine/Cipher.lean ====
section
/-! DEFINITION. AES-256-XTS on one 32-byte sector (R44) and SHA-256 (R58, R77, R83, R88, R120). The manual names the
two algorithms; their definitions are those of FIPS 197, IEEE 1619 and FIPS 180-4 (PRESUMED; log entry 5). -/

namespace Sys2Proof.Machine

/-- Twice a in the field of 256 elements. -/
def gfDouble (a : Nat) : Nat := if 128 ≤ a then (2 * a % 256) ^^^ 0x1B else 2 * a

/-- acc + a × b over the low n bits of b. -/
def gfMulFrom : Nat → Nat → Nat → Nat → Nat
  | 0, _, _, acc => acc
  | n + 1, a, b, acc => gfMulFrom n (gfDouble a) (b / 2) (if b % 2 = 1 then acc ^^^ a else acc)

/-- The product in the field. -/
def gfMul (a b : Nat) : Nat := gfMulFrom 8 a b 0

/-- The inverse, and 0 of 0: the power 254. -/
def gfInv (a : Nat) : Nat :=
  let a2 := gfMul a a
  let a3 := gfMul a2 a
  let a6 := gfMul a3 a3
  let a12 := gfMul a6 a6
  let a15 := gfMul a12 a3
  let a30 := gfMul a15 a15
  let a60 := gfMul a30 a30
  let a120 := gfMul a60 a60
  let a126 := gfMul a120 a6
  let a127 := gfMul a126 a
  gfMul a127 a127

/-- A byte rotated left. -/
def rotl8 (a k : Nat) : Nat := (a * 2 ^ k % 256) + a / 2 ^ (8 - k)

/-- The S-box. -/
def aesSub (a : Nat) : Nat :=
  let b := gfInv a
  b ^^^ rotl8 b 1 ^^^ rotl8 b 2 ^^^ rotl8 b 3 ^^^ rotl8 b 4 ^^^ 0x63

/-- The inverse S-box. -/
def aesUnsub (a : Nat) : Nat := gfInv (rotl8 a 1 ^^^ rotl8 a 3 ^^^ rotl8 a 6 ^^^ 0x05)

/-- Byte-wise exclusive or. -/
def xorBytes (a b : List Nat) : List Nat := List.zipWith (· ^^^ ·) a b

/-- The key schedule's words from word i, n of them, onto the words so far, latest first. -/
def aesExpand : Nat → Nat → Nat → List (List Nat) → List (List Nat)
  | 0, _, _, ws => ws
  | n + 1, i, rcon, ws =>
    let prev := ws.headD []
    let back := ws.getD 7 []
    let t :=
      if i % 8 = 0 then
        match (prev.drop 1 ++ prev.take 1).map aesSub with
        | b :: bs => (b ^^^ rcon) :: bs
        | [] => []
      else if i % 8 = 4 then prev.map aesSub
      else prev
    aesExpand n (i + 1) (if i % 8 = 0 then gfDouble rcon else rcon) (xorBytes t back :: ws)

/-- A list cut into pieces of k. -/
def chunks {α : Type} (k : Nat) : Nat → List α → List (List α)
  | 0, _ => []
  | n + 1, l => l.take k :: chunks k n (l.drop k)

/-- The 15 round keys of a 32-byte key. -/
def aesKeys (key : List Nat) : List (List Nat) :=
  let ws := (aesExpand 52 8 1 (chunks 4 8 key).reverse).reverse
  (chunks 4 15 ws).map List.flatten

/-- ShiftRows: byte 4c + r comes from column c + r; the inverse takes it from column c - r. -/
def aesRows (inv : Bool) (b : List Nat) : List Nat :=
  (List.range 16).map fun k =>
    let r := k % 4
    let c := k / 4
    b.getD (4 * ((if inv then c + 4 - r else c + r) % 4) + r) 0

/-- MixColumns with a column's coefficients. -/
def aesMix (m0 m1 m2 m3 : Nat) (b : List Nat) : List Nat :=
  (List.range 16).map fun k =>
    let c := 4 * (k / 4)
    let at_ := fun j => b.getD (c + (k + j) % 4) 0
    gfMul m0 (at_ 0) ^^^ gfMul m1 (at_ 1) ^^^ gfMul m2 (at_ 2) ^^^ gfMul m3 (at_ 3)

/-- One block of 16 bytes encrypted under the round keys. (PRESUMED: log entry 5) -/
def aesEnc (keys : List (List Nat)) (b : List Nat) : List Nat :=
  match keys with
  | [] => b
  | k0 :: ks =>
    let mid := ks.dropLast.foldl (fun b k => xorBytes (aesMix 2 3 1 1 (aesRows false (b.map aesSub))) k) (xorBytes b k0)
    xorBytes (aesRows false (mid.map aesSub)) (ks.getLastD [])

/-- One block decrypted. (PRESUMED: log entry 5) -/
def aesDec (keys : List (List Nat)) (b : List Nat) : List Nat :=
  match keys.reverse with
  | [] => b
  | k0 :: ks =>
    let mid := ks.dropLast.foldl (fun b k => aesMix 14 11 13 9 (xorBytes ((aesRows true b).map aesUnsub) k)) (xorBytes b k0)
    xorBytes ((aesRows true mid).map aesUnsub) (ks.getLastD [])

/-- The 32-byte key of eight words (R81). -/
def keyBytes (ws : List Word) : List Nat := ws.flatMap fun w => (leBytes 4 w.toNat).map (·.toNat)

/-- A 128-bit little-endian number as bytes. -/
def bytes16 (v : Nat) : List Nat := (leBytes 16 v).map (·.toNat)

/-- The next tweak: times x in the field of 2^128 elements. -/
def xtsNext (t : List Nat) : List Nat :=
  let v := leNat (t.map (BitVec.ofNat 8))
  bytes16 (if 2 ^ 127 ≤ v then (2 * v % 2 ^ 128) ^^^ 0x87 else 2 * v)

/-- A sector of 32 bytes as one data unit: data key, tweak key, and the sector's host-physical address (R44). (PRESUMED: log entry 5) -/
def xtsSector (dec : Bool) (key : List Word) (addr : Nat) (sector : List Byte) : List Byte :=
  let dk := aesKeys (keyBytes (key.take 8))
  let t0 := aesEnc (aesKeys (keyBytes (key.drop 8))) (bytes16 addr)
  let t1 := xtsNext t0
  let f := fun t b => xorBytes (if dec then aesDec dk (xorBytes b t) else aesEnc dk (xorBytes b t)) t
  let bs := sector.map (·.toNat)
  (f t0 (bs.take 16) ++ f t1 (bs.drop 16)).map (BitVec.ofNat 8)

/-! SHA-256. -/

/-- The integer k-th root found bit by bit. -/
def rootFrom (k : Nat) : Nat → Nat → Nat → Nat
  | 0, n, r => if (r + 1) ^ k ≤ n then r + 1 else r
  | b + 1, n, r =>
    let t := r + 2 ^ (b + 1)
    rootFrom k b n (if t ^ k ≤ n then t else r)

/-- The first primes up to a bound. -/
def primesTo (n : Nat) : List Nat :=
  (List.range (n + 1)).filter fun p => decide (2 ≤ p) && (List.range p).all fun d => decide (d < 2) || p % d != 0

/-- The first 32 bits of the fractions of the roots of the first primes. -/
def rootBits (k count : Nat) : List Word :=
  ((primesTo 311).take count).map fun p => BitVec.ofNat 32 (rootFrom k 40 (p * 2 ^ (32 * k)) 0)

/-- Message-schedule words added, latest first. -/
def shaExpand : Nat → List Word → List Word
  | 0, ws => ws
  | n + 1, ws =>
    let at_ := fun k => ws.getD (k - 1) 0
    let s0 := (at_ 15).rotateRight 7 ^^^ (at_ 15).rotateRight 18 ^^^ (at_ 15) >>> 3
    let s1 := (at_ 2).rotateRight 17 ^^^ (at_ 2).rotateRight 19 ^^^ (at_ 2) >>> 10
    shaExpand n ((at_ 16 + s0 + at_ 7 + s1) :: ws)

/-- One round on the eight working words. -/
def shaRound (v : List Word) (kw : Word) : List Word :=
  match v with
  | [a, b, c, d, e, f, g, h] =>
    let s1 := e.rotateRight 6 ^^^ e.rotateRight 11 ^^^ e.rotateRight 25
    let ch := (e &&& f) ^^^ (~~~e &&& g)
    let t1 := h + s1 + ch + kw
    let s0 := a.rotateRight 2 ^^^ a.rotateRight 13 ^^^ a.rotateRight 22
    let maj := (a &&& b) ^^^ (a &&& c) ^^^ (b &&& c)
    [t1 + (s0 + maj), a, b, c, d + t1, e, f, g]
  | v => v

/-- One block of 64 bytes. -/
def shaBlock (ks : List Word) (h : List Word) (block : List Byte) : List Word :=
  let ws := (chunks 4 16 block).map fun c => BitVec.ofNat 32 (leNat c.reverse)
  let sched := (shaExpand 48 ws.reverse).reverse
  List.zipWith (· + ·) h ((List.zipWith (· + ·) ks sched).foldl shaRound h)

/-- A message padded to whole blocks. -/
def shaPad (m : List Byte) : List Byte :=
  m ++ [0x80] ++ List.replicate ((119 - m.length % 64) % 64) 0 ++ (leBytes 8 (8 * m.length)).reverse

/-- SHA-256 as eight words, most significant first. (PRESUMED: log entry 5) -/
def sha256 (m : List Byte) : List Word :=
  let p := shaPad m
  (chunks 64 (p.length / 64) p).foldl (shaBlock (rootBits 3 64)) (rootBits 2 8)

/-- SHA-256 as 32 bytes. -/
def sha256Bytes (m : List Byte) : List Byte := (sha256 m).flatMap fun w => (leBytes 4 w.toNat).reverse

end Sys2Proof.Machine
end

