-- ==== Sys2Proof/Machine/Translate.lean ====
section
/-! DEFINITION. Two-stage translation, its buffers, and the bytes behind a generic address (R168 to R183, R43, R44,
R76). -/

namespace Sys2Proof.Machine

/-- Why a page does not translate: a walk, an ATS answer or a sector of a table in host memory is due, or a fault of R188
with its guest address. -/
inductive XErr where
  | miss (page : Nat)
  | ats (link pasid page : Nat)
  | host (sector : Nat)
  | flt (code guest : Nat)
deriving DecidableEq, Repr

/-- Where a byte lies: its physical address, the key id that covers it (0 is plaintext), the virtual page of 64 KiB and
the range entry of its translation, and whether it is untranslated (R44, R182). -/
structure Place where
  phys : Nat
  key : Nat
  vpage : Option Nat
  range : Option Nat
deriving DecidableEq, Repr

/-- The data key and tweak key of a key id (R82). -/
def State.keyOf (s : State) (id : Nat) : List Word := (tget s.fw.keys id (0, [])).2

/-- The address that a sector's tweak takes: the host-physical address (R44, R179). (PRESUMED: log entry 5) -/
def tweakOf (phys : Nat) : Nat := if isHost phys then phys % 2 ^ 56 else phys

/-- The 32 bytes of the sector of a byte, decrypted under a key. -/
def State.plainSector (s : State) (key phys : Nat) : List Byte :=
  let b := phys - phys % 32
  xtsSector true (s.keyOf key) (tweakOf b) (memBytes s.mem b 32)

/-- A byte as a request under the key reads it (R44). (PRESUMED: log entry 5) -/
def State.readKeyed (s : State) (key phys : Nat) : Byte :=
  if key = 0 then s.byte phys else (s.plainSector key phys).getD (phys % 32) 0

/-- A byte written under a key: its sector is encrypted whole. (PRESUMED: log entry 5) -/
def State.writeKeyed (s : State) (key phys : Nat) (b : Byte) : State :=
  if key = 0 then s.setByte phys b
  else
    let base := phys - phys % 32
    s.setBytes base (xtsSector false (s.keyOf key) (tweakOf base) ((s.plainSector key phys).set (phys % 32) b))

/-- The valid range entry of a guest-physical address (R179). -/
def Part.rangeAt (p : Part) (g : Nat) : Option (Nat × Range) :=
  let unit := g / 2 ^ 16
  match p.ranges.findIdx? fun r => r.valid && decide (r.gbase ≤ unit) && decide (unit ≤ r.glast) with
  | none => none
  | some k => (p.ranges[k]?).map fun r => (k, r)

/-- The physical address behind a guest-physical address of a range. -/
def Range.phys (r : Range) (g : Nat) : Nat :=
  let a := r.hbase * 2 ^ 16 + (g - r.gbase * 2 ^ 16)
  if r.host then hostAddr (b2n (r.link != 0)) a else a

/-- The link behind which a host address lies. -/
def hostLink (phys : Nat) : Nat := (phys - 2 ^ 60) / 2 ^ 56

/-- The address translation cache's answer for an ATS range (R43). -/
def State.atsOf (s : State) (r : Range) (pasid sent : Nat) (acc : Acc) : Except XErr Nat :=
  let page := sent / 2 ^ 16
  match ((s.links[b2n (r.link != 0)]?).bind fun l => l.atc.find? fun e => e.pasid == pasid && e.page == page) with
  | none => .error (.ats r.link pasid page)
  | some e =>
    let ok := match acc with
      | .r | .x => e.read
      | .w => e.write
      | .a => e.read && e.write
    if ok then .ok (hostAddr (b2n (r.link != 0)) (e.addr + sent % 2 ^ 16)) else .error (.flt 0x01 0)

/-- Whether a sector of host memory has returned to a waiter, and whether poisoned (R43, R45). -/
def State.returnedTo (s : State) (w : Waiter) (sector : Nat) : Option Bool :=
  ((s.links.flatMap (·.returned)).find? fun r => r.1 == w && r.2.1 == sector).map (·.2.2)

/-- A 16-byte table entry at a guest-physical address, as its two halves: guest-unmapped, permission, or a poisoned
line. One in host memory is read from the link, where it is translated by ATS when its range says so (R172, R174, R179,
R43). -/
def State.tableEntry (s : State) (w : Waiter) (pasid : Nat) (p : Part) (secure : Bool) (g : Nat) : Except XErr (Nat × Nat) :=
  match p.rangeAt g with
  | none => .error (.flt 0x05 g)
  | some (_, r) =>
    if !r.gr || (r.sec && !secure) then .error (.flt 0x02 0)
    else do
      let a ← if r.host && r.ats then s.atsOf r pasid (r.phys g % 2 ^ 56) .r else .ok (r.phys g)
      let pois ← if isHost a then
          match s.returnedTo w (a - a % 32) with
          | none => .error (.host (a - a % 32))
          | some q => .ok q
        else .ok (s.poisonAt a 16)
      if pois then .error (.flt 0x06 0)
      else
        let v := leNat ((List.range 16).map fun k => s.readKeyed r.key (a + k))
        return (v % 2 ^ 64, v / 2 ^ 64)

/-- The lowest VA bit that a level indexes, and the number of its index bits (R172). -/
def levelBits (level : Nat) : Nat × Nat :=
  match level with
  | 0 => (48, 8) | 1 => (39, 9) | 2 => (30, 9) | 3 => (21, 9) | _ => (16, 5)

/-- The page size in units of 64 KiB of a leaf at a level (R172). -/
def leafUnits (level : Nat) : Nat := 2 ^ ((levelBits level).1 - 16)

/-- A leaf's size code at a level (R173). -/
def leafSize (level : Nat) : Nat :=
  match level with
  | 2 => 2 | 3 => 1 | _ => 0

/-- A leaf entry checked (R173 to R175): the data frame, side frame and fields, or table-error. -/
def leafBad (level lo hi : Nat) : Bool :=
  let fmt := bits lo 0 6
  let type := bits lo 8 2
  let data := bits lo 16 40
  let side := bits hi 12 44
  decide (level < 2) || bits lo 60 2 != leafSize level || bits lo 56 4 != 0 || bits lo 6 2 != 0 ||
  bits hi 56 8 != 0 || bits hi 0 12 != 0 || data % leafUnits level != 0 || decide (6 ≤ fmt) ||
  (fmt != 0 && type != 0) ||
  (if fmt < 3 then side != 0 else side % leafUnits level != 0)

/-- The address of a leaf or table entry's successor that a walk follows, from a level downward; the last table
entry's level, address and halves (R172 to R174). -/
def State.walkFrom (s : State) (w : Waiter) (pasid : Nat) (p : Part) (secure : Bool) (va : Nat) :
    Nat → Nat → Nat → Except XErr (Nat × Nat × Nat × Nat)
  | 0, _, _ => .error (.flt 0x06 0)
  | fuel + 1, level, table => do
    let (sh, n) := levelBits level
    let at_ := table + 16 * bits va sh n
    let (lo, hi) ← s.tableEntry w pasid p secure at_
    if bit lo 63 = false then .error (.flt 0x01 0)
    else if bit lo 62 || level = 4 then
      if bit lo 62 = false || leafBad level lo hi then .error (.flt 0x06 0)
      else .ok (level, at_, lo, hi)
    else if bits lo 56 6 != 0 || bits lo 0 9 != 0 || hi != 0 || (level < 3 && bits lo 9 4 != 0) then
      .error (.flt 0x06 0)
    else s.walkFrom w pasid p secure va fuel (level + 1) (bits lo 0 56)

/-- The leaf of a virtual page: level, guest-physical address of the entry, and its halves. -/
def State.leafOf (s : State) (w : Waiter) (part : Nat) (p : Part) (secure : Bool) (pasid vpage : Nat) :
    Except XErr (Nat × Nat × Nat × Nat) :=
  match (tget s.ctxs (ctxKey part pasid) Ctx.new).root with
  | none => .error (.flt 0x01 0)
  | some root => s.walkFrom w pasid p secure (vpage * 2 ^ 16) 5 0 root

/-- A walk of both stages to the combined entry of a virtual page (R180). A page in migration has none: code 0x03. The
data bytes of an E2M1 page fill the first half of its frame (R175). -/
def State.walkPage (s : State) (w : Waiter) (home part : Nat) (p : Part) (secure : Bool) (pasid vpage : Nat) :
    Except XErr TlbEntry := do
  let (level, _, lo, hi) ← s.leafOf w part p secure pasid vpage
  let off := vpage % leafUnits level
  let fmt := bits lo 0 6
  let g := if fmt = 4 ∨ fmt = 5 then bits lo 16 40 * 2 ^ 16 + off * 2 ^ 15 else (bits lo 16 40 + off) * 2 ^ 16
  if bit lo 10 then .error (.flt 0x03 0)
  else
    match p.rangeAt g with
    | none => .error (.flt 0x05 g)
    | some (k, r) =>
      let sg := (bits hi 12 44 + off) * 2 ^ 12
      let e : TlbEntry :=
        { home := home, part := part, pasid := pasid, vpage := vpage, frame := r.phys g, side := 0, fmt := fmt,
          mtype := bits lo 8 2, rd := bit lo 15 && r.gr, wr := bit lo 14 && r.gw, ex := bit lo 13 && r.gx,
          sec := bit lo 12 || r.sec, por := bit lo 11, range := k, sideRange := k, gen := p.rangeGen }
      if fmt < 3 then .ok e
      else match p.rangeAt sg with
        | none => .error (.flt 0x05 sg)
        | some (k2, r2) =>
          .ok { e with side := r2.phys sg, sideRange := k2, rd := e.rd && r2.gr, wr := e.wr && r2.gw,
                       sec := e.sec || r2.sec }

/-- The TLB of a die, of a core's bulk copy engine, and of the ring hardware, which has none (R180). (DEDUCED: log entry 44) -/
def dieTlb (die : Nat) : Nat := 2 ^ 40 + die
/-- The walk-ahead TLB of a core's bulk copy engine (R180, R233). (DEDUCED: log entry 44) -/
def aheadTlb (ck : Nat) : Nat := 2 ^ 41 + ck
/-- The hardware that reads and writes rings: it walks each time. (DEDUCED: log entry 44) -/
def noTlb : Nat := 2 ^ 42

/-- The entries that a TLB holds at most: a core's L1 128, a die's 8192, a walk-ahead TLB 512 (R180). (DEDUCED: log entry 44) -/
def tlbSize (home : Nat) : Nat := if home < 2 ^ 40 then 128 else if home < 2 ^ 41 then 8192 else 512

/-- The entry of a page that a TLB holds. (DEDUCED: log entry 44) -/
def State.tlbHit (s : State) (home part pasid vpage : Nat) : Option TlbEntry :=
  s.tlb.find? fun e => e.home == home && e.part == part && e.pasid == pasid && e.vpage == vpage

/-- An entry put into its TLB; the oldest one there goes when it is full (R180). (DEDUCED: log entry 44) -/
def State.tlbInsert (s : State) (e : TlbEntry) : State :=
  let mine := s.tlb.filter fun x => x.home == e.home
  let s := if mine.length < tlbSize e.home then s
    else match mine with
      | [] => s
      | x :: _ => { s with tlb := s.tlb.erase x }
  { s with tlb := s.tlb ++ [e] }

/-- Whether an access of a kind is permitted by a combined entry to a requester's world (R174, R76). -/
def TlbEntry.permits (e : TlbEntry) (secure : Bool) (acc : Acc) : Bool :=
  (!e.sec || secure) &&
  match acc with
  | .r => e.rd
  | .w => e.wr
  | .x => e.ex
  | .a => e.rd && e.wr

/-- A page translated for an access: from the TLB, or by a walk when walks have returned (R180, R188). -/
def State.page (s : State) (w : Waiter) (home part : Nat) (p : Part) (secure walked : Bool) (pasid vpage : Nat) (acc : Acc) :
    Except XErr TlbEntry := do
  let e ← match s.tlbHit home part pasid vpage with
    | some e => Except.ok e
    | none => if walked then s.walkPage w home part p secure pasid vpage else .error (.miss vpage)
  if e.permits secure acc then
    let r := p.ranges.getD e.range Range.none
    if r.host && r.ats then
      let a ← s.atsOf r pasid (e.frame % 2 ^ 56) acc
      return { e with frame := a }
    else return e
  else .error (.flt 0x02 0)

/-- Whether a quarter is of the secure world (R76). (DEDUCED: log entry 44) -/
def State.secureQuarter (s : State) (q : Nat) : Bool := s.fw.secure.contains (0, q)

/-- A byte of a die-store window: outside the partition's quarters window-bound (0x09); outside the program area
permission (0x02), but for what LD, LDD, LDIV and EVLD read of the home quarter's firmware area; the quarter's world
(R169, R170, R76). -/
def State.dieByte (s : State) (p : Part) (secure : Bool) (die off : Nat) (load : Bool) : Except XErr Place :=
  let q := 4 * die + off / 2 ^ 25
  let so := off % 2 ^ 25
  if !p.quarters.contains q then .error (.flt 0x09 0)
  else if s.secureQuarter q && !secure then .error (.flt 0x02 0)
  else if 0x0C00000 ≤ so &&
      !(load && q == p.home && decide (so < 0x0E00000)) then .error (.flt 0x02 0)
  else .ok ⟨dieAddr die off, 0, none, none⟩

/-- A byte of a local-store window, for a group's team (R169, R429): the serial number of the team that holds it. -/
def State.windowByte (s : State) (key : Nat) (g : Group) (v a : Nat) : Except XErr Place :=
  match g.team.bind fun t => tget? t s.teams with
  | none => .error (.flt 0x09 0)
  | some own =>
    let part := partOf key
    let k := match tget? own.grid ((s.part? part).elim [] (·.grids)) with
      | none => 1
      | some gr => max 1 (gr.cw * gr.ch)
    match s.teams.find? fun (_, t) =>
        t.part == part && t.grid == own.grid && t.core == v && t.idx / k == own.idx / k with
    | none => .error (.flt 0x09 0)
    | some (serial, t) =>
      if a < t.lstore then .ok ⟨localAddr serial a, 0, none, none⟩ else .error (.flt 0x09 0)

/-- The place of one byte of a RAW or format page's data, for a page already translated. -/
def TlbEntry.place (e : TlbEntry) (p : Part) (off : Nat) : Place :=
  ⟨e.frame + off, (p.ranges.getD e.range Range.none).key, some e.vpage, some e.range⟩

/-- Whether a generic address is paged (R168). -/
def isPaged (a : Nat) : Bool := decide (a < 0xF0 * 2 ^ 48)

/-- What a group's access to one untranslated generic byte meets (R168, R169): holes are window-bound. -/
def State.flatByte (s : State) (key : Nat) (g : Group) (p : Part) (secure : Bool) (a : Nat) (acc : Acc) :
    Except XErr Place :=
  let low := a % 2 ^ 48
  if a / 2 ^ 48 = 0xFD && low < 2 ^ 29 then s.dieByte p secure (low / 2 ^ 27) (low % 2 ^ 27) (acc == .r)
  else if a / 2 ^ 48 = 0xFE && low < 2 ^ 28 then
    match s.windowByte key g (low / 2 ^ 20) (low % 2 ^ 20) with
    | .ok pl => if s.secureQuarter (p.quarterOf (low / 2 ^ 20)) && !secure then .error (.flt 0x02 0) else .ok pl
    | .error e => .error e
  else .error (.flt 0x09 0)

/-- A byte of any generic address for a group, on a RAW page (R401, R403, R176). -/
def State.anyByte (s : State) (key : Nat) (g : Group) (a : Nat) (acc : Acc) : Except XErr (Place × Option TlbEntry) :=
  match s.part? (partOf key) with
  | none => .error (.flt 0x09 0)
  | some p =>
    let secure := s.secureQuarter (p.quarterOf (vcoreOf (coreOf key)))
    if isPaged a then do
      let e ← s.page (.group key) (coreOf key) (partOf key) p secure g.walked g.pasid (a / 2 ^ 16) acc
      return (e.place p (a % 2 ^ 16), some e)
    else do
      let pl ← s.flatByte key g p secure a acc
      return (pl, none)

/-- Whether a byte read returns poison: its granule, or a page that poisons reads (R84). -/
def State.placePois (s : State) (pl : Place) (e : Option TlbEntry) : Bool :=
  s.poisonAt pl.phys 1 || (match e with | none => false | some e => e.por)

/-- Something sent out of the package. -/
def State.emit (s : State) (o : Out) : State := { s with out := s.out ++ [o] }

/-- Bytes put into memory under a key id. -/
def State.putKeyed (s : State) (key phys : Nat) (bs : List Byte) : State :=
  if key = 0 then s.setBytes phys bs
  else bs.zipIdx.foldl (fun s (b, k) => s.writeKeyed key (phys + k) b) s

/-- A link accepts a write: host memory takes it, and it is one request; under a key id whole sectors of ciphertext are
sent, since a sector is one data unit (R42, R44). -/
def State.sendWrite (s : State) (w : HostWrite) : State :=
  let s := s.putKeyed w.key w.phys w.bytes
  let lo := if w.key = 0 then w.phys else w.phys - w.phys % 32
  let n := if w.key = 0 then w.bytes.length else (w.phys % 32 + w.bytes.length + 31) / 32 * 32
  s.emit (.writeReq (hostLink w.phys) w.pasid (lo % 2 ^ 56) (memBytes s.mem lo n))

/-- A link accepts the oldest n of its waiting writes, in order. -/
def State.sendWrites (s : State) (link n : Nat) : State :=
  match s.links[link]? with
  | none => s
  | some l =>
    (l.writes.take n).foldl State.sendWrite { s with links := s.links.set link { l with writes := l.writes.drop n } }

/-- Every link accepts all its waiting writes: what is sent or acts after them finds them made (R199). (DEDUCED: log entry 40) -/
def State.flushWrites (s : State) : State :=
  (List.range s.links.length).foldl (fun s k => s.sendWrites k ((s.links[k]?).elim 0 (·.writes.length))) s

/-- Bytes of one access written from a place upward, with their poison, under a context's PASID (R42, R84). A write to
host memory waits at its link until that accepts it, and is discarded while the link is down (R45). (DEDUCED: log entries 18 and 40) -/
def State.writeRun (s : State) (who : Option Nat) (key phys : Nat) (bs : List Byte) (p : Bool) : State :=
  if isHost phys then
    { s with links := lmod (hostLink phys) (fun l => if l.up then { l with writes := l.writes ++ [⟨who, key, phys, bs⟩] } else l) s.links }
  else
    let s := s.putKeyed key phys bs
    if p then (granules phys bs.length).foldl (fun s g => s.setPoison g true) s else s

/-- A write that is accepted at once, as those of rings, frames and firmware are. (DEDUCED: log entry 40) -/
def State.writeNow (s : State) (who : Option Nat) (key phys : Nat) (bs : List Byte) (p : Bool) : State :=
  (s.writeRun who key phys bs p).flushWrites

/-- The place k bytes further. -/
def Place.add (pl : Place) (k : Nat) : Place := { pl with phys := pl.phys + k }

/-- n bytes read from a place, as a list. -/
def State.readPlace (s : State) (pl : Place) (n : Nat) : List Byte :=
  (List.range n).map fun k => s.readKeyed pl.key (pl.phys + k)

/-- An answer put into a link's address translation cache of 2048 entries (R41, R43). -/
def Link.cache (l : Link) (e : AtcEntry) : Link :=
  let rest := l.atc.filter fun x => !(x.pasid == e.pasid && x.page == e.page)
  { l with atc := (if rest.length < 2048 then rest else rest.drop 1) ++ [e] }

/-- Whether a link has room for a non-posted request: at most 4096 are outstanding (R41). -/
def Link.room (l : Link) : Bool := decide (l.reads.length + l.ats.length < 4096)

/-- An address translation request sent on a link behind its waiting writes, unless one for the page is outstanding or
the link has no room; a link that is down grants nothing (R43, R45). -/
def State.askAts (s : State) (w : Waiter) (lanes link pasid page : Nat) : State :=
  let s := s.flushWrites
  match s.links[link]? with
  | none => s
  | some l =>
    if l.up = false then { s with links := s.links.set link (l.cache ⟨pasid, page, 0, false, false⟩) }
    else if !l.room || l.ats.any fun q => q.pasid == pasid && q.page == page && q.waiter == w then s
    else
      let q : AtsReq := ⟨l.nextTag, pasid, page, w, lanes⟩
      let s := { s with links := s.links.set link { l with ats := l.ats ++ [q], nextTag := (l.nextTag + 1) % 2 ^ 14 } }
      s.emit (.atsReq link q.tag pasid page)

/-- A read request of a host sector, or of a block of the host's, sent on its link, behind the link's waiting writes and under a context's PASID; while
the link is down the sector returns poisoned (R42, R43, R45). -/
def State.askHost (s : State) (w : Waiter) (who : Option Nat) (key lanes sector : Nat) (len : Nat := 32) : State :=
  let s := s.flushWrites
  let link := hostLink sector
  match s.links[link]? with
  | none => s
  | some l =>
    if l.up = false then { s with links := s.links.set link { l with returned := l.returned ++ [(w, sector, true)] } }
    else if !l.room || l.reads.any fun q => q.addr == sector && q.waiter == w then s
    else
      let q : HostRead := ⟨l.nextTag, sector, len, key, w, lanes⟩
      let s := { s with links := s.links.set link { l with reads := l.reads ++ [q], nextTag := (l.nextTag + 1) % 2 ^ 14 } }
      s.emit (.readReq link q.tag who (sector % 2 ^ 56) len)

/-- What a translation that is not there yet asks for (R43). -/
def State.askFor (s : State) (w : Waiter) (pasid : Nat) (e : XErr) : State :=
  match e with
  | .ats link pa page => s.askAts w 0 link pa page
  | .host sector => s.askHost w (some pasid) 0 0 sector
  | .miss _ | .flt _ _ => s

end Sys2Proof.Machine
end

