-- ==== Sys2Proof/Machine/Stream.lean ====
section
/-! DEFINITION. Streams: bases, watermarks, posts and appends, interrupts, refusals (chapters 04 and 06: R60 to R70,
R89 to R97). -/

namespace Sys2Proof.Machine

/-- The kinds of the system streams (R74). -/
def ctlStream : Nat := 0
/-- The fault stream's number in a partition. -/
def faultStream : Nat := 1
/-- The completion stream's number in a partition. -/
def doneStream : Nat := 2
/-- The telemetry stream's number in a partition. -/
def teleStream : Nat := 3
/-- The error stream's number in a partition. -/
def errStream : Nat := 4

/-- An open stream of a partition (R92). -/
def State.stream? (s : State) (part sid : Nat) : Option Stream := (s.part? part).bind fun p => tget? sid p.streams

/-- A stream put back. -/
def State.setStream (s : State) (part sid : Nat) (st : Stream) : State :=
  s.modPart part fun p => { p with streams := tset sid st p.streams }

/-- The watermark: on a TIMED stream the timer minus 1, and unset while the timer reads 0 (R96). -/
def State.watermark (s : State) (st : Stream) : Option Nat :=
  if st.timed then (if s.timer = 0 then none else some (s.timer - 1)) else st.wm

/-- A watermark raised; a lower value leaves it unchanged (R94). -/
def Stream.raiseWm (st : Stream) (t : Nat) : Stream :=
  { st with wm := some (match st.wm with | none => t | some w => max w t) }

/-- The match engine of a quarter. -/
def State.engine (s : State) (q : Nat) : Engine := tget s.engines q Engine.empty

/-- The first sequence of a stream that an automaton's latest frame has not processed, where it watches the stream
(R93, R122). -/
def Automaton.nextOf (a : Automaton) (sid : Nat) : Option Nat :=
  match a.table.watch.findIdx? (· == sid) with
  | none => none
  | some k => a.frameNext[k]?

/-- The installed automata of a partition: quarter, slot, automaton. -/
def State.automata (s : State) (part : Nat) : List (Nat × Nat × Automaton) :=
  match s.part? part with
  | none => []
  | some p => p.quarters.flatMap fun q => (s.engine q).slots.map fun (k, a) => (q, k, a)

/-- A stream with its base recomputed for the tail t (R93). -/
def State.rebased (s : State) (part sid : Nat) (st : Stream) (t : Nat) : Stream :=
  let floor := t - 2 ^ st.lgret
  let floor := if st.hold then min floor st.released else floor
  let floor := (s.automata part).foldl (fun f (_, _, a) =>
    match a.nextOf sid with
    | none => f
    | some n => min f n) floor
  let base := max st.low floor
  let gone := base - st.low
  { st with
    low := base
    left := if gone = 0 then st.left else (st.times[gone - 1]?).orElse fun _ => st.left
    times := st.times.drop gone }

/-- The base of a stream recomputed with t = tail. -/
def State.rebase (s : State) (part sid : Nat) : State :=
  match s.stream? part sid with
  | none => s
  | some st => s.setStream part sid (s.rebased part sid st st.tail)

/-- The generic address of the entry of an event (R93). -/
def Stream.entry (st : Stream) (q : Nat) : Nat := st.base + 64 * (q % 2 ^ st.lgent)

/-- The 64 bytes of an event (R89). -/
def eventBytes (cls time flags sid seq : Nat) (payload : List Nat) : List Byte :=
  leBytes 6 time ++ leBytes 2 cls ++ leBytes 6 seq ++ leBytes 2 (flags * 2 ^ 12 + sid) ++
  (List.range 12).flatMap fun i => leBytes 4 (payload.getD i 0)

/-- Flag bits of an event: POIS, SYS and DEV as bits 2, 1 and 0 of bits [62:60] (R89). -/
def evFlags (pois sys dev : Bool) : Nat := 4 * b2n pois + 2 * b2n sys + b2n dev

/-- The place of a stream's bytes for its owner's context: by the window of die store, or by both stages of
translation without any TLB (R66). The error is a code of R188 with its guest address, or what has to be asked for first. -/
def State.ringEntry (s : State) (w : Waiter) (part : Nat) (secure : Bool) (pasid a : Nat) (acc : Acc) :
    Except XErr (Place × Option TlbEntry) :=
  match s.part? part with
  | none => .error (.flt 0x09 0)
  | some p =>
    if isPaged a then do
      let e ← s.page w noTlb part p secure true pasid (a / 2 ^ 16) acc
      if e.fmt != 0 then .error (.flt 0x04 0)
      else if 2 ≤ e.mtype then .error (.flt 0x07 0)
      else return (e.place p (a % 2 ^ 16), some e)
    else
      let low := a % 2 ^ 48
      let q := low / 2 ^ 25
      if a / 2 ^ 48 != 0xFD || 2 ^ 29 ≤ low || !p.quarters.contains q then .error (.flt 0x09 0)
      else if s.secureQuarter q && !secure then .error (.flt 0x02 0)
      else .ok (⟨dieAddr (low / 2 ^ 27) (low % 2 ^ 27), 0, none, none⟩, none)

/-- The place alone. -/
def State.ringPlace (s : State) (w : Waiter) (part : Nat) (secure : Bool) (pasid a : Nat) (acc : Acc) : Except XErr Place := do
  let x ← s.ringEntry w part secure pasid a acc
  return x.1

/-- An MSI-X message of a vector with its entry's address and data, behind the writes made before it, unless the vector's
control masks it: then it is pending (R70, R41). -/
def State.sendMsix (s : State) (link vec : Nat) : State :=
  let s := s.flushWrites
  match s.links[link]? with
  | none => s
  | some l =>
    let (addr, data, ctl) := tget l.msix vec (0, 0, 0)
    if ctl % 2 = 1 then { s with links := s.links.set link { l with pba := if bit l.pba vec then l.pba else l.pba + 2 ^ vec } }
    else s.emit (.msix link vec addr data)

/-- A remap entry acts on an admitted event (R70). (DESIGN CHOICE: log entry 54) -/
def State.remapEvent (s : State) (link k : Nat) : State :=
  match s.links[link]? with
  | none => s
  | some l =>
    let e := tget l.remaps k Remap.new
    let put := fun (e : Remap) => { s with links := s.links.set link { l with remaps := tset k e l.remaps } }
    let early := match e.lastSent with
      | none => false
      | some t => decide (s.timer - t < e.mod)
    if e.mask || early then put { e with pend := true }
    else (put { e with lastSent := some s.timer }).sendMsix link e.vec

/-- The remap entries of a link that an event of a stream reaches: named by a slot with IRQ, valid, and admitting the
class; each once (R70). (DESIGN CHOICE: log entry 54) -/
def Link.reached (l : Link) (part sid cls : Nat) : List Nat :=
  let named := l.ports.flatMap fun (_, po) =>
    if po.en && po.part == part then
      po.slots.filterMap fun (_, sl) => if sl.map && sl.irq && sl.stream == sid then some sl.ridx else none
    else []
  named.eraseDups.filter fun k =>
    let e := tget l.remaps k Remap.new
    e.v && (e.cls == 0xFFFF || e.cls == cls)

/-- The interrupts of an appended event on every link (R70). -/
def State.interrupts (s : State) (part sid cls : Nat) : State :=
  (List.range s.links.length).foldl (fun s link =>
    match s.links[link]? with
    | none => s
    | some l => (l.reached part sid cls).foldl (fun s k => s.remapEvent link k) s) s

/-- An event appended at a place already found, under a context's PASID: ring write, tail, last time, base, interrupts (R64,
R89, R93, R70). The write of a program's post or of an automaton's report is charged to its context (R37). -/
def State.append (s : State) (who : Option Nat) (part sid : Nat) (st : Stream) (pl : Place) (cls time flags : Nat) (payload : List Nat)
    (pois : Bool) : State :=
  let bs := eventBytes cls time flags sid st.tail payload
  let s := s.writeNow who pl.key pl.phys bs pois
  let s := if flags % 4 = 0 then s else match who with
    | none => s
    | some pasid => s.charge part pasid (memCost pl.phys 64)
  let st := { st with tail := st.tail + 1, last := some time, times := st.times ++ [time] }
  let s := s.setStream part sid st
  (s.rebase part sid).interrupts part sid cls

/-- Whether class rules admit a post by a host or a program (R90). -/
def classAdmitted (part sid cls : Nat) : Bool :=
  decide (0x100 ≤ cls) || ((cls == 0x0001 || cls == 0x0009) && sid == part * 16 + ctlStream)

/-- A post by a host port or a program (R63, R417): op, time, class, payload. -/
structure Post where
  op : Nat
  time : Nat
  cls : Nat
  payload : List Nat
  dev : Bool
  pois : Bool
  /-- The context of the poster: the ring write is translated in it (R66). -/
  pasid : Nat
  secure : Bool
  /-- Who waits while the ring is being translated (R43). -/
  waiter : Waiter
deriving DecidableEq, Repr

/-- Why a post does not act: it is refused for a reason, or its ring waits for a translation (R43, R65). -/
inductive PostStop where
  | refused (reason : Nat)
  /-- Reason 9 with the code of R188 and the guest-physical address (R65). -/
  | ring (code guest : Nat)
  | waits (e : XErr)
deriving DecidableEq, Repr

/-- The checks and the append of R64 from the test of op onward. Success says whether an event was appended, and its
sequence. -/
def State.post (s : State) (part sid : Nat) (p : Post) : Except PostStop (State × Option Nat) :=
  match s.stream? part sid with
  | none => .error (.refused 8)
  | some st =>
    if p.op = 2 then
      if p.dev && (st.nodev || st.timed) then .error (.refused 8)
      else .ok (if st.timed then s else s.setStream part sid (st.raiseWm p.time), none)
    else
      let low := match st.last with | none => false | some t => decide (p.time < t)
      let below := match s.watermark st with | none => false | some w => decide (p.time < w)
      let closed := match s.watermark st with | none => false | some w => p.time == w
      if low || below then .error (.refused 7)
      else if !classAdmitted part sid p.cls || st.timed || (p.dev && st.nodev) || closed then .error (.refused 8)
      else
        let st := s.rebased part sid st (st.tail + 1)
        if st.tail - st.low = 2 ^ st.lgent then .error (.refused 8)
        else match s.ringPlace p.waiter part p.secure p.pasid (st.entry st.tail) .w with
          | .error (.flt c g) => .error (.ring c g)
          | .error e => .error (.waits e)
          | .ok pl =>
            let payload := if p.cls = 0x0001 && sid == part * 16 + ctlStream then p.payload.set 11 p.pasid else p.payload
            let seq := st.tail
            let s := s.append (some p.pasid) part sid st pl p.cls p.time (evFlags p.pois false p.dev) payload false
            let s := if p.op = 1 then
                match s.stream? part sid with
                | none => s
                | some st => s.setStream part sid (st.raiseWm p.time)
              else s
            .ok (s, some seq)

/-- The home quarter's ring of a system stream (R74). -/
def systemRing (home kind : Nat) : Nat := sliceGeneric home (0x0C00000 + kind * 0x40000)

/-- An event that the part posts on a system stream: its time is the timer, its flags SYS. With a full ring it is
dropped, and the partition's next fault record sets LOST (R66, R331). -/
def State.sysPost (s : State) (part kind cls : Nat) (payload : List Nat) : State :=
  let sid := part * 16 + kind
  match s.part? part, s.stream? part sid with
  | some p, some st =>
    let st := s.rebased part sid st (st.tail + 1)
    if st.tail - st.low = 2 ^ st.lgent then s.modPart part fun p => { p with lost := true }
    else
      let a := systemRing p.home kind + 64 * (st.tail % 2 ^ st.lgent)
      let low := a % 2 ^ 48
      s.append none part sid st ⟨dieAddr (low / 2 ^ 27) (low % 2 ^ 27), 0, none, none⟩ cls s.timer
        (evFlags false true false) payload false
  | _, _ => s

/-- A record of class 0x0008: bit 2 of word 10 is LOST when an earlier record was dropped, and is then cleared (R331). -/
def State.postRecord (s : State) (part : Nat) (payload : List Nat) : State :=
  let lost := (s.part? part).elim false (·.lost)
  let w10 := payload.getD 10 0
  let payload := if lost && !bit w10 2 then payload.set 10 (w10 + 4) else payload
  let tail := (s.stream? part (part * 16 + faultStream)).elim 0 (·.tail)
  let s' := s.sysPost part faultStream 0x0008 payload
  if lost && decide (tail < (s'.stream? part (part * 16 + faultStream)).elim 0 (·.tail)) then
    s'.modPart part fun p => { p with lost := false }
  else s'

/-- Whether a record posted now would be dropped (R331, R190). -/
def State.recordFull (s : State) (part : Nat) : Bool :=
  match s.stream? part (part * 16 + faultStream) with
  | none => true
  | some st =>
    let st := s.rebased part (part * 16 + faultStream) st (st.tail + 1)
    st.tail - st.low == 2 ^ st.lgent

/-- An event on a system stream of every partition. -/
def State.sysPostAll (s : State) (kind cls : Nat) (payload : List Nat) : State :=
  (tkeys s.parts).foldl (fun s p => s.sysPost p kind cls payload) s

/-- Whether n bytes at a place read poisoned; a sector of host memory has to return first (R43, R45, R84). -/
def State.poisonBack (s : State) (w : Waiter) (phys n : Nat) : Except XErr Bool := do
  if isHost phys then
    let sectors := (List.range ((phys % 32 + n + 31) / 32)).map fun k => phys - phys % 32 + 32 * k
    let ps ← sectors.mapM fun a => match s.returnedTo w a with
      | none => .error (.host a)
      | some p => .ok p
    return ps.any id
  else return s.poisonAt phys n

/-- An event read whole: its bytes and whether a line of it is poisoned, in a context (R418). -/
def State.readEvent (s : State) (w : Waiter) (part : Nat) (secure : Bool) (pasid : Nat) (st : Stream) (q : Nat) :
    Except XErr (List Byte × Bool) := do
  let (pl, e) ← s.ringEntry w part secure pasid (st.entry q) .r
  let pois ← s.poisonBack w pl.phys 64
  return (s.readPlace pl 64, pois || e.elim false (·.por))

/-! Ports and refusals. -/

/-- A port of a link. -/
def State.port (s : State) (link port : Nat) : Port := ((s.links[link]?).elim [] (·.ports) |> fun t => tget t port Port.new)

/-- A port put back. -/
def State.setPort (s : State) (link port : Nat) (po : Port) : State :=
  { s with links := lmod link (fun l => { l with ports := tset port po l.ports }) s.links }

/-- A slot of a port. -/
def Port.slot (po : Port) (k : Nat) : Slot := tget po.slots k Slot.new

/-- A slot of a port changed. -/
def State.modSlot (s : State) (link port k : Nat) (f : Slot → Slot) : State :=
  let po := s.port link port
  s.setPort link port { po with slots := tset k (f (po.slot k)) po.slots }

/-- One more, saturating at 32 bits (R62). -/
def satInc (n : Nat) : Nat := min (n + 1) (2 ^ 32 - 1)

/-- The payload of class 0x0015 (R69). -/
def refusalReport (link port count : Nat) (l : Nat × Nat × Nat × Nat) : List Nat :=
  [port, l.1, l.2.1, l.2.2.1, count, link, lo32 l.2.2.2, hi32 l.2.2.2]

/-- A refused packet or read: counted at its slot, and reported under the port's window, but not for reasons 2 and 10
(R65, R69). -/
def State.refuse (s : State) (link port slot reason : Nat) (pasid : Option Nat) (first8 : Nat) : State :=
  let s := s.modSlot link port slot fun sl => { sl with refused := satInc sl.refused }
  let po := s.port link port
  if reason = 2 || reason = 10 || !po.en then s
  else
    let last := (slot, reason, pasid.getD 0xFFFFFFFF, first8)
    match po.window with
    | none =>
      let s := s.sysPost po.part errStream 0x0015 (refusalReport link port 1 last)
      s.setPort link port { (s.port link port) with window := some (s.timer + 4096), pendCount := 0 }
    | some _ => s.setPort link port { po with pendCount := po.pendCount + 1, pendLast := last }

end Sys2Proof.Machine
end

