-- ==== Sys2Proof/Machine/Task.lean ====
section
/-! DEFINITION. Jobs, the extension, barriers and JOIN, and the ends of groups, teams and tasks
(R137 to R141, R155, R160, R228, R288, R331, R323, R377). -/

namespace Sys2Proof.Machine

/-- Whether a partition is deterministic (R303). -/
def State.detOf (s : State) (part : Nat) : Option Det := (s.part? part).bind (·.det)

/-- Whether a partition's acts take effect as they happen, and not at boundaries (R314). -/
def State.normalMode (s : State) (part : Nat) : Bool := (s.detOf part).isNone

/-- The deterministic state of a partition changed, where it has one. -/
def State.modDet (s : State) (part : Nat) (f : Det → Det) : State :=
  s.modPart part fun p => { p with det := p.det.map f }

/-- An event of a fault, refusal or completion stream: at once, or at step 5 of the next boundary in deterministic mode
(R314). The stream's number 1 on the fault stream takes LOST. -/
def State.postDue (s : State) (part uid kind cls : Nat) (payload : List Nat) : State :=
  match s.detOf part with
  | some _ => s.modDet part fun d => { d with posts := d.posts ++ [⟨uid, kind, cls, payload⟩] }
  | none => if cls = 0x0008 then s.postRecord part payload else s.sysPost part kind cls payload

/-- A job's entry. -/
def State.job? (s : State) (part job : Nat) : Option Job := (s.part? part).bind fun p => tget? job p.jobs

/-- A job at its creation (R137). -/
def Job.new : Job := ⟨0, 0, 0, 0, 0, none, none⟩

/-- A job's entry changed, and created where it has none (R137). -/
def State.modJob (s : State) (part job : Nat) (f : Job → Job) : State :=
  s.modPart part fun p => { p with jobs := tset job (f (tget p.jobs job Job.new)) p.jobs }

/-- The ranges of a replica list that holds up to 16 entries (R88): address and length. -/
def replicaRanges (bs : List Byte) : List (Nat × Nat) :=
  ((List.range 16).map fun k => (leNat ((bs.drop (16 * k)).take 8), leNat ((bs.drop (16 * k + 8)).take 8))).filter
    fun r => r.2 != 0

/-- Bytes of a partition's paged memory or die store, for an engine of the partition: those that cannot be read are
left out (R88 gives no outcome for them). (DEDUCED: log entry 43) -/
def State.readRange (s : State) (part : Nat) (secure : Bool) (pasid a n : Nat) : List Byte :=
  (List.range n).filterMap fun k =>
    match s.ringPlace .ring part secure pasid (a + k) .r with
    | .ok pl => some (s.readKeyed pl.key pl.phys)
    | .error _ => none

/-- The two events of a replica mismatch or timeout, and the halt of the partition (R88). -/
def State.replicaHalt (s : State) (part : Nat) (r : Replica) (own twin : List Word) (reason : Nat) : State :=
  let step := r.step
  let s := s.sysPost part errStream 0x0017
    (own.map (·.toNat) ++ [lo32 step, hi32 step, reason, r.twinPkg])
  let s := s.sysPost part errStream 0x0018
    ((if reason = 2 then List.replicate 8 0 else twin.map (·.toNat)) ++ [lo32 step, hi32 step, r.twinPart, 0])
  s.modPart part fun p => { p with halted := true }

/-- A digest as a number: most significant word first. -/
def digestNat (ws : List Word) : Nat := ws.foldl (fun n w => n * 2 ^ 32 + w.toNat) 0

/-- The words of a digest's number. -/
def digestWords (n : Nat) : List Word := (List.range 8).map fun k => BitVec.ofNat 32 (n / 2 ^ (32 * (7 - k)))

/-- The replica's record for its oldest step that waits: that step's number, and the later ones left (R88). -/
def Replica.oldest (r : Replica) : Replica × Replica :=
  ({ r with step := r.step + 1 - r.own.length }, { r with own := r.own.drop 1 })

/-- A step of replica checking: the own digest is sent, and compared when the twin's has arrived (R88). (DESIGN CHOICE: log entry 57) -/
def State.replicaStep (s : State) (part : Nat) (cls : Option Nat) (pasid : Nat) : State :=
  match (s.part? part).bind (·.replica) with
  | none => s
  | some r =>
    if cls != some r.cls then s
    else
      let list := s.readRange part true pasid r.list 256
      let bytes := (replicaRanges list).flatMap fun (a, n) => s.readRange part true pasid a n
      let own := digestNat (sha256 bytes)
      let r := { r with step := r.step + 1 }
      let s := s.emit (.digest part r.twinPkg r.twinPart own)
      match r.early with
      | [] => s.modPart part fun p => { p with replica := some { r with own := r.own ++ [(own, s.timer + r.timeout)] } }
      | twin :: early =>
        let s := s.modPart part fun p => { p with replica := some { r with early := early } }
        if twin = own then s else s.replicaHalt part r (digestWords own) (digestWords twin) 1

/-- A job whose count has reached zero: its completion event, and its entry freed (R138). -/
def State.jobCheck (s : State) (part job : Nat) : State :=
  match s.job? part job with
  | none => s
  | some j =>
    if j.count != 0 then s
    else
      let s := s.modPart part fun p => { p with jobs := terase job p.jobs }
      let s := s.sysPost part doneStream 0x0002 [job, j.ended, j.faulted, j.refused, j.pasid.getD 0]
      s.replicaStep part j.cls (j.pasid.getD 0)

/-- A task of a job has ended (R137). In deterministic mode the change waits for step 5 of the boundary (R314). -/
def State.jobEnd (s : State) (part uid job : Nat) (faulted : Bool) : State :=
  match s.detOf part with
  | some _ => s.modDet part fun d => { d with jobEnds := d.jobEnds ++ [(uid, job, b2n faulted)] }
  | none =>
    let s := s.modJob part job fun j => { j with count := j.count - 1, ended := j.ended + 1, faulted := j.faulted + b2n faulted }
    s.jobCheck part job

/-- A task of a job is made by a program: the count rises before the task leaves the core (R137). -/
def State.jobMore (s : State) (part uid job : Nat) : State :=
  match s.detOf part with
  | some _ => s.modDet part fun d => { d with jobEnds := d.jobEnds ++ [(uid, job, 2)] }
  | none => s.modJob part job fun j => { j with count := j.count + 1 }

/-- A launch of a job is refused: the count falls and refused rises (R137). -/
def State.jobRefused (s : State) (part job : Nat) : State :=
  let s := s.modJob part job fun j => { j with count := j.count - 1, refused := j.refused + 1 }
  s.jobCheck part job

/-- A task of a grid has ended: the grid's entry is freed with its last task (R135). -/
def State.gridEnd (s : State) (part grid : Nat) : State :=
  s.modPart part fun p =>
    match tget? grid p.grids with
    | none => p
    | some g => if g.left ≤ 1 then { p with grids := terase grid p.grids }
                else { p with grids := tset grid { g with left := g.left - 1 } p.grids }

/-- Every group, on a core or evicted, changed. -/
def State.mapGroups (s : State) (f : Nat → Group → Group) : State :=
  { s with groups := s.groups.map fun (k, g) => (k, f k g), saved := s.saved.map fun (k, g) => (k, f k g) }

/-- The groups on cores and the evicted ones. -/
def State.everyGroup (s : State) : List (Nat × Group) := s.groups ++ s.saved

/-- The lanes of a group that have not exited. -/
def Group.live (g : Group) : Nat := maskOf fun i => (g.lane i).live

/-- The lanes of a group that wait in a given way. -/
def Group.waiting (g : Group) (w : Wait) : Nat := maskOf fun i => (g.lane i).live && (g.lane i).wait == w

/-- Lanes that wait in a given way proceed at the instruction after their own; those of an evicted group are noted, since
their frame holds them at the instruction (R337). -/
def Group.release (g : Group) (w : Wait) : Group :=
  { g with
    lanes := g.lanes.map fun l => if l.live && l.wait == w then { l with wait := .none, pc := l.pc + 12 } else l
    pre := match g.pre with
      | .evicted at_ back freed => .evicted at_ back (freed ||| g.waiting w)
      | p => p }

/-! The extension (R159 to R161). -/

/-- The extension's registers leave a group's lanes for the team, or go to them. -/
def extOut (g : Group) : Tbl Reg :=
  ((List.range 32).flatMap fun i => (g.lane i).x.filterMap fun (k, r) =>
    if 64 ≤ k then some (i * 192 + (k - 64), r) else none)

/-- A group's lanes without extension registers. -/
def dropExt (g : Group) : Group :=
  { g with holdsExt := false, lanes := g.lanes.map fun l => { l with x := l.x.filter fun (k, _) => decide (k < 64) } }

/-- A group's lanes with the extension's registers. -/
def takeExt (ext : Tbl Reg) (g : Group) : Group :=
  { g with
    holdsExt := true
    lanes := g.lanes.mapIdx fun i l =>
      { l with x := l.x ++ ext.filterMap fun (k, r) => if k / 192 = i then some (64 + k % 192, r) else none } }

/-- The oldest waiting request is granted, when the extension is free (R160). -/
def State.grantExt (s : State) (serial : Nat) : State :=
  match tget? serial s.teams with
  | none => s
  | some t =>
    match t.extHolder, t.extQueue with
    | none, key :: rest =>
      let s := s.modTeam serial fun t => { t with extHolder := some key, extQueue := rest, ext := [] }
      s.mapGroups fun k g => if k = key && g.team == some serial then (takeExt t.ext g).release .xacq else g
    | _, _ => s

/-- A group gives the extension up, and the oldest request is granted (R160). -/
def State.releaseExt (s : State) (serial key : Nat) : State :=
  match tget? serial s.teams with
  | none => s
  | some t =>
    if t.extHolder = some key then
      let g? := (s.everyGroup.find? fun (k, g) => k == key && g.team == some serial).map (·.2)
      let ext := match g? with | none => [] | some g => extOut g
      let s := s.modTeam serial fun t => { t with extHolder := none, ext := ext }
      let s := s.mapGroups fun k g => if k = key && g.team == some serial then dropExt g else g
      s.grantExt serial
    else s.modTeam serial fun t => { t with extQueue := t.extQueue.filter (· != key), extNew := t.extNew.filter (· != key) }

/-! Barriers. -/

/-- The groups of a TEAM task that have not ended. -/
def State.teamGroups (s : State) (serial : Nat) : List (Nat × Group) :=
  s.everyGroup.filter fun (_, g) => g.team == some serial && g.kind == .team && g.live != 0

/-- Whether a group is halted at BKPT (R333). -/
def Group.atBkpt (g : Group) : Bool :=
  match g.halt with
  | .bkpt .. => true
  | _ => false

/-- Whether a group has arrived at a barrier (R228, R333). -/
def Group.arrived (g : Group) (w : Wait) : Bool := !g.atBkpt && g.waiting w == g.live

/-- A team's barrier completes when every group that has not exited has arrived (R228). -/
def State.barCheck (s : State) (serial : Nat) : State :=
  let gs := s.teamGroups serial
  if !gs.isEmpty && gs.all fun (_, g) => g.arrived .bar then
    s.mapGroups fun _ g => if g.team == some serial && g.kind == .team then g.release .bar else g
  else s

/-- The number of teams in the cluster of a team (R133). -/
def State.clusterSize (s : State) (t : Team) : Nat :=
  match tget? t.grid ((s.part? t.part).elim [] (·.grids)) with
  | none => 1
  | some g => max 1 (g.cw * g.ch)

/-- The running teams of a team's cluster, with their serial numbers (R133). -/
def State.clusterTeams (s : State) (t : Team) : List (Nat × Team) :=
  let k := s.clusterSize t
  s.teams.filter fun (_, u) => u.part == t.part && u.grid == t.grid && u.idx / k == t.idx / k

/-- A cluster's barrier completes when every team of the cluster has arrived; a team whose groups have all exited counts
as arrived (R228). -/
def State.cbarCheck (s : State) (t : Team) : State :=
  let ts := (s.clusterTeams t).map (·.1)
  let gs := ts.flatMap s.teamGroups
  if !gs.isEmpty && gs.all fun (_, g) => g.arrived .cbar then
    s.mapGroups fun _ g =>
      if g.kind == .team && (match g.team with | none => false | some n => ts.contains n) then g.release .cbar else g
  else s

/-- The barriers of a team and its cluster looked at again. In deterministic mode CBAR completes at a boundary (R312,
R314). -/
def State.barriers (s : State) (team : Option Nat) : State :=
  match team with
  | none => s
  | some serial =>
    let s := s.barCheck serial
    match tget? serial s.teams with
    | none => s
    | some t => if (s.detOf t.part).isSome then s else s.cbarCheck t

/-! JOIN (R155, R156). -/

/-- The lanes of an instance leave with a value of the predicate. -/
def Group.joinLeave (g : Group) (j : Join) (v : Tri) : Group :=
  let g := g.eachLane j.lanes fun _ l =>
    if l.live && l.wait == .join then
      { l with wait := .none, pc := j.pc + 12, p := tput PReg.f j.pd ⟨v, false⟩ l.p }
    else l
  { g with joins := g.joins.filter fun k => k.pc != j.pc }

/-- Whether every lane of an instance's mask has arrived or exited (R155). -/
def Group.joinFull (g : Group) (j : Join) : Bool :=
  (lanesOf j.mask).all fun i => bit j.lanes i || !(g.lane i).live

/-- Full instances complete (R155). -/
def Group.joinCheck (g : Group) : Group :=
  g.joins.foldl (fun g j => if g.joinFull j then g.joinLeave j .T else g) g

/-! Engine operations and ends. -/

/-- The range locks of an operation removed from a core's table (R204, R205). -/
def State.unlock (s : State) (ck op : Nat) : State :=
  { s with locks := tput [] ck ((tget s.locks ck []).filter fun l => l.op != op) s.locks }

/-- Lanes of a core's groups that wait for an engine's room may issue again. -/
def State.wakeEngine (s : State) (ck : Nat) : State :=
  s.mapGroups fun k g =>
    if coreOf k = ck then
      { g with lanes := g.lanes.map fun l => if l.wait == .engine then { l with wait := .none } else l }
    else g

/-- A collective is abandoned at this shard: its locks go, and class 0x0013 is posted with the reason (R57). -/
def State.collAbandon (s : State) (op reason : Nat) : State :=
  match tget? op s.colls with
  | none => s
  | some c =>
    let s := { s with colls := terase op s.colls }
    let s := (s.unlock c.core op).wakeEngine c.core
    s.sysPost c.part errStream 0x0013 [c.tag, c.self, reason]

/-- Engine operations that a group issued and that have not arrived are abandoned (R235, R253, R331). The manual gives a
collective so abandoned no reason of R57: the reason is a free value. -/
def State.abandonOps (s : State) (key : Nat) : State :=
  let ck := coreOf key
  let bs := s.bulks.filter fun (_, b) => b.group == key
  let ms := s.mmabs.filter fun (_, m) => m.group == key
  let cs := s.colls.filter fun (_, c) => c.group == key
  let s := { s with bulks := s.bulks.filter fun (_, b) => b.group != key,
                    mmabs := s.mmabs.filter fun (_, m) => m.group != key }
  let s := (bs.map (·.1) ++ ms.map (·.1)).foldl (fun s op => s.unlock ck op) s
  let s := cs.foldl (fun s (op, _) =>
    let s := { s with free := s.free + 1 }
    s.collAbandon op ((Config.freeWord (s.free - 1)).toNat % 2 ^ 32)) s
  s.wakeEngine ck

/-- A waiter no longer waits for any page (R189 to R191). -/
def State.unwait (s : State) (part : Nat) (w : Waiter) : State :=
  s.modPart part fun p =>
    { p with
      windows := p.windows.map fun x => { x with waiters := x.waiters.filter (· != w) }
      pending := p.pending.map fun x => { x with waiters := x.waiters.filter (· != w) }
      retries := p.retries.map fun x => { x with waiters := x.waiters.filter (· != w) } }

/-- The token holder's pass begins when the group holds the token (R320, R323). -/
def State.tokenDrop (s : State) (part uid : Nat) : State :=
  s.modDet part fun d => if d.holder = some uid then { d with passing := true } else d

/-- A group that has exited; its place in the ring goes at the end of the next boundary (R320). -/
def State.ringExit (s : State) (part uid : Nat) : State :=
  s.modDet part fun d => { d with ring := d.ring.map fun m => if m.uid = uid then { m with exited := true } else m }

/-- A team is released once its task has ended and its attached groups too: its local store returns to the core
(R141, R142). -/
def State.teamRelease (s : State) (serial : Nat) : State :=
  match tget? serial s.teams with
  | none => s
  | some t =>
    if t.ended && t.attached = 0 then
      let s := { s with teams := terase serial s.teams }
      let s := s.zeroRange (localAddr serial 0) (localAddr serial (2 ^ 20))
      s.modPart t.part fun p =>
        match tget? t.grid p.grids with
        | none => p
        | some g => { p with grids := tset t.grid { g with running := terase t.idx g.running } p.grids }
    else s

/-- A batch of a pool is freed when its task ends (R288). -/
def State.batchFree (s : State) (serial batch : Nat) : State :=
  s.modTeam serial fun t => if bit t.pbusy batch then { t with pbusy := t.pbusy - 2 ^ batch } else t

/-- A group leaves the part: its slot and registers return to the core, its engine operations are abandoned, it passes
the extension and the token, and no longer waits (R141, R160, R323, R331). -/
def State.removeGroup (s : State) (key : Nat) (g : Group) : State :=
  let part := partOf key
  let s := match g.team with
    | none => s
    | some serial => s.releaseExt serial key
  let s := (s.abandonOps key).unwait part (.group key)
  let s := (s.tokenDrop part g.uid).ringExit part g.uid
  let gone := fun (e : Nat × Group) => e.1 == key && e.2.uid == g.uid
  { s with groups := s.groups.filter (!gone ·), saved := s.saved.filter (!gone ·),
           agenda := s.agenda.filter fun t => match t with
             | .issue k | .second k _ _ => k != key
             | _ => true }

/-- The task that a group belongs to ends, once: its job and grid are counted, and its team released (R137, R141,
R288). The batch of a POOL task is the group's POOL batch, kept in gidx. -/
def State.taskEnd (s : State) (key : Nat) (g : Group) (faulted : Bool) : State :=
  let part := partOf key
  let s := match g.kind, g.team with
    | .team, some serial => s.modTeam serial fun t => { t with ended := true, open_ := 0 }
    | .pool, some serial => (s.batchFree serial g.gidx).modTeam serial fun t => { t with attached := t.attached - 1 }
    | _, _ => s
  let s := match g.team with
    | none => s
    | some serial => s.teamRelease serial
  let s := s.gridEnd part g.grid
  s.jobEnd part g.uid g.job faulted

/-- A group whose lanes have all exited ends; with its team's last group, the TEAM task ends (R377, R137). -/
def State.groupEnd (s : State) (key : Nat) (g : Group) : State :=
  let s := s.removeGroup key g
  match g.kind, g.team with
  | .team, some serial =>
    let left := (tget? serial s.teams).elim 0 (·.open_) - 1
    let s := s.modTeam serial fun t => { t with open_ := left }
    if left = 0 then
      let t? := tget? serial s.teams
      let s := s.taskEnd key g false
      match t? with
      | none => s
      | some t => if (s.detOf t.part).isSome then s else s.cbarCheck t
    else s.barriers (some serial)
  | _, _ => s.taskEnd key g false

/-- The number of a task kind (R140, R331). -/
def kindNum : TaskKind → Nat
  | .spawn => 0 | .team => 1 | .pool => 2

/-- The index of a group's team in its grid. -/
def State.teamIdx (s : State) (g : Group) : Nat := (s.teamOf g).elim 0 (·.idx)

/-- The 12 words of a record that is not gathered (R331). -/
def State.faultWords (s : State) (key : Nat) (g : Group) (f : FaultInfo) (pc : Nat) : List Nat :=
  [f.code * 2 ^ 24 + f.acc * 2 ^ 20 + g.pasid, g.job,
   (if g.kind = .team then s.teamIdx g * 2 ^ 16 else 0) + kindNum g.kind * 2 ^ 14 + slotOf key * 2 ^ 8 + vcoreOf (coreOf key),
   f.lanes, lo32 pc, hi32 pc, f.d6, f.d7, lo32 g.logicalId, hi32 g.logicalId, f.flags, 0]

/-- The groups of the task of a group. -/
def State.taskGroups (s : State) (key : Nat) (g : Group) : List (Nat × Group) :=
  match g.kind, g.team with
  | .team, some serial => s.everyGroup.filter fun (_, h) => h.kind == .team && h.team == some serial
  | _, _ => [(key, g)]

/-- A task ends as faulted: one record, every group of the task removed with its open regions and buffered stores, one
count of the job (R331). -/
def State.taskFault (s : State) (key : Nat) (g : Group) (f : FaultInfo) (pc : Nat) : State :=
  let part := partOf key
  let words := s.faultWords key g f pc
  let t? := s.teamOf g
  let s := (s.taskGroups key g).foldl (fun s (k, h) => s.removeGroup k h) s
  let s := s.taskEnd key g true
  let s := s.postDue part g.uid faultStream 0x0008 words
  match t? with
  | none => s
  | some t => if g.kind = .team && (s.detOf part).isNone then s.cbarCheck t else s

end Sys2Proof.Machine
end

