-- ==== Sys2Proof/Machine/Abort.lean ====
section
/-! DEFINITION. Region aborts, gathering, the pending table and page-resident events (R181, R182, R186, R188 to R192). -/

namespace Sys2Proof.Machine

/-- Whether register k is named by a block mask: x in blocks of 8, w in blocks of 32, p and e singly (R350). -/
def maskNames (m : Masks) (level k : Nat) : Bool :=
  match level with
  | 0 => bit m.x.toNat (k / 8)
  | 1 => bit m.w.toNat (k / 32)
  | 2 => bit m.p.toNat k
  | _ => bit m.e.toNat k

/-- A register table after a discard: named registers as recorded, the others as the discarded run left them or zero
(R188). The manual leaves the choice to the part. -/
def restoreTbl {α : Type} (named : Nat → Bool) (keep : Bool) (entry now : Tbl α) : Tbl α :=
  let es := entry.filter fun (k, _) => named k
  let rest := if keep then now.filter fun (k, _) => !named k else []
  rest.foldl (fun t (k, a) => tset k a t) es

/-- Whether a lane has committed since its region's entry, so that its region is never discarded: it stands at the
marker that must follow, or waits at a barrier or PHASE (R186, R335). (DEDUCED: log entry 43) -/
def Lane.committed (l : Lane) : Bool :=
  l.must == .afterCommit || l.wait == .bar || l.wait == .cbar || l.wait == .phase

/-- A lane put back to its region's entry, or to its dispatch (R188); the latch and c0 to c7 are lost (R162). -/
def Lane.restart (l : Lane) (start : Nat) (dispatchX : Tbl Reg) (keep : Bool) (w : Wait) : Lane :=
  match l.entry with
  | some e =>
    { l with
      pc := e.pc, wait := w, must := .nothing, stack := e.stack, spilled := e.spilled, lat := Reg.zero, c := []
      x := restoreTbl (maskNames e.masks 0) keep e.x l.x
      p := restoreTbl (maskNames e.masks 2) keep e.p l.p
      e := restoreTbl (maskNames e.masks 3) keep e.e l.e }
  | none =>
    { l with pc := start, wait := w, must := .nothing, x := dispatchX, p := [], e := [], c := [], lat := Reg.zero,
             stack := [], spilled := 0 }

/-- The outstanding results that stay when lanes are put back: those of lanes that have committed (R164, R186). -/
def Group.keptResults (g : Group) (back : Nat) : List Pending :=
  if maskDiff g.live back = 0 then []
  else g.pend.filterMap fun p =>
    let mine := (p.sectors.map fun ws => ws.filter fun w => !bit back w.lane).filter fun ws => !ws.isEmpty
    if p.sectors.all List.isEmpty then some p else if mine.isEmpty then none
    else some ⟨mine, p.owed.filter fun o => !bit back o.2⟩

/-- Open regions of a group discarded with its buffered stores: the lanes of a mask are put back, and the group-wide
state returns to the latest marker's record (R188, R416). (DESIGN CHOICE: log entry 8) -/
def Group.discardLanes (g : Group) (back : Nat) (keep : Bool) (w : Wait) : Group :=
  let g := g.eachLane back fun i l => l.restart g.startPc (g.dispatchX.getD i []) keep w
  let g := match g.record with
    | some r =>
      { g with w := restoreTbl (maskNames r.masks 1) keep r.w g.w, axis := r.axis, sregs := r.sregs }
    | none => { g with w := g.dispatchW, axis := 0, sregs := List.replicate 8 SReg.free }
  let pend := g.keptResults back
  let tok := if maskDiff g.live back = 0 then 0 else g.tokwaits
  { g with buf := [], pend := pend, loads := pend.length + tok, tokwaits := tok, producers := [], held := none, reuse := none,
           joins := g.joins.filterMap fun (j : Join) =>
             let ls := maskOf fun i => bit j.lanes i && !bit back i
             if ls = 0 then none else some { j with lanes := ls } }

/-- The open regions of a group discarded: every lane is put back but those that have committed (R186, R188). (DESIGN CHOICE: log entry 8) -/
def Group.discard (g : Group) (keep : Bool) (w : Wait) : Group :=
  g.discardLanes (maskOf fun i => (g.lane i).live && !(g.lane i).committed) keep w

/-- The part's choice for registers that a discard does not name (R188). (DEDUCED: log entry 7; DESIGN CHOICE: log entry 8) -/
def State.drawBool (s : State) : State × Bool := ({ s with free := s.free + 1 }, Config.freeBool s.free)

/-- The cluster that gathers for a group: its grid and cluster, or the group itself for a SPAWN task (R189, R429). -/
def State.gatherOf (s : State) (key : Nat) (g : Group) : Nat :=
  match g.kind, s.teamOf g with
  | .spawn, _ | _, none => 2 ^ 40 + key
  | _, some t =>
    let k := match tget? t.grid ((s.part? t.part).elim [] (·.grids)) with
      | none => 1
      | some gr => max 1 (gr.cw * gr.ch)
    t.grid * 2 ^ 16 + t.idx / k

/-- Translations of a context in the address translation caches that do not grant every access are asked for again after a
fault: a denial is no answer to keep (R43). -/
def State.dropDenied (s : State) (pasid : Nat) : State :=
  { s with links := s.links.map fun l => { l with atc := l.atc.filter fun e => e.pasid != pasid || (e.read && e.write) } }

/-- One gathered fault enters the pending table's entry of its page, an open window, or a window of its own (R189,
R190). -/
def State.gather (s : State) (part cluster pasid job core pc : Nat) (m : Missed) (w : Waiter) : State :=
  (s.dropDenied pasid).modPart part fun p =>
    let here := fun (x : Window) => x.cluster == cluster && x.pasid == pasid && x.page == m.page && x.code == m.code
    let pend := p.pending.find? fun e => e.pasid == pasid && e.page == m.page
    match pend with
    | some e =>
      if (e.acc ||| m.acc) = e.acc then
        { p with pending := p.pending.map fun x =>
            if x == e then { x with waiters := x.waiters ++ [w] } else x }
      else if p.windows.any here then
        { p with windows := p.windows.map fun x =>
            if here x then { x with acc := x.acc ||| m.acc, waiters := x.waiters ++ [w] } else x }
      else
        { p with windows := p.windows ++ [⟨pasid, m.page, m.code, m.acc, m.guest, cluster, s.clock + 256, [w], job, core, pc⟩] }
    | none =>
      if p.windows.any here then
        { p with windows := p.windows.map fun x =>
            if here x then { x with acc := x.acc ||| m.acc, waiters := x.waiters ++ [w] } else x }
      else
        { p with windows := p.windows ++ [⟨pasid, m.page, m.code, m.acc, m.guest, cluster, s.clock + 256, [w], job, core, pc⟩] }

/-- The region entry PC of the lowest lane of a mask (R190). -/
def Group.entryPc (g : Group) (lanes : Nat) : Nat :=
  match (g.lane (lowLane lanes)).entry with
  | some e => e.pc
  | none => g.startPc

/-- A region abort: the group's regions are discarded, the faults are gathered, and the group waits (R188, R189). -/
def State.regionAbort (s : State) (key : Nat) (g : Group) (pc : Nat) (ms : List Missed) : State :=
  let part := partOf key
  let cluster := s.gatherOf key g
  let (s, keep) := s.drawBool
  let waits := ms.map fun m => (⟨m.code, m.page, m.acc, m.guest, m.lanes, pc⟩ : AbortWait)
  let s := s.setGroup key { (g.discard keep .aborted) with halt := .aborted waits }
  (ms.filter (·.code != 0x03)).foldl
    (fun s m => s.gather part cluster g.pasid g.job (vcoreOf (coreOf key)) (g.entryPc m.lanes) m (.group key)) s

/-- A group that waits after a region abort resumes at its region entries (R188, R191). -/
def Group.resume (g : Group) : Group :=
  { g with halt := (match g.halt with
             | .aborted _ => .running
             | h => h),
           lanes := g.lanes.map fun l => if l.wait == .aborted then { l with wait := .none } else l }

/-- A waiting group released for retry. -/
def State.releaseGroup (s : State) (key : Nat) : State :=
  (s.unwait (partOf key) (.group key)).mapGroups fun k g => if k = key then g.resume else g

/-- A suspended engine operation resumed (R235). -/
def State.resumeOp (s : State) (part op : Nat) : State :=
  let s := s.unwait part (.engine op)
  { s with bulks := tmod op (fun b => { b with suspended := none }) s.bulks,
           colls := tmod op (fun c => { c with suspended := none }) s.colls }

/-- A waiter released for retry. -/
def State.releaseWaiter (s : State) (part : Nat) : Waiter → State
  | .group key => s.releaseGroup key
  | .engine op => s.resumeOp part op
  | .ring | .scanner .. | .launcher _ | .mover _ => s

/-- Bit 0 of word 10: the fault arose in an engine operation (R331). -/
def engFlag : Nat := 1

/-- The group of a key on a core or evicted. -/
def State.anyGroup (s : State) (key : Nat) : Option Group := (s.everyGroup.find? fun (k, _) => k == key).map (·.2)

/-- An engine operation's issuing task ends as faulted (R235, R253): record with ENG and the PC of the instruction that
issued it. -/
def State.engineFault (s : State) (key pc : Nat) (f : FaultInfo) : State :=
  match s.anyGroup key with
  | none => s
  | some g => s.taskFault key g { f with flags := f.flags ||| engFlag } pc

/-- A waiter that software fails: its task ends as faulted with the code with which it waited (R191). (DEDUCED: log entry 52) -/
def State.failWaiter (s : State) (part page : Nat) (w : Waiter) : State :=
  match w with
  | .group key =>
    match s.anyGroup key with
    | none => s
    | some g =>
      match g.halt with
      | .aborted ws =>
        match ws.find? (·.page == page) with
        | none => s.unwait part w
        | some a => s.taskFault key g ⟨a.code, a.acc, a.lanes, 0, 0, 0⟩ a.pc
      | _ => s.unwait part w
  | .ring | .scanner .. | .launcher _ | .mover _ => s
  | .engine op =>
    let s := s.unwait part w
    match tget? op s.bulks with
    | some b =>
      let (code, _, acc) := b.suspended.getD (0x01, page, 0)
      s.engineFault b.group b.pc ⟨code, acc, 0, 0, 0, 0⟩
    | none =>
      match tget? op s.colls with
      | none => s
      | some c =>
        let (code, _, acc) := c.suspended.getD (0x01, page, 0)
        s.engineFault c.group c.pc ⟨code, acc, 0, 0, 0, 0⟩

/-- Whether the payload of a page-resident event keeps its layout (R191). -/
def residentOk (w : List Nat) : Bool :=
  let at_ := fun k => w.getD k 0
  decide (at_ 0 < 2 ^ 20) && at_ 1 % 2 ^ 16 == 0 && decide (at_ 2 < 2 ^ 24) && decide (1 ≤ at_ 3) &&
  decide (at_ 3 ≤ 16384) && decide (at_ 4 < 2) && (List.range 7).all fun k => at_ (5 + k) == 0

/-- A page-resident event acts at its append on every waiter of the context on a page in the span, and removes the
windows and pending entries (R191). -/
def State.pageResident (s : State) (part : Nat) (w : List Nat) : State :=
  if residentOk w then
    let pasid := w.getD 0 0
    let first := pair64 (w.getD 1 0) (w.getD 2 0) / 2 ^ 16
    let inSpan := fun (ps page : Nat) => ps == pasid && decide (first ≤ page) && decide (page < first + w.getD 3 0)
    match s.part? part with
    | none => s
    | some p =>
      let found :=
        ((p.pending.filter fun x => inSpan x.pasid x.page).flatMap fun x => x.waiters.map fun y => (x.page, y)) ++
        ((p.windows.filter fun x => inSpan x.pasid x.page).flatMap fun x => x.waiters.map fun y => (x.page, y)) ++
        ((p.retries.filter fun x => inSpan x.pasid x.page).flatMap fun x => x.waiters.map fun y => (x.page, y))
      let s := s.modPart part fun p =>
        { p with
          pending := p.pending.filter fun x => !inSpan x.pasid x.page
          windows := p.windows.filter fun x => !inSpan x.pasid x.page
          retries := p.retries.filter fun x => !inSpan x.pasid x.page }
      found.eraseDups.foldl (fun s (page, y) =>
        if w.getD 4 0 = 0 then s.releaseWaiter part y else s.failWaiter part page y) s
  else s

/-- A post by a host or a program, with what the append of a page-resident event does (R64, R191). (DEDUCED: log entry 52) -/
def State.postActs (s : State) (part sid : Nat) (p : Post) : Except PostStop (State × Option Nat) :=
  match s.post part sid p with
  | .error e => .error e
  | .ok (s, none) => .ok (s, none)
  | .ok (s, some q) =>
    .ok (if p.cls = 0x0009 && sid == part * 16 + ctlStream then s.pageResident part p.payload else s, some q)

/-- The 12 words of a gathered record (R190). -/
def gatheredWords (x : Window) (ovf post : Bool) : List Nat :=
  let va := x.page * 2 ^ 16
  [x.code * 2 ^ 24 + x.acc * 2 ^ 20 + x.pasid, lo32 va, hi32 va, x.waiters.length, x.job, x.core, lo32 x.pc, hi32 x.pc,
   if x.code = 0x05 then lo32 x.guest else 0, if x.code = 0x05 then hi32 x.guest else 0, b2n ovf + 2 * b2n post, 0]

/-- The pending table's size (R190). -/
def pendingSize : Nat := 4096

/-- A gathering window closes: its record is posted, and its page enters the pending table; with a full table the record
has OVF and the waiters are retried later; a dropped record retries them too (R189, R190, R331). -/
def State.closeWindow (s : State) (part k : Nat) : State :=
  match s.part? part with
  | none => s
  | some p =>
    match p.windows[k]? with
    | none => s
    | some x =>
      let s := s.modPart part fun p => { p with windows := p.windows.eraseIdx k }
      if x.waiters.isEmpty then s
      else
        let old := p.pending.find? fun e => e.pasid == x.pasid && e.page == x.page
        let ovf := old.isNone && decide (pendingSize ≤ p.pending.length)
        let drop := s.recordFull part
        let s := s.postRecord part (gatheredWords x ovf false)
        if ovf || drop then
          s.modPart part fun p => { p with retries := p.retries ++ [⟨s.clock + 65536, x.pasid, x.page, x.waiters⟩] }
        else s.modPart part fun p =>
          match old with
          | none => { p with pending := p.pending ++ [⟨x.pasid, x.page, x.acc, x.waiters⟩] }
          | some e => { p with pending := p.pending.map fun y =>
              if y.pasid == e.pasid && y.page == e.page then
                { y with acc := y.acc ||| x.acc, waiters := y.waiters ++ x.waiters } else y }

/-- Every group with a buffered byte that a test names is put back to its region entries at once (R181, R182). -/
def State.restartWhere (s : State) (except? : Option Nat) (test : Nat → Group → BufByte → Bool) : State :=
  (s.groups.filter fun (k, g) => some k != except? && g.buf.any (test k g)).foldl (fun s (k, g) =>
    let (s, keep) := s.drawBool
    s.modGroup k fun _ => g.discard keep .none) s

/-- The translations of a range of pages of a context are voided in every buffer, and the regions that hold stores
through them are restarted (R182). -/
def State.invalidate (s : State) (part pasid first count : Nat) (except? : Option Nat) : State :=
  let hit := fun (page : Nat) => decide (first ≤ page) && decide (page < first + count)
  let s := { s with tlb := s.tlb.filter fun e => !(e.part == part && e.pasid == pasid && hit e.vpage) }
  s.restartWhere except? fun k g b =>
    partOf k == part && g.pasid == pasid && (match b.vpage with | none => false | some v => hit v)

end Sys2Proof.Machine
end

