-- ==== Sys2Proof/Machine/Ops.lean ====
section
/-! DEFINITION. The named operations that every instruction's meaning is written over: how a path runs an instruction,
taking a fault and a region abort (the machine's exceptions, R328 to R331, R188), releasing a group again, draining
buffered stores (R184 to R186), and results that return later (R164). -/

namespace Sys2Proof.Machine

/-- The returned sectors of a waiter dropped. -/
def State.dropReturned (s : State) (w : Waiter) : State :=
  { s with links := s.links.map fun l => { l with returned := l.returned.filter fun r => r.1 != w } }

/-- The whole group waits: every lane that might issue (R143, R164, R233). -/
def Group.stallAll (g : Group) (w : Wait) : Group :=
  { g with lanes := g.lanes.map fun l => if l.live && l.wait == .none then { l with wait := w } else l }

/-- The key id of a range entry of a partition. -/
def State.rangeKey (s : State) (part : Nat) (range : Option Nat) : Nat :=
  match range with
  | none => 0
  | some k => ((s.part? part).elim [] (·.ranges) |>.getD k Range.none).key

/-- Whether buffered bytes combine in the region store buffer: those of NORMAL and WC pages and of die store do, those of
DEVICE and STRONG pages are one request for each access (R177). -/
def BufByte.combines (b : BufByte) : Bool := decide (b.mtype < 2)

/-- A byte put into a request whose bytes lie by address. -/
def insertByte (b : BufByte) : List BufByte → List BufByte
  | [] => [b]
  | c :: r => if b.addr < c.addr then b :: c :: r else c :: insertByte b r

/-- Buffered bytes cut into requests: the bytes of a 128-byte line that combine are one, at the place of the earliest of
them, and an access that does not combine is one (R177). -/
def bufRuns : List BufByte → List (List BufByte)
  | [] => []
  | b :: bs =>
    let rest := bufRuns bs
    if b.combines then
      let here := fun (r : List BufByte) => r.any fun c => c.combines && c.addr / 128 == b.addr / 128
      insertByte b (rest.filter here).flatten :: rest.filter fun r => !here r
    else match rest with
      | (c :: r) :: rest =>
        if !c.combines && !c.first && c.lane == b.lane && c.addr == b.addr + 1 then (b :: c :: r) :: rest
        else [b] :: (c :: r) :: rest
      | rest => [b] :: rest

/-- A request's bytes cut where an address is missing. -/
def gapsOf : List BufByte → List (List BufByte)
  | [] => []
  | b :: bs =>
    match gapsOf bs with
    | (c :: r) :: rest => if c.addr = b.addr + 1 then (b :: c :: r) :: rest else [b] :: (c :: r) :: rest
    | rest => [b] :: rest

/-- Buffered bytes that a selection names drain, in order of issue (R185). (DEDUCED: log entry 18) -/
def State.drainBytes (s : State) (key : Nat) (sel : BufByte → Bool) : State :=
  match s.group? key with
  | none => s
  | some g =>
    let out := g.buf.filter sel
    let s := s.setGroup key { g with buf := g.buf.filter fun b => !sel b }
    ((bufRuns out).flatMap gapsOf).foldl (fun s r =>
      match r with
      | [] => s
      | b :: _ =>
        let s := s.writeRun (some g.pasid) (s.rangeKey (partOf key) b.range) b.addr (r.map (·.byte)) (r.any (·.pois))
        s.charge (partOf key) g.pasid (memCost b.addr r.length)) s

/-- The buffered stores of a mask's lanes drain (R185). (DEDUCED: log entry 18) -/
def State.drain (s : State) (key lanes : Nat) : State := s.drainBytes key fun b => bit lanes b.lane

/-- New bytes after the buffered ones: a byte that combines replaces an earlier one of its address, whichever lane stored
it (R185, R201). -/
def putBytes (buf new : List BufByte) : List BufByte :=
  new.foldl (fun (l : List BufByte) b =>
    (if b.combines then l.filter fun c => !(c.combines && c.addr == b.addr) else l) ++ [b]) buf

/-- The buffered stores that a lane's load is ordered after drain: those of one page of DEVICE type, or all (R177).
(DEDUCED: log entry 18) (DEDUCED: log entry 18) -/
def State.drainBehind (s : State) (key : Nat) (xs : List (Nat × Option Nat)) : State :=
  xs.foldl (fun s (i, page) => s.drainBytes key fun b =>
    b.lane == i && (page.isNone || (b.mtype == 2 && b.vpage == page))) s

/-- What taking a trap does: a task ends as faulted (R331), a region is discarded and its group waits (R188), or the
lanes of the path wait and issue again. This is the one way in which an instruction's fault is taken. -/
def takeTrap (s : State) (iss : Issue) (g : Group) (t : Trap) : State :=
  match t with
  | .fault f => s.taskFault iss.key g f iss.pc
  | .abort ms => (s.dropReturned (.group iss.key)).regionAbort iss.key g iss.pc ms
  | .stall w => s.setGroup iss.key (g.eachLane iss.path fun _ l => { l with wait := w })
  | .hold w => s.setGroup iss.key (g.stallAll w)
  | .walk pages =>
    s.setGroup iss.key { (g.eachLane iss.path fun _ l => { l with wait := .walk }) with walks := (g.walks ++ pages).eraseDups }
  | .remote ats reads behind =>
    let s := (s.drainBehind iss.key behind)
    let g := (s.group? iss.key).elim g fun h => { g with buf := h.buf }
    let s := s.setGroup iss.key (g.eachLane iss.path fun _ l => { l with wait := .remote })
    let s := ats.foldl (fun s q => s.askAts (.group iss.key) iss.path q.1 q.2.1 q.2.2) s
    let s := reads.foldl (fun s a => s.askHost (.group iss.key) (some g.pasid) iss.key iss.path a) s
    if (s.links.any fun l => l.ats.any (fun q => q.waiter == .group iss.key) || l.reads.any (fun q => q.waiter == .group iss.key))
    then s
    else s.modGroup iss.key fun g => g.eachLane iss.path fun _ l => { l with wait := .none }

/-- The return from a region abort: the group's lanes leave their wait at their region entries (R188, R191). -/
def returnFromAbort (s : State) (key : Nat) : State := s.releaseGroup key

/-- The lanes of the path stand at the next instruction (R371). -/
def Group.stepPast (g : Group) (iss : Issue) : Group := g.eachLane iss.path fun _ l => { l with pc := iss.pc + 12 }

/-- A path runs an instruction: every lane of the path moves on, the executing lanes take the effect, and a trap is
taken from the state before it. A fault found before the act is taken unless the act's own stands before it (R330).
Without an issuing path there is nothing to run. (DEDUCED: log entry 9) -/
def runAct (f : Act) (s : State) : Host.Outcome State Fault Refusal :=
  match s.cur with
  | none => .fault .noIssuer
  | some iss =>
    match s.group? iss.key with
    | none => .fault .noIssuer
    | some g =>
      let g' := g.stepPast iss
      let s' := s.setGroup iss.key g'
      match (if iss.lanes = 0 then .ok s' else f iss g' s'), iss.late with
      | .ok t, none => .next t
      | .ok _, some l => .next (takeTrap s iss g (.plain l.1 l.2))
      | .error t, l => .next (takeTrap s iss g (t.first l))

/-- A step of hardware, firmware, host or link: it always completes. -/
def runStep (f : State → State) (s : State) : Host.Outcome State Fault Refusal := .next (f s)

/-- The group as the state holds it now. -/
def State.groupNow (s : State) (key : Nat) (g : Group) : Group := (s.group? key).getD g

/-- A commit instruction: the executing lanes' stores drain before it acts and are accepted where they go, and their next
instruction must be a REGION (R186). (DEDUCED: log entry 18) -/
def commit (iss : Issue) (s : State) : State :=
  (s.drain iss.key iss.lanes).flushWrites.modGroup iss.key fun g =>
    g.eachLane iss.lanes fun _ l => { l with must := .afterCommit }

/-- A commit instruction's act: the checks first, then the drain, then the effect on the state as it then stands. -/
def committing (check : Act) (act : Act) : Act := fun iss g s => do
  let s ← check iss g s
  let s := commit iss s
  act iss (s.groupNow iss.key g) s

/-- Registers of an operand as pending writes of a lane. -/
def pendOf (i : Nat) (o : Opnd) (n : Nat) (v : Val) : List PendWrite :=
  (opRegs n o).zipIdx.map fun (r, j) => ⟨i, r, ⟨BitVec.ofNat 32 (v.1 / 2 ^ (32 * j)), v.2⟩⟩

/-- Whether the lanes of a group share the register of an operand. -/
def Opnd.shared : Opnd → Bool
  | .w _ => true
  | _ => false

/-- The writes of one lane among those that a result has values for: a w register takes the value of the
highest-numbered of them, however its sectors return (R153). -/
def pendAmong (o : Opnd) (n : Nat) (lanes : List Nat) (i : Nat) (v : Val) : List PendWrite :=
  if Opnd.shared o && i != lanes.foldl max 0 then [] else pendOf i o n v

/-- The 63 results that the load counter holds at most (R164). -/
def loadRoom (g : Group) : Except Trap Unit := require (decide (g.loads < 63)) (.stall .engine)

/-- A variable-latency result: the load counter rises, and the writes wait in their sectors (R164). A result that writes
nothing still counts until it has returned. -/
def Group.raiseOwed (g : Group) (sectors : List (List PendWrite)) (owed : List (Nat × Nat)) : Group :=
  { g with loads := g.loads + 1, pend := g.pend ++ [⟨if sectors.isEmpty then [[]] else sectors, owed⟩] }

/-- A variable-latency result whose values are there already (R164). -/
def Group.raiseLoad (g : Group) (sectors : List (List PendWrite)) : Group := g.raiseOwed sectors []

/-- Whether a sector of a result can return: the operations of its lanes have completed. -/
def Pending.ready (p : Pending) (ws : List PendWrite) : Bool :=
  if ws.isEmpty then p.owed.isEmpty else ws.all fun w => p.owed.all fun o => o.2 != w.lane

/-- A result with the value that an operation has answered for its lane. -/
def Pending.pay (p : Pending) (serial v : Nat) : Pending :=
  match p.owed.find? (·.1 == serial) with
  | none => p
  | some (_, i) =>
    { sectors := p.sectors.map fun ws => ws.mapIdx fun k w =>
        if w.lane = i then { w with val := ⟨BitVec.ofNat 32 (v / 2 ^ (32 * k)), false⟩ } else w
      owed := p.owed.filter (·.1 != serial) }

/-- An operation answers the group that issued it (R164). -/
def State.pay (s : State) (serial v : Nat) : State :=
  s.mapGroups fun _ g => { g with pend := g.pend.map fun p => p.pay serial v }

/-- A result of several lanes with one sector for each lane. -/
def laneSectors (o : Opnd) (n : Nat) (vals : Vals) : List (List PendWrite) :=
  vals.map fun (i, v) => pendAmong o n (vals.map (·.1)) i v

/-- The operand of a register field code. -/
def regField (r : Nat) : Opnd := Opnd.ofCode r

/-- Spin entries that name a lane of a mask are no longer clean (R157). -/
def Group.unclean (g : Group) (m : Nat) : Group :=
  { g with spins := g.spins.map fun e => if (lanesOf m).any (bit e.lanes ·) then { e with clean := false } else e }

/-- Whether a lane's x, p and e registers read otherwise in another state of its group; an extension that has come or
gone is not compared (R157). -/
def Group.changed (old new : Group) (i : Nat) : Bool :=
  let a := old.lane i
  let b := new.lane i
  a.p != b.p || a.e != b.e ||
  if old.holdsExt = new.holdsExt then a.x != b.x
  else (a.x.filter fun r => decide (r.1 < 64)) != b.x.filter fun r => decide (r.1 < 64)

/-- The entries of the lanes whose registers have taken another value are no longer clean (R157). -/
def Group.noteWrites (old new : Group) : Group := new.unclean (maskOf fun i => old.changed new i)

/-- The reuse latch released by a write to one of its registers (R246). -/
def Group.unlatch (g : Group) (regs : List Nat) : Group :=
  match g.reuse with
  | none => g
  | some (a, rows) =>
    let n := (rows.headD (0, [])).2.length
    if regs.any fun r => decide (a ≤ r) && decide (r < a + n) then { g with reuse := none } else g

/-- One pending register write performed. -/
def Group.performWrite (g : Group) (w : PendWrite) : Group :=
  let g := g.unlatch [w.reg]
  match regField w.reg with
  | .p k =>
    let new : PReg := ⟨triOfNum w.val.bits.toNat, w.val.pois⟩
    let g := if (g.lane w.lane).pred k = new then g else g.unclean (2 ^ w.lane)
    writePred g w.lane (.p k) new.v new.pois
  | o =>
    let g := if regOf g w.lane o 0 = w.val || decide (0x400 ≤ w.reg) then g else g.unclean (2 ^ w.lane)
    setReg g w.lane o 0 w.val

/-- The load counter has fallen: lanes that waited for room issue again, and lanes that waited for 0 at 0 (R164). -/
def Group.loadsDone (g : Group) : Group :=
  { g with lanes := g.lanes.map fun l =>
      if l.wait == .engine || (l.wait == .loads && g.loads == 0) then { l with wait := .none } else l }

/-- One sector of an outstanding result returns once its operations have completed: its lanes are written, and the counter
falls with the last sector (R164). -/
def Group.returnSector (g : Group) (idx sector : Nat) : Group :=
  match g.pend[idx]? with
  | none => g
  | some p =>
    match p.sectors[sector]? with
    | none => g
    | some ws =>
      if !p.ready ws then g else
      let g := ws.foldl Group.performWrite g
      let rest := p.sectors.eraseIdx sector
      if rest.isEmpty then
        ({ g with pend := g.pend.eraseIdx idx, loads := g.loads - 1 } : Group).loadsDone
      else { g with pend := g.pend.set idx { p with sectors := rest } }

/-- Every outstanding result of a group returns, but for those whose operations have not completed (R335). -/
def Group.returnAll (g : Group) : Group :=
  let now := g.pend.filter (·.owed.isEmpty)
  let left := g.pend.filter (!·.owed.isEmpty)
  let g := now.foldl (fun g p => p.sectors.foldl (fun g ws => ws.foldl Group.performWrite g) g) g
  ({ g with loads := g.loads - now.length, pend := left } : Group).loadsDone

/-- Whether a group of a deterministic partition lacks the commit token (R321). (DEDUCED: log entry 25) -/
def State.lacksToken (s : State) (key : Nat) (g : Group) : Bool :=
  match s.detOf (partOf key) with
  | none => false
  | some d => d.holder != some g.uid || d.passing

/-- An instruction of R321 executes only with the token, else token-required with a detail. -/
def needToken (s : State) (iss : Issue) (g : Group) (addr : Nat) : Except Trap Unit :=
  require (!s.lacksToken iss.key g) (.at_ 0x13 0 iss.lanes addr)

/-- Poison-use where a lane's operand is poisoned (R334, R400): operands with their registers and use. The record
names every such lane, and the first poisoned operand of the lowest one. (DEDUCED: log entry 33) -/
def noPoison (g : Group) (iss : Issue) (ops : List (Opnd × Nat × Nat)) : Except Trap Unit :=
  let hit := fun i => ops.find? fun (o, n, _) => (readOp g i .n64 n o).2
  match (lanesOf iss.lanes).filter fun i => (hit i).isSome with
  | [] => .ok ()
  | i :: rest =>
    match hit i with
    | none => .ok ()
    | some (o, _, use) => .error (.poison (maskOfList (i :: rest)) o.code use)

/-- A 32-bit operand of every executing lane. -/
def vals32 (g : Group) (iss : Issue) (o : Opnd) : Tbl Nat := (lanesOf iss.lanes).map fun i => (i, (read32 g i o).1)

/-- A pair of every executing lane. -/
def vals64 (g : Group) (iss : Issue) (o : Opnd) : Tbl Nat := (lanesOf iss.lanes).map fun i => (i, (read64 g i o).1)

end Sys2Proof.Machine
end

