-- ==== Sys2Proof/Machine/Access.lean ====
section
/-! DEFINITION. Lane accesses to memory: addresses, the places of their bytes, the checks of R401, R402 and R330 in
order, values read with the group's own buffered bytes (R185), and stores buffered or direct (R184, R402). -/

namespace Sys2Proof.Machine

/-- The spaces of the load and store instructions (R168, R401). -/
inductive Space where
  | generic | localStore | die | spill
deriving DecidableEq, Repr

/-- The result of finding one byte. -/
abbrev Found := Except XErr (Place × Option TlbEntry)

/-- One lane's access: its address in its space, its generic address, and its bytes. -/
structure LaneAccess where
  lane : Nat
  gen : Nat
  bytes : List Found

/-- A fault that a lane meets: code, generic address, guest-physical address. -/
structure LaneFault where
  lane : Nat
  code : Nat
  gen : Nat
  guest : Nat
deriving DecidableEq, Repr

/-- The sign-extended offset of the M body (R347). -/
def offVal (off : BitVec 20) : Int := intVal true 20 off.toNat

/-- The addresses of the executing lanes: base, index and offset; a poisoned base or index is a poison-use (R400, R401). -/
def laneAddrs (sp : Space) (g : Group) (iss : Issue) (base idx : Opnd) (off : BitVec 20) : Except Trap (Tbl Nat) := do
  let n := if sp = .generic then 2 else 1
  let ls := lanesOf iss.lanes
  let b := fun i => readOp g i .n64 n base
  noPoison g iss [(base, n, 0), (idx, 1, 0)]
  return ls.map fun i => (i, wrap (32 * n) (((b i).1 : Int) + (read32 g i idx).1 + offVal off))

/-- The generic address of an address of a space, as a record names it (R331). -/
def genericOf (s : State) (key : Nat) (sp : Space) (a : Nat) : Nat :=
  match sp with
  | .generic => a
  | .localStore => localGeneric (vcoreOf (coreOf key)) a
  | .die => 0xFD * 2 ^ 48 + dieOf (s.coreQuarter (coreOf key)) * 2 ^ 27 + a
  | .spill => 0xFD * 2 ^ 48 + (s.spillAddr key a - dieStoreBase)

/-- The place of one byte of a space (R168, R169, R171, R401). -/
def spaceByte (s : State) (key : Nat) (g : Group) (sp : Space) (a : Nat) (acc : Acc) : Found :=
  match sp with
  | .generic => if a < 2 ^ 56 then s.anyByte key g a acc else .error (.flt 0x09 0)
  | .localStore =>
    if a < s.lstoreOf g then .ok (⟨localAddr (g.team.getD 0) a, 0, none, none⟩, none) else .error (.flt 0x09 0)
  | .die =>
    match s.part? (partOf key) with
    | none => .error (.flt 0x09 0)
    | some p =>
      if a < 2 ^ 27 then
        let q := s.coreQuarter (coreOf key)
        match s.dieByte p (s.secureQuarter q) (dieOf q) a (acc == .r) with
        | .ok pl => .ok (pl, none)
        | .error e => .error e
      else .error (.flt 0x09 0)
  | .spill =>
    if a < 0x3000 then .ok (⟨s.spillAddr key a, 0, none, none⟩, none)
    else if a < 0x4000 then .error (.flt 0x02 0)
    else .error (.flt 0x09 0)

/-- The bytes of an access of each lane. -/
def accesses (s : State) (key : Nat) (g : Group) (sp : Space) (n : Nat) (acc : Acc) (as : Tbl Nat) : List LaneAccess :=
  as.map fun (i, a) =>
    ⟨i, genericOf s key sp a, (List.range n).map fun k => spaceByte s key g sp (a + k) acc⟩

/-- The virtual pages that walks are due for. -/
def missesOf (xs : List LaneAccess) : List Nat :=
  (xs.flatMap fun x => x.bytes.filterMap fun b =>
    match b with
    | .error (.miss page) => some page
    | _ => none).eraseDups

/-- The sectors of tables in host memory that are asked for. -/
def hostsOf (xs : List LaneAccess) : List Nat :=
  (xs.flatMap fun x => x.bytes.filterMap fun b =>
    match b with
    | .error (.host a) => some a
    | _ => none).eraseDups

/-- The translations that host links are asked for. -/
def atsOf (xs : List LaneAccess) : List (Nat × Nat × Nat) :=
  (xs.flatMap fun x => x.bytes.filterMap fun b =>
    match b with
    | .error (.ats l p g) => some (l, p, g)
    | _ => none).eraseDups

/-- The faults of an access's own bytes: every page with a gathered code, or else the first other one (R189, R330). -/
def byteFaults (xs : List LaneAccess) : List LaneFault :=
  xs.flatMap fun x =>
    let fs := x.bytes.zipIdx.filterMap fun (b, k) =>
      match b with
      | .error (.flt c g) => some (⟨x.lane, c, x.gen + k, g⟩ : LaneFault)
      | _ => none
    match fs.filter (·.code ≤ 6) with
    | [] => fs.take 1
    | held => held

/-- The first entry of an access's page, where it is paged. -/
def LaneAccess.entry (x : LaneAccess) : Option TlbEntry :=
  match x.bytes with
  | .ok (_, e) :: _ => e
  | _ => none

/-- The entries of all pages of an access. -/
def LaneAccess.entries (x : LaneAccess) : List TlbEntry :=
  x.bytes.filterMap fun b =>
    match b with
    | .ok (_, e) => e
    | .error _ => none

/-- The places of an access's bytes. -/
def LaneAccess.places (x : LaneAccess) : List (Place × Option TlbEntry) :=
  x.bytes.filterMap fun b =>
    match b with
    | .ok p => some p
    | .error _ => none

/-- Gathered faults of one instruction: one for each page and code (R189). -/
def missedOf (acc : Nat) (fs : List LaneFault) : List Missed :=
  ((fs.map fun f => (f.gen / 2 ^ 16, f.code)).eraseDups).map fun (page, code) =>
    let mine := fs.filter fun f => f.gen / 2 ^ 16 == page && f.code == code
    ⟨page, code, acc, (mine.head?.elim 0 (·.guest)), maskOfList (mine.map (·.lane))⟩

/-- The order in which the faults of one instruction are reported, after the gathered codes (R329, R330). (DEDUCED: log entry 13) -/
def faultOrder : List Nat := [0x07, 0x08, 0x0A, 0x09, 0x0B, 0x0D, 0x10, 0x11, 0x13]

/-- The codes whose record has no address in its detail (R331). -/
def noAddress (c : Nat) : Bool := c == 0x10 || c == 0x11

/-- The faults of an instruction's lanes reported: region abort first, then the first code of the table (R330). (DEDUCED: log entry 32) -/
def raiseFaults (acc : Nat) (fs : List LaneFault) : Except Trap Unit :=
  let gathered := fs.filter fun f => decide (f.code ≤ 6)
  if !gathered.isEmpty then .error (.abort (missedOf acc gathered))
  else
    match faultOrder.find? fun c => fs.any fun f => f.code == c with
    | none => .ok ()
    | some c =>
      let mine := fs.filter fun f => f.code == c
      let m := maskOfList (mine.map (·.lane))
      .error (if noAddress c then .plain c m else .at_ c acc m (mine.head?.elim 0 (·.gen)))

/-- The location of a byte for range locks (R204). -/
def lockAt (part pasid : Nat) (pl : Place) (gen : Nat) : Nat :=
  match pl.vpage with
  | none => pl.phys
  | some _ => lockPaged part pasid gen

/-- Lanes whose bytes overlap a range lock (R204). (DEDUCED: log entry 32) -/
def lockFaults (s : State) (key : Nat) (g : Group) (store : Bool) (xs : List LaneAccess) : List LaneFault :=
  xs.filterMap fun x =>
    if x.places.zipIdx.any fun ((pl, _), k) => s.locked (coreOf key) (lockAt (partOf key) g.pasid pl (x.gen + k)) 1 store
    then some ⟨x.lane, 0x0D, x.gen, 0⟩ else none

/-- The host sectors that a read needs and that have not returned to the group (R43). -/
def hostNeeds (s : State) (key : Nat) (ps : List Place) : List Nat :=
  ((ps.filter fun p => isHost p.phys).map fun p => p.phys - p.phys % 32).eraseDups.filter fun a =>
    (s.returnedTo (.group key) a).isNone

/-- Walks and answers that an instruction waits for come before its faults: they change nothing that a program sees
(R188). -/
def awaitPages (xs : List LaneAccess) : Except Trap Unit :=
  match missesOf xs, atsOf xs, hostsOf xs with
  | [], [], [] => .ok ()
  | [], q, r => .error (.remote q r [])
  | ps, _, _ => .error (.walk ps)

/-- A byte as a lane of the group reads it: its own group's latest buffered byte, or memory; with its poison (R185,
R84). A host sector takes the poison with which it returned. -/
def readByte (s : State) (key : Nat) (g : Group) (pl : Place) (e : Option TlbEntry) : Byte × Bool :=
  match g.buf.reverse.find? fun b => b.addr == pl.phys with
  | some b => (b.byte, b.pois || (match e with | none => false | some e => e.por))
  | none =>
    (s.readKeyed pl.key pl.phys, s.placePois pl e ||
      (isHost pl.phys && (s.returnedTo (.group key) (pl.phys - pl.phys % 32)).getD false))

/-- Bytes read from places, as a number with its poison. -/
def readPlaces (s : State) (key : Nat) (g : Group) (ps : List (Place × Option TlbEntry)) : Val :=
  let bs := ps.map fun (pl, e) => readByte s key g pl e
  (leNat (bs.map (·.1)), bs.any (·.2))

/-- The page format of a code (R175). -/
def pfmtOf (c : Nat) : PFmt :=
  match c with
  | 1 => .e4m3 | 2 => .e5m2 | 3 => .e4m3b32 | 4 => .e2m1b32x | 5 => .e2m1b32 | _ => .raw

/-- The places of an element of a format page: the data byte and the two side bytes (R175). -/
def elemPlaces (p : Part) (e : TlbEntry) (low : Nat) : List Place :=
  let f := pfmtOf e.fmt
  let data := e.place p (if f.isNibble then low / 2 else low)
  if f.isBlock then
    let key := (p.ranges.getD e.sideRange Range.none).key
    [data, ⟨e.side + 2 * (low / 32), key, some e.vpage, some e.sideRange⟩,
     ⟨e.side + 2 * (low / 32) + 1, key, some e.vpage, some e.sideRange⟩]
  else [data]

/-- An element's exact value from its data byte and side bytes (R175, R267). -/
def elemValue (f : PFmt) (low data sc ex : Nat) : FVal :=
  pageValue f (if f.isNibble then (if low % 2 = 0 then data % 16 else data / 16) else data) sc ex

/-- The element of a format page that a lane's load decodes (R269). -/
def loadElem (s : State) (key : Nat) (g : Group) (p : Part) (e : TlbEntry) (gen : Nat) (ty : Ty) : Val :=
  let low := gen % 2 ^ 16
  let bs := (elemPlaces p e low).map fun pl => readByte s key g pl (some e)
  let at_ := fun k => (bs.getD k (0, false)).1.toNat
  let v := elemValue (pfmtOf e.fmt) low (at_ 0) (at_ 1) (at_ 2)
  ((if ty = .bf16x2 then Fmt.bf16.round v .rne false else Fmt.f32.round v .rne false), bs.any (·.2))

/-- Loaded lanes' writes grouped by the 32-byte sector of their first byte (R164). -/
def sectorsOf (o : Opnd) (n : Nat) (vals : List (Nat × Nat × Val)) : List (List PendWrite) :=
  ((vals.map fun v => v.2.1 / 32).eraseDups).map fun sec =>
    (vals.filter fun v => v.2.1 / 32 == sec).flatMap fun v => pendAmong o n (vals.map (·.1)) v.1 v.2.2

/-- The bytes of an access of a type and size (R401). -/
def accessSize (ty : Ty) (sw : SubWord) : Nat :=
  match sw with
  | .b8 => 1 | .b16 => 2
  | .full => 4 * ty.regs

/-- A loaded pattern extended to its register (R402). -/
def extendLoad (ty : Ty) (sw : SubWord) (v : Nat) : Nat :=
  match sw with
  | .full => v
  | .b8 => if ty = .i32 then wrap 32 (intVal true 8 v) else v
  | .b16 => if ty = .i32 then wrap 32 (intVal true 16 v) else v

/-- The format faults of a load: only f32 and bf16x2 whole loads on a format page, and no access of a RAW page may run
into one (R176, R402). -/
def loadFormat (ok : Bool) (xs : List LaneAccess) : List LaneFault :=
  xs.filterMap fun x =>
    let fmt := x.entry.elim 0 (·.fmt)
    if (fmt != 0 && !ok) || (fmt = 0 && x.entries.any (·.fmt != 0)) then some ⟨x.lane, 0x04, x.gen, 0⟩ else none

/-- Only the first byte of an access to a format page counts: it names one element (R175). -/
def trimFormat (xs : List LaneAccess) : List LaneAccess :=
  xs.map fun x => if x.entry.elim 0 (·.fmt) != 0 then { x with bytes := x.bytes.take 1 } else x

/-- The partition of the issuing group. A group has one in every state that a run reaches. -/
def needPart (s : State) (iss : Issue) : Except Trap Part :=
  match s.part? (partOf iss.key) with
  | some p => .ok p
  | none => .error (.plain 0x09 iss.lanes)

/-- What the loads of an instruction are ordered after: the lane's earlier stores to the page of a DEVICE load, and all its
earlier stores for a STRONG one (R177). (DEDUCED: log entry 18) -/
def ordersOf (xs : List LaneAccess) : List (Nat × Option Nat) :=
  xs.filterMap fun x => x.entry.bind fun e =>
    if e.mtype = 3 then some (x.lane, none) else if e.mtype = 2 then some (x.lane, some e.vpage) else none

/-- The load of every executing lane, queued to return in sectors (R402, R164). -/
def loadAct (sp : Space) (ty : Ty) (n regs : Nat) (ext : Nat → Nat) (elemOk : Bool) (d base idx : Opnd)
    (off : BitVec 20) : Act := fun iss g s => do
  let as ← laneAddrs sp g iss base idx off
  let xs := trimFormat (accesses s iss.key g sp n .r as)
  awaitPages xs
  raiseFaults Acc.r.bits (byteFaults xs ++ loadFormat elemOk xs ++ lockFaults s iss.key g false xs)
  let p ← needPart s iss
  let elem := fun (x : LaneAccess) => x.entry.bind fun e => if e.fmt != 0 then some e else none
  let needs := xs.flatMap fun x =>
    match elem x with
    | none => x.places.map (·.1)
    | some e => elemPlaces p e (x.gen % 2 ^ 16)
  loadRoom g
  match hostNeeds s iss.key needs with
  | r :: rs => .error (.remote [] (r :: rs) (ordersOf xs))
  | [] =>
    let s := s.drainBehind iss.key (ordersOf xs)
    let g := s.groupNow iss.key g
    let vals := xs.map fun x =>
      let v := match elem x with
        | none =>
          let v := readPlaces s iss.key g x.places
          (ext v.1, v.2)
        | some e => loadElem s iss.key g p e x.gen ty
      (x.lane, x.gen, v)
    let cost := (xs.map fun x => (x.places.head?).elim 0 fun pl => memCost pl.1.phys n).foldl (· + ·) 0
    let s := (s.dropReturned (.group iss.key)).charge (partOf iss.key) g.pasid cost
    return s.setGroup iss.key (g.raiseLoad (sectorsOf d regs vals))

/-- A lane's bytes to store: the places and the bytes. -/
structure LaneStore where
  lane : Nat
  gen : Nat
  places : List Place
  bytes : List Byte
  pois : Bool
  /-- The memory type of the page, 0 where it has none (R177). -/
  mtype : Nat
deriving Repr

/-- Buffered bytes of stores (R184). -/
def bufOf (x : LaneStore) : List BufByte :=
  (List.zip x.places x.bytes).zipIdx.map fun ((pl, b), k) => ⟨x.lane, k == 0, pl.phys, b, x.pois, pl.vpage, pl.range, x.mtype⟩

/-- The distinct 128-byte lines of a buffer. -/
def bufLines (bs : List BufByte) : List Nat := (bs.map fun b => b.addr / 128).eraseDups

/-- The bytes of several lanes' stores: of lanes that store to one byte in one instruction the highest-numbered one's alone
(R201). -/
def storesOf (xs : List LaneStore) : List BufByte :=
  let all := xs.flatMap bufOf
  all.filter fun b => !all.any fun c => c.addr == b.addr && decide (b.lane < c.lane)

/-- Region-overflow: the lanes whose stores would take the group beyond 64 lines (R184). -/
def overflowFaults (g : Group) (xs : List LaneStore) : List LaneFault :=
  xs.filterMap fun x =>
    let upTo := xs.filter fun y => decide (y.lane ≤ x.lane)
    if 64 < (bufLines (g.buf ++ upTo.flatMap bufOf)).length then some ⟨x.lane, 0x0A, x.gen, 0⟩ else none

/-- Bytes with their physical addresses, cut where the next one does not follow. -/
def cutRuns : List (Nat × Byte) → List (Nat × List Byte)
  | [] => []
  | (a, b) :: l =>
    match cutRuns l with
    | (c, bs) :: rest => if c = a + 1 then (a, b :: bs) :: rest else (a, [b]) :: (c, bs) :: rest
    | [] => [(a, [b])]

/-- Lanes' direct stores: each lane's bytes at their own places, in lane order, and the last one stays (R201, R402). -/
def directStores (s : State) (part pasid : Nat) (xs : List LaneStore) : State :=
  xs.foldl (fun s x =>
    (cutRuns (List.zip (x.places.map (·.phys)) x.bytes)).foldl (fun s (a, bs) =>
      (s.store a bs x.pois).charge part pasid (memCost a bs.length)) s) s

/-- Whether a place lies in the issuing team's own local store. -/
def ownLocal (g : Group) (pl : Place) : Bool :=
  match g.team with
  | none => false
  | some t => decide (localAddr t 0 ≤ pl.phys) && decide (pl.phys < localAddr t (2 ^ 20))

/-- Token-required for a store outside the team's own local store (R321). (DEDUCED: log entry 32) -/
def tokenFaults (s : State) (key : Nat) (g : Group) (xs : List LaneAccess) : List LaneFault :=
  if s.lacksToken key g then
    xs.filterMap fun x =>
      if x.places.any fun (pl, _) => !ownLocal g pl then some ⟨x.lane, 0x13, x.gen, 0⟩ else none
  else []

/-- The bytes that a lane's store puts on its page: its low bytes, or the code of an E4M3 or E5M2 page (R269). -/
def storeBytes (x : LaneAccess) (n v : Nat) : List Byte :=
  match x.entry.elim 0 (·.fmt) with
  | 1 => leBytes 1 (Fmt.e4m3.round (Fmt.f32.value v) .rne true)
  | 2 => leBytes 1 (Fmt.e5m2.round (Fmt.f32.value v) .rne true)
  | _ => leBytes n v

/-- The format faults of a store: f32 alone on E4M3 and E5M2 pages, and partial-block-store for f32 to a block format
(R176, R402). -/
def storeFormat (ok : Bool) (xs : List LaneAccess) : List LaneFault :=
  xs.filterMap fun x =>
    let fmt := x.entry.elim 0 (·.fmt)
    if fmt = 0 then (if x.entries.any (·.fmt != 0) then some ⟨x.lane, 0x04, x.gen, 0⟩ else none)
    else if !ok then some ⟨x.lane, 0x04, x.gen, 0⟩
    else if 3 ≤ fmt then some ⟨x.lane, 0x08, x.gen, 0⟩
    else none

/-- Whether a lane's store is held in the region store buffer (R184). -/
def LaneStore.held (x : LaneStore) (sp : Space) : Bool := sp != .spill && !(x.places.all fun pl => isLocal pl.phys)

/-- The lanes' stores of one instruction, checked and made: buffered for die store and paged memory, direct for local
store and spill window (R402, R184). -/
def putStores (iss : Issue) (g : Group) (s : State) (sp : Space) (fs : List LaneFault) (ws : List LaneStore) :
    Except Trap State := do
  let ok := ws.filter fun w => !fs.any (·.lane == w.lane)
  raiseFaults Acc.w.bits (fs ++ overflowFaults g (ok.filter (·.held sp)))
  let g := { g with buf := putBytes g.buf (storesOf (ws.filter (·.held sp))), touched := true, progress := true }
  return (directStores s (partOf iss.key) g.pasid (ws.filter fun w => !w.held sp)).setGroup iss.key g

/-- The store of every executing lane (R402). -/
def storeAct (sp : Space) (n : Nat) (data : Group → Nat → Val) (elemOk : Bool) (base idx : Opnd) (off : BitVec 20) :
    Act := fun iss g s => do
  let as ← laneAddrs sp g iss base idx off
  let xs := trimFormat (accesses s iss.key g sp n .w as)
  awaitPages xs
  let tok := if sp = .generic ∨ sp = .die then tokenFaults s iss.key g xs else []
  putStores iss g s sp (byteFaults xs ++ storeFormat elemOk xs ++ lockFaults s iss.key g true xs ++ tok)
    (xs.map fun x =>
      let v := data g x.lane
      ⟨x.lane, x.gen, x.places.map (·.1), storeBytes x n v.1, v.2, x.entry.elim 0 (·.mtype)⟩)

end Sys2Proof.Machine
end

