-- ==== Sys2Proof/Machine/Quantise.lean ====
section
/-! DEFINITION. The noise-shaping store: the recurrence, QST, and the residue moves (R290 to R297, R268). -/

namespace Sys2Proof.Machine

/-- The greatest finite magnitude of the element format of a page format, as an integer (R290). -/
def elementMax (f : PFmt) : Nat :=
  match f with
  | .e2m1b32 | .e2m1b32x => 6
  | .e5m2 => 57344
  | _ => 448

/-- A value clamped to ±lim (R290). -/
def clampVal (v lim : FVal) : FVal :=
  if lim.lt v.abs then (if v.neg? then lim.negate else lim) else v

/-- shape_element of R290 on the bits of the input and of the carried residue: the code and the next residue. With a residue
that is not a number, which can come only from memory, an E4M3 or E5M2 element is the canonical NaN (R262, R266); the manual
gives an E2M1 element no code and the residue no clamped value then, so these are free values. (DESIGN CHOICE: log entry 20) -/
def shapeElement (f : PFmt) (fcode x c e ex : Nat) : Nat × Nat :=
  let xv := Fmt.f32.value x
  let cv := Fmt.f32.value c
  let v := xv.add .rne cv
  let s : Int := (e : Int) - 127
  let lim := (FVal.fin false (elementMax f) 0).scale s
  let next := fun (q : FVal) =>
    let d := v.add .rne q.negate
    if v.isFin && !d.isZero then Fmt.f32.round (clampVal (Fmt.f32.value (Fmt.f32.round d .rne false)) lim) .rne false
    else 0
  if f.isBlock && e = 0xFF then (0, 0)
  else if xv.isNan then (if f = .e5m2 then Fmt.e5m2.qnan else Fmt.e4m3.qnan, 0)
  else if v.isNan then
    let w := (Config.shapedNan fcode x c).toNat
    (if f.isNibble then w % 16 else if f = .e5m2 then Fmt.e5m2.qnan else Fmt.e4m3.qnan,
     w / 2 ^ 32 % 2 ^ 32)
  else if f.isBlock then
    let code := blockCode f v e ex
    (code, next (blockValue f code e ex))
  else
    let fm := if f = .e5m2 then Fmt.e5m2 else Fmt.e4m3
    let code := fm.round v .rne true
    (code, next (fm.value code))

/-- An element of a chain: its input with poison; none where its lane does not execute or it lies out of bounds. -/
structure ShapeIn where
  x : Option Val
  e : Nat
  ex : Nat

/-- A chain converted in order: each element's code with its poison, and the last residue (R290, R291). -/
def shapeChain (f : PFmt) (fcode : Nat) : Val → List ShapeIn → List (Option Val) × Val
  | c, [] => ([], c)
  | c, i :: is =>
    match i.x with
    | none =>
      let (out, last) := shapeChain f fcode c is
      (none :: out, last)
    | some x =>
      let (code, c') := shapeElement f fcode x.1 c.1 i.e i.ex
      let p := x.2 || c.2
      let (out, last) := shapeChain f fcode (c', p) is
      (some (code, p) :: out, last)

/-- The order of a residue register's chains: LANE (R293). -/
def Group.axisLane (g : Group) (k : Nat) : Bool := bit g.axis (2 * k)

/-- The edge: CARRY (R293). -/
def Group.axisCarry (g : Group) (k : Nat) : Bool := bit g.axis (2 * k + 1)

/-- The register and lane of element j of a QST of n registers (R293). -/
def qstPlace (lane : Bool) (n j : Nat) : Nat × Nat := if lane then (j / 32, j % 32) else (j % n, j / n)

/-- The chains as lists of element numbers (R293). -/
def qstChains (lane : Bool) (n : Nat) : List (Nat × List Nat) :=
  if lane then [(0, List.range (32 * n))] else laneIds.map fun i => (i, (List.range n).map (i * n + ·))

/-- The input of element j: none where its lane does not execute. -/
def qstInput (g : Group) (lanes : Nat) (lane : Bool) (n : Nat) (src : Opnd) (j : Nat) : Option Val :=
  let (r, i) := qstPlace lane n j
  if bit lanes i then
    let v := regOf g i src r
    some (v.bits.toNat, v.pois)
  else none

/-- What a QST computes: the code of every element, the scale and extra bytes of every block, and the residue registers
(R295). -/
structure Shaped where
  codes : Tbl (Option Val)
  scales : List (Nat × Nat)
  residues : Tbl Val

/-- The conversion of a QST (R295). -/
def qstShape (g : Group) (lanes : Nat) (f : PFmt) (fcode n k : Nat) (src : Opnd) : Shaped :=
  let lane := g.axisLane k
  let input := qstInput g lanes lane n src
  let scales := (List.range n).map fun b =>
    let vs := ((List.range 32).filterMap fun t => input (32 * b + t)).map fun v => Fmt.f32.value v.1
    let e := if f.isBlock then blockScale f vs else 0x7F
    (e, if f = .e2m1b32x then blockExtra vs e else 0)
  let done := (qstChains lane n).map fun (h, js) =>
    let c := read32 g h (.e k)
    let ins := js.map fun j =>
      let (e, x) := scales.getD (j / 32) (0, 0)
      (⟨input j, e, x⟩ : ShapeIn)
    let (out, last) := shapeChain f fcode c ins
    (h, List.zip js out, if g.axisCarry k then last else (0, false))
  { codes := (List.range (32 * n)).map fun j => (j, (done.findSome? fun d => (d.2.1.find? (·.1 == j)).map (·.2)).getD none)
    scales := scales
    residues := (done.filter fun d => lane || bit lanes d.1).map fun d => (d.1, d.2.2) }

/-- The writes of a QST in footprint order: whole blocks, or executing lanes' elements. A block's write is held for the
lowest executing lane of its block. -/
def qstStores (p : Part) (entries : List TlbEntry) (lanes : Nat) (lane : Bool) (f : PFmt)
    (n a0 : Nat) (sh : Shaped) : List LaneStore :=
  let low := lowLane lanes
  let entryOf := fun (a : Nat) => entries.find? fun t => t.vpage == a / 2 ^ 16
  if f.isBlock then
    (List.range n).filterMap fun b =>
      let a := a0 + 32 * b
      match entryOf a with
      | none => none
      | some t =>
        let js := (List.range 32).map (32 * b + ·)
        let code := fun j => ((tget sh.codes j none).getD (0, false)).1
        let pois := js.any fun j => ((tget sh.codes j none).getD (0, false)).2
        let held := js.filterMap fun j => if (tget sh.codes j none).isSome then some (qstPlace lane n j).2 else none
        let (sc, ex) := sh.scales.getD b (0, 0)
        let datas : List (Place × Byte) := if f.isNibble
          then (List.range 16).map fun t2 =>
            (t.place p ((a % 2 ^ 16) / 2 + t2), BitVec.ofNat 8 (code (32 * b + 2 * t2) + 16 * code (32 * b + 2 * t2 + 1)))
          else js.map fun j => (t.place p (a % 2 ^ 16 + (j - 32 * b)), BitVec.ofNat 8 (code j))
        let sides : List (Place × Byte) := (List.zip ((elemPlaces p t (a % 2 ^ 16)).drop 1) [sc, ex]).map fun (pl, v) => (pl, BitVec.ofNat 8 v)
        let all := datas ++ sides
        some ⟨held.foldl min (held.headD low), a, all.map (·.1), all.map (·.2), pois, 0⟩
  else
    (List.range (32 * n)).filterMap fun j =>
      match tget sh.codes j none, entryOf (a0 + j) with
      | some (c, pois), some t => some ⟨(qstPlace lane n j).2, a0 + j, [t.place p ((a0 + j) % 2 ^ 16)], [BitVec.ofNat 8 c], pois, 0⟩
      | _, _ => none

/-- The faults of a footprint beyond translation: formats, whole blocks, range locks, the token (R296, R176, R321). -/
def qstFaults (s : State) (key : Nat) (g : Group) (x : LaneAccess) : List LaneFault :=
  let fmts := (x.places.map fun (_, e) => e.elim 0 (·.fmt)).eraseDups
  let f := pfmtOf (fmts.headD 0)
  (if fmts.contains 0 || 1 < fmts.length then
    (x.bytes.zipIdx.filterMap fun (b, k) =>
      match b with
      | .ok (_, e) => if e.elim 0 (·.fmt) = 0 || 1 < fmts.length then some (⟨x.lane, 0x04, x.gen + k, 0⟩ : LaneFault) else none
      | .error _ => none).take 1
   else if f.isBlock && x.gen % 32 != 0 then [⟨x.lane, 0x08, x.gen, 0⟩] else []) ++
  lockFaults s key g true [x] ++ tokenFaults s key g [x]

/-- QST (R294 to R296): every executing lane names the same footprint. -/
def qstAct (k lg : Nat) (d base idx : Opnd) (off : BitVec 20) : Act := fun iss g s => do
  let as ← laneAddrs .generic g iss base idx off
  let a0 := (as.head?.elim 0 (·.2))
  let n := 2 ^ lg
  let x := (accesses s iss.key g .generic (32 * n) .w [(lowLane iss.lanes, a0)]).headD ⟨0, a0, []⟩
  awaitPages [x]
  let all := fun (fs : List LaneFault) => fs.flatMap fun f => (lanesOf iss.lanes).map fun i => { f with lane := i }
  let p ← needPart s iss
  raiseFaults Acc.w.bits (all (byteFaults [x] ++ qstFaults s iss.key g x))
  let f := pfmtOf (x.entry.elim 0 (·.fmt))
  let sh := qstShape g iss.lanes f (x.entry.elim 0 (·.fmt)) n k d
  let ws := qstStores p x.entries.eraseDups iss.lanes (g.axisLane k) f n a0 sh
  let buf := putBytes g.buf (ws.flatMap bufOf)
  require (decide ((bufLines buf).length ≤ 64)) (.at_ 0x0A Acc.w.bits iss.lanes a0)
  let g := sh.residues.foldl (fun g (i, v) => setReg g i (.e k) 0 ⟨BitVec.ofNat 32 v.1, v.2⟩) g
  return s.setGroup iss.key { g with buf := buf, touched := true, progress := true }

/-- QST. -/
def execQst (k lg : Nat) (_cache : Cache) (d base idx : Opnd) (off : BitVec 20) (s : State) :
    Host.Outcome State Fault Refusal := runAct (qstAct k lg d base idx off) s

/-- The index of a residue register. -/
def residueNo : Opnd → Nat
  | .e k => k
  | _ => 0

/-- QAXIS: the group's axis state of a residue register (R297, R293). -/
def qaxisAct (lane carry : Bool) (d : Opnd) : Act := fun iss g s =>
  let k := residueNo d
  let rest := g.axis - 2 ^ (2 * k) * (g.axis / 2 ^ (2 * k) % 4)
  .ok (s.setGroup iss.key { g with axis := rest + 2 ^ (2 * k) * (b2n lane + 2 * b2n carry) })

/-- QAXIS. -/
def execQaxis (lane carry : Bool) (d : Opnd) (s : State) : Host.Outcome State Fault Refusal :=
  runAct (qaxisAct lane carry d) s

/-- QCLR: +0, clean (R297). -/
def execQclr (d : Opnd) (s : State) : Host.Outcome State Fault Refusal :=
  runAct (fun iss g s => finish iss s g 1 d ((lanesOf iss.lanes).map fun i => (i, (0, false)))) s

/-- QGET: the residue with its poison (R297). -/
def execQget (d a : Opnd) (s : State) : Host.Outcome State Fault Refusal := runAct (alu1 d 1 .f32 1 a id) s

/-- QSET: a finite value, or +0 for any other; poison is copied (R297). -/
def execQset (d a : Opnd) (s : State) : Host.Outcome State Fault Refusal :=
  runAct (alu1 d 1 .f32 1 a fun v => if (Fmt.f32.value v).isFin then v else 0) s

end Sys2Proof.Machine
end

