-- ==== Sys2Proof/Machine/Queue.lean ====
section
/-! DEFINITION. Tasks made by programs and their queues: core queues and spill pools, queue handles, SPAWN's enqueue,
and the tasks of bisection pools (R137, R140, R143 to R145, R288, R317, R318, R320, R378). -/

namespace Sys2Proof.Machine

/-- A core's queue. -/
def State.coreSt (s : State) (ck : Nat) : CoreSt := tget s.cores ck CoreSt.empty

/-- A core's queue changed. -/
def State.modCore (s : State) (ck : Nat) (f : CoreSt → CoreSt) : State :=
  { s with cores := tput CoreSt.empty ck (f (s.coreSt ck)) s.cores }

/-- The entries of a quarter's cores that lie in its spill pool (R143). -/
def State.spilled (s : State) (part rank : Nat) : Nat :=
  ((List.range 16).map fun k => (s.coreSt (part * 256 + 16 * rank + k)).queue.length - 256).foldl (· + ·) 0

/-- Whether a core's queue takes one more task (R143). -/
def State.queueRoom (s : State) (ck : Nat) : Bool :=
  let n := (s.coreSt ck).queue.length
  decide (n < 256) || (decide (n < 65536) && decide (s.spilled (partOfCore ck) (vcoreOf ck / 16) < 65536))

/-- A task put at the end of a core's queue: the order of arrival. (DEDUCED: log entry 36) -/
def State.enqueue (s : State) (ck : Nat) (t : Task) : State :=
  s.modCore ck fun c => { c with queue := c.queue ++ [t] }

/-- The logical id of the task that a group creates next (R317). -/
def childLid (p made : Nat) : Nat :=
  let v := (p * 0x9E3779B97F4A7C15 + 32 * (made + 1)) % 2 ^ 64
  v % 2 ^ 63 / 32 * 32 + 2 ^ 63

/-- mix of R318. -/
def mixId (x : Nat) : Nat :=
  let x := x ^^^ (x / 2 ^ 31)
  let x := x * 0xD6E8FEB86659FD93 % 2 ^ 64
  let x := x ^^^ (x / 2 ^ 29)
  x % 2 ^ 32

/-- A list with an element put after index k. -/
def insertAfter {α : Type} (k : Nat) (a : α) (l : List α) : List α := l.take (k + 1) ++ a :: l.drop (k + 1)

/-- The ring with a created group's place: after its creator and the creator's earlier children (R320). (DEDUCED: log entry 36) -/
def ringCreate (ring : List Member) (creator pasid uid : Nat) : List Member :=
  let m : Member := ⟨uid, pasid, none, some creator, false⟩
  let at_ := (ring.zipIdx.filter fun (x, _) => x.uid == creator || x.parent == some creator).getLast?
  match at_ with
  | none => ring ++ [m]
  | some (_, k) => insertAfter k m ring

/-- A task made by a group: it takes its logical id and number, its creator has made one more, and it takes its place in
the ring (R317, R320). -/
def State.makeTask (s : State) (key : Nat) (g : Group) (t : Task) : State × Task :=
  let t := { t with lid := childLid g.logicalId g.made, uid := s.serial }
  let s := { s with serial := s.serial + 1 }
  let s := s.modGroup key fun g => { g with made := g.made + 1 }
  (s.modDet (partOf key) fun d => { d with ring := ringCreate d.ring g.uid g.pasid t.uid }, t)

/-- The template's priority of a grid. -/
def State.gridOf (s : State) (part grid : Nat) : Option Grid := (s.part? part).bind fun p => tget? grid p.grids

/-- A grid has one more task that has not ended (R135). -/
def State.gridMore (s : State) (part grid : Nat) : State :=
  s.modPart part fun p => { p with grids := tmod grid (fun g => { g with left := g.left + 1 }) p.grids }

/-- A refused enqueue: no task, the count lowered with refused +1, and class 0x0003 (R145, R136). -/
def State.refuseEnqueue (s : State) (key : Nat) (g : Group) (reason handle : Nat) : State :=
  let part := partOf key
  let s := match s.detOf part with
    | some _ => s.modDet part fun d => { d with jobEnds := d.jobEnds ++ [(g.uid, g.job, 3)] }
    | none => s.jobRefused part g.job
  s.postDue part g.uid errStream 0x0003 [reason, g.job, handle, 0, vcoreOf (coreOf key), g.pasid]

/-- The bytes of a task's record (R140). -/
def Task.bytes (t : Task) (slot0 : Nat) : List Byte :=
  let kind := match t.kind with
    | .spawn => 0 | .team => 1 | .pool => 2
  let pois := ((List.range 8).map fun i => b2n (t.args.getD i Reg.zero).pois * 2 ^ i).foldl (· + ·) 0
  let sub := match t.kind with
    | .team => t.sub
    | .spawn => pois * 2 ^ 8
    | .pool => pois * 2 ^ 8 + slot0
  leBytes 8 t.pc ++ ((List.range 8).flatMap fun i => leBytes 4 (t.args.getD i Reg.zero).bits.toNat) ++ leBytes 4 t.job ++
  leBytes 4 (kind * 2 ^ 30 + t.prio * 2 ^ 27 + b2n t.pin * 2 ^ 26 + t.grid * 2 ^ 16 + sub)

/-- Bytes written at a virtual address of a context by the part itself; what cannot be written is left out. -/
def State.writeVirtual (s : State) (part : Nat) (secure : Bool) (pasid a : Nat) (bs : List Byte) (pois : Bool) : State :=
  match s.ringPlace .ring part secure pasid a .w with
  | .ok pl => s.writeNow (some pasid) pl.key pl.phys bs pois
  | .error _ => s

/-- A task appended to a swapped-out queue's ring in memory (R145, R425): 48 bytes of record and 16 of zeros. (DEDUCED: log entry 36) -/
def State.ringAppend (s : State) (part idx : Nat) (q : Queue) (t : Task) : State :=
  let slot := (q.head + q.used) % q.size
  let secure := s.secureQuarter (s.coreQuarter q.core)
  let s := s.writeVirtual part secure q.pasid (q.ring + 64 * slot) (t.bytes 0 ++ leBytes 16 0) (t.args.any (·.pois))
  s.modPart part fun p =>
    { p with queues := tset idx { q with used := q.used + 1, tasks := q.tasks ++ [t] } p.queues }

/-- A queue handle resolved (R145): the reason of a refusal, or the queue with its index. A handle from before a destruction
is stale: reason 16. -/
def resolveHandle (p : Part) (h : Nat) : Except Nat (Nat × Queue) :=
  let idx := h % 2 ^ 10
  match tget? idx p.queues with
  | none => .error 18
  | some q =>
    if bits h 10 6 != 0 then .error 18
    else if h / 2 ^ 16 != q.gen then .error 16
    else if !q.created then .error 18
    else if q.swapped && q.used = q.size then .error 17
    else .ok (idx, q)

/-- Where a SPAWN's task goes: a refusal's reason, a core's queue, or a swapped-out queue (R378, R145, R318). -/
inductive Target where
  | refused (reason : Nat)
  | core (ck : Nat)
  | ring (idx : Nat) (q : Queue)

/-- The target of one lane's SPAWN. -/
def spawnTarget (p : Part) (part : Nat) (det queue pin : Bool) (h : Val) (lid : Nat) : Target :=
  if h.2 then .refused 19
  else if queue then
    match resolveHandle p h.1 with
    | .error r => .refused r
    | .ok (idx, q) => if q.swapped then .ring idx q else .core q.core
  else if 16 * p.quarters.length ≤ h.1 then .refused 18
  else if det && !pin then .core (part * 256 + mixId lid % (16 * p.quarters.length))
  else .core (part * 256 + h.1)

/-- One lane's SPAWN; none while the enqueue must wait (R378, R143). -/
def State.spawnOne (s : State) (key : Nat) (queue pin : Bool) (pc : Nat) (h : Val) (args : List Reg) : Option State :=
  let part := partOf key
  match s.group? key, s.part? part with
  | some g, some p =>
    let det := p.det.isSome
    let prio := (tget? g.grid p.grids).elim g.prio (·.prio)
    let t : Task := ⟨.spawn, pc / 4 % 2 ^ 54 * 4, args, g.job, prio, pin, g.grid, 0, none, 0, 0, g.pasid, 0, 0,
      if queue then some h.1 else none⟩
    match spawnTarget p part det queue pin h (childLid g.logicalId g.made) with
    | .refused r => some ((s.jobMore part g.uid g.job).refuseEnqueue key g r h.1)
    | .ring idx q =>
      let (s, t) := ((s.jobMore part g.uid g.job).gridMore part g.grid).makeTask key g t
      some (s.ringAppend part idx q t)
    | .core ck =>
      if s.queueRoom ck then
        let (s, t) := ((s.jobMore part g.uid g.job).gridMore part g.grid).makeTask key g t
        some (s.enqueue ck t)
      else none
  | _, _ => some s

/-- Lanes act in order; the lanes from the first one that must wait are left (R143, R233). -/
def inTurn (one : State → Nat → Option State) : State → List Nat → State × List Nat
  | s, [] => (s, [])
  | s, i :: is =>
    match one s i with
    | none => (s, i :: is)
    | some s => inTurn one s is

/-- SPAWN: poisoned start PCs first, the drain, then a task for each lane. Lanes whose enqueue must wait stand at the
instruction, and the group waits (R378, R143). (DEDUCED: log entry 15) -/
def spawnAct (queue pin : Bool) (d a b : Opnd) : Act :=
  committing
    (fun iss g s => do
      noPoison g iss [(d, 2, 1)]
      needToken s iss g 0
      return s)
    fun iss g s =>
      let one := fun s i => State.spawnOne s iss.key queue pin (read64 g i d).1 (read32 g i a) ((List.range 8).map (regOf g i b))
      let (s, left) := inTurn one s (lanesOf iss.lanes)
      if left.isEmpty then .ok s
      else .ok (s.modGroup iss.key fun g =>
        (g.eachLane (maskOfList left) fun _ l => { l with pc := iss.pc, must := .nothing }).stallAll .enqueue)

/-- SPAWN. -/
def execSpawn (queue pin : Bool) (d a b : Opnd) (s : State) : Host.Outcome State Fault Refusal :=
  runAct (spawnAct queue pin d a b) s

/-- A stalled enqueue proceeds: the group issues its SPAWN again for the lanes that are left. (DEDUCED: log entry 15) -/
def enqueueResume (g : Nat) (s : State) : State :=
  s.modGroup g fun gr => { gr with lanes := gr.lanes.map fun l => if l.wait == .enqueue then { l with wait := .none } else l }

/-- ENQUEUE_RESUME (R143). -/
def execEnqueueResume (g : Nat) (s : State) : Host.Outcome State Fault Refusal := runStep (enqueueResume g) s

/-! Bisection pools. -/

/-- The free entries of a team's pool (R286's room). -/
def poolRoom (t : Team) : Nat :=
  if t.pb = 0 || bit t.pbusy t.pf then 0
  else
    let free := ((List.range (t.pb - 1)).map fun k => (t.pf + 1 + k) % t.pb).takeWhile fun j => !bit t.pbusy j
    32 - t.pn + 32 * free.length

/-- make_pool_task (R288): the batch is busy, a task is made and enqueued at the team's core, and the next batch fills.
The spill pool's limit is not met: a POOL task waits like any other (R143). -/
def State.makePoolTask (s : State) (key serial k : Nat) : State :=
  match s.group? key, tget? serial s.teams with
  | some g, some t =>
    let part := partOf key
    let grid? := s.gridOf part t.grid
    let s := s.modTeam serial fun t =>
      { t with pbusy := if bit t.pbusy t.pf then t.pbusy else t.pbusy + 2 ^ t.pf, pf := (t.pf + 1) % (max 1 t.pb), pn := 0,
               attached := t.attached + 1 }
    let w := fun (v : Nat) => (⟨BitVec.ofNat 32 v, false⟩ : Reg)
    let args := [w (t.poff + 512 * t.pf), w k] ++ (List.range 6).map fun i => tget g.w (i + 2) Reg.zero
    let task : Task := ⟨.pool, t.entry, args, t.job, grid?.elim t.prio (·.prio), true, t.grid, 0, some serial, t.pf, k,
      t.pasid, 0, 0, none⟩
    let (s, task) := ((s.jobMore part g.uid t.job).gridMore part t.grid).makeTask key g task
    s.enqueue (t.part * 256 + t.core) task
  | _, _ => s

/-- An entry appended to the filling batch, with each word's own poison; a full batch makes its task (R286). -/
def State.poolAppend (s : State) (key serial : Nat) (words : List Reg) : State :=
  match tget? serial s.teams with
  | none => s
  | some t =>
    let a := localAddr serial (t.poff + 512 * t.pf + 16 * t.pn)
    let s := words.zipIdx.foldl (fun s (r, k) => s.store (a + 4 * k) (leBytes 4 r.bits.toNat) r.pois) s
    let s := s.modTeam serial fun t => { t with pn := t.pn + 1 }
    if t.pn + 1 = 32 then s.makePoolTask key serial 32 else s

end Sys2Proof.Machine
end

