-- ==== Sys2Proof/Machine/Setts.lean ====
section
/-! DEFINITION. Setts and barriers: the sett operands, what every operation does to the words, SWAIT, the barriers, and
the binding table (R197, R198, R221 to R229, R314, R407 to R411). -/

namespace Sys2Proof.Machine

/-- A sett that a lane names: its physical address and its generic address. -/
structure SettRef where
  lane : Nat
  phys : Nat
  gen : Nat
deriving DecidableEq, Repr

/-- A sett operand decoded (R223). An address whose space or bits are refused has no generic address of its own: the
fault names the operand's value. -/
def settOf (s : State) (key : Nat) (g : Group) (v : Nat) : Except (Nat × Nat) (Nat × Nat) :=
  let ck := coreOf key
  let low := v % 2 ^ 30
  match v / 2 ^ 30 with
  | 0 =>
    let gen := localGeneric (vcoreOf ck) low
    if low % 32 = 0 ∧ low < 2 ^ 20 ∧ low + 32 ≤ s.lstoreOf g then .ok (localAddr (g.team.getD 0) low, gen)
    else .error (0x09, gen)
  | 1 =>
    let die := dieOf (s.coreQuarter ck)
    let gen := 0xFD * 2 ^ 48 + die * 2 ^ 27 + low
    if low % 32 = 0 ∧ low < 2 ^ 27 then
      match s.part? (partOf key) with
      | none => .error (0x09, gen)
      | some p =>
        match s.dieByte p (s.secureQuarter (s.coreQuarter ck)) die low false with
        | .ok pl => .ok (pl.phys, gen)
        | .error (.flt c _) => .error (c, gen)
        | .error _ => .error (0x09, gen)
    else .error (0x09, gen)
  | 2 =>
    let rank := bits v 24 4
    let off := v % 2 ^ 20
    match s.teamOf g with
    | none => .error (0x09, v)
    | some t =>
      let k := s.clusterSize t
      match (s.clusterTeams t).find? fun (_, u) => u.idx % k == rank with
      | none => .error (0x09, v)
      | some (serial, u) =>
        let gen := localGeneric (vcoreOf u.core) off
        if off % 32 = 0 ∧ bits v 28 2 = 0 ∧ bits v 20 4 = 0 ∧ rank < k ∧ off + 32 ≤ u.lstore then
          .ok (localAddr serial off, gen)
        else .error (0x09, gen)
  | _ => .error (0x09, v)

/-- The setts of the executing lanes (R223, R400): poison-use with use 3, then permission, then window-bound. (DEDUCED: log entry 32) -/
def settRefs (s : State) (iss : Issue) (g : Group) (o : Opnd) : Except Trap (List SettRef) := do
  noPoison g iss [(o, 1, 3)]
  let got := (vals32 g iss o).map fun (i, v) => (i, settOf s iss.key g v)
  let bad : List LaneFault := got.filterMap fun (i, r) =>
    match r with
    | .error (c, a) => some ⟨i, c, a, 0⟩
    | .ok _ => none
  let held := bad.filter (·.code ≤ 6)
  if !held.isEmpty then .error (.abort (missedOf Acc.a.bits held))
  else raiseFaults 0 bad
  return got.filterMap fun (i, r) =>
    match r with
    | .ok (p, a) => some ⟨i, p, a⟩
    | .error _ => none

/-- The operations on a sett (R225). -/
inductive SettOp where
  | init (kind target : Nat)
  | arr (n : Nat)
  | exp (n : Nat)
  | try_ (g : Nat)
  | acq
  | rel
deriving DecidableEq, Repr

/-- Word k of a sett. -/
def State.settWord (s : State) (a k : Nat) : Nat := s.readNat (a + 4 * k) 4

/-- Word k of a sett written. -/
def State.setSettWord (s : State) (a k v : Nat) : State := s.setBytes (a + 4 * k) (leBytes 4 v)

/-- The generation of a sett. -/
def State.settGen (s : State) (a : Nat) : Nat := s.settWord a 0

/-- The kind of a sett (R221). -/
def State.settKind (s : State) (a : Nat) : Nat := s.settWord a 3 % 2 ^ 16

/-- The generations that settle completes, for words generation, target, count: the new three (R225's settle). -/
def settleWords (kind gen target count : Nat) : Nat × Nat × Nat :=
  if target = 0 ∨ count < target then (gen, target, count)
  else if kind = 3 then ((gen + 1) % 2 ^ 32, 0, count - target)
  else if kind = 2 then ((gen + count / target) % 2 ^ 32, target, count % target)
  else (gen, target, count)

/-- settle (R225). -/
def State.settle (s : State) (a : Nat) : State :=
  let (g, t, c) := settleWords (s.settKind a) (s.settWord a 0) (s.settWord a 1) (s.settWord a 2)
  ((s.setSettWord a 0 g).setSettWord a 1 t).setSettWord a 2 c

/-- The holder's number of a lock: virtual core × 48 + group slot (R221). -/
def ownerOf (key : Nat) : Nat := key % (256 * 48)

/-- An operation on a sett at its home: the new state and STRY's answer, or the fault's code: sett-misuse, or poison-use
of the contents (R223, R225). -/
def settDo (s : State) (owner a gen : Nat) (op : SettOp) : Except Nat (State × Bool) :=
  let kind := s.settKind a
  if s.poisonAt a 32 then .error 0x23
  else match op with
  | .init k t =>
    if (k = 1 ∧ t ≠ 0) ∨ (k = 2 ∧ t = 0) then .error 0x0C
    else .ok (s.setBytes a (leBytes 4 0 ++ leBytes 4 t ++ leBytes 4 0 ++ leBytes 4 k ++ leBytes 8 gen ++ leBytes 8 0), false)
  | .arr n =>
    if kind = 3 ∨ (kind = 2 ∧ s.settWord a 1 ≠ 0) then
      .ok ((s.setSettWord a 2 ((s.settWord a 2 + n) % 2 ^ 32)).settle a, false)
    else .error 0x0C
  | .exp n =>
    if kind = 3 then .ok ((s.setSettWord a 1 ((s.settWord a 1 + n) % 2 ^ 32)).settle a, false) else .error 0x0C
  | .try_ g =>
    if kind = 1 then
      if bit (s.settWord a 3) 31 then .ok (s, false)
      else .ok (s.setSettWord a 3 (2 ^ 31 + owner * 2 ^ 16 + kind), true)
    else .ok (s, s.settGen a != g)
  | .acq => .ok (s, false)
  | .rel =>
    if kind = 1 then
      if bit (s.settWord a 3) 31 && bits (s.settWord a 3) 16 15 = owner then .ok (s.setSettWord a 3 kind, false)
      else .error 0x0C
    else .ok (s, false)

/-- The fault of lanes whose sett operations are refused, the code that stands first in R329. (DEDUCED: log entry 32) -/
def settTrap (bad : List (Nat × Nat × Nat)) : Option Trap :=
  let code := if bad.any (·.2.1 == 0x0C) then 0x0C else 0x23
  match bad.filter (·.2.1 == code) with
  | [] => none
  | (i, c, gen) :: rest =>
    let m := maskOfList (i :: rest.map (·.1))
    some (if c = 0x0C then .at_ 0x0C 0 m gen else .poison m (lo32 gen) 4)

/-- Lanes' operations on their setts, in order; none takes effect when one is refused (R224, R328). -/
def settRun (s : State) (key : Nat) (ops : List (SettRef × SettOp)) : Except Trap (State × Tbl Bool) :=
  let (s, out, bad) := ops.foldl (fun (s, out, bad) (r, op) =>
    match settDo s (ownerOf key) r.phys r.gen op with
    | .ok (s, v) => (s, out ++ [(r.lane, v)], bad)
    | .error c => (s, out, bad ++ [(r.lane, c, r.gen)])) (s, [], [])
  match settTrap bad with
  | none => .ok (s, out)
  | some t => .error t

/-- Whether a sett is at home in the local store of the group's team; elsewhere its operations wait for the boundary in
deterministic mode (R313, R314). -/
def homeSett (g : Group) (a : Nat) : Bool := ownLocal g ⟨a, 0, none, none⟩

/-- The number and the argument of a deferred operation. -/
def settOpCode : SettOp → Nat × Nat × Nat
  | .init k t => (0, k, t)
  | .arr n => (1, 0, n)
  | .exp n => (2, 0, n)
  | .try_ g => (3, 0, g)
  | .acq => (4, 0, 0)
  | .rel => (5, 0, 0)

/-- The operation of a deferred entry. -/
def settOpOf (d : DeferredSett) : SettOp :=
  match d.op with
  | 0 => .init d.kind d.val
  | 1 => .arr d.val
  | 2 => .exp d.val
  | 3 => .try_ d.val
  | 4 => .acq
  | _ => .rel

/-- The generic address of a sett's physical address. -/
def State.settGeneric (s : State) (a : Nat) : Nat :=
  if isLocal a then
    let t := (a - localBase) / 2 ^ 20
    localGeneric (vcoreOf ((tget? t s.teams).elim 0 (·.core))) (a % 2 ^ 20)
  else 0xFD * 2 ^ 48 + (a - dieStoreBase)

/-- A group waits from the issue of an operation on a distant sett until the boundary (R314). -/
def Group.awaitBoundary (g : Group) : Group := { g with distant := true }

/-- The predicate number of an operand. -/
def predNo : Opnd → Nat
  | .p k => k
  | _ => 0

/-- Sett operations with the answers of STRY as variable-latency results (R411, R399). Those on distant setts are
deferred in deterministic mode. -/
def settAct (pd : Option Opnd) (a : Opnd) (operand : Option Opnd) (imm : Group → Nat → SettOp) : Act :=
  fun iss g s => do
  noPoison g iss ((a :: operand.toList).map fun o => (o, 1, 3))
  let refs ← settRefs s iss g a
  if pd.isSome then loadRoom g
  let det := (s.detOf (partOf iss.key)).isSome
  let far := refs.filter fun r => det && !homeSett g r.phys
  let near := refs.filter fun r => !(det && !homeSett g r.phys)
  let (s, out) ← settRun s iss.key (near.map fun r => (r, imm g r.lane))
  let s := if far.isEmpty then s
    else (s.modDet (partOf iss.key) fun d => { d with setts := d.setts ++ far.map fun r =>
      let (op, k, v) := settOpCode (imm g r.lane)
      ⟨iss.key, g.uid, r.lane, iss.pc, op, k, r.phys, v, (pd.elim 0 predNo)⟩ })
  let g := match pd with
    | none => g
    | some p => if out.isEmpty then g else g.raiseLoad (out.map fun (i, v) => pendOf i p 1 (triNum (triOf v), false))
  return s.setGroup iss.key (if far.isEmpty then g else g.awaitBoundary)

/-- A 32-bit operand's value in a lane. -/
def val32 (o : Opnd) (g : Group) (i : Nat) : Nat := (read32 g i o).1

/-- SINIT writes all eight words of the sett (R225). -/
def execSinit (kind : SettKind) (a b : Opnd) (s : State) : Host.Outcome State Fault Refusal :=
  let k := match kind with
    | .lock => 1 | .bar => 2 | .bytes => 3
  runAct (settAct none a (some b) fun g i => .init k (val32 b g i)) s

/-- SARR releases, counts and settles; a commit instruction (R225, R410). -/
def execSarr (_scope : Scope) (a b : Opnd) (s : State) : Host.Outcome State Fault Refusal :=
  let act := settAct none a (some b) fun g i => .arr (val32 b g i)
  runAct (committing (fun iss g s => act iss g s >>= fun _ => .ok s) act) s

/-- SEXP raises the target and settles (R225). -/
def execSexp (a b : Opnd) (s : State) : Host.Outcome State Fault Refusal :=
  runAct (settAct none a (some b) fun g i => .exp (val32 b g i)) s

/-- STRY (R225). -/
def execStry (pd a b : Opnd) (s : State) : Host.Outcome State Fault Refusal :=
  runAct (settAct (some pd) a (some b) fun g i => .try_ (val32 b g i)) s

/-- ACQ: the acquire itself has nothing to void in a model without cached copies (R197, R409). -/
def execAcq (_scope : Scope) (a : Opnd) (s : State) : Host.Outcome State Fault Refusal :=
  runAct (settAct none a none fun _ _ => .acq) s

/-- REL: a commit instruction; a lock that the group holds is freed (R225, R409). -/
def execRel (_scope : Scope) (a : Opnd) (s : State) : Host.Outcome State Fault Refusal :=
  let act := settAct none a none fun _ _ => .rel
  runAct (committing (fun iss g s => act iss g s >>= fun _ => .ok s) act) s

/-! SWAIT. -/

/-- The clocks that JOIN and SWAIT count: clocks on the core, or turns in deterministic mode, which the group's counter
of resident clocks counts there (R155, R226). (DEDUCED: log entry 30) -/
def Group.ticks (g : Group) : Nat := g.resident

/-- A waiting lane leaves SWAIT with a value of its predicate (R226). -/
def Lane.leaveSwait (l : Lane) (pd : Nat) (v : Tri) : Lane :=
  { l with wait := .none, pc := l.pc + 12, p := if pd = 0 then l.p else tput PReg.f pd ⟨v, false⟩ l.p }

/-- SWAIT: lanes whose condition holds write T and go on; the others wait at the instruction. In deterministic mode a
distant sett is looked at only at boundaries (R226, R314). -/
def swaitAct (pd a b : Opnd) (t : BitVec 28) : Act := fun iss g s => do
  noPoison g iss [(a, 1, 3), (b, 1, 3)]
  let refs ← settRefs s iss g a
  let det := (s.detOf (partOf iss.key)).isSome
  let far := fun (r : SettRef) => det && !homeSett g r.phys
  let bad := refs.filterMap fun r =>
    if far r then none
    else if s.poisonAt r.phys 32 then some (r.lane, 0x23, r.gen)
    else if s.settKind r.phys = 1 then some (r.lane, 0x0C, r.gen) else none
  match settTrap bad with
  | some tr => .error tr
  | none =>
    let g := refs.foldl (fun g r =>
      let e := val32 b g r.lane
      if !far r && s.settGen r.phys != e then writePred g r.lane pd .T false
      else g.setLane r.lane fun l => { l with pc := iss.pc, wait := .swait r.phys e g.ticks t.toNat (predNo pd) }) g
    return s.setGroup iss.key (if refs.any far then g.awaitBoundary else g)

/-- SWAIT (R226). -/
def execSwait (pd a b : Opnd) (t : BitVec 28) (s : State) : Host.Outcome State Fault Refusal :=
  runAct (swaitAct pd a b t) s

/-- The timeouts of a group that have passed, for waits on the setts that a test names (R155, R226). -/
def Group.timeouts (g : Group) (key : Nat) (here : Nat → Bool) : List Turn :=
  (g.joins.filterMap fun (j : Join) =>
    if j.limit != 0 && decide (j.since + j.limit ≤ g.ticks) then some (.event (.joinTimeout key j.pc)) else none) ++
  laneIds.filterMap fun i => match (g.lane i).wait with
    | .swait a _ since limit _ =>
      if (g.lane i).live && here a && limit != 0 && decide (since + limit ≤ g.ticks) then some (.event (.swaitTimeout key i)) else none
    | _ => none

/-- A wait's timeout has passed: the lane writes F and proceeds, unless the generation has changed in the same clock; a
sett whose contents are poisoned then ends the task (R226, R223). -/
def swaitExpire (g lane : Nat) (s : State) : State :=
  match s.group? g with
  | none => s
  | some gr =>
    match (gr.lane lane).wait with
    | .swait a e since limit pd =>
      if limit = 0 || !(gr.lane lane).live || (s.settGen a != e && s.poisonAt a 32) then s
      else if s.settGen a != e then s.setGroup g (gr.noteWrites (gr.setLane lane (·.leaveSwait pd .T)))
      else if since + limit ≤ gr.ticks then s.setGroup g (gr.noteWrites (gr.setLane lane (·.leaveSwait pd .F)))
      else s
    | _ => s

/-- SWAIT_TIMEOUT (R226). -/
def execSwaitTimeout (g lane : Nat) (s : State) : Host.Outcome State Fault Refusal := runStep (swaitExpire g lane) s

/-- The lanes of a group that wait at a sett for which a test holds. -/
def Group.swaiting (g : Group) (near : Nat → Bool) : List (Nat × Nat × Nat × Nat) :=
  (List.range 32).filterMap fun i =>
    match (g.lane i).live, (g.lane i).wait with
    | true, .swait a e _ _ pd => if near a then some (i, a, e, pd) else none
    | _, _ => none

/-- The setts that a look at a group's waits takes in: those of its own local store, or those elsewhere, in deterministic
mode, and every one in normal mode (R313, R314). -/
def State.settsHere (s : State) (key : Nat) (g : Group) (far : Bool) (a : Nat) : Bool :=
  (s.detOf (partOf key)).isNone || homeSett g a != far

/-- The lanes of a group at SWAIT whose sett has moved on with poisoned contents (R223). -/
def State.swaitBad (s : State) (key : Nat) (g : Group) (far : Bool) : List (Nat × Nat × Nat × Nat) :=
  (g.swaiting (s.settsHere key g far)).filter fun (_, a, e, _) => s.poisonAt a 32 && s.settGen a != e

/-- A wait on a sett whose contents are poisoned ends the task (R223, R226). -/
def State.swaitFault (s : State) (key : Nat) (far : Bool) : State :=
  match s.group? key with
  | none => s
  | some g =>
    match s.swaitBad key g far with
    | (i, a, _, _) :: rest =>
      s.taskFault key g ⟨0x23, 0, maskOfList (i :: rest.map (·.1)), lo32 (s.settGeneric a), 4, 0⟩ (g.lane i).pc
    | [] => s

/-- A group's lanes whose generation has changed leave SWAIT, unless the group's waits fault (R226). -/
def State.swaitPoll (s : State) (key : Nat) (far : Bool) : State :=
  match s.group? key with
  | none => s
  | some g =>
    if (s.swaitBad key g far).isEmpty then
      s.setGroup key (g.noteWrites ((g.swaiting (s.settsHere key g far)).foldl (fun g (i, a, e, pd) =>
        if s.settGen a != e then g.setLane i (·.leaveSwait pd .T) else g) g))
    else s

/-- Deferred operations of one instruction of a group, at the boundary: together, or not at all (R314, R224). They take
effect although the group has ended since. -/
def State.deferredInstr (s : State) (key uid pc : Nat) (ds : List DeferredSett) : State :=
  let g? := (s.group? key).bind fun g => if g.uid = uid then some g else none
  match settRun s key (ds.map fun d => (⟨d.lane, d.addr, s.settGeneric d.addr⟩, settOpOf d)), g? with
  | .error (.fault f), some g => s.taskFault key g f pc
  | .error _, _ => s
  | .ok (s, _), none => s
  | .ok (s, out), some _ =>
    ds.foldl (fun s d => if d.op = 3 then
        s.modGroup key fun g => g.performWrite ⟨d.lane, 0x280 + d.pd, ⟨BitVec.ofNat 32 (triNum (triOf (tget out d.lane false))), false⟩⟩
      else s) s

/-- An engine's arrival of b bytes on a sett; dropped on a poisoned one (R223, R225). -/
def State.arrive (s : State) (a b : Nat) : State :=
  if s.poisonAt a 32 then s
  else
    let s := s.setSettWord a 2 ((s.settWord a 2 + b) % 2 ^ 32)
    if s.settKind a = 3 then s.settle a else s

/-! Barriers. -/

/-- A group that takes part in no barrier of a team is its own barrier's one participant (R141, R228). (DESIGN CHOICE: log entry 28) -/
def State.soloBarrier (s : State) (key : Nat) : State :=
  match s.group? key with
  | none => s
  | some g =>
    if g.kind = .team || g.live = 0 then s
    else
      let g := if g.arrived .bar then g.release .bar else g
      s.setGroup key (if g.arrived .cbar && (s.detOf (partOf key)).isNone then g.release .cbar else g)

/-- The barriers that a group's arrival or exit may complete. -/
def State.barriersOf (s : State) (key : Nat) : State :=
  match s.group? key with
  | none => s
  | some g => if g.kind = .team then s.barriers g.team else s.soloBarrier key

/-- BAR and CBAR: the executing lanes' stores drain, and the lanes wait at the instruction (R228, R186). (DESIGN CHOICE: log entry 28) -/
def barrierAct (w : Wait) : Act :=
  committing (fun _ _ s => .ok s) fun iss g s =>
    let g := g.eachLane iss.lanes fun _ l => { l with pc := iss.pc, wait := w }
    .ok ((s.setGroup iss.key g).barriersOf iss.key)

/-- BAR (R228). -/
def execBar (s : State) : Host.Outcome State Fault Refusal := runAct (barrierAct .bar) s

/-- CBAR (R228). -/
def execCbar (s : State) : Host.Outcome State Fault Refusal := runAct (barrierAct .cbar) s

/-! The binding table. -/

/-- The entries that a binding table holds (R198). -/
def bindingSize : Nat := 8192

/-- Whether a range of lines lies wholly in paged memory, or wholly in one die-store window (R408). -/
def bindable (lo n : Nat) : Option Bool :=
  let last := lo + 128 * n - 1
  if last < 0xF0 * 2 ^ 48 then some true
  else if lo / 2 ^ 27 = last / 2 ^ 27 && lo / 2 ^ 48 = 0xFD && lo % 2 ^ 48 < 2 ^ 29 then some false
  else none

/-- A lane's range to bind. -/
structure BindReq where
  lane : Nat
  entry : Binding
deriving DecidableEq, Repr

/-- Whether two bound ranges share a line: paged ones in one context, die-store ones in the partition (R408). -/
def Binding.overlaps (a b : Binding) : Bool :=
  a.paged == b.paged && (!a.paged || a.pasid == b.pasid) && decide (a.line < b.line + b.lines) &&
  decide (b.line < a.line + a.lines)

/-- BIND (R408). -/
def bindAct (d base n : Opnd) (off : BitVec 20) : Act := fun iss g s => do
  noPoison g iss [(d, 1, 3), (base, 2, 0), (n, 1, 0)]
  let refs ← settRefs s iss g d
  let p ← needPart s iss
  let reqs := refs.filterMap fun r =>
    let n := val32 n g r.lane
    let a := wrap 64 (((read64 g r.lane base).1 : Int) + offVal off)
    if n = 0 then none else some (r.lane, r.gen, a - a % 128, n)
  let out : List LaneFault := reqs.filterMap fun (i, _, lo, n) => if (bindable lo n).isNone then some ⟨i, 0x09, lo, 0⟩ else none
  raiseFaults 0 out
  let es : List BindReq := reqs.map fun (i, gen, lo, n) => ⟨i, ⟨g.pasid, (bindable lo n).getD false, lo / 128, n, gen⟩⟩
  let clash := es.filter fun e => p.bindings.any e.entry.overlaps ||
    es.any fun f => f.lane != e.lane && e.entry.overlaps f.entry
  require clash.isEmpty (.plain 0x21 (maskOfList (clash.map (·.lane))))
  require (decide (p.bindings.length + es.length ≤ bindingSize)) (.plain 0x22 (maskOfList (es.map (·.lane))))
  return s.modPart (partOf iss.key) fun p => { p with bindings := p.bindings ++ es.map (·.entry) }

/-- BIND. -/
def execBind (d base n : Opnd) (off : BitVec 20) (s : State) : Host.Outcome State Fault Refusal :=
  runAct (bindAct d base n off) s

/-- UNBIND: every entry of the context under the sett's id (R408). -/
def unbindAct (d : Opnd) : Act := fun iss g s => do
  let refs ← settRefs s iss g d
  return s.modPart (partOf iss.key) fun p =>
    { p with bindings := p.bindings.filter fun b => !(b.pasid == g.pasid && refs.any (·.gen == b.bset)) }

/-- UNBIND. -/
def execUnbind (d : Opnd) (s : State) : Host.Outcome State Fault Refusal := runAct (unbindAct d) s

end Sys2Proof.Machine
end

