-- ==== Sys2Proof/Machine/Bulk.lean ====
section
/-! DEFINITION. Tensor records, BCOPY and BQST, and the bulk copy engine's completions (R204, R205, R230 to R236, R298 to
R301). -/

namespace Sys2Proof.Machine

/-! Tensor records (R230, R231). -/

/-- A field of a byte list: n bytes from k. -/
def fieldOf (bs : List Byte) (k n : Nat) : Nat := leNat ((bs.drop k).take n)

/-- The fields of a record's 64 bytes (R230). -/
def tensorOf (bs : List Byte) : Tensor :=
  let w0 := fieldOf bs 0 8
  let w8 := fieldOf bs 8 4
  { fmt := bits w0 56 6, base := bits w0 0 56, ndim := bits w8 29 3, esz := bits w8 27 2, swz := bits w8 25 2,
    sh := bit w8 24, saxis := bits w8 21 3, mcast := bits w8 0 12, resid := bits (fieldOf bs 12 4) 0 20,
    ext := (List.range 5).map fun d => fieldOf bs (16 + 2 * d) 2,
    box := (List.range 5).map fun d => fieldOf bs (26 + 2 * d) 2,
    org := (List.range 5).map fun d => fieldOf bs (36 + 2 * d) 2,
    str := 1 :: (List.range 4).map fun d => fieldOf bs (48 + 4 * d) 4 }

/-- Field d of a list of dimensions. -/
def dimOf (l : List Nat) (d : Nat) : Nat := l.getD d 0

/-- The page format of the record. -/
def Tensor.pfmt (t : Tensor) : PFmt := pfmtOf t.fmt

/-- Element bytes: 2^esz for RAW, else 1 (R231). -/
def Tensor.eb (t : Tensor) : Nat := if t.fmt = 0 then 2 ^ t.esz else 1

/-- Whether the record keeps its layout: ranges and zero fields (R230, R232). -/
def tensorOk (bs : List Byte) : Bool :=
  let t := tensorOf bs
  bits (fieldOf bs 0 8) 62 2 == 0 && decide (t.fmt ≤ 5) && decide (1 ≤ t.ndim) && decide (t.ndim ≤ 5) &&
  (t.fmt == 0 || t.esz == 0) && t.swz != 3 && decide (t.saxis < t.ndim) && bits (fieldOf bs 8 4) 12 9 == 0 &&
  bits (fieldOf bs 12 4) 20 12 == 0 && t.resid % 4 == 0 && fieldOf bs 46 2 == 0 &&
  (List.range 5).all fun d =>
    if d < t.ndim then decide (1 ≤ dimOf t.ext d) && decide (1 ≤ dimOf t.box d) && decide (dimOf t.box d ≤ dimOf t.ext d)
    else dimOf t.ext d == 0 && dimOf t.box d == 0 && dimOf t.org d == 0

/-- The rows of the tile (R231). -/
def Tensor.rows (t : Tensor) : Nat := ((List.range (t.ndim - 1)).map fun d => dimOf t.box (d + 1)).foldl (· * ·) 1

/-- The bytes of a row in the image. -/
def Tensor.rowBytes (t : Tensor) : Nat := if t.pfmt.isNibble then dimOf t.box 0 / 2 else dimOf t.box 0 * t.eb

/-- The blocks of a row of a block format. -/
def Tensor.blocks (t : Tensor) : Nat := if t.pfmt.isBlock then dimOf t.box 0 / 32 else 0

/-- The bytes of the whole image (R231). -/
def Tensor.imageSize (t : Tensor) : Nat := t.rows * (t.rowBytes + 2 * t.blocks)

/-- The coordinates of dimensions 1 and up of row k (R231). -/
def Tensor.rowCoords (t : Tensor) (k : Nat) : List Nat :=
  ((List.range (t.ndim - 1)).foldl (fun (out, m) d =>
    let b := max 1 (dimOf t.box (d + 1))
    (out ++ [dimOf t.org (d + 1) + m % b], m / b)) (([] : List Nat), k)).1

/-- The generic address of the element of row coordinates at c0 (R231). -/
def Tensor.addr (t : Tensor) (c0 : Nat) (cs : List Nat) : Nat :=
  t.base + (c0 + ((cs.zipIdx.map fun (c, d) => c * dimOf t.str (d + 1)).foldl (· + ·) 0)) * t.eb

/-- Whether row coordinates are in bounds. -/
def Tensor.rowIn (t : Tensor) (cs : List Nat) : Bool := cs.zipIdx.all fun (c, d) => decide (c < dimOf t.ext (d + 1))

/-- An element of the tile: row, place in the row, whether it is in bounds, its address. -/
structure TileElem where
  row : Nat
  col : Nat
  inb : Bool
  addr : Nat
deriving DecidableEq, Repr

/-- The elements of the tile in image order. -/
def Tensor.elems (t : Tensor) : List TileElem :=
  (List.range t.rows).flatMap fun k =>
    let cs := t.rowCoords k
    let ok := t.rowIn cs
    (List.range (dimOf t.box 0)).map fun j =>
      let c0 := dimOf t.org 0 + j
      ⟨k, j, ok && decide (c0 < dimOf t.ext 0), t.addr c0 cs⟩

/-- The place of byte o of row k after the swizzle (R231). -/
def Tensor.imgOff (t : Tensor) (k o : Nat) : Nat :=
  k * t.rowBytes + (if t.swz = 0 then o else o / 128 * 128 + ((o / 16 % 8) ^^^ (k % 2 ^ (t.swz + 1))) * 16 + o % 16)

/-- The lowest and the highest byte of the in-bounds elements of the tile; none where there are none. -/
def Tensor.span (t : Tensor) : Option (Nat × Nat) :=
  let ds := List.range t.ndim
  let last := fun d => min (dimOf t.org d + dimOf t.box d) (dimOf t.ext d)
  if ds.all fun d => decide (dimOf t.org d < last d) then
    let sum := fun (f : Nat → Nat) => (ds.map fun d => f d * dimOf t.str d).foldl (· + ·) 0
    some (t.base + sum (dimOf t.org) * t.eb, t.base + (sum (fun d => last d - 1) + 1) * t.eb - 1)
  else none

/-! Range locks (R204). -/

/-- The entries of a core's range-lock table (R204). -/
def lockSize : Nat := 64

/-- A range lock over the bytes [lo, hi] widened outward to sectors. -/
def lockOf (lo hi : Nat) (dst : Bool) (op : Nat) : RangeLock := ⟨lo - lo % 32, hi - hi % 32 + 32, dst, op⟩

/-- The lock of a generic span of a context: paged, or die store. -/
def spanLock (part pasid : Nat) (span : Option (Nat × Nat)) (dst : Bool) (op : Nat) : List RangeLock :=
  match span with
  | none => []
  | some (lo, hi) =>
    if isPaged lo then [lockOf (lockPaged part pasid lo) (lockPaged part pasid hi) dst op]
    else [lockOf (dieAddr 0 (lo % 2 ^ 48)) (dieAddr 0 (hi % 2 ^ 48)) dst op]

/-- Whether a core's table has room. -/
def State.lockRoom (s : State) (ck n : Nat) : Bool := decide ((tget s.locks ck []).length + n ≤ lockSize)

/-- Locks registered. -/
def State.addLocks (s : State) (ck : Nat) (ls : List RangeLock) : State :=
  { s with locks := tput [] ck (tget s.locks ck [] ++ ls) s.locks }

/-! Issue. -/

/-- A record or block in the issuing team's local store: its bytes; window-bound without a team, the given code when it
is misaligned or past lstore, poison-use 2 when it is poisoned (R429, R230, R244, R249, R84, R400). -/
def teamBlock (s : State) (key : Nat) (g : Group) (lane field code off : Nat) : Except (Nat × Nat × Nat) (List Byte) :=
  let gen := localGeneric (vcoreOf (coreOf key)) off
  match g.team with
  | none => .error (lane, 0x09, gen)
  | some t =>
    if off % 64 != 0 || decide (s.lstoreOf g < off + 64) then .error (lane, code, gen)
    else if s.poisonAt (localAddr t off) 64 then .error (lane, 0x23, field)
    else .ok (memBytes s.mem (localAddr t off) 64)

/-- The fault of lanes whose records or settings are refused: the code that stands first in R329, with the detail of the
lowest lane that raised it. (DEDUCED: log entry 32) -/
def recordTrap (bad : List (Nat × Nat × Nat)) : Except Trap Unit :=
  match [0x09, 0x0E, 0x0F, 0x13, 0x23].find? fun c => bad.any (·.2.1 == c) with
  | none => .ok ()
  | some c =>
    let mine := bad.filter (·.2.1 == c)
    let m := maskOfList (mine.map (·.1))
    let d := mine.head?.elim 0 (·.2.2)
    .error (if c = 0x23 then .poison m d 2 else .at_ c 0 m d)

/-- What BCOPY and BQST refuse alike (R232): the image's placement, block multiples, swizzle, base. -/
def tensorPlaced (t : Tensor) (off size lstore rowBytes : Nat) : Bool :=
  let block := fun (v : Nat) => !t.pfmt.isBlock || v % 32 == 0
  (decide (t.base < 0xF0 * 2 ^ 48) || (t.base / 2 ^ 48 == 0xFD && decide (t.base % 2 ^ 48 < 2 ^ 29))) &&
  block (dimOf t.box 0) && block (dimOf t.org 0) && block (dimOf t.ext 0) &&
  (t.swz == 0 || rowBytes % 128 == 0) && off % 32 == 0 && decide (off + size ≤ lstore)

/-- An engine operation that a lane is to issue, with the range locks that it needs. -/
structure BulkReq where
  lane : Nat
  op : BulkOp
  locks : Nat → List RangeLock

/-- One lane's BCOPY checked (R232). -/
def bcopyReq (s : State) (iss : Issue) (g : Group) (l2g : Bool) (a : Opnd) (i off rec settv : Nat) :
    Except (Nat × Nat × Nat) BulkReq := do
  let key := iss.key
  let ck := coreOf key
  let bs ← teamBlock s key g i a.code 0x0E rec
  let bad : Except (Nat × Nat × Nat) BulkReq := .error (i, 0x0E, localGeneric (vcoreOf ck) rec)
  let t := tensorOf bs
  match g.team, s.teamOf g with
  | some serial, some team =>
    let k := s.clusterSize team
    if !tensorOk bs || !tensorPlaced t off t.imageSize (s.lstoreOf g) t.rowBytes || decide (2 ^ k ≤ t.mcast) ||
        (t.mcast != 0 && (l2g || settv / 2 ^ 30 != 0)) then bad
    else match settOf s key g settv with
    | .error (c, gen) => .error (i, c, gen)
    | .ok (sett, _) =>
      let recv := if t.mcast = 0 then [serial]
        else ((List.range k).filter (bit t.mcast ·)).filterMap fun r =>
          ((s.clusterTeams team).find? fun (_, u) => u.idx % k == r).map (·.1)
      let det := s.detOf (partOf key)
      let due := det.elim 0 fun d => d.round + 1 + 64 + (t.imageSize + 255) / 256
      let op : BulkOp :=
        { part := partOf key, core := ck, group := key, team := serial, pc := iss.pc, pasid := g.pasid, lid := g.uid,
          job := g.job, kind := b2n l2g, tensor := t, off := off, sett := sett, settOff := settv % 2 ^ 20,
          receivers := recv, size := t.imageSize, suspended := none, due := due }
      let image := fun n => if recv.contains serial || l2g then
          [lockOf (localAddr serial off) (localAddr serial (off + t.imageSize - 1)) (!l2g) n] else []
      return ⟨i, op, fun n => spanLock (partOf key) g.pasid t.span l2g n ++ image n⟩
  | _, _ => bad

/-- The chains of a BQST: the product of the boxes of the other dimensions (R299). -/
def Tensor.chains (t : Tensor) : Nat :=
  ((List.range t.ndim).map fun d => if d = t.saxis then 1 else dimOf t.box d).foldl (· * ·) 1

/-- The number of elements of the tile. -/
def Tensor.count (t : Tensor) : Nat := t.rows * dimOf t.box 0

/-- One lane's BQST checked (R301). -/
def bqstReq (s : State) (iss : Issue) (g : Group) (a : Opnd) (i off rec settv : Nat) : Except (Nat × Nat × Nat) BulkReq := do
  let key := iss.key
  let ck := coreOf key
  let bs ← teamBlock s key g i a.code 0x0E rec
  let bad : Except (Nat × Nat × Nat) BulkReq := .error (i, 0x0E, localGeneric (vcoreOf ck) rec)
  let t := tensorOf bs
  let size := 4 * t.count
  match g.team with
  | none => bad
  | some serial =>
    if !tensorOk bs || !tensorPlaced t off size (s.lstoreOf g) (4 * dimOf t.box 0) || t.fmt == 0 || !t.sh || t.swz != 0 ||
        t.esz != 0 || t.mcast != 0 || !isPaged t.base || decide (s.lstoreOf g < t.resid + 4 * t.chains) then bad
    else match settOf s key g settv with
    | .error (c, gen) => .error (i, c, gen)
    | .ok (sett, _) =>
      let due := (s.detOf (partOf key)).elim 0 fun d => d.round + 1 + 64 + (size + 255) / 256
      let op : BulkOp :=
        { part := partOf key, core := ck, group := key, team := serial, pc := iss.pc, pasid := g.pasid, lid := g.uid,
          job := g.job, kind := 2, tensor := t, off := off, sett := sett, settOff := settv % 2 ^ 20,
          receivers := [serial], size := size, suspended := none, due := due }
      return ⟨i, op, fun n => [lockOf (localAddr serial off) (localAddr serial (off + size - 1)) false n,
        lockOf (localAddr serial t.resid) (localAddr serial (t.resid + 4 * t.chains - 1)) true n] ++
        spanLock (partOf key) g.pasid t.span true n⟩

/-- The copies and BQSTs in flight on a core, at most 16 (R233). -/
def State.bulkCount (s : State) (ck : Nat) : Nat := (s.bulks.filter fun (_, b) => b.core == ck).length

/-- The bytes of a RAW element, or the one address of a format element. -/
def Tensor.elemAddrs (t : Tensor) (e : TileElem) : List Nat :=
  if e.inb then (List.range t.eb).map (e.addr + ·) else []

/-- The rising pages of a list of addresses. (DEDUCED: log entry 22) -/
def pagesOf (as : List Nat) : List Nat := as.foldl (fun l a => insertNat (a / 2 ^ 16) l) []

/-- The pages of an issued tensor's tile walked into the walk-ahead TLB, in increasing address order; a walk that fails
leaves nothing there (R180, R233). (DEDUCED: log entry 22) -/
def State.walkAhead (s : State) (n : Nat) (b : BulkOp) : State :=
  match s.part? b.part with
  | none => s
  | some p =>
    let secure := s.secureQuarter (p.quarterOf (vcoreOf b.core))
    (pagesOf (b.tensor.elems.flatMap b.tensor.elemAddrs)).foldl (fun s page =>
      if !isPaged (page * 2 ^ 16) || (s.tlbHit (aheadTlb b.core) b.part b.pasid page).isSome then s
      else match s.walkPage (.engine n) (aheadTlb b.core) b.part p secure b.pasid page with
        | .ok e => s.tlbInsert e
        | .error _ => s) s

/-- One operation issued; none while the core has no room for it or its ranges (R204, R233). (DEDUCED: log entry 43) -/
def State.bulkIssue (s : State) (r : BulkReq) : Option State :=
  let n := s.serial
  if s.bulkCount r.op.core < 16 && s.lockRoom r.op.core (r.locks n).length then
    some (({ s with serial := n + 1, bulks := tset n r.op s.bulks }.addLocks r.op.core (r.locks n)).walkAhead n r.op)
  else none

/-- Lanes' operations checked before any acts, then issued in order. Lanes whose operation has no room stand at the
instruction, and the group waits (R233). (DEDUCED: log entries 22 and 43) -/
def bulkAct (token : Bool) (d a b : Opnd) (req : State → Issue → Group → Nat → Except (Nat × Nat × Nat) BulkReq) : Act :=
  let reqs := fun (iss : Issue) (g : Group) (s : State) => (lanesOf iss.lanes).map (req s iss g)
  let faults := fun (rs : List (Except (Nat × Nat × Nat) BulkReq)) => rs.filterMap fun r =>
    match r with
    | .error e => some e
    | .ok _ => none
  committing
    (fun iss g s => do
      noPoison g iss [(d, 1, 0), (a, 1, 2), (b, 1, 3)]
      let bad := faults (reqs iss g s)
      let held := bad.filter fun e => decide (e.2.1 ≤ 6)
      if !held.isEmpty then
        .error (.abort (missedOf Acc.a.bits (held.map fun (i, c, gen) => ⟨i, c, gen, 0⟩)))
      else recordTrap bad
      if token then needToken s iss g 0
      return s)
    fun iss g s =>
      let rs := (reqs iss g s).filterMap fun r =>
        match r with
        | .ok r => some r
        | .error _ => none
      let one := fun (s : State) (i : Nat) =>
        match rs.find? fun r => r.lane == i with
        | some r => s.bulkIssue r
        | none => some s
      let (s, left) := inTurn one s (lanesOf iss.lanes)
      let s := s.modGroup iss.key fun g => { g with touched := true }
      if left.isEmpty then .ok s
      else .ok (s.modGroup iss.key fun g =>
        (g.eachLane (maskOfList left) fun _ l => { l with pc := iss.pc, must := .nothing }).stallAll .engine)

/-- BCOPY.g2l (R233). -/
def execBcopyG2l (d a b : Opnd) (s : State) : Host.Outcome State Fault Refusal :=
  runAct (bulkAct false d a b fun s iss g i => bcopyReq s iss g false a i (val32 d g i) (val32 a g i) (val32 b g i)) s

/-- BCOPY.l2g (R233): it requires the commit token (R321). -/
def execBcopyL2g (d a b : Opnd) (s : State) : Host.Outcome State Fault Refusal :=
  runAct (bulkAct true d a b fun s iss g i => bcopyReq s iss g true a i (val32 d g i) (val32 a g i) (val32 b g i)) s

/-- BQST (R298). -/
def execBqst (d a b : Opnd) (s : State) : Host.Outcome State Fault Refusal :=
  runAct (bulkAct true d a b fun s iss g i => bqstReq s iss g a i (val32 d g i) (val32 a g i) (val32 b g i)) s

/-! Translation by an engine. -/

/-- A page of 64 KiB that an engine has translated: paged with its entry, or die store at its physical base. -/
structure EngPage where
  page : Nat
  entry : Option TlbEntry
  phys : Nat

/-- Pages translated in increasing order (R233), each by a walk of both stages; the first that fails, with its page. -/
def engPages (s : State) (w : Waiter) (part ck pasid fmt : Nat) (acc : Acc) : List Nat → Except (XErr × Nat) (List EngPage)
  | [] => .ok []
  | page :: rest =>
    match s.part? part with
    | none => .error (.flt 0x09 0, page)
    | some p =>
      let secure := s.secureQuarter (p.quarterOf (vcoreOf ck))
      let a := page * 2 ^ 16
      let here : Except XErr EngPage :=
        if isPaged a then
          match s.page w (aheadTlb ck) part p secure true pasid page acc with
          | .error e => .error e
          | .ok e => if e.fmt = fmt then .ok ⟨page, some e, 0⟩ else .error (.flt 0x04 0)
        else if a / 2 ^ 48 = 0xFD && a % 2 ^ 48 < 2 ^ 29 then
          match s.dieByte p secure (a % 2 ^ 48 / 2 ^ 27) (a % 2 ^ 27) false with
          | .error e => .error e
          | .ok pl => if fmt = 0 then .ok ⟨page, none, pl.phys⟩ else .error (.flt 0x04 0)
        else .error (.flt 0x09 0)
      match here with
      | .error e => .error (e, page)
      | .ok x =>
        match engPages s w part ck pasid fmt acc rest with
        | .error e => .error e
        | .ok xs => .ok (x :: xs)

/-- The places of the element at an address: its data byte, and side bytes of a block format. -/
def engPlaces (p : Part) (xs : List EngPage) (a : Nat) : List Place :=
  match xs.find? fun x => x.page == a / 2 ^ 16 with
  | none => []
  | some x =>
    match x.entry with
    | none => [⟨x.phys + a % 2 ^ 16, 0, none, none⟩]
    | some e => if e.fmt = 0 then [e.place p (a % 2 ^ 16)] else elemPlaces p e (a % 2 ^ 16)

/-- Whether reads of the page at an address return poison (R84). -/
def engPor (xs : List EngPage) (a : Nat) : Bool :=
  match xs.find? fun x => x.page == a / 2 ^ 16 with
  | some ⟨_, some e, _⟩ => e.por
  | _ => false

/-- What an attempt of an engine operation meets: it waits for links, stops on a code, or has the pages. -/
inductive EngTry where
  | waits (s : State)
  | stop (code page guest : Nat)
  | pages (xs : List EngPage)

/-- The pages of an operation, and for reads the sectors of host memory, asked for while they are not there (R43). (DEDUCED: log entry 22) -/
def engTry (s : State) (op part ck pasid fmt : Nat) (acc : Acc) (as : List Nat) : EngTry :=
  match engPages s (.engine op) part ck pasid fmt acc (pagesOf as) with
  | .error (.flt c g, page) => .stop c page g
  | .error (.ats l pa pg, _) => .waits (s.askAts (.engine op) 0 l pa pg)
  | .error (.host a, _) => .waits (s.askHost (.engine op) (some pasid) op 0 a)
  | .error (.miss _, page) => .stop 0x01 page 0
  | .ok xs =>
    if acc == .r then
      match s.part? part with
      | none => .pages xs
      | some p =>
        let secs := ((as.flatMap fun a => (engPlaces p xs a).map (·.phys)).filter isHost).map fun a => a - a % 32
        let need := secs.eraseDups.filter fun a =>
          (s.returnedTo (.engine op) a).isNone
        if need.isEmpty then .pages xs
        else .waits (need.foldl (fun s a => s.askHost (.engine op) (some pasid) op 0 a) s)
    else .pages xs

/-- Whether a group's exit waits for its engine operations (R235, R252, R377). -/
def State.busyEngine (s : State) (key : Nat) : Bool :=
  s.bulks.any (fun (_, b) => b.group == key) || s.mmabs.any (fun (_, m) => m.group == key) ||
  s.colls.any (fun (_, c) => c.group == key)

/-- A group all of whose lanes have exited ends once its load counter reads 0 and its engine operations have released
their ranges (R377, R235). -/
def State.lateExit (s : State) (key : Nat) : State :=
  match s.group? key with
  | none => s
  | some g => if g.live = 0 && g.loads = 0 && !s.busyEngine key then s.groupEnd key g else s

/-- An operation is taken off its core: its locks go, and waiting groups may issue. -/
def State.bulkGone (s : State) (op : Nat) (b : BulkOp) : State :=
  (({ s with bulks := terase op s.bulks }.unlock b.core op).dropReturned (.engine op)).wakeEngine b.core

/-- An operation meets a translation code (R235): it is suspended and gathered, waits for a migration, or is abandoned
and its task ends as faulted. -/
def State.bulkStop (s : State) (op : Nat) (b : BulkOp) (acc code page guest : Nat) : State :=
  if code = 0x03 || code = 0x01 || code = 0x02 || code = 0x05 || code = 0x06 then
    let s := { s with bulks := tset op { b with suspended := some (code, page, acc) } s.bulks }
    if code = 0x03 then s
    else match s.anyGroup b.group with
      | none => s
      | some g => s.gather b.part (s.gatherOf b.group g) b.pasid b.job (vcoreOf b.core) b.pc ⟨page, code, acc, guest, 0⟩ (.engine op)
  else
    (s.bulkGone op b).engineFault b.group b.pc
      ⟨code, acc, 0, lo32 (page * 2 ^ 16), hi32 (page * 2 ^ 16), 0⟩

/-- A code of a format element from its data byte. -/
def codeAt (f : PFmt) (low b : Nat) : Nat := if f.isNibble then (if low % 2 = 0 then b % 16 else b / 16) else b

/-- The first in-bounds address whose read is poisoned. -/
def poisonedAddr (s : State) (p : Part) (xs : List EngPage) (as : List Nat) : Option Nat :=
  as.find? fun a => engPor xs a || (engPlaces p xs a).any fun pl => s.poisonAt pl.phys 1 ||
    (isHost pl.phys && s.links.any fun l => l.returned.any fun r => r.2.1 == pl.phys - pl.phys % 32 && r.2.2)

/-- One byte at an address as an engine reads it: byte k of the element's places. -/
def engByte (s : State) (p : Part) (xs : List EngPage) (a k : Nat) : Nat :=
  match (engPlaces p xs a)[k]? with
  | none => 0
  | some pl => (s.readKeyed pl.key pl.phys).toNat

/-- The image bytes of a g2l tile, as offsets and bytes; out-of-bounds elements are zero (R231). -/
def g2lImage (s : State) (p : Part) (t : Tensor) (xs : List EngPage) : List (Nat × Byte) :=
  let f := t.pfmt
  let code := fun (e : TileElem) => if e.inb then codeAt f e.addr (engByte s p xs e.addr 0) else 0
  let es := t.elems
  let w := dimOf t.box 0
  let datas := if t.fmt = 0 then
      es.flatMap fun e => (List.range t.eb).map fun k =>
        (t.imgOff e.row (e.col * t.eb + k), BitVec.ofNat 8 (if e.inb then engByte s p xs (e.addr + k) 0 else 0))
    else if f.isNibble then
      (es.filter fun e => e.col % 2 = 0).map fun e =>
        let hi := (es[e.row * w + e.col + 1]?).elim 0 code
        (t.imgOff e.row (e.col / 2), BitVec.ofNat 8 (code e + 16 * hi))
    else es.map fun e => (t.imgOff e.row e.col, BitVec.ofNat 8 (code e))
  let sides := (es.filter fun e => f.isBlock && e.col % 32 = 0).flatMap fun e =>
    let o := t.rows * t.rowBytes + 2 * (e.row * t.blocks + e.col / 32)
    [(o, BitVec.ofNat 8 (if e.inb then engByte s p xs e.addr 1 else 0)),
     (o + 1, BitVec.ofNat 8 (if e.inb then engByte s p xs e.addr 2 else 0))]
  datas ++ sides

/-- A copy's arrival on every receiver's sett, in increasing rank order (R234). -/
def State.copyArrive (s : State) (b : BulkOp) : State :=
  if b.kind = 0 && b.tensor.mcast != 0 then
    b.receivers.foldl (fun s r => if thas r s.teams then s.arrive (localAddr r b.settOff) b.size else s) s
  else s.arrive b.sett b.size

/-- A g2l copy completes (R231, R234, R235). -/
def State.g2lDone (s : State) (op : Nat) (b : BulkOp) : State :=
  let t := b.tensor
  let as := t.elems.flatMap t.elemAddrs
  match engTry s op b.part b.core b.pasid t.fmt .r as with
  | .waits s => s
  | .stop c page guest => s.bulkStop op b Acc.r.bits c page guest
  | .pages xs =>
    match s.part? b.part with
    | none => s
    | some p =>
      match poisonedAddr s p xs as with
      | some a =>
        (s.bulkGone op b).engineFault b.group b.pc ⟨0x23, 0, 0, lo32 (a - a % 128), 5, 0⟩
      | none =>
        let img := g2lImage s p t xs
        let s := b.receivers.foldl (fun s r =>
          if thas r s.teams then
            let s := img.foldl (fun s (o, v) => s.setByte (localAddr r (b.off + o)) v) s
            (granules (localAddr r b.off) b.size).foldl (fun s g => s.setPoison g false) s
          else s) s
        let s := s.charge b.part b.pasid ((as.map fun a => ((engPlaces p xs a).head?).elim 0 fun pl => memCost pl.phys 1).foldl (· + ·) 0 +
          b.receivers.length * 400 * ((b.size + 31) / 32))
        ((s.bulkGone op b).copyArrive b).lateExit b.group

/-- One image byte of an l2g copy with its poison. -/
def l2gByte (s : State) (b : BulkOp) (o : Nat) : Byte × Bool :=
  let a := localAddr b.team (b.off + o)
  (s.byte a, s.poisonAt a 1)

/-- One write of an engine: a byte, or one nibble of it, with its poison. -/
structure EngWrite where
  place : Place
  byte : Byte
  pois : Bool
  /-- The upper or lower nibble alone. -/
  nibble : Option Bool

/-- The byte that a write leaves where another stood. -/
def EngWrite.over (w : EngWrite) (old : Byte) : Byte :=
  match w.nibble with
  | none => w.byte
  | some false => BitVec.ofNat 8 (w.byte.toNat % 16 + old.toNat / 16 * 16)
  | some true => BitVec.ofNat 8 (w.byte.toNat % 16 * 16 + old.toNat % 16)

/-- The writes of an l2g tile; a block is one write. Two E2M1 codes are one byte where the even one of them lies at an even
address, and a nibble each elsewhere (R175, R231, R235, R268). -/
def l2gWrites (s : State) (p : Part) (b : BulkOp) (xs : List EngPage) : List EngWrite :=
  let t := b.tensor
  let f := t.pfmt
  let es := t.elems.filter (·.inb)
  let at_ := fun (e : TileElem) (o : Nat) => l2gByte s b (t.imgOff e.row o)
  if t.fmt = 0 then
    es.flatMap fun e => (List.range t.eb).flatMap fun k =>
      let v := at_ e (e.col * t.eb + k)
      ((engPlaces p xs (e.addr + k)).take 1).map fun pl => ⟨pl, v.1, v.2, none⟩
  else
    let datas := es.flatMap fun e =>
      let v := at_ e (if f.isNibble then e.col / 2 else e.col)
      let code := BitVec.ofNat 8 (codeAt f e.col v.1.toNat)
      let paired := (e.addr + e.col) % 2 = 0
      if f.isNibble && paired && e.col % 2 = 1 then []
      else ((engPlaces p xs e.addr).take 1).map fun pl =>
        if f.isNibble && !paired then ⟨pl, code, v.2, some (e.addr % 2 = 1)⟩ else ⟨pl, v.1, v.2, none⟩
    let sides := (es.filter fun e => f.isBlock && e.col % 32 = 0).flatMap fun e =>
      let o := t.rows * t.rowBytes + 2 * (e.row * t.blocks + e.col / 32)
      ((engPlaces p xs e.addr).drop 1).zipIdx.map fun (pl, k) =>
        let v := l2gByte s b (o + k)
        ⟨pl, v.1, v.2, none⟩
    datas ++ sides

/-- An engine's writes made at their places (R205). -/
def State.engWrite (s : State) (b : BulkOp) (ws : List EngWrite) : State :=
  ws.foldl (fun s w =>
    (s.writeRun (some b.pasid) w.place.key w.place.phys [w.over (s.readKeyed w.place.key w.place.phys)] w.pois).charge
      b.part b.pasid (memCost w.place.phys 1)) s

/-- An l2g copy completes. -/
def State.l2gDone (s : State) (op : Nat) (b : BulkOp) : State :=
  match engTry s op b.part b.core b.pasid b.tensor.fmt .w (b.tensor.elems.flatMap b.tensor.elemAddrs) with
  | .waits s => s
  | .stop c page guest => s.bulkStop op b Acc.w.bits c page guest
  | .pages xs =>
    match s.part? b.part with
    | none => s
    | some p =>
      let s := (s.engWrite b (l2gWrites s p b xs)).charge b.part b.pasid (400 * ((b.size + 31) / 32))
      ((s.bulkGone op b).copyArrive b).lateExit b.group

/-- COPY_COMPLETE: nothing where no such copy is in flight, or it is suspended (R234, R235). -/
def copyComplete (op : Nat) (s : State) : State :=
  match tget? op s.bulks with
  | none => s
  | some b =>
    if b.suspended.isSome then s
    else if b.kind = 0 then s.g2lDone op b
    else if b.kind = 1 then s.l2gDone op b
    else s

/-- COPY_COMPLETE; in deterministic mode a copy completes at its due boundary (R315). -/
def execCopyComplete (op : Nat) (s : State) : Host.Outcome State Fault Refusal := runStep (fun s => if (tget? op s.bulks).elim true fun b => s.normalMode b.part then copyComplete op s else s) s

/-! BQST's completion. -/

/-- The coordinate of an element along a dimension, within the tile (R299). -/
def tileCoord (t : Tensor) (e : TileElem) (d : Nat) : Nat :=
  if d = 0 then e.col else (t.rowCoords e.row).getD (d - 1) 0 - dimOf t.org d

/-- The chain of an element (R299). -/
def chainOf (t : Tensor) (e : TileElem) : Nat :=
  ((List.range t.ndim).foldl (fun (k, m) d =>
    if d = t.saxis then (k, m) else (k + tileCoord t e d * m, m * dimOf t.box d)) (0, 1)).1

/-- What a BQST writes: elements' codes with poison, blocks' side bytes, and the residue vector (R299). -/
def bqstShape (s : State) (b : BulkOp) : Tbl Val × Tbl (Nat × Nat) × Tbl Val :=
  let t := b.tensor
  let f := t.pfmt
  let es := t.elems
  let w := dimOf t.box 0
  let input := fun (n : Nat) =>
    let a := localAddr b.team (b.off + 4 * n)
    (s.readNat a 4, s.poisonAt a 4)
  let num := fun (e : TileElem) => e.row * w + e.col
  let nb := w / 32
  let scales := if f.isBlock then (List.range (t.rows * nb)).map fun q =>
      let vs := (List.range 32).map fun j => Fmt.f32.value (input (q / nb * w + 32 * (q % nb) + j)).1
      let e := blockScale f vs
      (e, if f = .e2m1b32x then blockExtra vs e else 0) else []
  let sc := fun (e : TileElem) => if f.isBlock then scales.getD (e.row * nb + e.col / 32) (0, 0) else (0x7F, 0)
  let done := (List.range t.chains).map fun k =>
    let mine := es.filter fun e => chainOf t e == k
    let a := localAddr b.team (t.resid + 4 * k)
    let ins := mine.map fun e => (⟨if e.inb then some (input (num e)) else none, (sc e).1, (sc e).2⟩ : ShapeIn)
    let (out, last) := shapeChain f t.fmt (s.readNat a 4, s.poisonAt a 4) ins
    (k, List.zip (mine.map num) out, last)
  let flat := done.flatMap fun d => d.2.1
  ((List.range t.count).map fun n => (n, (((flat.find? (·.1 == n)).bind (·.2)).getD (0, false))),
   (List.range scales.length).map (fun q => (q, scales.getD q (0, 0))),
   done.map fun d => (d.1, d.2.2))

/-- The earlier BQSTs of the core that hold an overlapping residue vector (R300). -/
def State.bqstEarlier (s : State) (op : Nat) (b : BulkOp) : Tbl BulkOp :=
  s.bulks.filter fun (n, x) => decide (n < op) && x.kind == 2 && x.core == b.core && x.team == b.team &&
    decide (x.tensor.resid < b.tensor.resid + 4 * b.tensor.chains) &&
    decide (b.tensor.resid < x.tensor.resid + 4 * x.tensor.chains)

/-- Whether an earlier BQST of the core holds an overlapping residue vector (R300). -/
def State.bqstBlocked (s : State) (op : Nat) (b : BulkOp) : Bool := !(s.bqstEarlier op b).isEmpty

/-- The writes of a BQST. -/
def bqstWrites (p : Part) (b : BulkOp) (xs : List EngPage) (codes : Tbl Val) (sides : Tbl (Nat × Nat)) :
    List EngWrite :=
  let t := b.tensor
  let f := t.pfmt
  let w := dimOf t.box 0
  let es := t.elems.filter (·.inb)
  let code := fun (n : Nat) => tget codes n (0, false)
  let blockPois := fun (e : TileElem) => f.isBlock && (List.range 32).any fun j => (code (e.row * w + e.col / 32 * 32 + j)).2
  let datas := (es.filter fun e => !f.isNibble || e.col % 2 = 0).flatMap fun e =>
    let n := e.row * w + e.col
    let v := if f.isNibble then (code n).1 + 16 * (code (n + 1)).1 else (code n).1
    ((engPlaces p xs e.addr).take 1).map fun pl => ⟨pl, BitVec.ofNat 8 v, blockPois e || (code n).2, none⟩
  let sd := (es.filter fun e => f.isBlock && e.col % 32 = 0).flatMap fun e =>
    let (sc, ex) := tget sides (e.row * (w / 32) + e.col / 32) (0, 0)
    (List.zip ((engPlaces p xs e.addr).drop 1) [sc, ex]).map fun (pl, v) => ⟨pl, BitVec.ofNat 8 v, blockPois e, none⟩
  datas ++ sd

/-- The address of the first block of a tile that does not start at a multiple of 32: a block format takes whole blocks
only (R176). -/
def Tensor.partBlock (t : Tensor) : Option Nat :=
  if t.pfmt.isBlock then ((t.elems.find? fun e => e.inb && e.col % 32 = 0 && e.addr % 32 != 0).map (·.addr)) else none

/-- BQST_COMPLETE (R300): not before an earlier one on the same vector. -/
def bqstComplete (op : Nat) (s : State) : State :=
  match tget? op s.bulks with
  | none => s
  | some b =>
    if b.suspended.isSome || b.kind != 2 || s.bqstBlocked op b then s
    else
      match engTry s op b.part b.core b.pasid b.tensor.fmt .w (b.tensor.elems.flatMap b.tensor.elemAddrs) with
      | .waits s => s
      | .stop c page guest => s.bulkStop op b Acc.w.bits c page guest
      | .pages xs =>
        match s.part? b.part, b.tensor.partBlock with
        | none, _ => s
        | some _, some a => s.bulkStop op b Acc.w.bits 0x08 (a / 2 ^ 16) 0
        | some p, none =>
          let (codes, sides, res) := bqstShape s b
          let s := s.engWrite b (bqstWrites p b xs codes sides)
          let s := res.foldl (fun s (k, v) => s.store (localAddr b.team (b.tensor.resid + 4 * k)) (leBytes 4 v.1) v.2) s
          let s := s.charge b.part b.pasid (400 * ((b.size + 31) / 32 + (4 * b.tensor.chains + 31) / 32))
          ((s.bulkGone op b).arrive b.sett b.size).lateExit b.group

/-- BQST_COMPLETE; in deterministic mode at its due boundary (R315). -/
def execBqstComplete (op : Nat) (s : State) : Host.Outcome State Fault Refusal := runStep (fun s => if (tget? op s.bulks).elim true fun b => s.normalMode b.part then bqstComplete op s else s) s

end Sys2Proof.Machine
end

