-- ==== Sys2Proof/Machine/Delow.lean ====
section
/-! DEFINITION. The Delow ports: flits, credits, replay, retraining, resets and routes (R49 to R53), and the abandoning of
collectives (R57). -/

namespace Sys2Proof.Machine

/-- A port's state. -/
def State.dport (s : State) (p : Nat) : DPort := tget s.dports p DPort.new

/-- A port put back. -/
def State.setDport (s : State) (p : Nat) (d : DPort) : State := { s with dports := tput DPort.new p d s.dports }

/-- A port changed. -/
def State.modDport (s : State) (p : Nat) (f : DPort → DPort) : State := s.setDport p (f (s.dport p))

/-- The flits that a replay buffer holds (R51). -/
def replaySize : Nat := 256

/-- Whether a flit of a type takes a buffer of its channel: idle and credit-only ones take none. -/
def takesCredit (type : Nat) : Bool := decide (1 ≤ type) && decide (type ≤ 4)

/-- Whether a port may send a flit now (R51). -/
def DPort.maySend (d : DPort) (f : Flit) : Bool :=
  d.up && !d.retraining && decide (d.replay.length < replaySize) && (!takesCredit f.type || decide (0 < d.credits.getD f.vc 0))

/-- The 16 bytes of a flit's header as a number (R50). -/
def flitHeader (f : Flit) : Nat :=
  f.reserved % 2 ^ 43 + f.tag % 2 ^ 16 * 2 ^ 43 + f.sectors % 8 * 2 ^ 59 + f.cvc % 8 * 2 ^ 62 + f.credits % 256 * 2 ^ 65 +
  f.ack % 4096 * 2 ^ 73 + f.seq % 4096 * 2 ^ 85 + f.spkg % 1024 * 2 ^ 97 + f.dpkg % 1024 * 2 ^ 107 + f.part % 16 * 2 ^ 117 +
  f.vc % 8 * 2 ^ 121 + f.type % 16 * 2 ^ 124

/-- Bytes 0 to 239 of a flit: its header and its payload sectors (R50). -/
def flitBody (f : Flit) : List Byte := leBytes 16 (flitHeader f) ++ (List.range 224).map fun k => f.data.getD k 0

/-- The 256 bytes of a flit (R50). -/
def flitUnit (f : Flit) : List Byte := flitBody f ++ (List.range 16).map (Config.flitTail (flitBody f))

/-- The flit whose bytes 0 to 239 these are (R50). -/
def flitOf (bs : List Byte) : Flit :=
  let h := leNat (bs.take 16)
  let sectors := bits h 59 3
  ⟨bits h 124 4, bits h 121 3, bits h 117 4, bits h 107 10, bits h 97 10, bits h 85 12, bits h 73 12, bits h 65 8,
   bits h 62 3, sectors, bits h 43 16, bits h 0 43, (bs.drop 16).take (32 * sectors)⟩

/-- A flit with the port's sequence number and acknowledgement: 0 before any flit has come. (DESIGN CHOICE: log entry 55) -/
def DPort.stamp (d : DPort) (f : Flit) : Flit := { f with seq := d.nextSeq, ack := d.got.getD 0 }

/-- A flit sent: it keeps its place in the replay buffer until it is acknowledged. -/
def State.sendNow (s : State) (p : Nat) (x : SentFlit) : State :=
  let d := s.dport p
  let f := d.stamp x.flit
  let s := s.setDport p { d with
    nextSeq := (d.nextSeq + 1) % 4096
    replay := d.replay ++ [{ x with seq := d.nextSeq, flit := f, at_ := s.timer }]
    credits := if takesCredit f.type then lmod f.vc (· - 1) d.credits else d.credits }
  s.emit (.flit p (flitUnit f))

/-- Waiting flits sent in order while the port may send the first of them; n bounds the count. -/
def State.sendWaiting (s : State) (p : Nat) : Nat → State
  | 0 => s
  | n + 1 =>
    match (s.dport p).waiting with
    | [] => s
    | x :: rest =>
      if (s.dport p).maySend x.flit then
        ((s.modDport p fun d => { d with waiting := rest }).sendNow p x).sendWaiting p n
      else s

/-- Flits queued at a port, sent as far as credits and the replay buffer allow. -/
def State.sendFlits (s : State) (p : Nat) (xs : List SentFlit) : State :=
  let s := s.modDport p fun d => { d with waiting := d.waiting ++ xs }
  s.sendWaiting p (s.dport p).waiting.length

/-- Every flit that is not acknowledged sent again, from the first on (R51). -/
def State.replayAll (s : State) (p : Nat) : State :=
  let d := s.dport p
  let s := s.setDport p { d with replay := d.replay.map fun x => { x with at_ := s.timer } }
  d.replay.foldl (fun s x => s.emit (.flit p (flitUnit { x.flit with ack := d.got.getD 0 }))) s

/-- A resend; the eighth in a row makes the port retrain (R51). -/
def State.resend (s : State) (p : Nat) : State :=
  let d := s.dport p
  if d.replay.isEmpty || d.retraining || !d.up then s
  else
    let n := d.replays + 1
    (s.replayAll p).modDport p fun d => { d with replays := n, retraining := decide (8 ≤ n) }

/-- Whether the oldest flit has gone 2 µs, 8 ticks of the package timer, without acknowledgement (R51, R35). -/
def DPort.overdue (d : DPort) (now : Nat) : Bool := d.replay.head?.any fun x => decide (x.at_ + 8 ≤ now)

/-- The link state event of a port on the error stream of its owner (R45, R51, R52). -/
def State.portEvent (s : State) (p state reads writes : Nat) : State :=
  match (s.dport p).owner with
  | none => s
  | some part => s.sysPost part errStream 0x0014 [1, p, state, reads, writes]

/-- A collective abandoned at every shard of this package: each shard's engine posts its event. Where the final result
stands at one of them completion has won, and nothing is abandoned (R57). (DEDUCED: log entry 42) -/
def State.collKill (s : State) (part tag reason : Nat) : State :=
  let mine := s.colls.filter fun (_, c) => c.part == part && c.tag == tag
  if mine.any fun (_, c) => c.result.isSome then s
  else mine.foldl (fun s (op, c) => (s.collAbandon op reason).lateExit c.group) s

/-- The collectives whose engines wait for a PCIe link's answers: it carries their data (R57). -/
def Link.collOps (l : Link) : List Nat :=
  ((l.reads.map (·.waiter) ++ l.ats.map (·.waiter)).filterMap fun w =>
    match w with
    | .engine op => some op
    | .group _ | .ring | .scanner .. | .launcher _ | .mover _ => none).eraseDups

/-- A port reset: its unacknowledged flits are discarded, the reads among them complete poisoned and the writes count as
discarded, the collectives that it carried are abandoned, and the port is down until it comes up again (R51). -/
def State.portReset (s : State) (p : Nat) : State :=
  let d := s.dport p
  let count := fun (k : Nat) => (d.replay.filter fun x => x.carries == k).length
  let ops := ((d.replay.filter fun x => x.carries == 3).map (·.op)).eraseDups
  let s := s.setDport p { d with up := false, nextSeq := 0, got := none, credits := [0, 0, 0, 0], replay := [],
                                 replays := 0, retraining := false }
  let s := s.portEvent p 3 (count 1) (count 2)
  ops.foldl (fun s op => match tget? op s.colls with
    | none => s
    | some c => s.collKill c.part c.tag 3) s

/-- The exclusive or of a number's successive 6-bit fields, n of them. -/
def fold6 : Nat → Nat → Nat
  | 0, _ => 0
  | n + 1, v => v % 64 ^^^ fold6 n (v / 64)

/-- The ports of a mask, rising. -/
def portsOf (m : Nat) : List Nat := (List.range 64).filter (bit m ·)

/-- The port by which a request for a line address leaves for a package (R53); none when none is up. -/
def State.routePort (s : State) (part d a : Nat) : Option Nat :=
  let mask := ((s.part? part).elim [] (·.routes) |> fun t => tget t d 0)
  let ps := (portsOf mask).filter fun p => (s.dport p).up
  if ps.isEmpty then none else ps[(fold6 9 (a / 128 % 2 ^ 49) ^^^ (d % 64)) % ps.length]?

/-- A request that no port carries: the error event of R53. The manual gives its port word no value: a free one. (DESIGN CHOICE: log entry 55) -/
def State.unroutable (s : State) (part : Nat) : State :=
  let w := (Config.freeWord s.free).toNat % 64
  { s with free := s.free + 1 }.sysPost part errStream 0x0014 [1, w, 0, 0, 0]

/-- Whether a received header breaks R50. -/
def flitMalformed (f : Flit) : Bool :=
  f.reserved != 0 || decide (6 ≤ f.type) || decide (4 ≤ f.vc) || decide (4 ≤ f.cvc) || decide (8 ≤ f.sectors)

/-- The flits that an acknowledgement number leaves in a replay buffer. -/
def ackRest (ack : Nat) (l : List SentFlit) : List SentFlit :=
  match l.findIdx? fun x => x.seq == ack with
  | none => l
  | some k => l.drop (k + 1)

/-- An accepted flit's acknowledgement and credits (R50, R51). -/
def DPort.accept (d : DPort) (f : Flit) : DPort :=
  let rest := ackRest f.ack d.replay
  { d with got := some f.seq, replay := rest, replays := if rest.length < d.replay.length then 0 else d.replays,
           credits := lmod f.cvc (· + f.credits) d.credits }

/-- A credit-only flit that acknowledges and returns one buffer of a channel. -/
def creditFlit (part dpkg spkg vc : Nat) : Flit := ⟨5, vc, part, dpkg, spkg, 0, 0, 1, vc, 0, 0, 0, []⟩

/-- A flit that has come whole (R50 to R52): a malformed or foreign one is discarded and counted, a sequence gap makes the
port resend, and an expected one is acknowledged and its buffer returned. What a collective flit carries arrives by the
collective's own steps. (DEDUCED: log entry 42) -/
def State.flitTaken (s : State) (p : Nat) (f : Flit) : State :=
  let d := s.dport p
  if flitMalformed f then s.setDport p { d with malformed := d.malformed + 1 }
  else if d.owner != some f.part then
    (s.setDport p { d with foreign := d.foreign + 1 }).portEvent p 2 0 0
  else
    let want := d.got.elim 0 fun g => (g + 1) % 4096
    if f.seq != want then
      if (want + 4096 - f.seq) % 4096 < 2048 then s else s.resend p
    else
      let s := s.setDport p (d.accept f)
      let s := if takesCredit f.type then
          s.sendFlits p [⟨0, creditFlit f.part f.spkg s.fw.packageId f.vc, 0, 0, 0⟩] else s
      s.sendWaiting p (s.dport p).waiting.length

/-- 256 bytes received on a port: a CRC failure that FEC leaves makes it resend (R51). -/
def flitReceive (p : Nat) (bs : List Byte) (s : State) : State :=
  let d := s.dport p
  if !d.up || d.retraining then s
  else match Config.flitFec bs with
    | none => s.resend p
    | some body => s.flitTaken p (flitOf body)

/-- DELOW_FLIT_RECEIVE. -/
def execDelowFlitReceive (port : Nat) (bytes : List Byte) (s : State) : Host.Outcome State Fault Refusal :=
  runStep (flitReceive port bytes) s

/-- DELOW_ACK_TIMEOUT (R51). -/
def execDelowAckTimeout (port : Nat) (s : State) : Host.Outcome State Fault Refusal := 
  runStep (fun s => if (s.dport port).overdue s.timer then s.resend port else s) s

/-- A retrain ends: the port resends, or a failed one resets it (R51). -/
def retrainEnd (p : Nat) (ok : Bool) (s : State) : State :=
  let d := s.dport p
  if !d.retraining then s
  else if ok then
    let s := (s.setDport p { d with retraining := false, replays := 0 }).replayAll p
    s.sendWaiting p d.waiting.length
  else s.portReset p

/-- DELOW_RETRAIN_COMPLETE. -/
def execDelowRetrainComplete (port : Nat) (ok : Bool) (s : State) : Host.Outcome State Fault Refusal :=
  runStep (retrainEnd port ok) s

/-- A port comes up: it joins the routing masks and its owner learns of it (R53, R45). (DEDUCED: log entry 42) -/
def delowUp (p : Nat) (s : State) : State :=
  let s := s.modDport p fun d => { d with up := true, retraining := false }
  let s := s.portEvent p 2 0 0
  s.sendWaiting p (s.dport p).waiting.length

/-- DELOW_PORT_UP. -/
def execDelowPortUp (port : Nat) (s : State) : Host.Outcome State Fault Refusal := runStep (delowUp port) s

end Sys2Proof.Machine
end

