-- ==== Sys2Proof/Machine/Interval.lean ====
section
/-! DEFINITION. Intervals: layouts, the set operations rounded outward, midpoints, comparisons
(chapter 15, R270 to R279; R389 to R391). -/

namespace Sys2Proof.Machine

/-- An interval by the exact values of its two bounds as the registers hold them. -/
structure Iv where
  lo : FVal
  hi : FVal
deriving DecidableEq, Repr

/-- The bound format of an interval type (R270). -/
def ivFmt : Ty → Fmt
  | .f64iv => .f64
  | .bf16iv => .bf16
  | _ => .f32

/-- The bits of one bound (R270). -/
def boundBits : Ty → Nat
  | .f64iv => 64
  | .bf16iv => 16
  | _ => 32

/-- The interval that a register image or memory image holds (R270). -/
def ivOf (ty : Ty) (v : Nat) : Iv :=
  ⟨(ivFmt ty).value (v % 2 ^ boundBits ty), (ivFmt ty).value (v / 2 ^ boundBits ty % 2 ^ boundBits ty)⟩

/-- The pattern lo = +∞, hi = −∞ (R272). -/
def Iv.isEmpty (a : Iv) : Bool := a.lo == .inf false && a.hi == .inf true

/-- A pattern that denotes a set of at least one real (R272). -/
def Iv.isNonEmpty (a : Iv) : Bool := a.lo.le a.hi && a.lo != .inf false && a.hi != .inf true

/-- A pattern that denotes no set (R272). -/
def Iv.isInvalid (a : Iv) : Bool := !a.isEmpty && !a.isNonEmpty

/-- The canonical empty. -/
def Iv.empty : Iv := ⟨.inf false, .inf true⟩

/-- Every real. -/
def Iv.entire : Iv := ⟨.inf true, .inf false⟩

/-- Whether 0 lies in a non-empty interval. -/
def Iv.hasZero (a : Iv) : Bool := a.lo.le (.fin false 0 0) && (FVal.fin false 0 0).le a.hi

/-- The register image of two bounds' codes. -/
def ivPack (ty : Ty) (lo hi : Nat) : Nat := lo + 2 ^ boundBits ty * hi

/-- A bound rounded in the given direction; every zero bound is +0 (R273). -/
def boundRound (ty : Ty) (rm : Rnd) (v : FVal) : Nat :=
  let c := (ivFmt ty).round v rm false
  if c = 2 ^ (ivFmt ty).signBit then 0 else c

/-- An exact result set rounded outward (R273). -/
def ivOut (ty : Ty) (a : Iv) : Nat :=
  if a.isEmpty then ivPack ty ((ivFmt ty).round (.inf false) .rne false) ((ivFmt ty).round (.inf true) .rne false)
  else ivPack ty (boundRound ty .rdn a.lo) (boundRound ty .rup a.hi)

/-- The lesser of two bounds. -/
def fmin2 (a b : FVal) : FVal := if b.lt a then b else a

/-- The greater of two bounds. -/
def fmax2 (a b : FVal) : FVal := if a.lt b then b else a

/-- The product of two bounds: a zero factor gives zero, since every point is real (R273). -/
def bmul (a b : FVal) : FVal := if a.isZero || b.isZero then .fin false 0 0 else a.mul b

/-- The least and the greatest of four corners. -/
def corners (f : FVal → FVal → FVal) (a b : Iv) : Iv :=
  let p := f a.lo b.lo
  let q := f a.lo b.hi
  let r := f a.hi b.lo
  let s := f a.hi b.hi
  ⟨fmin2 (fmin2 p q) (fmin2 r s), fmax2 (fmax2 p q) (fmax2 r s)⟩

/-- {a + b}. -/
def ivAdd (a b : Iv) : Iv := ⟨a.lo.add .rne b.lo, a.hi.add .rne b.hi⟩

/-- {−a}. -/
def ivNeg (a : Iv) : Iv := ⟨a.hi.negate, a.lo.negate⟩

/-- {a × b}. -/
def ivMul (a b : Iv) : Iv := corners bmul a b

/-- A corner of a quotient with 0 outside B: an infinite divisor's corner has limit 0. -/
def bdiv (a b : FVal) : FVal :=
  match b with
  | .inf _ => .fin false 0 0
  | b => a.div b

/-- {a / b} for 0 outside B, in the rounding cells of the exact bounds; entire when B contains 0 (R274). -/
def ivDiv (a b : Iv) : Iv := if b.hasZero then .entire else corners bdiv a b

/-- {a²}. -/
def ivSqr (a : Iv) : Iv :=
  let l := a.lo.abs
  let h := a.hi.abs
  let lo := if a.hasZero then .fin false 0 0 else fmin2 l h
  let hi := fmax2 l h
  ⟨lo.mul lo, hi.mul hi⟩

/-- {√a : a ≥ 0}. -/
def ivSqrt (a : Iv) : Iv :=
  if a.hi.lt (.fin false 0 0) then .empty else ⟨(fmax2 (.fin false 0 0) a.lo).sqrt, a.hi.sqrt⟩

/-- {2^a}. -/
def ivExp2 (a : Iv) : Iv := ⟨a.lo.exp2, a.hi.exp2⟩

/-- {log2 a : a > 0}. -/
def ivLog2 (a : Iv) : Iv :=
  if a.hi.le (.fin false 0 0) then .empty
  else ⟨if a.lo.le (.fin false 0 0) then .inf true else a.lo.log2, a.hi.log2⟩

/-- {abs(a)}. -/
def ivAbs (a : Iv) : Iv :=
  ⟨if a.hasZero then .fin false 0 0 else fmin2 a.lo.abs a.hi.abs, fmax2 a.lo.abs a.hi.abs⟩

/-- The least interval containing both; an empty one gives the other (R274, R277). -/
def ivHull (a b : Iv) : Iv :=
  if a.isEmpty then b else if b.isEmpty then a else ⟨fmin2 a.lo b.lo, fmax2 a.hi b.hi⟩

/-- A ∩ B. -/
def ivIsect (a b : Iv) : Iv :=
  let lo := fmax2 a.lo b.lo
  let hi := fmin2 a.hi b.hi
  if lo.le hi then ⟨lo, hi⟩ else .empty

/-- {x real : p ≤ x ≤ q} (R274). -/
def ivMake (p q : FVal) : Iv :=
  if !p.le q || p == .inf false || q == .inf true then .empty else ⟨p, q⟩

/-- The midpoint of R275, as a code of the bound format. -/
def midCode (ty : Ty) (a : Iv) : Nat :=
  let f := ivFmt ty
  match a.lo, a.hi with
  | .inf _, .inf _ => 0
  | .inf _, _ => f.pack true f.maxCode
  | _, .inf _ => f.pack false f.maxCode
  | lo, hi =>
    let s := (lo.add .rne hi).scale (-1)
    if s.isZero then 0 else f.round s .rne false

/-- A bound's code widened exactly to the point type: f32 for bf16 intervals (R389). -/
def pointOf (ty : Ty) (code : Nat) : Nat := if ty = .bf16iv then code * 65536 else code

/-- The canonical NaN of the point type. -/
def pointNan (ty : Ty) : Nat := (fpFmt ty.point).qnan

/-- The value of a point operand (R380). -/
def pointVal (ty : Ty) (v : Nat) : FVal := (fpFmt ty.point).value v

/-- IVLO and IVHI: the stored bound as a point (R274, R277). -/
def ivBound (ty : Ty) (hi : Bool) (v : Nat) : Nat :=
  pointOf ty (if hi then v / 2 ^ boundBits ty % 2 ^ boundBits ty else v % 2 ^ boundBits ty)

/-- IVMID as a point (R275, R277). -/
def ivMidPoint (ty : Ty) (v : Nat) : Nat :=
  let a := ivOf ty v
  if a.isEmpty then pointNan ty else pointOf ty (midCode ty a)

/-- IVWID: the width rounded up into the point type (R274, R277, R389). -/
def ivWidth (ty : Ty) (v : Nat) : Nat :=
  let a := ivOf ty v
  let f := fpFmt ty.point
  if a.isEmpty then pointNan ty
  else if !a.lo.isFin || !a.hi.isFin then f.round (.inf false) .rup false
  else
    let w := a.hi.add .rne a.lo.negate
    if w.isZero then 0 else f.round w .rup false

/-- IVCMP on two intervals (R279, R277). -/
def ivCompare (r : Rel) (a b : Iv) : Tri :=
  if a.isEmpty || b.isEmpty then .F
  else
    let apart := a.hi.lt b.lo || b.hi.lt a.lo
    let same := a.lo.cmp a.hi == some .eq && b.lo.cmp b.hi == some .eq && a.lo.cmp b.lo == some .eq
    let pick (t f : Bool) : Tri := if t then .T else if f then .F else .U
    match r with
    | .eq => pick same apart
    | .ne => pick apart same
    | .lt => pick (a.hi.lt b.lo) (b.hi.le a.lo)
    | .le => pick (a.hi.le b.lo) (b.hi.lt a.lo)
    | .gt => pick (b.hi.lt a.lo) (a.hi.le b.lo)
    | .ge => pick (b.hi.le a.lo) (a.hi.lt b.lo)

/-- IVIN: whether a point lies in an interval (R391). -/
def ivContains (p : FVal) (a : Iv) : Tri :=
  match p with
  | .nan => .U
  | .inf _ => .F
  | p => if a.isEmpty then .F else triOf (a.lo.le p && p.le a.hi)

/-- IVSUBS: A ⊆ B (R274, R277). -/
def ivSubset (a b : Iv) : Tri :=
  if a.isEmpty then .T else if b.isEmpty then .F else triOf (b.lo.le a.lo && a.hi.le b.hi)

/-- An interval operation: from the operands to the exact result set. An empty operand gives an empty result, except
for the hull (R277). -/
def strict1 (f : Iv → Iv) (a : Iv) : Iv := if a.isEmpty then .empty else f a

/-- As strict1, for two operands. -/
def strict2 (f : Iv → Iv → Iv) (a b : Iv) : Iv := if a.isEmpty || b.isEmpty then .empty else f a b

end Sys2Proof.Machine
end

