-- ==== Sys2Proof/Machine/Coll.lean ====
section
/-! DEFINITION. Collectives: the request block, the tree, digests, combining, completion and abandoning (R54 to R59,
R412). -/

namespace Sys2Proof.Machine

/-! The request block (R54). -/

/-- The fields of a request block. -/
structure CollBlock where
  nodes : Nat
  src : Nat
  dst : Nat
  done : Nat
  count : Nat
  shards : Nat
  self : Nat
  kind : Nat
  op : Nat
  type : Nat
  tag : Nat
  map : Nat
  timeout : Nat

/-- A block's fields from its bytes. -/
def collBlock (bs : List Byte) : CollBlock :=
  let f := fieldOf bs
  ⟨f 0 8, f 8 8, f 16 8, f 24 8, f 32 4, f 36 2, f 38 2, f 40 1, f 41 1, f 42 1, f 44 4, f 48 8, f 56 4⟩

/-- The type of a block's code. -/
def collTy (c : Nat) : Option Ty :=
  match c with
  | 0 => some .i32 | 1 => some .n32 | 4 => some .f32 | 5 => some .f64 | 6 => some .bf16x2 | 7 => some .f32iv
  | 8 => some .f64iv | _ => none

/-- The bytes of an element (R412). -/
def collBytes (c : Nat) : Nat :=
  match c with
  | 5 | 7 => 8
  | 8 => 16
  | _ => 4

/-- Whether a block keeps R54 and R55: reserved fields, codes, ranges, and the hull with intervals only. -/
def collBlockOk (bs : List Byte) : Bool :=
  let b := collBlock bs
  decide (1 ≤ b.count) && decide (b.count < 2 ^ 28) && decide (1 ≤ b.shards) && decide (b.shards ≤ 4096) &&
  decide (b.self < b.shards) && decide (b.kind < 3) && decide (b.op < 4) && (collTy b.type).isSome &&
  (b.op != 3 || b.type == 7 || b.type == 8) && fieldOf bs 43 1 == 0 && decide (1 ≤ b.timeout) && fieldOf bs 60 4 == 0

/-! The tree (R55). -/

/-- A node of the tree. -/
structure CollNode where
  parent : Nat
  kids : List Nat
  ok : Bool

/-- A node from its 32 bytes. -/
def collNode (bs : List Byte) : CollNode :=
  let n := fieldOf bs 2 1
  let ids := (List.range 12).map fun k => fieldOf bs (4 + 2 * k) 2
  ⟨fieldOf bs 0 2, ids.take n,
   decide (n ≤ 12) && (ids.drop n).all (· == 0) && fieldOf bs 3 1 == 0 && fieldOf bs 28 4 == 0⟩

/-- The nodes of a table. -/
def collNodes (bs : List Byte) : List CollNode :=
  (List.range (bs.length / 32)).map fun k => collNode ((bs.drop (32 * k)).take 32)

/-- Whether a walk to the parents reaches the root within a number of steps. -/
def reachesRoot (ns : List CollNode) : Nat → Nat → Bool
  | 0, _ => false
  | f + 1, i =>
    match ns[i]? with
    | none => false
    | some n => n.parent == 0xFFFF || reachesRoot ns f n.parent

/-- Whether the tree is valid (R55). -/
def treeOk (ns : List CollNode) : Bool :=
  let kids := ns.flatMap (·.kids)
  ns.all (·.ok) && (ns.filter fun n => n.parent == 0xFFFF).length == 1 &&
  ns.zipIdx.all fun (n, i) =>
    (if n.parent = 0xFFFF then !kids.contains i
     else kids.count i == 1 && (ns[n.parent]?).elim false (·.kids.contains i)) &&
    (n.kids.all fun c => decide (c < ns.length)) && reachesRoot ns (ns.length + 1) i

/-- The package and the virtual core of a shard (R55). -/
def shardAt (map : List Byte) (k : Nat) : Nat × Nat :=
  let w := fieldOf map (8 * k) 8
  (bits w 0 10, bits w 16 8)

/-! Combining (R56). -/

/-- The bit of a value that says that it is poisoned: the model's own place for R84's mark. -/
def collPois : Nat := 2 ^ 128

/-- widen: bf16 halves to two f32 codes. -/
def collWiden (c v : Nat) : Nat :=
  if c = 6 then v % 2 ^ 16 * 2 ^ 16 + v / 2 ^ 16 % 2 ^ 16 * 2 ^ 48 else v

/-- narrow: two f32 codes to bf16 halves. -/
def collNarrow (c v : Nat) : Nat :=
  if c = 6 then
    let h := fun w => Fmt.bf16.round (Fmt.f32.value w) .rne false
    h (v % 2 ^ 32) + 2 ^ 16 * h (v / 2 ^ 32 % 2 ^ 32)
  else v

/-- A floating operation on each f32 half of a widened bf16 pair. -/
def onHalves (f : Nat → Nat → Nat) (a b : Nat) : Nat :=
  f (a % 2 ^ 32) (b % 2 ^ 32) + 2 ^ 32 * f (a / 2 ^ 32 % 2 ^ 32) (b / 2 ^ 32 % 2 ^ 32)

/-- combine on two clean values. -/
def collCombine (c op a b : Nat) : Nat :=
  let flo := fun (f : Fmt) (x y : Nat) =>
    if op = 0 then f.round ((f.value x).add .rne (f.value y)) .rne false else fminmaxBits f (op == 2) x y
  let ints := fun (ty : Ty) =>
    if op = 0 then aluAdd ty false a b else if op = 1 then aluMin ty a b else aluMax ty a b
  let ivs := fun (ty : Ty) =>
    let f := match op with
      | 0 => strict2 ivAdd
      | 1 => strict2 fun x y => ⟨fmin2 x.lo y.lo, fmin2 x.hi y.hi⟩
      | 2 => strict2 fun x y => ⟨fmax2 x.lo y.lo, fmax2 x.hi y.hi⟩
      | _ => ivHull
    ivOut ty (f (ivOf ty a) (ivOf ty b))
  match c with
  | 0 => ints .i32
  | 1 => ints .n32
  | 4 => flo Fmt.f32 a b
  | 5 => flo Fmt.f64 a b
  | 6 => onHalves (flo Fmt.f32) a b
  | 7 => ivs .f32iv
  | _ => ivs .f64iv

/-- combine with poison: a poisoned value poisons the result (R84). -/
def collJoin (c op a b : Nat) : Nat :=
  collCombine c op (a % collPois) (b % collPois) + (if collPois ≤ a ∨ collPois ≤ b then collPois else 0)

/-- Whether an interval contribution has a NaN bound (R56). -/
def collNan (c v : Nat) : Bool :=
  match c with
  | 7 => (ivOf .f32iv v).lo.isNan || (ivOf .f32iv v).hi.isNan
  | 8 => (ivOf .f64iv v).lo.isNan || (ivOf .f64iv v).hi.isNan
  | _ => false

/-- The accumulator of a node: its own values, then each child's in the tree's order. -/
def CollOp.acc (c : CollOp) (b : CollBlock) (kids : List Nat) : List Nat :=
  kids.foldl (fun acc k =>
    let p := tget c.partials k []
    acc.zipIdx.map fun (a, i) => collJoin b.type b.op a (p.getD i 0)) c.own

/-! The engine's steps. -/

/-- The collective's node at this shard. -/
def CollOp.node (c : CollOp) : CollNode := collNode ((c.nodes.drop (32 * c.self)).take 32)

/-- A collective changed. -/
def State.modColl (s : State) (op : Nat) (f : CollOp → CollOp) : State := { s with colls := tmod op f s.colls }

/-- The engine of another shard of the same collective on this package. -/
def State.shardOp (s : State) (c : CollOp) (k : Nat) : Option Nat :=
  (s.colls.find? fun (_, d) => d.part == c.part && d.tag == c.tag && d.self == k &&
    vcoreOf d.core == (shardAt c.map k).2 && !d.nodes.isEmpty).map (·.1)

/-- The flits of a message to another package: bytes cut into payloads of 224 (R50). (DEDUCED: log entry 42) -/
def collFlits (c : CollOp) (here dpkg op : Nat) (bs : List Byte) : List SentFlit :=
  (List.range (max 1 ((bs.length + 223) / 224))).map fun k =>
    let d := (bs.drop (224 * k)).take 224
    ⟨0, ⟨3, 2, c.part, dpkg, here, 0, 0, 0, 0, (d.length + 31) / 32, c.tag % 2 ^ 16, 0, d⟩, 0, 3, op⟩

/-- A message sent to a shard on another package, and charged (R37, R53). (DESIGN CHOICE: log entry 55) -/
def State.collSend (s : State) (op : Nat) (c : CollOp) (k : Nat) (bs : List Byte) : State :=
  let d := (shardAt c.map k).1
  match s.routePort c.part d (collBlock c.block).src with
  | none => s.unroutable c.part
  | some p => (s.sendFlits p (collFlits c s.fw.packageId d op bs)).charge c.part c.pasid (500 * bs.length)

/-- Whether a shard is on this package. -/
def State.shardHere (s : State) (c : CollOp) (k : Nat) : Bool := (shardAt c.map k).1 == s.fw.packageId

/-- The bytes of values of n bytes each. -/
def valueBytes (n : Nat) (vs : List Nat) : List Byte := vs.flatMap fun v => leBytes n v

/-- A partial result and digests enter a node's engine (R56, R58). (DEDUCED: log entry 42) -/
def CollOp.take (c : CollOp) (child : Nat) (vals : List Nat) (ds : List (Nat × Nat)) : CollOp :=
  { c with partials := if vals.isEmpty then c.partials else tset child vals c.partials,
           digests := c.digests ++ ds.filter fun d => !c.digests.any fun e => e.1 == d.1 }

/-- A shard's partial result or digests go to its parent, when the parent's engine is there to take them. -/
def State.toParent (s : State) (op : Nat) (c : CollOp) (vals : List Nat) (ds : List (Nat × Nat)) : Option State :=
  let up := c.node.parent
  if s.shardHere c up then
    (s.shardOp c up).map fun n => s.modColl n fun d => d.take c.self vals ds
  else
    let n := if (collBlock c.block).type = 6 then 8 else collBytes (collBlock c.block).type
    some (s.collSend op c up (valueBytes n vals ++ valueBytes 32 (ds.map (·.2))))

/-- The result passes down the tree from a node: through the shards on this package at once, and in messages to the others
(R56, R412). -/
def State.toKids (s : State) (op : Nat) (c : CollOp) (vals : List Nat) : Nat → State
  | 0 => s
  | n + 1 =>
    c.node.kids.foldl (fun s k =>
      if s.shardHere c k then
        match (s.shardOp c k).bind fun m => (tget? m s.colls).map fun d => (m, d) with
        | none => s
        | some (m, d) =>
          if d.result.isSome then s
          else (s.modColl m fun d => { d with result := some vals }).toKids m d vals n
      else s.collSend op c k (if (collBlock c.block).kind = 0 then [] else valueBytes (collBytes (collBlock c.block).type) vals)) s

/-- The result stands at a node, and passes down from it. -/
def State.collResult (s : State) (op : Nat) (c : CollOp) (vals : List Nat) : State :=
  (s.modColl op fun d => { d with result := some vals }).toKids op c vals (collBlock c.block).shards

/-- A translation code suspends a collective, or ends its task (R235, R412). (DEDUCED: log entry 42) -/
def State.collStop (s : State) (op : Nat) (c : CollOp) (acc code page guest : Nat) : State :=
  if code = 0x03 || code = 0x01 || code = 0x02 || code = 0x05 || code = 0x06 then
    let s := s.modColl op fun d => { d with suspended := some (code, page, acc) }
    if code = 0x03 then s
    else match s.anyGroup c.group with
      | none => s
      | some g => s.gather c.part (s.gatherOf c.group g) c.pasid c.job (vcoreOf c.core) c.pc ⟨page, code, acc, guest, 0⟩ (.engine op)
  else s.engineFault c.group c.pc ⟨code, acc, 0, lo32 (page * 2 ^ 16), hi32 (page * 2 ^ 16), 0⟩

/-- Bytes that a collective's engine reads, charged (R37), with the byte's poison; none where it waits, stops or has ended. -/
def State.collRead (s : State) (op : Nat) (c : CollOp) (a n : Nat) : State × Option (List (Byte × Bool)) :=
  let as := (List.range n).map (a + ·)
  match engTry s op c.part c.core c.pasid 0 .r as with
  | .waits s => (s, none)
  | .stop code page guest => (s.collStop op c Acc.r.bits code page guest, none)
  | .pages xs =>
    match s.part? c.part with
    | none => (s, none)
    | some p =>
      let cost := (as.map fun a => ((engPlaces p xs a).head?).elim 0 fun pl => memCost pl.phys 1).foldl (· + ·) 0
      (s.charge c.part c.pasid cost, some (as.map fun a => (BitVec.ofNat 8 (engByte s p xs a 0), (poisonedAddr s p xs [a]).isSome)))

/-- The engine reads the node table and the shard map, and takes its digest (R55, R58). A poisoned table is a poisoned
engine record (R84). -/
def State.collStart (s : State) (op : Nat) (c : CollOp) : State :=
  let b := collBlock c.block
  match s.collRead op c b.nodes (32 * b.shards) with
  | (s, none) => s
  | (s, some ns) =>
    match s.collRead op c b.map (8 * b.shards) with
    | (s, none) => s
    | (s, some ms) =>
      if ns.any (·.2) || ms.any (·.2) then s.engineFault c.group c.pc ⟨0x23, 0, 0, lo32 b.nodes, 2, 0⟩
      else
        let nodes := ns.map (·.1)
        let s := s.modColl op fun d =>
          { d with nodes := nodes, map := ms.map (·.1), digests := [(b.self, digestNat (sha256 nodes))] }
        if treeOk (collNodes nodes) then s else s.collKill c.part c.tag 1

/-- The elements of a range as codes with poison. -/
def collElems (n : Nat) : Nat → List (Byte × Bool) → List Nat
  | 0, _ => []
  | k + 1, bs =>
    let e := bs.take n
    (leNat (e.map (·.1)) + (if e.any (·.2) then collPois else 0)) :: collElems n k (bs.drop n)

/-- The engine reads this shard's contribution (R56). -/
def State.collContribute (s : State) (op : Nat) (c : CollOp) : State :=
  let b := collBlock c.block
  let n := collBytes b.type
  match s.collRead op c b.src (n * b.count) with
  | (s, none) => s
  | (s, some bs) =>
    let vs := collElems n b.count bs
    if vs.any fun v => collNan b.type (v % collPois) then s.collKill c.part c.tag 5
    else
      let widen := fun (v : Nat) => collWiden b.type (v % collPois) + (if collPois ≤ v then collPois else 0)
      s.modColl op fun d => { d with own := if b.kind = 2 then vs else vs.map widen }

/-- The final result at a node's engine, written where the kind writes it, its ranges released, and its arrival (R412). -/
def State.collFinish (s : State) (op : Nat) (c : CollOp) (vals : List Nat) : State :=
  let b := collBlock c.block
  let n := collBytes b.type
  let gone := fun (s : State) =>
    ((((({ s with colls := terase op s.colls }.unlock c.core op).dropReturned (.engine op)).wakeEngine c.core).arrive c.done
      (b.count * n)).lateExit c.group)
  if b.kind = 0 && c.node.parent != 0xFFFF then gone s
  else
    let as := (List.range (n * b.count)).map (b.dst + ·)
    match engTry s op c.part c.core c.pasid 0 .w as with
    | .waits s => s
    | .stop code page guest => s.collStop op c Acc.w.bits code page guest
    | .pages xs =>
      match s.part? c.part with
      | none => s
      | some p =>
        let s := (List.range b.count).foldl (fun s k =>
          let v := vals.getD k 0
          (leBytes n v).zipIdx.foldl (fun s (by_, q) =>
            match engPlaces p xs (b.dst + n * k + q) with
            | [] => s
            | pl :: _ => (s.writeRun (some c.pasid) pl.key pl.phys [by_] (decide (collPois ≤ v))).charge c.part c.pasid (memCost pl.phys 1)) s) s
        gone s

/-- One look at a collective: it reads what it lacks, passes on what is ready, checks digests at the root, and completes
when its result is there (R56 to R58, R412). In deterministic mode it completes at its due boundary (R315). -/
def State.collMove (s : State) (op : Nat) (c : CollOp) : State :=
  let b := collBlock c.block
  let root := c.node.parent == 0xFFFF
  match c.result with
  | some vals =>
    if s.normalMode c.part then s.collFinish op c vals else s
  | none =>
    if c.own.isEmpty && (b.kind != 2 || root) then s.collContribute op c
    else
      let ready := b.kind = 2 || c.node.kids.all fun k => thas k c.partials
      if root then
        let own := c.digests.head?.elim 0 (·.2)
        if c.digests.any fun d => d.2 != own then s.collKill c.part c.tag 2
        else if ready && decide (b.shards ≤ c.digests.length) then
          let s := s.sysPost c.part teleStream 0x0012 ((digestWords own).map (·.toNat) ++ [b.shards, c.tag])
          let narrow := fun (v : Nat) => collNarrow b.type (v % collPois) + (if collPois ≤ v then collPois else 0)
          let vals := if b.kind = 2 then c.own else (c.acc b c.node.kids).map narrow
          s.collResult op c vals
        else s
      else if b.kind = 2 then
        match c.digests.drop c.passed with
        | [] => s
        | ds => ((s.toParent op c [] ds).map fun s => s.modColl op fun d => { d with passed := c.digests.length }).getD s
      else if ready && !c.sent then
        ((s.toParent op c (c.acc b c.node.kids) c.digests).map fun s => s.modColl op fun d => { d with sent := true }).getD s
      else s

/-- One look at a collective by number. -/
def State.collRun (s : State) (op : Nat) : State :=
  match tget? op s.colls with
  | none => s
  | some c => if c.suspended.isSome then s else if c.nodes.isEmpty then s.collStart op c else s.collMove op c

/-- Every collective of the package looked at once: an act of each clock. -/
def State.collPoll (s : State) : State := (tkeys s.colls).foldl (fun s op => s.collRun op) s

/-! COLL. -/

/-- The block of one lane's COLL, with the place of its completion sett: window-bound, permission, tensor-record or
poison-use (R412, R54). -/
def collAt (s : State) (key : Nat) (g : Group) (field lane v : Nat) : Except (Nat × Nat × Nat) (List Byte × Nat) := do
  let ck := coreOf key
  let die := dieOf (s.coreQuarter ck)
  let (phys, gen) ← match v / 2 ^ 30 with
    | 0 =>
      let off := v % 2 ^ 30
      let gen := localGeneric (vcoreOf ck) off
      if off % 64 = 0 ∧ off < 2 ^ 20 ∧ off + 64 ≤ s.lstoreOf g then Except.ok (localAddr (g.team.getD 0) off, gen)
      else .error (lane, 0x09, gen)
    | 1 =>
      let off := v % 2 ^ 30
      let gen := 0xFD * 2 ^ 48 + die * 2 ^ 27 + off
      if off % 64 = 0 ∧ off < 2 ^ 27 then
        match (s.part? (partOf key)).map fun p => s.dieByte p (s.secureQuarter (s.coreQuarter ck)) die off false with
        | some (.ok pl) => .ok (pl.phys, gen)
        | some (.error (.flt c _)) => .error (lane, c, gen)
        | _ => .error (lane, 0x09, gen)
      else .error (lane, 0x09, gen)
    | _ => .error (lane, 0x09, v)
  if s.poisonAt phys 64 then .error (lane, 0x23, field)
  else
    let bs := memBytes s.mem phys 64
    let d := (collBlock bs).done
    let bad : Except (Nat × Nat × Nat) (List Byte × Nat) := .error (lane, 0x0E, gen)
    let low := d % 2 ^ 48
    if !collBlockOk bs || d % 32 != 0 then bad
    else if d / 2 ^ 48 = 0xFE && low / 2 ^ 20 = vcoreOf ck && decide (low % 2 ^ 20 + 32 ≤ s.lstoreOf g) then
      .ok (bs, localAddr (g.team.getD 0) (low % 2 ^ 20))
    else if d / 2 ^ 48 = 0xFD && low / 2 ^ 27 = die then
      match (s.part? (partOf key)).map fun p => s.dieByte p (s.secureQuarter (s.coreQuarter ck)) die (low % 2 ^ 27) false with
      | some (.ok pl) => .ok (bs, pl.phys)
      | _ => bad
    else bad

/-- The collectives in flight on a core, at most 8 (R412). -/
def State.collCount (s : State) (ck : Nat) : Nat := (s.colls.filter fun (_, c) => c.core == ck).length

/-- One collective issued with its two ranges; none while the core has no room (R59, R204, R412). -/
def State.collIssue (s : State) (iss : Issue) (g : Group) (bs : List Byte) (done : Nat) : Option State :=
  let ck := coreOf iss.key
  let part := partOf iss.key
  let n := s.serial
  let b := collBlock bs
  let size := b.count * collBytes b.type
  let locks := spanLock part g.pasid (some (b.src, b.src + size - 1)) false n ++
    spanLock part g.pasid (some (b.dst, b.dst + size - 1)) true n
  if s.collCount ck < 8 && s.lockRoom ck 2 then
    let c : CollOp :=
      { part := part, core := ck, group := iss.key, pc := iss.pc, pasid := g.pasid, lid := g.uid, job := g.job, block := bs,
        tag := b.tag, self := b.self, nodes := [], map := [], done := done, timeoutAt := s.timer + b.timeout, own := [],
        partials := [], digests := [], passed := 0, sent := false, result := none,
        due := (s.detOf part).elim 0 fun d => d.round + 1 + 1024 + (size + 255) / 256, suspended := none }
    some ({ s with serial := n + 1, colls := tset n c s.colls }.addLocks ck locks)
  else none

/-- COLL (R412): every lane is checked before any acts, then they issue in order. (DEDUCED: log entry 42) -/
def collAct (a : Opnd) : Act :=
  let reqs := fun (iss : Issue) (g : Group) (s : State) => (lanesOf iss.lanes).map fun i => collAt s iss.key g a.code i (val32 a g i)
  committing
    (fun iss g s => do
      noPoison g iss [(a, 1, 2)]
      let bad := (reqs iss g s).filterMap fun r =>
        match r with
        | .error e => some e
        | .ok _ => none
      let held := bad.filter fun e => decide (e.2.1 ≤ 6)
      if !held.isEmpty then
        .error (.abort (missedOf Acc.r.bits (held.map fun (i, c, gen) => ⟨i, c, gen, 0⟩)))
      else recordTrap bad
      needToken s iss g 0
      return s)
    fun iss g s =>
      let rs := List.zip (lanesOf iss.lanes) (reqs iss g s)
      let one := fun (s : State) (i : Nat) =>
        match rs.find? (·.1 == i) with
        | some (_, .ok (bs, done)) => s.collIssue iss g bs done
        | _ => some s
      let (s, left) := inTurn one s (lanesOf iss.lanes)
      let s := s.modGroup iss.key fun g => { g with touched := true }
      if left.isEmpty then .ok s
      else .ok (s.modGroup iss.key fun g =>
        (g.eachLane (maskOfList left) fun _ l => { l with pc := iss.pc, must := .nothing }).stallAll .engine)

/-- COLL. -/
def execColl (a : Opnd) (s : State) : Host.Outcome State Fault Refusal := runAct (collAct a) s

/-- A child's partial result arrives with the digests that travel with it (R56, R58). -/
def collPartial (op child : Nat) (vals : List Nat) (ds : List (Nat × Nat)) (s : State) : State :=
  match tget? op s.colls with
  | none => s
  | some c =>
    let ty := (collBlock c.block).type
    if c.result.isNone && ty != 6 && vals.any fun v => collNan ty (v % collPois) then s.collKill c.part c.tag 5
    else (s.modColl op fun c => c.take child vals ds).collRun op

/-- COLL_PARTIAL_ARRIVAL. -/
def execCollPartialArrival (op child : Nat) (vals : List Nat) (digests : List (Nat × Nat)) (s : State) :
    Host.Outcome State Fault Refusal := runStep (collPartial op child vals digests) s

/-- A tree digest arrives by itself: the root compares it with its own (R58). -/
def collDigest (op shard digest : Nat) (s : State) : State :=
  (s.modColl op fun c => c.take shard [] [(shard, digest)]).collRun op

/-- COLL_DIGEST_ARRIVAL. -/
def execCollDigestArrival (op shard digest : Nat) (s : State) : Host.Outcome State Fault Refusal :=
  runStep (collDigest op shard digest) s

/-- Completion reaches a shard: it passes on to the children, and the shard completes (R56, R412). -/
def collComplete (op : Nat) (vals : List Nat) (s : State) : State :=
  match tget? op s.colls with
  | none => s
  | some c =>
    if c.result.isSome || c.nodes.isEmpty then s
    else (s.collResult op c vals).collRun op

/-- COLL_COMPLETE. -/
def execCollComplete (op : Nat) (vals : List Nat) (s : State) : Host.Outcome State Fault Refusal :=
  runStep (collComplete op vals) s

/-- A collective's timeout expires; a result that has arrived wins (R57). -/
def collTimeout (op : Nat) (s : State) : State :=
  match tget? op s.colls with
  | none => s
  | some c => if c.result.isSome || decide (s.timer < c.timeoutAt) then s else s.collKill c.part c.tag 4

/-- COLL_TIMEOUT. -/
def execCollTimeout (op : Nat) (s : State) : Host.Outcome State Fault Refusal := runStep (collTimeout op) s

end Sys2Proof.Machine
end

