-- ==== Sys2Proof/Machine/Room.lean ====
section
/-! DEFINITION. What a core has room for (R142, R144). -/

namespace Sys2Proof.Machine

/-- Main registers, group slots and local-store units of a core (R142). -/
def coreRegs : Nat := 131072
/-- Group slots of a core. -/
def coreSlots : Nat := 48
/-- Local-store units of 4 KiB of a core. -/
def coreUnits : Nat := 256

/-- What a task needs of a core. -/
structure Need where
  slots : Nat
  regs : Nat
  units : Nat
deriving DecidableEq, Repr

/-- Two needs together. -/
def Need.plus (a b : Need) : Need := ⟨a.slots + b.slots, a.regs + b.regs, a.units + b.units⟩

/-- What fits in what is free. -/
def Need.fits (a free : Need) : Bool := decide (a.slots ≤ free.slots) && decide (a.regs ≤ free.regs) && decide (a.units ≤ free.units)

/-- The groups on a core. -/
def State.coreGroups (s : State) (ck : Nat) : List (Nat × Group) := s.groups.filter fun (k, _) => coreOf k == ck

/-- Whether a team is on its core: none of its groups is in the save area (R336). -/
def State.teamHere (s : State) (serial : Nat) : Bool := !s.saved.any fun (_, g) => g.team == some serial

/-- The teams on a core. -/
def State.coreTeams (s : State) (ck : Nat) : List (Nat × Team) :=
  s.teams.filter fun (n, t) => t.part * 256 + t.core == ck && s.teamHere n

/-- The local-store units of a size. -/
def unitsOf (lstore : Nat) : Nat := (lstore + 4095) / 4096

/-- The room that a TEAM task of a grid needs. -/
def Grid.teamNeed (g : Grid) : Need := ⟨g.groups, g.groups * 32 * g.base + 32 * g.ext, unitsOf g.lstore⟩

/-- The room that a task needs. -/
def State.taskNeed (s : State) (part : Nat) (t : Task) : Need :=
  match s.gridOf part t.grid with
  | none => ⟨1, 0, 0⟩
  | some g => if t.kind = .team then g.teamNeed else ⟨1, 32 * g.base, 0⟩

/-- The room that granted reservations set aside (R144). -/
def State.setAside (s : State) (ck : Nat) : Need :=
  (s.coreSt ck).granted.foldl (fun n (grid, _) => match s.gridOf (partOfCore ck) grid with
    | none => n
    | some g => n.plus g.teamNeed) ⟨0, 0, 0⟩

/-- The main registers in use on a core: those of its groups, but of one that waits at a PHASE, and its teams'
extensions (R142, R147). -/
def State.usedRegs (s : State) (ck : Nat) : Nat :=
  ((s.coreGroups ck).map fun (_, g) => if g.halt = .phase then 0 else 32 * g.base).foldl (· + ·) 0 +
  ((s.coreTeams ck).map fun (_, t) => 32 * t.extRegs).foldl (· + ·) 0

/-- What is free on a core beside the reservations. -/
def State.freeRoom (s : State) (ck : Nat) : Need :=
  let aside := s.setAside ck
  ⟨coreSlots - (s.coreGroups ck).length - aside.slots, coreRegs - s.usedRegs ck - aside.regs,
   coreUnits - ((s.coreTeams ck).map fun (_, t) => unitsOf t.lstore).foldl (· + ·) 0 - aside.units⟩

/-- The free group slots of a core, rising. -/
def State.freeSlots (s : State) (ck : Nat) : List Nat :=
  (List.range coreSlots).filter fun k => (s.group? (ck * coreSlots + k)).isNone

end Sys2Proof.Machine
end

