-- ==== Sys2Proof/Machine/Control.lean ====
section
/-! DEFINITION. Class 110: branches, calls, JOIN, REGION, PHASE, the extension, YIELD, waits, EXIT, TRAP and BKPT, and
spin detection (R149 to R162, R147, R148, R371 to R377, R332, R333). -/

namespace Sys2Proof.Machine

/-- A PC some instructions further (R340). -/
def pcPlus (pc : Nat) (off : BitVec 32) : Nat := wrap 56 ((pc : Int) + 12 * intVal true 32 off.toNat)

/-- Whether an offset is negative. -/
def backward (off : BitVec 32) : Bool := bit off.toNat 31

/-- Lanes of a group changed to stand at a PC. -/
def Group.jump (g : Group) (lanes pc : Nat) : Group := g.eachLane lanes fun _ l => { l with pc := pc }

/-! Spin detection (R157). -/

/-- A backward branch taken by the lanes of a mask: the entry's count, the least recently used entry when none matches,
and demotion at SPINT. Entries are kept with the latest one last. -/
def Group.spinTake (g : Group) (pc lanes : Nat) : Group :=
  if lanes = 0 then g
  else
    let here := fun (e : Spin) => e.addr == pc && e.lanes == lanes
    let count := match g.spins.find? here with
      | some e => if e.clean then e.count + 1 else 1
      | none => 1
    let rest := match g.spins.find? here with
      | some _ => g.spins.filter fun e => !here e
      | none => if g.spins.length < 4 then g.spins else g.spins.drop 1
    let hit := decide (g.spint ≤ count)
    let g := { g with spins := rest ++ [⟨pc, lanes, if hit then 0 else count, true⟩] }
    if hit then g.eachLane lanes fun _ l => { l with demoted := true } else g

/-! Branches (R372). -/

/-- BRA. -/
def braAct (off : BitVec 32) : Act := fun iss g s =>
  let g := g.jump iss.lanes (pcPlus iss.pc off)
  .ok (s.setGroup iss.key (if backward off then g.spinTake iss.pc iss.lanes else g))

/-- BRA. -/
def execBra (off : BitVec 32) (s : State) : Host.Outcome State Fault Refusal := runAct (braAct off) s

/-- The targets of BRX and CALLX: a target that is no multiple of 4 is an Illegal Instruction of the path, and a poisoned
operand a poison-use (R340, R355, R356, R372). (DEDUCED: log entry 14) -/
def regTargets (iss : Issue) (g : Group) (a b : Opnd) : Except Trap (Tbl Nat) := do
  let ts := (lanesOf iss.lanes).map fun i => (i, ((read64 g i a).1 % 2 ^ 56 + 12 * (read32 g i b).1) % 2 ^ 56)
  require (ts.all fun (_, t) => t % 4 == 0) (.plain 0x14 iss.path)
  noPoison g iss [(a, 2, 1), (b, 1, 1)]
  return ts

/-- BRX. (DEDUCED: log entry 14) -/
def brxAct (a b : Opnd) : Act := fun iss g s => do
  let ts ← regTargets iss g a b
  return s.setGroup iss.key (ts.foldl (fun g (i, t) => g.setLane i fun l => { l with pc := t }) g)

/-- BRX. -/
def execBrx (a b : Opnd) (s : State) : Host.Outcome State Fault Refusal := runAct (brxAct a b) s

/-! The return stack (R149). -/

/-- Byte address of a spilled entry of a lane. -/
def State.spillEntry (s : State) (key i e : Nat) : Nat := s.spillAddr key (0x3000 + 256 * e + 8 * i)

/-- The number of entries of a lane's stack. -/
def Lane.depth (l : Lane) : Nat := l.stack.length + l.spilled

/-- An address pushed: the oldest of 16 entries in the core moves to the spill area. -/
def State.push (s : State) (key i v : Nat) : State :=
  match s.group? key with
  | none => s
  | some g =>
    let l := g.lane i
    if l.stack.length < 16 then s.setGroup key (g.setLane i fun l => { l with stack := v :: l.stack })
    else
      let s := s.store (s.spillEntry key i l.spilled) (leBytes 8 (l.stack.getLastD 0)) false
      s.setGroup key (g.setLane i fun l => { l with stack := v :: l.stack.dropLast, spilled := l.spilled + 1 })

/-- The top entry popped into the PC; when the core is left empty, the youngest spilled entry comes back. -/
def State.pop (s : State) (key i : Nat) : State :=
  match s.group? key with
  | none => s
  | some g =>
    match (g.lane i).stack with
    | [] => s
    | v :: rest =>
      let n := (g.lane i).spilled
      if rest.isEmpty && decide (0 < n) then
        let back := s.readNat (s.spillEntry key i (n - 1)) 8
        s.setGroup key (g.setLane i fun l => { l with pc := v, stack := [back], spilled := n - 1 })
      else s.setGroup key (g.setLane i fun l => { l with pc := v, stack := rest })

/-- The lanes' next instruction must be a REGION (R151). -/
def State.afterCall (s : State) (iss : Issue) : State :=
  s.modGroup iss.key fun g => g.eachLane iss.lanes fun _ l => { l with must := .afterCall }

/-- After the other lanes have acted, lanes that commit a fault of 0x18 to 0x1A are stopped, and the task ends as faulted
(R328). (DEDUCED: log entry 13) -/
def State.stopLanes (s : State) (iss : Issue) (code lanes : Nat) : State :=
  match s.group? iss.key with
  | none => s
  | some g => if lanes = 0 then s else s.taskFault iss.key g ⟨code, 0, lanes, 0, 0, 0⟩ iss.pc

/-- A call of each lane to its target (R372); a 33rd entry overflows (R150). -/
def callTo (iss : Issue) (g : Group) (s : State) (ts : Tbl Nat) : State :=
  let bad := maskOf fun i => bit iss.lanes i && decide (32 ≤ (g.lane i).depth)
  let good := { iss with lanes := maskDiff iss.lanes bad }
  let s := (lanesOf good.lanes).foldl (fun s i => s.push iss.key i ((iss.pc + 12) % 2 ^ 56)) s
  let jump := fun (g : Group) (x : Nat × Nat) => if bit good.lanes x.1 then g.setLane x.1 fun l => { l with pc := x.2 } else g
  let s := s.modGroup iss.key fun g => ts.foldl jump g
  (s.afterCall good).stopLanes iss 0x18 bad

/-- CALL. -/
def callAct (off : BitVec 32) : Act := fun iss g s =>
  .ok (callTo iss g s ((lanesOf iss.lanes).map fun i => (i, pcPlus iss.pc off)))

/-- CALL. -/
def execCall (off : BitVec 32) (s : State) : Host.Outcome State Fault Refusal := runAct (callAct off) s

/-- CALLX: faults of its target come before the stack's (R330). (DEDUCED: log entry 14) -/
def callxAct (a b : Opnd) : Act := fun iss g s => do
  let ts ← regTargets iss g a b
  return callTo iss g s ts

/-- CALLX. -/
def execCallx (a b : Opnd) (s : State) : Host.Outcome State Fault Refusal := runAct (callxAct a b) s

/-- RET (R149, R150, R154). -/
def retAct : Act := fun iss g s =>
  let bad := maskOf fun i => bit iss.lanes i && decide ((g.lane i).depth = 0)
  let good := { iss with lanes := maskDiff iss.lanes bad }
  .ok ((((lanesOf good.lanes).foldl (fun s i => s.pop iss.key i) s).afterCall good).stopLanes iss 0x19 bad)

/-- RET. -/
def execRet (s : State) : Host.Outcome State Fault Refusal := runAct retAct s

/-- BSE (R372, R415). -/
def bseAct (n : Nat) (o : Opnd) (off : BitVec 32) : Act := fun iss g s =>
  let r := match o with
    | .s k => g.sreg k
    | _ => SReg.free
  let flags := match n with
    | 0 => r.f0 | 1 => r.f1 | _ => r.f2
  let taken := maskOf fun i => bit iss.lanes i && bit flags i
  let g := g.jump taken (pcPlus iss.pc off)
  .ok (s.setGroup iss.key (if backward off then g.spinTake iss.pc taken else g))

/-- BSE. -/
def execBse (n : Nat) (r : Opnd) (off : BitVec 32) (s : State) : Host.Outcome State Fault Refusal := runAct (bseAct n r off) s

/-! JOIN (R155, R373). -/

/-- JOIN: the lanes open an instance at the PC or join the one that is there. -/
def joinAct (pd a b : Opnd) : Act := fun iss g s => do
  let g := g.eachLane iss.lanes fun _ l => { l with pc := iss.pc, wait := .join }
  match g.joins.find? fun j => j.pc == iss.pc with
  | some _ =>
    let g := { g with joins := g.joins.map fun (j : Join) => if j.pc = iss.pc then { j with lanes := j.lanes ||| iss.lanes } else j }
    return s.setGroup iss.key g.joinCheck
  | none =>
    let i := lowLane iss.lanes
    noPoison g { iss with lanes := 2 ^ i } [(a, 1, 1), (b, 1, 1)]
    let j : Join := ⟨iss.pc, val32 a g i, g.ticks, val32 b g i, iss.lanes, predNo pd⟩
    return s.setGroup iss.key { g with joins := g.joins ++ [j] }.joinCheck

/-- JOIN. -/
def execJoin (pd a b : Opnd) (s : State) : Host.Outcome State Fault Refusal := runAct (joinAct pd a b) s

/-- An instance's timeout: arrival wins, else the lanes present leave with F (R155). -/
def joinExpire (key pc : Nat) (s : State) : State :=
  s.modGroup key fun g =>
    match g.joins.find? fun j => j.pc == pc with
    | none => g
    | some j =>
      if j.limit = 0 || decide (g.ticks < j.since + j.limit) then g
      else g.noteWrites (g.joinLeave j (if g.joinFull j then .T else .F))

/-- JOIN_TIMEOUT. -/
def execJoinTimeout (g pc : Nat) (s : State) : Host.Outcome State Fault Refusal := runStep (joinExpire g pc) s

/-! REGION and PHASE. -/

/-- A lane's entry into a region: its PC and masks, and the named registers as they stand (R188, R374). -/
def Lane.enter (l : Lane) (pc : Nat) (m : Masks) : Lane :=
  { l with
    must := .nothing
    lat := Reg.zero
    c := []
    entry := some
      { pc := pc, masks := m, stack := l.stack, spilled := l.spilled
        x := l.x.filter fun (k, _) => maskNames m 0 k
        p := l.p.filter fun (k, _) => maskNames m 2 k
        e := l.e.filter fun (k, _) => maskNames m 3 k } }

/-- What a REGION records for its group, and the reuse latch released (R188, R246, R374). -/
def Group.mark (g : Group) (m : Masks) : Group :=
  { g with
    reuse := none
    record := some ⟨m, g.w.filter fun (k, _) => maskNames m 1 k, g.axis, g.sregs⟩ }

/-- REGION (R374). -/
def regionAct (m : Masks) : Act := fun iss _ s =>
  .ok ((s.drain iss.key iss.lanes).modGroup iss.key fun g =>
    (g.eachLane iss.lanes fun _ l => l.enter iss.pc m).mark m)

/-- REGION. -/
def execRegion (m : Masks) (s : State) : Host.Outcome State Fault Refusal := runAct (regionAct m) s

/-- The numbers of a mask of n bits. -/
def bitsOf (n m : Nat) : List Nat := (List.range n).filter (bit m ·)

/-- The bytes of a phase record (R147). -/
def phaseSize (m : Masks) : Nat :=
  64 + 1024 * (bitsOf 32 m.x.toNat).length + 128 * (bitsOf 12 m.w.toNat).length + 8 * (bitsOf 8 m.p.toNat).length +
  128 * (bitsOf 8 m.e.toNat).length

/-- The carried blocks of a phase record or a group frame (R147, R336): x lane-major, then w, p and e. -/
def carriedBytes (g : Group) (m : Masks) : List Byte :=
  let word := fun (r : Reg) => leBytes 4 r.bits.toNat
  ((bitsOf 32 m.x.toNat).flatMap fun b => laneIds.flatMap fun i => (List.range 8).flatMap fun k =>
    word (tget (g.lane i).x (8 * b + k) Reg.zero)) ++
  ((bitsOf 12 m.w.toNat).flatMap fun b => (List.range 32).flatMap fun k => word (tget g.w (32 * b + k) Reg.zero)) ++
  ((bitsOf 8 m.p.toNat).flatMap fun k =>
    leBytes 8 (laneIds.foldl (fun n i => n + triNum ((g.lane i).pred k).v * 4 ^ i) 0)) ++
  ((bitsOf 8 m.e.toNat).flatMap fun k => laneIds.flatMap fun i => word (tget (g.lane i).e k Reg.zero))

/-- The poison bits of the p and e registers that a record carries: one for each register that is poisoned in a lane
(R147, R336). -/
def carriedPois (g : Group) (m : Masks) : Nat :=
  ((bitsOf 8 m.p.toNat).map fun k => if laneIds.any fun i => ((g.lane i).pred k).pois then 2 ^ k else 0).foldl (· + ·) 0 +
  ((bitsOf 8 m.e.toNat).map fun k =>
    if laneIds.any fun i => (tget (g.lane i).e k Reg.zero).pois then 2 ^ (8 + k) else 0).foldl (· + ·) 0

/-- The phase record of a group (R147). (DEDUCED: log entry 31) -/
def phaseRecord (g : Group) (pc : Nat) (m : Masks) : List Byte :=
  leBytes 8 pc ++ leBytes 4 g.phaseNo ++ leBytes 4 m.x.toNat ++ leBytes 2 m.w.toNat ++ leBytes 1 m.p.toNat ++
  leBytes 1 m.e.toNat ++ leBytes 4 g.live ++ leBytes 4 (carriedPois g m) ++ List.replicate 36 0 ++ carriedBytes g m

/-- The die-store address of a group's phase record (R143). -/
def State.phaseAddr (s : State) (key : Nat) : Nat :=
  sliceAddr (s.coreQuarter (coreOf key)) (0x1D00000 + quarterIndex (coreOf key) * 0x30000 + slotOf key * 0x1000)

/-- A group's registers released at a phase: what the masks do not carry reads zero (R147). -/
def Group.carry (g : Group) (m : Masks) : Group :=
  { g with
    w := g.w.filter fun (k, _) => maskNames m 1 k
    lanes := g.lanes.map fun l =>
      { l with
        x := l.x.filter fun (k, _) => maskNames m 0 k
        p := l.p.filter fun (k, _) => maskNames m 2 k
        e := l.e.filter fun (k, _) => maskNames m 3 k
        lat := Reg.zero
        c := [] } }

/-- A group whose remaining lanes all wait at a PHASE arrives at it, or its task ends as faulted: its outstanding results
return, its stores drain, its record is written, its registers are released, and its phase number rises (R147, R148).
Results that depend on operations still to complete come first (R164). (DEDUCED: log entry 31) -/
def State.phaseCheck (s : State) (key : Nat) : State :=
  match s.group? key with
  | none => s
  | some g =>
    if g.halt != .running || g.live = 0 || g.waiting .phase != g.live || g.pend.any (!·.owed.isEmpty) then s
    else
      let pcs := ((lanesOf g.live).map fun i => (g.lane i).pc).eraseDups
      let m := g.phaseMasks
      let fail := fun (code : Nat) => s.taskFault key g ⟨code, 0, g.live, 0, 0, 0⟩ g.phasePc
      if 1 < pcs.length then fail 0x1D
      else if 4096 < phaseSize m then fail 0x1E
      else if g.holdsExt then fail 0x1F
      else
        let g := g.returnAll
        let s := (s.drain key allLanes).setBytes (s.phaseAddr key) (phaseRecord g g.phasePc m)
        s.setGroup key { (g.carry m) with halt := .phase, buf := [], phaseNo := (g.phaseNo + 1) % 2 ^ 32 }

/-- A group's outstanding results return, and with them it may arrive at a PHASE (R147, R164). -/
def State.returnAll (s : State) (key : Nat) : State := (s.modGroup key Group.returnAll).phaseCheck key

/-- PHASE: the executing lanes' stores drain, and they wait at the instruction (R147, R375, R185). (DEDUCED: log entry 31) -/
def phaseAct (m : Masks) : Act := fun iss _ s =>
  let s := (s.drain iss.key iss.lanes).modGroup iss.key fun g =>
    { (g.eachLane iss.lanes fun _ l => { l with pc := iss.pc, wait := .phase }) with phasePc := iss.pc, phaseMasks := m }
  .ok (s.phaseCheck iss.key)

/-- PHASE. -/
def execPhase (m : Masks) (s : State) : Host.Outcome State Fault Refusal := runAct (phaseAct m) s

/-- Whether a group that waits at a PHASE may resume: its siblings have caught up, and its registers have room
(R147). -/
def State.phaseReady (s : State) (key : Nat) (g : Group) : Bool :=
  g.halt == .phase && g.pre == .no && decide (32 * g.base ≤ (s.freeRoom (coreOf key)).regs) &&
  match g.kind, g.team with
  | .team, some serial => (s.teamGroups serial).all fun (_, h) => decide (g.phaseNo ≤ h.phaseNo)
  | _, _ => true

/-- A group resumes from its phase record: inside a new region that begins after the PHASE, with the carried registers
as its live-ins (R147, R375). (DEDUCED: log entry 31) -/
def phaseResume (key : Nat) (s : State) : State :=
  match s.group? key with
  | none => s
  | some g =>
    if s.phaseReady key g then
      let go := fun (_ : Nat) (l : Lane) => ({ l with wait := .none, pc := g.phasePc + 12 } : Lane).enter (g.phasePc + 12) g.phaseMasks
      s.setGroup key { ((g.eachLane g.live go).mark g.phaseMasks) with halt := .running }
    else s

/-- PHASE_RESUME. -/
def execPhaseResume (g : Nat) (s : State) : Host.Outcome State Fault Refusal := runStep (phaseResume g) s

/-! The extension, YIELD, NOP, WAITC (R376). -/

/-- XACQ: a holder proceeds; other groups place one request, and wait (R160, R376). (DESIGN CHOICE: log entry 28) -/
def xacqAct : Act := fun iss g s =>
  if g.holdsExt then .ok s
  else
    let s := s.setGroup iss.key (g.eachLane iss.lanes fun _ l => { l with pc := iss.pc, wait := .xacq })
    match g.team with
    | none => .ok s
    | some serial => .ok (s.modTeam serial fun t =>
        if t.extQueue.contains iss.key || t.extNew.contains iss.key then t else { t with extNew := t.extNew ++ [iss.key] })

/-- XACQ. -/
def execXacq (s : State) : Host.Outcome State Fault Refusal := runAct xacqAct s

/-- XREL (R160, R376). (DESIGN CHOICE: log entry 28) -/
def xrelAct : Act := fun iss g s =>
  match g.team with
  | none => .ok s
  | some serial => .ok (s.releaseExt serial iss.key)

/-- XREL. -/
def execXrel (s : State) : Host.Outcome State Fault Refusal := runAct xrelAct s

/-- YIELD: no effect in deterministic mode (R376). -/
def yieldAct : Act := fun iss g s =>
  .ok (if (s.detOf (partOf iss.key)).isSome then s else s.setGroup iss.key { g with yielded := true })

/-- YIELD. -/
def execYield (s : State) : Host.Outcome State Fault Refusal := runAct yieldAct s

/-- NOP. -/
def execNop (s : State) : Host.Outcome State Fault Refusal := runAct (fun _ _ s => .ok s) s

/-- WAITC: the executing lanes wait at the instruction until the load counter reads 0 (R376, R164). (DEDUCED: log entry 31) -/
def waitcAct : Act := fun iss g s =>
  .ok (if g.loads = 0 then s else s.setGroup iss.key (g.eachLane iss.lanes fun _ l => { l with pc := iss.pc, wait := .loads }))

/-- WAITC. -/
def execWaitc (s : State) : Host.Outcome State Fault Refusal := runAct waitcAct s

/-! EXIT, TRAP, BKPT. -/

/-- EXIT: stores drain, the lanes exit, and what waited for them is looked at again (R377, R155, R228). -/
def exitAct : Act := fun iss _ s =>
  let s := (s.drain iss.key iss.lanes).modGroup iss.key fun g =>
    { (g.eachLane iss.lanes fun _ l => { l with live := false, wait := .none, pc := iss.pc }).joinCheck with progress := true }
  let g? := s.group? iss.key
  let s := s.lateExit iss.key
  match g? with
  | none => .ok s
  | some g =>
    let s := if g.live != 0 then s.barriersOf iss.key
      else if g.kind = .team then s.barriers g.team else s
    .ok (s.phaseCheck iss.key)

/-- EXIT. -/
def execExit (s : State) : Host.Outcome State Fault Refusal := runAct exitAct s

/-- The A operand of TRAP and BKPT in the lowest executing lane. -/
def trapVal (g : Group) (iss : Issue) (a : Opnd) : Val := read32 g (lowLane iss.lanes) a

/-- TRAP (R332). -/
def trapAct (code : Word) (a : Opnd) : Act := fun iss g _ =>
  let v := trapVal g iss a
  .error (.fault ⟨0x24, 0, iss.lanes, code.toNat, v.1, 2 * b2n v.2⟩)

/-- TRAP. -/
def execTrap (code : Word) (a : Opnd) (s : State) : Host.Outcome State Fault Refusal := runAct (trapAct code a) s

/-- BKPT: the record is posted, and the group halts with the lanes counted as having passed (R333). (DEDUCED: log entry 52) -/
def bkptAct (code : Word) (a : Opnd) : Act := fun iss g s =>
  let v := trapVal g iss a
  let words := s.faultWords iss.key g ⟨0x25, 0, iss.lanes, code.toNat, v.1, 2 * b2n v.2⟩ iss.pc
  .ok ((s.setGroup iss.key { g with halt := .bkpt iss.pc iss.lanes code.toNat v.1 (2 * b2n v.2) }).postDue (partOf iss.key) g.uid faultStream 0x0008 words)

/-- BKPT. -/
def execBkpt (code : Word) (a : Opnd) (s : State) : Host.Outcome State Fault Refusal := runAct (bkptAct code a) s

end Sys2Proof.Machine
end

