-- ==== Sys2Proof/Machine/Fetch.lean ====
section
/-! DEFINITION. Instruction fetch (R340 to R342, R348). -/

namespace Sys2Proof.Machine

/-- The bytes of a word at a PC, found as an access of type X. Outside paged memory there is none (R341, R348, R169). -/
def fetchFound (s : State) (key : Nat) (g : Group) (pc : Nat) : List Found :=
  (List.range 12).map fun k =>
    let a := (pc + k) % 2 ^ 56
    if isPaged a then s.anyByte key g a .x else .error (.flt 0x09 0)

/-- A fetch from a page that is not of type NORMAL, or not RAW (R177, R176). -/
def fetchFaults (xs : List LaneAccess) : List LaneFault :=
  loadFormat false xs ++ xs.filterMap fun x => if x.entries.any (·.mtype != 0) then some ⟨x.lane, 0x07, x.gen, 0⟩ else none

/-- The word at a path's PC, or what its lanes meet (R341). -/
def fetchWord (s : State) (iss : Issue) (g : Group) : Except Trap (List Byte) := do
  let found := fetchFound s iss.key g iss.pc
  let xs := (lanesOf iss.path).map fun i => (⟨i, iss.pc, found⟩ : LaneAccess)
  awaitPages xs
  raiseFaults Acc.x.bits (byteFaults xs ++ fetchFaults xs)
  let ps := found.filterMap fun b =>
    match b with
    | .ok p => some p
    | .error _ => none
  match hostNeeds s iss.key (ps.map (·.1)) with
  | r :: rs => .error (.remote [] (r :: rs) [])
  | [] =>
    let bs := ps.map fun (pl, e) => readByte s iss.key { g with buf := [] } pl e
    require (!bs.any (·.2)) (.fault ⟨0x23, 0, iss.path, 0, 1, 0⟩)
    return bs.map (·.1)

/-- The instruction at a PC, where it can be fetched and is legal. -/
def State.peek (s : State) (key : Nat) (g : Group) (pc : Nat) : Option (Header × Instr) :=
  match fetchWord s ⟨key, pc, 1, 1, none⟩ { g with walked := true } with
  | .error _ => none
  | .ok bs =>
    match decode bs with
    | .ok (h, i, _) => some (h, i)
    | .error _ => none

end Sys2Proof.Machine
end

