-- ==== Sys2Proof/Machine/Automata.lean ====
section
/-! DEFINITION. The event match engines: automaton tables, the den, matching in merged order, expiry and reports, frames
and spoors, the output queue and its gates (chapters 06 and 07: R98 to R130). -/

namespace Sys2Proof.Machine

/-! Automaton tables (R101 to R105). -/

/-- A transition entry's 32 bytes (R102). -/
def transitionOf (bs : List Byte) : Transition :=
  let w0 := fieldOf bs 0 4
  let w1 := fieldOf bs 4 4
  { src := bits w0 27 5, dst := bits w0 22 5, kind := bits w0 20 2, reset := bits w0 16 4, cls := bits w0 0 16,
    bind := bits w1 29 3, gop := bits w1 26 3, gclk := bits w1 24 2, op1 := bits w1 21 3, idx1 := bits w1 17 4,
    op2 := bits w1 14 3, idx2 := bits w1 10 4, const1 := fieldOf bs 8 4, const2 := fieldOf bs 12 4,
    gconst := fieldOf bs 16 4 }

/-- A table image's fields (R101, R104). -/
def autTableOf (bs : List Byte) : AutTable :=
  let h0 := fieldOf bs 0 4
  let h1 := fieldOf bs 4 4
  { nclocks := bits h0 4 4
    watch := (List.range (bits h0 0 4)).map fun i => fieldOf bs (8 + 2 * i) 2
    each := bit h1 31, ovf := bits h1 29 2, rep := bit h1 28, rstream := bits h1 16 12, budget := bits h1 0 14 + 1
    template := fieldOf bs 24 8
    args := (List.range 8).map fun i =>
      let a := fieldOf bs (32 + 2 * i) 2
      ⟨bits a 13 3, bits a 10 3, bits a 6 4⟩
    start := fieldOf bs 48 6
    states := (List.range (bits h0 16 8)).map fun k =>
      let e := fieldOf bs (64 + 4 * k) 4
      ⟨bit e 31, bit e 30, bits e 28 2, bits e 0 28⟩
    trans := (List.range (bits h0 8 8)).map fun k => transitionOf ((bs.drop (192 + 32 * k)).take 32)
    image := bs }

/-- Whether an argument spec uses only the fields of its kind (R104). -/
def argSpecOk (w : Nat) : Bool :=
  let kind := bits w 13 3
  let slot := bits w 10 3
  let idx := bits w 6 4
  bits w 0 6 == 0 && decide (kind ≤ 4) && decide (slot ≤ 5) && (kind != 0 || slot == 0) &&
  (if kind = 4 then decide (idx ≤ 11) else idx == 0)

/-- Whether a state entry keeps its layout (R101, R105). -/
def stateEntryOk (t : AutTable) (k e : Nat) : Bool :=
  if decide (k < t.states.length) && bit e 31 then k != 0 && decide (bits e 28 2 < t.nclocks) && (!bit e 30 || t.rep)
  else e == 0

/-- Whether a transition keeps R105. The to-state of a KILL or an ACCEPT is ignored (R102). In a table without clocks a
transition without a guard has gclk 0, as the root automaton's has (R71). (DEDUCED: log entry 35) -/
def transitionOk (t : AutTable) (bs : List Byte) (tr : Transition) : Bool :=
  let n := t.states.length
  bits (fieldOf bs 4 4) 0 10 == 0 && fieldOf bs 20 12 == 0 && decide (tr.src < n) && decide (tr.reset < 2 ^ t.nclocks) &&
  tr.bind != 6 && tr.gop != 7 && tr.op1 != 7 && tr.op2 != 7 && decide (tr.idx1 ≤ 11) && decide (tr.idx2 ≤ 11) &&
  (decide (tr.gclk < t.nclocks) || (tr.gop == 0 && t.nclocks == 0 && tr.gclk == 0)) &&
  (if tr.kind < 2 then decide (0 < tr.dst) && decide (tr.dst < n) else tr.kind != 2 || tr.src != 0)

/-- Whether no number is listed twice. -/
def distinct : List Nat → Bool
  | [] => true
  | a :: l => !l.contains a && distinct l

/-- Whether a table image may be installed in a partition (R105). (DEDUCED: log entry 35) -/
def autTableOk (p : Part) (bs : List Byte) : Bool :=
  let t := autTableOf bs
  let h0 := fieldOf bs 0 4
  let nstates := t.states.length
  let openHere := fun (sid : Nat) => thas sid p.streams
  bits h0 24 8 == 1 && decide (1 ≤ nstates) && decide (nstates ≤ 32) && decide (1 ≤ t.trans.length) &&
  decide (t.trans.length ≤ 128) && decide (t.nclocks ≤ 4) && decide (1 ≤ t.watch.length) && decide (t.watch.length ≤ 8) &&
  t.ovf != 3 && bits (fieldOf bs 4 4) 14 2 == 0 &&
  ((List.range 8).all fun i => decide (i < t.watch.length) || fieldOf bs (8 + 2 * i) 2 == 0) &&
  t.watch.all (fun w => decide (w < 4096) && openHere w) && distinct t.watch &&
  t.template % 256 == 0 && fieldOf bs 54 2 == 0 && fieldOf bs 56 8 == 0 &&
  ((List.range 8).all fun i => argSpecOk (fieldOf bs (32 + 2 * i) 2)) &&
  ((List.range 32).all fun k => stateEntryOk t k (fieldOf bs (64 + 4 * k) 4)) &&
  (t.trans.zipIdx.all fun (tr, k) => transitionOk t ((bs.drop (192 + 32 * k)).take 32) tr) &&
  (!t.rep || (!t.watch.contains t.rstream && (match tget? t.rstream p.streams with
    | none => false
    | some st => !st.timed)))

/-- The bytes of an image, by its header's number of transitions (R101). -/
def imageSize (bs : List Byte) : Nat := 192 + 32 * fieldOf bs 1 1

/-! Places that an engine or a program's block names in a context. -/

/-- The place of a byte of a RAW page or of the program area of die store, in a context (R168, R170), with its page. -/
def State.ctxByte (s : State) (w : Waiter) (part : Nat) (secure : Bool) (pasid a : Nat) (acc : Acc) :
    Except XErr (Place × Option TlbEntry) :=
  match s.part? part with
  | none => .error (.flt 0x09 0)
  | some p =>
    if isPaged a then do
      let e ← s.page w noTlb part p secure true pasid (a / 2 ^ 16) acc
      if e.fmt = 0 then return (e.place p (a % 2 ^ 16), some e) else .error (.flt 0x04 0)
    else if a / 2 ^ 48 = 0xFD && a % 2 ^ 48 < 2 ^ 29 then do
      let pl ← s.dieByte p secure (a % 2 ^ 48 / 2 ^ 27) (a % 2 ^ 27) false
      return (pl, none)
    else .error (.flt 0x09 0)

/-- The places of n bytes. -/
def State.ctxPlaces (s : State) (w : Waiter) (part : Nat) (secure : Bool) (pasid a n : Nat) (acc : Acc) :
    Except XErr (List (Place × Option TlbEntry)) :=
  (List.range n).mapM fun k => s.ctxByte w part secure pasid (a + k) acc

/-- n bytes read in a context; a poisoned byte is code 0x23. -/
def State.ctxRead (s : State) (w : Waiter) (part : Nat) (secure : Bool) (pasid a n : Nat) : Except XErr (List Byte) := do
  let ps ← s.ctxPlaces w part secure pasid a n .r
  let pois ← ps.mapM fun x => s.poisonBack w x.1.phys 1
  if pois.any id || ps.any (fun x => x.2.elim false (·.por)) then .error (.flt 0x23 0)
  else return ps.map fun x => s.readKeyed x.1.key x.1.phys

/-- The bytes of a write in runs of rising places under one key. -/
def placeRuns : List (Place × Byte) → List (Place × List Byte)
  | [] => []
  | (pl, b) :: l =>
    match placeRuns l with
    | (q, bs) :: rest => if q.phys = pl.phys + 1 && q.key == pl.key then (pl, b :: bs) :: rest else (pl, [b]) :: (q, bs) :: rest
    | [] => [(pl, [b])]

/-- Bytes written in a context. -/
def State.ctxWrite (s : State) (w : Waiter) (part : Nat) (secure : Bool) (pasid a : Nat) (bs : List Byte) : Except XErr State := do
  let ps ← s.ctxPlaces w part secure pasid a bs.length .w
  return (placeRuns (List.zip (ps.map (·.1)) bs)).foldl (fun s (pl, bs) => s.writeNow (some pasid) pl.key pl.phys bs false) s

/-- Whether a translation has to be asked for first (R43). -/
def XErr.asks : XErr → Bool
  | .ats .. | .host _ => true
  | .miss _ | .flt .. => false

/-- The code of R188 of a refused translation. -/
def XErr.code : XErr → Nat
  | .flt c _ => c
  | _ => 0x01

/-! Engines. -/

/-- The partition that holds a quarter. -/
def State.partOfQuarter (s : State) (q : Nat) : Option Nat := (s.parts.find? fun (_, p) => p.quarters.contains q).map (·.1)

/-- An engine put back. -/
def State.setEngine (s : State) (q : Nat) (e : Engine) : State := { s with engines := tput Engine.empty q e s.engines }

/-- The automaton in a slot of a quarter's engine. -/
def State.automaton? (s : State) (q k : Nat) : Option Automaton := tget? k (s.engine q).slots

/-- An automaton put in a slot. -/
def State.setAutomaton (s : State) (q k : Nat) (a : Automaton) : State :=
  let e := s.engine q
  s.setEngine q { e with slots := tset k a e.slots }

/-- The records of a den (R112). -/
def denSize : Nat := 16384

/-- The start of the lowest free run of records that holds n, from a record on, past the segments in rising order
(R112). -/
def firstFit (n : Nat) : Nat → List (Nat × Nat) → Option Nat
  | pos, [] => if pos + n ≤ denSize then some pos else none
  | pos, (seg, len) :: rest => if pos + n ≤ seg then some pos else firstFit n (seg + len) rest

/-- A segment put in its place among segments of rising start. -/
def insertSeg (a : Nat × Nat) : List (Nat × Nat) → List (Nat × Nat)
  | [] => [a]
  | b :: l => if a.1 ≤ b.1 then a :: b :: l else b :: insertSeg a l

/-- The segments of an engine's den, rising. -/
def Engine.segments (e : Engine) : List (Nat × Nat) :=
  (e.slots.filter fun (_, a) => !a.evictedSeg).foldl (fun l (_, a) => insertSeg (a.seg, a.table.budget) l) []

/-- A free segment of n records of an engine's den (R112). -/
def Engine.freeRun (e : Engine) (n : Nat) : Option Nat := firstFit n 0 e.segments

/-- Room for n records: free as it is, or after the segments of automata that a context stop holds are taken, in slot
order (R338). -/
def Engine.makeRun (e : Engine) (n : Nat) : Option (Engine × Nat) :=
  match e.freeRun n with
  | some k => some (e, k)
  | none =>
    (e.slots.filter fun (_, a) => a.ctxStop && !a.evictedSeg).foldl
      (fun (acc : Engine × Option (Engine × Nat)) (k, a) =>
        match acc.2 with
        | some r => (acc.1, some r)
        | none =>
          let e := { acc.1 with slots := tset k { a with evictedSeg := true, cands := [] } acc.1.slots }
          (e, (e.freeRun n).map fun pos => (e, pos))) (e, none) |>.2

/-! Spoors and frames (R120 to R122). -/

/-- The 64 bytes of a candidate record (R114). -/
def candBytes (c : Candidate) : List Byte :=
  leBytes 8 (2 ^ 63 + c.state * 2 ^ 58 + c.pslot * 2 ^ 52 + c.tenter) ++
  ((List.range 4).flatMap fun k => leBytes 6 (c.clocks.getD k 0)) ++
  (List.range 8).flatMap fun i => leBytes 4 (c.words.getD i 0)

/-- The bytes of a spoor, with a frame serial (R120). -/
def spoorBytes (a : Automaton) (fserial : Nat) : List Byte :=
  let (w, t, q) := a.last.getD (0, 0, 0)
  leBytes 4 (2 ^ 24 + b2n a.last.isSome * 2 ^ 23 + b2n a.stopped * 2 ^ 22 + a.cause * 2 ^ 20 + a.cands.length) ++
  leBytes 4 a.job ++ leBytes 8 (w * 2 ^ 48 + t) ++ leBytes 8 q ++
  leBytes 8 (b2n a.sdone.isSome * 2 ^ 63 + a.sdone.getD 0) ++ sha256Bytes a.table.image ++
  ((List.range 8).flatMap fun i => leBytes 8 (a.next.getD i 0)) ++
  leBytes 8 a.oserial ++ leBytes 4 a.refused ++ leBytes 4 a.evicted ++ leBytes 4 a.xrefused ++ leBytes 4 a.pasid ++
  leBytes 8 fserial ++ List.replicate 32 0 ++ a.cands.flatMap candBytes

/-- The bytes of a frame's room (R121). -/
def frameSize (budget : Nat) : Nat := 192 + 64 * budget

/-- The physical address of a die-store window address. -/
def windowPhys (a : Nat) : Nat := dieAddr (a % 2 ^ 48 / 2 ^ 27) (a % 2 ^ 27)

/-- The watched streams' bases recomputed (R93). -/
def State.rebaseAll (s : State) (part : Nat) (sids : List Nat) : State := sids.foldl (fun s sid => s.rebase part sid) s

/-- An automaton with its next frame written, and its streams' bases recomputed (R121, R122, R93). (DEDUCED: log entry 35) -/
def State.writeFrame (s : State) (q k : Nat) (a : Automaton) : State :=
  let serial := a.fserial + 1
  let f := (serial - 1) % 2
  let s := s.setBytes (windowPhys a.area + f * frameSize a.table.budget) (spoorBytes a serial)
  let s := s.setAutomaton q k { a with fserial := serial, frame := f, frameNext := a.next, dirty := false }
  match s.partOfQuarter q with
  | none => s
  | some part => s.rebaseAll part a.table.watch

/-- The first frame of an installation or a restore: frame 1 is marked invalid, and frame 0 takes serial 1 (R121). -/
def State.firstFrame (s : State) (q k : Nat) (a : Automaton) : State :=
  (s.setBytes (windowPhys a.area + frameSize a.table.budget) (leBytes 4 0)).writeFrame q k { a with fserial := 0 }

/-- Word 0 of classes 0x0020 and 0x0021 (R109). -/
def autNumber (q k : Nat) : Nat := q * 2 ^ 16 + k

/-- An automaton stops at a step boundary with its frame written; with a cause, class 0x0021 is posted (R111, R124). -/
def State.stopAutomaton (s : State) (q k : Nat) (a : Automaton) (cause code handle : Nat) : State :=
  let s := s.writeFrame q k { a with stopped := true, cause := cause }
  if cause = 0 then s
  else match s.partOfQuarter q with
    | none => s
    | some part => s.sysPost part errStream 0x0021 [autNumber q k, cause, code, lo32 handle, hi32 handle]

/-! The next event (R98, R99, R111). -/

/-- The safe time of an automaton: none while a watermark is unset or a stream is closed (R99). -/
def State.safeTime (s : State) (part : Nat) (a : Automaton) : Option Nat :=
  (a.table.watch.mapM fun sid => (s.stream? part sid).bind s.watermark).bind fun ws =>
    match ws with
    | [] => none
    | w :: ws => some (ws.foldl min w)

/-- The next event of a watch index: time, index, sequence. -/
def State.nextOn (s : State) (part : Nat) (a : Automaton) (i : Nat) : Option (Nat × Nat × Nat) :=
  match (a.table.watch[i]?).bind (s.stream? part), a.next[i]? with
  | some st, some q => (st.times[q - st.low]?).bind fun t => if st.low ≤ q then some (t, i, q) else none
  | _, _ => none

/-- The next event in merged order, whose time the safe time has reached: time, watch index, sequence (R98, R99). -/
def State.nextEvent (s : State) (part : Nat) (a : Automaton) : Option (Nat × Nat × Nat) :=
  match s.safeTime part a with
  | none => none
  | some safe =>
    let first := (List.range a.table.watch.length).foldl (fun best i =>
      match best, s.nextOn part a i with
      | none, e => e
      | some b, some e => if e.1 < b.1 then some e else some b
      | some b, none => some b) none
    match first with
    | none => none
    | some e => if e.1 ≤ safe then some e else none

/-- Whether the pass of drop_expired(S) is due: every event of time S or less is processed, and S has risen (R108). -/
def State.passDue (s : State) (part : Nat) (a : Automaton) : Option Nat :=
  match s.safeTime part a, s.nextEvent part a with
  | some safe, none =>
    match a.sdone with
    | none => some safe
    | some d => if d < safe then some safe else none
  | _, _ => none

/-- An event as a scanner takes it. -/
structure Event where
  time : Nat
  cls : Nat
  pois : Bool
  payload : List Nat
  sid : Nat
  seq : Nat
deriving DecidableEq, Repr

/-- The handle of an event (R91). -/
def handleOf (sid seq : Nat) : Nat := sid * 2 ^ 48 + seq

/-- The event at a merged position, read in the automaton's context; the error is the code of R111's cause 3, or what has
to be asked for first (R43). -/
def State.takeEvent (s : State) (part q k : Nat) (a : Automaton) (e : Nat × Nat × Nat) : Except XErr Event :=
  let (t, i, seq) := e
  let sid := a.table.watch.getD i 0
  match s.stream? part sid with
  | none => .error (.flt 0x20 0)
  | some st =>
    match s.readEvent (.scanner q k) part (s.secureQuarter q) a.pasid st seq with
    | .error c => .error c
    | .ok (bs, pois) =>
      if pois then .error (.flt 0x23 0)
      else .ok ⟨t, fieldOf bs 6 2, bit (fieldOf bs 8 8) 62, (List.range 12).map fun k => fieldOf bs (16 + 4 * k) 4, sid, seq⟩

/-! Matching (R104, R106 to R108, R113 to R116). -/

/-- A comparison operator of R102. -/
def autCompare (op a b : Nat) : Bool :=
  match op with
  | 0 => true
  | 1 => a == b
  | 2 => a != b
  | 3 => decide (a < b)
  | 4 => decide (a ≤ b)
  | 5 => decide (b < a)
  | _ => decide (b ≤ a)

/-- Whether a transition is eligible for a record's state and clocks and an event (R107). -/
def eligible (e : Event) (state : Nat) (clocks : List Nat) (t : Transition) : Bool :=
  t.src == state && (t.cls == 0 || t.cls == e.cls) && ((t.op1 == 0 && t.op2 == 0) || !e.pois) &&
  autCompare t.op1 (e.payload.getD t.idx1 0) t.const1 && autCompare t.op2 (e.payload.getD t.idx2 0) t.const2 &&
  autCompare t.gop (e.time - clocks.getD t.gclk 0) t.gconst

/-- The transition kinds (R102). -/
def advance : Nat := 0
/-- CLONE. -/
def clone : Nat := 1
/-- KILL. -/
def kill : Nat := 2
/-- ACCEPT. -/
def accept : Nat := 3

/-- A value captured for a spec (R104). -/
def captured (e : Event) (sp : ArgSpec) : Nat :=
  match sp.kind with
  | 1 => lo32 (handleOf e.sid e.seq)
  | 2 => hi32 (handleOf e.sid e.seq)
  | 3 => lo32 e.time
  | 4 => e.payload.getD sp.idx 0
  | _ => 0

/-- A record that takes a transition: clocks reset, slot bound, time entered (R104, R106, R114). -/
def Candidate.take (c : Candidate) (tb : AutTable) (t : Transition) (e : Event) : Candidate :=
  let clocks := c.clocks.mapIdx fun k v => if bit t.reset k then e.time else v
  let words := if t.bind = 7 then c.words else c.words.mapIdx fun i v =>
    match tb.args[i]? with
    | some sp => if sp.kind != 0 && sp.slot == t.bind then captured e sp else v
    | none => v
  let pslot := if t.bind = 7 then c.pslot
    else if bit c.pslot t.bind = e.pois then c.pslot
    else if e.pois then c.pslot + 2 ^ t.bind else c.pslot - 2 ^ t.bind
  ⟨t.dst, pslot, e.time, clocks, words⟩

/-- A newborn record: every clock at the event's time, every slot empty (R106). -/
def Candidate.newborn (tb : AutTable) (e : Event) : Candidate :=
  ⟨0, 0, e.time, (List.range 4).map fun k => if k < tb.nclocks then e.time else 0, List.replicate 8 0⟩

/-- The launch that an accepting record requests (R110, R72). -/
def launchOf (a : Automaton) (q k : Nat) (c : Candidate) (e : Event) : Launch :=
  let word := fun (v : Nat) (p : Bool) => (⟨BitVec.ofNat 32 v, p⟩ : Reg)
  if k = 0 then
    let w := fun i => e.payload.getD i 0
    ⟨pair64 (w 0) (w 1), (List.range 8).map fun i => word (w (2 + i)) false, w 10, w 11 % 2 ^ 20, q, e.pois⟩
  else
    let args := (List.range 8).map fun i =>
      let p := match a.table.args[i]? with
        | some sp => sp.kind == 4 && bit c.pslot sp.slot
        | none => false
      word (c.words.getD i 0) p
    ⟨a.table.template, args, a.job, a.pasid, q, false⟩

/-- What a scan of an event gathers: the automaton, the candidates kept so far, the births, the outputs, and whether the
event has been taken. -/
structure Scan where
  oserial : Nat
  kept : List Candidate
  born : List Candidate
  out : List Output
  taken : Bool

/-- A transition applied to a record (R106); the record is kept or removed, and a birth waits for the end of the
scan. -/
def Scan.apply (sc : Scan) (a : Automaton) (q k : Nat) (e : Event) (t : Transition) (c : Option Candidate) : Scan :=
  let moved := (c.getD (Candidate.newborn a.table e)).take a.table t e
  let keep := fun (sc : Scan) => match c with
    | some c => { sc with kept := sc.kept ++ [c] }
    | none => sc
  if t.kind = kill then sc
  else if t.kind = accept then
    { sc with oserial := sc.oserial + 1,
              out := sc.out ++ [.launch k (sc.oserial + 1) e.time (launchOf a q k moved e)] }
  else if t.kind = advance && c.isSome then { sc with kept := sc.kept ++ [moved] }
  else keep { sc with born := sc.born ++ [moved] }

/-- One candidate offered an event (R107). -/
def Scan.offer (a : Automaton) (q k : Nat) (e : Event) (sc : Scan) (c : Candidate) : Scan :=
  let first := fun (ok : Transition → Bool) => a.table.trans.find? fun t => ok t && eligible e c.state c.clocks t
  let t := match first fun _ => true with
    | none => none
    | some t => if !a.table.each && sc.taken && t.kind != kill then first fun t => t.kind == kill else some t
  match t with
  | none => { sc with kept := sc.kept ++ [c] }
  | some t => ({ sc with taken := sc.taken || t.kind != kill } : Scan).apply a q k e t (some c)

/-- One more, saturating (R117). -/
def counter (n : Nat) : Nat := satInc n

/-- A birth at the end of the scan, by the overflow policy when the budget is full; the flag says that FAULT fired
(R115, R116). -/
def birth (a : Automaton) (fault : Bool) (c : Candidate) : Automaton × Bool :=
  if a.cands.length < a.table.budget then ({ a with cands := a.cands ++ [c] }, fault)
  else match a.table.ovf with
    | 1 => ({ a with cands := a.cands.drop 1 ++ [c], evicted := counter a.evicted }, fault)
    | 2 => ({ a with refused := counter a.refused }, true)
    | _ => ({ a with refused := counter a.refused }, fault)

/-- The expiry point of a candidate; none in a state without expiry (R108). -/
def AutTable.point (tb : AutTable) (c : Candidate) : Option Nat :=
  match tb.states[c.state]? with
  | some st => if st.exp then some (max (c.clocks.getD st.clk 0 + st.bound) c.tenter) else none
  | none => none

/-- A candidate with its point put after those of no later point (R108). -/
def insertPoint (a : Nat × Candidate) : List (Nat × Candidate) → List (Nat × Candidate)
  | [] => [a]
  | b :: l => if a.1 < b.1 then a :: b :: l else b :: insertPoint a l

/-- The report of an expired candidate (R109). -/
def reportOf (a : Automaton) (q k serial point : Nat) (c : Candidate) : Output :=
  let clk := (a.table.states[c.state]?).elim 0 (·.clk)
  let v := c.clocks.getD clk 0
  .report k serial a.table.rstream a.pasid point
    ([autNumber q k, clk * 2 ^ 8 + c.state, lo32 v, hi32 v] ++ (List.range 8).map fun i => c.words.getD i 0)

/-- drop_expired(limit): the automaton without its expired candidates, and the reports (R108, R109). -/
def dropExpired (a : Automaton) (q k limit : Nat) : Automaton × List Output :=
  let due := fun (c : Candidate) => match a.table.point c with
    | none => false
    | some p => decide (p < limit)
  let gone := (a.cands.filter due).foldl (fun l c => insertPoint ((a.table.point c).getD 0, c) l) []
  let posts := gone.filter fun (_, c) => (a.table.states[c.state]?).elim false (·.post)
  ({ a with cands := a.cands.filter (!due ·), oserial := a.oserial + posts.length },
   posts.zipIdx.map fun ((p, c), j) => reportOf a q k (a.oserial + 1 + j) p c)

/-- An event processed: expiry, the scan in canonical order, the seed, and the births; with the outputs, and whether the
FAULT policy fired (R107). -/
def processEvent (a : Automaton) (q k : Nat) (i : Nat) (e : Event) : Automaton × List Output × Bool :=
  let (a, reports) := dropExpired a q k e.time
  let sc := a.cands.foldl (Scan.offer a q k e) ⟨a.oserial, [], [], [], false⟩
  let sc := if a.table.each || !sc.taken then
      match a.table.trans.find? fun t => eligible e 0 [0, 0, 0, 0] t with
      | none => sc
      | some t => sc.apply a q k e t none
    else sc
  let a := { a with cands := sc.kept, oserial := sc.oserial, next := a.next.set i (e.seq + 1),
                    last := some (i, e.time, e.seq), dirty := true }
  let (a, fault) := sc.born.foldl (fun r c => birth r.1 r.2 c) (a, false)
  (a, reports ++ sc.out, fault)

/-! The output queue (R119, R123, R109, R137). -/

/-- The gate of a slot (R123). -/
def Engine.gate (e : Engine) (k : Nat) : Nat := tget e.gates k 0

/-- Whether an accept must wait: it would create a job table entry, and the table is full (R137). -/
def State.jobBlocked (s : State) (part job : Nat) : Bool :=
  match s.part? part with
  | none => false
  | some p => !thas job p.jobs && decide (4096 ≤ p.jobs.length)

/-- A launch request: the job's count rises, and the request waits in the task system in its order of arrival; in
deterministic mode it waits for admission under its key (R134, R137, R316). -/
def State.requestLaunch (s : State) (part time q k serial : Nat) (l : Launch) : State :=
  let s := s.modJob part l.job fun j => { j with count := j.count + 1, pasid := j.pasid.orElse fun _ => some l.pasid }
  s.modPart part fun p =>
    match p.det with
    | none => { p with launches := p.launches ++ [l] }
    | some d => { p with det := some { d with admits := d.admits ++ [(time, q, k, serial, l)] } }

/-- A report event appended as the part, under the stream's own rules: none where it is refused, an error where its ring
has to be asked for first (R95, R109, R43). -/
def State.report (s : State) (w : Waiter) (part : Nat) (secure : Bool) (sid pasid time : Nat) (payload : List Nat) :
    Except XErr (Option State) :=
  match s.stream? part sid with
  | none => .ok none
  | some st =>
    let early := match st.last with | none => false | some t => decide (time < t)
    let closed := match s.watermark st with | none => false | some w => decide (time ≤ w)
    if early || closed || st.timed then .ok none
    else
      let st := s.rebased part sid st (st.tail + 1)
      if st.tail - st.low = 2 ^ st.lgent then .ok none
      else match s.ringPlace w part secure pasid (st.entry st.tail) .w with
        | .error (.flt _ _) => .ok none
        | .error e => .error e
        | .ok pl => .ok (some (s.append (some pasid) part sid st pl 0x0020 time (evFlags false true false) payload false))

/-- An output leaves the queue; an error while it must wait, with what its ring asks for. One at or below the slot's gate is
suppressed (R123). -/
def State.putOutput (s : State) (part q : Nat) (o : Output) : Except (Option (Waiter × Nat × XErr)) State :=
  let pass := fun (k serial : Nat) (s : State) =>
    let e := s.engine q
    s.setEngine q { e with gates := tput 0 k serial e.gates }
  match o with
  | .launch k serial time l =>
    if serial ≤ (s.engine q).gate k then .ok s
    else if s.jobBlocked part l.job then .error none
    else .ok (pass k serial (s.requestLaunch part time q k serial l))
  | .report k serial sid pasid time payload =>
    if serial ≤ (s.engine q).gate k then .ok s
    else
      match (pass k serial s).report (.scanner q k) part (s.secureQuarter q) sid pasid time payload with
      | .error e => .error (some (.scanner q k, pasid, e))
      | .ok (some s) => .ok s
      | .ok none => .ok (match (pass k serial s).automaton? q k with
        | none => pass k serial s
        | some a => (pass k serial s).setAutomaton q k { a with xrefused := counter a.xrefused })
  | .raise _ sid w => .ok (match s.stream? part sid with
    | none => s
    | some st => s.setStream part sid (st.raiseWm w))

/-- Outputs leave in order until one must wait; that one asks for what its ring needs (R43). -/
def putOutputs (part q : Nat) : State → List Output → State × List Output
  | s, [] => (s, [])
  | s, o :: os =>
    match s.putOutput part q o with
    | .error none => (s, o :: os)
    | .error (some (w, pasid, e)) => (s.askFor w pasid e, o :: os)
    | .ok s => putOutputs part q s os

/-- Whether an output takes an entry of the output queue: accepts and reports do, and a watermark raise, which follows the
reports of its pass, takes none (R109, R119). (DEDUCED: log entry 35) -/
def Output.counts : Output → Bool
  | .launch .. | .report .. => true
  | .raise .. => false

/-- The outputs for which n entries of the queue are free, in order, and those that have none. -/
def roomFor : Nat → List Output → List Output × List Output
  | _, [] => ([], [])
  | 0, o :: os => if o.counts then ([], o :: os) else ((o :: (roomFor 0 os).1), (roomFor 0 os).2)
  | n + 1, o :: os =>
    let r := roomFor (if o.counts then n else n + 1) os
    (o :: r.1, r.2)

/-- The entries of an engine's output queue that are taken. -/
def Engine.queued (e : Engine) : Nat := (e.out.filter (·.counts)).length

/-- The outputs of the step under way enter the queue as far as its 32 entries allow (R119). -/
def Engine.refill (e : Engine) : Engine :=
  let (now, rest) := roomFor (32 - e.queued) e.spill
  { e with out := e.out ++ now, spill := rest }

/-- An engine's queue drains as far as it can: its head leaves until it must wait, and the outputs of the step under way
follow (R119). -/
def State.drainOnce (s : State) (q : Nat) : State :=
  match s.partOfQuarter q, (s.engine q).out with
  | none, _ | _, [] => s
  | some part, os =>
    let (s, left) := putOutputs part q s os
    s.setEngine q ({ s.engine q with out := left } : Engine).refill

/-- Draining, as often as the queue is emptied and filled again. -/
def State.drainMany (s : State) (q : Nat) : Nat → State
  | 0 => s
  | n + 1 => (s.drainOnce q).drainMany q n

/-- An engine's queue drains as far as it can. -/
def State.engineDrain (s : State) (q : Nat) : State :=
  s.drainMany q (((s.engine q).out.length + (s.engine q).spill.length) / 32 + 1)

/-- Whether a slot has outputs in its engine's queue, or on their way into it (R124). -/
def State.hasOutputs (s : State) (q k : Nat) : Bool :=
  ((s.engine q).out ++ (s.engine q).spill).any fun o => match o with
    | .launch j .. | .report j .. | .raise j .. => j == k

/-- The outputs of a step enter their engine's queue; those without room wait in the scanner, which stalls (R119). (DEDUCED: log entry 35) -/
def State.queueOutputs (s : State) (q : Nat) (os : List Output) : State :=
  let e := s.engine q
  s.setEngine q ({ e with spill := e.spill ++ os } : Engine).refill

/-! Steps. -/

/-- The running automaton of a slot, whose engine's scanner does not stall at a full queue and whose partition is not halted
(R119, R88). -/
def State.scannable (s : State) (q k : Nat) : Option (Nat × Automaton) :=
  match s.partOfQuarter q, s.automaton? q k with
  | some part, some a =>
    let halted := (s.part? part).elim true (·.halted)
    if a.stopped || halted || !(s.engine q).spill.isEmpty || decide (32 ≤ (s.engine q).queued) then none else some (part, a)
  | _, _ => none


/-- The read of an event at a merged position, charged to the automaton's context (R37). -/
def State.chargeEvent (s : State) (part q k : Nat) (a : Automaton) (e : Nat × Nat × Nat) : State :=
  match s.stream? part (a.table.watch.getD e.2.1 0) with
  | none => s
  | some st =>
    match s.ringPlace (.scanner q k) part (s.secureQuarter q) a.pasid (st.entry e.2.2) .r with
    | .ok pl => s.charge part a.pasid (memCost pl.phys 64)
    | .error _ => s

/-- An automaton processes its next event, asks for the translation of its ring, or stops where the event cannot be read
(R107, R111, R115, R43). (DEDUCED: log entry 35) -/
def eventStep (q k : Nat) (s : State) : State :=
  match s.scannable q k with
  | none => s
  | some (part, a) =>
    match s.nextEvent part a with
    | none => s
    | some pos =>
      let s := s.setEngine q { s.engine q with rot := k }
      match s.takeEvent part q k a pos with
      | .error e =>
        if e.asks then s.askFor (.scanner q k) a.pasid e
        else (s.dropReturned (.scanner q k)).stopAutomaton q k a 3 e.code (handleOf (a.table.watch.getD pos.2.1 0) pos.2.2)
      | .ok e =>
        let s := (s.chargeEvent part q k a pos).dropReturned (.scanner q k)
        let (a, out, fault) := processEvent a q k pos.2.1 e
        let s := ((s.setAutomaton q k a).queueOutputs q out)
        let s := if fault then s.stopAutomaton q k a 1 0 0 else s.rebaseAll part a.table.watch
        s.engineDrain q

/-- AUTOMATON_EVENT_STEP. -/
def execAutomatonEventStep (quarter slot : Nat) (s : State) : Host.Outcome State Fault Refusal :=
  runStep (eventStep quarter slot) s

/-- The pass of drop_expired(S): expired candidates go, the report stream's watermark rises to S − 1, and a frame is
written when an event has been processed since the last one (R108, R109, R122). -/
def passStep (q k : Nat) (s : State) : State :=
  match s.scannable q k with
  | none => s
  | some (part, a) =>
    match s.passDue part a with
    | none => s
    | some safe =>
      let s := s.setEngine q { s.engine q with rot := k }
      let (a, out) := dropExpired a q k safe
      let raise := if a.table.rep && decide (0 < safe) then [Output.raise k a.table.rstream (safe - 1)] else []
      let a := { a with sdone := some safe }
      let s := (s.setAutomaton q k a).queueOutputs q (out ++ raise)
      let s := if a.dirty then s.writeFrame q k a else s.rebaseAll part a.table.watch
      s.engineDrain q

/-- DROP_EXPIRED_PASS. -/
def execDropExpiredPass (quarter slot : Nat) (s : State) : Host.Outcome State Fault Refusal :=
  runStep (passStep quarter slot) s

/-- The slot that an engine's scanner serves next, with whether its work is an event: the lowest slot above the last one
that has work, wrapping (R118). -/
def State.nextSlot (s : State) (q : Nat) : Option (Nat × Bool) :=
  let work := fun k => match s.scannable q k with
    | none => none
    | some (part, a) =>
      if (s.nextEvent part a).isSome then some (k, true)
      else if (s.passDue part a).isSome then some (k, false) else none
  let ks := tkeys (s.engine q).slots
  let rot := (s.engine q).rot
  ((ks.filter fun k => decide (rot < k)) ++ ks.filter fun k => decide (k ≤ rot)).findSome? work

end Sys2Proof.Machine
end

