-- ==== Sys2Proof/Machine/Events.lean ====
section
/-! DEFINITION. EVPOST, EVLD, EVREL and WMARK (R417 to R420). -/

namespace Sys2Proof.Machine

/-- A record in the issuing team's local store (R417, R421, R425): its local-store address, and its bytes. Window-bound
without a team, off its alignment or past lstore; poison-use 2 where one of its first pn bytes is poisoned. -/
def blockAt (s : State) (key : Nat) (g : Group) (lane field align n pn off : Nat) :
    Except (Nat × Nat × Nat) (Nat × List Byte) :=
  let gen := localGeneric (vcoreOf (coreOf key)) off
  match g.team with
  | none => .error (lane, 0x09, gen)
  | some t =>
    if off % align != 0 || decide (s.lstoreOf g < off + n) then .error (lane, 0x09, gen)
    else if s.poisonAt (localAddr t off) pn then .error (lane, 0x23, field)
    else .ok (localAddr t off, memBytes s.mem (localAddr t off) n)

/-- The refusals of lanes' records. -/
def blockFaults {α : Type} (rs : List (Except (Nat × Nat × Nat) α)) : List (Nat × Nat × Nat) :=
  rs.filterMap fun r =>
    match r with
    | .error e => some e
    | .ok _ => none

/-- Lanes' records checked, with the commit token between window-bound and poison-use (R330, R321). -/
def checkBlocks {α : Type} (s : State) (iss : Issue) (g : Group) (rs : List (Except (Nat × Nat × Nat) α)) :
    Except Trap Unit := do
  let bad := blockFaults rs
  recordTrap (bad.filter (·.2.1 == 0x09))
  needToken s iss g 0
  recordTrap bad

/-- Status words written to D as variable-latency results (R399). -/
def giveStatus (iss : Issue) (d : Opnd) (n : Nat) (vals : Tbl Nat) (s : State) : State :=
  s.modGroup iss.key fun g => g.raiseLoad (laneSectors d n (vals.map fun (i, v) => (i, (v, false))))

/-- A status of refusal. -/
def refusal (reason : Nat) : Nat := 0x80000000 + reason

/-- What an access of the part's own in a group's stead has to ask for first (R43). -/
def askTrap (e : XErr) : Trap :=
  match e with
  | .ats link pasid page => .remote [(link, pasid, page)] [] []
  | .host sector => .remote [] [sector] []
  | .miss page => .walk [page]
  | .flt code _ => .plain code 0

/-- Lanes act in order on the state, each with a status; nothing has happened where one has to ask for something first. -/
def laneStatusOr (one : State → Nat → Except XErr (State × Nat)) (lanes : List Nat) (s : State) : Except Trap (State × Tbl Nat) :=
  lanes.foldlM (fun (r : State × Tbl Nat) i =>
    match one r.1 i with
    | .ok (s, v) => .ok (s, r.2 ++ [(i, v)])
    | .error e => .error (askTrap e)) (s, [])

/-- Lanes act in order on the state, each with a status. -/
def laneStatus (one : State → Nat → State × Nat) (lanes : List Nat) (s : State) : State × Tbl Nat :=
  lanes.foldl (fun (r : State × Tbl Nat) i =>
    let (s, v) := one r.1 i
    (s, r.2 ++ [(i, v)])) (s, [])

/-- The world of a core's requests (R76). -/
def State.coreSecure (s : State) (ck : Nat) : Bool := s.secureQuarter (s.coreQuarter ck)

/-- One lane's post of the event image at a local-store address (R417). Word 11 of a start event is the poster's own
PASID, and takes no poison of the image's. (DEDUCED: log entry 34) -/
def evpostOne (key : Nat) (g : Group) (at_ sid : Nat) (s : State) : Except XErr (State × Nat) :=
  let part := partOf key
  let bs := memBytes s.mem at_ 64
  let op := bits (fieldOf bs 8 8) 62 2
  let cls := fieldOf bs 6 2
  let start := cls = 0x0001 && sid == part * 16 + ctlStream
  let pois := (List.range 12).any fun k => s.poisonAt (at_ + 16 + 4 * k) 4 && !(start && k == 11)
  match s.stream? part sid with
  | none => .ok (s, refusal 8)
  | some st =>
    if op = 3 || fieldOf bs 8 8 % 2 ^ 62 != 0 then .ok (s, refusal 6)
    else if op != 0 && (st.nodev || st.timed) then .ok (s, refusal 8)
    else
      let p : Post := ⟨op, fieldOf bs 0 6, cls, (List.range 12).map fun k => fieldOf bs (16 + 4 * k) 4, true, pois, g.pasid,
        s.coreSecure (coreOf key), .group key⟩
      match s.postActs part sid p with
      | .error (.refused r) => .ok (s, refusal r)
      | .error (.ring _ _) => .ok (s, refusal 9)
      | .error (.waits e) => .error e
      | .ok (s, _) => .ok (s, 0)

/-- EVPOST: its checks come before any lane acts, then each lane posts in order (R417). -/
def evpostAct (d a b : Opnd) : Act :=
  let blocks := fun (iss : Issue) (g : Group) (s : State) =>
    (lanesOf iss.lanes).map fun i => blockAt s iss.key g i a.code 64 64 16 (val32 a g i)
  committing
    (fun iss g s => do
      noPoison g iss [(a, 1, 2), (b, 1, 0)]
      checkBlocks s iss g (blocks iss g s)
      loadRoom g
      return s)
    fun iss g s => do
      let t := g.team.getD 0
      let (s, vals) ← laneStatusOr (fun s i => evpostOne iss.key g (localAddr t (val32 a g i)) (val32 b g i) s)
        (lanesOf iss.lanes) s
      return giveStatus iss d 1 vals (s.dropReturned (.group iss.key))

/-- EVPOST. -/
def execEvpost (d a b : Opnd) (s : State) : Host.Outcome State Fault Refusal := runAct (evpostAct d a b) s

/-- The stream and sequence of a handle, of an open stream (R91). -/
def State.handle? (s : State) (part h : Nat) : Option (Nat × Stream × Nat) :=
  if h / 2 ^ 60 != 0 then none
  else (s.stream? part (bits h 48 12)).map fun st => (bits h 48 12, st, h % 2 ^ 48)

/-- EVLD: an event read whole, or stale-handle (R418). The record is read from the ring, not from the group's own
buffered stores. (DEDUCED: log entry 34) -/
def evldAct (d a : Opnd) : Act := fun iss g s => do
  noPoison g iss [(a, 2, 0)]
  let part := partOf iss.key
  let got := (vals64 g iss a).map fun (i, h) => (i, h, match s.handle? part h with
    | some (_, st, q) => if st.low ≤ q && q < st.tail then some (st.entry q) else none
    | none => none)
  let as := got.filterMap fun (i, _, a) => a.map fun a => (i, a)
  let xs := accesses s iss.key g .generic 64 .r as
  awaitPages xs
  raiseFaults Acc.r.bits (byteFaults xs ++ loadFormat false xs ++ lockFaults s iss.key g false xs)
  requireAll (lanesOf iss.lanes) (fun i => thas i as) fun bad =>
    .at_ 0x20 0 (maskOfList bad) ((got.find? fun x => x.1 == bad.headD 0).elim 0 (·.2.1))
  match hostNeeds s iss.key (xs.flatMap fun x => x.places.map (·.1)) with
  | r :: rs => .error (.remote [] (r :: rs) [])
  | [] =>
    loadRoom g
    let vals := xs.map fun x => (x.lane, x.gen, readPlaces s iss.key { g with buf := [] } x.places)
    let cost := (xs.map fun x => (x.places.head?).elim 0 fun pl => memCost pl.1.phys 64).foldl (· + ·) 0
    let s := (s.dropReturned (.group iss.key)).charge part g.pasid cost
    return s.setGroup iss.key (g.raiseLoad (sectorsOf d 16 vals))

/-- EVLD. -/
def execEvld (d a : Opnd) (s : State) : Host.Outcome State Fault Refusal := runAct (evldAct d a) s

/-- One lane's release (R419). -/
def evrelOne (part h : Nat) (s : State) : State :=
  match s.handle? part h with
  | none => s
  | some (sid, st, q) =>
    if st.hold then
      (s.setStream part sid { st with released := max st.released (min (q + 1) st.tail) }).rebase part sid
    else s

/-- EVREL (R419). -/
def evrelAct (a : Opnd) : Act :=
  committing
    (fun iss g s => do
      noPoison g iss [(a, 2, 0)]
      needToken s iss g 0
      return s)
    fun iss g s => .ok ((vals64 g iss a).foldl (fun s (_, h) => evrelOne (partOf iss.key) h s) s)

/-- EVREL. -/
def execEvrel (a : Opnd) (s : State) : Host.Outcome State Fault Refusal := runAct (evrelAct a) s

/-- Whether a stream id is one of the partition's system streams (R74). -/
def isSystemStream (part sid : Nat) : Bool := decide (part * 16 ≤ sid) && decide (sid ≤ part * 16 + errStream)

/-- One lane's raise (R420). -/
def wmarkOne (part time sid : Nat) (s : State) : State :=
  match s.stream? part sid with
  | none => s
  | some st => if st.timed || st.nodev || isSystemStream part sid then s else s.setStream part sid (st.raiseWm (time % 2 ^ 48))

/-- WMARK (R420). (DEDUCED: log entry 34) -/
def wmarkAct (a b : Opnd) : Act :=
  committing
    (fun iss g s => do
      noPoison g iss [(b, 1, 0)]
      needToken s iss g 0
      return s)
    fun iss g s => .ok ((vals64 g iss a).foldl (fun s (i, t) => wmarkOne (partOf iss.key) t (val32 b g i) s) s)

/-- WMARK. -/
def execWmark (a b : Opnd) (s : State) : Host.Outcome State Fault Refusal := runAct (wmarkAct a b) s

end Sys2Proof.Machine
end

