-- ==== Sys2Proof/Machine/AutLoad.lean ====
section
/-! DEFINITION. Installing, restoring and steering automata: AUTLD, AUTCTL, the root automaton, and the recovery of an
engine (R71, R92, R100, R123 to R130, R338, R421 to R423). -/

namespace Sys2Proof.Machine

/-! Spoors read back (R126, R127). -/

/-- A candidate record's fields (R114). -/
def candOf (bs : List Byte) : Candidate :=
  let w := fieldOf bs 0 8
  ⟨bits w 58 5, bits w 52 6, bits w 0 48, (List.range 4).map fun k => fieldOf bs (8 + 6 * k) 6,
   (List.range 8).map fun i => fieldOf bs (32 + 4 * i) 4⟩

/-- Record i of a spoor. -/
def spoorRecord (bs : List Byte) (i : Nat) : List Byte := (bs.drop (192 + 64 * i)).take 64

/-- The number of records that a spoor's header gives. -/
def spoorCount (bs : List Byte) : Nat := bits (fieldOf bs 0 4) 0 15

/-- Whether a record keeps R126. -/
def recordOk (t : AutTable) (bs : List Byte) : Bool :=
  let c := candOf bs
  let named := fun n => t.args.any fun a => a.kind != 0 && a.slot == n
  bit (fieldOf bs 0 8) 63 && bits (fieldOf bs 0 8) 48 4 == 0 && decide (0 < c.state) && decide (c.state < t.states.length) &&
  ((List.range 6).all fun n => !bit c.pslot n || named n) &&
  ((List.range 4).all fun k => decide (k < t.nclocks) || c.clocks.getD k 0 == 0)

/-- Whether a spoor may be restored for a table, a context and a job: what R126 asks of it, but for the streams. -/
def spoorOk (t : AutTable) (pasid job : Nat) (bs : List Byte) : Bool :=
  let w0 := fieldOf bs 0 4
  let n := t.watch.length
  bits w0 24 8 == 1 && bits w0 15 5 == 0 && bits (fieldOf bs 8 8) 51 13 == 0 && fieldOf bs 22 2 == 0 &&
  bits (fieldOf bs 24 8) 48 15 == 0 && bits (fieldOf bs 148 4) 20 12 == 0 &&
  ((List.range 32).all fun k => fieldOf bs (160 + k) 1 == 0) &&
  (bit w0 23 || (fieldOf bs 8 8 == 0 && fieldOf bs 16 8 == 0)) &&
  ((List.range 8).all fun i => if i < n then fieldOf bs (70 + 8 * i) 2 == 0 else fieldOf bs (64 + 8 * i) 8 == 0) &&
  (bs.drop 32).take 32 == sha256Bytes t.image && decide (spoorCount bs ≤ t.budget) &&
  bits (fieldOf bs 148 4) 0 20 == pasid && fieldOf bs 4 4 == job &&
  (List.range (spoorCount bs)).all fun i => recordOk t (spoorRecord bs i)

/-- Whether no next entry of a spoor lies below its stream's base (R126). -/
def State.spoorFresh (s : State) (part : Nat) (t : AutTable) (bs : List Byte) : Bool :=
  t.watch.zipIdx.all fun (sid, i) => match s.stream? part sid with
    | none => false
    | some st => decide (st.low ≤ fieldOf bs (64 + 8 * i) 6)

/-- A newly installed automaton (R100, R117, R120). -/
def Automaton.fresh (t : AutTable) (seg job pasid area : Nat) (next : List Nat) : Automaton :=
  { table := t, seg := seg, job := job, pasid := pasid, area := area, cands := [], stopped := false, cause := 0,
    last := none, sdone := none, next := next, frameNext := next, fserial := 0, frame := 0, dirty := false, oserial := 0,
    refused := 0, evicted := 0, xrefused := 0, ctxStop := false, evictedSeg := false }

/-- An automaton with its state taken from a spoor's bytes (R127). -/
def Automaton.fromSpoor (a : Automaton) (bs : List Byte) : Automaton :=
  let w0 := fieldOf bs 0 4
  let next := (List.range a.table.watch.length).map fun i => fieldOf bs (64 + 8 * i) 6
  { a with
    stopped := bit w0 22, cause := bits w0 20 2
    cands := (List.range (spoorCount bs)).map fun i => candOf (spoorRecord bs i)
    last := if bit w0 23 then some (bits (fieldOf bs 8 8) 48 3, fieldOf bs 8 6, fieldOf bs 16 6) else none
    sdone := if bit (fieldOf bs 24 8) 63 then some (fieldOf bs 24 6) else none
    next := next, oserial := fieldOf bs 128 8, refused := fieldOf bs 136 4, evicted := fieldOf bs 140 4,
    xrefused := fieldOf bs 144 4, dirty := false }

/-- A slot's gate set (R123). -/
def State.setGate (s : State) (q k v : Nat) : State :=
  let e := s.engine q
  s.setEngine q { e with gates := tput 0 k v e.gates }

/-- The latest frame of an automaton's area: version 1, and the larger serial (R121). -/
def State.latestFrame (s : State) (a : Automaton) : Option (List Byte) :=
  let read := fun f => memBytes s.mem (windowPhys a.area + f * frameSize a.table.budget) (frameSize a.table.budget)
  let ok := fun (bs : List Byte) => bits (fieldOf bs 0 4) 24 8 == 1
  let f0 := read 0
  let f1 := read 1
  match ok f0, ok f1 with
  | false, false => none
  | true, false => some f0
  | false, true => some f1
  | true, true => some (if fieldOf f0 152 8 < fieldOf f1 152 8 then f1 else f0)

/-- An automaton restored from its own latest frame, with its gate unchanged, or at the frame's position with a count of 0
(R130). Its frame is its own, so that the tests of R126 do not apply. One without a valid frame stays stopped as it stands:
the manual gives it no other state. (DEDUCED: log entry 35) -/
def State.recoverSlot (s : State) (q k : Nat) (empty : Bool) : State :=
  match s.automaton? q k with
  | none => s
  | some a =>
    match s.latestFrame a with
    | none => s.setAutomaton q k { a with stopped := true }
    | some bs =>
      let a := a.fromSpoor bs
      s.firstFrame q k (if empty then { a with cands := [] } else a)

/-- Every automaton of an engine recovered (R130). One whose segment was taken stands in its frame alone, and comes back from
it when its context does; only a recovery with a count of 0 changes the frame (R338). -/
def State.recoverEngine (s : State) (q : Nat) (empty : Bool) : State :=
  (tkeys (s.engine q).slots).foldl (fun s k =>
    match s.automaton? q k with
    | some a => if a.evictedSeg && !empty then s else s.recoverSlot q k empty
    | none => s) s

/-! The root automaton (R71, R74). -/

/-- Slice offset of the root automaton's table image (R74). -/
def rootTableOff : Nat := 0x0D40000
/-- Slice offset of its spoor area. -/
def rootAreaOff : Nat := 0x0D41000

/-- The 224 bytes of the root automaton's table image (R71): one state, FIRST, REFUSE, budget 64, one ACCEPT on class
0x0001 that binds nothing. -/
def rootImage (part : Nat) : List Byte :=
  leBytes 4 (2 ^ 24 + 2 ^ 16 + 2 ^ 8 + 1) ++ leBytes 4 63 ++ leBytes 2 (part * 16 + ctlStream) ++ List.replicate 182 0 ++
  leBytes 4 (accept * 2 ^ 20 + 0x0001) ++ leBytes 4 (7 * 2 ^ 29) ++ List.replicate 24 0

/-- The root automaton installed in slot 0 of the home quarter's engine (R71). -/
def State.installRoot (s : State) (part home : Nat) : State :=
  let t := autTableOf (rootImage part)
  let s := s.setBytes (sliceAddr home rootTableOff) (rootImage part)
  let next := t.watch.map fun sid => (s.stream? part sid).elim 0 (·.tail)
  let seg := ((s.engine home).freeRun t.budget).getD 0
  (s.setGate home 0 0).firstFrame home 0 (Automaton.fresh t seg 0 0 (sliceGeneric home rootAreaOff) next)

/-! AUTLD. -/

/-- The fields of an install block (R421). -/
structure Install where
  table : Nat
  area : Nat
  spoor : Nat
  job : Nat
  quarter : Nat
  slot : Nat
  restore : Bool

/-- An install block's fields. -/
def installOf (bs : List Byte) : Install :=
  ⟨fieldOf bs 0 7, fieldOf bs 8 7, fieldOf bs 16 7, fieldOf bs 24 4, bits (fieldOf bs 28 1) 0 4, bits (fieldOf bs 29 1) 0 6,
   bit (fieldOf bs 30 1) 0⟩

/-- Whether a block breaks its layout: reason 8 (R422). -/
def installBad (bs : List Byte) : Bool :=
  let b := installOf bs
  fieldOf bs 7 1 != 0 || fieldOf bs 15 1 != 0 || fieldOf bs 23 1 != 0 || bits (fieldOf bs 28 1) 4 4 != 0 ||
  bits (fieldOf bs 29 1) 6 2 != 0 || bits (fieldOf bs 30 1) 1 7 != 0 || ((bs.drop 31).any fun x => x != 0) ||
  b.table % 64 != 0 || (if b.restore then b.spoor % 64 != 0 else b.spoor != 0)

/-- Whether both frames of an area lie in the program area of one slice of the partition (R421, R170): reason 7 where
not. -/
def areaOk (p : Part) (area budget : Nat) : Bool :=
  let low := area % 2 ^ 48
  area % 64 == 0 && area / 2 ^ 48 == 0xFD && decide (low < 2 ^ 29) && p.quarters.contains (low / 2 ^ 25) &&
  decide (low % 2 ^ 25 + 2 * frameSize budget ≤ 0x0C00000)

/-- The table image at an address, read in a context: the header first, then what it counts (R422). -/
def State.readTable (s : State) (w : Waiter) (part : Nat) (secure : Bool) (pasid a : Nat) : Except XErr (List Byte) := do
  let h ← s.ctxRead w part secure pasid a 192
  let rest ← s.ctxRead w part secure pasid (a + 192) (imageSize h - 192)
  return h ++ rest

/-- A spoor at an address: its header, and as many records as fit a budget (R126). -/
def State.readSpoor (s : State) (w : Waiter) (part : Nat) (secure : Bool) (pasid a budget : Nat) : Except XErr (List Byte) := do
  let h ← s.ctxRead w part secure pasid a 192
  let n := if spoorCount h ≤ budget then spoorCount h else 0
  let rest ← s.ctxRead w part secure pasid (a + 192) (64 * n)
  return h ++ rest

/-- The first sequences that a start time selects; none when one of them is stale already (R100). -/
def State.startNext (s : State) (part : Nat) (t : AutTable) : Option (List Nat) :=
  t.watch.mapM fun sid => (s.stream? part sid).bind fun st =>
    if t.start = 0 then some st.tail
    else if (match st.left with | none => false | some l => decide (t.start ≤ l)) then none
    else some (st.low + (st.times.takeWhile fun x => decide (x < t.start)).length)

/-- An automaton put in its slot with its segment, its gate and its first frame (R112, R121, R123). (DEDUCED: log entry 35) -/
def State.install (s : State) (b : Install) (e : Engine) (a : Automaton) : State :=
  ((s.setEngine b.quarter e).setGate b.quarter b.slot a.oserial).firstFrame b.quarter b.slot a

/-- One lane's AUTLD: its refusals in the order 8, 7, 3, 6, 1, 2, 4, 5 (R422). A table or a spoor whose translation or
whose sectors have to be asked for is read when they are there (R43). -/
def autldOne (w : Waiter) (part : Nat) (secure : Bool) (pasid : Nat) (bs : List Byte) (s : State) : Except XErr (State × Nat) :=
  match s.part? part with
  | none => .ok (s, refusal 3)
  | some p =>
    let b := installOf bs
    if installBad bs then .ok (s, refusal 8)
    else
      let table := s.readTable w part secure pasid b.table
      let budget := match table with
        | .ok t => (autTableOf t).budget
        | .error _ => 1
      let spoor := if b.restore then s.readSpoor w part secure pasid b.spoor budget else .ok []
      match table, spoor with
      | .error e, _ =>
        if e.asks then .error e
        else if !areaOk p b.area budget then .ok (s, refusal 7)
        else if !p.quarters.contains b.quarter || b.slot = 0 || (s.automaton? b.quarter b.slot).isSome then .ok (s, refusal 3)
        else .ok (s, refusal 6)
      | .ok image, sp =>
        if !areaOk p b.area budget then .ok (s, refusal 7)
        else if !p.quarters.contains b.quarter || b.slot = 0 || (s.automaton? b.quarter b.slot).isSome then .ok (s, refusal 3)
        else match sp with
        | .error e => if e.asks then .error e else .ok (s, refusal 6)
        | .ok sp =>
          let t := autTableOf image
          if !autTableOk p image then .ok (s, refusal 1)
          else match (s.engine b.quarter).makeRun budget with
            | none => .ok (s, refusal 2)
            | some (e, seg) =>
              let done := autNumber b.quarter b.slot
              if b.restore then
                if spoorOk t pasid b.job sp && s.spoorFresh part t sp then
                  .ok (s.install b e ((Automaton.fresh t seg b.job pasid b.area []).fromSpoor sp), done)
                else .ok (s, refusal 5)
              else match s.startNext part t with
                | none => .ok (s, refusal 4)
                | some next => .ok (s.install b e (Automaton.fresh t seg b.job pasid b.area next), done)

/-- AUTLD (R421, R422). -/
def autldAct (d a : Opnd) : Act :=
  let blocks := fun (iss : Issue) (g : Group) (s : State) =>
    (lanesOf iss.lanes).map fun i => blockAt s iss.key g i a.code 64 64 64 (val32 a g i)
  committing
    (fun iss g s => do
      noPoison g iss [(a, 1, 2)]
      checkBlocks s iss g (blocks iss g s)
      loadRoom g
      return s)
    fun iss g s => do
      let t := g.team.getD 0
      let one := fun s i => autldOne (.group iss.key) (partOf iss.key) (s.coreSecure (coreOf iss.key)) g.pasid
        (memBytes s.mem (localAddr t (val32 a g i)) 64) s
      let (s, vals) ← laneStatusOr one (lanesOf iss.lanes) s
      return giveStatus iss d 1 vals (s.dropReturned (.group iss.key))

/-- AUTLD. -/
def execAutld (d a : Opnd) (s : State) : Host.Outcome State Fault Refusal := runAct (autldAct d a) s

/-! AUTCTL (R423). -/

/-- The automaton that a value names, for a context: its quarter, slot and state, or the reason of a refusal (R423). -/
def State.named (s : State) (part pasid v : Nat) : Except Nat (Nat × Nat × Automaton) :=
  let q := bits v 16 4
  let k := bits v 0 6
  if k = 0 then .error 3
  else if v != autNumber q k || s.partOfQuarter q != some part then .error 1
  else match s.automaton? q k with
    | none => .error 1
    | some a => if a.pasid = pasid then .ok (q, k, a) else .error 1

/-- An automaton resumed: at once stopped again where a stream that it watches is closed, or its next event cannot be
read; the scanner asks for what has to be asked for first (R111, R423, R43). -/
def State.resumeAutomaton (s : State) (part q k : Nat) (a : Automaton) : State :=
  let a := { a with stopped := false, cause := 0, ctxStop := false }
  let s := s.setAutomaton q k a
  if a.table.watch.any fun sid => (s.stream? part sid).isNone then s.stopAutomaton q k a 2 0 0
  else match s.nextEvent part a with
    | none => s
    | some pos => match s.takeEvent part q k a pos with
      | .error e =>
        if e.asks then s else s.stopAutomaton q k a 3 e.code (handleOf (a.table.watch.getD pos.2.1 0) pos.2.2)
      | .ok _ => s

/-- An automaton that a context stop holds goes on: in place, or from its frame where its segment was taken. Without room
for a segment it stays as it is (R338). -/
def State.reviveAutomaton (s : State) (part q k : Nat) (a : Automaton) : State :=
  if a.evictedSeg then
    match (s.engine q).makeRun a.table.budget, s.latestFrame a with
    | some (e, seg), some bs =>
      let a := { a.fromSpoor bs with seg := seg, evictedSeg := false }
      let s := ((s.setEngine q e).setGate q k a.oserial).firstFrame q k a
      s.resumeAutomaton part q k ((s.automaton? q k).getD a)
    | _, _ => s
  else s.resumeAutomaton part q k a

/-- A slot freed with its segment; its streams' bases are held no longer (R423). -/
def State.freeSlot (s : State) (part q k : Nat) (a : Automaton) : State :=
  let e := s.engine q
  ((s.setEngine q { e with slots := terase k e.slots }).dropReturned (.scanner q k)).rebaseAll part a.table.watch

/-- A stream descriptor's 32 bytes as a stream; none where it breaks R92. -/
def streamOf (pasid : Nat) (bs : List Byte) : Option (Nat × Stream) :=
  let base := fieldOf bs 0 7
  let lgent := fieldOf bs 10 1
  let lgret := fieldOf bs 11 1
  let fl := fieldOf bs 12 1
  if fieldOf bs 7 1 != 0 || base % 64 != 0 || bits (fieldOf bs 8 2) 12 4 != 0 || decide (24 < lgent) ||
      decide (lgent < lgret) || bits fl 3 5 != 0 || ((bs.drop 13).any fun x => x != 0) then none
  else some (bits (fieldOf bs 8 2) 0 12,
    ⟨base, pasid, lgent, lgret, bit fl 2, bit fl 1, bit fl 0, 0, 0, 0, none, none, none, []⟩)

/-- Whether a ring lies in paged memory, or in one die-store slice's program area of the partition (R92, R423). (DEDUCED: log entry 34) -/
def ringInside (p : Part) (base lgent : Nat) : Bool :=
  let last := base + 64 * 2 ^ lgent - 1
  if last < 0xF0 * 2 ^ 48 then true
  else
    let low := base % 2 ^ 48
    base / 2 ^ 48 == 0xFD && decide (last % 2 ^ 48 < 2 ^ 29) && last / 2 ^ 48 == 0xFD && low / 2 ^ 25 == last % 2 ^ 48 / 2 ^ 25 &&
    p.quarters.contains (low / 2 ^ 25) && decide (last % 2 ^ 25 < 0x0C00000)

/-- .open: the descriptor installed (R92, R423). (DEDUCED: log entry 34) -/
def autOpen (part pasid : Nat) (bs : List Byte) (s : State) : State × Nat :=
  match s.part? part, streamOf pasid bs with
  | some p, some (sid, st) =>
    if p.assigned.contains sid && !thas sid p.streams && ringInside p st.base st.lgent then (s.setStream part sid st, 0)
    else (s, refusal 4)
  | _, _ => (s, refusal 4)

/-- Every slot that names a stream reads MAP = 0, on ports that are disabled too: a stream id is one partition's (R61, R82). -/
def State.unmapStream (s : State) (sid : Nat) : State :=
  { s with links := s.links.map fun l => { l with ports := l.ports.map fun (n, po) =>
      (n, { po with slots := po.slots.map fun (k, sl) => (k, if sl.stream = sid then { sl with map := false } else sl) }) } }

/-- A stream closed: its watching automata stop with cause 2, and slots that name it are unmapped (R111, R61). -/
def State.closeStream (s : State) (part sid : Nat) : State :=
  let s := s.modPart part fun p => { p with streams := terase sid p.streams }
  let s := (s.automata part).foldl (fun s (q, k, a) =>
    if a.table.watch.contains sid && !a.stopped then s.stopAutomaton q k a 2 0 0 else s) s
  s.unmapStream sid

/-- .close (R423). -/
def autClose (part sid : Nat) (s : State) : State × Nat :=
  if isSystemStream part sid then (s, refusal 3)
  else match s.stream? part sid with
    | none => (s, refusal 6)
    | some _ => (s.closeStream part sid, 0)

/-- .ckpt: the spoor and a frame, at one boundary (R125); an error where the spoor's place has to be asked for first
(R43). -/
def autCkpt (w : Waiter) (part : Nat) (secure : Bool) (pasid v at_ : Nat) (s : State) : Except XErr (State × Nat) :=
  match s.named part pasid v with
  | .error r => .ok (s, refusal r)
  | .ok (q, k, a) =>
    if at_ % 64 != 0 then .ok (s, refusal 5)
    else match s.ctxWrite w part secure pasid at_ (spoorBytes a 0) with
      | .error e => if e.asks then .error e else .ok (s, refusal 5)
      | .ok s => .ok (s.writeFrame q k a, 0)

/-- .resume (R423). -/
def autResume (part pasid v : Nat) (s : State) : State × Nat :=
  match s.named part pasid v with
  | .error r => (s, refusal r)
  | .ok (q, k, a) => (if a.stopped then s.reviveAutomaton part q k a else s, 0)

/-- .count: four words (R423). -/
def autCount (part pasid v : Nat) (s : State) : State × Nat :=
  match s.named part pasid v with
  | .error r => (s, refusal r)
  | .ok (_, _, a) => (s, a.refused + a.evicted * 2 ^ 32 + a.xrefused * 2 ^ 64 + a.cands.length * 2 ^ 96)

/-- .stop and .remove: the automaton stops at once; the operation completes when its outputs have left the engine's
queue, and answers nothing before (R124, R423). (DEDUCED: log entry 35) -/
def autStop (remove : Bool) (part pasid v : Nat) (s : State) : State × Option Nat :=
  match s.named part pasid v with
  | .error r => (s, some (refusal r))
  | .ok (q, k, a) =>
    let s := if a.stopped then s else s.stopAutomaton q k a 0 0 0
    if s.hasOutputs q k then (s, none)
    else if remove then (s.freeSlot part q k a, some 0) else (s, some 0)

/-- An AUTCTL operation tried: the state, and its answer unless it has to wait; a checkpoint whose place has to be asked
for is an error (R423). -/
def autTry (w : Waiter) (o : AutOp) (s : State) : Except XErr (State × Option Nat) :=
  match o.act with
  | .stop => .ok (autStop false o.part o.pasid o.value s)
  | .remove => .ok (autStop true o.part o.pasid o.value s)
  | .resume => let (s, v) := autResume o.part o.pasid o.value s; .ok (s, some v)
  | .count => let (s, v) := autCount o.part o.pasid o.value s; .ok (s, some v)
  | .ckpt at_ => do
    let (s, v) ← autCkpt w o.part o.secure o.pasid o.value at_ s
    return (s, some v)

/-- The slot that an operation's value names. -/
def AutOp.slot (o : AutOp) : Nat := bits o.value 0 6

/-- The quarter that an operation's value names. -/
def AutOp.quarter (o : AutOp) : Nat := bits o.value 16 4

/-- Operations of an engine that wait try again, those on one automaton in the order of their issue: the state, and those
that still wait (R423). -/
def retryOps (q : Nat) : State → List Nat → List AutOp → State × List AutOp
  | s, _, [] => (s, [])
  | s, busy, o :: os =>
    if busy.contains o.slot then
      let (s, left) := retryOps q s busy os
      (s, o :: left)
    else match autTry (.scanner q o.slot) o s with
      | .ok (s, some v) => retryOps q (s.pay o.serial v) busy os
      | .ok (s, none) =>
        let (s, left) := retryOps q s (o.slot :: busy) os
        (s, o :: left)
      | .error e =>
        let (s, left) := retryOps q (s.askFor (.scanner q o.slot) o.pasid e) (o.slot :: busy) os
        (s, o :: left)

/-- An engine's queue drains, and the operations that waited for it complete (R119, R124, R423). -/
def State.engineTurn (s : State) (q : Nat) : State :=
  let s := s.engineDrain q
  let (s, left) := retryOps q s [] (s.engine q).ops
  if (s.engine q).ops.isEmpty then s else s.setEngine q { s.engine q with ops := left }

/-- An operation issued: it waits behind an earlier one on its automaton, and answers at once where it can (R423). (DEDUCED: log entry 35) -/
def autIssue (w : Waiter) (o : AutOp) (s : State) : Except XErr (State × Option Nat) :=
  let q := o.quarter
  let wait := fun (s : State) =>
    { s.setEngine q { s.engine q with ops := (s.engine q).ops ++ [{ o with serial := s.serial }] } with serial := s.serial + 1 }
  if (s.engine q).ops.any (fun x => x.slot == o.slot) && (s.named o.part o.pasid o.value).toOption.isSome then
    .ok (wait s, none)
  else do
    let r ← autTry w o s
    return match r with
      | (s, none) => (wait s, none)
      | r => r

/-- The checks that every AUTCTL makes before it acts: operands, token, room for its result. (DEDUCED: log entry 34) -/
def autCheck (ops : List (Opnd × Nat × Nat)) : Act := fun iss g s => do
  noPoison g iss ops
  needToken s iss g 0
  loadRoom g
  return s

/-- What a lane's operation has answered, or the number under which it waits. -/
def issueLanes (one : State → Nat → Except XErr (State × Option Nat)) (lanes : List Nat) (s : State) :
    Except Trap (State × Tbl Nat × List (Nat × Nat)) :=
  lanes.foldlM (fun (r : State × Tbl Nat × List (Nat × Nat)) i =>
    match one r.1 i with
    | .ok (s, some v) => .ok (s, r.2.1 ++ [(i, v)], r.2.2)
    | .ok (s, none) => .ok (s, r.2.1 ++ [(i, 0)], r.2.2 ++ [(s.serial - 1, i)])
    | .error e => .error (askTrap e)) (s, [], [])

/-- An AUTCTL operation on the automaton that A names, of each lane in order, with a result of n words: the load counter
rises at issue, and D stays pending until the operation has completed (R399, R423). -/
def autAct (d a : Opnd) (ops : List (Opnd × Nat × Nat)) (n : Nat) (act : Group → Nat → AutAct) : Act :=
  committing (autCheck ops) fun iss g s => do
    let one := fun s i => autIssue (.group iss.key)
      ⟨0, act g i, val32 a g i, partOf iss.key, g.pasid, s.coreSecure (coreOf iss.key)⟩ s
    let (s, vals, owed) ← issueLanes one (lanesOf iss.lanes) s
    return (s.dropReturned (.group iss.key)).modGroup iss.key fun g =>
      g.raiseOwed (laneSectors d n (vals.map fun (i, v) => (i, (v, false)))) owed

/-- AUTCTL.stop. -/
def execAutctlStop (d a : Opnd) (s : State) : Host.Outcome State Fault Refusal :=
  runAct (autAct d a [(a, 1, 0)] 1 fun _ _ => .stop) s

/-- AUTCTL.remove. -/
def execAutctlRemove (d a : Opnd) (s : State) : Host.Outcome State Fault Refusal :=
  runAct (autAct d a [(a, 1, 0)] 1 fun _ _ => .remove) s

/-- AUTCTL.resume. -/
def execAutctlResume (d a : Opnd) (s : State) : Host.Outcome State Fault Refusal :=
  runAct (autAct d a [(a, 1, 0)] 1 fun _ _ => .resume) s

/-- AUTCTL.ckpt: B is an address (R400). -/
def execAutctlCkpt (d a b : Opnd) (s : State) : Host.Outcome State Fault Refusal :=
  runAct (autAct d a [(a, 1, 0), (b, 2, 0)] 1 fun g i => .ckpt (read64 g i b).1) s

/-- AUTCTL.count. -/
def execAutctlCount (d a : Opnd) (s : State) : Host.Outcome State Fault Refusal :=
  runAct (autAct d a [(a, 1, 0)] 4 fun _ _ => .count) s

/-- AUTCTL.close: A is a stream id. -/
def execAutctlClose (d a : Opnd) (s : State) : Host.Outcome State Fault Refusal :=
  runAct (committing (autCheck [(a, 1, 0)]) fun iss g s =>
    let (s, vals) := laneStatus (fun s i => autClose (partOf iss.key) (val32 a g i) s) (lanesOf iss.lanes) s
    .ok (giveStatus iss d 1 vals s)) s

/-- AUTCTL.open: A is the local-store offset of a descriptor of 32 bytes. -/
def execAutctlOpen (d a : Opnd) (s : State) : Host.Outcome State Fault Refusal :=
  runAct (committing
    (fun iss g s => do
      noPoison g iss [(a, 1, 2)]
      checkBlocks s iss g ((lanesOf iss.lanes).map fun i => blockAt s iss.key g i a.code 32 32 32 (val32 a g i))
      loadRoom g
      return s)
    fun iss g s =>
      let t := g.team.getD 0
      let one := fun s i => autOpen (partOf iss.key) g.pasid (memBytes s.mem (localAddr t (val32 a g i)) 32) s
      let (s, vals) := laneStatus one (lanesOf iss.lanes) s
      .ok (giveStatus iss d 1 vals s)) s

end Sys2Proof.Machine
end

