-- ==== Sys2Proof/Machine/System.lean ====
section
/-! DEFINITION. System registers, counting, drawing, the commit token, and poison tests (R167, R322 to R326, R424, R426,
R427). -/

namespace Sys2Proof.Machine

/-! SYSRD. -/

/-- The group control register (R167): SBCHK reads 0 in deterministic mode (R303). -/
def gctlOf (det : Bool) (slot : Nat) (g : Group) : Nat :=
  slot * 2 ^ 18 + b2n g.holdsExt * 2 ^ 17 + g.spint * 2 ^ 8 + b2n (g.lanes.any fun l => l.live && l.demoted) * 4 +
  b2n (g.sbchk && !det) * 2 + b2n g.eif

/-- What a selector returns to a lane (R424, R229, R319, R429). -/
def sysReg (s : State) (key : Nat) (g : Group) (i sel : Nat) : Nat :=
  let part := partOf key
  let det := (s.detOf part).isSome
  let rank := (s.teamOf g).elim (0, 0) fun t => (t.idx % s.clusterSize t, t.idx / s.clusterSize t)
  match sel with
  | 0x01 => i
  | 0x02 => rank.1
  | 0x03 => rank.2
  | 0x04 => kindNum g.kind
  | 0x05 => if g.kind = .team then g.gidx else 0
  | 0x06 => lo32 g.logicalId
  | 0x07 => hi32 g.logicalId
  | 0x08 => vcoreOf (coreOf key)
  | 0x09 => slotOf key
  | 0x0A => g.job
  | 0x0B => g.pasid
  | 0x0C => part
  | 0x0D => b2n det
  | 0x0E => if det then 0 else lo32 s.timer
  | 0x0F => if det then 0 else hi32 s.timer
  | 0x10 => gctlOf det (slotOf key) g
  | 0x20 => s.lstoreOf g
  | _ => 0

/-- SYSRD: a variable-latency result (R424, R164). -/
def sysrdAct (d a : Opnd) : Act := fun iss g s => do
  noPoison g iss [(a, 1, 0)]
  loadRoom g
  return giveStatus iss d 1 ((vals32 g iss a).map fun (i, sel) => (i, sysReg s iss.key g i sel)) s

/-- SYSRD. -/
def execSysrd (d a : Opnd) (s : State) : Host.Outcome State Fault Refusal := runAct (sysrdAct d a) s

/-! CCNT and RAND. -/

/-- Fixed-latency results of lanes, clean, that write no latch (R399). -/
def putClean (iss : Issue) (g : Group) (d : Opnd) (n : Nat) (vals : Tbl Nat) (s : State) : State :=
  s.setGroup iss.key (vals.foldl (fun g (i, v) => writeOp g i d n (v, false)) g)

/-- What CCNT counts: instructions issued before this one in deterministic mode, resident clocks otherwise (R325). (DEDUCED: log entry 30) -/
def ccntOf (det : Bool) (g : Group) : Nat := if det then g.issued else g.resident

/-- CCNT (R325). -/
def ccntAct (ty : Ty) (d : Opnd) : Act := fun iss g s =>
  let v := ccntOf (s.detOf (partOf iss.key)).isSome g % 2 ^ (32 * ty.regs)
  .ok (putClean iss g d ty.regs ((lanesOf iss.lanes).map fun i => (i, v)) s)

/-- CCNT. -/
def execCcnt (ty : Ty) (d : Opnd) (s : State) : Host.Outcome State Fault Refusal := runAct (ccntAct ty d) s

/-- One round of rand_block (R426). -/
def randRound (key : Nat → Nat) (v : Nat × Nat × Nat × Nat) (k : Nat) : Nat × Nat × Nat × Nat :=
  let (v0, v1, v2, v3) := v
  let ka := (key (k % 4) + k * 0x6A3D19F5) % 2 ^ 32
  let kb := (key ((k + 2) % 4) + k * 0xB5E84C23) % 2 ^ 32
  let p := v0 * 0xC3A51D27
  let q := v2 * 0x8F4B62D9
  (hi32 q ^^^ v1 ^^^ ka, lo32 q, hi32 p ^^^ v3 ^^^ kb, lo32 p)

/-- rand_block: the first two words of the block (R426). -/
def randBlock (key : Nat → Nat) (ctr : Nat) : Nat × Nat :=
  let v := (List.range 10).foldl (randRound key) (lo32 ctr, hi32 ctr, 0x5C1E93A7, 0x0D724B6E)
  (v.1, v.2.1)

/-- The key of a lane's draws: partition seed, job, global lane id (R326, R317). -/
def randKey (seed job lane : Nat) (k : Nat) : Nat :=
  match k with
  | 0 => lo32 seed
  | 1 => lo32 job
  | 2 => lo32 lane
  | _ => hi32 lane

/-- What RAND returns for a block at a type (R426). -/
def randValue (ty : Ty) (v : Nat × Nat) : Nat :=
  match ty with
  | .n64 => pair64 v.1 v.2
  | .f32 => Fmt.f32.round (.fin false (v.1 / 2 ^ 8) (-24)) .rne false
  | _ => v.1

/-- RAND: each executing lane draws once (R326, R426). -/
def randAct (ty : Ty) (d : Opnd) : Act := fun iss g s => do
  loadRoom g
  let seed := (s.part? (partOf iss.key)).elim 0 (·.seed)
  let vals := (lanesOf iss.lanes).map fun i =>
    (i, randValue ty (randBlock (randKey seed g.job ((g.logicalId + i) % 2 ^ 64)) (g.lane i).draws))
  let s := s.setGroup iss.key (g.eachLane iss.lanes fun _ l => { l with draws := (l.draws + 1) % 2 ^ 64 })
  return giveStatus iss d ty.regs vals s

/-- RAND. -/
def execRand (ty : Ty) (d : Opnd) (s : State) : Host.Outcome State Fault Refusal := runAct (randAct ty d) s

/-! The commit token. -/

/-- TOKWAIT: complete at once in normal mode and for the holder; otherwise the load counter stays raised until the
grant (R322). -/
def tokwaitAct : Act := fun iss g s => do
  loadRoom g
  return if s.lacksToken iss.key g then
    s.setGroup iss.key { g with loads := g.loads + 1, tokwaits := g.tokwaits + 1 } else s

/-- TOKWAIT. -/
def execTokwait (s : State) : Host.Outcome State Fault Refusal := runAct tokwaitAct s

/-- TOKPASS (R323). (DEDUCED: log entry 25) -/
def tokpassAct : Act :=
  committing
    (fun iss g s => do
      needToken s iss g 0
      return s)
    fun iss g s => .ok (s.tokenDrop (partOf iss.key) g.uid)

/-- TOKPASS. -/
def execTokpass (s : State) : Host.Outcome State Fault Refusal := runAct tokpassAct s

/-! PSNT. -/

/-- PSNT: whether a register of A is poisoned (R427). -/
def psntAct (ty : Ty) (pd a : Opnd) : Act := fun iss g s =>
  let vals := (lanesOf iss.lanes).map fun i => (i, (readOp g i ty ty.regs a).2)
  .ok (s.setGroup iss.key (vals.foldl (fun g (i, v) => writePred g i pd (triOf v) false) g))

/-- PSNT. -/
def execPsnt (ty : Ty) (pd a : Opnd) (s : State) : Host.Outcome State Fault Refusal := runAct (psntAct ty pd a) s

/-- PSNT.clr: A's bits, clean (R427). -/
def psntClrAct (ty : Ty) (d a : Opnd) : Act := fun iss g s =>
  .ok (putClean iss g d ty.regs ((lanesOf iss.lanes).map fun i => (i, (readOp g i ty ty.regs a).1)) s)

/-- PSNT.clr. -/
def execPsntClr (ty : Ty) (d a : Opnd) (s : State) : Host.Outcome State Fault Refusal := runAct (psntClrAct ty d a) s

end Sys2Proof.Machine
end

