-- ==== Sys2Proof/Machine/Walks.lean ====
section
/-! DEFINITION. SBIND and SFREE: the binding of stream registers to walk patterns (R413, R414). The walks themselves are
in Machine/Operands.lean. -/

namespace Sys2Proof.Machine

/-- A signed 32-bit field of a pattern. -/
def strideOf (bs : List Byte) (k : Nat) : Int := intVal true 32 (fieldOf bs k 4)

/-- A stream register bound to the pattern of the 32 bytes: position 0, no end flag (R413, R414). -/
def patternOf (off : Nat) (bs : List Byte) : SReg :=
  let b4 := fieldOf bs 4 1
  { bound := true, off := off, base := bits (fieldOf bs 0 4) 0 20, ndim := bits b4 4 2, sgn := bit b4 2,
    esz := bits b4 0 2, n0 := fieldOf bs 8 2, n1 := fieldOf bs 10 2, n2 := fieldOf bs 12 2,
    st0 := strideOf bs 16, st1 := strideOf bs 20, st2 := strideOf bs 24, pos := 0, f0 := 0, f1 := 0, f2 := 0 }

/-- Whether the bytes keep R413. -/
def patternOk (bs : List Byte) : Bool :=
  let r := patternOf 0 bs
  let b4 := fieldOf bs 4 1
  bits (fieldOf bs 0 4) 20 12 == 0 && bits b4 6 2 == 0 && bits b4 3 1 == 0 && fieldOf bs 5 3 == 0 &&
  fieldOf bs 14 2 == 0 && fieldOf bs 28 4 == 0 && r.esz != 3 && r.ndim != 0 && r.n0 != 0 &&
  (if 2 ≤ r.ndim then r.n1 != 0 else r.n1 == 0 && r.st1 == 0) &&
  (if r.ndim = 3 then r.n2 != 0 else r.n2 == 0 && r.st2 == 0)

/-- The number of a stream register operand. -/
def sregNo : Opnd → Nat
  | .s k => k
  | _ => 0

/-- SBIND acts once for the group: the offset is that of the lowest executing lane (R414). -/
def sbindAct (d a : Opnd) : Act := fun iss g s => do
  let i := lowLane iss.lanes
  noPoison g { iss with lanes := 2 ^ i } [(a, 1, 0)]
  let off := val32 a g i
  let gen := localGeneric (vcoreOf (coreOf iss.key)) off
  let t ← match g.team with
    | none => .error (.at_ 0x09 0 iss.lanes gen)
    | some t => .ok t
  require (off % 32 == 0 && decide (off + 32 ≤ s.lstoreOf g)) (.at_ 0x09 0 iss.lanes gen)
  let bs := memBytes s.mem (localAddr t off) 32
  require (!s.poisonAt (localAddr t off) 32) (.poison iss.lanes a.code 2)
  require (patternOk bs) (.at_ 0x0E 0 iss.lanes gen)
  return s.setGroup iss.key { g with sregs := lmod (sregNo d) (fun _ => patternOf off bs) g.sregs }

/-- SBIND. -/
def execSbind (d a : Opnd) (s : State) : Host.Outcome State Fault Refusal := runAct (sbindAct d a) s

/-- SFREE unbinds the register (R414). -/
def sfreeAct (d : Opnd) : Act := fun iss g s =>
  .ok (s.setGroup iss.key { g with sregs := lmod (sregNo d) (fun _ => SReg.free) g.sregs })

/-- SFREE. -/
def execSfree (d : Opnd) (s : State) : Host.Outcome State Fault Refusal := runAct (sfreeAct d) s

end Sys2Proof.Machine
end

