-- ==== Sys2Proof/Machine/Preempt.lean ====
section
/-! DEFINITION. Pre-emption: halting in place, eviction to the save area and the return from it, time slices, and the
stop and resumption of a context (R36, R327, R335 to R338). -/

namespace Sys2Proof.Machine

/-! Halting. -/

/-- The masks of the REGION at a lane's PC, for a lane that may issue (R335). -/
def State.markerAt (s : State) (key : Nat) (g : Group) (i : Nat) : Option Masks :=
  let l := g.lane i
  if l.live && l.wait == .none then
    match s.peek key g l.pc with
    | some (_, .region m) => some m
    | _ => none
  else none

/-- Whether a group is saved whole: a lane waits at a barrier, PHASE, SWAIT or TOKWAIT, or the group is halted at BKPT
(R335). -/
def Group.whole (g : Group) : Bool :=
  g.atBkpt || g.halt == .phase || g.lanes.any fun l => l.live && (match l.wait with
    | .bar | .cbar | .phase | .swait .. => true
    | .loads => g.tokwaits != 0
    | _ => false)

/-- A group halted in place: its outstanding loads complete; one that is saved whole drains; of any other, lanes at a
REGION stay there with their stores drained, and the other lanes, where there are any, are put back to their region
entries (R335). In deterministic mode every group is kept whole, with its spin entries (R327). The reuse latch is released
(R246). (DEDUCED: log entry 26) -/
def State.haltGroup (s : State) (key : Nat) : State :=
  match s.group? key with
  | none => s
  | some g =>
    if g.pre != .no then s
    else
      let s := s.returnAll key
      let g := s.groupNow key g
      let stay := fun (s : State) (whole : Bool) => s.modGroup key fun g =>
        { g with pre := .inPlace s.clock whole, spins := if s.normalMode (partOf key) then [] else g.spins, reuse := none }
      match g.halt, s.normalMode (partOf key) with
      | .aborted _, normal => stay s !normal
      | _, false => stay s true
      | _, true =>
        if g.whole then stay (s.drain key allLanes) true
        else
          let markers := maskOf fun i => (s.markerAt key g i).isSome
          let back := maskOf fun i => (g.lane i).live && !(g.lane i).committed && !bit markers i
          let s := s.drain key markers
          if back = 0 then stay (s.modGroup key fun g => { g with held := none, walks := [], walked := false }) false
          else
            let (s, keep) := s.drawBool
            stay (s.modGroup key fun g => { (g.discardLanes back keep .none) with walks := [], walked := false }) false

/-- Whether a halted group is kept whole, as it was when it halted (R335, R336). -/
def Group.keptWhole (g : Group) : Bool :=
  match g.pre with
  | .inPlace _ whole => whole
  | _ => g.whole

/-- Every group of a context on a core halted. -/
def State.haltContext (s : State) (ck pasid : Nat) : State :=
  (s.coreGroups ck).foldl (fun s (k, g) => if g.pasid = pasid then s.haltGroup k else s) s

/-- A context is scheduled again on a core: groups in place go on, and evicted ones wait for their slots (R337). In a
partition that has halted nothing goes on (R88). (DEDUCED: log entry 26) -/
def State.schedule (s : State) (ck pasid : Nat) : State :=
  if (s.part? (partOfCore ck)).elim false (·.halted) then s
  else
  let go := fun (k : Nat) (g : Group) =>
    if coreOf k = ck && g.pasid = pasid then
      match g.pre with
      | .inPlace .. => { g with pre := .no }
      | .evicted at_ _ freed => { g with pre := .evicted at_ true freed }
      | .no => g
    else g
  let s := s.mapGroups go
  { s with ctxs := tmod (ctxKey (partOfCore ck) pasid) (fun c => { c with used := terase (vcoreOf ck) c.used }) s.ctxs }

/-! Frames (R336). -/

/-- Masks that name every register of a group: its base, the extension that it holds, and all others. -/
def Group.allMasks (g : Group) : Masks :=
  let ext := if g.holdsExt then 2 ^ (8 + g.ext / 8) - 2 ^ 8 else 0
  ⟨BitVec.ofNat 32 (2 ^ (g.base / 8) - 1 ||| ext), 0xFFF, 0xFF, 0xFF⟩

/-- The union of two masks. -/
def maskUnion (a b : Masks) : Masks := ⟨a.x ||| b.x, a.w ||| b.w, a.p ||| b.p, a.e ||| b.e⟩

/-- The masks that a halted group keeps: all of a group saved whole, else the union of its lanes' live-in masks (R335). -/
def State.keptMasks (s : State) (key : Nat) (g : Group) : Masks :=
  if g.keptWhole then g.allMasks
  else (lanesOf g.live).foldl (fun m i =>
    let own := match s.markerAt key g i with
      | some m => m
      | none => ((g.lane i).entry.map (·.masks)).getD g.allMasks
    maskUnion m own) ⟨0, 0, 0, 0⟩

/-- The carried registers as words, in the order of the phase record (R147, R336). -/
def carriedRegs (g : Group) (m : Masks) : List Reg :=
  let clean := fun (v : Nat) => (⟨BitVec.ofNat 32 v, false⟩ : Reg)
  ((bitsOf 32 m.x.toNat).flatMap fun b => laneIds.flatMap fun i => (List.range 8).map fun k =>
    tget (g.lane i).x (8 * b + k) Reg.zero) ++
  ((bitsOf 12 m.w.toNat).flatMap fun b => (List.range 32).map fun k => tget g.w (32 * b + k) Reg.zero) ++
  ((bitsOf 8 m.p.toNat).flatMap fun k =>
    let v := laneIds.foldl (fun n i => n + triNum ((g.lane i).pred k).v * 4 ^ i) 0
    [clean (lo32 v), clean (hi32 v)]) ++
  ((bitsOf 8 m.e.toNat).flatMap fun k => laneIds.map fun i => tget (g.lane i).e k Reg.zero)

/-- Words from the bytes of a number. -/
def wordsOf (n v : Nat) : List Reg := (List.range n).map fun k => ⟨BitVec.ofNat 32 (v / 2 ^ (32 * k)), false⟩

/-- A list of words filled with zeros to a length. -/
def fillTo (n : Nat) (l : List Reg) : List Reg := l ++ List.replicate (n - l.length) Reg.zero

/-- The bits of the lanes of which a test holds. -/
def laneBits (f : Nat → Bool) : Nat := maskOf f

/-- The 16,384 words of a group frame (R336). Entry 0 of a lane's return stack is its oldest one in the core. (DEDUCED: log entry 27) -/
def groupFrame (det : Bool) (slot : Nat) (g : Group) (m : Masks) : List Reg :=
  let waiting := match g.halt with
    | .aborted _ => g.waiting .aborted
    | _ => 0
  let axis := g.axis % 2 ^ 16
  let whole := g.keptWhole
  let head := wordsOf 1 (2 ^ 24 + b2n g.atBkpt * 2 ^ 9 + b2n whole * 2 ^ 8) ++ wordsOf 1 g.live ++
    wordsOf 1 m.x.toNat ++ wordsOf 1 (m.w.toNat + m.p.toNat * 2 ^ 16 + m.e.toNat * 2 ^ 24) ++ wordsOf 1 waiting ++
    wordsOf 1 (carriedPois g m) ++ wordsOf 1 (gctlOf det slot g) ++ wordsOf 1 axis ++ List.replicate 8 Reg.zero
  let pcs := laneIds.flatMap fun i => wordsOf 2 (g.lane i).pc
  let depths := wordsOf 8 (laneIds.foldl (fun n i => n + (g.lane i).stack.length * 256 ^ i) 0)
  let calls := laneIds.flatMap fun i => fillTo 32 ((g.lane i).stack.reverse.flatMap (wordsOf 2))
  let body := fillTo (0xC000 / 4) (head ++ pcs ++ depths ++ calls ++ List.replicate 8 Reg.zero ++ carriedRegs g m)
  let core := if whole then
      (laneIds.flatMap fun i => (g.lane i).lat :: (List.range 8).map fun k => tget (g.lane i).c k Reg.zero) ++
      wordsOf 1 (laneBits fun i => (g.lane i).lat.pois) ++
      (List.range 8).flatMap fun k => wordsOf 1 (laneBits fun i => (tget (g.lane i).c k Reg.zero).pois)
    else []
  fillTo 0x4000 (body ++ core)

/-- Word k of a list of bytes. -/
def wordAt (bs : List Byte) (k : Nat) : Nat := fieldOf bs (4 * k) 4

/-- Registers read back from a frame: value v, with the poison that the register had. -/
def backReg (old : Tbl Reg) (k v : Nat) : Nat × Reg := (k, ⟨BitVec.ofNat 32 v, (tget old k Reg.zero).pois⟩)

/-- A table of registers without those that read zero. -/
def compact (l : Tbl Reg) : Tbl Reg := l.filter fun x => x.2 != Reg.zero

/-- A group as its frame's bytes give it (R336, R337). What the frame does not hold is as the group was saved, and
registers that it does not keep are kept or zero by the part's choice. Lanes that a barrier has released meanwhile stand
behind it (R337). (DEDUCED: log entry 27) -/
def Group.fromFrame (g : Group) (bs : List Byte) (keep : Bool) : Group :=
  let m : Masks := ⟨BitVec.ofNat 32 (wordAt bs 2), BitVec.ofNat 12 (fieldOf bs 12 2), BitVec.ofNat 8 (fieldOf bs 14 1),
    BitVec.ofNat 8 (fieldOf bs 15 1)⟩
  let whole := bit (wordAt bs 0) 8
  let xb := bitsOf 32 m.x.toNat
  let wb := bitsOf 12 m.w.toNat
  let pb := bitsOf 8 m.p.toNat
  let eb := bitsOf 8 m.e.toNat
  let at_ := fun k => wordAt bs (4480 / 4 + k)
  let wOff := 256 * xb.length
  let pOff := wOff + 32 * wb.length
  let eOff := pOff + 2 * pb.length
  let gctl := wordAt bs 6
  let freed := match g.pre with
    | .evicted _ _ freed => freed
    | _ => 0
  let lane := fun (i : Nat) (l : Lane) =>
    let x := compact (xb.zipIdx.flatMap fun (b, j) => (List.range 8).map fun k => backReg l.x (8 * b + k) (at_ (256 * j + 8 * i + k)))
    let p := (pb.zipIdx.map fun (k, j) =>
      (k, (⟨triOfNum (pair64 (at_ (pOff + 2 * j)) (at_ (pOff + 2 * j + 1)) / 4 ^ i), (l.pred k).pois⟩ : PReg))).filter fun x => x.2 != PReg.f
    let e := compact (eb.zipIdx.map fun (k, j) => backReg l.e k (at_ (eOff + 32 * j + i)))
    let depth := min 16 (fieldOf bs (320 + i) 1)
    { l with
      live := bit (wordAt bs 1) i
      pc := if bit freed i then l.pc else fieldOf bs (64 + 8 * i) 8
      stack := ((List.range depth).map fun j => fieldOf bs (352 + 128 * i + 8 * j) 8).reverse
      x := restoreTbl (maskNames m 0) keep x l.x, p := restoreTbl (maskNames m 2) keep p l.p
      e := restoreTbl (maskNames m 3) keep e l.e
      lat := if whole then (backReg [(0, l.lat)] 0 (wordAt bs (0xC000 / 4 + 9 * i))).2 else Reg.zero
      c := if whole then compact ((List.range 8).map fun k => backReg l.c k (wordAt bs (0xC000 / 4 + 9 * i + 1 + k))) else [] }
  let w := compact (wb.zipIdx.flatMap fun (b, j) => (List.range 32).map fun k => backReg g.w (32 * b + k) (at_ (wOff + 32 * j + k)))
  { g with
    lanes := g.lanes.mapIdx lane, w := restoreTbl (maskNames m 1) keep w g.w
    spint := min 256 (max 4 (bits gctl 8 9)), sbchk := bit gctl 1, eif := bit gctl 0, axis := fieldOf bs 28 2, spins := [] }

/-! Save areas. -/

/-- Byte address of the group frame of a group (R336). -/
def groupFrameAt (save key : Nat) : Nat := save + key % (256 * 48) * 0x10000

/-- Byte address of the team frame of the team whose first group has a key. -/
def teamFrameAt (save key : Nat) : Nat := save + 0x30000000 + key % (256 * 48) * 0x110000

/-- Words written in a context from the start of a page upward, page by page, and charged to it (R37). -/
def State.saveWords (s : State) (part : Nat) (secure : Bool) (pasid a : Nat) (ws : List Reg) : Except XErr State :=
  (chunks 0x4000 (ws.length / 0x4000 + 1) ws).zipIdx.foldlM (fun s (c, k) =>
    if c.isEmpty then .ok s
    else match s.ctxByte .ring part secure pasid (a + k * 0x10000) .w with
      | .error e => .error e
      | .ok (pl, _) =>
        let s := s.writeNow (some pasid) pl.key pl.phys (c.flatMap fun r => leBytes 4 r.bits.toNat) false
        let s := s.charge part pasid (memCost pl.phys (4 * c.length))
        .ok (c.zipIdx.foldl (fun s (r, j) => if r.pois then s.setPoison (pl.phys + 4 * j) true else s) s)) s

/-- n bytes read in a context from the start of a page upward, page by page, poisoned or not, with their energy (R37). -/
def State.loadBytes (s : State) (part : Nat) (secure : Bool) (pasid a n : Nat) : Except XErr (List Byte × Nat) :=
  (List.range ((n + 0xFFFF) / 0x10000)).foldlM (fun (bs, cost) k => do
    let (pl, _) ← s.ctxByte .ring part secure pasid (a + k * 0x10000) .r
    let m := min 0x10000 (n - k * 0x10000)
    let _ ← s.poisonBack .ring pl.phys m
    return (bs ++ s.readPlace pl m, cost + memCost pl.phys m)) ([], 0)

/-- The words of a team frame (R336, R416): local store, extension when no group holds it, pool state, pending requests,
and the stream registers of the team's groups. The pool state's four values are words. (DEDUCED: log entry 27) -/
def State.teamFrame (s : State) (serial : Nat) (t : Team) : List Reg :=
  let ls := (List.range (t.lstore / 4)).map fun k =>
    (⟨BitVec.ofNat 32 (s.readNat (localAddr serial (4 * k)) 4), s.poisonAt (localAddr serial (4 * k)) 4⟩ : Reg)
  let ext := if t.extHolder.isSome then []
    else (List.range t.extRegs).flatMap fun r => laneIds.map fun i => tget t.ext (i * 192 + r) Reg.zero
  let pool := wordsOf 1 t.pf ++ wordsOf 1 t.pn ++ wordsOf 1 t.pbusy ++ wordsOf 1 (t.extHolder.elim 0xFF slotOf)
  let queue := (t.extQueue ++ t.extNew).map slotOf
  let reqs := wordsOf 44 (leNat ((queue ++ List.replicate (176 - queue.length) 0xFF).map fun v => BitVec.ofNat 8 v))
  let sreg := fun (r : SReg) => wordsOf 1 (b2n r.bound * 2 ^ 31 + r.off) ++ wordsOf 1 r.pos ++ wordsOf 1 r.f0 ++ wordsOf 1 r.f1 ++
    wordsOf 1 r.f2 ++ List.replicate 3 Reg.zero
  let gs := (s.teamGroups serial).map (·.2)
  let sregs := (List.range 32).flatMap fun k => match gs.find? fun g => g.gidx == k with
    | none => List.replicate 64 Reg.zero
    | some g => g.sregs.flatMap sreg
  let mid := fillTo (0x106000 / 4) (fillTo (0x100000 / 4) ls ++ ext) ++ pool ++ reqs
  fillTo (0x110000 / 4) (fillTo (0x106100 / 4) mid ++ sregs)

/-- A unit of eviction: the keys of the groups of a team, with its serial number, or one SPAWN group (R336). -/
structure Unit_ where
  team : Option Nat
  keys : List Nat
deriving DecidableEq, Repr

/-- The units of a context's groups in a list. -/
def unitsIn (gs : List (Nat × Group)) : List Unit_ :=
  (gs.map fun (k, g) => match g.team with
    | none => (⟨none, [k]⟩ : Unit_)
    | some t => ⟨some t, (gs.filter fun (_, h) => h.team == some t).map (·.1)⟩).eraseDups

/-- The clock at which a group was halted. -/
def Group.haltedAt (g : Group) : Nat :=
  match g.pre with
  | .no => 0
  | .inPlace n _ | .evicted n _ _ => n

/-- Whether an engine operation of a unit is in flight (R336), or a result of one of its groups still depends on an
operation: outstanding results come before a group is saved (R335). (DEDUCED: log entry 27) -/
def State.unitBusy (s : State) (u : Unit_) : Bool :=
  u.keys.any (fun k => (s.group? k).elim false fun g => g.pend.any fun p => !p.owed.isEmpty) ||
  u.keys.any (fun k => s.bulks.any (·.2.group == k) || s.mmabs.any (·.2.group == k) || s.colls.any (·.2.group == k)) ||
  match u.team with
  | none => false
  | some t => s.bulks.any (fun (_, b) => b.receivers.contains t) || s.mmabs.any (·.2.team == t)

/-- A unit's frames written to its context's save area; without one its first page is non-resident. -/
def State.writeUnit (s : State) (ck pasid : Nat) (u : Unit_) : Except XErr State := do
  let part := partOfCore ck
  let save ← match (tget s.ctxs (ctxKey part pasid) Ctx.new).save with
    | none => .error (.flt 0x01 0)
    | some a => Except.ok a
  let secure := s.coreSecure ck
  let det := (s.detOf part).isSome
  let s ← u.keys.foldlM (fun s k => match s.group? k with
    | none => .ok s
    | some g => s.saveWords part secure pasid (groupFrameAt save k) (groupFrame det (slotOf k) g (s.keptMasks k g))) s
  match u.team.bind fun t => (tget? t s.teams).map fun x => (t, x) with
  | none => return s
  | some (n, t) => s.saveWords part secure pasid (teamFrameAt save (t.groups.headD 0)) (s.teamFrame n t)

/-- A group whose lanes hold their whole return stacks, the entries of the spill area behind those of the core: the slot's
spill area serves other groups while the group is evicted (R149, R151, R335). (DEDUCED: log entry 27) -/
def State.gatherStacks (s : State) (key : Nat) (g : Group) : Group :=
  { g with lanes := g.lanes.mapIdx fun i l =>
      { l with stack := l.stack ++ ((List.range l.spilled).reverse.map fun e => s.readNat (s.spillEntry key i e) 8) } }

/-- The spilled entries of a group's return stacks put back into its slot's spill area. -/
def State.spreadStacks (s : State) (key : Nat) (g : Group) : State :=
  laneIds.foldl (fun s i =>
    let l := g.lane i
    ((l.stack.drop (l.stack.length - l.spilled)).reverse.zipIdx).foldl (fun s (v, e) =>
      s.setBytes (s.spillEntry key i e) (leBytes 8 v)) s) s

/-- A unit leaves its core: its frames are written, and its groups wait in the save area. A write that faults ends the
task as faulted with the code and ENG; one whose place has to be asked for is tried again (R336, R43). (DEDUCED: log entry 27) -/
def State.evictUnit (s : State) (ck : Nat) (u : Unit_) : State :=
  match u.keys.head?.bind s.group? with
  | none => s
  | some g =>
    let key := u.keys.headD 0
    let s := u.keys.foldl State.returnAll s
    if u.keys.any fun k => (s.group? k).isNone then s else
    match s.writeUnit ck g.pasid u with
    | .error e =>
      if e.asks then s.askFor .ring g.pasid e
      else s.taskFault key g ⟨e.code, Acc.w.bits, 0, 0, 0, engFlag⟩ (g.lane (lowLane g.live)).pc
    | .ok s =>
      let out := (s.groups.filter fun (k, _) => u.keys.contains k).map fun (k, g) =>
        (k, { s.gatherStacks k g with pre := .evicted g.haltedAt false 0 })
      { s.dropReturned .ring with groups := s.groups.filter fun (k, _) => !u.keys.contains k, saved := s.saved ++ out }

/-- A team's frame read back: local store, extension, pool state and stream registers (R336, R416). -/
def State.readTeam (s : State) (part : Nat) (secure : Bool) (pasid save serial : Nat) (t : Team) : Except XErr State := do
  let (bs, cost) ← s.loadBytes part secure pasid (teamFrameAt save (t.groups.headD 0)) 0x108100
  let s := (s.setBytes (localAddr serial 0) (bs.take t.lstore)).charge part pasid cost
  let at_ := fun k => fieldOf bs k 4
  let ext := if t.extHolder.isSome then t.ext
    else compact ((List.range 32).flatMap fun i => (List.range t.extRegs).map fun r =>
      backReg t.ext (i * 192 + r) (at_ (0x100000 + 128 * r + 4 * i)))
  let s := s.modTeam serial fun t => { t with ext := ext, pf := at_ 0x106000, pn := at_ 0x106004, pbusy := at_ 0x106008 }
  return s.mapGroups fun _ g =>
    if g.team == some serial && g.kind == .team then
      { g with sregs := g.sregs.mapIdx fun k _ =>
          let a := 0x106100 + 0x100 * g.gidx + 32 * k
          let off := at_ a % 2 ^ 20
          let pat := memBytes s.mem (localAddr serial off) 32
          let n := patternOf off pat
          if bit (at_ a) 31 then { n with bound := true, pos := at_ (a + 4), f0 := at_ (a + 8), f1 := at_ (a + 12), f2 := at_ (a + 16) }
          else SReg.free }
    else g

/-- A unit's frames read back, its groups in their slots again. (DEDUCED: log entry 27) -/
def State.readUnit (s : State) (ck pasid : Nat) (u : Unit_) (keep : Bool) : Except XErr State := do
  let part := partOfCore ck
  let save ← match (tget s.ctxs (ctxKey part pasid) Ctx.new).save with
    | none => .error (.flt 0x01 0)
    | some a => Except.ok a
  let secure := s.coreSecure ck
  let s ← u.keys.foldlM (fun s k => match s.loadBytes part secure pasid (groupFrameAt save k) 0x10000 with
    | .error e => .error e
    | .ok (bs, cost) =>
      let mine := fun (x : Nat × Group) => x.1 == k && u.keys.contains k && (match x.2.pre with
        | .evicted _ b _ => b
        | _ => false)
      match s.saved.find? mine with
      | none => Except.ok s
      | some (_, g) =>
        let back := { (g.fromFrame bs keep) with pre := .no, spins := if s.normalMode part then [] else g.spins }
        Except.ok ({ s with saved := s.saved.filter fun x => !mine x }.spreadStacks k g |>.setGroup k back |>.charge part pasid cost)) s
  match u.team.bind fun t => (tget? t s.teams).map fun x => (t, x) with
  | none => return s
  | some (n, t) => s.readTeam part secure pasid save n t

/-- The main registers and local-store units that a unit needs to come back. -/
def State.unitNeed (s : State) (u : Unit_) : Need :=
  let gs := s.saved.filter fun (k, _) => u.keys.contains k
  let t? := u.team.bind fun t => tget? t s.teams
  ⟨u.keys.length, (gs.map fun (_, g) => if g.halt = .phase then 0 else 32 * g.base).foldl (· + ·) 0 + 32 * t?.elim 0 (·.extRegs),
   t?.elim 0 fun t => unitsOf t.lstore⟩

/-- Evicted units of a core whose contexts are scheduled again come back, once their own slots are free and the core has
room (R337). A frame that cannot be read ends the task as a frame that cannot be written does. (DEDUCED: log entry 27) -/
def State.restoreUnits (s : State) (ck : Nat) : State :=
  let mine := s.saved.filter fun (k, g) => coreOf k == ck && (match g.pre with
    | .evicted _ b _ => b
    | _ => false)
  (unitsIn mine).foldl (fun s u =>
    match s.saved.find? fun (k, _) => u.keys.contains k with
    | none => s
    | some (key, g) =>
      if u.keys.all (fun k => (s.group? k).isNone) && (s.unitNeed u).fits (s.freeRoom ck) then
        let (s, keep) := s.drawBool
        match s.readUnit ck g.pasid u keep with
        | .ok s => s.dropReturned .ring
        | .error e =>
          if e.asks then s.askFor .ring g.pasid e
          else s.taskFault key g ⟨e.code, Acc.r.bits, 0, 0, 0, engFlag⟩ (g.lane (lowLane g.live)).pc
      else s) s

/-! Time slices (R36, R335). -/

/-- The task that a core would dispatch next: the oldest of the highest priority (R144). -/
def headTask (q : List Task) : Option Task :=
  match q with
  | [] => none
  | t :: ts => some (ts.foldl (fun best t => if best.prio < t.prio then t else best) t)

/-- The head task of a core, when it belongs to another context and has no room (R335). -/
def State.starved (s : State) (ck pasid : Nat) : Option Task :=
  match headTask (s.coreSt ck).queue with
  | none => none
  | some t => if t.pasid != pasid && !(s.taskNeed (partOfCore ck) t).fits (s.freeRoom ck) then some t else none

/-- The context that has waited longest on a core, halted and not stopped. (DEDUCED: log entry 26) -/
def State.longestHalted (s : State) (ck pasid : Nat) : Option Nat :=
  let waiting := s.everyGroup.filter fun (k, g) => coreOf k == ck && g.pasid != pasid && g.pre != .no &&
    !(tget s.ctxs (ctxKey (partOfCore ck) g.pasid) Ctx.new).stopped
  match waiting with
  | [] => none
  | x :: xs => some ((xs.foldl (fun b y => if y.2.haltedAt < b.2.haltedAt then y else b) x).2.pasid)

/-- A context's slice has ended on a core: while a task of another context waits for room there, its groups are halted,
and the context that has waited longest is scheduled again; else a new slice begins. R335 lets a slice's end pre-empt in
normal mode alone: a deterministic partition begins a new slice (R36, R335). (DEDUCED: log entry 26) -/
def sliceExpiry (ck pasid : Nat) (s : State) : State :=
  let part := partOfCore ck
  let clear := fun (s : State) =>
    { s with ctxs := tmod (ctxKey part pasid) (fun c => { c with used := terase (vcoreOf ck) c.used }) s.ctxs }
  let c := tget s.ctxs (ctxKey part pasid) Ctx.new
  if tget c.used (vcoreOf ck) 0 < 1024 * c.slice then s
  else if (s.detOf part).isSome then clear s
  else match s.starved ck pasid, s.longestHalted ck pasid with
    | none, none => clear s
    | _, next =>
      let s := clear (s.haltContext ck pasid)
      match next with
      | none => s
      | some other => s.schedule ck other

/-- TIME_SLICE_EXPIRY. -/
def execTimeSliceExpiry (core pasid : Nat) (s : State) : Host.Outcome State Fault Refusal := runStep (sliceExpiry core pasid) s

/-- The unit that a core evicts next for its head task: the one halted longest of another context, with its engine
operations arrived (R336). -/
def State.evictable (s : State) (ck : Nat) : Option Unit_ :=
  match headTask (s.coreSt ck).queue with
  | none => none
  | some t =>
    if (s.taskNeed (partOfCore ck) t).fits (s.freeRoom ck) then none
    else
      let held := (s.coreGroups ck).filter fun (_, g) => g.pre != .no && g.pasid != t.pasid
      let us := (unitsIn held).filter fun u => !s.unitBusy u
      let age := fun (u : Unit_) => (u.keys.head?.bind s.group?).elim 0 Group.haltedAt
      match us with
      | [] => none
      | u :: us => some (us.foldl (fun b v => if age v < age b then v else b) u)

/-- A team leaves its core for the save area (R336). -/
def teamEviction (ck : Nat) (s : State) : State :=
  match s.evictable ck with
  | none => s
  | some u => s.evictUnit ck u

/-- TEAM_EVICTION. -/
def execTeamEviction (core : Nat) (s : State) : Host.Outcome State Fault Refusal := runStep (teamEviction core) s

/-- A core on which no group runs and no task of another context waits schedules its halted contexts again, the one that
has waited longest first (R337). -/
def State.reschedule (s : State) (ck : Nat) : State :=
  if ((s.coreGroups ck).any fun (_, g) => g.pre == .no) || (s.part? (partOfCore ck)).elim false (·.halted) then s
  else match s.longestHalted ck (2 ^ 32) with
    | none => s
    | some pasid => if (headTask (s.coreSt ck).queue).any fun t => t.pasid != pasid then s else s.schedule ck pasid

/-! Contexts stopped and resumed (R338). -/

/-- The cores of a partition, by key. -/
def Part.cores (p : Part) (part : Nat) : List Nat := (List.range (16 * p.quarters.length)).map (part * 256 + ·)

/-- The automata of a context, but for the root automaton, whose context is not its own. -/
def State.contextAutomata (s : State) (part pasid : Nat) : List (Nat × Nat × Automaton) :=
  (s.automata part).filter fun (_, k, a) => k != 0 && a.pasid == pasid

/-- A context stopped: its groups are halted, at once in normal mode and at the end of the round in deterministic mode,
and its running automata stop (R335, R338, R327). (DEDUCED: log entry 26) -/
def State.contextStop (s : State) (part pasid : Nat) : State :=
  let k := ctxKey part pasid
  let s := { s with ctxs := tset k { tget s.ctxs k Ctx.new with stopped := true } s.ctxs }
  let s := match s.part? part with
    | none => s
    | some p => if p.det.isSome then s else (p.cores part).foldl (fun s ck => s.haltContext ck pasid) s
  (s.contextAutomata part pasid).foldl (fun s (q, k, a) =>
    if a.stopped then s else s.stopAutomaton q k { a with ctxStop := true } 0 0 0) s

/-- A context scheduled again on every core of its partition. -/
def State.scheduleAll (s : State) (part pasid : Nat) : State :=
  match s.part? part with
  | none => s
  | some p => (p.cores part).foldl (fun s ck => s.schedule ck pasid) s

/-- A context resumed on every core, and its automata (R337, R338). In deterministic mode its groups go on with a round
(R327). (DEDUCED: log entry 26) -/
def State.contextResume (s : State) (part pasid : Nat) : State :=
  let k := ctxKey part pasid
  let s := { s with ctxs := tset k { tget s.ctxs k Ctx.new with stopped := false } s.ctxs }
  let s := if (s.detOf part).isSome then s else s.scheduleAll part pasid
  (s.contextAutomata part pasid).foldl (fun s (q, k, a) => if a.ctxStop then s.reviveAutomaton part q k a else s) s

end Sys2Proof.Machine
end

