-- ==== Sys2Proof/Machine/Syswr.lean ====
section
/-! DEFINITION. SYSWR: the group control register, and the operations of its blocks on contexts, translations, pages,
groups and queues (R145, R167, R182, R193, R333, R338, R425). -/

namespace Sys2Proof.Machine

/-- Whether the bytes from lo to below hi of a block are zero. -/
def zeroBytes (bs : List Byte) (lo hi : Nat) : Bool := ((bs.drop lo).take (hi - lo)).all (· == 0)

/-- A group control register written: SPINT is held within 4 to 256 (R167). -/
def Group.setGctl (g : Group) (v : Nat) : Group :=
  { g with spint := min 256 (max 4 (bits v 8 9)), sbchk := bit v 1, eif := bit v 0 }

/-- A context operation's block, whose first word is a PASID: reason 1 where the block breaks its row, and 2 where the
partition does not hold the context (R425). -/
def forContext (p : Part) (bs : List Byte) (ok : Bool) (act : Nat → State → State × Nat) (s : State) : State × Nat :=
  let pasid := fieldOf bs 0 4
  if !ok || decide (2 ^ 20 ≤ pasid) then (s, refusal 1)
  else if !p.pasids.contains pasid then (s, refusal 2)
  else act pasid s

/-- Context set (R172, R203, R336, R36). -/
def contextSet (part : Nat) (p : Part) (bs : List Byte) (s : State) : State × Nat :=
  let f := fieldOf bs 4 1
  let root := fieldOf bs 8 8
  let save := fieldOf bs 16 8
  let share := fieldOf bs 24 1
  let slice := fieldOf bs 28 4
  let ok := decide (f < 16) && zeroBytes bs 5 8 && zeroBytes bs 25 28 && zeroBytes bs 32 64 &&
    (!bit f 0 || (root % 4096 == 0 && decide (root < 2 ^ 56))) && (!bit f 1 || share != 0) &&
    (!bit f 2 || (save % 0x10000 == 0 && decide (save < 2 ^ 56))) && (!bit f 3 || slice != 0)
  forContext p bs ok (fun pasid s =>
    let k := ctxKey part pasid
    let c := tget s.ctxs k Ctx.new
    let c := { c with root := if bit f 0 then some root else c.root, share := if bit f 1 then share else c.share,
                      save := if bit f 2 then some save else c.save, slice := if bit f 3 then slice else c.slice }
    ({ s with ctxs := tset k c s.ctxs }, 0)) s

/-- Invalidate (R182). The issuing group's own regions are not covered: the whole buffer of the group drains before the
operation acts. -/
def invalidateOp (part key : Nat) (p : Part) (bs : List Byte) (s : State) : State × Nat :=
  let va := fieldOf bs 8 8
  let n := fieldOf bs 16 4
  let ok := zeroBytes bs 4 8 && zeroBytes bs 20 64 && va % 0x10000 == 0 && decide (va < 2 ^ 56) && decide (1 ≤ n) &&
    decide (n ≤ 16384)
  forContext p bs ok (fun pasid s =>
    (((s.drain key allLanes).flushWrites).invalidate part pasid (va / 0x10000) n (some key), 0)) s

/-! Migration (R193). -/

/-- The place of a guest-physical byte for the migration engine: in a range that permits the access, and through the
translation cache where the range says so (R43). -/
def State.guestPlace (s : State) (p : Part) (secure : Bool) (pasid a : Nat) (acc : Acc) : Except XErr Place :=
  match p.rangeAt a with
  | none => .error (.flt 0x05 a)
  | some (k, r) =>
    let ok := match acc with
      | .r => r.gr
      | _ => r.gw
    if !ok || (r.sec && !secure) then .error (.flt 0x02 0)
    else do
      let phys ← if r.host && r.ats then s.atsOf r pasid (r.phys a % 2 ^ 56) acc else .ok (r.phys a)
      return ⟨phys, r.key, none, some k⟩

/-- One sector copied with its poison (R193 step 3). -/
def State.copySector (s : State) (w : Waiter) (pasid : Nat) (src dst : Place) : State :=
  let bs := if src.key = 0 then memBytes s.mem src.phys 32 else s.plainSector src.key src.phys
  let p := if isHost src.phys then (s.returnedTo w (src.phys / 4096 * 4096)).getD false else s.poisonAt src.phys 32
  let s := s.writeNow (some pasid) dst.key dst.phys bs false
  if isHost dst.phys then s else if src.phys % 128 = 0 || p then s.setPoison dst.phys p else s

/-- One frame of n bytes copied from one guest-physical address to another, with its energy (R37). -/
def State.copyFrame (s : State) (w : Waiter) (part : Nat) (p : Part) (secure : Bool) (pasid src dst n : Nat) : Except XErr State :=
  (List.range (n / 32)).foldlM (fun s k => do
    let a ← s.guestPlace p secure pasid (src + 32 * k) .r
    let b ← s.guestPlace p secure pasid (dst + 32 * k) .w
    return (s.copySector w pasid a b).charge part pasid (memCost a.phys 32 + memCost b.phys 32)) s

/-- The frames that a migration copies: from, to and length (R175, R193). -/
def Migration.frames (m : Migration) : List (Nat × Nat × Nat) :=
  (bits m.lo 16 40 * 0x10000, m.data, 0x10000 * m.units) ::
    (if bits m.lo 0 6 < 3 then [] else [(bits m.hi 12 44 * 0x1000, m.side, 0x1000 * m.units)])

/-- Whether every byte of a migration's frames is within reach: the first stop otherwise. -/
def State.migrationReach (s : State) (p : Part) (m : Migration) : Except XErr Unit :=
  m.frames.forM fun (src, dst, n) => (List.range (n / 0x1000)).forM fun k => do
    let _ ← s.guestPlace p m.secure m.pasid (src + 0x1000 * k) .r
    let _ ← s.guestPlace p m.secure m.pasid (dst + 0x1000 * k) .w
    return ()

/-- The blocks of a migration's old frames that lie in host memory and have not returned. -/
def State.migrationNeeds (s : State) (p : Part) (m : Migration) : List Nat :=
  m.frames.flatMap fun (src, _, n) => (List.range (n / 0x1000)).filterMap fun k =>
    match s.guestPlace p m.secure m.pasid (src + 0x1000 * k) .r with
    | .error _ => none
    | .ok pl => if isHost pl.phys && (s.returnedTo (.mover m.serial) pl.phys).isNone then some pl.phys else none

/-- A leaf entry's halves written. -/
def State.putLeaf (s : State) (p : Part) (m : Migration) (lo hi : Nat) : Except XErr State := do
  let pl ← s.guestPlace p m.secure m.pasid m.entry .w
  return s.writeNow (some m.pasid) pl.key pl.phys (leBytes 8 lo ++ leBytes 8 hi) false

/-- The groups and the engine operations that wait with code 0x03 on a span of pages of a context are released (R193). -/
def State.releaseMigrated (s : State) (part pasid first count : Nat) : State :=
  let hit := fun (page : Nat) => decide (first ≤ page) && decide (page < first + count)
  let waits := fun (g : Group) => match g.halt with
    | .aborted ws => ws.any fun w => w.code == 0x03 && hit w.page
    | _ => false
  let stopped := fun (x : Option (Nat × Nat × Nat)) => x.any fun w => w.1 == 0x03 && hit w.2.1
  let ops := (s.bulks.filter fun (_, b) => b.part == part && b.pasid == pasid && stopped b.suspended).map (·.1) ++
    (s.colls.filter fun (_, c) => c.part == part && c.pasid == pasid && stopped c.suspended).map (·.1)
  let s := ops.foldl (fun s op => s.resumeOp part op) s
  (s.everyGroup.filter fun (k, g) => partOf k == part && g.pasid == pasid && waits g).foldl
    (fun s (k, _) => s.releaseGroup k) s

/-- The end of a migration: steps 2 to 6 (R193). What has left a core for the page is written, the frames are copied, the
leaf names the new ones, and the waiters are released. Where the partition's ranges no longer reach a frame, the old leaf
stands and the status is 3. -/
def migrationEnd (part : Nat) (m : Migration) (s : State) : State :=
  match s.part? part with
  | none => s
  | some p =>
    let s := s.flushWrites
    match s.migrationNeeds p m with
    | b :: bs => (b :: bs).foldl (fun s a => s.askHost (.mover m.serial) (some m.pasid) 0 0 a 4096) s
    | [] =>
      let moved := m.frames.foldlM (fun s (src, dst, n) => s.copyFrame (.mover m.serial) part p m.secure m.pasid src dst n) s
      let done := moved.bind fun s =>
        s.putLeaf p m (m.lo - bits m.lo 16 40 * 0x10000 + m.data) (m.hi - bits m.hi 12 44 * 0x1000 + m.side)
      let finish := fun (s : State) (v : Nat) =>
        (((s.modPart part fun p => { p with migs := p.migs.filter fun x => x.serial != m.serial }).dropReturned
          (.mover m.serial)).releaseMigrated part m.pasid m.vpage m.units).pay m.serial v
      match done with
      | .ok s => finish s 0
      | .error e =>
        if e.asks then s.askFor (.mover m.serial) m.pasid e
        else finish (match s.putLeaf p m m.lo m.hi with
          | .ok s => s
          | .error _ => s) (refusal 3)

/-- The start of a migration: MIG is set in the leaf and the page is invalidated (R193 step 1); the status comes at its
end. The group's whole buffer drains first (R182). (DEDUCED: log entry 37) -/
def migrate (part key : Nat) (p : Part) (secure : Bool) (pasid va data side : Nat) (s : State) :
    Except XErr (State × Option Nat) :=
  let vpage := va / 0x10000
  match s.leafOf (.group key) part p secure pasid vpage with
  | .error e => if e.asks then .error e else .ok (s, some (refusal 3))
  | .ok (level, entry, lo, hi) =>
    let units := leafUnits level
    let fmt := bits lo 0 6
    let sized := fun (a n : Nat) => a % n == 0 && decide (a < 2 ^ 56)
    let m : Migration := ⟨s.serial, pasid, secure, vpage, units, entry, lo, hi, data, side⟩
    if vpage % units != 0 || !sized data (0x10000 * units) ||
        !(if fmt < 3 then side == 0 else sized side (0x1000 * units)) then .ok (s, some (refusal 1))
    else if bit lo 10 then .ok (s, some (refusal 3))
    else match s.migrationReach p m with
      | .error e => if e.asks then .error e else .ok (s, some (refusal 3))
      | .ok _ =>
        match (s.drain key allLanes).putLeaf p m (lo + 2 ^ 10) hi with
        | .error e => if e.asks then .error e else .ok (s, some (refusal 3))
        | .ok t =>
          let t := t.invalidate part pasid vpage units (some key)
          .ok ({ t with serial := s.serial + 1 }.modPart part fun p => { p with migs := p.migs ++ [m] }, none)

/-- Migrate. -/
def migrateOp (part key : Nat) (p : Part) (bs : List Byte) (s : State) : Except XErr (State × Option Nat) :=
  let va := fieldOf bs 8 8
  let pasid := fieldOf bs 0 4
  if !(zeroBytes bs 4 8 && zeroBytes bs 32 64 && va % 0x10000 == 0 && decide (va < 2 ^ 56)) || decide (2 ^ 20 ≤ pasid) then
    .ok (s, some (refusal 1))
  else if !p.pasids.contains pasid then .ok (s, some (refusal 2))
  else migrate part key p (s.coreSecure (coreOf key)) pasid va (fieldOf bs 16 8) (fieldOf bs 24 8) s

/-- Context stop (R335, R338). -/
def contextStopOp (part : Nat) (p : Part) (bs : List Byte) (s : State) : State × Nat :=
  forContext p bs (zeroBytes bs 4 64) (fun pasid s => (s.contextStop part pasid, 0)) s

/-- Context resume (R337, R338). -/
def contextResumeOp (part : Nat) (p : Part) (bs : List Byte) (s : State) : State × Nat :=
  forContext p bs (zeroBytes bs 4 64) (fun pasid s => (s.contextResume part pasid, 0)) s

/-- The group operation: a group halted at BKPT continues, or its task ends as faulted (R333). -/
def groupOp (part : Nat) (bs : List Byte) (s : State) : State × Nat :=
  let v := fieldOf bs 0 4
  let slot := fieldOf bs 4 4
  let action := fieldOf bs 8 4
  let key := (part * 256 + v) * 48 + slot
  if 1 < action || !zeroBytes bs 12 64 then (s, refusal 1)
  else if 256 ≤ v ∨ 48 ≤ slot then (s, refusal 3)
  else match s.group? key with
    | none => (s, refusal 3)
    | some g =>
      match g.halt with
      | .bkpt pc lanes code val flags =>
        (if action = 0 then s.setGroup key { g with halt := .running }
         else s.taskFault key g ⟨0x25, 0, lanes, code, val, flags⟩ pc, 0)
      | _ => (s, refusal 3)

/-! Queues (R145). -/

/-- A queue that no creation has touched. -/
def Queue.new : Queue := ⟨false, 0, 0, 0, 0, 0, false, 0, 0, []⟩

/-- A queued task is discarded: it counts as ended and as faulted (R137, R143). -/
def State.dropTask (s : State) (part : Nat) (t : Task) : State :=
  let s := match t.kind, t.team with
    | .pool, some serial =>
      ((s.batchFree serial t.batch).modTeam serial fun u => { u with attached := u.attached - 1 }).teamRelease serial
    | _, _ => s
  ((s.gridEnd part t.grid).jobEnd part t.uid t.job true).ringExit part t.uid

/-- Queued tasks of a partition's cores that a test names taken from their queues. -/
def State.takeTasks (s : State) (part : Nat) (test : Task → Bool) : State × List Task :=
  let mine := s.cores.filter fun (k, _) => partOfCore k == part
  ((mine.foldl (fun s (k, _) => s.modCore k fun c => { c with queue := c.queue.filter fun t => !test t }) s),
   mine.flatMap fun (_, c) => c.queue.filter test)

/-- Queue create: the lowest index that is free (R145). (DEDUCED: log entry 36) -/
def queueCreate (part : Nat) (p : Part) (bs : List Byte) (s : State) : State × Nat :=
  let core := fieldOf bs 0 4
  let pasid := fieldOf bs 4 4
  let ring := fieldOf bs 8 8
  let n := fieldOf bs 16 4
  if !zeroBytes bs 20 64 || decide (2 ^ 20 ≤ pasid) || ring % 64 != 0 || decide (2 ^ 56 ≤ ring) ||
      !((List.range 17).any fun k => n == 2 ^ k) then (s, refusal 1)
  else if !p.pasids.contains pasid then (s, refusal 2)
  else if 16 * p.quarters.length ≤ core then (s, refusal 3)
  else match (List.range 1024).find? fun k => !(tget p.queues k Queue.new).created with
    | none => (s, refusal 4)
    | some k =>
      let q : Queue := ⟨true, (tget p.queues k Queue.new).gen, part * 256 + core, pasid, ring, n, false, 0, 0, []⟩
      (s.modPart part fun p => { p with queues := tset k q p.queues }, q.gen * 2 ^ 16 + k)

/-- The queue of a handle that an operation names. -/
def liveQueue (p : Part) (h : Nat) : Option (Nat × Queue) :=
  match resolveHandle p h with
  | .ok r => some r
  | .error 17 => (tget? (h % 2 ^ 10) p.queues).map fun q => (h % 2 ^ 10, q)
  | .error _ => none

/-- A queue destroyed: its generation advances, and its queued tasks are discarded (R145). -/
def State.queueEnd (s : State) (part k : Nat) (q : Queue) : State :=
  let h := q.gen * 2 ^ 16 + k
  let gone : Queue := { Queue.new with gen := (q.gen + 1) % 2 ^ 16 }
  let s := s.modPart part fun p => { p with queues := tset k gone p.queues }
  let (s, ts) := s.takeTasks part fun t => t.handle == some h
  (ts ++ q.tasks).foldl (fun s t => s.dropTask part t) s

/-- Queue destroy. -/
def queueDestroy (part : Nat) (p : Part) (bs : List Byte) (s : State) : State × Nat :=
  if !zeroBytes bs 4 64 then (s, refusal 1)
  else match liveQueue p (fieldOf bs 0 4) with
    | none => (s, refusal 3)
    | some (k, q) => (s.queueEnd part k q, 0)

/-- Queue swap: a swapped-out queue takes enqueues in its ring, and brought in it delivers them in order, when its core's
queue has room for all of them (R145, R425). (DEDUCED: log entry 36) -/
def queueSwap (part : Nat) (p : Part) (bs : List Byte) (s : State) : State × Nat :=
  let way := fieldOf bs 4 4
  if 1 < way || !zeroBytes bs 8 64 then (s, refusal 1)
  else match liveQueue p (fieldOf bs 0 4) with
    | none => (s, refusal 3)
    | some (k, q) =>
      let put := fun (s : State) (q : Queue) => s.modPart part fun p => { p with queues := tset k q p.queues }
      if way = 1 then (put s { q with swapped := true }, 0)
      else
        let deliver := q.tasks.foldlM (fun s t => if s.queueRoom q.core then some (s.enqueue q.core t) else none) s
        match deliver with
        | none => (s, refusal 3)
        | some s => (put s { q with swapped := false, head := (q.head + q.used) % max 1 q.size, used := 0, tasks := [] }, 0)

/-! The instruction. -/

/-- One lane's operation on a selector, with the operand B and the block that it names (R425): a migration answers at its end. (DEDUCED: log entry 37) -/
def sysOne (key sel b : Nat) (bs : List Byte) (s : State) : Except XErr (State × Option Nat) :=
  let part := partOf key
  let now := fun (r : State × Nat) => Except.ok (r.1, some r.2)
  match s.part? part with
  | none => now (s, refusal 3)
  | some p =>
    match sel with
    | 0x010 => now (s.modGroup key fun g => g.setGctl b, 0)
    | 0x100 => now (contextSet part p bs s)
    | 0x101 => now (invalidateOp part key p bs s)
    | 0x102 => migrateOp part key p bs s
    | 0x103 => now (contextStopOp part p bs s)
    | 0x104 => now (contextResumeOp part p bs s)
    | 0x105 => now (groupOp part bs s)
    | 0x106 => now (queueCreate part p bs s)
    | 0x107 => now (queueDestroy part p bs s)
    | 0x108 => now (queueSwap part p bs s)
    | _ => now (s, refusal 1)

/-- The use that a poisoned B shows: a value, or a block's offset (R400). -/
def syswrUse (sel : Nat) : Nat := if sel = 0x010 then 0 else 2

/-- SYSWR: selectors of the lanes as given, with the selector's operand where a register holds it. Each lane performs one
operation, in lane order; a context stop in deterministic mode holds its issuer until the boundary (R425, R327). (DEDUCED: log entry 37) -/
def syswrAct (a : Option Opnd) (sel : Group → Nat → Nat) (d b : Opnd) : Act :=
  committing
    (fun iss g s => do
      let bad := fun i => a.any (fun o => (read32 g i o).2) || (read32 g i b).2
      let use := match (lanesOf iss.lanes).find? bad with
        | none => 0
        | some i => syswrUse (sel g i)
      noPoison g iss ((a.toList.map fun o => (o, 1, 0)) ++ [(b, 1, use)])
      checkBlocks s iss g (((lanesOf iss.lanes).filter fun i => sel g i != 0x010).map fun i =>
        blockAt s iss.key g i b.code 64 64 64 (val32 b g i))
      loadRoom g
      return s)
    fun iss g s => do
      let t := g.team.getD 0
      let one := fun s i => sysOne iss.key (sel g i) (val32 b g i) (memBytes s.mem (localAddr t (val32 b g i)) 64) s
      let (s, vals, owed) ← issueLanes one (lanesOf iss.lanes) s
      let s := (s.dropReturned (.group iss.key)).modGroup iss.key fun g =>
        g.raiseOwed (laneSectors d 1 (vals.map fun (i, v) => (i, (v, false)))) owed
      if (s.detOf (partOf iss.key)).isSome && (lanesOf iss.lanes).any fun i => sel g i == 0x103 then
        .ok (s.modGroup iss.key Group.awaitBoundary)
      else .ok s

/-- SYSWR with a selector in a register, with selector 0x0010, or with one that no operation has. -/
def execSyswrGctl (d a b : Opnd) (s : State) : Host.Outcome State Fault Refusal :=
  match a with
  | .imm v => runAct (syswrAct none (fun _ _ => v.toNat) d b) s
  | a => runAct (syswrAct (some a) (fun g i => val32 a g i) d b) s

/-- SYSWR #0x0100. -/
def execSyswrContextSet (d b : Opnd) (s : State) : Host.Outcome State Fault Refusal :=
  runAct (syswrAct none (fun _ _ => 0x100) d b) s

/-- SYSWR #0x0101. -/
def execSyswrInvalidate (d b : Opnd) (s : State) : Host.Outcome State Fault Refusal :=
  runAct (syswrAct none (fun _ _ => 0x101) d b) s

/-- SYSWR #0x0102. -/
def execSyswrMigrate (d b : Opnd) (s : State) : Host.Outcome State Fault Refusal :=
  runAct (syswrAct none (fun _ _ => 0x102) d b) s

/-- SYSWR #0x0103. -/
def execSyswrContextStop (d b : Opnd) (s : State) : Host.Outcome State Fault Refusal :=
  runAct (syswrAct none (fun _ _ => 0x103) d b) s

/-- SYSWR #0x0104. -/
def execSyswrContextResume (d b : Opnd) (s : State) : Host.Outcome State Fault Refusal :=
  runAct (syswrAct none (fun _ _ => 0x104) d b) s

/-- SYSWR #0x0105. -/
def execSyswrGroup (d b : Opnd) (s : State) : Host.Outcome State Fault Refusal :=
  runAct (syswrAct none (fun _ _ => 0x105) d b) s

/-- SYSWR #0x0106. -/
def execSyswrQueueCreate (d b : Opnd) (s : State) : Host.Outcome State Fault Refusal :=
  runAct (syswrAct none (fun _ _ => 0x106) d b) s

/-- SYSWR #0x0107. -/
def execSyswrQueueDestroy (d b : Opnd) (s : State) : Host.Outcome State Fault Refusal :=
  runAct (syswrAct none (fun _ _ => 0x107) d b) s

/-- SYSWR #0x0108. -/
def execSyswrQueueSwap (d b : Opnd) (s : State) : Host.Outcome State Fault Refusal :=
  runAct (syswrAct none (fun _ _ => 0x108) d b) s

end Sys2Proof.Machine
end

