-- ==== Sys2Proof/Machine/Dispatching.lean ====
section
/-! DEFINITION. The task system: dispatch and cluster reservations at the cores, balancing, and launches (R132 to R137,
R141 to R146, R288, R316, R317, R320). -/

namespace Sys2Proof.Machine

/-! Dispatch (R141, R142, R144, R288). -/

/-- A lane at dispatch: it reads argument registers as they are given (R141). (DESIGN CHOICE: log entry 2) -/
def Lane.fresh (pc : Nat) (live : Bool) (x : Tbl Reg) : Lane :=
  ⟨live, pc, .none, .nothing, [], 0, false, x, [], [], [], Reg.zero, none, 0, 0⟩

/-- Argument words as w0 to w7 (R141). -/
def argRegs (args : List Reg) : Tbl Reg :=
  ((List.range 8).map fun k => (k, args.getD k Reg.zero)).filter fun x => x.2 != Reg.zero

/-- A group at dispatch (R141, R167, R293). The extension is held by none. (DESIGN CHOICE: log entry 2) -/
def Group.fresh (t : Task) (g : Grid) (team : Option Nat) (gidx uid lid clock : Nat) (pre : Pre) (lanes : List Lane) :
    Group :=
  { kind := t.kind, team := team, gidx := gidx, job := t.job, pasid := t.pasid, grid := t.grid, prio := t.prio
    logicalId := lid, uid := uid, made := 0, startPc := t.pc, base := g.base, ext := g.ext, holdsExt := false, age := clock
    lanes := lanes, w := argRegs t.args, axis := 0, sregs := List.replicate 8 SReg.free, record := none
    dispatchW := argRegs t.args, dispatchX := lanes.map (·.x), spint := 16, sbchk := false, eif := true, spins := []
    held := none, loads := 0, pend := [], tokwaits := 0, producers := [], buf := [], joins := [], halt := .running
    pre := pre, reuse := none, phaseNo := 0, phasePc := 0, phaseMasks := ⟨0, 0, 0, 0⟩, issued := 0, resident := 0
    yielded := false, skipped := 0, touched := false, progress := false, distant := false, walks := [], walked := false }

/-- A lane of a POOL task: the four words of its entry, with their poison; lanes past the count have exited (R288). -/
def State.poolLane (s : State) (t : Task) (a i : Nat) : Lane :=
  if i < t.count then
    Lane.fresh t.pc true (((List.range 4).map fun k =>
      let at_ := a + 16 * i + 4 * k
      (k, (⟨BitVec.ofNat 32 (s.readNat at_ 4), s.poisonAt at_ 4⟩ : Reg))).filter fun x => x.2 != Reg.zero)
  else Lane.fresh t.pc false []

/-- A team's record at dispatch: its pool empty, its extension free (R160, R285). (DESIGN CHOICE: log entry 2) -/
def Team.fresh (part ck : Nat) (t : Task) (g : Grid) (keys : List Nat) : Team :=
  { part := part, core := vcoreOf ck, pasid := t.pasid, grid := t.grid, job := t.job, prio := t.prio, idx := t.sub
    lstore := g.lstore, groups := keys, open_ := g.groups, attached := 0, ended := false, entry := g.entry
    extRegs := g.ext, ext := [], extHolder := none, extQueue := [], extNew := [], pf := 0, pn := 0, pbusy := 0
    pb := g.batches, poff := g.poff }

/-- A group's place in the ring bears its key from its dispatch on (R320). -/
def State.ringKey (s : State) (part uid key : Nat) : State :=
  s.modDet part fun d => { d with ring := d.ring.map fun m => if m.uid = uid then { m with key := some key } else m }

/-- A task leaves its core's queue and runs: the lowest free slots, in increasing group index (R142). A group of a stopped
context begins halted in place. -/
def State.dispatchTask (s : State) (ck : Nat) (t : Task) : State :=
  let part := partOfCore ck
  let s := s.modCore ck fun c => { c with queue := c.queue.erase t }
  match s.gridOf part t.grid with
  | none => s
  | some g =>
    let pre := if (tget s.ctxs (ctxKey part t.pasid) Ctx.new).stopped then Pre.inPlace s.clock false else .no
    let keyAt := fun (k : Nat) => ck * coreSlots + (s.freeSlots ck).getD k 0
    match t.kind with
    | .team =>
      let n := s.serial
      let keys := (List.range g.groups).map keyAt
      let lanes := List.replicate 32 (Lane.fresh t.pc true [])
      let s := { s with serial := n + 1, teams := tset n (Team.fresh part ck t g keys) s.teams }
      let s := s.modPart part fun p => { p with grids := tmod t.grid (fun g => { g with running := tset t.sub n g.running }) p.grids }
      keys.zipIdx.foldl (fun s (key, k) =>
        (s.setGroup key (Group.fresh t g (some n) k (t.uid + k) (t.lid + 32 * k) s.clock pre lanes)).ringKey part (t.uid + k) key) s
    | .spawn =>
      let lanes := List.replicate 32 (Lane.fresh t.pc true [])
      (s.setGroup (keyAt 0) (Group.fresh t g none 0 t.uid t.lid s.clock pre lanes)).ringKey part t.uid (keyAt 0)
    | .pool =>
      let a := localAddr (t.team.getD 0) (g.poff + 512 * t.batch)
      let lanes := (List.range 32).map (s.poolLane t a)
      (s.setGroup (keyAt 0) (Group.fresh t g t.team t.batch t.uid t.lid s.clock pre lanes)).ringKey part t.uid (keyAt 0)

/-- The teams of a grid's cluster. -/
def Grid.clusterSize (g : Grid) : Nat := max 1 (g.cw * g.ch)

/-- The priority of a grid's tasks, for a reservation. -/
def State.gridPrio (s : State) (part grid : Nat) : Nat := (s.gridOf part grid).elim 0 (·.prio)

/-- The task that a core would dispatch next: its head task, but none of the priority of a granted reservation's member or
lower (R144). -/
def State.nextTask (s : State) (ck : Nat) : Option Task :=
  let c := s.coreSt ck
  match headTask c.queue with
  | none => none
  | some t => if c.granted.any fun (grid, _) => decide (t.prio ≤ s.gridPrio (partOfCore ck) grid) then none else some t

/-- Whether a task starts only by its cluster's reservation. -/
def State.inCluster (s : State) (part : Nat) (t : Task) : Bool :=
  t.kind == .team && decide (1 < (s.gridOf part t.grid).elim 1 Grid.clusterSize)

/-- Whether a task has room on a core beside the reservations. -/
def State.hasRoom (s : State) (ck : Nat) (t : Task) : Bool := (s.taskNeed (partOfCore ck) t).fits (s.freeRoom ck)

/-- The task that a core can dispatch now by itself. -/
def State.dispatchable (s : State) (ck : Nat) : Option Task :=
  match s.nextTask ck with
  | none => none
  | some t => if !s.inCluster (partOfCore ck) t && s.hasRoom ck t then some t else none

/-- A core dispatches its head task when that has room. -/
def State.dispatchOne (s : State) (ck : Nat) : State :=
  match s.dispatchable ck with
  | none => s
  | some t => s.dispatchTask ck t

/-- TASK_DISPATCH; in deterministic mode dispatches take effect at boundaries alone. -/
def execTaskDispatch (core : Nat) (s : State) : Host.Outcome State Fault Refusal :=
  runStep (fun s => if s.normalMode (partOfCore core) then s.dispatchOne core else s) s

/-! Clusters (R144). -/

/-- The cores of a cluster, in rank order. -/
def Grid.clusterCores (g : Grid) (part cluster : Nat) : List Nat :=
  ((g.map.drop (cluster * g.clusterSize)).take g.clusterSize).map (part * 256 + ·)

/-- The member task of a cluster in a core's queue. -/
def State.memberTask (s : State) (ck grid cluster : Nat) : Option Task :=
  let k := (s.gridOf (partOfCore ck) grid).elim 1 Grid.clusterSize
  (s.coreSt ck).queue.find? fun t => t.kind == .team && t.grid == grid && t.sub / k == cluster

/-- The core that a reservation asks next: the lowest one that has not granted. -/
def nextAsked (cores granted : List Nat) : Option Nat :=
  (cores.filter fun c => !granted.contains c).foldl (fun b c => match b with
    | none => some c
    | some x => some (min x c)) none

/-- A reservation's room set aside at a core. -/
def State.grantAt (s : State) (ck grid cluster : Nat) : State :=
  s.modCore ck fun c => { c with granted := c.granted ++ [(grid, cluster)],
                                 requests := c.requests.filter (· != (grid, cluster)) }

/-- A request sent to a core. -/
def State.askCore (s : State) (ck grid cluster : Nat) : State :=
  s.modCore ck fun c => { c with requests := c.requests ++ [(grid, cluster)] }

/-- Rank 0's task with room for it, when its core would dispatch it next. -/
def State.reservable (s : State) (ck : Nat) : Option (Task × Grid) :=
  match s.nextTask ck with
  | none => none
  | some t =>
    match s.gridOf (partOfCore ck) t.grid with
    | none => none
    | some g => if s.inCluster (partOfCore ck) t && t.sub % g.clusterSize == 0 && s.hasRoom ck t then some (t, g) else none

/-- Rank 0's core reserves its own room, and asks the cluster's other cores one at a time, in increasing order. -/
def State.reserveRequest (s : State) (ck : Nat) : State :=
  match s.reservable ck with
  | none => s
  | some (t, g) =>
    let part := partOfCore ck
    let cluster := t.sub / g.clusterSize
    let next := nextAsked (g.clusterCores part cluster) [ck]
    let s := s.grantAt ck t.grid cluster
    let s := s.modPart part fun p => { p with reservations := p.reservations ++ [⟨t.grid, cluster, [ck], next⟩] }
    match next with
    | none => s
    | some c => s.askCore c t.grid cluster

/-- CLUSTER_RESERVE_REQUEST. -/
def execClusterReserveRequest (core : Nat) (s : State) : Host.Outcome State Fault Refusal :=
  runStep (fun s => if s.normalMode (partOfCore core) then s.reserveRequest core else s) s

/-- Whether a core may grant its oldest request: the member is the oldest waiting task of its priority there, and has
room. -/
def State.grantable (s : State) (ck : Nat) : Option (Nat × Nat × Task) :=
  match (s.coreSt ck).requests with
  | [] => none
  | (grid, cluster) :: _ =>
    match s.memberTask ck grid cluster with
    | none => none
    | some t =>
      let oldest := (s.coreSt ck).queue.find? fun u => u.prio == t.prio
      if oldest == some t && s.hasRoom ck t then some (grid, cluster, t) else none

/-- Every core has granted: the members are dispatched together, and the reservation ends. -/
def State.startCluster (s : State) (part : Nat) (r : Reservation) (cores : List Nat) : State :=
  let s := cores.foldl (fun s c => s.modCore c fun x => { x with granted := x.granted.filter (· != (r.grid, r.cluster)) }) s
  let s := cores.foldl (fun s c => match s.memberTask c r.grid r.cluster with
    | none => s
    | some t => s.dispatchTask c t) s
  s.modPart part fun p => { p with reservations := p.reservations.filter fun x => !(x.grid == r.grid && x.cluster == r.cluster) }

/-- A core grants its oldest request, when it can; the next core is asked, or the cluster starts. -/
def State.reserveGrant (s : State) (ck : Nat) : State :=
  let part := partOfCore ck
  match s.grantable ck, s.part? part with
  | some (grid, cluster, _), some p =>
    match p.reservations.find? fun r => r.grid == grid && r.cluster == cluster with
    | none => s.modCore ck fun c => { c with requests := c.requests.filter (· != (grid, cluster)) }
    | some r =>
      let s := s.grantAt ck grid cluster
      let cores := (s.gridOf part grid).elim [] fun g => g.clusterCores part cluster
      let granted := r.granted ++ [ck]
      match nextAsked cores granted with
      | none => s.startCluster part r cores
      | some c =>
        let r' : Reservation := { r with granted := granted, asked := some c }
        (s.modPart part fun p => { p with reservations := p.reservations.map fun x => if x == r then r' else x }).askCore c grid cluster
  | _, _ => s

/-- CLUSTER_RESERVE_GRANT. -/
def execClusterReserveGrant (core : Nat) (s : State) : Host.Outcome State Fault Refusal :=
  runStep (fun s => if s.normalMode (partOfCore core) then s.reserveGrant core else s) s

/-! Balancing (R146). -/

/-- Whether two virtual cores are mesh neighbours on one die. -/
def Part.neighbours (p : Part) (u v : Nat) : Bool :=
  let (x, y) := p.posOf u
  let (x', y') := p.posOf v
  dieOf (p.quarterOf u) == dieOf (p.quarterOf v) && (x - x') + (x' - x) + (y - y') + (y' - y) == 1

/-- Tasks moved from the young end of one core's queue to the end of another's, while there is room. -/
def State.moveTasks (s : State) (src dst : Nat) : Nat → State
  | 0 => s
  | n + 1 =>
    match (s.coreSt src).queue.reverse.find? (!·.pin) with
    | none => s
    | some t =>
      if s.queueRoom dst then
        ((s.modCore src fun c => { c with queue := (c.queue.reverse.erase t).reverse }).enqueue dst t).moveTasks src dst n
      else s

/-- One core's part of an exchange, with the depths as they were exchanged. -/
def State.balanceCore (s : State) (part : Nat) (p : Part) (depths : List Nat) (v : Nat) : State :=
  let depth := fun u => depths.getD u 0
  let lower := (List.range (16 * p.quarters.length)).filter fun u => p.neighbours v u && decide (depth u + p.push < depth v)
  match lower with
  | [] => s
  | u :: us =>
    let best := us.foldl (fun b w => if depth w < depth b then w else b) u
    s.moveTasks (part * 256 + v) (part * 256 + best) (min 16 ((depth v - depth best) / 2))

/-- An exchange of queue depths, every 1024 clocks in normal mode. -/
def balance (part : Nat) (s : State) : State :=
  match s.part? part with
  | none => s
  | some p =>
    if p.det.isSome || s.clock % 1024 != 0 then s
    else
      let vs := List.range (16 * p.quarters.length)
      let depths := vs.map fun v => (s.coreSt (part * 256 + v)).queue.length
      vs.foldl (fun s v => s.balanceCore part p depths v) s

/-- BALANCE_EXCHANGE. -/
def execBalanceExchange (part : Nat) (s : State) : Host.Outcome State Fault Refusal := runStep (balance part) s

/-! Launches (R132 to R137). -/

/-- A launch template's fields (R132). -/
structure Template where
  entry : Nat
  map : Nat
  groups : Nat
  teams : Nat
  arg : Bool
  aidx : Nat
  cw : Nat
  ch : Nat
  base : Nat
  ext : Nat
  cls : Nat
  prio : Nat
  lstore : Nat
  batches : Nat
  poff : Nat
  pchk : Bool
  pasid : Nat
deriving DecidableEq, Repr

/-- The fields of a template's bytes. -/
def templateOf (bs : List Byte) : Template :=
  let b := fun k => fieldOf bs k 1
  let pool := fieldOf bs 28 4
  let tail := fieldOf bs 32 4
  { entry := fieldOf bs 0 8, map := fieldOf bs 8 8, groups := b 17, teams := fieldOf bs 18 2, arg := bit (b 20) 7
    aidx := bits (b 20) 0 3, cw := bits (b 21) 4 4, ch := bits (b 21) 0 4, base := bits (b 22) 4 4, ext := bits (b 22) 0 2
    cls := bits (b 23) 4 4, prio := bits (b 23) 0 3, lstore := fieldOf bs 24 4, batches := bits pool 24 5
    poff := bits pool 0 20, pchk := bit tail 31, pasid := bits tail 0 20 }

/-- Whether a template keeps R132: version, zero fields and ranges. -/
def templateOk (bs : List Byte) : Bool :=
  let t := templateOf bs
  let b := fun k => fieldOf bs k 1
  let pool := fieldOf bs 28 4
  decide (t.entry < 2 ^ 56) && t.entry % 4 == 0 && decide (t.map < 2 ^ 56) && t.map % 4 == 0 && b 16 == 1 &&
  decide (1 ≤ t.groups) && decide (t.groups ≤ 32) && (if t.arg then t.teams == 0 else decide (1 ≤ t.teams)) &&
  bits (b 20) 3 4 == 0 && decide (1 ≤ t.cw) && decide (t.cw ≤ 8) && decide (1 ≤ t.ch) && decide (t.ch ≤ 8) &&
  decide (t.cw * t.ch ≤ 12) && decide (1 ≤ t.base) && decide (t.base ≤ 8) && bits (b 22) 2 2 == 0 && !bit (b 23) 3 &&
  t.lstore % 128 == 0 && decide (t.lstore ≤ 1048576) && bits pool 29 3 == 0 && decide (t.batches ≤ 16) &&
  bits pool 20 4 == 0 && t.poff % 16 == 0 && bits (fieldOf bs 32 4) 20 11 == 0 && zeroBytes bs 36 256

/-- A test of a launch, refused with a reason and a team index. -/
def admitIf (ok : Bool) (reason team : Nat) : Except (Nat × Nat) Unit := if ok then .ok () else .error (reason, team)

/-- The team index of a refusal that names no team (R136). -/
def noTeam : Nat := 0xFFFFFFFF

/-- A test of every team of a launch, refused with a reason and the first team that fails it. -/
def admitAll (n : Nat) (ok : Nat → Bool) (reason : Nat) : Except (Nat × Nat) Unit :=
  match (List.range n).find? fun j => !ok j with
  | none => .ok ()
  | some j => .error (reason, j)

/-- The checks of a launch in order (R134, R72): the template's fields, its team count, and its placement map. (DEDUCED: log entry 36) -/
def checkLaunch (s : State) (part : Nat) (p : Part) (l : Launch) : Except (Nat × Nat) (Template × Nat × List Nat) := do
  let secure := s.secureQuarter l.quarter
  admitIf (!l.bad) 1 noTeam
  admitIf (l.template % 256 == 0) 2 noTeam
  let bs ← match s.ctxRead (.launcher part) part secure l.pasid l.template 256 with
    | .error _ => Except.error (1, noTeam)
    | .ok bs => .ok bs
  admitIf (templateOk bs) 2 noTeam
  let t := templateOf bs
  let r := l.args.getD t.aidx Reg.zero
  let n := if t.arg then r.bits.toNat else t.teams
  let k := t.cw * t.ch
  admitIf (decide (1 ≤ n) && decide (n ≤ 65535) && !(t.arg && r.pois) && n % k == 0) 3 noTeam
  let ms ← match s.ctxRead (.launcher part) part secure l.pasid t.map (4 * n) with
    | .error _ => Except.error (4, noTeam)
    | .ok bs => .ok bs
  let vs := (List.range n).map fun j => fieldOf ms (4 * j) 4
  let at_ := fun j => vs.getD j 0
  admitAll n (fun j => decide (at_ j < 16 * p.quarters.length)) 5
  admitAll n (fun j =>
    let o := at_ (j / k * k)
    let (x, y) := p.posOf o
    let i := j % k
    p.posOf (at_ j) == (x + i % t.cw, y + i / t.cw) && dieOf (p.quarterOf (at_ j)) == dieOf (p.quarterOf o)) 6
  admitIf (decide (t.batches * 512 + t.poff ≤ t.lstore)) 7 noTeam
  admitIf (!t.pchk || l.pasid == t.pasid) 8 noTeam
  admitIf (decide (t.groups * 32 * 8 * t.base + 32 * (64 * t.ext) ≤ coreRegs)) 9 noTeam
  return (t, n, vs)

/-- What a launch has to ask for before its template and its placement map can be read (R43, R72). -/
def launchAsks (s : State) (part : Nat) (l : Launch) : Option XErr :=
  let ask := fun (r : Except XErr (List Byte)) => match r with
    | .error e => if e.asks then some e else none
    | .ok _ => none
  let read := s.ctxRead (.launcher part) part (s.secureQuarter l.quarter) l.pasid
  if l.bad || l.template % 256 != 0 then none
  else match read l.template 256 with
    | .error e => ask (.error e)
    | .ok bs =>
      let t := templateOf bs
      let n := if t.arg then (l.args.getD t.aidx Reg.zero).bits.toNat else t.teams
      if templateOk bs && decide (n ≤ 65535) then ask (read t.map (4 * n)) else none

/-- The number that stands for no group, behind every group of the ring. -/
def noGroup : Nat := 2 ^ 64

/-- A launch refused: class 0x0003, and its job's count lowered (R136, R137); in deterministic mode both wait for step 5 of
the next boundary (R314). (DEDUCED: log entry 24) -/
def State.refuseLaunch (s : State) (part : Nat) (l : Launch) (reason team : Nat) : State :=
  let s := s.postDue part noGroup errStream 0x0003 [reason, l.job, lo32 l.template, hi32 l.template, team, l.pasid]
  match s.detOf part with
  | some _ => s.modDet part fun d => { d with jobEnds := d.jobEnds ++ [(noGroup, l.job, 3)] }
  | none => s.jobRefused part l.job

/-- The grid table's size (R135). -/
def gridTable : Nat := 1024

/-- The start task of a team. -/
def startTask (k : Nat) (g : Grid) (i : Nat) : Task :=
  ⟨.team, g.entry, g.args, g.job, g.prio, true, k, i, none, 0, 0, g.pasid, g.ordinal * 2 ^ 32 + i * 2 ^ 10,
    g.uid + i * g.groups, none⟩

/-- Start tasks of an admitted grid put at their cores, in team order, until a queue has no room (R135, R143). (DEDUCED: log entry 36) -/
def State.placeTeams (s : State) (part k : Nat) (g : Grid) : List Nat → State
  | [] => s.modPart part fun p => { p with placing := none }
  | i :: is =>
    let ck := part * 256 + g.map.getD i 0
    if s.queueRoom ck then (s.enqueue ck (startTask k g i)).placeTeams part k g is
    else s.modPart part fun p => { p with placing := some (k, i :: is) }

/-- A launch accepted: its grid, its job's count, its groups' places in the ring, and its start tasks (R135, R137, R317,
R320). -/
def State.acceptLaunch (s : State) (part k : Nat) (l : Launch) (t : Template) (n : Nat) (vs : List Nat) : State :=
  let ordinal := (s.job? part l.job).elim 0 (·.launches)
  let g : Grid :=
    { job := l.job, pasid := l.pasid, entry := t.entry, groups := t.groups, teams := n, cw := t.cw, ch := t.ch
      base := 8 * t.base, ext := 64 * t.ext, cls := t.cls, prio := t.prio, lstore := t.lstore, batches := t.batches
      poff := t.poff, args := l.args, map := vs, left := n, ordinal := ordinal % 2 ^ 16, uid := s.serial, running := [] }
  let s := { s with serial := s.serial + n * t.groups }
  let s := s.modJob part l.job fun j =>
    { j with count := j.count + n - 1, launches := j.launches + 1, cls := j.cls.orElse fun _ => some t.cls }
  let s := s.modDet part fun d =>
    { d with ring := d.ring ++ (List.range (n * t.groups)).map fun q => ⟨g.uid + q, g.pasid, none, none, false⟩ }
  (s.modPart part fun p => { p with grids := tset k g p.grids }).placeTeams part k g (List.range n)

/-- A launch taken up: refused, accepted into the lowest free grid entry, or none while it waits (R134, R135). (DEDUCED: log entry 36) -/
def State.launchOne (s : State) (part : Nat) (l : Launch) : Option State :=
  match s.part? part with
  | none => none
  | some p =>
    if p.halted then none
    else match checkLaunch s part p l with
      | .error (reason, team) => some ((s.dropReturned (.launcher part)).refuseLaunch part l reason team)
      | .ok (t, n, vs) =>
        match (List.range gridTable).find? fun k => !thas k p.grids with
        | none => none
        | some k => some ((s.dropReturned (.launcher part)).acceptLaunch part k l t n vs)

/-- Start tasks that waited for room are placed first; then the oldest request is taken up (R134, R135). -/
def launchStep (part : Nat) (s : State) : State :=
  match s.part? part with
  | none => s
  | some p =>
    match p.placing with
    | some (k, is) =>
      match tget? k p.grids with
      | none => s.modPart part fun p => { p with placing := none }
      | some g => s.placeTeams part k g is
    | none =>
      match p.launches with
      | [] => s
      | l :: rest =>
        match launchAsks s part l with
        | some e => s.askFor (.launcher part) l.pasid e
        | none =>
          match (s.modPart part fun p => { p with launches := rest }).launchOne part l with
          | none => s
          | some s => s

/-- LAUNCH_REQUEST; in deterministic mode launches are admitted at boundaries alone (R316). -/
def execLaunchRequest (part : Nat) (s : State) : Host.Outcome State Fault Refusal :=
  runStep (fun s => if s.normalMode part then launchStep part s else s) s

end Sys2Proof.Machine
end

