-- ==== Sys2Proof/Machine/Matrix.lean ====
section
/-! DEFINITION. The matrix engine: chunk_add, MMA, MMAB and its stages, and sampled recomputation (chapter 13, R237 to
R255). -/

namespace Sys2Proof.Machine

/-- What R237 fixes for an operand format: K of an MMA, A registers, chunk, B record's format codes and esz, and the
element bytes (0 for nibbles). -/
structure MmaShape where
  k : Nat
  aRegs : Nat
  chunk : Nat
  fmts : List Nat
  esz : Nat
  eb : Nat
  rate : Nat
  /-- Energy of a FLOP in hundredths of a picojoule (R37). -/
  cost : Nat

/-- The rows of R237. -/
def mmaShape : Ty → MmaShape
  | .f64 => ⟨4, 8, 4, [0], 3, 8, 1024, 620⟩
  | .e4m3 => ⟨16, 4, 16, [1], 0, 1, 32768, 20⟩
  | .e5m2 => ⟨16, 4, 16, [2], 0, 1, 32768, 20⟩
  | .e2m1 => ⟨32, 8, 16, [4, 5], 0, 0, 65536, 10⟩
  | _ => ⟨16, 8, 16, [0], 1, 2, 16384, 39⟩

/-- The accumulator's format. -/
def accFmt (ty : Ty) : Fmt := if ty = .f64 then Fmt.f64 else Fmt.f32

/-- The registers of an accumulator element. -/
def accRegs (ty : Ty) : Nat := if ty = .f64 then 2 else 1

/-- The exact value of an element's code, with its block's scale and extra bytes for e2m1; x says that code 1000 is
remapped (R239, R241). -/
def matVal (ty : Ty) (x : Bool) (code sc ex : Nat) : FVal :=
  match ty with
  | .f64 => Fmt.f64.value code
  | .e4m3 => Fmt.e4m3.value code
  | .e5m2 => Fmt.e5m2.value code
  | .e2m1 => blockValue (if x then .e2m1b32x else .e2m1b32) code sc ex
  | _ => Fmt.bf16.value code

/-- Whether a value is infinite with a sign. -/
def isInf (n : Bool) : FVal → Bool
  | .inf m => m == n
  | _ => false

/-- Negative zero. -/
def isMinusZero : FVal → Bool
  | .fin true 0 _ => true
  | _ => false

/-- chunk_add (R241): one rounding of the accumulator and the exact sum of the products. -/
def chunkAdd (f : Fmt) (acc : Nat) (ps : List (FVal × FVal)) : Nat :=
  let a := f.value acc
  let prods := ps.map fun (x, y) => x.mul y
  let all := a :: prods
  if all.any (·.isNan) || ps.any (fun (x, y) => x.isNan || y.isNan) || (all.any (isInf true) && all.any (isInf false)) then
    f.qnan
  else if all.any (isInf true) then f.round (.inf true) .rne false
  else if all.any (isInf false) then f.round (.inf false) .rne false
  else
    let v := all.foldl (fun t x => t.add .rne x) (.fin false 0 0)
    if v.isZero then f.pack (isMinusZero a && prods.all isMinusZero) 0 else f.round v .rne false

/-- A list cut into chunks of c. -/
def chunksOf {α : Type} (c : Nat) : Nat → List α → List (List α)
  | 0, _ => []
  | n + 1, l => l.take c :: chunksOf c n (l.drop c)

/-- A row of products added chunk by chunk in increasing K (R242). -/
def dotAdd (ty : Ty) (acc : Nat) (ps : List (FVal × FVal)) : Nat :=
  (chunksOf (mmaShape ty).chunk (ps.length / (mmaShape ty).chunk) ps).foldl (chunkAdd (accFmt ty)) acc

/-- The checker's sum: each product rounded to binary32, and each addition (R255). -/
def checkAdd (acc : Nat) (ps : List (FVal × FVal)) : Nat :=
  ps.foldl (fun a (x, y) =>
    let p := Fmt.f32.round (x.mul y) .rne false
    Fmt.f32.round ((Fmt.f32.value a).add .rne (Fmt.f32.value p)) .rne false) acc

/-! Sampled recomputation (R255). -/

/-- The payload of class 0x001A for one tile: pairs of results and checks with their row and column. Where several
elements share the largest deviation, or none is left to compare, the manual gives no position (and no deviation): free
values. (DESIGN CHOICE: log entry 21) -/
def samplePayload (free : Nat) (vcore pasid job ty t : Nat) (es : List (Nat × Nat × Nat × Nat)) : List Nat :=
  let ok := es.filter fun (_, _, v, c) => (Fmt.f32.value v).isFin && (Fmt.f32.value c).isFin
  let devs := ok.map fun (r, n, v, c) => (r, n, ((Fmt.f32.value v).add .rne (Fmt.f32.value c).negate).abs)
  let w := (Config.freeWord free).toNat
  match devs with
  | [] => [vcore, pasid, job, ty, w / 2 ^ 32, es.length, (w / 2 ^ 8 % 32) * 2 ^ 8 + w % 32, t]
  | (_, _, d0) :: _ =>
    let top := devs.foldl (fun m (_, _, d) => if m.lt d then d else m) d0
    let ties := devs.filter fun (_, _, d) => d.cmp top == some .eq
    let (r, n, _) := ties.getD (w % ties.length) (0, 0, top)
    [vcore, pasid, job, ty, Fmt.f32.round top .rup false, es.length - ok.length, r * 2 ^ 8 + n, t]

/-- The tiles that a core has completed. -/
def State.tilesOf (s : State) (ck : Nat) : Nat := ((s.part? (partOfCore ck)).elim [] (·.tiles)) |> fun t => tget t (vcoreOf ck) 0

/-- Whether the tile of a number is sampled. -/
def State.sampled (s : State) (ck t : Nat) : Bool :=
  let k := (s.part? (partOfCore ck)).elim 0 (·.sampling)
  k != 0 && t % 2 ^ k == 0

/-- Whether the checker of a core is busy. -/
def State.checkerBusy (s : State) (ck : Nat) : Bool := s.samples.any (·.1 == ck)

/-- A tile of narrow-format work completed: it takes the core's next number, and a sampled one goes to the checker. -/
def State.tileDone (s : State) (ck pasid job : Nat) (ty : Ty) (es : List (Nat × Nat × Nat × Nat)) : State :=
  let t := s.tilesOf ck + 1
  let s := s.modPart (partOfCore ck) fun p => { p with tiles := tset (vcoreOf ck) t p.tiles }
  if s.sampled ck t then
    { s with samples := s.samples ++ [(ck, samplePayload s.free (vcoreOf ck) pasid job ty.code t es)], free := s.free + 1 }
  else s

/-- The checker finishes a sampled tile and posts class 0x001A on the telemetry stream; the engine goes on. -/
def sampleCheck (ck : Nat) (s : State) : State :=
  match s.samples.find? (·.1 == ck) with
  | none => s
  | some x => (({ s with samples := s.samples.erase x }).sysPost (partOfCore ck) teleStream 0x001A x.2).wakeEngine ck

/-- SAMPLED_TILE_CHECK (R255). -/
def execSampledTileCheck (core : Nat) (s : State) : Host.Outcome State Fault Refusal := runStep (sampleCheck core) s

/-! MMA (R238 to R246). -/

/-- Element k of a lane's row of A, with the row's scale and extra bytes (R239). -/
def mmaA (ty : Ty) (x : Bool) (regs : List Reg) (k : Nat) : FVal :=
  let w := fun n => (regs.getD n Reg.zero).bits.toNat
  match ty with
  | .f64 => matVal ty x (pair64 (w (2 * k)) (w (2 * k + 1))) 0 0
  | .e4m3 | .e5m2 => matVal ty x (bits (w (k / 4)) (8 * (k % 4)) 8) 0 0
  | .e2m1 => matVal ty x (bits (w (k / 8)) (4 * (k % 8)) 4) (w 4 % 256) (w 4 / 256 % 256)
  | _ => matVal ty x (bits (w (k / 2)) (16 * (k % 2)) 16) 0 0

/-- Whether a register of a lane's row that is read is poisoned (R243, R239). -/
def mmaAPois (ty : Ty) (regs : List Reg) : Bool := (if ty = .e2m1 then regs.take 5 else regs).any (·.pois)

/-- The local-store offsets that element (k, n) of B reads, with where its nibble lies; none past an extent (R239). -/
def mmaBOffs (ty : Ty) (t : Tensor) (lbase k n : Nat) : Option (List Nat × Nat) :=
  let c0 := dimOf t.org 0 + k
  let c1 := dimOf t.org 1 + n
  let str := dimOf t.str 1
  if dimOf t.ext 0 ≤ c0 ∨ dimOf t.ext 1 ≤ c1 then none
  else if ty = .e2m1 then
    let e := c0 + c1 * str
    let side := lbase + dimOf t.ext 1 * str / 2 + 2 * (c1 * str / 32 + c0 / 32)
    some ([lbase + e / 2, side, side + 1], e % 2)
  else
    let eb := (mmaShape ty).eb
    some ((List.range eb).map fun q => lbase + (c0 + c1 * str) * eb + q, 0)

/-- An element of B from its bytes; zero past an extent. -/
def mmaB (s : State) (team : Nat) (ty : Ty) (x : Bool) (t : Tensor) (lbase k n : Nat) : FVal :=
  match mmaBOffs ty t lbase k n with
  | none => .fin false 0 0
  | some (os, nib) =>
    let bs := os.map fun o => (s.byte (localAddr team o)).toNat
    if ty = .e2m1 then matVal ty x (if nib = 0 then bs.getD 0 0 % 16 else bs.getD 0 0 / 16) (bs.getD 1 0) (bs.getD 2 0)
    else matVal ty x (leNat (os.map fun o => s.byte (localAddr team o))) 0 0

/-- Whether a record is fit for an MMA of a type in a team's window (R239). -/
def mmaRecordOk (ty : Ty) (bs : List Byte) (v lstore : Nat) : Bool :=
  let t := tensorOf bs
  let sh := mmaShape ty
  tensorOk bs && sh.fmts.contains t.fmt && t.esz == sh.esz && t.ndim == 2 && t.base / 2 ^ 20 == (0xFE * 2 ^ 28 + v) &&
  decide (t.base % 2 ^ 20 < lstore) && dimOf t.box 0 == sh.k && dimOf t.box 1 == 32 && t.swz == 0 && !t.sh &&
  t.mcast == 0 && t.resid == 0 && (ty != .e2m1 || (dimOf t.org 0 % 32 == 0 && dimOf t.str 1 % 32 == 0)) &&
  (List.range sh.k).all fun k => (List.range 32).all fun n =>
    ((mmaBOffs ty t (t.base % 2 ^ 20) k n).elim [] (·.1)).all fun o => decide (o < lstore)

/-- MMA (R240, R243, R244). Its B tile is read at issue and checked against the range locks as a load. -/
def mmaAct (ty : Ty) (z ru : Bool) (d a b : Opnd) : Act := fun iss g s => do
  let m := lowLane iss.lanes
  let ck := coreOf iss.key
  let sh := mmaShape ty
  let bv := read32 g m b
  require (!bv.2) (.poison (2 ^ m) b.code 2)
  let serial := g.team.getD 0
  let gen := localGeneric (vcoreOf ck) (bv.1 % 2 ^ 20)
  require g.team.isSome (.at_ 0x09 0 iss.lanes gen)
  let bad := Trap.at_ 0x0E 0 iss.lanes gen
  require (bv.1 / 2 ^ 20 == 0 && bv.1 % 64 == 0 && decide (bv.1 + 64 ≤ s.lstoreOf g)) bad
  require (!s.poisonAt (localAddr serial bv.1) 64) (.poison (2 ^ m) b.code 2)
  let bs := memBytes s.mem (localAddr serial bv.1) 64
  require (mmaRecordOk ty bs (vcoreOf ck) (s.lstoreOf g)) bad
  let t := tensorOf bs
  let lbase := t.base % 2 ^ 20
  let offs := (List.range 32).map fun n => (List.range sh.k).flatMap fun k => (mmaBOffs ty t lbase k n).elim [] (·.1)
  match (offs.flatMap id).find? fun o => s.locked ck (localAddr serial o) 1 false with
  | some o => .error (.at_ 0x0D Acc.r.bits iss.lanes (localGeneric (vcoreOf ck) o))
  | none =>
    require (!(ty != .f64 && s.sampled ck (s.tilesOf ck + 1) && s.checkerBusy ck)) (.stall .engine)
    let x := t.fmt = 4
    let cols := (List.range 32).map fun n => (List.range sh.k).map fun k => mmaB s serial ty x t lbase k n
    let colP := offs.map fun os => os.any fun o => s.poisonAt (localAddr serial o) 1
    let nr := accRegs ty
    let rows := (lanesOf iss.lanes).map fun i =>
      let regs := (List.range sh.aRegs).map (regOf g i a)
      let av := (List.range sh.k).map (mmaA ty x regs)
      let ap := mmaAPois ty regs
      (i, (List.range 32).map fun n =>
        let old := if z then (0, false) else joinRegs ((List.range nr).map fun q => regOf g i d (nr * n + q))
        let ps := List.zip av (cols.getD n [])
        (dotAdd ty old.1 ps, old.2 || ap || colP.getD n false, checkAdd old.1 ps))
    let g := rows.foldl (fun g (i, es) => es.zipIdx.foldl (fun g (e, n) =>
      (List.range nr).foldl (fun g q => setReg g i d (nr * n + q) ⟨BitVec.ofNat 32 (e.1 / 2 ^ (32 * q)), e.2.1⟩) g) g) g
    let held := (lanesOf iss.lanes).map fun i => (i, (List.range sh.aRegs).map (regOf g i a))
    let s := s.setGroup iss.key { g with reuse := if ru then some (a.code, held) else none, touched := true }
    let s := s.charge (partOf iss.key) g.pasid (2 * 32 * sh.k * (lanesOf iss.lanes).length * sh.cost +
      400 * ((offs.flatMap id).map (· / 32)).eraseDups.length)
    return if ty = .f64 then s
      else s.tileDone ck g.pasid g.job ty (rows.flatMap fun (i, es) => es.zipIdx.map fun (e, n) => (i, n, e.1, e.2.2))

/-- MMA. -/
def execMma (ty : Ty) (z ru : Bool) (d a b : Opnd) (s : State) : Host.Outcome State Fault Refusal :=
  runAct (mmaAct ty z ru d a b) s

/-! MMAB (R247 to R253). -/

/-- The fields of a parameter block (R248). -/
structure MmabBlock where
  m : Nat
  n : Nat
  k : Nat
  ty : Option Ty
  acc : Nat
  x : Bool
  zero : Bool
  nstage : Nat
  kc : Nat
  stage : Nat
  stride : Nat
  full : Nat
  empty : Nat
  gbase : Nat
  accum : Nat
  done : Nat

/-- The operand type of a block's code (R237). -/
def mmabTy (c : Nat) : Option Ty :=
  match c with
  | 5 => some .f64 | 6 => some .bf16x2 | 0xA => some .e4m3 | 0xB => some .e5m2 | 0xC => some .e2m1 | _ => none

/-- A block's fields from its bytes. -/
def mmabOf (bs : List Byte) : MmabBlock :=
  { m := fieldOf bs 0 2, n := fieldOf bs 2 2, k := fieldOf bs 4 4, ty := mmabTy (fieldOf bs 8 1), acc := fieldOf bs 9 1,
    x := bit (fieldOf bs 10 1) 1, zero := bit (fieldOf bs 10 1) 0, nstage := fieldOf bs 11 1, kc := fieldOf bs 12 2,
    stage := fieldOf bs 16 4, stride := fieldOf bs 20 4, full := fieldOf bs 24 4, empty := fieldOf bs 28 4,
    gbase := fieldOf bs 32 4, accum := fieldOf bs 36 4, done := fieldOf bs 40 4 }

/-- The bytes of an image of r rows of kc elements, sides included (R250's SA and SB). -/
def imageBytes (ty : Ty) (r kc : Nat) : Nat := if ty = .e2m1 then r * kc / 2 + r * kc / 16 else r * kc * (mmaShape ty).eb

/-- The offset of the B image in a stage. -/
def MmabBlock.bOff (b : MmabBlock) (ty : Ty) : Nat := (imageBytes ty b.m b.kc + 127) / 128 * 128

/-- The bytes of a stage: T (R250). -/
def MmabBlock.stageBytes (b : MmabBlock) (ty : Ty) : Nat := b.bOff ty + imageBytes ty b.n b.kc

/-- The bytes of the accumulator area. -/
def MmabBlock.accBytes (b : MmabBlock) (ty : Ty) : Nat := b.m * b.n * (4 * accRegs ty)

/-- The stages, the area and the setts as offset and size. -/
def MmabBlock.parts (b : MmabBlock) (ty : Ty) : List (Nat × Nat) :=
  (b.accum, b.accBytes ty) :: (b.done, 32) ::
  (List.range b.nstage).flatMap fun s => [(b.stage + s * b.stride, b.stageBytes ty), (b.full + 32 * s, 32), (b.empty + 32 * s, 32)]

/-- Whether ranges of a list are apart from one another. -/
def apart : List (Nat × Nat) → Bool
  | [] => true
  | (a, n) :: l => (l.all fun (b, k) => decide (a + n ≤ b) || decide (b + k ≤ a)) && apart l

/-- Whether a block keeps R248 and R249 for a team's lstore. -/
def mmabOk (bs : List Byte) (lstore : Nat) : Bool :=
  let b := mmabOf bs
  let side := fun v => decide (32 ≤ v) && decide (v ≤ 256) && v % 32 == 0
  match b.ty with
  | none => false
  | some ty =>
    let unit := if ty = .e2m1 then 32 else (mmaShape ty).chunk
    side b.m && side b.n && decide (1 ≤ b.kc) && decide (b.kc ≤ 256) && b.kc % unit == 0 && b.k % b.kc == 0 &&
    decide (b.kc ≤ b.k) && decide (b.k ≤ 2 ^ 24) && b.acc == (if ty = .f64 then 5 else 4) &&
    fieldOf bs 10 1 / 4 == 0 && decide (1 ≤ b.nstage) && decide (b.nstage ≤ 8) && fieldOf bs 14 2 == 0 &&
    b.stage % 128 == 0 && b.stride % 128 == 0 && decide (b.stageBytes ty ≤ b.stride) && b.full % 32 == 0 &&
    b.empty % 32 == 0 && b.accum % 128 == 0 && b.done % 32 == 0 && (bs.drop 44).all (· == 0) &&
    ((b.parts ty).all fun (a, n) => decide (a + n ≤ lstore)) && apart (b.parts ty)

/-- One lane's MMAB checked (R249). -/
def mmabReq (s : State) (iss : Issue) (g : Group) (a : Opnd) (i off : Nat) : Except (Nat × Nat × Nat) MmabOp := do
  let ck := coreOf iss.key
  let gen := localGeneric (vcoreOf ck) (off % 2 ^ 20)
  if g.team.isSome && off / 2 ^ 20 != 0 then .error (i, 0x0F, gen)
  else
    let bs ← teamBlock s iss.key g i a.code 0x0F off
    if !mmabOk bs (s.lstoreOf g) then .error (i, 0x0F, gen)
    else
      let op : MmabOp :=
        { part := partOf iss.key, core := ck, group := iss.key, team := g.team.getD 0, pc := iss.pc, pasid := g.pasid,
          lid := g.uid, job := g.job, block := bs, stage := 0, left := none, acc := [], pois := [], chk := [],
          finished := false, tile := 0, due := 0 }
      return op

/-- The MMABs of a core in issue order. -/
def State.mmabsOf (s : State) (ck : Nat) : List (Nat × MmabOp) := s.mmabs.filter fun (_, m) => m.core == ck

/-- One MMAB issued with its accumulator area as a destination range; none while the core holds 4 (R247, R251). -/
def State.mmabIssue (s : State) (m : MmabOp) : Option State :=
  let n := s.serial
  let b := mmabOf m.block
  if (s.mmabsOf m.core).length < 4 && s.lockRoom m.core 1 then
    let area := b.accBytes (b.ty.getD .bf16x2)
    some ({ s with serial := n + 1, mmabs := tset n m s.mmabs }.addLocks m.core
      [lockOf (localAddr m.team b.accum) (localAddr m.team (b.accum + area - 1)) true n])
  else none

/-- MMAB (R247): lanes are checked before any acts, then issue in order. -/
def mmabAct (a : Opnd) : Act :=
  let reqs := fun (iss : Issue) (g : Group) (s : State) => (lanesOf iss.lanes).map fun i => mmabReq s iss g a i (val32 a g i)
  committing
    (fun iss g s => do
      noPoison g iss [(a, 1, 2)]
      recordTrap ((reqs iss g s).filterMap fun r =>
        match r with
        | .error e => some e
        | .ok _ => none)
      return s)
    fun iss g s =>
      let rs := List.zip (lanesOf iss.lanes) (reqs iss g s)
      let one := fun (s : State) (i : Nat) =>
        match rs.find? (·.1 == i) with
        | some (_, .ok m) => s.mmabIssue m
        | _ => some s
      let (s, left) := inTurn one s (lanesOf iss.lanes)
      let s := s.modGroup iss.key fun g => { g with touched := true }
      if left.isEmpty then .ok s
      else .ok (s.modGroup iss.key fun g =>
        (g.eachLane (maskOfList left) fun _ l => { l with pc := iss.pc, must := .nothing }).stallAll .engine)

/-- MMAB. -/
def execMmab (a : Opnd) (s : State) : Host.Outcome State Fault Refusal := runAct (mmabAct a) s

/-- The bytes that element (r, k) of a stage image reads, as offsets in local store (R250, R231). -/
def stageOffs (ty : Ty) (base r rows kc k : Nat) : List Nat :=
  if ty = .e2m1 then
    let side := base + rows * kc / 2 + 2 * (r * (kc / 32) + k / 32)
    [base + r * kc / 2 + k / 2, side, side + 1]
  else (List.range (mmaShape ty).eb).map fun q => base + (r * kc + k) * (mmaShape ty).eb + q

/-- Element (r, k) of a stage image. -/
def stageElem (s : State) (team : Nat) (ty : Ty) (x : Bool) (base r rows kc k : Nat) : FVal :=
  let bs := (stageOffs ty base r rows kc k).map fun o => s.byte (localAddr team o)
  let at_ := fun n => (bs.getD n 0).toNat
  if ty = .e2m1 then matVal ty x (if k % 2 = 0 then at_ 0 % 16 else at_ 0 / 16) (at_ 1) (at_ 2) else matVal ty x (leNat bs) 0 0

/-- Whether a row of a stage image holds a poisoned byte. -/
def stagePois (s : State) (team : Nat) (ty : Ty) (base r rows kc : Nat) : Bool :=
  (List.range kc).any fun k => (stageOffs ty base r rows kc k).any fun o => s.poisonAt (localAddr team o) 1

/-- Whether the next stage of an MMAB may begin: its full sett's generation has advanced past it (R251). (DEDUCED: log entry 43) -/
def State.stageReady (s : State) (m : MmabOp) : Bool :=
  let b := mmabOf m.block
  let st := m.stage % max 1 b.nstage
  let j := m.stage / max 1 b.nstage
  let a := localAddr m.team (b.full + 32 * st)
  !s.poisonAt a 32 && decide (j < (s.settGen a + 2 ^ 32 - b.gbase) % 2 ^ 32)

/-- Whether the next stage's full sett is a lock (R253). -/
def State.stageMisused (s : State) (m : MmabOp) : Bool :=
  let b := mmabOf m.block
  let a := localAddr m.team (b.full + 32 * (m.stage % max 1 b.nstage))
  !s.poisonAt a 32 && s.settKind a == 1

/-- An MMAB is taken off its core. -/
def State.mmabGone (s : State) (op : Nat) (m : MmabOp) : State :=
  ({ s with mmabs := terase op s.mmabs }.unlock m.core op).wakeEngine m.core

/-- The accumulators before the first stage: zero, or the area's contents (R251). -/
def mmabStart (s : State) (m : MmabOp) (b : MmabBlock) (ty : Ty) : List (Nat × Bool × Nat) :=
  let n := 4 * accRegs ty
  (List.range (b.m * b.n)).map fun e =>
    let a := localAddr m.team (b.accum + e * n)
    if b.zero then (0, false, 0)
    else
      let v := s.readNat a n
      (v, s.poisonAt a n, v)

/-- One stage accumulated (R250, R251): products in increasing K for every element. -/
def mmabSums (s : State) (m : MmabOp) (b : MmabBlock) (ty : Ty) (old : List (Nat × Bool × Nat)) : List (Nat × Bool × Nat) :=
  let base := b.stage + (m.stage % b.nstage) * b.stride
  let bbase := base + b.bOff ty
  let ks := List.range b.kc
  let as := (List.range b.m).map fun i => (ks.map (stageElem s m.team ty b.x base i b.m b.kc), stagePois s m.team ty base i b.m b.kc)
  let bs := (List.range b.n).map fun n => (ks.map (stageElem s m.team ty b.x bbase n b.n b.kc), stagePois s m.team ty bbase n b.n b.kc)
  (as.flatMap fun a => bs.map fun c => (a, c)).zipIdx.map fun (((av, ap), (bv, bp)), e) =>
    let (v, p, c) := old.getD e (0, false, 0)
    let ps := List.zip av bv
    (dotAdd ty v ps, p || ap || bp, checkAdd c ps)

/-- The clocks of a stage at the engine's rate (R252). -/
def MmabBlock.stageClocks (b : MmabBlock) (ty : Ty) : Nat :=
  (2 * b.m * b.n * b.kc + (mmaShape ty).rate - 1) / (mmaShape ty).rate

/-- The reading of a stage begins, with the stage as a source range (R251, R205). -/
def State.mmabBegin (s : State) (op : Nat) (m : MmabOp) (b : MmabBlock) (ty : Ty) : State :=
  let base := b.stage + m.stage % b.nstage * b.stride
  { s with mmabs := tset op { m with left := some (b.stageClocks ty) } s.mmabs }.addLocks m.core
    [lockOf (localAddr m.team base) (localAddr m.team (base + b.stageBytes ty - 1)) false op]

/-- A stage is accumulated, its range released, and it arrives on its empty sett (R251). -/
def State.mmabEnd (s : State) (op : Nat) (m : MmabOp) (b : MmabBlock) (ty : Ty) : State :=
  let old := if m.stage = 0 then mmabStart s m b ty else List.zip m.acc (List.zip m.pois m.chk)
  let new := mmabSums s m b ty old
  let m' := { m with acc := new.map (·.1), pois := new.map (·.2.1), chk := new.map (·.2.2), stage := m.stage + 1, left := none,
                     finished := m.stage + 1 == b.k / b.kc, due := 0 }
  let first := if m.stage = 0 && !b.zero then b.accBytes ty else 0
  let s := { s with mmabs := tset op m' s.mmabs
                    locks := tput [] m.core ((tget s.locks m.core []).filter fun l => l.op != op || l.dst) s.locks }
  let s := s.charge m.part m.pasid
    (2 * b.m * b.n * b.kc * (mmaShape ty).cost + memCost (localAddr 0 0) (b.stageBytes ty) + memCost (localAddr 0 0) first)
  s.arrive (localAddr m.team (b.empty + 32 * (m.stage % b.nstage))) (b.stageBytes ty)

/-- An MMAB that finds a lock as its full sett is abandoned (R253). -/
def State.mmabMisuse (s : State) (op : Nat) (m : MmabOp) (b : MmabBlock) : State :=
  let gen := localGeneric (vcoreOf m.core) (b.full + 32 * (m.stage % b.nstage))
  (s.mmabGone op m).engineFault m.group m.pc ⟨0x0C, 0, 0, lo32 gen, hi32 gen, 0⟩

/-- The next stage of a core's oldest MMAB: a lock abandons it; a filled stage begins when the range-lock table has room
for it, and ends once its clocks have passed (R251 to R253). -/
def mmabStage (ck : Nat) (s : State) : State :=
  match s.mmabsOf ck with
  | [] => s
  | (op, m) :: _ =>
    let b := mmabOf m.block
    match b.ty with
    | none => s
    | some ty =>
      if m.finished then s
      else match m.left with
        | some n => if n = 0 then s.mmabEnd op m b ty else s
        | none =>
          if s.stageMisused m then s.mmabMisuse op m b
          else if s.stageReady m && s.lockRoom ck 1 then s.mmabBegin op m b ty
          else s

/-- A clock of the matrix engine that MMA leaves free takes the oldest MMAB's stage on (R252). -/
def State.mmabClock (s : State) : State :=
  let oldest := fun (op : Nat) (m : MmabOp) => (s.mmabsOf m.core).head?.elim false (·.1 == op)
  let free := fun (m : MmabOp) => decide ((tget s.cores m.core CoreSt.empty).mmaFree ≤ s.clock)
  { s with mmabs := s.mmabs.map fun (op, m) =>
      (op, if oldest op m && free m then { m with left := m.left.map (· - 1) } else m) }

/-- MMAB_STAGE; in deterministic mode a stage ends at its due boundary (R315). -/
def execMmabStage (core : Nat) (s : State) : Host.Outcome State Fault Refusal := runStep (fun s => if s.normalMode (partOfCore core) then mmabStage core s else s) s

/-- The tiles that a finished MMAB counts (R255). -/
def MmabBlock.tiles (b : MmabBlock) (ty : Ty) : Nat := if ty = .f64 then 0 else b.m / 32 * (b.n / 32)

/-- Tile k of a finished MMAB in row-block order, as the checker takes it (R255). -/
def State.mmabTile (s : State) (m : MmabOp) (b : MmabBlock) (ty : Ty) (k : Nat) : State :=
  let r := k / (b.n / 32)
  let c := k % (b.n / 32)
  s.tileDone m.core m.pasid m.job ty ((List.range 1024).map fun e =>
    let at_ := (32 * r + e / 32) * b.n + 32 * c + e % 32
    (e / 32, e % 32, m.acc.getD at_ 0, m.chk.getD at_ 0))

/-- Tiles completed from the k-th on, up to a sampled one that the busy checker cannot take yet; the number of those
completed (R255). -/
def State.mmabTiles (s : State) (m : MmabOp) (b : MmabBlock) (ty : Ty) : Nat → Nat → State × Nat
  | 0, k => (s, k)
  | n + 1, k =>
    if s.checkerBusy m.core && s.sampled m.core (s.tilesOf m.core + 1) then (s, k)
    else (s.mmabTile m b ty k).mmabTiles m b ty n (k + 1)

/-- A finished MMAB writes its accumulators, releases the area and arrives on its done sett (R251). -/
def State.mmabFinish (s : State) (op : Nat) (m : MmabOp) (b : MmabBlock) (ty : Ty) : State :=
  let n := 4 * accRegs ty
  let s := (List.zip m.acc m.pois).zipIdx.foldl (fun s ((v, p), e) =>
    s.store (localAddr m.team (b.accum + e * n)) (leBytes n v) p) s
  let s := s.charge m.part m.pasid (memCost (localAddr 0 0) (b.accBytes ty))
  ((s.mmabGone op m).arrive (localAddr m.team b.done) (b.accBytes ty)).lateExit m.group

/-- A finished MMAB completes its tiles, waiting for the checker before each sampled one but the first, and then finishes
(R251, R255). -/
def mmabDone (ck : Nat) (s : State) : State :=
  match s.mmabsOf ck with
  | [] => s
  | (op, m) :: _ =>
    let b := mmabOf m.block
    match b.ty with
    | none => s
    | some ty =>
      if !m.finished then s
      else
        let (s, k) := s.mmabTiles m b ty (b.tiles ty - m.tile) m.tile
        if k < b.tiles ty then { s with mmabs := tset op { m with tile := k } s.mmabs } else s.mmabFinish op m b ty

/-- A finished MMAB at its boundary, where the part waits for the checker after each sampled tile (R255, R314). -/
def mmabDoneAt (op : Nat) (m : MmabOp) (s : State) : State :=
  let b := mmabOf m.block
  match b.ty with
  | none => s
  | some ty =>
    ((List.range (b.tiles ty)).foldl (fun s k => sampleCheck m.core (s.mmabTile m b ty k)) s).mmabFinish op m b ty

/-- MMAB_DONE; in deterministic mode at its due boundary (R315). -/
def execMmabDone (core : Nat) (s : State) : Host.Outcome State Fault Refusal := runStep (fun s => if s.normalMode (partOfCore core) then mmabDone core s else s) s

end Sys2Proof.Machine
end

