-- ==== Sys2Proof/Machine/Epoch.lean ====
section
/-! DEFINITION. The boundary of an epoch in deterministic mode: engine acts that are due, deferred sett operations, the
token, barriers of clusters, job counts and events, admissions and dispatches, in that order (R314 to R316, R320, R322). -/

namespace Sys2Proof.Machine

/-! Order (R314, R317). -/

/-- A group's place in the ring; past its end where it has none. -/
def Det.place (d : Det) (uid : Nat) : Nat := d.ring.findIdx fun m => m.uid == uid

/-- An element put after those of no greater key. -/
def insertBy {α : Type} (key : α → Nat) (a : α) : List α → List α
  | [] => [a]
  | b :: l => if key a < key b then a :: b :: l else b :: insertBy key a l

/-- A list in the order of a key; elements of one key keep their order. -/
def orderBy {α : Type} (key : α → Nat) (l : List α) : List α := l.foldl (fun r a => insertBy key a r) []

/-- Whether the round that has ended is a boundary that has not been applied (R314). -/
def Det.atBoundary (d : Det) : Bool := d.turned.isEmpty && d.round % 256 == 0 && d.applied != some d.round

/-! Step 1: engine acts (R315). -/

/-- An engine's act that is due: a bulk copy or BQST, a collective's completion, or the next step of a core's oldest
MMAB. -/
inductive DueAct where
  | bulk (op : Nat) (b : BulkOp)
  | coll (op : Nat) (c : CollOp)
  | mmab (op : Nat) (m : MmabOp)

/-- The number of the issuing group. -/
def DueAct.uid : DueAct → Nat
  | .bulk _ b => b.lid
  | .coll _ c => c.lid
  | .mmab _ m => m.lid

/-- The act's place in the order of issue. -/
def DueAct.op : DueAct → Nat
  | .bulk n _ | .coll n _ | .mmab n _ => n

/-- Whether a context of a deterministic partition is halted, with the acts that it has pending (R327). -/
def State.held (s : State) (part pasid : Nat) : Bool := (tget s.ctxs (ctxKey part pasid) Ctx.new).haltRound.isSome

/-- Whether a group's number belongs to a halted context. -/
def State.heldUid (s : State) (part : Nat) (d : Det) (uid : Nat) : Bool :=
  d.ring.any fun m => m.uid == uid && s.held part m.pasid

/-- The context of an act's operation. -/
def DueAct.pasid : DueAct → Nat
  | .bulk _ b => b.pasid
  | .coll _ c => c.pasid
  | .mmab _ m => m.pasid

/-- The operations that come before a due act: earlier BQSTs on its residue vector, earlier MMABs of its core (R300,
R252). -/
def State.before (s : State) : DueAct → List Nat
  | .bulk op b => if b.kind = 2 then (s.bqstEarlier op b).map (·.1) else []
  | .mmab op m => ((s.mmabsOf m.core).filter fun x => decide (x.1 < op)).map (·.1)
  | .coll .. => []

/-- Acts in an order that lets each one follow those that it waits for; acts that wait for others than these are left out. -/
def State.afterOthers (s : State) : Nat → List Nat → List DueAct → List DueAct
  | 0, _, _ => []
  | n + 1, done, l =>
    match l.find? fun a => (s.before a).all done.contains with
    | none => []
    | some a => a :: s.afterOthers n (a.op :: done) (l.filter fun b => b.op != a.op)

/-- The acts of a partition that are due at a boundary, in order: an act behind others that it waits for comes after the
last of them, and one that waits for an act that is not due is not due either (R300, R314, R315). Acts of halted contexts
stay pending (R327). (DEDUCED: log entry 24) -/
def State.dueActs (s : State) (part : Nat) (d : Det) : List DueAct :=
  let bs := (s.bulks.filter fun (_, b) => b.part == part && decide (b.due ≤ d.round)).map fun (op, b) => DueAct.bulk op b
  let cs := (s.colls.filter fun (_, c) => c.part == part && decide (c.due ≤ d.round)).map fun (op, c) => DueAct.coll op c
  let ms := (s.mmabs.filter fun (_, m) => m.part == part && decide (0 < m.due) && decide (m.due ≤ d.round)).map
    fun (op, m) => DueAct.mmab op m
  let all := (bs ++ cs ++ ms).filter fun a => !s.held part a.pasid
  s.afterOthers all.length [] (orderBy (fun a => d.place a.uid) (orderBy DueAct.op all))

/-- Whether a due act can complete now: else the part waits at the boundary, and what the act lacks is asked for. -/
def State.dueReady (s : State) : DueAct → State × Bool
  | .bulk op b =>
    if b.suspended.isSome then (s, false)
    else
      let acc := if b.kind = 0 then Acc.r else .w
      match engTry s op b.part b.core b.pasid b.tensor.fmt acc (b.tensor.elems.flatMap b.tensor.elemAddrs) with
      | .waits s => (s, false)
      | .stop c page guest =>
        let s := s.bulkStop op b acc.bits c page guest
        (s, !thas op s.bulks)
      | .pages _ => (s, true)
  | .coll _ c => (s, c.result.isSome && c.suspended.isNone)
  | .mmab _ _ => (s, true)

/-- Whether an MMAB is the oldest of its core, as it was (R252). -/
def State.oldestMmab (s : State) (op : Nat) (m : MmabOp) : Bool := (s.mmabsOf m.core).head? == some (op, m)

/-- A due act takes effect. After an MMAB's last stage, its done arrival is due 64 rounds later. -/
def State.applyDue (s : State) : DueAct → State
  | .bulk op b => if b.kind = 2 then bqstComplete op s else copyComplete op s
  | .coll op c => match c.result with
    | none => s
    | some vals => s.collFinish op c vals
  | .mmab op m =>
    let b := mmabOf m.block
    if !s.oldestMmab op m then s
    else if m.finished then mmabDoneAt op m s
    else match b.ty with
      | none => s
      | some ty =>
        let s := s.mmabEnd op m b ty
        let next := fun (x : MmabOp) => ({ x with due := if x.finished then m.due + 64 else x.due } : MmabOp)
        { s with mmabs := tmod op next s.mmabs }

/-- An MMAB whose next stage's full sett has advanced takes its due round, behind another MMAB of its core too; the core's
oldest one begins to read the stage, or is abandoned where it finds a lock (R315, R251, R253). -/
def State.armMmab (s : State) (round op : Nat) (m : MmabOp) : State :=
  let b := mmabOf m.block
  match b.ty with
  | none => s
  | some ty =>
    let m' := if m.due = 0 && s.stageReady m then { m with due := round + 1 + 64 + b.stageClocks ty } else m
    if m.finished then s
    else if !s.oldestMmab op m then { s with mmabs := tset op m' s.mmabs }
    else if m.left.isNone && s.stageMisused m then s.mmabMisuse op m b
    else if m.left.isNone && m'.due != 0 && s.lockRoom m.core 1 then s.mmabBegin op m' b ty
    else { s with mmabs := tset op m' s.mmabs }

/-- Every MMAB of a partition, but for those of halted contexts. (DEDUCED: log entry 24) -/
def State.armAll (s : State) (part round : Nat) : State :=
  (s.mmabs.filter fun (_, m) => m.part == part && !s.held part m.pasid).foldl (fun s (op, m) =>
    if (tget? op s.mmabs) == some m then s.armMmab round op m else s) s

/-! Step 2: setts. -/

/-- The groups of a partition on their cores, in ring order. -/
def State.ringGroups (s : State) (part : Nat) (d : Det) : List (Nat × Group) :=
  orderBy (fun x => d.place x.2.uid) (s.groups.filter fun (k, _) => partOf k == part)

/-- The waits of a group on distant setts at a boundary: lanes whose sett has advanced leave with T, and then those whose
timeout has passed leave with F (R226, R314). -/
def State.farWaits (s : State) (key : Nat) : State :=
  let s := (s.swaitFault key true).swaitPoll key true
  match s.group? key with
  | none => s
  | some g => (g.timeouts key (s.settsHere key g true)).foldl (fun s t =>
      match t with
      | .event (.swaitTimeout k i) => swaitExpire k i s
      | _ => s) s

/-- Deferred operations on setts, and the waits on distant setts, group by group; then the issuers go on. What halted
contexts have pending stays so (R327). (DEDUCED: log entry 24) -/
def State.boundarySetts (s : State) (part : Nat) (d : Det) : State :=
  let stays := fun (x : DeferredSett) => s.heldUid part d x.uid
  let s := s.modDet part fun d => { d with setts := d.setts.filter stays }
  let s := (d.ring.filter fun m => !s.held part m.pasid).foldl (fun s m =>
    let mine := d.setts.filter (·.uid == m.uid)
    let s := (mine.map (·.pc)).eraseDups.foldl (fun s pc =>
      let ds := mine.filter (·.pc == pc)
      s.deferredInstr ((ds.head?).elim 0 (·.group)) m.uid pc ds) s
    match m.key with
    | some k => if (s.group? k).any (·.uid == m.uid) then s.farWaits k else s
    | none => s) s
  s.mapGroups fun k g => if partOf k = part && !s.held part g.pasid then { g with distant := false } else g

/-! Step 3: the token (R320). -/

/-- The first member of the ring from an index on, wrapping, that is dispatched and has not exited. -/
def Det.search (d : Det) (start : Nat) : Option Member :=
  ((d.ring.drop start) ++ d.ring.take start).find? fun m => m.key.isSome && !m.exited

/-- The group that has become the holder completes its TOKWAITs (R322). -/
def State.grantToken (s : State) (part uid : Nat) : State :=
  s.mapGroups fun k g =>
    if partOf k = part && g.uid = uid then
      ({ g with loads := g.loads - g.tokwaits, tokwaits := 0 } : Group).loadsDone
    else g

/-- A pass that has begun takes effect, unless the holder's context is halted (R320, R327). (DEDUCED: log entry 25) -/
def State.passToken (s : State) (part : Nat) : State :=
  match s.detOf part with
  | none => s
  | some d =>
    match d.holder, d.passing && !d.holder.any (s.heldUid part d) with
    | some h, true =>
      let at_ := d.place h
      match d.search (at_ + 1) with
      | some m => (s.modDet part fun d => { d with holder := some m.uid, passing := false, lastHolder := at_ }).grantToken part m.uid
      | none => s.modDet part fun d => { d with holder := none, passing := false, lastHolder := at_ }
    | _, _ => s

/-- A token without a holder goes to the first dispatched member, from the last holder's place on. -/
def State.assignToken (s : State) (part : Nat) : State :=
  match s.detOf part with
  | none => s
  | some d =>
    match d.holder, d.search d.lastHolder with
    | none, some m => (s.modDet part fun d => { d with holder := some m.uid }).grantToken part m.uid
    | _, _ => s

/-- Exited members leave the ring; a holder that has exited keeps its place until its pass has taken effect, and a member
of a halted context for as long as acts of its are pending. -/
def Det.purge (d : Det) (held : Nat → Bool) : Det :=
  let stays := fun (m : Member) => !m.exited || d.holder == some m.uid || held m.pasid
  { d with ring := d.ring.filter stays, lastHolder := ((d.ring.take d.lastHolder).filter stays).length }

/-! Steps 4 to 7. -/

/-- CBAR completions (R228). -/
def State.boundaryCbar (s : State) (part : Nat) : State :=
  let s := (s.teams.filter fun (_, t) => t.part == part).foldl (fun s (_, t) => s.cbarCheck t) s
  s.mapGroups fun k g => if partOf k = part && g.kind != .team && g.live != 0 && g.arrived .cbar then g.release .cbar else g

/-- One change of a job's count. -/
def State.jobChange (s : State) (part job code : Nat) : State :=
  match code with
  | 2 => s.modJob part job fun j => { j with count := j.count + 1 }
  | 3 => s.jobRefused part job
  | c => (s.modJob part job fun j => { j with count := j.count - 1, ended := j.ended + 1, faulted := j.faulted + c }).jobCheck part job

/-- An event that has waited. -/
def State.postNow (s : State) (part : Nat) (p : DeferredPost) : State :=
  if p.cls = 0x0008 then s.postRecord part p.payload else s.sysPost part p.stream p.cls p.payload

/-- Job-count changes and events, group by group; those of halted contexts stay pending (R327). (DEDUCED: log entry 24) -/
def State.boundaryJobs (s : State) (part : Nat) (d : Det) : State :=
  let stays := s.heldUid part d
  let s := s.modDet part fun d =>
    { d with posts := d.posts.filter (stays ·.group), jobEnds := d.jobEnds.filter (stays ·.1) }
  (List.range (d.ring.length + 1)).foldl (fun s k =>
    let s := (d.jobEnds.filter fun x => !stays x.1 && d.place x.1 == k).foldl (fun s x => s.jobChange part x.2.1 x.2.2) s
    (d.posts.filter fun x => !stays x.group && d.place x.group == k).foldl (fun s x => s.postNow part x) s) s

/-- Whether a running automaton has processed every event of a time or less, so that none can still come, and has released
its outputs (R316, R99). -/
def State.caughtUp (s : State) (part q k : Nat) (a : Automaton) (time : Nat) : Bool :=
  a.stopped || ((match s.safeTime part a with
    | none => false
    | some w => decide (time ≤ w)) && (match s.nextEvent part a with
    | none => true
    | some e => decide (time < e.1)) && !s.hasOutputs q k)

/-- Whether a request may be admitted (R316). -/
def State.admissible (s : State) (part time : Nat) : Bool :=
  (s.automata part).all fun (q, k, a) => s.caughtUp part q k a time

/-- Requests admitted in the order of their keys until one must wait. (DEDUCED: log entry 24) -/
def State.admitAll (s : State) (part : Nat) : List (Nat × Nat × Nat × Nat × Launch) → State
  | [] => s
  | x :: xs =>
    let blocked := ((s.part? part).bind (·.placing)).isSome
    if blocked || !s.admissible part x.1 then s
    else match (s.modDet part fun d => { d with admits := d.admits.erase x }).launchOne part x.2.2.2.2 with
      | none => s
      | some s => s.admitAll part xs

/-- Start tasks that waited for room, and then the waiting requests (R135, R316). -/
def State.boundaryAdmits (s : State) (part : Nat) (d : Det) : State :=
  let s := match (s.part? part).bind (·.placing) with
    | none => s
    | some _ => launchStep part s
  s.admitAll part (orderBy (·.1) (orderBy (·.2.1) (orderBy (·.2.2.1) (orderBy (·.2.2.2.1) d.admits))))

/-- One dispatch, reservation or move to or from the save area that is possible now; none where nothing is. -/
def State.dispatchStep (s : State) (part : Nat) (p : Part) : Option State :=
  let cks := p.cores part
  match cks.find? fun ck => (s.dispatchable ck).isSome with
  | some ck => some (s.dispatchOne ck)
  | none => match cks.find? fun ck => (s.grantable ck).isSome with
    | some ck => some (s.reserveGrant ck)
    | none => match cks.find? fun ck => (s.reservable ck).isSome with
      | some ck => some (s.reserveRequest ck)
      | none => match cks.find? fun ck => (s.evictable ck).isSome with
        | some ck => some (teamEviction ck s)
        | none => none

/-- Dispatches while any is possible, with a bound on their number. (DEDUCED: log entry 24) -/
def State.dispatchAll (s : State) (part : Nat) (p : Part) : Nat → State
  | 0 => s
  | n + 1 =>
    match s.dispatchStep part p with
    | none => s
    | some s => s.dispatchAll part p n

/-- The bound: each task is granted, asked for, and dispatched once, and each group evicted once. -/
def State.dispatchBound (s : State) : Nat :=
  4 * ((s.cores.map fun (_, c) => c.queue.length).foldl (· + ·) 0) + s.groups.length + 1

/-- Groups that waited for room in a queue issue their instruction again at their next turn (R143). -/
def State.wakeEnqueue (s : State) (part : Nat) : State :=
  s.mapGroups fun k g =>
    if partOf k = part then
      { g with lanes := g.lanes.map fun l => if l.wait == .enqueue then { l with wait := .none } else l }
    else g

/-- A boundary's acts, once every engine act that is due can complete (R314). (DEDUCED: log entry 24) -/
def State.boundary (s : State) (part : Nat) (d : Det) (acts : List DueAct) : State :=
  let s := acts.foldl State.applyDue s
  let s := s.boundarySetts part d
  let s := s.armAll part d.round
  let s := s.passToken part
  let s := s.boundaryCbar part
  let d := (s.detOf part).getD d
  let s := s.boundaryJobs part d
  let s := s.boundaryAdmits part d
  match s.part? part with
  | none => s
  | some p =>
    let s := (p.cores part).foldl State.restoreUnits s
    let s := s.dispatchAll part p s.dispatchBound
    let s := (s.assignToken part).wakeEnqueue part
    s.modDet part fun x => { x.purge (s.held part) with applied := some d.round, turned := [] }

/-- A boundary where one is due: the part waits there while an engine act due has not completed, or a sampled tile is
being checked (R314, R255). -/
def epochBoundary (part : Nat) (s : State) : State :=
  match s.detOf part with
  | none => s
  | some d =>
    if !d.atBoundary || s.samples.any (fun (k, _) => partOfCore k == part) then s
    else
      let acts := s.dueActs part d
      let (s, ok) := acts.foldl (fun (r : State × Bool) a =>
        let (s, here) := r.1.dueReady a
        (s, r.2 && here)) (s, true)
      if ok then s.boundary part d acts else s

/-- EPOCH_BOUNDARY. -/
def execEpochBoundary (part : Nat) (s : State) : Host.Outcome State Fault Refusal := runStep (epochBoundary part) s

end Sys2Proof.Machine
end

