-- ==== Sys2Proof/Machine/Scoreboard.lean ====
section
/-! DEFINITION. What an instruction needs before it issues: its unit, the registers that it reads and writes, its
latency, and the scoreboard's conflicts (R152, R159, R163, R164, R245). -/

namespace Sys2Proof.Machine

/-- The operands that an instruction reads and writes, with the number of their registers. -/
structure Foot where
  reads : List (Opnd × Nat)
  writes : List (Opnd × Nat)

/-- A destination of n registers and sources of their own numbers. -/
def footD (d : Opnd) (n : Nat) (srcs : List (Opnd × Nat)) : Foot := ⟨srcs, [(d, n)]⟩

/-- Sources alone. -/
def footS (srcs : List (Opnd × Nat)) : Foot := ⟨srcs, []⟩

/-- Every operand of a type's width. -/
def footT (ty : Ty) (d : Opnd) (srcs : List Opnd) : Foot := footD d ty.regs (srcs.map fun o => (o, ty.regs))

/-- The registers of an instruction's operands, as its entry gives their widths. -/
def footOf : Instr → Foot
  | .iadd ty _ d a b | .isub ty _ d a b | .imul ty _ d a b | .imulh ty _ d a b | .imin ty _ d a b | .imax ty _ d a b
  | .and ty d a b | .or ty d a b | .xor ty d a b | .andn ty d a b => footT ty d [a, b]
  | .shl ty d a b | .shr ty d a b | .sar ty d a b | .rol ty d a b | .bfx ty d a b => footD d ty.regs [(a, ty.regs), (b, 1)]
  | .iabs ty _ d a | .brev ty d a | .mov ty d a => footT ty d [a]
  | .popc ty d a | .clz ty d a | .ctz ty d a => footD d 1 [(a, ty.regs)]
  | .movi ty d _ => footT ty d []
  | .imad ty _ d a b c => footT ty d [a, b, c]
  | .imadw _ _ d a b c => footD d 2 [(a, 1), (b, 1), (c, 2)]
  | .lea _ _ d a b => footD d 2 [(a, 2), (b, 1)]
  | .bfi ty d a b c => footD d ty.regs [(a, ty.regs), (b, 1), (c, ty.regs)]
  | .prmt _ d a b c => footD d 1 [(a, 1), (b, 1), (c, 1)]
  | .ladd _ d a b pc | .lsub _ d a b pc => ⟨[(a, 1), (b, 1), (pc, 1)], [(d, 1), (pc, 1)]⟩
  | .sel ty d a b pc => footD d ty.regs [(a, ty.regs), (b, ty.regs), (pc, 1)]
  | .icmp ty _ _ pd a b | .fcmp ty _ _ pd a b => footD pd 1 [(a, ty.regs), (b, ty.regs)]
  | .shfl ty _ d a b | .readl ty d a b => footD d ty.regs [(a, ty.regs), (b, 1)]
  | .vote _ d pa | .pdef d pa => footD d 1 [(pa, 1)]
  | .redux ty _ d a => footT ty d [a]
  | .elect pd => footD pd 1 []
  | .pand _ _ pd pa pb | .por _ _ pd pa pb => footD pd 1 [(pa, 1), (pb, 1)]
  | .pnot _ pd pa | .ptest _ pd pa => footD pd 1 [(pa, 1)]
  | .pset pd a => footD pd 1 [(a, 1)]
  | .fadd ty _ _ d a b | .fsub ty _ _ d a b | .fmul ty _ _ d a b | .fdiv ty _ _ d a b => footT ty d [a, b]
  | .fmin ty _ d a b | .fmax ty _ d a b => footT ty d [a, b]
  | .ffma ty _ _ d a b c => footT ty d [a, b, c]
  | .fsqrt ty _ _ d a | .frcp ty _ _ d a | .frsq ty _ _ d a | .fexp2 ty _ _ d a | .flog2 ty _ _ d a
  | .frnd ty _ _ d a => footT ty d [a]
  | .fclass ty _ d a => footD d 1 [(a, ty.regs)]
  | .fscale ty _ _ d a b => footD d ty.regs [(a, ty.regs), (b, 1)]
  | .ivadd ty d a b | .ivsub ty d a b | .ivmul ty d a b | .ivdiv ty d a b | .ivmin ty d a b | .ivmax ty d a b
  | .ivhull ty d a b | .ivisect ty d a b => footT ty d [a, b]
  | .ivfma ty d a b c => footT ty d [a, b, c]
  | .ivsqr ty d a | .ivsqrt ty d a | .ivrcp ty d a | .ivexp2 ty d a | .ivlog2 ty d a | .ivabs ty d a
  | .ivneg ty d a => footT ty d [a]
  | .ivmake ty d p q => footD d ty.regs [(p, ty.point.regs), (q, ty.point.regs)]
  | .ivpt ty d p => footD d ty.regs [(p, ty.point.regs)]
  | .ivlo ty d a | .ivhi ty d a | .ivmid ty d a | .ivwid ty d a => footD d ty.point.regs [(a, ty.regs)]
  | .ivcmp ty _ pd a b | .ivsubs ty pd a b => footD pd 1 [(a, ty.regs), (b, ty.regs)]
  | .ivin ty pd p b => footD pd 1 [(p, ty.point.regs), (b, ty.regs)]
  | .ivemp ty pd a => footD pd 1 [(a, ty.regs)]
  | .ivbis ty d a b c => footD d ty.regs [(a, ty.regs), (b, 1), (c, 1)]
  | .cvt dty sty _ _ _ d a => footD d dty.regs [(a, sty.regs)]
  | .pack _ _ _ _ d a b c => footD d 1 [(a, 1), (b, 1), (c, 1)]
  | .unpk _ _ d a => footD d 2 [(a, 1)]
  | .qst k lg _ d base idx _ => ⟨[(d, 2 ^ lg), (base, 2), (idx, 1), (.e k, 1)], [(.e k, 1)]⟩
  | .qclr d => footD d 1 []
  | .qget d a | .qset d a => footD d 1 [(a, 1)]
  | .ld ty _ _ d base idx _ => footD d ty.regs [(base, 2), (idx, 1)]
  | .st ty _ _ d base idx _ => footS [(d, ty.regs), (base, 2), (idx, 1)]
  | .ldl ty _ _ d base idx _ | .ldd ty _ _ d base idx _ | .ldsp ty _ _ d base idx _ =>
    footD d ty.regs [(base, 1), (idx, 1)]
  | .stl ty _ _ d base idx _ | .std ty _ _ d base idx _ | .stsp ty _ _ d base idx _ =>
    footS [(d, ty.regs), (base, 1), (idx, 1)]
  | .ldiv ty _ d base idx _ => footD d ty.regs [(base, 2), (idx, 1)]
  | .stiv ty _ d base idx _ => footS [(d, ty.regs), (base, 2), (idx, 1)]
  | .atom ty op _ nr d base b _ =>
    let n := ty.regs
    ⟨[(base, 2), (b, n)] ++ (if op = .cas then [(d, n)] else []), if nr then [] else [(d, n)]⟩
  | .pref _ base idx _ => footS [(base, 2), (idx, 1)]
  | .bind s base n _ => footS [(s, 1), (base, 2), (n, 1)]
  | .unbind s | .acq _ s | .rel _ s => footS [(s, 1)]
  | .sinit _ a b | .sarr _ a b | .sexp a b => footS [(a, 1), (b, 1)]
  | .swait pd a b _ | .stry pd a b => footD pd 1 [(a, 1), (b, 1)]
  | .bcopyG2l d a b | .bcopyL2g d a b | .bqst d a b => footS [(d, 1), (a, 1), (b, 1)]
  | .mma ty z _ d a b =>
    let nd := 32 * accRegs ty
    ⟨[(a, if ty = .e2m1 then 5 else (mmaShape ty).aRegs), (b, 1)] ++ (if z then [] else [(d, nd)]), [(d, nd)]⟩
  | .mmab a | .coll a | .trap _ a | .bkpt _ a => footS [(a, 1)]
  | .sbind _ a => footS [(a, 1)]
  | .brx a b | .callx a b => footS [(a, 2), (b, 1)]
  | .join pd a b => footD pd 1 [(a, 1), (b, 1)]
  | .spawn _ _ d a b => footS [(d, 2), (a, 1), (b, 8)]
  | .evpost d a b => footD d 1 [(a, 1), (b, 1)]
  | .evld d a => footD d 16 [(a, 2)]
  | .evrel a => footS [(a, 2)]
  | .wmark a b => footS [(a, 2), (b, 1)]
  | .autld d a | .autctlStop d a | .autctlResume d a | .autctlRemove d a | .autctlOpen d a | .autctlClose d a =>
    footD d 1 [(a, 1)]
  | .autctlCkpt d a b => footD d 1 [(a, 1), (b, 2)]
  | .autctlCount d a => footD d 4 [(a, 1)]
  | .sysrd d a => footD d 1 [(a, 1)]
  | .syswrGctl d a b => footD d 1 [(a, 1), (b, 1)]
  | .syswrContextSet d b | .syswrInvalidate d b | .syswrMigrate d b | .syswrContextStop d b | .syswrContextResume d b
  | .syswrGroup d b | .syswrQueueCreate d b | .syswrQueueDestroy d b | .syswrQueueSwap d b => footD d 1 [(b, 1)]
  | .ccnt ty d | .rand ty d => footT ty d []
  | .psnt ty pd a => footD pd 1 [(a, ty.regs)]
  | .psntClr ty d a => footT ty d [a]
  | _ => ⟨[], []⟩

/-- The field codes of registers. -/
def fieldsOf (l : List (Opnd × Nat)) : List Nat := l.flatMap fun (o, n) => opRegs n o

/-- The opcode and the type code of an instruction; past the map for a step that has no word. -/
def opcType (i : Instr) : Nat × Nat :=
  match encFields i with
  | none => (0x400, 0)
  | some e => (e.opc, e.ty)

/-- Whether an instruction is of the lane network (R369). -/
def laneNetwork (opc : Nat) : Bool := decide (0x20 ≤ opc) && decide (opc ≤ 0x24)

/-- The units that are not replicated, by number (R152); none for the others. -/
def unitOf (i : Instr) : Option Nat :=
  let opc := (opcType i).1
  if laneNetwork opc then some 0
  else if opc = 0x188 then some 1
  else if opc = 0x28A ∨ opc = 0x28B then some 2
  else match opc / 128 with
    | 4 => some 1
    | 5 | 7 => some 3
    | 6 => some 4
    | _ => none

/-- The fixed latency of an instruction's results; 0 where the tables of R163 and R237 give none. -/
def latencyOf (i : Instr) : Nat :=
  let (opc, ty) := opcType i
  let wide := ty == 2 || ty == 3 || ty == 5 || ty == 8
  let by_ := fun (a b : Nat) => if wide then b else a
  match opc / 128 with
  | 0 => if laneNetwork opc then 6
         else if 0x28 ≤ opc then 2
         else if 2 ≤ opc ∧ opc ≤ 5 then by_ 6 8
         else 4
  | 1 => if 0x87 ≤ opc ∧ opc ≤ 0x8C then by_ 16 32 else by_ 4 8
  | 2 => if opc = 0x103 ∨ (0x106 ≤ opc ∧ opc ≤ 0x109) then by_ 32 64 else by_ 8 16
  | 3 => if opc = 0x188 then 8 else 4
  | 5 => if opc = 0x28A then (if ty = 5 then 40 else 24) else 0
  | 7 => if opc = 0x38A ∨ opc = 0x38E then 4 else 0
  | _ => 0

/-- The registers that an instruction writes, the latch among them (R162). -/
def writtenFields (i : Instr) : List Nat :=
  let ws := fieldsOf (footOf i).writes
  let opc := (opcType i).1
  if decide (opc < 512) && opc != 0x188 && !(footOf i).writes.isEmpty then ws ++ [0x800] else ws

/-- The registers that an instruction reads, its guard apart. -/
def readFields (i : Instr) : List Nat := fieldsOf (footOf i).reads

/-- The x registers of the blocks that a REGION or PHASE names (R350). -/
def maskRegs : Instr → List Nat
  | .region m | .phase m => ((List.range 32).filter fun b => bit m.x.toNat b).flatMap fun b => (List.range 8).map (8 * b + ·)
  | _ => []

/-- The field code of a guard predicate; p0 is read from no register (R281). -/
def guardField (h : Header) : List Nat := if h.gpred = 0 then [] else [0x280 + h.gpred]

/-! The register space (R159). -/

/-- What an access to a register meets: 0x15 outside the base and the declared extension, 0x16 in an extension that the
group does not hold. -/
def Group.regFault (g : Group) (r : Nat) : Option Nat :=
  if 0x100 ≤ r ∨ r < g.base then none
  else if 64 ≤ r ∧ r < 64 + g.ext then (if g.holdsExt then none else some 0x16)
  else some 0x15

/-- The fault of an instruction's registers, those that a mask names among them, the one that stands first in R329 (R159,
R350). -/
def Group.rangeFault (g : Group) (i : Instr) : Option Nat :=
  let bad := (readFields i ++ fieldsOf (footOf i).writes ++ maskRegs i).filterMap g.regFault
  if bad.contains 0x15 then some 0x15 else bad.head?

/-! Conflicts (R163, R164, R245). -/

/-- The number that marks the results of an MMA of a type. -/
def mmaTag : Instr → Nat
  | .mma ty _ _ _ _ _ => 1 + ty.code
  | _ => 0

/-- The group's previous MMA: the producers keep it until the next one (R245). -/
def Group.lastMma (g : Group) : Option Producer := (g.producers.filter fun p => p.tag != 0).getLast?

/-- Whether an MMA takes the result of the group's previous MMA as it is (R245). -/
def Group.chained (g : Group) (i : Instr) (p : Producer) : Bool :=
  match i with
  | .mma ty z _ d _ _ => !z && g.lastMma == some p && p.tag == mmaTag i && p.regs == opRegs (32 * accRegs ty) d
  | _ => false

/-- Whether a field code names a register that the lanes of a group share (R159). -/
def isWReg (r : Nat) : Bool := decide (0x100 ≤ r) && decide (r < 0x280)

/-- The lanes of a path that would read a fixed-latency result too early: their guard, and the operands of those that
execute. A result in a w register is every lane's. (DEDUCED: log entry 12) -/
def Group.early (g : Group) (clock : Nat) (h : Header) (i : Instr) (path lanes : Nat) : Nat :=
  g.producers.foldl (fun m p =>
    if p.until_ ≤ clock then m
    else
      let byGuard := if (guardField h).any p.regs.contains then path &&& p.lanes else 0
      let hit := if g.chained i p then [] else (readFields i).filter p.regs.contains
      let own := if hit.any isWReg then lanes else if hit.isEmpty then 0 else lanes &&& p.lanes
      m ||| byGuard ||| own) 0

/-- Whether a register of the group waits for a result that has not returned. (DEDUCED: log entry 12) -/
def Group.pendingReg (g : Group) (r : Nat) : Bool := g.pend.any fun p => p.sectors.any fun ws => ws.any (·.reg == r)

/-- The lanes of a path that would read or write a pending register, the latch among those written (R162, R164). (DEDUCED: log entry 12) -/
def Group.unwaited (g : Group) (h : Header) (i : Instr) (path lanes : Nat) : Nat :=
  (if (guardField h).any g.pendingReg then path else 0) |||
  (if (readFields i ++ writtenFields i).any g.pendingReg then lanes else 0)

/-- The lanes of a path whose guard value lies in the guard mask (R357). -/
def Group.guarded (g : Group) (h : Header) (path : Nat) : Nat :=
  maskOf fun i => bit path i && bit h.gmask (match ((g.lane i).pred h.gpred).v with
    | .T => 2 | .F => 1 | .U => 0)

/-- The clocks for which an MMA holds the engine (R237). -/
def mmaOccupancy (ty : Ty) : Nat := 2048 * (mmaShape ty).k / (mmaShape ty).rate

/-- Whether the path's instruction cannot issue in this clock: the scoreboard holds it, or the matrix engine is occupied
by an earlier MMA of the core. (DEDUCED: log entry 11) -/
def State.blocked (s : State) (key : Nat) (g : Group) (h : Header) (i : Instr) (path : Nat) : Bool :=
  let lanes := g.guarded h path
  let busy := match i with
    | .mma .. => decide (s.clock < (tget s.cores (coreOf key) CoreSt.empty).mmaFree)
    | _ => false
  busy || (!g.sbchk && (g.early s.clock h i path lanes != 0 || g.unwaited h i path lanes != 0))

end Sys2Proof.Machine
end

