-- ==== Sys2Proof/Machine/Issue.lean ====
section
/-! DEFINITION. A group's issue: how its lanes form paths, what is checked before an instruction acts, and what follows
it (R37, R88, R151, R152, R157 to R159, R163 to R165, R186, R356 to R358). -/

namespace Sys2Proof.Machine

/-! Paths (R152). -/

/-- Whether a group's lanes may issue at all: it is not halted, no pre-emption holds it, and it does not wait for the
boundary. -/
def Group.onCore (g : Group) : Bool := g.halt == .running && g.pre == .no && !g.distant

/-- The lanes of a group that are issuable. -/
def Group.issuable (g : Group) : Nat := maskOf fun i => (g.lane i).live && (g.lane i).wait == .none

/-- Whether the instruction at a PC carries the ~wl hint. -/
def State.waitsAt (s : State) (key : Nat) (g : Group) (pc : Nat) : Bool := (s.peek key g pc).any (·.1.wl)

/-- Lanes at an instruction with ~wl wait until the load counter reads 0 (R164). -/
def State.markWl (s : State) (key : Nat) : State :=
  match s.group? key with
  | none => s
  | some g =>
    if g.loads = 0 then s
    else
      let pcs := (((lanesOf g.issuable).map fun i => (g.lane i).pc).eraseDups).filter fun pc => s.waitsAt key g pc
      let mark := fun (_ : Nat) (l : Lane) => if pcs.contains l.pc then { l with wait := .loads } else l
      s.setGroup key (g.eachLane g.issuable mark)

/-- The lanes that form paths in a clock: demoted ones only when no other lane is issuable, and no lane that a stall count
holds (R158, R163). (DEDUCED: log entry 11) -/
def Group.eligible (g : Group) (clock : Nat) : Nat :=
  let m := g.issuable
  let plain := maskOf fun i => bit m i && !(g.lane i).demoted
  let use := if plain = 0 then m else plain
  maskOf fun i => bit use i && decide ((g.lane i).readyAt ≤ clock)

/-- The paths of a set of lanes: PC and lanes, most lanes first, ties to the lower PC. -/
def Group.paths (g : Group) (m : Nat) : List (Nat × Nat) :=
  let pcs := ((lanesOf m).map fun i => (g.lane i).pc).eraseDups
  let all := pcs.map fun pc => (pc, maskOf fun i => bit m i && (g.lane i).pc == pc)
  let before := fun (a b : Nat × Nat) => decide (maskCount b.2 < maskCount a.2) || (maskCount a.2 == maskCount b.2 && decide (a.1 < b.1))
  all.foldl (fun r a => r.takeWhile (fun b => before b a) ++ a :: r.dropWhile (fun b => before b a)) []

/-- The primary path, and the rest: a held path comes first. -/
def Group.primary (g : Group) (m : Nat) : Option ((Nat × Nat) × List (Nat × Nat)) :=
  let ps := g.paths m
  match ps.find? fun p => g.held == some p.1 with
  | some p => some (p, ps.filter (·.1 != p.1))
  | none => match ps with
    | [] => none
    | p :: rest => some (p, rest)

/-- The clock that a group's stall counts are held against: deterministic turns wait for them (R311). -/
def State.stallClock (s : State) (key : Nat) : Option Nat := if s.normalMode (partOf key) then some s.clock else none

/-- The lanes that form paths now. -/
def State.pathLanes (s : State) (key : Nat) (g : Group) : Nat :=
  match s.stallClock key with
  | some n => g.eligible n
  | none => (g.eachLane allLanes fun _ l => { l with readyAt := 0 }).eligible 0

/-- Whether the scoreboard lets a path issue; a word that cannot be fetched or is illegal issues, and faults. In
deterministic mode the core waits for every result before a turn (R311). (DEDUCED: log entry 11) -/
def State.pathReady (s : State) (key : Nat) (g : Group) (p : Nat × Nat) : Bool :=
  !s.normalMode (partOf key) || match s.peek key g p.1 with
    | none => true
    | some (h, i) => !s.blocked key g h i p.2

/-- Whether a group is ready: it has a path, and its primary path can issue (R165, R245). (DEDUCED: log entry 11) -/
def State.ready (s : State) (key : Nat) (g : Group) : Bool :=
  g.onCore && match g.primary (s.pathLanes key g) with
    | none => false
    | some (p, _) => s.pathReady key g p

/-- Whether a group has only demoted lanes to issue (R165). -/
def Group.onlyDemoted (g : Group) : Bool := (lanesOf g.issuable).all fun i => (g.lane i).demoted

/-- Whether two paths need one unit that is not replicated. -/
def State.sameUnit (s : State) (key : Nat) (g : Group) (p q : Nat) : Bool :=
  match s.peek key g p, s.peek key g q with
  | some (_, i), some (_, j) => (unitOf i).isSome && unitOf i == unitOf j
  | _, _ => false

/-- The paths of a cycle: the primary to issue now, and the state in which the secondary is held or due next. -/
def State.choosePaths (s : State) (key : Nat) : State × Option (Nat × Nat) :=
  let s := s.markWl key
  match s.group? key with
  | none => (s, none)
  | some g =>
    if !g.onCore then (s, none)
    else match g.primary (s.pathLanes key g) with
      | none => (s, none)
      | some (p, rest) =>
        let g := { g with progress := false, held := if g.held == some p.1 then none else g.held }
        match rest with
        | [] => (s.setGroup key g, some p)
        | q :: _ =>
          if s.sameUnit key g p.1 q.1 then (s.setGroup key { g with held := some q.1 }, some p)
          else ({ s.setGroup key g with agenda := .second key q.1 q.2 :: s.agenda }, some p)

/-- The lanes of a secondary path, or of a replay, that still stand at its PC. -/
def State.stillThere (s : State) (key pc lanes : Nat) : Nat :=
  match s.group? key with
  | none => 0
  | some g => if g.onCore then maskOf fun i => bit (g.issuable &&& lanes) i && (g.lane i).pc == pc else 0

/-! Before an instruction acts. -/

/-- What comes of a path that is to issue. -/
inductive Ready where
  /-- The cycle ends so. -/
  | done (s : State)
  /-- The instruction acts; lanes that 0x1A stops are named. -/
  | run (h : Header) (i : Instr) (s : State) (bad : Nat)

/-- The header of a word that is taken as illegal. -/
def plainHeader : Header := ⟨0, 7, 0, false, false⟩

/-- Table walks that an instruction waits for return next. -/
def State.dueWalks (s : State) (key : Nat) : State :=
  if (s.group? key).any fun g => !g.walks.isEmpty then { s with agenda := .event (.tlbWalkComplete key) :: s.agenda } else s

/-- Executing lanes whose next instruction must be a REGION after what they executed (R151, R186). -/
def Group.mustRegion (g : Group) (i : Instr) (lanes : Nat) (m : Must) : Nat :=
  match i with
  | .region _ => 0
  | _ => maskOf fun k => bit lanes k && (g.lane k).must == m

/-- The executing lanes whose return stack a call or a return would overrun (R150). -/
def Group.stackBad (g : Group) (i : Instr) (lanes : Nat) : Nat :=
  match i with
  | .call _ | .callx _ _ => maskOf fun k => bit lanes k && decide (32 ≤ (g.lane k).depth)
  | .ret => maskOf fun k => bit lanes k && decide ((g.lane k).depth = 0)
  | _ => 0

/-- The fault that an instruction meets before it acts, behind those of its registers, with its lanes: region-required,
stall-count violation or unwaited load, the first of them; faults of 0x18 to 0x1A stand before the latter two (R329,
R330). (DEDUCED: log entry 13) -/
def lateFault (s : State) (iss : Issue) (g : Group) (h : Header) (i : Instr) : Option (Nat × Nat) :=
  let commit := g.mustRegion i iss.lanes .afterCommit
  let normal := s.normalMode (partOf iss.key)
  let early := if normal then g.early s.clock h i iss.path iss.lanes else 0
  let loads := if normal then g.unwaited h i iss.path iss.lanes else 0
  if commit != 0 then some (0x0B, commit)
  else if g.mustRegion i iss.lanes .afterCall != 0 || g.stackBad i iss.lanes != 0 then none
  else if early != 0 then some (0x1B, early)
  else if loads != 0 then some (0x1C, loads)
  else none

/-- The faults that an instruction meets before it acts, in the order of R329 and R330, and the lanes that 0x1A stops: a
fault of its registers, then a poisoned guard, unless a fault that stands before it has been found. (DEDUCED: log entries
13 and 22) (DEDUCED: log entries 13 and 22) -/
def checks (iss : Issue) (g : Group) (h : Header) (i : Instr) : Except Trap Nat := do
  match (if iss.lanes = 0 then none else g.rangeFault i) with
  | some code => .error (.plain code iss.lanes)
  | none =>
    let pois := maskOf fun k => bit iss.path k && ((g.lane k).pred h.gpred).pois
    require (pois == 0) (match iss.late with
      | some (code, lanes) => .plain code lanes
      | none => .poison pois (0x280 + h.gpred) 1)
    return g.mustRegion i iss.lanes .afterCall

/-- A path at a PC: the fetch, the decoder, and the checks; then the instruction with its issuing path (R152, R341, R356).
A group of a halted partition halts at a REGION instead (R88). (DEDUCED: log entry 13) -/
def prepare (s : State) (key pc path : Nat) : Ready :=
  match s.group? key with
  | none => .done s
  | some g =>
    let iss : Issue := ⟨key, pc, path, path, none⟩
    match fetchWord s iss g with
    | .error t => .done ((takeTrap s iss g t).dueWalks key)
    | .ok bs =>
      match (if pc % 4 = 0 then (decode bs).toOption else none) with
      | none => .run plainHeader .illegalInstruction { s with cur := some iss } 0
      | some (h, i, _) =>
        let halts := (match i with
          | .region _ => true
          | _ => false) && (s.part? (partOf key)).elim false (·.halted)
        if halts then .done (s.setGroup key { g with pre := .inPlace s.clock true })
        else if h.wl && g.loads != 0 then
          .done (s.setGroup key (g.eachLane path fun _ l => { l with wait := .loads }))
        else if s.normalMode (partOf key) && s.blocked key g h i path then .done s
        else
          let iss := { iss with lanes := g.guarded h path }
          let iss := { iss with late := lateFault s iss g h i }
          match checks iss g h i with
          | .error t => .done (takeTrap s iss g t)
          | .ok bad => .run h i { s with cur := some { iss with lanes := maskDiff iss.lanes bad } } bad

/-! After an instruction has acted. -/

/-- Whether the path issues its instruction again: a lane of it waits at the instruction, or its region was discarded. (DEDUCED: log entry 16) -/
def Group.again (g : Group) (iss : Issue) : Bool :=
  g.halt != .running || (lanesOf iss.path).any fun i => match (g.lane i).wait with
    | .engine | .enqueue | .walk | .remote | .loads => true
    | _ => false

/-- The group of an issue in another state, if it is still the same one. -/
def State.sameGroup (s : State) (key : Nat) (old : Group) : Option Group :=
  match s.group? key with
  | none => none
  | some g => if g.uid = old.uid then some g else none

/-- The stall count, the hint ~y and the producer that a completed issue leaves in normal mode (R163, R165). -/
def Group.hold (g : Group) (clock : Nat) (iss : Issue) (h : Header) (i : Instr) : Group :=
  let g := g.eachLane iss.path fun _ l => { l with readyAt := clock + max 1 h.stall }
  let old := g.producers.filter fun p => decide (clock < p.until_) || g.lastMma == some p
  let lat := latencyOf i
  let wrote := match i with
    | .qst k .. => if bit g.axis (2 * k) then iss.lanes ||| 1 else iss.lanes
    | _ => iss.lanes
  { g with
    yielded := g.yielded || h.y
    producers := if lat = 0 || iss.lanes = 0 then old
      else old ++ [⟨wrote, writtenFields i, clock + lat, mmaTag i⟩] }

/-- What an issue does to the spin entries and to demotion: entries of lanes that wrote or acted are no longer clean, and
an act of a lane that is not demoted ends every demotion (R157, R158). (DEDUCED: log entry 53) -/
def Group.spun (old g : Group) (iss : Issue) : Group :=
  let g := old.noteWrites g
  let still := fun (r : SReg) => ({ r with pos := 0, f0 := 0, f1 := 0, f2 := 0 } : SReg)
  let shared := old.w != g.w || old.sregs.map still != g.sregs.map still
  let g := if g.touched || shared then g.unclean iss.lanes else g
  let free := (lanesOf iss.lanes).any fun i => !(old.lane i).demoted
  let g := { g with touched := false, progress := old.progress || (g.progress && free) }
  if g.progress then
    { g with spins := g.spins.map (fun (e : Spin) => { e with count := 0 })
             lanes := g.lanes.map fun (l : Lane) => { l with demoted := false } }
  else g

/-- The energy of an instruction, in hundredths of a picojoule for each active lane (R37). (DEDUCED: log entry 17) -/
def laneCost : Nat := 800

/-- The bytes of local store that a lane's instruction reads or writes as a record: setts, blocks, images, tensor records and
patterns; and whether it does so once for the group. -/
def recordBytes : Instr → Nat × Bool
  | .sinit .. | .sarr .. | .sexp .. | .swait .. | .stry .. => (32, false)
  | .bcopyG2l .. | .bcopyL2g .. | .bqst .. | .mmab .. | .coll .. => (64, false)
  | .mma .. => (64, true)
  | .sbind .. => (32, true)
  | .evpost .. | .autld .. => (64, false)
  | .autctlOpen .. => (32, false)
  | .syswrContextSet .. | .syswrInvalidate .. | .syswrMigrate .. | .syswrContextStop .. | .syswrContextResume ..
  | .syswrGroup .. | .syswrQueueCreate .. | .syswrQueueDestroy .. | .syswrQueueSwap .. => (64, false)
  | _ => (0, false)

/-- The energy of the elements that lanes take through the stream registers among operands, in the order of the operands
(R415, R37). -/
def streamCost (g : Group) (lanes : Nat) : List Opnd → Nat
  | [] => 0
  | .s k :: os =>
    let r := g.sreg k
    let ls := lanesOf lanes
    let cost := ls.map fun i => memCost (localAddr 0 (r.elem ((r.pos + ls.idxOf i) % r.count))) (2 ^ r.esz)
    cost.foldl (· + ·) 0 + streamCost { g with sregs := lmod k (·.advance lanes) g.sregs } lanes os
  | _ :: os => streamCost g lanes os

/-- The local-store energy of an instruction's records and stream elements (R37). (DEDUCED: log entry 17) -/
def localCost (g : Group) (lanes : Nat) (i : Instr) : Nat :=
  let (n, once) := recordBytes i
  let f := footOf i
  400 * (n / 32) * (if lanes = 0 then 0 else if once then 1 else maskCount lanes) +
  (match i with
    | .sbind .. | .sfree .. | .bse .. => 0
    | _ => streamCost g lanes ((f.reads ++ f.writes).map (·.1)))

/-- An instruction has acted: the group's counts, holds, spin entries and latches, its energy, and the fault of lanes
that 0x1A stops. (DEDUCED: log entry 16) -/
def afterIssue (h : Header) (i : Instr) (bad : Nat) (s t : State) : State :=
  let t := { t with cur := none }
  match s.cur with
  | none => t
  | some iss =>
    match (s.group? iss.key).bind fun g => (t.sameGroup iss.key g).map fun g' => (g, g') with
    | none => t
    | some (old, g) =>
      let g := Group.spun old { g with walked := false } iss
      if g.again iss then ((t.setGroup iss.key g).dueWalks iss.key).stopLanes iss 0x1A bad
      else
        let g := { g with issued := g.issued + 1 }
        let g := if s.normalMode (partOf iss.key) then g.hold s.clock iss h i else g
        let g := if iss.lanes = 0 then g else g.unlatch (fieldsOf (footOf i).writes)
        let t := (t.setGroup iss.key g).charge (partOf iss.key) g.pasid (laneCost * maskCount iss.lanes + localCost old iss.lanes i)
        let t := match i with
          | .mma ty _ _ _ _ _ =>
            if iss.lanes = 0 then t else t.modCore (coreOf iss.key) fun c => { c with mmaFree := s.clock + mmaOccupancy ty }
          | _ => t
        t.stopLanes iss 0x1A bad

end Sys2Proof.Machine
end

