-- ==== Sys2Proof/Machine/Links.lean ====
section
/-! DEFINITION. The PCIe links and the die links: link changes and function resets, answers of the host, invalidations,
and replays (R41, R43, R45, R48). -/

namespace Sys2Proof.Machine

/-- A link changed. -/
def State.modLink (s : State) (link : Nat) (f : Link → Link) : State := { s with links := lmod link f s.links }

/-- Whether a waiter waits for an answer of a link. -/
def State.remoteBusy (s : State) (w : Waiter) : Bool :=
  s.links.any fun l => l.ats.any (fun q => q.waiter == w) || l.reads.any (fun q => q.waiter == w)

/-- A waiter that has all its answers goes on: a group's lanes issue again, and an engine looks at its next step (R43). -/
def State.remoteDone (s : State) (w : Waiter) : State :=
  match w with
  | .engine _ | .ring | .scanner .. | .launcher _ | .mover _ => s
  | .group key =>
    if s.remoteBusy w then s
    else s.modGroup key fun g =>
      { g with lanes := g.lanes.map fun l => if l.wait == .remote then { l with wait := .none } else l }

/-- Whether a group holds back stores to a page of host memory that a voided translation gave (R43). -/
def State.bufferedAt (s : State) (pages : List Nat) : Bool :=
  s.everyGroup.any fun (_, g) => g.buf.any fun b => isHost b.addr && pages.contains (b.addr / 2 ^ 16)

/-- The invalidations of a link that can complete do: every write that used a voided translation has been sent, and every
read among what used one has completed (R43). (DEDUCED: log entry 40) -/
def State.invalsDone (s : State) (link : Nat) : State :=
  match s.links[link]? with
  | none => s
  | some l =>
    let busy := fun (pages : List Nat) =>
      (l.reads.any fun q => pages.contains (q.addr / 2 ^ 16)) || (l.writes.any fun w => pages.contains (w.phys / 2 ^ 16)) ||
      s.bufferedAt pages
    let done := l.invals.filter fun v => !busy v.2.2.2
    done.foldl (fun s v => s.emit (.atsDone link v.1 v.2.1))
      (s.modLink link fun l => { l with invals := l.invals.filter fun v => busy v.2.2.2 })

/-- The partitions that have event ports on a link's function. -/
def Link.parts (l : Link) : List Nat := ((l.ports.filter fun (_, p) => p.en).map fun (_, p) => p.part).eraseDups

/-- The event of a PCIe link's change on the error streams of the partitions with event ports there (R45). -/
def State.linkEvent (s : State) (link state reads writes : Nat) : State :=
  ((s.links[link]?).elim [] Link.parts).foldl (fun s p => s.sysPost p errStream 0x0014 [0, link, state, reads, writes]) s

/-- A link goes down or its function is reset: its reads complete as poisoned sectors and its translations as denied, the
writes that it has not accepted are discarded and counted, its packets are refused until the function is enabled again, the
collectives whose data it carries are abandoned, and the event is posted (R45, R57). -/
def State.linkDrop (s : State) (link state : Nat) (up : Bool) : State :=
  match s.links[link]? with
  | none => s
  | some l =>
    let ops := l.collOps
    let l' : Link := { l with up := up, enabled := false, ide := up && l.ide, reads := [], ats := [], writes := [],
                              returned := l.returned ++ l.reads.map fun q => (q.waiter, q.addr, true) }
    let l' := l.ats.foldl (fun (l : Link) q => l.cache ⟨q.pasid, q.page, 0, false, false⟩) l'
    let s := { s with links := s.links.set link l' }
    let s := (l.reads.map (·.waiter) ++ l.ats.map (·.waiter)).eraseDups.foldl State.remoteDone s
    let s := (s.invalsDone link).linkEvent link state l.reads.length l.writes.length
    ops.foldl (fun s op => match tget? op s.colls with
      | none => s
      | some c => s.collKill c.part c.tag 3) s

/-- A link goes down. (DEDUCED: log entry 40) -/
def linkDown (link : Nat) (s : State) : State := s.linkDrop link 0 false

/-- PCIE_LINK_DOWN (R45). -/
def execPcieLinkDown (link : Nat) (s : State) : Host.Outcome State Fault Refusal := runStep (linkDown link) s

/-- A function reset leaves the link as it is. (DEDUCED: log entries 38 and 40) -/
def functionReset (link : Nat) (s : State) : State := s.linkDrop link 3 ((s.links[link]?).elim false (·.up))

/-- HOT_RESET (R45). -/
def execHotReset (link : Nat) (s : State) : Host.Outcome State Fault Refusal := runStep (functionReset link) s

/-- FUNCTION_LEVEL_RESET (R45). -/
def execFunctionLevelReset (link : Nat) (s : State) : Host.Outcome State Fault Refusal :=
  runStep (fun s => s.linkDrop link 3 ((s.links[link]?).elim false (·.up))) s

/-- A link trains up, with its function enabled, and perhaps with a link IDE session that the host establishes, or enters
retraining (R45, R41). (DEDUCED: log entry 40) -/
def linkUp (link : Nat) (retraining : Bool) (s : State) : State :=
  if retraining then s.linkEvent link 1 0 0
  else
    let ide := Config.freeBool s.free
    ({ s with free := s.free + 1 }.modLink link fun l => { l with up := true, enabled := true, ide := ide }).linkEvent link 2 0 0

/-- PCIE_LINK_UP. -/
def execPcieLinkUp (link : Nat) (retraining : Bool) (s : State) : Host.Outcome State Fault Refusal :=
  runStep (linkUp link retraining) s

/-- An ATS answer: kept, and its waiter looks again (R43). -/
def atsCompletion (link tag addr : Nat) (read write : Bool) (s : State) : State :=
  match s.links[link]? with
  | none => s
  | some l =>
    match l.ats.find? (·.tag == tag) with
    | none => s
    | some q =>
      let s := s.modLink link fun l =>
        { l with ats := l.ats.filter (·.tag != tag) }.cache ⟨q.pasid, q.page, addr - addr % 2 ^ 16, read, write⟩
      s.remoteDone q.waiter

/-- ATS_COMPLETION. -/
def execAtsCompletion (link tag addr : Nat) (read write : Bool) (s : State) : Host.Outcome State Fault Refusal :=
  runStep (atsCompletion link tag addr read write) s

/-- An ATS invalidation: the translations are voided, and it completes once what used them has been sent and its reads are
complete (R43). (DEDUCED: log entry 40) -/
def atsInvalidate (link pasid va pages : Nat) (s : State) : State :=
  let first := va / 2 ^ 16
  let hit := fun (e : AtcEntry) => e.pasid == pasid && decide (first ≤ e.page) && decide (e.page < first + pages)
  let s := s.modLink link fun l =>
    { l with
      atc := l.atc.filter fun e => !hit e
      invals := l.invals ++ [(pasid, va, pages, (l.atc.filter hit).map fun e => hostAddr link e.addr / 2 ^ 16)] }
  s.invalsDone link

/-- ATS_INVALIDATION. -/
def execAtsInvalidation (link pasid va pages : Nat) (s : State) : Host.Outcome State Fault Refusal :=
  runStep (atsInvalidate link pasid va pages) s

/-- A host read's data: host memory shows them, and the waiter goes on (R43). (DEDUCED: log entry 40) -/
def hostReadDone (link tag : Nat) (data : List Byte) (s : State) : State :=
  match s.links[link]? with
  | none => s
  | some l =>
    match l.reads.find? (·.tag == tag) with
    | none => s
    | some q =>
      let s := s.setBytes q.addr (data.take q.len)
      let s := s.modLink link fun l =>
        { l with reads := l.reads.filter (·.tag != tag), returned := l.returned ++ [(q.waiter, q.addr, false)] }
      (s.remoteDone q.waiter).invalsDone link

/-- HOST_READ_COMPLETION. -/
def execHostReadCompletion (link tag : Nat) (data : List Byte) (s : State) : Host.Outcome State Fault Refusal :=
  runStep (hostReadDone link tag data) s

/-! Die links (R48). -/

/-- A transfer replayed: counted, with no other effect. -/
def dieLinkError (n : Nat) (s : State) : State :=
  { s with dlinks := lmod n (fun d => { d with replays := satInc d.replays }) s.dlinks }

/-- DIE_LINK_CRC_ERROR. -/
def execDieLinkCrcError (dlink : Nat) (s : State) : Host.Outcome State Fault Refusal := runStep (dieLinkError dlink) s

/-- A window's end: one event for each link that replayed, on every partition's telemetry stream. -/
def dieLinkWindow (s : State) : State :=
  let s' := s.dlinks.zipIdx.foldl (fun s (d, n) =>
    if d.replays = 0 then s else s.sysPostAll teleStream 0x001B [n, d.replays, d.spares]) s
  { s' with dlinks := s.dlinks.map fun d => { d with replays := 0 } }

/-- DIE_LINK_REPLAY_WINDOW. -/
def execDieLinkReplayWindow (s : State) : Host.Outcome State Fault Refusal := runStep dieLinkWindow s

end Sys2Proof.Machine
end

