-- ==== Sys2Proof/Machine/HostPorts.lean ====
section
/-! DEFINITION. What the host does at a function's BARs: event packets, slot reads, the mailbox and MSI-X registers, and
accesses that nothing answers; report windows and moderated interrupts (R41, R42, R60 to R70, R79). -/

namespace Sys2Proof.Machine

/-! Event packets (R63 to R69). -/

/-- Bytes 0 to 7 of a packet. -/
def packetFirst8 (p : Packet) : Nat := p.time % 2 ^ 48 + p.cls * 2 ^ 48

/-- Whether a port's PASID is live in its partition: no revocation has taken it (R68). -/
def State.livePasid (s : State) (po : Port) : Bool :=
  po.en && ((s.part? po.part).elim false fun p => !p.revoked.contains po.pasid)

/-- The checks of R64 before the stream's: the first that fails, in the order of their codes. (DEDUCED: log entry 34) -/
def packetReason (s : State) (po : Port) (sl : Slot) (enabled : Bool) (pasid : Option Nat) (pkt : Packet) : Option Nat :=
  if !enabled then some 10
  else if !po.en then some 2
  else if !sl.map || !sl.w then some 3
  else if pasid != some po.pasid then some 4
  else if !s.livePasid po then some 5
  else if pkt.op = 3 || pkt.ctrl != 0 then some 6
  else none

/-- The record of a post whose ring write met a translation code, with its guest-physical address (R65, R190). -/
def State.postFault (s : State) (part pasid page code guest : Nat) : State :=
  s.postRecord part (gatheredWords ⟨pasid, page, code, Acc.w.bits, 0, 0, guest, [], 0, 0, 0⟩ false true)

/-- The world of an event port: non-secure unless firmware set it (R76). -/
def State.securePort (s : State) (link port : Nat) : Bool := s.fw.secure.contains (2, link * 512 + port)

/-- A packet set aside until its ring is translated. (DEDUCED: log entry 34) -/
def State.park (s : State) (link port slot : Nat) (pasid : Option Nat) (pkt : Packet) : State :=
  s.modLink link fun l => { l with parked := l.parked ++ [(port, slot, pasid, pkt)] }

/-- A packet at a slot of a port (R64). One whose ring waits for a translation stays with the link, and so do those behind
it, in their order; it is checked when it acts (R43, R67). (DEDUCED: log entries 40 and 51) -/
def hostPacket (link port slot : Nat) (pasid : Option Nat) (pkt : Packet) (s : State) : State :=
  let po := s.port link port
  let sl := po.slot slot
  let refuse := fun (s : State) (r : Nat) => s.refuse link port slot r pasid (packetFirst8 pkt)
  if (s.links[link]?).any fun l => !l.parked.isEmpty then s.park link port slot pasid pkt
  else match packetReason s po sl ((s.links[link]?).elim false (·.enabled)) pasid pkt with
  | some r => refuse s r
  | none =>
    let p : Post := ⟨pkt.op, pkt.time, pkt.cls, pkt.payload.map (·.toNat), false, false, po.pasid, s.securePort link port,
      .ring⟩
    match s.postActs po.part sl.stream p with
    | .error (.waits e) => (s.askFor .ring po.pasid e).park link port slot pasid pkt
    | .error (.ring code guest) =>
      let at_ := (s.stream? po.part sl.stream).elim 0 fun st => st.entry st.tail
      refuse (s.postFault po.part po.pasid (at_ / 2 ^ 16) code guest) 9
    | .error (.refused r) => refuse s r
    | .ok (s, seq) =>
      (s.dropReturned .ring).modSlot link port slot fun sl =>
        { sl with posted := satInc sl.posted, lastSeq := seq.getD sl.lastSeq }

/-- The packets set aside at a link try again, in their order. -/
def State.unpark (s : State) (link : Nat) : State :=
  match s.links[link]? with
  | none => s
  | some l =>
    if l.parked.isEmpty then s
    else l.parked.foldl (fun s (port, slot, pasid, pkt) => hostPacket link port slot pasid pkt s)
      (s.modLink link fun l => { l with parked := [] })

/-- EVENT_PACKET_POST. -/
def execEventPacketPost (link port slot : Nat) (pasid : Option Nat) (pkt : Packet) (s : State) :
    Host.Outcome State Fault Refusal := runStep (hostPacket link port slot pasid pkt) s

/-- EVENT_PACKET_WATERMARK: the packet's op is 10. -/
def execEventPacketWatermark (link port slot : Nat) (pasid : Option Nat) (pkt : Packet) (s : State) :
    Host.Outcome State Fault Refusal := runStep (hostPacket link port slot pasid { pkt with op := 2 }) s

/-! Slot reads (R62). -/

/-- SLOTSTAT. -/
def slotStat (po : Port) (sl : Slot) : Nat :=
  b2n (po.en && sl.map) * 2 ^ 63 + b2n sl.w * 2 ^ 62 + b2n sl.irq * 2 ^ 61 + sl.stream * 2 ^ 48 + sl.lastSeq

/-- SLOTCNT. -/
def slotCnt (sl : Slot) : Nat := sl.refused * 2 ^ 32 + sl.posted

/-- A host read of a slot's 64 bytes: permitted, or refused for the lowest reason that applies (R62, R65). (DESIGN CHOICE: log entry 54) -/
def slotRead (link port slot : Nat) (pasid : Option Nat) (off len : Nat) (s : State) : State :=
  let po := s.port link port
  if !((s.links[link]?).elim false (·.enabled)) then s.emit (.unsupported link)
  else
    let other := match pasid with
      | none => false
      | some p => p != po.pasid || !po.en
    let dead := pasid.isSome && !s.livePasid po
    let bad := fun (r : Nat) => (s.emit (.unsupported link)).refuse link port slot r pasid 0
    if len != 8 || off % 8 != 0 || decide (64 ≤ off) then bad 1
    else if other then bad 4
    else if dead then bad 5
    else
      let sl := po.slot slot
      if off = 0 then s.emit (.completion link (slotStat po sl))
      else if off = 8 then
        (s.emit (.completion link (slotCnt sl))).modSlot link port slot fun sl => { sl with refused := 0, posted := 0 }
      else s.emit (.completion link 0)

/-- SLOTCNT_READ. -/
def execSlotcntRead (link port slot : Nat) (pasid : Option Nat) (s : State) : Host.Outcome State Fault Refusal :=
  runStep (slotRead link port slot pasid 8 8) s

/-- SLOT_BAD_READ. -/
def execSlotBadRead (link port slot : Nat) (pasid : Option Nat) (off len : Nat) (s : State) :
    Host.Outcome State Fault Refusal := runStep (slotRead link port slot pasid off len) s

/-! Windows and interrupts (R69, R70). -/

/-- A port's report window closes: it reports what it has gathered and opens again, or stays closed. -/
def refusalClose (link port : Nat) (s : State) : State :=
  let po := s.port link port
  match po.window with
  | none => s
  | some t =>
    if s.timer < t then s
    else if po.pendCount = 0 then s.setPort link port { po with window := none }
    else
      let s := s.sysPost po.part errStream 0x0015 (refusalReport link port po.pendCount po.pendLast)
      s.setPort link port { (s.port link port) with window := some (s.timer + 4096), pendCount := 0 }

/-- REFUSAL_WINDOW_CLOSE. -/
def execRefusalWindowClose (link port : Nat) (s : State) : Host.Outcome State Fault Refusal :=
  runStep (refusalClose link port) s

/-- Whether an owed message may leave (R70). -/
def Remap.due (e : Remap) (now : Nat) : Bool :=
  e.pend && !e.mask && (match e.lastSent with
    | none => true
    | some t => decide (e.mod ≤ now - t))

/-- An entry's tick or unmasking. -/
def remapTick (link k : Nat) (s : State) : State :=
  match s.links[link]? with
  | none => s
  | some l =>
    let e := tget l.remaps k Remap.new
    if e.due s.timer then
      let e := { e with lastSent := some s.timer, pend := false }
      ({ s with links := s.links.set link { l with remaps := tset k e l.remaps } }).sendMsix link e.vec
    else s

/-- REMAP_HOLDOFF_EXPIRY. -/
def execRemapHoldoffExpiry (link entry : Nat) (s : State) : Host.Outcome State Fault Refusal := runStep (remapTick link entry) s

/-! Registers of BAR 0 (R41, R79). -/

/-- The link's mailbox changed. -/
def State.modMailbox (s : State) (link : Nat) (f : Mailbox → Mailbox) : State :=
  s.modLink link fun l => { l with mailbox := f l.mailbox }

/-- A write of MBSTAT: bit 31 clears DONE. -/
def mbstatWrite (link : Nat) (v : Word) (s : State) : State :=
  s.modMailbox link fun m => if bit v.toNat 31 then { m with done := false } else m

/-- MBSTAT_WRITE. -/
def execMbstatWrite (link : Nat) (v : Word) (s : State) : Host.Outcome State Fault Refusal := runStep (mbstatWrite link v) s

/-- A write of MBCTL: discarded while GO reads 1; a GO takes its place in the order of commands, and in one
clock link 0's comes first (R79, R80). -/
def mbctlWrite (link : Nat) (v : Nat) (s : State) : State :=
  match s.links[link]? with
  | none => s
  | some l =>
    if l.mailbox.go then s
    else
      let m := { l.mailbox with tag := bits v 16 8, opcode := bits v 0 16, go := bit v 31,
                                order := if bit v 31 then 2 * s.clock + link else l.mailbox.order }
      s.modMailbox link fun _ => m

/-- A vector's message put out when its mask is lifted while it is pending (R41). -/
def State.msixUnmasked (s : State) (link vec : Nat) : State :=
  match s.links[link]? with
  | none => s
  | some l =>
    let (addr, data, ctl) := tget l.msix vec (0, 0, 0)
    if ctl % 2 = 0 && bit l.pba vec then
      (s.modLink link fun l => { l with pba := l.pba - 2 ^ vec }).emit (.msix link vec addr data)
    else s

/-- A 4-byte write in the MSI-X table: address, data and vector control of a vector (R41). (DEDUCED: log entry 40) -/
def msixWrite (link off v : Nat) (s : State) : State :=
  let vec := (off - 0x80000) / 16
  let put := fun (e : Nat × Nat × Nat) =>
    match off % 16 / 4 with
    | 0 => (v + e.1 / 2 ^ 32 * 2 ^ 32, e.2)
    | 1 => (e.1 % 2 ^ 32 + v * 2 ^ 32, e.2)
    | 2 => (e.1, v, e.2.2)
    | _ => (e.1, e.2.1, v)
  (s.modLink link fun l => { l with msix := tset vec (put (tget l.msix vec (0, 0, 0))) l.msix }).msixUnmasked link vec

/-- A host write of 4 bytes in BAR 0. Read-only words and offsets that nothing answers discard it (R42, R79). -/
def registerWrite (link off : Nat) (v : Word) (s : State) : State :=
  let n := v.toNat
  if off % 4 != 0 then s
  else if off = 0 then mbctlWrite link n s
  else if off = 4 then mbstatWrite link v s
  else if off = 8 then s.modMailbox link fun m => { m with irqEn := bit n 31, irqVec := bits n 0 6 }
  else if 0x40 ≤ off ∧ off < 0xC0 then
    s.modMailbox link fun m => if m.go then m else { m with args := m.args.set ((off - 0x40) / 4) v }
  else if 0x80000 ≤ off ∧ off < 0x80400 then msixWrite link off n s
  else s

/-- REGISTER_WRITE. -/
def execRegisterWrite (link off : Nat) (v : Word) (s : State) : Host.Outcome State Fault Refusal :=
  runStep (registerWrite link off v) s

/-! Accesses that nothing answers (R42, R63, R79). -/

/-- Whether an access of BAR 0 lies in the mailbox. -/
def inMailbox (off : Nat) : Bool := decide (off < 0x140)

/-- Whether an access of BAR 0 lies in the MSI-X table or the pending-bit array. -/
def inMsix (off len : Nat) : Bool :=
  (decide (0x80000 ≤ off) && decide (off + len ≤ 0x80400)) || (decide (0x81000 ≤ off) && decide (off + len ≤ 0x81008))

/-- Whether a mailbox access is permitted. -/
def mailboxOk (a : BarAccess) : Bool := a.off % 4 == 0 && a.len == 4 && a.pasid.isNone

/-- Whether a write of BAR 2 is a sequence of packets (R63). -/
def packetsOk (a : BarAccess) : Bool :=
  a.full && decide (a.len ≤ 512) && a.len % 64 == 0 && a.off % 64 == 0 && a.len != 0 && a.off / 4096 == (a.off + a.len - 1) / 4096

/-- The slots that an access of BAR 2 touches: port, slot, and where the slot's bytes begin in the access. (DEDUCED: log entry 51) -/
def touchedSlots (a : BarAccess) : List (Nat × Nat × Nat) :=
  (List.range ((a.off + a.len + 63) / 64 - a.off / 64)).map fun k =>
    let n := a.off / 64 + k
    (n / 64, n % 64, 64 * n - a.off)

/-- The packet of 64 bytes as a number (R63). -/
def packetOf (v : Nat) : Packet :=
  ⟨bits v 0 48, bits v 48 16, bits v 126 2, bits v 64 62, (List.range 12).map fun k => BitVec.ofNat 32 (v / 2 ^ (128 + 32 * k))⟩

/-- The packets of a write of BAR 2, in address order, each posted on its own (R63). -/
def postPackets (a : BarAccess) (s : State) : State :=
  (touchedSlots a).foldl (fun s (port, slot, from_) =>
    hostPacket a.link port slot a.pasid (packetOf (a.value / 2 ^ (8 * from_) % 2 ^ 512)) s) s

/-- What a word of the mailbox reads as (R79). -/
def mailboxWord (m : Mailbox) (off : Nat) : Nat :=
  if off = 0 then b2n m.go * 2 ^ 31 + m.tag * 2 ^ 16 + m.opcode
  else if off = 4 then b2n m.done * 2 ^ 31 + m.doneTag * 2 ^ 16 + m.status
  else if off = 8 then b2n m.irqEn * 2 ^ 31 + m.irqVec
  else if 0x40 ≤ off ∧ off < 0xC0 then (m.args.getD ((off - 0x40) / 4) 0).toNat
  else if 0xC0 ≤ off then (m.res.getD ((off - 0xC0) / 4) 0).toNat
  else 0

/-- What the MSI-X table and the pending-bit array read as, as one number (R41). -/
def msixBytes (l : Link) (off len : Nat) : Nat :=
  let v := if off < 0x81000 then
      let vec := (off - 0x80000) / 16
      let (a, d, c) := tget l.msix vec (0, 0, 0)
      (a + d * 2 ^ 64 + c * 2 ^ 96) / 2 ^ (8 * (off % 16))
    else l.pba / 2 ^ (8 * (off % 8))
  v % 2 ^ (8 * len)

/-- A read of a word of the mailbox, of the MSI-X table or of the pending-bit array, or a write of 8 bytes of the MSI-X
table, which is two of its words (R41). (DEDUCED: log entry 40) -/
def barAnswer (a : BarAccess) (s : State) : State :=
  match s.links[a.link]? with
  | none => s
  | some l =>
    if !a.write then s.emit (.completion a.link (if inMailbox a.off then mailboxWord l.mailbox a.off else msixBytes l a.off a.len))
    else if inMsix a.off a.len && a.len = 8 && a.off % 8 = 0 && a.off < 0x81000 then
      msixWrite a.link (a.off + 4) (a.value / 2 ^ 32 % 2 ^ 32) (msixWrite a.link a.off (a.value % 2 ^ 32) s)
    else s

/-- An access of a BAR as a whole: an access that nothing answers is discarded as a write and completes with Unsupported
Request as a read, and so does an access of the mailbox that is not permitted; a write of BAR 2 is its packets, or where it
is malformed a refusal at every slot that it touches (R42, R63, R79). Writes of single registers, single packets and slot
reads have steps of their own. (DEDUCED: log entries 40 and 51) -/
def barUnsupported (a : BarAccess) (s : State) : State :=
  let out := fun (s : State) => if a.write then s else s.emit (.unsupported a.link)
  if a.bar = 0 then
    if inMailbox a.off then (if mailboxOk a then barAnswer a s else s.emit (.unsupported a.link))
    else if inMsix a.off a.len then barAnswer a s
    else out s
  else if a.bar = 2 && decide (a.off + a.len ≤ 2 ^ 21) then
    if !a.write then s
    else if packetsOk a then postPackets a s
    else (touchedSlots a).foldl (fun s (port, slot, from_) =>
      s.refuse a.link port slot 1 a.pasid (a.value / 2 ^ (8 * from_) % 2 ^ 64)) s
  else out s

/-- BAR_UNSUPPORTED_ACCESS. -/
def execBarUnsupportedAccess (acc : BarAccess) (s : State) : Host.Outcome State Fault Refusal := runStep (barUnsupported acc) s

end Sys2Proof.Machine
end

