-- ==== Sys2Proof/Machine/Partition.lean ====
section
/-! DEFINITION. The life of a partition and the management core's start: creation, destruction, and the change of its
quarters (R71, R73, R74, R77, R82, R97, R131, R308). -/

namespace Sys2Proof.Machine

/-- The numbers of a mask of quarters, rising. -/
def quartersOf (m : Nat) : List Nat := (List.range 16).filter (bit m ·)

/-- The mask of a list of quarters. -/
def quarterMask (qs : List Nat) : Nat := qs.foldl (fun m q => m ||| 2 ^ q) 0

/-- The quarters that partitions own. -/
def State.ownedQuarters (s : State) : List Nat := s.parts.flatMap fun (_, p) => p.quarters

/-- A system stream as firmware sets it (R74, R97): 4096 entries, retention 4096, and TIMED but for the control stream. -/
def systemStream (home kind : Nat) : Stream :=
  ⟨systemRing home kind, 0, 12, 12, false, kind != ctlStream, false, 0, 0, 0, none, none, none, []⟩

/-- A virtual core's host core by its package logical index: at its own position, unless firmware has moved it (R308,
R309). (DEDUCED: log entry 47) -/
def Part.hostOf (p : Part) (v : Nat) : Nat :=
  let (col, row) := p.posOf v
  tget p.remap v (16 * row + col)

/-- The virtual cores of a partition. -/
def Part.vcores (p : Part) : List Nat := List.range (16 * p.quarters.length)

/-- The entry of a virtual core in the remap table of 256 entries: V, SHR and HOST; an absent core's reads 0 (R308). -/
def Part.remapEntry (p : Part) (v : Nat) : Nat :=
  if p.vcores.contains v then
    let shared := 1 < (p.vcores.filter fun u => p.hostOf u == p.hostOf v).length
    2 ^ 31 + b2n shared * 2 ^ 30 + p.hostOf v
  else 0

/-- The remap table (R308). -/
def Part.remapTable (p : Part) : List Nat := (List.range 256).map p.remapEntry

/-- A partition at its creation (R73, R74, R81, R88, R146, R255). -/
def Part.create (number : Nat) (quarters : List Nat) (det : Bool) (push sampling seed : Nat) : Part :=
  let home := quarters.headD 0
  { quarters := quarters, home := home, det := if det then some Det.new else none
    push := if push = 0 then 8 else push, sampling := sampling, seed := seed, pasids := [], revoked := []
    ranges := List.replicate 48 Range.none, rangeGen := 0, bindings := [], migs := [], assigned := []
    streams := (List.range 5).map fun k => (number * 16 + k, systemStream home k)
    jobs := [], grids := [], queues := [], launches := [], placing := none, windows := [], pending := [], retries := [],
    lost := false, reservations := [], routes := [], replica := none, halted := false, tiles := [], remap := [],
    retired := [] }

/-- A partition created, with its root automaton (R71, R74). -/
def State.createPart (s : State) (number : Nat) (p : Part) : State :=
  { s with parts := tset number p s.parts }.installRoot number p.home

/-- A quarter's slice of die store and its engine cleared (R82). -/
def State.clearQuarter (s : State) (q : Nat) : State :=
  let s := (s.engine q).ops.foldl (fun s o => s.pay o.serial (refusal 1)) s
  let s := (tkeys (s.engine q).slots).foldl (fun s k => s.dropReturned (.scanner q k)) s
  { s.zeroRange (sliceAddr q 0) (sliceAddr q (2 ^ 25)) with engines := terase q s.engines }

/-- Links' ports that a test names are disabled. -/
def State.disablePorts (s : State) (test : Port → Bool) : State :=
  { s with links := s.links.map fun l => { l with ports := l.ports.map fun (n, po) =>
      (n, if test po then { po with en := false, part := 0, pasid := 0, window := none, pendCount := 0 } else po) } }

/-- Whether a waiter's answer is owed to a partition's group, launch or migration. -/
def State.waiterIn (s : State) (part : Nat) : Waiter → Bool
  | .group key => partOf key == part
  | .launcher p => p == part
  | .mover n => (s.part? part).elim false fun p => p.migs.any fun m => m.serial == n
  | .engine _ | .ring | .scanner .. => false

/-- The partition's work ends: its groups, teams, tasks, engine operations and what waits for them are gone. -/
def State.endWork (s : State) (part : Nat) : State :=
  let local_ := s.teams.filter fun (_, t) => t.part == part
  let s := local_.foldl (fun s (n, _) => s.zeroRange (localAddr n 0) (localAddr n (2 ^ 20))) s
  { s with
    groups := s.groups.filter fun (k, _) => partOf k != part, saved := s.saved.filter fun (k, _) => partOf k != part
    teams := s.teams.filter fun (_, t) => t.part != part
    cores := s.cores.filter fun (k, _) => partOfCore k != part
    bulks := s.bulks.filter fun (_, b) => b.part != part, mmabs := s.mmabs.filter fun (_, m) => m.part != part
    colls := s.colls.filter fun (_, c) => c.part != part
    locks := s.locks.filter fun (k, _) => partOfCore k != part
    samples := s.samples.filter fun (k, _) => partOfCore k != part
    links := s.links.map fun l =>
      { l with reads := l.reads.filter fun q => !s.waiterIn part q.waiter, ats := l.ats.filter fun q => !s.waiterIn part q.waiter,
               returned := l.returned.filter fun r => !s.waiterIn part r.1 }
    agenda := s.agenda.filter fun t => match t with
      | .issue k | .second k _ _ | .turnEnd k | .waits k => partOf k != part
      | _ => true }

/-- PART_DESTROY: all work ends, die-store slices and local stores are zeroed, keys, ranges and bindings are cleared, and
ports and streams are released (R82). (DEDUCED: log entry 38) -/
def State.destroyPart (s : State) (part : Nat) : State :=
  match s.part? part with
  | none => s
  | some p =>
    let s := s.endWork part
    let s := p.quarters.foldl State.clearQuarter s
    let s := (tkeys p.streams ++ p.assigned).foldl State.unmapStream s
    let s := s.disablePorts fun po => po.en && po.part == part
    let s := (tkeys s.dports).foldl (fun s d =>
      if (s.dport d).owner = some part then s.modDport d fun x => { x with owner := none } else s) s
    { s with
      parts := terase part s.parts, ctxs := s.ctxs.filter fun (k, _) => k / 2 ^ 20 != part
      tlb := s.tlb.filter fun e => e.part != part
      fw := { s.fw with keys := s.fw.keys.filter fun (_, o, _) => o != part } }

/-- The start of the management core: the ROM check, then the patch in its memory (R77). -/
def State.startManagement (s : State) : State :=
  if Config.romGood then
    let good := match s.fw.patch with
      | none => false
      | some (level, bs) => Config.signatureHolds bs && decide (s.fw.fusedLevel ≤ level)
    { s with fw := { s.fw with available := true, patch := if good then s.fw.patch else none,
                               running := if good then s.fw.patch else none } }
  else { s with fw := { s.fw with available := false } }

/-! PART_QUARTERS: the virtual cores are numbered anew (R131). -/

/-- A table with its keys renamed. -/
def trename {α : Type} (f : Nat → Nat) (t : Tbl α) : Tbl α := t.foldl (fun r (k, a) => tset (f k) a r) []

/-- A group key under a renaming of core keys. -/
def regroup (f : Nat → Nat) (key : Nat) : Nat := f (coreOf key) * 48 + slotOf key

/-- A TLB under a renaming of core keys. -/
def tlbAfter (f : Nat → Nat) (home : Nat) : Nat :=
  if home < 2 ^ 40 then f home else if home < 2 ^ 41 then home else aheadTlb (f (home - 2 ^ 41))

/-- A waiter under a renaming of core keys. -/
def rewait (f : Nat → Nat) : Waiter → Waiter
  | .group key => .group (regroup f key)
  | w => w

/-- What a partition holds of core and group keys, renamed. -/
def Part.rekey (p : Part) (f : Nat → Nat) (v : Nat → Nat) : Part :=
  let ws := fun (l : List Waiter) => l.map (rewait f)
  { p with
    queues := p.queues.map fun (k, q) => (k, { q with core := f q.core })
    windows := p.windows.map fun x => { x with core := v x.core, waiters := ws x.waiters }
    pending := p.pending.map fun x => { x with waiters := ws x.waiters }
    retries := p.retries.map fun x => { x with waiters := ws x.waiters }
    reservations := p.reservations.map fun r => { r with granted := r.granted.map f, asked := r.asked.map f }
    tiles := trename v p.tiles
    det := p.det.map fun d =>
      { d with ring := d.ring.map fun m => { m with key := m.key.map (regroup f) },
               setts := d.setts.map fun x => { x with group := regroup f x.group } } }

/-- A partition's virtual cores renamed by a map of their numbers (R131): everything that stands at a core moves with
it. -/
def State.rekey (s : State) (part : Nat) (v : Nat → Nat) : State :=
  let f := fun (ck : Nat) => if partOfCore ck = part then part * 256 + v (vcoreOf ck) else ck
  let g := regroup f
  { s.modPart part fun p => p.rekey f v with
    groups := trename g s.groups, saved := s.saved.map fun (k, x) => (g k, x), cores := trename f s.cores
    teams := s.teams.map fun (n, t) => (n, if t.part = part then
      { t with core := v t.core, groups := t.groups.map g, extHolder := t.extHolder.map g, extQueue := t.extQueue.map g,
               extNew := t.extNew.map g } else t)
    bulks := s.bulks.map fun (n, b) => (n, { b with core := f b.core, group := g b.group })
    mmabs := s.mmabs.map fun (n, m) => (n, { m with core := f m.core, group := g m.group })
    colls := s.colls.map fun (n, c) => (n, { c with core := f c.core, group := g c.group })
    locks := trename f s.locks, samples := s.samples.map fun (k, x) => (f k, x)
    tlb := s.tlb.map fun e => if e.part = part then { e with home := tlbAfter f e.home } else e
    ctxs := s.ctxs.map fun (k, c) => (k, if k / 2 ^ 20 = part then { c with used := trename v c.used } else c)
    links := s.links.map fun l =>
      { l with reads := l.reads.map fun q => { q with waiter := rewait f q.waiter, key := g q.key },
               ats := l.ats.map fun q => { q with waiter := rewait f q.waiter },
               returned := l.returned.map fun r => (rewait f r.1, r.2) }
    agenda := s.agenda.map fun t => match t with
      | .issue k => .issue (g k)
      | .second k pc m => .second (g k) pc m
      | .turnEnd k => .turnEnd (g k)
      | .waits k => .waits (g k)
      | t => t }

/-- Whether tasks, groups or candidates are resident on a quarter of a partition (R82). -/
def State.quarterBusy (s : State) (part : Nat) (p : Part) (q : Nat) : Bool :=
  let here := fun (ck : Nat) => partOfCore ck == part && p.quarterOf (vcoreOf ck) == q
  (s.everyGroup.any fun (k, _) => here (coreOf k)) || (s.cores.any fun (k, c) => here k && !c.queue.isEmpty) ||
  (s.engine q).slots.any fun (_, a) => !a.cands.isEmpty

/-- Whether a range's span of HBM reaches a quarter's stack (R179). -/
def Range.reaches (r : Range) (q : Nat) : Bool :=
  !r.host && decide (r.hbase / 2 ^ 20 ≤ q) && decide (q ≤ (r.hbase + (r.glast - r.gbase)) / 2 ^ 20)

/-- A range entry written: the next generation, its combined entries void, and the regions that the old entry served
restarted (R181). -/
def State.putRange (s : State) (part k : Nat) (r : Range) : State :=
  let s := s.modPart part fun p => { p with ranges := p.ranges.set k r, rangeGen := (p.rangeGen + 1) % 2 ^ 32 }
  let s := { s with tlb := s.tlb.filter fun e => !(e.part == part && (e.range == k || e.sideRange == k)) }
  s.restartWhere none fun key _ b => partOf key == part && b.range == some k

/-- A partition's quarters replaced (R81, R131, R308): a removed quarter is cleared, its queues end, and range entries that
reach its stack become invalid, since the partition no longer owns it (R73). (DEDUCED: log entry 39) -/
def State.setQuarters (s : State) (part : Nat) (p : Part) (new : List Nat) : State :=
  let gone := p.quarters.filter fun q => !new.contains q
  let s := (p.queues.filter fun (_, q) => q.created && gone.contains (p.quarterOf (vcoreOf q.core))).foldl
    (fun s (k, q) => s.queueEnd part k q) s
  let s := gone.foldl State.clearQuarter s
  let s := (p.ranges.zipIdx.filter fun (r, _) => r.valid && gone.any r.reaches).foldl
    (fun s (r, k) => s.putRange part k { r with valid := false }) s
  let v := fun (c : Nat) => 16 * new.idxOf (p.quarterOf c) + c % 16
  (s.rekey part v).modPart part fun p => { p with quarters := new, remap := [] }

end Sys2Proof.Machine
end

