-- ==== Sys2Proof/Machine/Firmware.lean ====
section
/-! DEFINITION. The mailbox commands of firmware, but for RESET (R61, R68, R78 to R83, R88, R178, R181). -/

namespace Sys2Proof.Machine

/-! How a command runs (R79, R80). -/

/-- Status codes (R80). -/
def unknownOpcode : Nat := 1
/-- Argument out of range or inconsistent. -/
def badArgument : Nat := 2
/-- Target busy, in use or owned elsewhere. -/
def busyTarget : Nat := 3
/-- Target does not exist. -/
def noTarget : Nat := 4
/-- World or link-protection violation. -/
def badWorld : Nat := 5
/-- Signature or patch level refused. -/
def badSignature : Nat := 6
/-- Firmware unavailable. -/
def noFirmware : Nat := 7

/-- A command: from its link, its argument words and the state to a status of failure, or the state with the result
words. -/
abbrev Command := Nat → (Nat → Nat) → State → Except Nat (State × List Nat)

/-- A test that a command makes. -/
def need (ok : Bool) (status : Nat) : Except Nat Unit := if ok then .ok () else .error status

/-- A partition that a command names. -/
def needPartition (s : State) (part : Nat) : Except Nat Part :=
  match s.part? part with
  | none => .error noTarget
  | some p => .ok p

/-- Result words put at the start of a mailbox's. -/
def putResults (res : List Word) (rs : List Nat) : List Word :=
  rs.zipIdx.foldl (fun res (v, k) => res.set k (BitVec.ofNat 32 v)) res

/-- A command completes (R79). -/
def State.complete (s : State) (link status : Nat) (rs : List Nat) : State :=
  let s := s.modMailbox link fun m =>
    { m with go := false, done := true, doneTag := m.tag, status := status, res := putResults m.res rs }
  match s.links[link]? with
  | none => s
  | some l => if l.mailbox.irqEn then s.sendMsix link l.mailbox.irqVec else s

/-- The last opcode of R81. -/
def lastOpcode : Nat := 0x15

/-- Whether a link's command is the one that firmware runs next: the order in which GO was written (R80). (DEDUCED: log entry 51) -/
def State.firmwareTurn (s : State) (link : Nat) : Bool :=
  match s.links[link]? with
  | none => false
  | some l => l.mailbox.go && s.links.all fun x => !x.mailbox.go || decide (l.mailbox.order ≤ x.mailbox.order)

/-- The command of an opcode, and of a scope for RESET, run from a link's mailbox when its turn has come and the mailbox
names it (R80). A command that fails changes nothing. -/
def runCommand (opcode : Nat) (scope : Option Nat) (cmd : Command) (link : Nat) (s : State) : State :=
  match s.links[link]? with
  | none => s
  | some l =>
    let m := l.mailbox
    let arg := fun k => (m.args.getD k 0).toNat
    if !s.firmwareTurn link then s
    else if !s.fw.available then s.complete link noFirmware []
    else if m.opcode = 0 || decide (lastOpcode < m.opcode) then s.complete link unknownOpcode []
    else if m.opcode != opcode then s
    else if scope.isSome && decide (7 < arg 0) then s.complete link badArgument []
    else if scope.any (· != arg 0) then s
    else match cmd link arg s with
      | .error st => s.complete link st []
      | .ok (s, rs) => s.complete link 0 rs

/-- A 64-bit argument at a word. -/
def arg64 (a : Nat → Nat) (k : Nat) : Nat := pair64 (a k) (a (k + 1))

/-! Partitions. -/

/-- PART_CREATE. -/
def partCreate : Command := fun _ a s => do
  let quarters := quartersOf (a 1)
  need (decide (a 0 < 16) && decide (0 < a 1) && decide (a 1 < 2 ^ 16) && bits (a 2) 1 7 == 0 && bits (a 2) 21 11 == 0) badArgument
  need (!thas (a 0) s.parts && !quarters.any fun q => s.ownedQuarters.contains q) busyTarget
  let p := Part.create (a 0) quarters (bit (a 2) 0) (bits (a 2) 8 8) (bits (a 2) 16 5) (a 3)
  return (s.createPart (a 0) p, [a 0 * 16 + ctlStream])

/-- PART_CREATE. -/
def execPartCreate (link : Nat) (s : State) : Host.Outcome State Fault Refusal := runStep (runCommand 0x1 none partCreate link) s

/-- PART_DESTROY. -/
def partDestroy : Command := fun _ a s => do
  need (decide (a 0 < 16)) badArgument
  let _ ← needPartition s (a 0)
  return (s.destroyPart (a 0), [])

/-- PART_DESTROY. -/
def execPartDestroy (link : Nat) (s : State) : Host.Outcome State Fault Refusal := runStep (runCommand 0x2 none partDestroy link) s

/-- PART_QUARTERS. (DEDUCED: log entry 39) -/
def partQuarters : Command := fun _ a s => do
  let add := quartersOf (a 1)
  let remove := quartersOf (a 2)
  need (decide (a 0 < 16) && decide (a 1 < 2 ^ 16) && decide (a 2 < 2 ^ 16) && !add.any remove.contains) badArgument
  let p ← needPartition s (a 0)
  need (!(add.any fun q => s.ownedQuarters.contains q) && (remove.all fun q => p.quarters.contains q && q != p.home) &&
    !remove.any (s.quarterBusy (a 0) p)) busyTarget
  let new := (List.range 16).filter fun q => add.contains q || (p.quarters.contains q && !remove.contains q)
  return (s.setQuarters (a 0) p new, [quarterMask new])

/-- PART_QUARTERS. -/
def execPartQuarters (link : Nat) (s : State) : Host.Outcome State Fault Refusal := runStep (runCommand 0x3 none partQuarters link) s

/-! Ports, routes, slots, interrupts, streams. -/

/-- DELOW_PORTS: a released port leaves the partition's routes (R52, R53). (DEDUCED: log entry 39) -/
def delowPorts : Command := fun _ a s => do
  let ports := portsOf (arg64 a 1)
  need (decide (a 0 < 16) && decide (a 3 < 2)) badArgument
  let _ ← needPartition s (a 0)
  let owner := fun p => (s.dport p).owner
  if a 3 = 0 then
    need (ports.all fun p => (owner p).isNone || owner p == some (a 0)) busyTarget
    return (ports.foldl (fun s p => s.modDport p fun d => { d with owner := some (a 0) }) s, [])
  else
    need (ports.all fun p => (owner p).isSome) noTarget
    need (ports.all fun p => owner p == some (a 0)) busyTarget
    let s := ports.foldl (fun s p => s.modDport p fun d => { d with owner := none }) s
    return (s.modPart (a 0) fun p => { p with routes := (p.routes.map fun (k, m) =>
      (k, ((portsOf m).filter fun x => !ports.contains x).foldl (fun m x => m + 2 ^ x) 0)).filter fun r => r.2 != 0 }, [])

/-- DELOW_PORTS. -/
def execDelowPorts (link : Nat) (s : State) : Host.Outcome State Fault Refusal := runStep (runCommand 0x4 none delowPorts link) s

/-- ROUTE_SET: an entry names only ports that the partition owns (R53). (DEDUCED: log entry 39) -/
def routeSet : Command := fun _ a s => do
  need (decide (a 0 < 16) && decide (a 1 < 1024)) badArgument
  let _ ← needPartition s (a 0)
  need ((portsOf (arg64 a 2)).all fun p => (s.dport p).owner == some (a 0)) busyTarget
  return (s.modPart (a 0) fun p => { p with routes := tput 0 (a 1) (arg64 a 2) p.routes }, [])

/-- ROUTE_SET. -/
def execRouteSet (link : Nat) (s : State) : Host.Outcome State Fault Refusal := runStep (runCommand 0x5 none routeSet link) s

/-- EVPORT_SET (R60, R82). (DESIGN CHOICE: log entry 54) -/
def evportSet : Command := fun _ a s => do
  need (decide (a 0 < 2) && decide (a 1 < 512) && (decide (a 2 < 16) || a 2 == 0xFF) && decide (a 3 < 2 ^ 20)) badArgument
  let po := s.port (a 0) (a 1)
  if a 2 = 0xFF then return (s.setPort (a 0) (a 1) { po with en := false, part := 0, pasid := 0, window := none, pendCount := 0 }, [])
  else
    let _ ← needPartition s (a 2)
    need (!po.en || po.part == a 2) busyTarget
    return (s.setPort (a 0) (a 1) { po with en := true, part := a 2, pasid := a 3 }, [])

/-- EVPORT_SET. -/
def execEvportSet (link : Nat) (s : State) : Host.Outcome State Fault Refusal := runStep (runCommand 0x6 none evportSet link) s

/-- An open stream of any partition. -/
def State.openStream (s : State) (sid : Nat) : Option Stream := s.parts.findSome? fun (_, p) => tget? sid p.streams

/-- Whether a partition holds a stream id: a system stream's, or an assigned one (R74, R81). -/
def Part.holds (p : Part) (part sid : Nat) : Bool := isSystemStream part sid || p.assigned.contains sid

/-- SLOT_SET (R61). -/
def slotSet : Command := fun _ a s => do
  let d := a 3
  let map := bit d 31
  let w := bit d 30
  let irq := bit d 29
  let sid := bits d 15 12
  let k := bits d 0 10
  let timed := (s.openStream sid).elim false (·.timed)
  need (decide (a 0 < 2) && decide (a 1 < 512) && decide (a 2 < 64) && bits d 27 2 == 0 && bits d 10 5 == 0 &&
    !(map && w && timed)) badArgument
  let po := s.port (a 0) (a 1)
  need po.en noTarget
  let holds := (s.part? po.part).elim false fun p => p.holds po.part sid
  let entry := tget ((s.links[a 0]?).elim [] (·.remaps)) k Remap.new
  need (!map || (holds && (!irq || entry.part == po.part))) busyTarget
  return (s.modSlot (a 0) (a 1) (a 2) fun sl => { sl with map := map, w := w, irq := irq, stream := sid, ridx := k }, [])

/-- SLOT_SET. -/
def execSlotSet (link : Nat) (s : State) : Host.Outcome State Fault Refusal := runStep (runCommand 0x7 none slotSet link) s

/-- REMAP_SET: PEND is kept, and an owed message may leave at once (R70). -/
def remapSet : Command := fun _ a s => do
  let v := arg64 a 2
  need (decide (a 0 < 2) && decide (a 1 < 1024) && bits v 54 3 == 0 && bits v 0 16 == 0) badArgument
  let s := s.modLink (a 0) fun l =>
    let e := tget l.remaps (a 1) Remap.new
    { l with remaps := tset (a 1) { e with v := bit v 63, mask := bit v 62, part := bits v 57 4, vec := bits v 48 6,
                                           mod := bits v 32 16, cls := bits v 16 16 } l.remaps }
  return (remapTick (a 0) (a 1) s, [])

/-- REMAP_SET. -/
def execRemapSet (link : Nat) (s : State) : Host.Outcome State Fault Refusal := runStep (runCommand 0x8 none remapSet link) s

/-- STREAM_ASSIGN (R82): a released stream is closed (R111). -/
def streamAssign : Command := fun _ a s => do
  need (decide (a 0 < 16) && decide (a 1 < 2 ^ 12) && decide (a 2 < 2)) badArgument
  let p ← needPartition s (a 0)
  if a 2 = 0 then
    need (s.parts.all fun (n, q) => n == a 0 || !q.holds n (a 1)) busyTarget
    if p.holds (a 0) (a 1) then return (s, [])
    else return (s.modPart (a 0) fun p => { p with assigned := insertNat (a 1) p.assigned }, [])
  else
    need (p.holds (a 0) (a 1)) noTarget
    need (!isSystemStream (a 0) (a 1)) busyTarget
    return ((s.closeStream (a 0) (a 1)).modPart (a 0) fun p => { p with assigned := p.assigned.filter (· != a 1) }, [])

/-- STREAM_ASSIGN. -/
def execStreamAssign (link : Nat) (s : State) : Host.Outcome State Fault Refusal := runStep (runCommand 0x9 none streamAssign link) s

/-! Contexts. -/

/-- PASID_ADD: the PASID is held, and live again (R68). -/
def pasidAdd : Command := fun _ a s => do
  need (decide (a 0 < 16) && decide (a 1 < 2 ^ 20)) badArgument
  let _ ← needPartition s (a 0)
  let k := ctxKey (a 0) (a 1)
  let s := { s with ctxs := tset k (tget s.ctxs k Ctx.new) s.ctxs }
  return (s.modPart (a 0) fun p =>
    { p with pasids := insertNat (a 1) p.pasids, revoked := p.revoked.filter (· != a 1) }, [])

/-- PASID_ADD. -/
def execPasidAdd (link : Nat) (s : State) : Host.Outcome State Fault Refusal := runStep (runCommand 0xA none pasidAdd link) s

/-- PASID_REVOKE (R68). (DESIGN CHOICE: log entry 54) -/
def pasidRevoke : Command := fun _ a s => do
  need (decide (a 0 < 16) && decide (a 1 < 2 ^ 20)) badArgument
  let _ ← needPartition s (a 0)
  return (s.modPart (a 0) fun p =>
    { p with pasids := p.pasids.filter (· != a 1), revoked := insertNat (a 1) p.revoked }, [])

/-- PASID_REVOKE. -/
def execPasidRevoke (link : Nat) (s : State) : Host.Outcome State Fault Refusal := runStep (runCommand 0xB none pasidRevoke link) s

/-- ENERGY_SET (R38). (DEDUCED: log entry 39) -/
def energySet : Command := fun _ a s => do
  need (decide (a 0 < 16) && decide (a 1 < 2 ^ 20)) badArgument
  let p ← needPartition s (a 0)
  need (p.pasids.contains (a 1)) noTarget
  let k := ctxKey (a 0) (a 1)
  return ({ s with ctxs := tset k { tget s.ctxs k Ctx.new with budget := some (arg64 a 2) } s.ctxs }, [])

/-- ENERGY_SET. -/
def execEnergySet (link : Nat) (s : State) : Host.Outcome State Fault Refusal := runStep (runCommand 0x13 none energySet link) s

/-! Keys and ranges. -/

/-- Whether a command's link is protected (R82). -/
def State.linkIde (s : State) (link : Nat) : Bool := (s.links[link]?).elim false (·.ide)

/-- KEY_SET: 16 words, the data key and then the tweak key (R82). -/
def keySet : Command := fun link a s => do
  need (decide (a 0 < 16) && decide (1 ≤ a 1) && decide (a 1 < 4096)) badArgument
  let _ ← needPartition s (a 0)
  need (s.linkIde link) badWorld
  need ((tget? (a 1) s.fw.keys).all fun k => k.1 == a 0) busyTarget
  let ws := (List.range 16).map fun k => BitVec.ofNat 32 (a (2 + k))
  return ({ s with fw := { s.fw with keys := tset (a 1) (a 0, ws) s.fw.keys } }, [])

/-- KEY_SET. -/
def execKeySet (link : Nat) (s : State) : Host.Outcome State Fault Refusal := runStep (runCommand 0xC none keySet link) s

/-- KEY_CLEAR. -/
def keyClear : Command := fun link a s => do
  need (decide (1 ≤ a 0) && decide (a 0 < 4096)) badArgument
  need (thas (a 0) s.fw.keys) noTarget
  need (s.linkIde link) badWorld
  return ({ s with fw := { s.fw with keys := terase (a 0) s.fw.keys } }, [])

/-- KEY_CLEAR. -/
def execKeyClear (link : Nat) (s : State) : Host.Outcome State Fault Refusal := runStep (runCommand 0xD none keyClear link) s

/-- A range entry of eight words (R178). -/
def rangeOf (w : Nat → Nat) : Range :=
  let f := w 6
  ⟨bit (w 1) 31, pair64 (w 0) (w 1) / 2 ^ 16 % 2 ^ 40, pair64 (w 2) (w 3) / 2 ^ 16 % 2 ^ 40,
   pair64 (w 4) (w 5) / 2 ^ 16 % 2 ^ 40, bit f 31, bit f 30, bit f 29, bit f 28, bit f 27, b2n (bit f 26), bit f 25, bits f 0 12⟩

/-- Whether the zero fields of an entry's words are zero. -/
def rangeClean (w : Nat → Nat) : Bool :=
  bits (w 1) 24 7 == 0 && bits (w 0) 0 16 == 0 && bits (w 3) 24 8 == 0 && bits (w 2) 0 16 == 0 && bits (w 5) 24 8 == 0 &&
  bits (w 4) 0 16 == 0 && bits (w 6) 12 13 == 0 && w 7 == 0

/-- Whether an entry's own fields fit: its order, and the end of HBM or host memory (R178, R179). -/
def rangeSpan (r : Range) : Bool :=
  let n := r.glast - r.gbase
  decide (r.gbase ≤ r.glast) && decide (r.hbase + n < 2 ^ 40) && (r.host || decide (r.hbase + n < 2 ^ 24))

/-- Whether an entry's key id is 0 or names a key set for the partition (R82, R178). -/
def rangeKeyed (s : State) (part : Nat) (r : Range) : Bool := r.key == 0 || (tget? r.key s.fw.keys).any fun k => k.1 == part

/-- Whether a valid entry fits a partition, its other entries apart: its span, its stacks, its key (R178, R179). -/
def rangeFits (s : State) (part : Nat) (p : Part) (r : Range) : Bool :=
  rangeSpan r && rangeKeyed s part r && (r.host || (List.range 16).all fun q => p.quarters.contains q || !r.reaches q)

/-- RANGE_SET: the entry, the next generation, and the regions that the old entry served. What is wrong with the arguments
alone is found before the partition is (R80, R82, R178, R181). (DEDUCED: log entry 39) -/
def rangeSet : Command := fun _ a s => do
  let w := fun k => a (2 + k)
  let r := rangeOf w
  need (decide (a 0 < 16) && decide (a 1 < 48) && rangeClean w && rangeKeyed s (a 0) r && (!r.valid || rangeSpan r)) badArgument
  let p ← needPartition s (a 0)
  let apart := p.ranges.zipIdx.all fun (o, k) =>
    k == a 1 || !o.valid || decide (r.glast < o.gbase) || decide (o.glast < r.gbase)
  need (!r.valid || (rangeFits s (a 0) p r && apart)) badArgument
  let s := s.putRange (a 0) (a 1) r
  return (s, [(s.part? (a 0)).elim 0 (·.rangeGen)])

/-- RANGE_SET. -/
def execRangeSet (link : Nat) (s : State) : Host.Outcome State Fault Refusal := runStep (runCommand 0xE none rangeSet link) s

/-- Whether a block is assigned: a quarter or Delow port to a partition, an event port enabled (R76). -/
def State.blockAssigned (s : State) (kind k : Nat) : Bool :=
  match kind with
  | 0 => s.ownedQuarters.contains k
  | 1 => (s.dport k).owner.isSome
  | _ => (s.port (k / 512) (k % 512)).en

/-- SET_WORLD: only while the block is unassigned (R76). (DEDUCED: log entry 39) -/
def setWorld : Command := fun _ a s => do
  let limit := match a 0 with
    | 0 => 16 | 1 => 64 | _ => 1024
  need (decide (a 0 < 3) && decide (a 1 < limit) && decide (a 2 < 2)) badArgument
  need (!s.blockAssigned (a 0) (a 1)) busyTarget
  let rest := s.fw.secure.filter (· != (a 0, a 1))
  return ({ s with fw := { s.fw with secure := if a 2 = 1 then rest ++ [(a 0, a 1)] else rest } }, [])

/-- SET_WORLD. -/
def execSetWorld (link : Nat) (s : State) : Host.Outcome State Fault Refusal := runStep (runCommand 0xF none setWorld link) s

/-! Quotes and patches (R78, R83). -/

/-- The values that a quote's configuration covers: quarters, worlds, ports, slots, routes, ranges, remap (R83, R308). -/
def State.configValues (s : State) (part : Nat) : List Nat :=
  match s.part? part with
  | none => []
  | some p =>
    p.quarters ++ (s.fw.secure.flatMap fun (k, n) => [k, n]) ++
    (s.dports.filterMap fun (n, d) => if d.owner = some part then some n else none) ++
    (s.links.zipIdx.flatMap fun (l, k) => (l.ports.filter fun (_, po) => po.en && po.part == part).flatMap fun (n, po) =>
      [k, n, po.pasid] ++ po.slots.flatMap fun (i, sl) => [i, b2n sl.map, b2n sl.w, b2n sl.irq, sl.stream, sl.ridx]) ++
    (p.routes.flatMap fun (k, m) => [k, m]) ++
    (p.ranges.flatMap fun r => [b2n r.valid, r.gbase, r.glast, r.hbase, b2n r.gr, b2n r.gw, b2n r.gx, b2n r.sec, b2n r.host,
      r.link, b2n r.ats, r.key]) ++
    p.remapTable

/-- A digest of 32 bytes by index. -/
def bytes32 (f : Nat → Byte) : List Byte := (List.range 32).map f

/-- Bytes 0 to 199 of a quote (R83). -/
def quoteBody (s : State) (a : Nat → Nat) : List Byte :=
  let values := if a 0 = 0xFF then (tkeys s.parts).flatMap s.configValues else s.configValues (a 0)
  ((List.range 8).flatMap fun k => leBytes 4 (a (1 + k))) ++ bytes32 (Config.fusedDigest 0) ++
  (match s.fw.running with
    | none => List.replicate 32 0
    | some (_, bs) => sha256Bytes bs) ++
  leBytes 4 s.fw.fusedLevel ++ leBytes 4 (a 0) ++ bytes32 (Config.configDigest values) ++ bytes32 (Config.fusedDigest 1) ++
  bytes32 (Config.fusedDigest 2)

/-- QUOTE: 8056 bytes written to the host by the link of the mailbox. -/
def quote : Command := fun link a s => do
  need (decide (a 0 < 16) || a 0 == 0xFF) badArgument
  if a 0 = 0xFF then pure () else let _ ← needPartition s (a 0)
  let body := quoteBody s a
  let bs := body ++ (List.range 7856).map (Config.quoteSignature body)
  return (s.writeNow none 0 (hostAddr link (arg64 a 9 % 2 ^ 56)) bs false, [8056])

/-- QUOTE. -/
def execQuote (link : Nat) (s : State) : Host.Outcome State Fault Refusal := runStep (runCommand 0x11 none quote link) s

/-- The read requests for bytes of host memory: none crosses 4096 bytes (R41). -/
def hostBlocks (a n : Nat) : List (Nat × Nat) :=
  (List.range (n / 4096 + 2)).filterMap fun k =>
    let lo := max a ((a / 4096 + k) * 4096)
    let hi := min (a + n) ((a / 4096 + k + 1) * 4096)
    if lo < hi then some (lo, hi - lo) else none

/-- The blocks of a patch's image that have not returned to firmware (R83). -/
def State.patchNeeds (s : State) (link : Nat) : List (Nat × Nat) :=
  match s.links[link]? with
  | none => []
  | some l =>
    let arg := fun k => (l.mailbox.args.getD k 0).toNat
    if arg 2 = 0 || 2 ^ 20 < arg 2 then []
    else (hostBlocks (hostAddr link (arg64 arg 0 % 2 ^ 56)) (arg 2)).filter fun b => (s.returnedTo .ring b.1).isNone

/-- PATCH: the image that has been read from host memory is kept when its signature and level are good (R78). (DEDUCED: log entry 39) -/
def patchCmd : Command := fun link a s => do
  need (decide (1 ≤ a 2) && decide (a 2 ≤ 2 ^ 20)) badArgument
  let phys := hostAddr link (arg64 a 0 % 2 ^ 56)
  let bs := memBytes s.mem phys (a 2)
  let level := Config.patchLevel bs
  need (!(hostBlocks phys (a 2)).any fun b => (s.returnedTo .ring b.1).getD false) badSignature
  need (Config.signatureHolds bs && decide (s.fw.fusedLevel ≤ level)) badSignature
  return ({ s with fw := { s.fw with patch := some (level, bs), fusedLevel := max s.fw.fusedLevel level } }, [level])

/-- The image is asked for, without a PASID, until it is there (R42, R83). -/
def patchStep (link : Nat) (s : State) : State :=
  let mine := s.fw.available && s.firmwareTurn link && (s.links[link]?).any fun l => l.mailbox.opcode = 0x12
  match mine, s.patchNeeds link with
  | true, b :: bs => (b :: bs).foldl (fun s x => s.askHost .ring none 0 0 x.1 x.2) s
  | _, _ => (runCommand 0x12 none patchCmd link s).dropReturned .ring

/-- PATCH. -/
def execPatch (link : Nat) (s : State) : Host.Outcome State Fault Refusal := runStep (patchStep link) s

/-! Replicas and information. -/

/-- REPLICA_SET: for a deterministic partition only (R88). (DEDUCED: log entry 39) -/
def replicaSet : Command := fun _ a s => do
  need (decide (a 0 < 16) && decide (a 1 < 1024) && decide (a 2 < 16)) badArgument
  need ((s.part? (a 0)).all fun p => p.det.isSome) badArgument
  let _ ← needPartition s (a 0)
  let r : Replica := ⟨a 1, a 2, a 3, arg64 a 4, a 6, 0, [], []⟩
  return (s.modPart (a 0) fun p => { p with replica := some r }, [])

/-- REPLICA_SET. -/
def execReplicaSet (link : Nat) (s : State) : Host.Outcome State Fault Refusal := runStep (runCommand 0x14 none replicaSet link) s

/-- INFO. -/
def infoCmd : Command := fun _ _ s =>
  .ok (s, [s.fw.packageId, s.fw.fusedLevel, quarterMask (tkeys s.parts),
    quarterMask ((List.range 16).filter fun q => !s.ownedQuarters.contains q)])

/-- INFO. -/
def execInfo (link : Nat) (s : State) : Host.Outcome State Fault Refusal := runStep (runCommand 0x15 none infoCmd link) s

/-- The twin's digest arrives: compared with the oldest own step that waits, else kept for the step to come (R88). -/
def replicaDigest (part digest : Nat) (s : State) : State :=
  match (s.part? part).bind (·.replica) with
  | none => s
  | some r =>
    match r.own with
    | [] => s.modPart part fun p => { p with replica := some { r with early := r.early ++ [digest] } }
    | (own, _) :: _ =>
      let s := s.modPart part fun p => { p with replica := some r.oldest.2 }
      if own = digest then s else s.replicaHalt part r.oldest.1 (digestWords own) (digestWords digest) 1

/-- REPLICA_DIGEST_ARRIVAL. -/
def execReplicaDigestArrival (part digest : Nat) (s : State) : Host.Outcome State Fault Refusal :=
  runStep (replicaDigest part digest) s

/-- The twin's digest has not arrived in time (R88). -/
def replicaTimeout (part : Nat) (s : State) : State :=
  match (s.part? part).bind (·.replica) with
  | none => s
  | some r =>
    match r.own with
    | [] => s
    | (own, until_) :: _ =>
      if s.timer < until_ then s
      else (s.modPart part fun p => { p with replica := some r.oldest.2 }).replicaHalt part r.oldest.1 (digestWords own) [] 2

/-- REPLICA_TIMEOUT. -/
def execReplicaTimeout (part : Nat) (s : State) : Host.Outcome State Fault Refusal := runStep (replicaTimeout part) s

end Sys2Proof.Machine
end

