-- ==== Sys2Proof/Machine/Resets.lean ====
section
/-! DEFINITION. RESET and its scopes, errors and their containment, and the recovery of a match engine (R85 to R87, R130,
R309). -/

namespace Sys2Proof.Machine

/-- The code of a reset's record (R328). -/
def resetCode : Nat := 0x26

/-- A group by its number, with its key. -/
def State.groupOf (s : State) (uid : Nat) : Option (Nat × Group) := s.everyGroup.find? fun (_, g) => g.uid == uid

/-- The PC of an engine operation of the group at a key, where one is in flight. -/
def State.opPc (s : State) (key : Nat) : Option Nat :=
  ((s.bulks.filter fun (_, b) => b.group == key).map (·.2.pc) ++ (s.mmabs.filter fun (_, m) => m.group == key).map (·.2.pc) ++
    (s.colls.filter fun (_, c) => c.group == key).map (·.2.pc)).head?

/-- The task of a group ended by a reset, once (R86). Where the reset abandons an engine operation of the task, the record
has ENG and the PC of the instruction that issued it (R235, R253). (DEDUCED: log entry 38) -/
def State.resetTask (s : State) (scope target uid : Nat) : State × Nat :=
  match s.groupOf uid with
  | none => (s, 0)
  | some (key, g) =>
    match (s.taskGroups key g).findSome? fun (k, h) => (s.opPc k).map fun pc => (k, h, pc) with
    | some (k, h, pc) => (s.taskFault k h ⟨resetCode, 0, 0, scope, target, engFlag⟩ pc, 1)
    | none => (s.taskFault key g ⟨resetCode, 0, 0, scope, target, 0⟩ (g.lane (lowLane g.live)).pc, 1)

/-- Tasks of several groups ended. -/
def State.resetTasks (s : State) (scope target : Nat) (uids : List Nat) : State × Nat :=
  uids.foldl (fun (r : State × Nat) u =>
    let (s, n) := r.1.resetTask scope target u
    (s, r.2 + n)) (s, 0)

/-- The record of a queued task that a reset ends: its start PC, and no lanes. -/
def taskRecord (t : Task) (v scope target : Nat) : List Nat :=
  [resetCode * 2 ^ 24 + t.pasid, t.job, (if t.kind = .team then t.sub * 2 ^ 16 else 0) + kindNum t.kind * 2 ^ 14 + v, 0,
   lo32 t.pc, hi32 t.pc, scope, target, lo32 t.lid, hi32 t.lid, 0, 0]

/-- Queued tasks that a test names ended by a reset (R86, R137). -/
def State.resetQueued (s : State) (part scope target : Nat) (test : Nat → Task → Bool) : State × Nat :=
  let hit := (s.cores.filter fun (k, _) => partOfCore k == part).flatMap fun (k, c) =>
    (c.queue.filter (test k)).map fun t => (k, t)
  let s := hit.foldl (fun s (k, _) => s.modCore k fun c => { c with queue := c.queue.filter fun t => !test k t }) s
  (hit.foldl (fun s (k, t) =>
    (s.dropTask part t).postDue part t.uid faultStream 0x0008 (taskRecord t (vcoreOf k) scope target)) s, hit.length)

/-- A reservation that no longer stands: what its cores set aside is free again (R144). -/
def State.unreserve (s : State) (part : Nat) (r : Reservation) : State :=
  let without := fun (c : CoreSt) =>
    { c with granted := c.granted.filter (· != (r.grid, r.cluster)), requests := c.requests.filter (· != (r.grid, r.cluster)) }
  let cores := s.cores.map fun (k, c) => (k, if partOfCore k = part then without c else c)
  let s := { s with cores := cores }
  s.modPart part fun p => { p with reservations := p.reservations.filter (· != r) }

/-- Reservations with a core that a test names ended. -/
def State.unreserveAt (s : State) (part : Nat) (test : Nat → Bool) : State :=
  match s.part? part with
  | none => s
  | some p => (p.reservations.filter fun r => r.granted.any test || r.asked.any test).foldl (fun s r => s.unreserve part r) s

/-- Cores reset: their groups, evicted ones too, and their queues (R86). -/
def State.resetCores (s : State) (part scope target : Nat) (cks : List Nat) : State × Nat :=
  let (s, n) := s.resetTasks scope target ((s.everyGroup.filter fun (k, _) => cks.contains (coreOf k)).map fun (_, g) => g.uid)
  let s := s.unreserveAt part cks.contains
  let (s, m) := s.resetQueued part scope target fun k _ => cks.contains k
  (s, n + m)

/-- The candidates of an engine. -/
def State.engineCands (s : State) (q : Nat) : Nat := ((s.engine q).slots.map fun (_, a) => a.cands.length).foldl (· + ·) 0

/-- An engine's candidates and waiting outputs dropped (R86, R87). -/
def State.dropEngine (s : State) (q : Nat) : State × Nat :=
  let n := s.engineCands q
  let e := s.engine q
  ((s.setEngine q { e with out := [], spill := [] }).recoverEngine q true, n)

/-- A reset's completion event (R86). -/
def State.resetDone (s : State) (part scope target tasks cands : Nat) : State × List Nat :=
  (s.sysPost part errStream 0x0019 [scope, target, tasks, cands], [tasks, cands])

/-- The arguments of RESET: partition in range and present, flags that the scope has. -/
def resetArgs (a : Nat → Nat) (s : State) (flags : Nat) (ok : Bool) : Except Nat Part := do
  need (decide (a 1 < 16) && a 3 &&& flags == a 3 && ok) badArgument
  needPartition s (a 1)

/-- Whether a group waits under R188, or has an engine operation in flight: a reset of it ends its task as faulted (R192,
R235, R253). -/
def State.endsTask (s : State) (key : Nat) (g : Group) : Bool :=
  (s.opPc key).isSome || (match g.halt with
    | .aborted _ => true
    | _ => false)

/-- Scope 0: one group. A team's other groups go on, and the team's task with them, unless the group's reset ends the task
as faulted; a task of this one group ends. (DEDUCED: log entry 38) -/
def resetGroup : Command := fun _ a s => do
  let _ ← resetArgs a s 0 (decide (a 2 < 256 * 48))
  let key := a 1 * 256 * 48 + a 2
  match s.anyGroup key with
  | none => .error noTarget
  | some g =>
    let siblings := g.kind == .team && (s.teamOf g).any (fun t => decide (1 < t.open_)) && !s.endsTask key g
    let (s, n) := if siblings then
        let s := (s.removeGroup key g).modTeam (g.team.getD 0) fun t => { t with open_ := t.open_ - 1 }
        (s.barriers g.team, 0)
      else s.resetTask 0 (a 2) g.uid
    return s.resetDone (a 1) 0 (a 2) n 0

/-- RESET_GROUP. -/
def execResetGroup (link : Nat) (s : State) : Host.Outcome State Fault Refusal :=
  runStep (runCommand 0x10 (some 0) resetGroup link) s

/-- Scope 1: the oldest team of a virtual core, with its pool's tasks (R289). (DEDUCED: log entry 38) -/
def resetTeam : Command := fun _ a s => do
  let p ← resetArgs a s 0 (decide (a 2 < 256))
  need (decide (a 2 < 16 * p.quarters.length)) noTarget
  match s.teams.find? fun (_, t) => t.part == a 1 && t.core == a 2 with
  | none => .error noTarget
  | some (serial, _) =>
    let (s, n) := s.resetTasks 1 (a 2) ((s.everyGroup.filter fun (_, g) => g.team == some serial).map fun (_, g) => g.uid)
    let (s, m) := s.resetQueued (a 1) 1 (a 2) fun _ t => t.team == some serial
    return s.resetDone (a 1) 1 (a 2) (n + m) 0

/-- RESET_TEAM. -/
def execResetTeam (link : Nat) (s : State) : Host.Outcome State Fault Refusal :=
  runStep (runCommand 0x10 (some 1) resetTeam link) s

/-- The logical index at a virtual core's own position. -/
def Part.ownHost (p : Part) (v : Nat) : Nat :=
  let (col, row) := p.posOf v
  16 * row + col

/-- The host that takes a retired one's virtual cores: live, of the same die and partition, with the fewest virtual cores,
ties to the lowest (R309). (DEDUCED: log entry 47) -/
def Part.newHost (p : Part) (v : Nat) : Option Nat :=
  let h := p.hostOf v
  let hosts := (p.vcores.filter fun u => dieOf (p.quarterOf u) == dieOf (p.quarterOf v)).map p.ownHost
  let live := (List.range 256).filter fun x => hosts.contains x && x != h && !p.retired.contains x
  let load := fun (x : Nat) => (p.vcores.filter fun u => p.hostOf u == x).length
  match live with
  | [] => none
  | x :: xs => some (xs.foldl (fun b y => if load y < load b then y else b) x)

/-- A virtual core's host retired (R309). (DEDUCED: log entry 47) -/
def retireHost (part : Nat) (p : Part) (v : Nat) (s : State) : Except Nat State := do
  need p.det.isSome badArgument
  match p.newHost v with
  | none => .error busyTarget
  | some x =>
    let h := p.hostOf v
    let moved := p.vcores.filter fun u => p.hostOf u == h
    return s.modPart part fun p =>
      { p with remap := moved.foldl (fun t u => tset u x t) p.remap, retired := insertNat h p.retired }

/-- Scope 2: one core, or the retirement of its host. (DEDUCED: log entry 38) -/
def resetCore : Command := fun _ a s => do
  let p ← resetArgs a s 2 (decide (a 2 < 256) && (!bit (a 3) 1 || ((s.part? (a 1)).all fun p => p.det.isSome)))
  need (decide (a 2 < 16 * p.quarters.length)) noTarget
  if bit (a 3) 1 then
    let s ← retireHost (a 1) p (a 2) s
    return s.resetDone (a 1) 2 (a 2) 0 0
  else
    let (s, n) := s.resetCores (a 1) 2 (a 2) [a 1 * 256 + a 2]
    return s.resetDone (a 1) 2 (a 2) n 0

/-- RESET_CORE. -/
def execResetCore (link : Nat) (s : State) : Host.Outcome State Fault Refusal :=
  runStep (runCommand 0x10 (some 2) resetCore link) s

/-- Launches that a reset overtakes are dropped with the candidates, and the counts that they raised fall: those that a test
names. Teams of an admitted grid that have no place yet end at the cores that a second test names (R87). -/
def State.dropLaunches (s : State) (part scope target : Nat) (mine : Launch → Bool) (here : Nat → Bool) : State × Nat :=
  match s.part? part with
  | none => (s, 0)
  | some p =>
    let waiting := p.launches.filter mine ++ (p.det.elim [] fun d => (d.admits.map fun x => x.2.2.2.2).filter mine)
    let placed := p.placing.bind fun (g, ts) => (tget? g p.grids).map fun grid => (g, grid, ts)
    let gone := placed.elim [] fun (_, g, ts) => ts.filter fun i => here (g.map.getD i 0)
    let s := s.modPart part fun p =>
      { p with launches := p.launches.filter (!mine ·)
               placing := placed.bind fun (k, _, ts) =>
                 let left := ts.filter (!gone.contains ·)
                 if left.isEmpty then none else some (k, left)
               det := p.det.map fun d => { d with admits := d.admits.filter fun x => !mine x.2.2.2.2 } }
    let s := waiting.foldl (fun s l => (s.modJob part l.job fun j => { j with count := j.count - 1 }).jobCheck part l.job) s
    match placed with
    | none => (s, 0)
    | some (k, g, _) =>
      (gone.foldl (fun s i =>
        let t : Task := ⟨.team, g.entry, g.args, g.job, g.prio, true, k, i, none, 0, 0, g.pasid, 0, g.uid + i * g.groups, none⟩
        (s.dropTask part t).postDue part t.uid faultStream 0x0008 (taskRecord t (g.map.getD i 0) scope target)) s, gone.length)

/-- Scope 3: the cores of a quarter, and its match engine, with the accepts that it has made and the reset overtakes (R87).
(DEDUCED: log entry 38) (DEDUCED: log entry 38) -/
def resetQuarter : Command := fun _ a s => do
  let p ← resetArgs a s 0 (decide (a 2 < 16))
  need (p.quarters.contains (a 2)) noTarget
  let cks := (p.vcores.filter fun v => p.quarterOf v == a 2).map (a 1 * 256 + ·)
  let (s, n) := s.resetCores (a 1) 3 (a 2) cks
  let (s, m) := s.dropLaunches (a 1) 3 (a 2) (fun l => l.quarter == a 2) fun v => cks.contains (a 1 * 256 + v)
  let (s, c) := s.dropEngine (a 2)
  return s.resetDone (a 1) 3 (a 2) (n + m) c

/-- RESET_QUARTER. -/
def execResetQuarter (link : Nat) (s : State) : Host.Outcome State Fault Refusal :=
  runStep (runCommand 0x10 (some 3) resetQuarter link) s

/-- Scope 4: all work and candidates of the partition, and the root automaton anew (R71, R88). (DEDUCED: log entry 38) -/
def resetPartition : Command := fun _ a s => do
  let part := a 1
  let p ← resetArgs a s 0 true
  let (s, n) := s.resetCores part 4 (a 2) (p.vcores.map (part * 256 + ·))
  let (s, m) := s.dropLaunches part 4 (a 2) (fun _ => true) fun _ => true
  let (s, c) := p.quarters.foldl (fun (r : State × Nat) q =>
    let (s, c) := r.1.dropEngine q
    (s, r.2 + c)) (s, 0)
  let s := s.modPart part fun p =>
    { p with windows := [], pending := [], retries := [], reservations := [], halted := false }
  let e := s.engine p.home
  let s := (s.setEngine p.home { e with slots := terase 0 e.slots }).installRoot part p.home
  return s.resetDone part 4 (a 2) (n + m) c

/-- RESET_PARTITION. -/
def execResetPartition (link : Nat) (s : State) : Host.Outcome State Fault Refusal :=
  runStep (runCommand 0x10 (some 4) resetPartition link) s

/-- Scope 5: a match engine restored from its frames; flags bit 0 drops its candidates (R130). -/
def resetMatchEngine : Command := fun _ a s => do
  let p ← resetArgs a s 1 (decide (a 2 < 16))
  need (p.quarters.contains (a 2)) noTarget
  let drop := bit (a 3) 0
  let n := if drop then s.engineCands (a 2) else 0
  return (s.recoverEngine (a 2) drop).resetDone (a 1) 5 (a 2) 0 n

/-- RESET_MATCH_ENGINE. -/
def execResetMatchEngine (link : Nat) (s : State) : Host.Outcome State Fault Refusal :=
  runStep (runCommand 0x10 (some 5) resetMatchEngine link) s

/-- Scope 6: a Delow port of the partition (R51). -/
def resetDelowPort : Command := fun _ a s => do
  let _ ← resetArgs a s 0 (decide (a 2 < 64))
  need ((s.dport (a 2)).owner == some (a 1)) busyTarget
  return (s.portReset (a 2)).resetDone (a 1) 6 (a 2) 0 0

/-- RESET_DELOW_PORT. -/
def execResetDelowPort (link : Nat) (s : State) : Host.Outcome State Fault Refusal :=
  runStep (runCommand 0x10 (some 6) resetDelowPort link) s

/-- Scope 7: a PCIe function (R45). While PERST_N of its link is asserted it is being reset already (R87). -/
def resetPcieFunction : Command := fun _ a s => do
  let _ ← resetArgs a s 0 (decide (a 2 < 2))
  need (s.power.released.getD (a 2) true) busyTarget
  return (functionReset (a 2) s).resetDone (a 1) 7 (a 2) 0 0

/-- RESET_PCIE_FUNCTION. -/
def execResetPcieFunction (link : Nat) (s : State) : Host.Outcome State Fault Refusal :=
  runStep (runCommand 0x10 (some 7) resetPcieFunction link) s

/-! Errors (R84, R85). -/

/-- The partition that owns what an error strikes: a quarter's, a Delow port's, or those with event ports on a link, whose
number stands above 64. -/
def State.errorOwners (s : State) (cls target : Nat) : List Nat :=
  match cls with
  | 4 => if target < 64 then (s.dport target).owner.toList else (s.links[target - 64]?).elim [] Link.parts
  | 5 => if (s.part? target).isSome then [target] else []
  | _ => (s.partOfQuarter target).toList

/-- The key of a location's count of corrected errors. -/
def locKey (cls target loc : Nat) : Nat := cls * 2 ^ 80 + target * 2 ^ 72 + loc

/-- A match engine's state error: every automaton of the engine is restored (R85, R130). -/
def engineError (q : Nat) (s : State) : State :=
  match s.partOfQuarter q with
  | none => s
  | some part => (s.recoverEngine q false).sysPost part errStream 0x0016 [3, q, 0, 0, tget s.corrected (locKey 3 q 0) 0]

/-- MATCH_ENGINE_STATE_ERROR. -/
def execMatchEngineStateError (quarter : Nat) (s : State) : Host.Outcome State Fault Refusal := runStep (engineError quarter) s

/-- A corrected error counts at its location, saturating (R85). -/
def correctedError (cls target loc : Nat) (s : State) : State :=
  let k := locKey cls target loc
  { s with corrected := tset k (satInc (tget s.corrected k 0)) s.corrected }

/-- CORRECTED_ERROR. -/
def execCorrectedError (cls target loc : Nat) (s : State) : Host.Outcome State Fault Refusal :=
  runStep (correctedError cls target loc) s

/-- A register of a group poisoned in a lane: location bits [63:32] hold the group key, [31:16] the register's operand
field, [15:0] the lane. -/
def State.poisonReg (s : State) (loc : Nat) : State :=
  let i := loc % 2 ^ 16
  let o := regField (loc / 2 ^ 16 % 2 ^ 16)
  s.modGroup (loc / 2 ^ 32) fun g =>
    match o with
    | .p k => if k = 0 then g else g.setLane i fun l => { l with p := tput PReg.f k { l.pred k with pois := true } l.p }
    | o => setReg g i o 0 { regOf g i o 0 with pois := true }

/-- The address of the 128-byte line of a physical address, as software names it where a window shows it (R168, R169). -/
def State.lineAddress (s : State) (phys : Nat) : Nat :=
  if isLocal phys then
    let n := (phys - localBase) / 2 ^ 20
    localGeneric ((tget? n s.teams).elim 0 (·.core)) ((phys - localBase) % 2 ^ 20 / 128 * 128)
  else if isDieStore phys then 0xFD * 2 ^ 48 + (phys - dieStoreBase) / 128 * 128
  else phys / 128 * 128

/-- Words 1 to 3 of class 0x0016: the quarter, port or link, and the line's address or the register's index and lane (R85).
(DEDUCED: log entry 38) (DEDUCED: log entry 38) -/
def State.errorWords (s : State) (cls target loc : Nat) : List Nat :=
  let place := match cls with
    | 1 => if isLocal loc then [lo32 (s.lineAddress loc), hi32 (s.lineAddress loc)] else [loc / 2 ^ 16 % 2 ^ 16, loc % 2 ^ 16]
    | 2 => [lo32 (s.lineAddress loc), hi32 (s.lineAddress loc)]
    | _ => [0, 0]
  (if cls = 4 ∧ 64 ≤ target then target - 64 else target) :: place

/-- An uncorrectable error stays in its boundary and is reported (R84, R85). Class 1 poisons a register, or a word of local
store where the location is a physical address there; class 2 a line; class 3 restores an engine; class 4 retrains a Delow
port or resets a function; class 5 halts a partition, and from 16 on strikes the management core (R77). -/
def uncorrectable (cls target loc : Nat) (s : State) : State :=
  let owners := s.errorOwners cls target
  let s := match cls with
    | 1 => if isLocal loc then s.setPoison loc true else s.poisonReg loc
    | 2 => s.setPoison loc true
    | 3 => match s.partOfQuarter target with
      | none => s
      | some _ => s.recoverEngine target false
    | 4 => if target < 64 then s.modDport target fun d => { d with retraining := true } else functionReset (target - 64) s
    | 5 => if target < 16 then s.modPart target fun p => { p with halted := true }
      else { s with fw := { s.fw with available := false } }
    | _ => s
  owners.foldl (fun s p =>
    s.sysPost p errStream 0x0016 (cls :: s.errorWords cls target loc ++ [tget s.corrected (locKey cls target loc) 0])) s

/-- UNCORRECTABLE_ERROR. -/
def execUncorrectableError (cls target loc : Nat) (s : State) : Host.Outcome State Fault Refusal :=
  runStep (uncorrectable cls target loc) s

end Sys2Proof.Machine
end

