-- ==== Sys2Proof/Machine/Power.lean ====
section
/-! DEFINITION. The package's power, clock steps, timer and energy windows, and PERST_N (R28 to R40, R45, R77). -/

namespace Sys2Proof.Machine

/-- Whether the clocks run (R34, R40). (DEDUCED: log entry 10) -/
def State.clocksRun (s : State) : Bool := s.power.on && !s.power.thermtrip

/-- The power state changed. -/
def State.modPower (s : State) (f : Power → Power) : State := { s with power := f s.power }

/-! Rails and resets (R39, R40, R45, R77). -/

/-- The package without power: the ROM and the fuses alone are kept. What it has sent is not its state, and the counters
of numbers and free values are the model's own. -/
def State.unpowered (s : State) : State :=
  { State.reset with
    fw := { Firmware.new with available := false, fusedLevel := s.fw.fusedLevel }
    power := { Power.new with on := false, released := [false, false] }
    out := s.out, serial := s.serial, free := s.free }

/-- Whether every die boundary has a good spare for each lane that fails its check at reset (R48). -/
def lanesGood : Bool := (List.range 4).all fun k => decide (Config.failedLanes k ≤ Config.spareLanes k)

/-- The part starts, unless a die boundary has no good spare left: then no clock runs (R48). (DEDUCED: log entry 41) -/
def State.startPart (s : State) : State :=
  if lanesGood then s.startManagement else s.modPower fun p => { p with on := false }

/-- Steps 1 to 4 of the power-on sequence: the timer starts at zero, and PERST_N is asserted on both links. -/
def powerOn (s : State) : State :=
  if s.power.on then s
  else
    let s := s.unpowered
    (s.modPower fun p => { p with on := true }).startPart

/-- POWER_ON (R39). -/
def execPowerOn (s : State) : Host.Outcome State Fault Refusal := runStep powerOn s

/-- A rail leaves its tolerance: every piece of state is lost (R40). -/
def railFails (s : State) : State := (s.unpowered.modPower fun p => { p with pwrfail := true }).emit .pwrfail

/-- PWRFAIL. -/
def execPwrfail (s : State) : Host.Outcome State Fault Refusal := runStep railFails s

/-- PERST_N released or asserted on a link. -/
def State.setPerst (s : State) (link : Nat) (released : Bool) : State :=
  s.modPower fun p => { p with released := p.released.set link released }

/-- The whole part reset, its partitions ended: what stays are the fuses and the patch memory, the timer, memory, and the
state of the rails (R77, R35, R40). (DEDUCED: log entry 41) -/
def State.wholeReset (s : State) : State :=
  { State.reset with
    agenda := s.agenda, clock := s.clock, sub := s.sub, timer := s.timer, mem := s.mem, pois := s.pois
    fw := { Firmware.new with fusedLevel := s.fw.fusedLevel, patch := s.fw.patch }
    power := { Power.new with hottest := s.power.hottest, watts := s.power.watts, on := s.power.on
                              released := s.power.released, thermtrip := s.power.thermtrip, pwrfail := s.power.pwrfail }
    out := s.out, serial := s.serial, free := s.free }

/-- A release of PERST_N on link 0 that follows an assertion: every partition ends, the whole part is reset, and the
management core starts (R77). -/
def perstRelease0 (s : State) : State :=
  if s.power.released.getD 0 true then s
  else ((tkeys s.parts).foldl State.destroyPart (s.setPerst 0 true)).wholeReset.startPart

/-- PERST_N_RELEASE_LINK0. -/
def execPerstNReleaseLink0 (s : State) : Host.Outcome State Fault Refusal := runStep perstRelease0 s

/-- PERST_N asserted on link 0 resets that link's function (R77, R45). -/
def perstAssert0 (s : State) : State := functionReset 0 (s.setPerst 0 false)

/-- PERST_N_ASSERT_LINK0. -/
def execPerstNAssertLink0 (s : State) : Host.Outcome State Fault Refusal := runStep perstAssert0 s

/-- PERST_N on link 1 resets only that link's function (R45, R77). -/
def perst1 (low : Bool) (s : State) : State :=
  if low then functionReset 1 (s.setPerst 1 false) else s.setPerst 1 true

/-- PERST_N_LINK1. -/
def execPerstNLink1 (low : Bool) (s : State) : Host.Outcome State Fault Refusal := runStep (perst1 low) s

/-- A junction at 125 °C: THERMTRIP_N falls, and all clocks stop (R34). -/
def thermTrip (s : State) : State := (s.modPower fun p => { p with thermtrip := true }).emit .thermtrip

/-- THERMTRIP. -/
def execThermtrip (s : State) : Host.Outcome State Fault Refusal := runStep thermTrip s

/-! Clock steps (R31, R33). -/

/-- A change to a step begun for causes, unless the step stands already. -/
def Power.begin_ (p : Power) (clock new bits : Nat) : Power :=
  if new = p.step then p else { p with changing := some (new, bits, clock + 64) }

/-- Two calls for a step together: the deeper one, and both their bits. -/
def deeper (a b : Nat × Nat) : Nat × Nat := (max a.1 b.1, a.2 ||| b.2)

/-- A cause, by its bit, and the step for which it calls: at once, together with one of the same clock, or when the change
in progress completes. Causes of one clock that call for the step that stands change nothing (R31). (DEDUCED: log entry 41) -/
def Power.cause (p : Power) (clock tick bit : Nat) (call : Nat → Nat) : Power :=
  let p := { p with lastCause := tick }
  match p.changing with
  | none => p.begin_ clock (call p.step) (2 ^ bit)
  | some (new, bits, done) =>
    if done = clock + 64 then
      let (n, b) := deeper (new, bits) (call p.step, 2 ^ bit)
      { p with changing := if n = p.step then none else some (n, b, done) }
    else
      let mine := (call new, 2 ^ bit)
      { p with pending := some (match p.pending with
          | none => mine
          | some x => deeper x mine) }

/-- A cause of a step change. -/
def State.cause (s : State) (bit : Nat) (call : Nat → Nat) : State := s.modPower fun p => p.cause s.clock s.timer bit call

/-- One step down. -/
def oneDown (n : Nat) : Nat := min 3 (n + 1)

/-- Whether power or heat is over its limit: a cause that is active (R31). -/
def Power.active (p : Power) : Bool := decide (6000 < p.watts) || decide (840 < p.hottest)

/-- A reading of the sensors: a cause that it ends was active until now (R31). -/
def Power.read (p : Power) (tick : Nat) (f : Power → Power) : Power :=
  let q := f p
  { q with lastCause := if p.active then tick else p.lastCause }

/-- Package power, averaged over 1 ms, is reported: above 6000 W it is a cause. (DEDUCED: log entry 41) -/
def powerLimit (watts : Nat) (s : State) : State :=
  let s := s.modPower fun p => p.read s.timer fun p => { p with watts := watts }
  if 6000 < watts then s.cause 0 oneDown else s

/-- POWER_LIMIT_EXCEEDED. -/
def execPowerLimitExceeded (watts : Nat) (s : State) : Host.Outcome State Fault Refusal := runStep (powerLimit watts) s

/-- The hottest junction, in eighths of a degree, is reported: above 105 °C it is a cause. (DEDUCED: log entry 41) -/
def thermal (eighths : Nat) (s : State) : State :=
  let s := s.modPower fun p => p.read s.timer fun p => { p with hottest := eighths }
  if 840 < eighths then s.cause 1 oneDown else s

/-- THERMAL_LIMIT. -/
def execThermalLimit (eighths : Nat) (s : State) : Host.Outcome State Fault Refusal := runStep (thermal eighths) s

/-- Above 115 °C the clock goes to a quarter. -/
def thermalHard (eighths : Nat) (s : State) : State :=
  let s := s.modPower fun p => p.read s.timer fun p => { p with hottest := eighths }
  if 920 < eighths then s.cause 2 fun _ => 3 else s

/-- THERMAL_HARD_LIMIT. -/
def execThermalHardLimit (eighths : Nat) (s : State) : Host.Outcome State Fault Refusal := runStep (thermalHard eighths) s

/-- Core rails above 12000 A for 1 µs. (DEDUCED: log entry 41) -/
def currentLimit (s : State) : State := s.cause 3 fun _ => 3

/-- CURRENT_LIMIT. -/
def execCurrentLimit (s : State) : Host.Outcome State Fault Refusal := runStep currentLimit s

/-- Ticks of a millisecond (R48). -/
def ticksPerMs : Nat := 4000

/-- Whether recovery's condition holds: no cause active, and no step up, for a millisecond (R31). -/
def Power.recovers (p : Power) (tick : Nat) : Bool :=
  decide (0 < p.step) && p.changing.isNone && !p.active && decide (p.lastCause + ticksPerMs ≤ tick) && decide (p.lastUp + ticksPerMs ≤ tick)

/-- One step up. (DEDUCED: log entry 41) -/
def stepRecovery (s : State) : State :=
  if s.power.recovers s.timer then s.modPower fun p => p.begin_ s.clock (p.step - 1) (2 ^ 4) else s

/-- STEP_RECOVERY. -/
def execStepRecovery (s : State) : Host.Outcome State Fault Refusal := runStep stepRecovery s

/-- A change completes: the event on every partition's telemetry stream, and then a cause that waited is applied (R31 to
R33). (DEDUCED: log entry 41) -/
def stepComplete (s : State) : State :=
  match s.power.changing with
  | none => s
  | some (new, bits, _) =>
    let old := s.power.step
    let p := { s.power with step := new, changing := none, lastUp := if new < old then s.timer else s.power.lastUp }
    let s := { s with power := match p.pending with
      | none => p
      | some (n, b) => { p with pending := none }.begin_ s.clock n b }
    s.sysPostAll teleStream 0x0010 [new, old, bits, s.power.hottest, s.power.watts]

/-- STEP_CHANGE_COMPLETE. -/
def execStepChangeComplete (s : State) : Host.Outcome State Fault Refusal := runStep stepComplete s

/-! The timer and energy (R35, R37, R38). -/

/-- A tick of 250 ns. The watermark of a TIMED stream is read from the timer (R96). -/
def timerTick (s : State) : State := { s with timer := (s.timer + 1) % 2 ^ 48 }

/-- PACKAGE_TIMER_TICK. -/
def execPackageTimerTick (s : State) : Host.Outcome State Fault Refusal := runStep timerTick s

/-- A context's count in picojoules. -/
def Ctx.picojoules (c : Ctx) : Nat := c.energy / 100

/-- Whether a context is over its budget in the current window. -/
def Ctx.over (c : Ctx) : Bool :=
  match c.budget with
  | none => false
  | some b => decide (b < c.picojoules)

/-- The throttle in effect: groups issue in one of every 2 ^ n cycles in which they would be eligible (R38). -/
def Ctx.rate (c : Ctx) : Nat := if c.over then min 3 (c.throttle + 1) else c.throttle

/-- A window ends: each context's count is posted, and the next window's throttle set. -/
def energyEnd (s : State) : State :=
  let s := s.ctxs.foldl (fun s (k, c) =>
    s.sysPost (k / 2 ^ 20) teleStream 0x0011 [lo32 c.picojoules, hi32 c.picojoules, k % 2 ^ 20]) s
  { s with ctxs := s.ctxs.map fun (k, c) => (k, { c with throttle := if c.over then c.rate else 0, energy := 0 }) }

/-- ENERGY_WINDOW_END. -/
def execEnergyWindowEnd (s : State) : Host.Outcome State Fault Refusal := runStep energyEnd s

end Sys2Proof.Machine
end

