-- ==== Sys2Proof/Machine/Returns.lean ====
section
/-! DEFINITION. What returns to a group later: load results, table walks, the ends of gathering windows, retries; and the
fault of an illegal word (R164, R180, R188 to R190, R356). -/

namespace Sys2Proof.Machine

/-- An illegal word faults precisely, whatever the guard: its record names the lanes of the path (R356). -/
def execIllegalInstruction (s : State) : Host.Outcome State Fault Refusal :=
  match s.cur with
  | none => .fault .noIssuer
  | some iss =>
    match s.group? iss.key with
    | none => .fault .noIssuer
    | some g => .next (takeTrap s iss g (.plain 0x14 iss.path))

/-- A sector of an outstanding result returns; a group whose lanes have exited ends with its last result, and one whose
lanes wait at a PHASE may arrive there (R164, R377, R147). -/
def loadReturn (key idx sector : Nat) (s : State) : State :=
  ((s.modGroup key fun g => g.returnSector idx sector).lateExit key).phaseCheck key

/-- LOAD_RESULT_RETURN. -/
def execLoadResultReturn (g idx sector : Nat) (s : State) : Host.Outcome State Fault Refusal :=
  runStep (loadReturn g idx sector) s

/-- The result of a walk enters the core's TLB and its die's, unless the core's holds the page; what the die's TLB holds
needs no walk. A walk that fails enters nothing, and one that has to ask for an entry of a table goes on: the flag says so
(R180, R43). -/
def State.fillTlb (s : State) (key : Nat) (g : Group) (vpage : Nat) : State × Bool :=
  let home := coreOf key
  let part := partOf key
  match s.part? part with
  | none => (s, false)
  | some p =>
    let die := dieTlb (dieOf (s.coreQuarter home))
    if (s.tlbHit home part g.pasid vpage).isSome then (s, false)
    else match s.tlbHit die part g.pasid vpage with
      | some e => (s.tlbInsert { e with home := home }, false)
      | none =>
        match s.walkPage (.group key) home part p (s.coreSecure home) g.pasid vpage with
        | .ok e => ((s.tlbInsert { e with home := die }).tlbInsert e, false)
        | .error e => if e.asks then (s.askFor (.group key) g.pasid e, true) else (s, false)

/-- The replays of the lanes that wait for walks: one for each PC. -/
def Group.replays (g : Group) (key : Nat) : List Turn :=
  let waiting := lanesOf (g.waiting .walk)
  ((waiting.map fun i => (g.lane i).pc).eraseDups).map fun pc =>
    .second key pc (maskOfList (waiting.filter fun i => (g.lane i).pc == pc))

/-- The walks of a group return, and its lanes that missed issue their instruction again, now with what the walks gave
(R188); walks that wait for a link's answer go on. -/
def walkDone (key : Nat) (s : State) : State :=
  match s.group? key with
  | none => s
  | some g =>
    if g.walks.isEmpty then s
    else
      let (s, left) := g.walks.foldl (fun (r : State × List Nat) page =>
        let (s, more) := r.1.fillTlb key g page
        (s, if more then r.2 ++ [page] else r.2)) (s, [])
      if !left.isEmpty then s.setGroup key { g with walks := left } else
      let free := fun (l : Lane) => if l.wait == .walk then { l with wait := .none } else l
      { s.setGroup key { g with lanes := g.lanes.map free, walks := [], walked := true } with
        agenda := g.replays key ++ s.agenda }

/-- TLB_WALK_COMPLETE. -/
def execTlbWalkComplete (g : Nat) (s : State) : Host.Outcome State Fault Refusal := runStep (walkDone g) s

/-- A gathering window that has been open for 256 clocks closes (R189). -/
def windowClose (part idx : Nat) (s : State) : State :=
  match (s.part? part).bind fun p => p.windows[idx]? with
  | none => s
  | some x => if x.closes ≤ s.clock then s.closeWindow part idx else s

/-- GATHER_WINDOW_CLOSE. -/
def execGatherWindowClose (part idx : Nat) (s : State) : Host.Outcome State Fault Refusal := runStep (windowClose part idx) s

/-- The waiters of a record that had no room are released for retry 65,536 clocks later (R190, R331). -/
def retryDue (part idx : Nat) (s : State) : State :=
  match (s.part? part).bind fun p => p.retries[idx]? with
  | none => s
  | some r =>
    if r.at_ ≤ s.clock then
      let s := s.modPart part fun p => { p with retries := p.retries.eraseIdx idx }
      r.waiters.foldl (fun s w => s.releaseWaiter part w) s
    else s

/-- PENDING_OVF_RETRY. -/
def execPendingOvfRetry (part idx : Nat) (s : State) : Host.Outcome State Fault Refusal := runStep (retryDue part idx) s

end Sys2Proof.Machine
end

