-- ==== Sys2Proof/Machine/Choose.lean ====
section
/-! DEFINITION. A clock: what falls due in it, which acts without a fixed time happen in it, which groups issue, and what
is looked at when it ends (R30, R35, R36, R38, R155, R160, R161, R165, R226, R311, R312). -/

namespace Sys2Proof.Machine

/-! The clock (R30, R35, R36). -/

/-- The parts of a tick, in 1/2475 of it, that a compute clock lasts at a step. -/
def clockParts (step : Nat) : Nat :=
  match step with
  | 0 => 3 | 1 => 4 | 2 => 6 | _ => 12

/-- The contexts with a running group on a core. -/
def residentOn (s : State) : List (Nat × Nat) :=
  (s.groups.filterMap fun (k, g) =>
    if g.pre == .no then some (coreOf k, g.pasid) else none).eraseDups

/-- A compute clock passes: the clock, the groups' and the contexts' counts of resident clocks; and whether a tick of the
timer falls in it. (DEDUCED: log entry 30) -/
def State.advance (s : State) : State × Bool :=
  let sub := s.sub + clockParts s.power.step
  let tick := decide (2475 ≤ sub)
  let live := fun (k : Nat) (g : Group) => g.pre == .no && s.normalMode (partOf k)
  let ctxs := (residentOn s).foldl (fun (t : Tbl Ctx) (ck, pasid) =>
    tmod (ctxKey (partOfCore ck) pasid)
      (fun c => { c with used := tset (vcoreOf ck) (tget c.used (vcoreOf ck) 0 + 1) c.used }) t) s.ctxs
  let count := fun (e : Nat × Group) => if live e.1 e.2 then (e.1, { e.2 with resident := e.2.resident + 1 }) else e
  ({ s with clock := s.clock + 1, sub := if tick then sub - 2475 else sub, ctxs := ctxs, groups := s.groups.map count }, tick)

/-! What falls due. -/

/-- Windows and retries of a partition that fall due, each with its place when the earlier ones have gone. -/
def dueAt {α : Type} (l : List α) (due : α → Bool) (f : Nat → Instr) : List Instr :=
  ((l.zipIdx.filter fun (a, _) => due a).zipIdx).map fun ((_, k), j) => f (k - j)

/-- The steps of a partition that fall due in a clock. -/
def State.duePart (s : State) (n : Nat) (p : Part) : List Instr :=
  dueAt p.windows (fun x => decide (x.closes ≤ s.clock)) (.gatherWindowClose n ·) ++
  dueAt p.retries (fun x => decide (x.at_ ≤ s.clock)) (.pendingOvfRetry n ·) ++
  (match p.det with
    | none => if s.clock % 1024 = 0 then [.balanceExchange n] else []
    | some d => if d.atBoundary then [.epochBoundary n] else [])

/-- The time slices that end in a clock. -/
def State.dueSlices (s : State) : List Instr :=
  s.ctxs.flatMap fun (k, c) => c.used.filterMap fun (v, n) =>
    if 1024 * c.slice ≤ n then some (.timeSliceExpiry (k / 2 ^ 20 * 256 + v) (k % 2 ^ 20)) else none

/-- The steps that fall due with a tick that makes the timer read t. -/
def State.dueTick (s : State) (t : Nat) : List Instr :=
  [.packageTimerTick] ++
  (if t % ticksPerMs = 0 then [.energyWindowEnd, .dieLinkReplayWindow] else []) ++
  (s.links.zipIdx.flatMap fun (l, k) =>
    (l.ports.filterMap fun (p, x) => if x.window.any fun w => decide (w ≤ t) then some (.refusalWindowClose k p) else none) ++
    (l.remaps.filterMap fun (e, x) => if x.due t then some (.remapHoldoffExpiry k e) else none)) ++
  (s.colls.filterMap fun (op, c) => if c.timeoutAt ≤ t && c.result.isNone then some (.collTimeout op) else none) ++
  (s.parts.filterMap fun (n, p) =>
    if p.replica.any fun r => r.own.head?.any fun o => decide (o.2 ≤ t) then some (.replicaTimeout n) else none) ++
  (s.dports.filterMap fun (p, d) => if d.up && !d.retraining && d.overdue t then some (.delowAckTimeout p) else none) ++
  (if s.power.recovers t then [.stepRecovery] else [])

/-- Every step that falls due in a clock. -/
def State.dueEvents (s : State) (tick : Bool) : List Instr :=
  (if tick then s.dueTick ((s.timer + 1) % 2 ^ 48) else []) ++
  (if s.power.changing.any fun c => decide (c.2.2 ≤ s.clock) then [.stepChangeComplete] else []) ++
  s.dueSlices ++
  s.parts.flatMap fun (n, p) => s.duePart n p

/-! What may happen: the manual leaves the time open. -/

/-- The sectors of outstanding results, the latest ones first, so that a return moves no other. -/
def loadReturns (key : Nat) (g : Group) : List Instr :=
  g.pend.zipIdx.reverse.flatMap fun (p, i) => (List.range p.sectors.length).reverse.map fun j => .loadResultReturn key i j

/-- What a group may meet in normal mode. -/
def State.openGroup (s : State) (key : Nat) (g : Group) : List Instr :=
  loadReturns key g ++
  (if g.lanes.any fun l => l.live && l.wait == .enqueue then [.enqueueResume key] else []) ++
  (if s.phaseReady key g then [.phaseResume key] else [])

/-- What a core may do in normal mode. -/
def State.openCore (s : State) (ck : Nat) : List Instr :=
  (if (s.dispatchable ck).isSome then [.taskDispatch ck] else []) ++
  (if (s.grantable ck).isSome then [.clusterReserveGrant ck] else []) ++
  (if (s.reservable ck).isSome then [.clusterReserveRequest ck] else []) ++
  (if (s.evictable ck).isSome then [.teamEviction ck] else [])

/-- What the engines may do in normal mode, each act with the key of the group that issued the operation: in a clock
lower cores and group slots come first (R331). (DESIGN CHOICE: log entry 4) -/
def State.openEngines (s : State) : List (Nat × Instr) :=
  (s.bulks.filterMap fun (op, b) =>
    if b.suspended.isSome || !s.normalMode b.part then none
    else some (b.group, if b.kind = 2 then .bqstComplete op else .copyComplete op)) ++
  (((s.mmabs.filter fun (_, m) => s.normalMode m.part).map fun (_, m) => m.core).eraseDups.flatMap fun ck =>
    match s.mmabsOf ck with
    | [] => []
    | (_, m) :: _ => [(m.group, if m.finished then .mmabDone ck else .mmabStage ck)])

/-- The row of a mailbox command. -/
def commandRow (opcode scope link : Nat) : Instr :=
  match opcode with
  | 0x1 => .partCreate link
  | 0x2 => .partDestroy link
  | 0x3 => .partQuarters link
  | 0x4 => .delowPorts link
  | 0x5 => .routeSet link
  | 0x6 => .evportSet link
  | 0x7 => .slotSet link
  | 0x8 => .remapSet link
  | 0x9 => .streamAssign link
  | 0xA => .pasidAdd link
  | 0xB => .pasidRevoke link
  | 0xC => .keySet link
  | 0xD => .keyClear link
  | 0xE => .rangeSet link
  | 0xF => .setWorld link
  | 0x10 =>
    match scope with
    | 1 => .resetTeam link
    | 2 => .resetCore link
    | 3 => .resetQuarter link
    | 4 => .resetPartition link
    | 5 => .resetMatchEngine link
    | 6 => .resetDelowPort link
    | 7 => .resetPcieFunction link
    | _ => .resetGroup link
  | 0x11 => .quote link
  | 0x12 => .patch link
  | 0x13 => .energySet link
  | 0x14 => .replicaSet link
  | _ => .info link

/-- The command that firmware runs next. -/
def State.openCommands (s : State) : List Instr :=
  s.links.zipIdx.filterMap fun (l, k) =>
    if s.firmwareTurn k then some (commandRow l.mailbox.opcode ((l.mailbox.args.getD 0 0).toNat) k) else none

/-- The next step of every match engine. -/
def State.openAutomata (s : State) : List Instr :=
  (tkeys s.engines).filterMap fun q =>
    match s.nextSlot q with
    | none => none
    | some (k, true) => some (.automatonEventStep q k)
    | some (k, false) => some (.dropExpiredPass q k)

/-- Launch requests that a partition in normal mode may take up. -/
def State.openLaunches (s : State) : List Instr :=
  s.parts.filterMap fun (n, p) =>
    if p.det.isNone && (p.placing.isSome || !p.launches.isEmpty) then some (.launchRequest n) else none

/-- Every step that may happen in a clock, but for those of the cores' engines. (DEDUCED: log entries 6 and 48) -/
def State.openEvents (s : State) : List Instr :=
  let normal := s.groups.filter fun (k, _) => s.normalMode (partOf k)
  (normal.flatMap fun (k, g) => s.openGroup k g) ++
  ((tkeys s.cores).filter fun ck => s.normalMode (partOfCore ck)).flatMap s.openCore ++
  ((s.samples.map (·.1)).eraseDups.map fun ck => .sampledTileCheck ck) ++
  s.openAutomata ++ s.openLaunches ++ s.openCommands ++
  (if s.power.changing.isSome then [.stepChangeComplete] else [])

/-- The groups in normal mode with lanes whose wait on a sett faults (R223). (DESIGN CHOICE: log entry 4) -/
def State.faultingWaits (s : State) : List (Nat × Turn) :=
  (s.groups.filter fun (k, g) => s.normalMode (partOf k) && !(s.swaitBad k g false).isEmpty).map fun (k, _) => (k, .waits k)

/-- A clock begins: what falls due, then what happens of what may, with what the engines do and the faults of waits in
the order of cores and group slots, then the issue slots. (DESIGN CHOICE: log entry 4) -/
def State.beginClock (s : State) : State :=
  let (s, tick) := s.mmabClock.advance
  let engines := s.openEngines.map fun x => (x.1, Turn.event x.2)
  let may := (s.openEvents.map fun i => (0, Turn.event i)) ++ engines
  let chosen := (may.zipIdx.filter fun (_, k) => !Config.freeBool (s.free + k)).map (·.1)
  let n := s.openEvents.length
  let plain := ((may.take n).zipIdx.filter fun (_, k) => !Config.freeBool (s.free + k)).map (·.1.2)
  let moved := (chosen.drop plain.length) ++ s.faultingWaits
  { s with free := s.free + may.length
           agenda := (s.dueEvents tick).map Turn.event ++ plain ++ (orderBy (·.1) moved).map (·.2) ++ [.select] }

/-! The issue slots in normal mode (R165, R38). -/

/-- A context's throttle as a number of eligible cycles for one issue. (DEDUCED: log entry 41) -/
def State.throttleOf (s : State) (key : Nat) (g : Group) : Nat :=
  2 ^ (tget s.ctxs (ctxKey (partOf key) g.pasid) Ctx.new).rate

/-- Whether a group is to be selected before another: demoted lanes alone come last, then age, then the group slot. -/
def olderThan (a b : Nat × Group) : Bool :=
  let rank := fun (x : Nat × Group) => (b2n x.2.onlyDemoted, x.2.age, slotOf x.1)
  let (d, n, k) := rank a
  let (d', n', k') := rank b
  decide (d < d') || (d == d' && (decide (n < n') || (n == n' && decide (k < k'))))

/-- The group that an issue slot selects, and its core's groups after the cycle: a yield lasts one cycle, and a throttled
group lets eligible cycles pass. -/
def State.slotPick (s : State) (ck j : Nat) : State × List Nat :=
  let here := (s.coreGroups ck).filter fun (k, _) => slotOf k % 4 == j
  let eligible := here.filter fun (k, g) => !g.yielded && s.ready k g
  let free := eligible.filter fun (k, g) => decide (s.throttleOf k g ≤ g.skipped + 1)
  let pick := match free with
    | [] => none
    | x :: xs => some (xs.foldl (fun b y => if olderThan y b then y else b) x).1
  let held := tkeys (eligible.filter fun (k, g) => !decide (s.throttleOf k g ≤ g.skipped + 1))
  let s := here.foldl (fun s (k, _) => s.modGroup k fun g =>
    { g with yielded := false
             skipped := if held.contains k then g.skipped + 1 else if pick == some k then 0 else g.skipped }) s
  (s, pick.toList)

/-- The groups that a core in normal mode issues from in a clock, in increasing group slot. -/
def State.corePicks (s : State) (ck : Nat) : State × List Nat :=
  let s := (s.coreGroups ck).foldl (fun s (k, _) => s.markWl k) s
  let (s, ks) := (List.range 4).foldl (fun (r : State × List Nat) j =>
    let (s, k) := r.1.slotPick ck j
    (s, r.2 ++ k)) (s, [])
  (s, (tkeys (s.coreGroups ck)).filter ks.contains)

/-! Turns in deterministic mode (R311, R312). -/

/-- Whether a lane of a group waits for a remote answer. -/
def Group.remote (g : Group) : Bool := g.lanes.any fun l => l.live && l.wait == .remote

/-- The groups of a core that have not had their turn in the round, in logical order. -/
def State.unturned (s : State) (part ck : Nat) (d : Det) : List Nat :=
  ((s.ringGroups part d).filter fun (k, g) => coreOf k == ck && g.pre == .no && !d.turned.contains k).map (·.1)

/-- A turn begins: the core has waited for the group's results. (DEDUCED: log entry 23) -/
def State.beginTurn (s : State) (part key : Nat) : State :=
  let s := s.modDet part fun d => { d with turned := d.turned ++ [key] }
  (s.modGroup key fun g => { g with resident := g.resident + 1 }).returnAll key

/-- What a core of a deterministic partition does in a clock: it goes on with a turn that has waited for a remote answer,
lets the checker finish, or begins the next turn, for which a throttled group's core waits (R38). (DEDUCED: log entry 23) -/
def State.coreTurn (s : State) (part ck : Nat) : State × List Turn :=
  match s.detOf part with
  | none => (s, [])
  | some d =>
    if d.atBoundary then (s, [])
    else match d.open_.filter fun x => coreOf x.1 == ck with
      | x :: xs =>
        if (s.group? x.1).any Group.remote then (s, [])
        else
          let s := s.modDet part fun d => { d with open_ := d.open_.filter fun y => coreOf y.1 != ck }
          (s, (x :: xs).map (fun y => .second y.1 y.2.1 y.2.2) ++ [.turnEnd x.1])
      | [] =>
        if s.checkerBusy ck then (s, [.event (.sampledTileCheck ck)])
        else match s.unturned part ck d with
          | [] => (s, [])
          | key :: _ =>
            match s.group? key with
            | none => (s, [])
            | some g =>
              if s.throttleOf key g ≤ g.skipped + 1 then
                ((s.beginTurn part key).modGroup key fun g => { g with skipped := 0 }, [.issue key, .turnEnd key])
              else (s.setGroup key { g with skipped := g.skipped + 1 }, [])

/-- The issue slots select: every core's issues or turn, then the end of the clock. (DESIGN CHOICE: log entry 4; DEDUCED: log entry 6) -/
def State.select (s : State) : State :=
  let cks := ((tkeys s.groups).map coreOf).eraseDups
  let (s, ts) := cks.foldl (fun (r : State × List Turn) ck =>
    if r.1.normalMode (partOfCore ck) then
      let (s, ks) := r.1.corePicks ck
      (s, r.2 ++ ks.map Turn.issue)
    else
      let (s, ts) := r.1.coreTurn (partOfCore ck) ck
      (s, r.2 ++ ts)) (s, [])
  { s with agenda := ts ++ [.close] }

/-! What is looked at when a turn or a clock ends. -/

/-- The requests of a clock or turn join the queue in increasing group slot, and a free extension is granted (R160,
R376). (DEDUCED: log entry 29) -/
def State.settleExt (s : State) (serial : Nat) : State :=
  (s.modTeam serial fun t => { t with extQueue := t.extQueue ++ orderBy slotOf t.extNew, extNew := [] }).grantExt serial

/-- Whether every lane of a group waits at a barrier or a PHASE. (DEDUCED: log entry 29) -/
def Group.atBarrier (g : Group) : Bool :=
  g.live != 0 && (lanesOf g.live).all fun i => match (g.lane i).wait with
    | .bar | .cbar | .phase => true
    | _ => false

/-- Extended-register deadlock of a team (R161). (DEDUCED: log entry 29) -/
def State.deadlock (s : State) (serial : Nat) : State :=
  match tget? serial s.teams with
  | none => s
  | some t =>
    match t.extHolder, t.extQueue with
    | some h, w :: _ =>
      match s.everyGroup.find? fun (k, g) => k == h && g.team == some serial with
      | none => s
      | some (_, g) =>
        if !g.atBarrier then s
        else
          let (key, gr) := if g.kind = .team then (h, g) else (s.teamGroups serial).headD (h, g)
          s.taskFault key gr ⟨0x17, 0, gr.live, slotOf h, slotOf w, 0⟩ (gr.lane (lowLane gr.live)).pc
    | _, _ => s

/-- The end of a deterministic turn: what the turn satisfies completes, the group's timeouts pass, and a turn that waits
for a remote answer stays open (R311 to R313). (DEDUCED: log entry 23) -/
def State.endTurn (s : State) (key : Nat) : State :=
  let part := partOf key
  let ck := coreOf key
  let s := (tkeys (s.coreGroups ck)).foldl (fun s k => (s.swaitFault k false).swaitPoll k false) s
  let s := (tkeys (s.teams.filter fun (_, t) => t.part == part && t.core == vcoreOf ck)).foldl State.settleExt s
  let resumes := ((s.coreGroups ck).filter fun (k, g) => s.phaseReady k g).map fun (k, _) => Turn.event (.phaseResume k)
  let (times, waits) := match s.group? key with
    | none => ([], [])
    | some g =>
      let far := maskOf fun i => (g.lane i).live && (g.lane i).wait == .remote
      (g.timeouts key (s.settsHere key g false), (g.paths far).map fun p => (key, p.1, p.2))
  let s := s.modDet part fun d => { d with open_ := d.open_ ++ waits }
  { s with agenda := times ++ resumes ++ s.agenda }

/-- The end of a clock: waits on setts in normal mode, collectives, and then the timeouts that have passed. Waits that
fault do so as the next clock begins. (DESIGN CHOICE: log entry 4) -/
def State.closeClock (s : State) : State :=
  let s := (tkeys s.groups).foldl (fun s k => if s.normalMode (partOf k) then s.swaitPoll k false else s) s
  let s := s.collPoll
  let times := (s.groups.filter fun (k, _) => s.normalMode (partOf k)).flatMap fun (k, g) => g.timeouts k fun _ => true
  { s with agenda := times ++ [.settle] }

/-- The due rounds of a context's engine operations, moved by the rounds for which the context was halted (R327). (DEDUCED: log entry 23) -/
def State.shiftDue (s : State) (part pasid n : Nat) : State :=
  { s with
    bulks := s.bulks.map fun (k, b) => (k, if b.part = part ∧ b.pasid = pasid then { b with due := b.due + n } else b)
    colls := s.colls.map fun (k, c) => (k, if c.part = part ∧ c.pasid = pasid then { c with due := c.due + n } else c)
    mmabs := s.mmabs.map fun (k, m) =>
      (k, if m.part = part ∧ m.pasid = pasid ∧ m.due ≠ 0 then { m with due := m.due + n } else m) }

/-- The contexts of a deterministic partition as a round ends: one that has been stopped halts, and its round is kept; one
that has been resumed goes on once the rounds that have passed are whole epochs, so that it stands at its own place in the
epoch (R327). (DEDUCED: log entry 23) -/
def State.roundContext (s : State) (part pasid round : Nat) : State :=
  let k := ctxKey part pasid
  let c := tget s.ctxs k Ctx.new
  match c.haltRound with
  | none =>
    if c.stopped then
      let s := { s with ctxs := tset k { c with haltRound := some round } s.ctxs }
      (s.groups.filter fun (k, g) => partOf k == part && g.pasid == pasid).foldl (fun s (k, _) => s.haltGroup k) s
    else s
  | some n =>
    if c.stopped || (round - n) % 256 != 0 then s
    else
      let s := { s with ctxs := tset k { c with haltRound := none } s.ctxs }
      (s.shiftDue part pasid (round - n)).scheduleAll part pasid

/-- A deterministic round ends when every group has had its turn; then contexts that have been stopped halt, and contexts
that have been resumed go on (R311, R327). (DEDUCED: log entry 23) -/
def State.endRound (s : State) (part : Nat) : State :=
  match s.detOf part with
  | none => s
  | some d =>
    let here := s.groups.filter fun (k, g) => partOf k == part && g.pre == .no
    if d.atBoundary || !d.open_.isEmpty || here.any (fun (k, _) => !d.turned.contains k) then s
    else
      let s := s.modDet part fun d => { d with round := d.round + 1, turned := [] }
      ((tkeys s.ctxs).filter fun k => k / 2 ^ 20 == part).foldl (fun s k => s.roundContext part (k % 2 ^ 20) (d.round + 1)) s

/-- A link as a clock ends: it accepts as many of its waiting writes as it will, its invalidations complete when what they
wait for has gone, and the packets set aside try again (R43, R45, R64). (DEDUCED: log entries 7 and 40) -/
def State.settleLink (s : State) (link : Nat) : State :=
  let n := (s.links[link]?).elim 0 (·.writes.length)
  let s := if n = 0 then s else
    { s.sendWrites link ((Config.freeWord s.free).toNat % (n + 1)) with free := s.free + 1 }
  (s.invalsDone link).unpark link

/-- The migrations of a partition, each of which ends in a clock of the part's choice (R193). (DEDUCED: log entry 7) -/
def State.settleMigrations (s : State) (part : Nat) : State :=
  ((s.part? part).elim [] (·.migs)).foldl (fun s m =>
    let (s, now) := s.drawBool
    if now then migrationEnd part m s else s) s

/-- After the timeouts of a clock: the extensions' requests and deadlocks, the links, the migrations, the engines' queues,
evicted units that return, cores without a running context, and rounds. (DESIGN CHOICE: log entry 4) -/
def State.settleClock (s : State) : State :=
  let s := (tkeys s.teams).foldl (fun s n => (s.settleExt n).deadlock n) s
  let s := (List.range s.links.length).foldl State.settleLink s
  let s := (tkeys s.parts).foldl State.settleMigrations s
  let s := (tkeys s.engines).foldl State.engineTurn s
  let cks := ((tkeys s.groups ++ tkeys s.saved).map coreOf).eraseDups.filter fun ck => s.normalMode (partOfCore ck)
  let s := cks.foldl (fun s ck => (s.restoreUnits ck).reschedule ck) s
  (tkeys s.parts).foldl State.endRound s

end Sys2Proof.Machine
end

