-- ==== Sys2Proof/Machine/Convert.lean ====
section
/-! DEFINITION. Class 011 but for the quantising store: CVT, PACK and UNPK (R394 to R397). -/

namespace Sys2Proof.Machine

/-- The bits of element n of a source register of a type, and the element's format (R394, R239). -/
def cvtElement (sty : Ty) (n v : Nat) : Nat :=
  match sty with
  | .bf16x2 => bits v (16 * n) 16
  | .e4m3 | .e5m2 => bits v (8 * n) 8
  | .e2m1 => bits v (4 * n) 4
  | _ => v

/-- The exact value of a source element after its flags (R394, R344). -/
def cvtValue (sty : Ty) (neg abs : Bool) (v : Nat) : FVal :=
  if sty.isInt then .ofInt (tyInt sty (intFlag sty neg abs v))
  else (fpFmt sty).value (fpFlag (fpFmt sty) neg abs v)

/-- CVT on the bits of one lane (R394). -/
def cvtBits (dty sty : Ty) (n : Nat) (rnd : Rnd) (fl : Flags) (a : Nat) : Nat :=
  let v := cvtValue sty fl.negA fl.absA (cvtElement sty n a)
  if dty.isInt then roundInt dty v rnd else (fpFmt dty).round v rnd fl.sat

/-- CVT (R394). -/
def execCvt (dty sty : Ty) (n : Nat) (rnd : Rnd) (fl : Flags) (d a : Opnd) (s : State) :
    Host.Outcome State Fault Refusal :=
  runAct (alu1 d dty.regs sty sty.regs a (cvtBits dty sty n rnd fl)) s

/-- A field of k bits at position p replaced. -/
def putBits (v p k x : Nat) : Nat := v - bits v p k * 2 ^ p + x % 2 ^ k * 2 ^ p

/-- PACK on the bits of one lane (R395). -/
def packBits (ty : Ty) (n : Nat) (rnd : Rnd) (fl : Flags) (a b c : Nat) : Nat :=
  let x := Fmt.f32.value (fpFlag .f32 fl.negA fl.absA a)
  let y := Fmt.f32.value (fpFlag .f32 fl.negB false b)
  match ty with
  | .bf16x2 => Fmt.bf16.round x rnd fl.sat + 65536 * Fmt.bf16.round y rnd fl.sat
  | .e2m1 => putBits (putBits c (8 * n) 4 (e2m1Code none x)) (8 * n + 4) 4 (e2m1Code none y)
  | t =>
    let f := fpFmt t
    putBits (putBits c (16 * n) 8 (f.round x rnd fl.sat)) (16 * n + 8) 8 (f.round y rnd fl.sat)

/-- PACK (R395). -/
def execPack (ty : Ty) (n : Nat) (rnd : Rnd) (fl : Flags) (d a b c : Opnd) (s : State) :
    Host.Outcome State Fault Refusal :=
  runAct (alu3 d 1 .f32 1 a .f32 1 b .n32 1 c (packBits ty n rnd fl)) s

/-- UNPK on the bits of one lane: elements 2n and 2n + 1, or 0 and 1 of bf16x2, widened exactly (R396). -/
def unpkBits (ty : Ty) (n a : Nat) : Nat :=
  let k := if ty = .bf16x2 then 0 else 2 * n
  let one := fun j => Fmt.f32.round ((fpFmt ty).value (cvtElement ty j a)) .rne false
  one k + 2 ^ 32 * one (k + 1)

/-- UNPK (R396). -/
def execUnpk (ty : Ty) (n : Nat) (d a : Opnd) (s : State) : Host.Outcome State Fault Refusal :=
  runAct (alu1 d 2 .n32 1 a (unpkBits ty n)) s

end Sys2Proof.Machine
end

