-- ==== Sys2Proof/Machine/Float.lean ====
section
/-! DEFINITION. Class 001: point arithmetic (R382 to R387). -/

namespace Sys2Proof.Machine

/-- A two-source operation on every element after the flags, rounded once (R383, R344). -/
def fp2 (ty : Ty) (fl : Flags) (d a b : Opnd) (f : Nat → Nat → Nat) : Act :=
  alu2 d ty.regs ty ty.regs a ty ty.regs b fun x y =>
    perElement ty (fun p q _ => f p q) (fpFlags ty fl.negA fl.absA x) (fpFlags ty fl.negB false y) 0

/-- A one-source operation on every element. -/
def fp1 (ty : Ty) (fl : Flags) (d a : Opnd) (f : Nat → Nat) : Act :=
  alu1 d ty.regs ty ty.regs a fun x => perElement ty (fun p _ _ => f p) (fpFlags ty fl.negA fl.absA x) 0 0

/-- FADD (R382, R383). -/
def execFadd (ty : Ty) (rnd : Rnd) (fl : Flags) (d a b : Opnd) (s : State) : Host.Outcome State Fault Refusal :=
  runAct (fp2 ty fl d a b fun x y => fpRound ty rnd fl.sat ((fpVal ty x).add rnd (fpVal ty y))) s

/-- FSUB. -/
def execFsub (ty : Ty) (rnd : Rnd) (fl : Flags) (d a b : Opnd) (s : State) : Host.Outcome State Fault Refusal :=
  runAct (fp2 ty fl d a b fun x y => fpRound ty rnd fl.sat ((fpVal ty x).add rnd (fpVal ty y).negate)) s

/-- FMUL. -/
def execFmul (ty : Ty) (rnd : Rnd) (fl : Flags) (d a b : Opnd) (s : State) : Host.Outcome State Fault Refusal :=
  runAct (fp2 ty fl d a b fun x y => fpRound ty rnd fl.sat ((fpVal ty x).mul (fpVal ty y))) s

/-- FFMA: rounded once. -/
def execFfma (ty : Ty) (rnd : Rnd) (fl : Flags) (d a b c : Opnd) (s : State) : Host.Outcome State Fault Refusal :=
  runAct (alu3 d ty.regs ty ty.regs a ty ty.regs b ty ty.regs c fun x y z =>
    perElement ty (fun p q r => fpRound ty rnd fl.sat (((fpVal ty p).mul (fpVal ty q)).add rnd (fpVal ty r)))
      (fpFlags ty fl.negA fl.absA x) (fpFlags ty fl.negB false y) (fpFlags ty fl.negC false z)) s

/-- FMIN (R384). -/
def execFmin (ty : Ty) (fl : Flags) (d a b : Opnd) (s : State) : Host.Outcome State Fault Refusal :=
  runAct (fp2 ty fl d a b fun x y => fminmaxBits (fpFmt ty) false x y) s

/-- FMAX (R384). -/
def execFmax (ty : Ty) (fl : Flags) (d a b : Opnd) (s : State) : Host.Outcome State Fault Refusal :=
  runAct (fp2 ty fl d a b fun x y => fminmaxBits (fpFmt ty) true x y) s

/-- FCMP: U where an operand is NaN (R385). -/
def execFcmp (ty : Ty) (rel : Rel) (fl : Flags) (pd a b : Opnd) (s : State) : Host.Outcome State Fault Refusal :=
  runAct (test2 pd ty ty.regs a ty ty.regs b fun x y =>
    fcmpVal rel (fpVal ty (fpFlags ty fl.negA fl.absA x)) (fpVal ty (fpFlags ty fl.negB false y))) s

/-- FDIV. -/
def execFdiv (ty : Ty) (rnd : Rnd) (fl : Flags) (d a b : Opnd) (s : State) : Host.Outcome State Fault Refusal :=
  runAct (fp2 ty fl d a b fun x y => fpRound ty rnd fl.sat ((fpVal ty x).div (fpVal ty y))) s

/-- FSQRT (R384). -/
def execFsqrt (ty : Ty) (rnd : Rnd) (fl : Flags) (d a : Opnd) (s : State) : Host.Outcome State Fault Refusal :=
  runAct (fp1 ty fl d a fun x => fpRound ty rnd fl.sat (fpVal ty x).sqrt) s

/-- FRCP (R384). -/
def execFrcp (ty : Ty) (rnd : Rnd) (fl : Flags) (d a : Opnd) (s : State) : Host.Outcome State Fault Refusal :=
  runAct (fp1 ty fl d a fun x => fpRound ty rnd fl.sat (fpVal ty x).rcp) s

/-- FRSQ (R384). -/
def execFrsq (ty : Ty) (rnd : Rnd) (fl : Flags) (d a : Opnd) (s : State) : Host.Outcome State Fault Refusal :=
  runAct (fp1 ty fl d a fun x => fpRound ty rnd fl.sat (fpVal ty x).rsqrt) s

/-- FEXP2 (R384). -/
def execFexp2 (ty : Ty) (rnd : Rnd) (fl : Flags) (d a : Opnd) (s : State) : Host.Outcome State Fault Refusal :=
  runAct (fp1 ty fl d a fun x => fpRound ty rnd fl.sat (fpVal ty x).exp2) s

/-- FLOG2 (R384). -/
def execFlog2 (ty : Ty) (rnd : Rnd) (fl : Flags) (d a : Opnd) (s : State) : Host.Outcome State Fault Refusal :=
  runAct (fp1 ty fl d a fun x => fpRound ty rnd fl.sat (fpVal ty x).log2) s

/-- FRND (R384). -/
def execFrnd (ty : Ty) (rnd : Rnd) (fl : Flags) (d a : Opnd) (s : State) : Host.Outcome State Fault Refusal :=
  runAct (fp1 ty fl d a fun x => fpRound ty rnd false ((fpVal ty x).integral rnd)) s

/-- FCLASS (R386): for bf16x2 one class mask in each half. -/
def execFclass (ty : Ty) (fl : Flags) (d a : Opnd) (s : State) : Host.Outcome State Fault Refusal :=
  runAct (alu1 d 1 ty ty.regs a fun x =>
    perElement ty (fun p _ _ => fclassBits (fpFmt ty) p) (fpFlags ty fl.negA fl.absA x) 0 0) s

/-- FSCALE: B is always i32 (R387). -/
def execFscale (ty : Ty) (rnd : Rnd) (fl : Flags) (d a b : Opnd) (s : State) : Host.Outcome State Fault Refusal :=
  runAct (alu2 d ty.regs ty ty.regs a .i32 1 b fun x y =>
    perElement ty (fun p _ _ => fpRound ty rnd fl.sat ((fpVal ty p).scale (intVal true 32 y)))
      (fpFlags ty fl.negA fl.absA x) 0 0) s

end Sys2Proof.Machine
end

