-- ==== Sys2Proof/Machine/Integer.lean ====
section
/-! DEFINITION. Class 000: integer operations, moves, fields, carries, comparison (R359 to R368). -/

namespace Sys2Proof.Machine

/-- A two-source integer operation on the bits after the flags (R361, R362). -/
def int2 (ty : Ty) (fl : Flags) (d a b : Opnd) (f : Nat → Nat → Nat) : Act :=
  alu2 d ty.regs ty ty.regs a ty ty.regs b fun x y => f (intFlag ty fl.negA fl.absA x) (intFlag ty fl.negB false y)

/-- A shift: its count is one 32-bit register or an immediate (R361). -/
def shift2 (ty : Ty) (d a b : Opnd) (f : Nat → Nat → Nat) : Act :=
  alu2 d ty.regs ty ty.regs a .n32 1 b f

/-- IADD (R361, R362). -/
def execIadd (ty : Ty) (fl : Flags) (d a b : Opnd) (s : State) : Host.Outcome State Fault Refusal :=
  runAct (int2 ty fl d a b (aluAdd ty fl.sat)) s

/-- ISUB. -/
def execIsub (ty : Ty) (fl : Flags) (d a b : Opnd) (s : State) : Host.Outcome State Fault Refusal :=
  runAct (int2 ty fl d a b (aluSub ty fl.sat)) s

/-- IMUL. -/
def execImul (ty : Ty) (fl : Flags) (d a b : Opnd) (s : State) : Host.Outcome State Fault Refusal :=
  runAct (int2 ty fl d a b (aluMul ty fl.sat)) s

/-- IMULH. -/
def execImulh (ty : Ty) (fl : Flags) (d a b : Opnd) (s : State) : Host.Outcome State Fault Refusal :=
  runAct (int2 ty fl d a b (aluMulh ty)) s

/-- IMIN. -/
def execImin (ty : Ty) (fl : Flags) (d a b : Opnd) (s : State) : Host.Outcome State Fault Refusal :=
  runAct (int2 ty fl d a b (aluMin ty)) s

/-- IMAX. -/
def execImax (ty : Ty) (fl : Flags) (d a b : Opnd) (s : State) : Host.Outcome State Fault Refusal :=
  runAct (int2 ty fl d a b (aluMax ty)) s

/-- AND (R361). -/
def execAnd (ty : Ty) (d a b : Opnd) (s : State) : Host.Outcome State Fault Refusal :=
  runAct (int2 ty Flags.none d a b (fun x y => x &&& y)) s

/-- OR (R361). -/
def execOr (ty : Ty) (d a b : Opnd) (s : State) : Host.Outcome State Fault Refusal :=
  runAct (int2 ty Flags.none d a b (fun x y => x ||| y)) s

/-- XOR (R361). -/
def execXor (ty : Ty) (d a b : Opnd) (s : State) : Host.Outcome State Fault Refusal :=
  runAct (int2 ty Flags.none d a b (fun x y => x ^^^ y)) s

/-- ANDN (R361). -/
def execAndn (ty : Ty) (d a b : Opnd) (s : State) : Host.Outcome State Fault Refusal :=
  runAct (int2 ty Flags.none d a b (aluAndn ty)) s

/-- SHL (R361). -/
def execShl (ty : Ty) (d a b : Opnd) (s : State) : Host.Outcome State Fault Refusal :=
  runAct (shift2 ty d a b (aluShl ty)) s

/-- SHR (R361). -/
def execShr (ty : Ty) (d a b : Opnd) (s : State) : Host.Outcome State Fault Refusal :=
  runAct (shift2 ty d a b (aluShr ty)) s

/-- SAR (R361). -/
def execSar (ty : Ty) (d a b : Opnd) (s : State) : Host.Outcome State Fault Refusal :=
  runAct (shift2 ty d a b (aluSar ty)) s

/-- ROL (R361). -/
def execRol (ty : Ty) (d a b : Opnd) (s : State) : Host.Outcome State Fault Refusal :=
  runAct (shift2 ty d a b (aluRol ty)) s

/-- IABS (R363). -/
def execIabs (ty : Ty) (sat : Bool) (d a : Opnd) (s : State) : Host.Outcome State Fault Refusal :=
  runAct (alu1 d ty.regs ty ty.regs a (aluAbs ty sat)) s

/-- POPC (R363). -/
def execPopc (ty : Ty) (d a : Opnd) (s : State) : Host.Outcome State Fault Refusal :=
  runAct (alu1 d 1 ty ty.regs a (aluPopc ty)) s

/-- CLZ (R363). -/
def execClz (ty : Ty) (d a : Opnd) (s : State) : Host.Outcome State Fault Refusal :=
  runAct (alu1 d 1 ty ty.regs a (aluClz ty)) s

/-- CTZ (R363). -/
def execCtz (ty : Ty) (d a : Opnd) (s : State) : Host.Outcome State Fault Refusal :=
  runAct (alu1 d 1 ty ty.regs a (aluCtz ty)) s

/-- BREV (R363). -/
def execBrev (ty : Ty) (d a : Opnd) (s : State) : Host.Outcome State Fault Refusal :=
  runAct (alu1 d ty.regs ty ty.regs a (aluBrev ty)) s

/-- MOV: a bit for bit, including its poison (R363); a range is one value, poisoned when one of its registers is. -/
def execMov (ty : Ty) (d a : Opnd) (s : State) : Host.Outcome State Fault Refusal :=
  runAct (alu1 d ty.regs ty ty.regs a fun x => x) s

/-- MOVI (R364). -/
def execMovi (ty : Ty) (d : Opnd) (v : Word) (s : State) : Host.Outcome State Fault Refusal :=
  runAct (alu1 d ty.regs ty ty.regs (.imm v) fun x => x) s

/-- IMAD (R365, R366). -/
def execImad (ty : Ty) (fl : Flags) (d a b c : Opnd) (s : State) : Host.Outcome State Fault Refusal :=
  runAct (alu3 d ty.regs ty ty.regs a ty ty.regs b ty ty.regs c fun x y z =>
    aluMad ty fl.sat (intFlag ty fl.negA fl.absA x) (intFlag ty fl.negB false y) (intFlag ty fl.negC false z)) s

/-- IMADW (R365, R366): the addend, and an immediate in its place, have the 64-bit type. -/
def execImadw (ty : Ty) (sat : Bool) (d a b c : Opnd) (s : State) : Host.Outcome State Fault Refusal :=
  runAct (alu3 d 2 ty 1 a ty 1 b (wide ty) 2 c (aluMadw ty sat)) s

/-- LEA (R365, R366). -/
def execLea (ty : Ty) (n : Nat) (d a b : Opnd) (s : State) : Host.Outcome State Fault Refusal :=
  runAct (alu2 d 2 .n64 2 a ty 1 b (aluLea ty n)) s

/-- BFX (R365, R366). -/
def execBfx (ty : Ty) (d a b : Opnd) (s : State) : Host.Outcome State Fault Refusal :=
  runAct (alu2 d ty.regs ty ty.regs a .n32 1 b (aluBfx ty)) s

/-- BFI (R365, R366). -/
def execBfi (ty : Ty) (d a b c : Opnd) (s : State) : Host.Outcome State Fault Refusal :=
  runAct (alu3 d ty.regs ty ty.regs a .n32 1 b ty ty.regs c (aluBfi ty)) s

/-- PRMT (R365, R366). -/
def execPrmt (ty : Ty) (d a b c : Opnd) (s : State) : Host.Outcome State Fault Refusal :=
  runAct (alu3 d 1 ty 1 a ty 1 b ty 1 c aluPrmt) s

/-- LADD and LSUB: the sum with the carry in, the carry out in the same predicate; an undecided carry stays undecided
(R367). -/
def carryChain (sub : Bool) (d a b pc : Opnd) : Act := fun iss g s => do
  let (va, g) ← fetch s iss.key g iss.lanes .n32 1 a
  let (vb, g) ← fetch s iss.key g iss.lanes .n32 1 b
  let vp := (lanesOf iss.lanes).map fun i => (i, (readOp g i .n32 1 pc))
  let res : Tbl (Nat × Tri × Bool) := va.map fun (i, x) =>
    let y := tget vb i (0, false)
    let p := tget vp i (0, false)
    let v := triOfNum p.1
    let cin := b2n (v == .T)
    let sum := if sub then wrap 32 ((x.1 : Int) - y.1 - cin) else (x.1 + y.1 + cin) % 2 ^ 32
    let out := if sub then decide (x.1 < y.1 + cin) else decide (2 ^ 32 ≤ x.1 + y.1 + cin)
    (i, (sum, (if v = .U then .U else triOf out), x.2 || y.2 || p.2))
  let g := res.foldl (fun g (i, r) => writePred g i pc r.2.1 r.2.2) g
  finish iss s g 1 d (res.map fun (i, r) => (i, (r.1, r.2.2)))

/-- SEL: T takes A, F and U take B; the poison of both values and of the predicate is the result's where that value is
read to form it (R367, R360). -/
def selAct (ty : Ty) (d a b pc : Opnd) : Act := fun iss g s => do
  let (va, g) ← fetch s iss.key g iss.lanes ty ty.regs a
  let (vb, g) ← fetch s iss.key g iss.lanes ty ty.regs b
  finish iss s g ty.regs d (va.map fun (i, x) =>
    let y := tget vb i (0, false)
    let p := readOp g i .n32 1 pc
    (i, ((if p.1 = 1 then x.1 else y.1), x.2 || y.2 || p.2)))

/-- LADD (R367). -/
def execLadd (_ty : Ty) (d a b pc : Opnd) (s : State) : Host.Outcome State Fault Refusal :=
  runAct (carryChain false d a b pc) s

/-- LSUB (R367). -/
def execLsub (_ty : Ty) (d a b pc : Opnd) (s : State) : Host.Outcome State Fault Refusal :=
  runAct (carryChain true d a b pc) s

/-- SEL (R367). -/
def execSel (ty : Ty) (d a b pc : Opnd) (s : State) : Host.Outcome State Fault Refusal :=
  runAct (selAct ty d a b pc) s

/-- ICMP (R368). -/
def execIcmp (ty : Ty) (rel : Rel) (fl : Flags) (pd a b : Opnd) (s : State) : Host.Outcome State Fault Refusal :=
  runAct (test2 pd ty ty.regs a ty ty.regs b fun x y =>
    aluCmp ty rel (intFlag ty fl.negA fl.absA x) (intFlag ty fl.negB false y)) s

end Sys2Proof.Machine
end

