-- ==== Sys2Proof/Machine/IvOps.lean ====
section
/-! DEFINITION. Class 010 but for the bisection pool: intervals and their predicates (R389 to R391, R272 to R279). -/

namespace Sys2Proof.Machine

/-- An operand of an interval instruction: an interval, or a point of the interval's point type (R380). -/
inductive IvOp where
  | iv (o : Opnd)
  | pt (o : Opnd)
deriving DecidableEq, Repr

/-- The value of such an operand in a lane. -/
def ivRead (g : Group) (ty : Ty) (i : Nat) : IvOp → Val
  | .iv o => readOp g i ty ty.regs o
  | .pt o => readOp g i ty.point ty.point.regs o

/-- Whether an operand's value is refused: an invalid interval, or a NaN where NaN points are refused (R272, R390). -/
def ivBad (ty : Ty) (nan : Bool) (o : IvOp) (v : Nat) : Bool :=
  match o with
  | .iv _ => (ivOf ty v).isInvalid
  | .pt _ => nan && (pointVal ty v).isNan

/-- Whether an operand is an empty interval. -/
def ivEmptyOp (ty : Ty) (o : IvOp) (v : Nat) : Bool :=
  match o with
  | .iv _ => (ivOf ty v).isEmpty
  | .pt _ => false

/-- The checks of R390, before anything is written: invalid-interval, then under EIF empty-interval where an operand or
an interval result is empty. -/
def ivChecks (iss : Issue) (g : Group) (ty : Ty) (ops : List IvOp) (nan empties : Bool) (resEmpty : List Nat → Bool) :
    Except Trap Unit := do
  let ls := lanesOf iss.lanes
  let vals := fun i => ops.map fun o => (ivRead g ty i o).1
  requireAll ls (fun i => !(List.zip ops (vals i)).any fun (o, v) => ivBad ty nan o v)
    (fun bad => .plain 0x10 (maskOfList bad))
  if g.eif && empties then
    requireAll ls (fun i => !((List.zip ops (vals i)).any fun (o, v) => ivEmptyOp ty o v) && !resEmpty (vals i))
      (fun bad => .plain 0x11 (maskOfList bad))
  else return ()

/-- Whether a register image is the empty interval. -/
def imgEmpty (ty : Ty) (v : Nat) : Bool := (ivOf ty v).isEmpty

/-- An instruction with an interval result (R390). -/
def ivResult (ty : Ty) (d : Opnd) (ops : List IvOp) (nan : Bool) (f : List Nat → Nat) : Act := fun iss g s => do
  ivChecks iss g ty ops nan true (fun vs => imgEmpty ty (f vs))
  finish iss s g ty.regs d ((lanesOf iss.lanes).map fun i =>
    let vs := ops.map (ivRead g ty i)
    (i, (f (vs.map (·.1)), vs.any (·.2))))

/-- An instruction with a point result. -/
def ivPoint (ty : Ty) (d a : Opnd) (f : Nat → Nat) : Act := fun iss g s => do
  ivChecks iss g ty [.iv a] false true (fun _ => false)
  finish iss s g ty.point.regs d ((lanesOf iss.lanes).map fun i =>
    let v := ivRead g ty i (.iv a)
    (i, (f v.1, v.2)))

/-- An instruction with a predicate result. -/
def ivPred (ty : Ty) (pd : Opnd) (ops : List IvOp) (empties : Bool) (f : List Nat → Tri) : Act := fun iss g s => do
  ivChecks iss g ty ops false empties (fun _ => false)
  return finishPred iss s g pd ((lanesOf iss.lanes).map fun i =>
    let vs := ops.map (ivRead g ty i)
    (i, (f (vs.map (·.1)), vs.any (·.2))))

/-- An operation of one interval, rounded outward. -/
def iv1 (ty : Ty) (d a : Opnd) (f : Iv → Iv) : Act :=
  ivResult ty d [.iv a] false fun vs => ivOut ty (f (ivOf ty (vs.getD 0 0)))

/-- An operation of two intervals, rounded outward. -/
def iv2 (ty : Ty) (d a b : Opnd) (f : Iv → Iv → Iv) : Act :=
  ivResult ty d [.iv a, .iv b] false fun vs => ivOut ty (f (ivOf ty (vs.getD 0 0)) (ivOf ty (vs.getD 1 0)))

/-- [1, 1]. -/
def Iv.one : Iv := ⟨.fin false 1 0, .fin false 1 0⟩

/-- IVADD (R274). -/
def execIvadd (ty : Ty) (d a b : Opnd) (s : State) : Host.Outcome State Fault Refusal :=
  runAct (iv2 ty d a b (strict2 ivAdd)) s

/-- IVSUB (R274). -/
def execIvsub (ty : Ty) (d a b : Opnd) (s : State) : Host.Outcome State Fault Refusal :=
  runAct (iv2 ty d a b (strict2 fun x y => ivAdd x (ivNeg y))) s

/-- IVMUL (R274). -/
def execIvmul (ty : Ty) (d a b : Opnd) (s : State) : Host.Outcome State Fault Refusal :=
  runAct (iv2 ty d a b (strict2 ivMul)) s

/-- IVDIV (R274). -/
def execIvdiv (ty : Ty) (d a b : Opnd) (s : State) : Host.Outcome State Fault Refusal :=
  runAct (iv2 ty d a b (strict2 ivDiv)) s

/-- IVFMA (R274): a × b + c as one exact set, rounded once. -/
def execIvfma (ty : Ty) (d a b c : Opnd) (s : State) : Host.Outcome State Fault Refusal :=
  runAct (ivResult ty d [.iv a, .iv b, .iv c] false fun vs =>
    ivOut ty (strict2 ivAdd (strict2 ivMul (ivOf ty (vs.getD 0 0)) (ivOf ty (vs.getD 1 0))) (ivOf ty (vs.getD 2 0)))) s

/-- IVSQR (R274). -/
def execIvsqr (ty : Ty) (d a : Opnd) (s : State) : Host.Outcome State Fault Refusal :=
  runAct (iv1 ty d a (strict1 ivSqr)) s

/-- IVSQRT (R274). -/
def execIvsqrt (ty : Ty) (d a : Opnd) (s : State) : Host.Outcome State Fault Refusal :=
  runAct (iv1 ty d a (strict1 ivSqrt)) s

/-- IVRCP (R274). -/
def execIvrcp (ty : Ty) (d a : Opnd) (s : State) : Host.Outcome State Fault Refusal :=
  runAct (iv1 ty d a (strict1 (ivDiv Iv.one))) s

/-- IVEXP2 (R274). -/
def execIvexp2 (ty : Ty) (d a : Opnd) (s : State) : Host.Outcome State Fault Refusal :=
  runAct (iv1 ty d a (strict1 ivExp2)) s

/-- IVLOG2 (R274). -/
def execIvlog2 (ty : Ty) (d a : Opnd) (s : State) : Host.Outcome State Fault Refusal :=
  runAct (iv1 ty d a (strict1 ivLog2)) s

/-- IVABS (R274). -/
def execIvabs (ty : Ty) (d a : Opnd) (s : State) : Host.Outcome State Fault Refusal :=
  runAct (iv1 ty d a (strict1 ivAbs)) s

/-- IVNEG (R274). -/
def execIvneg (ty : Ty) (d a : Opnd) (s : State) : Host.Outcome State Fault Refusal :=
  runAct (iv1 ty d a (strict1 ivNeg)) s

/-- IVMIN (R274, R277). -/
def execIvmin (ty : Ty) (d a b : Opnd) (s : State) : Host.Outcome State Fault Refusal :=
  runAct (iv2 ty d a b (strict2 fun x y => ⟨fmin2 x.lo y.lo, fmin2 x.hi y.hi⟩)) s

/-- IVMAX (R274, R277). -/
def execIvmax (ty : Ty) (d a b : Opnd) (s : State) : Host.Outcome State Fault Refusal :=
  runAct (iv2 ty d a b (strict2 fun x y => ⟨fmax2 x.lo y.lo, fmax2 x.hi y.hi⟩)) s

/-- IVHULL (R274, R277). -/
def execIvhull (ty : Ty) (d a b : Opnd) (s : State) : Host.Outcome State Fault Refusal :=
  runAct (iv2 ty d a b (ivHull)) s

/-- IVISECT (R274, R277). -/
def execIvisect (ty : Ty) (d a b : Opnd) (s : State) : Host.Outcome State Fault Refusal :=
  runAct (iv2 ty d a b (strict2 ivIsect)) s

/-- IVMAKE (R274, R390): NaN points are invalid. -/
def execIvmake (ty : Ty) (d p q : Opnd) (s : State) : Host.Outcome State Fault Refusal :=
  runAct (ivResult ty d [.pt p, .pt q] true fun vs => ivOut ty (ivMake (pointVal ty (vs.getD 0 0)) (pointVal ty (vs.getD 1 0)))) s

/-- IVPT: the least interval that holds the point (R274, R390). -/
def execIvpt (ty : Ty) (d p : Opnd) (s : State) : Host.Outcome State Fault Refusal :=
  runAct (ivResult ty d [.pt p] true fun vs => ivOut ty (ivMake (pointVal ty (vs.getD 0 0)) (pointVal ty (vs.getD 0 0)))) s

/-- IVLO (R274, R275, R389). -/
def execIvlo (ty : Ty) (d a : Opnd) (s : State) : Host.Outcome State Fault Refusal :=
  runAct (ivPoint ty d a (ivBound ty false)) s

/-- IVHI (R274, R275, R389). -/
def execIvhi (ty : Ty) (d a : Opnd) (s : State) : Host.Outcome State Fault Refusal :=
  runAct (ivPoint ty d a (ivBound ty true)) s

/-- IVMID (R274, R275, R389). -/
def execIvmid (ty : Ty) (d a : Opnd) (s : State) : Host.Outcome State Fault Refusal :=
  runAct (ivPoint ty d a (ivMidPoint ty)) s

/-- IVWID (R274, R275, R389). -/
def execIvwid (ty : Ty) (d a : Opnd) (s : State) : Host.Outcome State Fault Refusal :=
  runAct (ivPoint ty d a (ivWidth ty)) s

/-- IVCMP (R279). -/
def execIvcmp (ty : Ty) (rel : Rel) (pd a b : Opnd) (s : State) : Host.Outcome State Fault Refusal :=
  runAct (ivPred ty pd [.iv a, .iv b] true fun vs => ivCompare rel (ivOf ty (vs.getD 0 0)) (ivOf ty (vs.getD 1 0))) s

/-- IVIN (R391): a NaN point is no fault. -/
def execIvin (ty : Ty) (pd p b : Opnd) (s : State) : Host.Outcome State Fault Refusal :=
  runAct (ivPred ty pd [.pt p, .iv b] true fun vs => ivContains (pointVal ty (vs.getD 0 0)) (ivOf ty (vs.getD 1 0))) s

/-- IVSUBS (R391). -/
def execIvsubs (ty : Ty) (pd a b : Opnd) (s : State) : Host.Outcome State Fault Refusal :=
  runAct (ivPred ty pd [.iv a, .iv b] true fun vs => ivSubset (ivOf ty (vs.getD 0 0)) (ivOf ty (vs.getD 1 0))) s

/-- IVEMP reads empties and never faults for them (R276). -/
def execIvemp (ty : Ty) (pd a : Opnd) (s : State) : Host.Outcome State Fault Refusal :=
  runAct (ivPred ty pd [.iv a] false fun vs => triOf (ivOf ty (vs.getD 0 0)).isEmpty) s

end Sys2Proof.Machine
end

