-- ==== Sys2Proof/Machine/IvPool.lean ====
section
/-! DEFINITION. The bisection pool: IVBIS and IVBFL (R280, R285 to R289, R392). -/

namespace Sys2Proof.Machine

/-- A bound's code with a zero bound as +0 (R273). -/
def plusZero (ty : Ty) (c : Nat) : Nat := if c = 2 ^ (ivFmt ty).signBit then 0 else c

/-- The lower half [lo, m] of an interval (R286). -/
def lowerHalf (ty : Ty) (v : Nat) : Nat :=
  ivPack ty (plusZero ty (v % 2 ^ boundBits ty)) (plusZero ty (midCode ty (ivOf ty v)))

/-- The upper half [m, hi]. -/
def upperHalf (ty : Ty) (v : Nat) : Nat :=
  ivPack ty (plusZero ty (midCode ty (ivOf ty v))) (plusZero ty (v / 2 ^ boundBits ty % 2 ^ boundBits ty))

/-- The four words of a pool entry (R285): the upper half in its memory layout, and the carry words of a 32-bit or bf16
interval. -/
def entryWords (ty : Ty) (a b c : Val) : List Reg :=
  let h := upperHalf ty a.1
  let w := fun k => (⟨BitVec.ofNat 32 (h / 2 ^ (32 * k)), a.2⟩ : Reg)
  match ty with
  | .f64iv => [w 0, w 1, w 2, w 3]
  | .bf16iv => [w 0, Reg.zero, ⟨BitVec.ofNat 32 b.1, b.2⟩, ⟨BitVec.ofNat 32 c.1, c.2⟩]
  | _ => [w 0, w 1, ⟨BitVec.ofNat 32 b.1, b.2⟩, ⟨BitVec.ofNat 32 c.1, c.2⟩]

/-- The team whose pool a group uses. -/
def poolTeam (s : State) (g : Group) : Option (Nat × Team) :=
  match g.team with
  | none => none
  | some n => (tget? n s.teams).map fun t => (n, t)

/-- IVBIS (R286): the checks of R390, the room, and the token; then the lower halves, and the upper halves in the
pool. (DEDUCED: log entry 15) -/
def ivbisAct (ty : Ty) (d a b c : Opnd) : Act :=
  committing
    (fun iss g s => do
      ivChecks iss g ty [.iv a] false true (fun _ => false)
      let need := ((lanesOf iss.lanes).filter fun i => !imgEmpty ty (readOp g i ty ty.regs a).1).length
      let team := poolTeam s g
      require (decide (need ≤ team.elim 0 fun (_, t) => poolRoom t)) (.plain 0x12 iss.lanes)
      needToken s iss g 0
      require (match team with
        | none => true
        | some (_, t) => decide (t.pn + need < 32) || s.queueRoom (t.part * 256 + t.core)) (.hold .enqueue)
      return s)
    fun iss g s => do
      let s := match g.team with
        | none => s
        | some serial => (lanesOf iss.lanes).foldl (fun s i =>
            let v := readOp g i ty ty.regs a
            if imgEmpty ty v.1 then s
            else s.poolAppend iss.key serial (entryWords ty v (read32 g i b) (read32 g i c))) s
      let vals := (lanesOf iss.lanes).map fun i =>
        let v := readOp g i ty ty.regs a
        (i, ((if imgEmpty ty v.1 then ivOut ty .empty else lowerHalf ty v.1), v.2))
      let g := s.groupNow iss.key g
      finish iss s { g with touched := true } ty.regs d vals

/-- IVBIS. -/
def execIvbis (ty : Ty) (d a b c : Opnd) (s : State) : Host.Outcome State Fault Refusal :=
  runAct (ivbisAct ty d a b c) s

/-- IVBFL: once for the group, the filling batch makes its task when it holds an entry (R287). (DEDUCED: log entry 15) -/
def ivbflAct : Act :=
  committing
    (fun iss g s => do
      needToken s iss g 0
      require (match poolTeam s g with
        | none => true
        | some (_, t) => t.pn == 0 || s.queueRoom (t.part * 256 + t.core)) (.hold .enqueue)
      return s)
    fun iss g s =>
      match poolTeam s g with
      | some (serial, t) => .ok (if t.pb = 0 || t.pn = 0 then s else s.makePoolTask iss.key serial t.pn)
      | none => .ok s

/-- IVBFL. -/
def execIvbfl (s : State) : Host.Outcome State Fault Refusal := runAct ivbflAct s

end Sys2Proof.Machine
end

