-- ==== Sys2Proof/Machine/LanePred.lean ====
section
/-! DEFINITION. The lane network and the predicates of class 000 (R369, R370). -/

namespace Sys2Proof.Machine

/-- The source lane of SHFL for lane i: modes over segments of width w (R369). -/
def shflSource (mode : ShflMode) (w i b : Nat) : Nat :=
  let lo := i - i % w
  let r := i - lo
  match mode with
  | .idx => lo + b % w
  | .rot => lo + (r + b) % w
  | .xor => lo + (r ^^^ (b % w))
  | .rev => lo + (w - 1 - r)

/-- SHFL: a lane whose source does not execute writes neither D nor its latch (R369). -/
def shflAct (ty : Ty) (mode : ShflMode) (d a b : Opnd) : Act := fun iss g s => do
  let n := ty.regs
  let ls := lanesOf iss.lanes
  let bm := read32 g (lowLane iss.lanes) b
  let gc := bits bm.1 8 3
  let w := if 1 ≤ gc ∧ gc ≤ 5 then 2 ^ gc else 32
  finish iss s g n d (ls.filterMap fun i =>
    let bi := read32 g i b
    let j := shflSource mode w i (bi.1 % 256)
    if bit iss.lanes j then
      let v := readOp g j ty n a
      some (i, (v.1, v.2 || bi.2 || bm.2))
    else none)

/-- SHFL (R369). -/
def execShfl (ty : Ty) (mode : ShflMode) (d a b : Opnd) (s : State) : Host.Outcome State Fault Refusal :=
  runAct (shflAct ty mode d a b) s

/-- VOTE: a conjunction, a disjunction or a ballot of the executing lanes' predicates (R369). -/
def voteAct (mode : VoteMode) (d pa : Opnd) : Act := fun iss g s =>
  let ls := lanesOf iss.lanes
  let vs := ls.map fun i => (i, readOp g i .n32 1 pa)
  let p := vs.any fun v => v.2.2
  let tri := fun (k : Tri) => maskOf fun i => vs.any fun v => v.1 == i && triOfNum v.2.1 == k
  match mode with
  | .all => .ok (finishPred iss s g d (ls.map fun i => (i, (vs.foldl (fun acc v => kleeneAnd acc (triOfNum v.2.1)) .T, p))))
  | .any => .ok (finishPred iss s g d (ls.map fun i => (i, (vs.foldl (fun acc v => kleeneOr acc (triOfNum v.2.1)) .F, p))))
  | .ballot => finish iss s g 1 d (ls.map fun i => (i, (tri .T, p)))
  | .ballotf => finish iss s g 1 d (ls.map fun i => (i, (tri .F, p)))
  | .ballotu => finish iss s g 1 d (ls.map fun i => (i, (tri .U, p)))

/-- VOTE (R369). -/
def execVote (mode : VoteMode) (d pa : Opnd) (s : State) : Host.Outcome State Fault Refusal := runAct (voteAct mode d pa) s

/-- One combination of REDUX at a type. -/
def reduxOp (ty : Ty) (op : ReduxOp) (x y : Nat) : Nat :=
  match op with
  | .add => (x + y) % 2 ^ tyWidth ty
  | .min => if tyInt ty x ≤ tyInt ty y then x else y
  | .max => if tyInt ty x ≤ tyInt ty y then y else x
  | .and => x &&& y
  | .or => x ||| y
  | .xor => x ^^^ y

/-- REDUX: the fold over the executing lanes (R369). -/
def reduxAct (ty : Ty) (op : ReduxOp) (d a : Opnd) : Act := fun iss g s =>
  let ls := lanesOf iss.lanes
  let vs := ls.map fun i => readOp g i ty ty.regs a
  match vs with
  | [] => .ok s
  | v :: rest =>
    let r := rest.foldl (fun acc x => (reduxOp ty op acc.1 x.1, acc.2 || x.2)) v
    finish iss s g ty.regs d (ls.map fun i => (i, r))

/-- REDUX (R369). -/
def execRedux (ty : Ty) (op : ReduxOp) (d a : Opnd) (s : State) : Host.Outcome State Fault Refusal :=
  runAct (reduxAct ty op d a) s

/-- READL: every executing lane gets the value of one lane (R369). -/
def readlAct (ty : Ty) (d a b : Opnd) : Act := fun iss g s =>
  let m := lowLane iss.lanes
  let bm := read32 g m b
  let k := bm.1 % 32
  let k := if bit iss.lanes k then k else m
  let v := readOp g k ty ty.regs a
  finish iss s g ty.regs d ((lanesOf iss.lanes).map fun i => (i, (v.1, v.2 || bm.2)))

/-- READL (R369). -/
def execReadl (ty : Ty) (d a b : Opnd) (s : State) : Host.Outcome State Fault Refusal := runAct (readlAct ty d a b) s

/-- ELECT: T in the lowest executing lane, F in the others (R369). -/
def execElect (pd : Opnd) (s : State) : Host.Outcome State Fault Refusal :=
  runAct (fun iss g s => .ok (finishPred iss s g pd
    ((lanesOf iss.lanes).map fun i => (i, (triOf (i == lowLane iss.lanes), false))))) s

/-- A predicate after the negation flag (R370). -/
def predFlag (neg : Bool) (c : Nat) : Tri := if neg then kleeneNot (triOfNum c) else triOfNum c

/-- PAND (R370). -/
def execPand (negA negB : Bool) (pd pa pb : Opnd) (s : State) : Host.Outcome State Fault Refusal :=
  runAct (test2 pd .n32 1 pa .n32 1 pb fun x y => kleeneAnd (predFlag negA x) (predFlag negB y)) s

/-- POR (R370). -/
def execPor (negA negB : Bool) (pd pa pb : Opnd) (s : State) : Host.Outcome State Fault Refusal :=
  runAct (test2 pd .n32 1 pa .n32 1 pb fun x y => kleeneOr (predFlag negA x) (predFlag negB y)) s

/-- PNOT; with negA a plain copy (R370). -/
def execPnot (negA : Bool) (pd pa : Opnd) (s : State) : Host.Outcome State Fault Refusal :=
  runAct (test1 pd .n32 1 pa fun x => kleeneNot (predFlag negA x)) s

/-- PSET: from the low two bits (R370). -/
def execPset (pd a : Opnd) (s : State) : Host.Outcome State Fault Refusal :=
  runAct (test1 pd .n32 1 a fun x => triOfNum (x % 4)) s

/-- PDEF: 0 for F, 1 for T, 2 for U (R370). -/
def execPdef (d pa : Opnd) (s : State) : Host.Outcome State Fault Refusal :=
  runAct (alu1 d 1 .n32 1 pa fun x => triNum (triOfNum x)) s

/-- Whether a value lies in a mask: bit 2 T, bit 1 F, bit 0 U (R14, R370). -/
def inMask (m : Nat) (v : Tri) : Bool :=
  match v with
  | .T => bit m 2 | .F => bit m 1 | .U => bit m 0

/-- PTEST (R370). -/
def execPtest (m : Nat) (pd pa : Opnd) (s : State) : Host.Outcome State Fault Refusal :=
  runAct (test1 pd .n32 1 pa fun x => triOf (inMask m (triOfNum x))) s

end Sys2Proof.Machine
end

