-- ==== Sys2Proof/Machine/Memory.lean ====
section
/-! DEFINITION. The plain loads and stores, the interval loads and stores, ATOM, PREF, BIND and UNBIND, and FENCE
(R401 to R408, R284, R199). -/

namespace Sys2Proof.Machine

/-- A plain load (R401, R402). -/
def plainLoad (sp : Space) (ty : Ty) (sw : SubWord) (d base idx : Opnd) (off : BitVec 20) : Act :=
  loadAct sp ty (accessSize ty sw) ty.regs (extendLoad ty sw) (sw == .full && (ty == .f32 || ty == .bf16x2)) d base idx off

/-- A plain store (R401, R402): the data are D's low bytes. -/
def plainStore (sp : Space) (ty : Ty) (sw : SubWord) (d base idx : Opnd) (off : BitVec 20) : Act :=
  storeAct sp (accessSize ty sw) (fun g i => readOp g i ty ty.regs d) (sw == .full && ty == .f32) base idx off

/-- LD: the generic space. -/
def execLd (ty : Ty) (sw : SubWord) (_cache : Cache) (d base idx : Opnd) (off : BitVec 20) (s : State) :
    Host.Outcome State Fault Refusal := runAct (plainLoad .generic ty sw d base idx off) s

/-- ST: the generic space. -/
def execSt (ty : Ty) (sw : SubWord) (_cache : Cache) (d base idx : Opnd) (off : BitVec 20) (s : State) :
    Host.Outcome State Fault Refusal := runAct (plainStore .generic ty sw d base idx off) s

/-- LDL: the team's local store. -/
def execLdl (ty : Ty) (sw : SubWord) (_cache : Cache) (d base idx : Opnd) (off : BitVec 20) (s : State) :
    Host.Outcome State Fault Refusal := runAct (plainLoad .localStore ty sw d base idx off) s

/-- STL: the team's local store, at once. -/
def execStl (ty : Ty) (sw : SubWord) (_cache : Cache) (d base idx : Opnd) (off : BitVec 20) (s : State) :
    Host.Outcome State Fault Refusal := runAct (plainStore .localStore ty sw d base idx off) s

/-- LDD: the issuing core's die store. -/
def execLdd (ty : Ty) (sw : SubWord) (_cache : Cache) (d base idx : Opnd) (off : BitVec 20) (s : State) :
    Host.Outcome State Fault Refusal := runAct (plainLoad .die ty sw d base idx off) s

/-- STD: the issuing core's die store, buffered. -/
def execStd (ty : Ty) (sw : SubWord) (_cache : Cache) (d base idx : Opnd) (off : BitVec 20) (s : State) :
    Host.Outcome State Fault Refusal := runAct (plainStore .die ty sw d base idx off) s

/-- LDSP: the group's spill window. -/
def execLdsp (ty : Ty) (sw : SubWord) (_cache : Cache) (d base idx : Opnd) (off : BitVec 20) (s : State) :
    Host.Outcome State Fault Refusal := runAct (plainLoad .spill ty sw d base idx off) s

/-- STSP: the group's spill window, at once. -/
def execStsp (ty : Ty) (sw : SubWord) (_cache : Cache) (d base idx : Opnd) (off : BitVec 20) (s : State) :
    Host.Outcome State Fault Refusal := runAct (plainStore .spill ty sw d base idx off) s

/-- LDIV: an interval's bytes, unchecked (R403, R272). -/
def execLdiv (ty : Ty) (_cache : Cache) (d base idx : Opnd) (off : BitVec 20) (s : State) :
    Host.Outcome State Fault Refusal :=
  runAct (loadAct .generic ty (4 * ty.regs) ty.regs id false d base idx off) s

/-- STIV: an interval's bytes, buffered as ST's are (R403). -/
def execStiv (ty : Ty) (_cache : Cache) (d base idx : Opnd) (off : BitVec 20) (s : State) :
    Host.Outcome State Fault Refusal :=
  runAct (storeAct .generic (4 * ty.regs) (fun g i => readOp g i ty ty.regs d) false base idx off) s

/-- The bytes of an ATOM's operand (R404). -/
def atomSize (ty : Ty) : Nat := 4 * ty.regs

/-- The hull of the memory's interval and the lane's, by the bounds' own bits (R284). -/
def hullBits (ty : Ty) (m v : Nat) : Nat :=
  let w := 2 ^ boundBits ty
  let im := ivOf ty m
  let iv := ivOf ty v
  if im.isEmpty then v
  else if iv.isEmpty then m
  else ivPack ty (if iv.lo.lt im.lo then v % w else m % w) (if im.hi.lt iv.hi then v / w % w else m / w % w)

/-- What an ATOM's step writes; none when it writes nothing (R404, R284). -/
def atomNew (ty : Ty) (op : AtomOp) (old v expected : Nat) : Option Nat :=
  match op with
  | .add => some ((old + v) % 2 ^ tyWidth ty)
  | .min => some (if tyInt ty v < tyInt ty old then v else old)
  | .max => some (if tyInt ty old < tyInt ty v then v else old)
  | .and => some (old &&& v)
  | .or => some (old ||| v)
  | .xor => some (old ^^^ v)
  | .xchg => some v
  | .cas => if old = expected then some v else none
  | .fadd => some (perElement ty (fun p q _ => fpRound ty .rne false ((fpVal ty p).add .rne (fpVal ty q))) old v 0)
  | .hull => if (ivOf ty old).isInvalid then none else some (hullBits ty old v)

/-- Whether an ATOM's step counts as modifying memory (R157, R405, R284). -/
def atomModifies (op : AtomOp) (old : Nat) : Option Nat → Bool
  | none => false
  | some new => op != .hull || new != old

/-- The faults of an ATOM's lanes beyond translation (R405, R176, R177, R202, R404). -/
def atomFaults (s : State) (key : Nat) (p : Part) (g : Group) (ty : Ty) (op : AtomOp) (b : Opnd) (xs : List LaneAccess) :
    List LaneFault :=
  (xs.filterMap fun x =>
    match x.entry with
    | none => none
    | some e =>
      if e.fmt != 0 then some ⟨x.lane, 0x04, x.gen, 0⟩
      else if e.mtype = 1 || e.mtype = 2 || (p.ranges.getD e.range Range.none).host then some ⟨x.lane, 0x07, x.gen, 0⟩
      else none) ++
  (if op = .hull then xs.filterMap fun x =>
    let iv := ivOf ty (readOp g x.lane ty ty.regs b).1
    if iv.isInvalid then some ⟨x.lane, 0x10, x.gen, 0⟩
    else if g.eif && iv.isEmpty then some ⟨x.lane, 0x11, x.gen, 0⟩ else none
   else []) ++
  lockFaults s key g true xs ++
  (if s.lacksToken key g then xs.map fun x => ⟨x.lane, 0x13, x.gen, 0⟩ else [])

/-- One lane's indivisible step at the home of its location, for a context: the state, the old value, and whether memory was modified
(R405). -/
def atomStep (s : State) (who : Nat) (pl : Place) (ty : Ty) (op : AtomOp) (v expected : Val) : State × Val × Bool :=
  let n := atomSize ty
  let old := leNat (s.readPlace pl n)
  let new := atomNew ty op old v.1 expected.1
  let pois := s.poisonAt pl.phys n || v.2 || (op == .cas && expected.2)
  let s := match new with
    | none => s
    | some x => s.writeRun (some who) pl.key pl.phys (leBytes n x) pois
  (s, (old, pois), atomModifies op old new)

/-- ATOM: checks, drain, one step for each lane in order, and the old values as a variable-latency result (R404,
R405). -/
def atomAct (ty : Ty) (op : AtomOp) (nr : Bool) (d base b : Opnd) (off : BitVec 20) : Act :=
  let look : Act := fun iss g s => do
    let as ← laneAddrs .generic g iss base .zero off
    let n := atomSize ty
    let xs := accesses s iss.key g .generic n .a (as.map fun (i, a) => (i, a - a % n))
    awaitPages xs
    let p ← needPart s iss
    raiseFaults Acc.a.bits (byteFaults xs ++ atomFaults s iss.key p g ty op b xs)
    loadRoom g
    return s
  committing look fun iss g s => do
    let as ← laneAddrs .generic g iss base .zero off
    let n := atomSize ty
    let xs := accesses s iss.key g .generic n .a (as.map fun (i, a) => (i, a - a % n))
    let (s, olds, mod) := xs.foldl (fun (s, olds, mod) x =>
      match x.places with
      | [] => (s, olds, mod)
      | (pl, e) :: _ =>
        let v := readOp g x.lane ty ty.regs b
        let ex := if nr then (0, false) else readOp g x.lane ty ty.regs d
        let (s, old, m) := atomStep s g.pasid pl ty op v ex
        let s := s.charge (partOf iss.key) g.pasid (memCost pl.phys n)
        (s, olds ++ [(x.lane, x.gen, (old.1, old.2 || e.elim false (·.por)))], if m then mod ||| 2 ^ x.lane else mod)) (s, [], 0)
    let g := (g.raiseLoad (if nr then [] else sectorsOf d ty.regs olds)).unclean mod
    return s.setGroup iss.key { g with progress := g.progress || mod != 0 }

/-- ATOM. Its scope orders nothing that the model's one order of accesses does not (R202). -/
def execAtom (ty : Ty) (op : AtomOp) (_scope : Scope) (nr : Bool) (d base b : Opnd) (off : BitVec 20) (s : State) :
    Host.Outcome State Fault Refusal := runAct (atomAct ty op nr d base b off) s

/-- PREF: it never faults on its address and changes nothing that a program sees, but a poisoned base or index ends the
task (R406, R400). (DEDUCED: log entry 18) -/
def prefAct (base idx : Opnd) (off : BitVec 20) : Act := fun iss g s => do
  let _ ← laneAddrs .generic g iss base idx off
  return s

/-- PREF. -/
def execPref (_cache : Cache) (base idx : Opnd) (off : BitVec 20) (s : State) : Host.Outcome State Fault Refusal :=
  runAct (prefAct base idx off) s

/-- FENCE: with one order of all accesses, and drains in order of issue, it has nothing left to order (R199, R409). (DEDUCED: log entry 18) -/
def fenceAct : Act := fun _ _ s => .ok s

/-- FENCE. -/
def execFence (_scope : Scope) (s : State) : Host.Outcome State Fault Refusal := runAct fenceAct s

end Sys2Proof.Machine
end

