-- ==== Sys2Proof/Machine/Dispatch.lean ====
section
/-! DEFINITION. One arm for every row of the opcode table, each a direct call of its meaning. -/

namespace Sys2Proof.Machine

open Sys2Proof

/-- What an instruction or step does in a state. -/
def exec (i : Instr) (s : State) : Host.Outcome State Fault Refusal :=
  match i with
  | .iadd ty fl d a b => Sys2Proof.Machine.execIadd ty fl d a b s
  | .isub ty fl d a b => Sys2Proof.Machine.execIsub ty fl d a b s
  | .imul ty fl d a b => Sys2Proof.Machine.execImul ty fl d a b s
  | .imulh ty fl d a b => Sys2Proof.Machine.execImulh ty fl d a b s
  | .imin ty fl d a b => Sys2Proof.Machine.execImin ty fl d a b s
  | .imax ty fl d a b => Sys2Proof.Machine.execImax ty fl d a b s
  | .and ty d a b => Sys2Proof.Machine.execAnd ty d a b s
  | .or ty d a b => Sys2Proof.Machine.execOr ty d a b s
  | .xor ty d a b => Sys2Proof.Machine.execXor ty d a b s
  | .andn ty d a b => Sys2Proof.Machine.execAndn ty d a b s
  | .shl ty d a b => Sys2Proof.Machine.execShl ty d a b s
  | .shr ty d a b => Sys2Proof.Machine.execShr ty d a b s
  | .sar ty d a b => Sys2Proof.Machine.execSar ty d a b s
  | .rol ty d a b => Sys2Proof.Machine.execRol ty d a b s
  | .iabs ty sat d a => Sys2Proof.Machine.execIabs ty sat d a s
  | .popc ty d a => Sys2Proof.Machine.execPopc ty d a s
  | .clz ty d a => Sys2Proof.Machine.execClz ty d a s
  | .ctz ty d a => Sys2Proof.Machine.execCtz ty d a s
  | .brev ty d a => Sys2Proof.Machine.execBrev ty d a s
  | .mov ty d a => Sys2Proof.Machine.execMov ty d a s
  | .movi ty d v => Sys2Proof.Machine.execMovi ty d v s
  | .imad ty fl d a b c => Sys2Proof.Machine.execImad ty fl d a b c s
  | .imadw ty sat d a b c => Sys2Proof.Machine.execImadw ty sat d a b c s
  | .lea ty n d a b => Sys2Proof.Machine.execLea ty n d a b s
  | .bfx ty d a b => Sys2Proof.Machine.execBfx ty d a b s
  | .bfi ty d a b c => Sys2Proof.Machine.execBfi ty d a b c s
  | .prmt ty d a b c => Sys2Proof.Machine.execPrmt ty d a b c s
  | .ladd ty d a b pc => Sys2Proof.Machine.execLadd ty d a b pc s
  | .lsub ty d a b pc => Sys2Proof.Machine.execLsub ty d a b pc s
  | .sel ty d a b pc => Sys2Proof.Machine.execSel ty d a b pc s
  | .icmp ty rel fl pd a b => Sys2Proof.Machine.execIcmp ty rel fl pd a b s
  | .shfl ty mode d a b => Sys2Proof.Machine.execShfl ty mode d a b s
  | .vote mode d pa => Sys2Proof.Machine.execVote mode d pa s
  | .redux ty op d a => Sys2Proof.Machine.execRedux ty op d a s
  | .readl ty d a b => Sys2Proof.Machine.execReadl ty d a b s
  | .elect pd => Sys2Proof.Machine.execElect pd s
  | .pand negA negB pd pa pb => Sys2Proof.Machine.execPand negA negB pd pa pb s
  | .por negA negB pd pa pb => Sys2Proof.Machine.execPor negA negB pd pa pb s
  | .pnot negA pd pa => Sys2Proof.Machine.execPnot negA pd pa s
  | .pset pd a => Sys2Proof.Machine.execPset pd a s
  | .pdef d pa => Sys2Proof.Machine.execPdef d pa s
  | .ptest m pd pa => Sys2Proof.Machine.execPtest m pd pa s
  | .fadd ty rnd fl d a b => Sys2Proof.Machine.execFadd ty rnd fl d a b s
  | .fsub ty rnd fl d a b => Sys2Proof.Machine.execFsub ty rnd fl d a b s
  | .fmul ty rnd fl d a b => Sys2Proof.Machine.execFmul ty rnd fl d a b s
  | .ffma ty rnd fl d a b c => Sys2Proof.Machine.execFfma ty rnd fl d a b c s
  | .fmin ty fl d a b => Sys2Proof.Machine.execFmin ty fl d a b s
  | .fmax ty fl d a b => Sys2Proof.Machine.execFmax ty fl d a b s
  | .fcmp ty rel fl pd a b => Sys2Proof.Machine.execFcmp ty rel fl pd a b s
  | .fdiv ty rnd fl d a b => Sys2Proof.Machine.execFdiv ty rnd fl d a b s
  | .fsqrt ty rnd fl d a => Sys2Proof.Machine.execFsqrt ty rnd fl d a s
  | .frcp ty rnd fl d a => Sys2Proof.Machine.execFrcp ty rnd fl d a s
  | .frsq ty rnd fl d a => Sys2Proof.Machine.execFrsq ty rnd fl d a s
  | .fexp2 ty rnd fl d a => Sys2Proof.Machine.execFexp2 ty rnd fl d a s
  | .flog2 ty rnd fl d a => Sys2Proof.Machine.execFlog2 ty rnd fl d a s
  | .frnd ty rnd fl d a => Sys2Proof.Machine.execFrnd ty rnd fl d a s
  | .fclass ty fl d a => Sys2Proof.Machine.execFclass ty fl d a s
  | .fscale ty rnd fl d a b => Sys2Proof.Machine.execFscale ty rnd fl d a b s
  | .ivadd ty d a b => Sys2Proof.Machine.execIvadd ty d a b s
  | .ivsub ty d a b => Sys2Proof.Machine.execIvsub ty d a b s
  | .ivmul ty d a b => Sys2Proof.Machine.execIvmul ty d a b s
  | .ivdiv ty d a b => Sys2Proof.Machine.execIvdiv ty d a b s
  | .ivfma ty d a b c => Sys2Proof.Machine.execIvfma ty d a b c s
  | .ivsqr ty d a => Sys2Proof.Machine.execIvsqr ty d a s
  | .ivsqrt ty d a => Sys2Proof.Machine.execIvsqrt ty d a s
  | .ivrcp ty d a => Sys2Proof.Machine.execIvrcp ty d a s
  | .ivexp2 ty d a => Sys2Proof.Machine.execIvexp2 ty d a s
  | .ivlog2 ty d a => Sys2Proof.Machine.execIvlog2 ty d a s
  | .ivabs ty d a => Sys2Proof.Machine.execIvabs ty d a s
  | .ivneg ty d a => Sys2Proof.Machine.execIvneg ty d a s
  | .ivmin ty d a b => Sys2Proof.Machine.execIvmin ty d a b s
  | .ivmax ty d a b => Sys2Proof.Machine.execIvmax ty d a b s
  | .ivhull ty d a b => Sys2Proof.Machine.execIvhull ty d a b s
  | .ivisect ty d a b => Sys2Proof.Machine.execIvisect ty d a b s
  | .ivmake ty d p q => Sys2Proof.Machine.execIvmake ty d p q s
  | .ivpt ty d p => Sys2Proof.Machine.execIvpt ty d p s
  | .ivlo ty d a => Sys2Proof.Machine.execIvlo ty d a s
  | .ivhi ty d a => Sys2Proof.Machine.execIvhi ty d a s
  | .ivmid ty d a => Sys2Proof.Machine.execIvmid ty d a s
  | .ivwid ty d a => Sys2Proof.Machine.execIvwid ty d a s
  | .ivcmp ty rel pd a b => Sys2Proof.Machine.execIvcmp ty rel pd a b s
  | .ivin ty pd p b => Sys2Proof.Machine.execIvin ty pd p b s
  | .ivsubs ty pd a b => Sys2Proof.Machine.execIvsubs ty pd a b s
  | .ivemp ty pd a => Sys2Proof.Machine.execIvemp ty pd a s
  | .ivbis ty d a b c => Sys2Proof.Machine.execIvbis ty d a b c s
  | .ivbfl => Sys2Proof.Machine.execIvbfl s
  | .cvt dty sty n rnd fl d a => Sys2Proof.Machine.execCvt dty sty n rnd fl d a s
  | .pack ty n rnd fl d a b c => Sys2Proof.Machine.execPack ty n rnd fl d a b c s
  | .unpk ty n d a => Sys2Proof.Machine.execUnpk ty n d a s
  | .qst k lg cache d base idx off => Sys2Proof.Machine.execQst k lg cache d base idx off s
  | .qaxis lane carry d => Sys2Proof.Machine.execQaxis lane carry d s
  | .qclr d => Sys2Proof.Machine.execQclr d s
  | .qget d a => Sys2Proof.Machine.execQget d a s
  | .qset d a => Sys2Proof.Machine.execQset d a s
  | .ld ty sw cache d base idx off => Sys2Proof.Machine.execLd ty sw cache d base idx off s
  | .st ty sw cache d base idx off => Sys2Proof.Machine.execSt ty sw cache d base idx off s
  | .ldl ty sw cache d base idx off => Sys2Proof.Machine.execLdl ty sw cache d base idx off s
  | .stl ty sw cache d base idx off => Sys2Proof.Machine.execStl ty sw cache d base idx off s
  | .ldd ty sw cache d base idx off => Sys2Proof.Machine.execLdd ty sw cache d base idx off s
  | .std ty sw cache d base idx off => Sys2Proof.Machine.execStd ty sw cache d base idx off s
  | .ldsp ty sw cache d base idx off => Sys2Proof.Machine.execLdsp ty sw cache d base idx off s
  | .stsp ty sw cache d base idx off => Sys2Proof.Machine.execStsp ty sw cache d base idx off s
  | .ldiv ty cache d base idx off => Sys2Proof.Machine.execLdiv ty cache d base idx off s
  | .stiv ty cache d base idx off => Sys2Proof.Machine.execStiv ty cache d base idx off s
  | .atom ty op scope nr d base b off => Sys2Proof.Machine.execAtom ty op scope nr d base b off s
  | .pref cache base idx off => Sys2Proof.Machine.execPref cache base idx off s
  | .bind src base n off => Sys2Proof.Machine.execBind src base n off s
  | .unbind src => Sys2Proof.Machine.execUnbind src s
  | .acq scope src => Sys2Proof.Machine.execAcq scope src s
  | .rel scope src => Sys2Proof.Machine.execRel scope src s
  | .fence scope => Sys2Proof.Machine.execFence scope s
  | .sinit kind a b => Sys2Proof.Machine.execSinit kind a b s
  | .sarr scope a b => Sys2Proof.Machine.execSarr scope a b s
  | .sexp a b => Sys2Proof.Machine.execSexp a b s
  | .swait pd a b t => Sys2Proof.Machine.execSwait pd a b t s
  | .swaitTimeout g lane => Sys2Proof.Machine.execSwaitTimeout g lane s
  | .stry pd a b => Sys2Proof.Machine.execStry pd a b s
  | .bar => Sys2Proof.Machine.execBar s
  | .cbar => Sys2Proof.Machine.execCbar s
  | .bcopyG2l d a b => Sys2Proof.Machine.execBcopyG2l d a b s
  | .bcopyL2g d a b => Sys2Proof.Machine.execBcopyL2g d a b s
  | .copyComplete op => Sys2Proof.Machine.execCopyComplete op s
  | .bqst d a b => Sys2Proof.Machine.execBqst d a b s
  | .bqstComplete op => Sys2Proof.Machine.execBqstComplete op s
  | .mma ty z ru d a b => Sys2Proof.Machine.execMma ty z ru d a b s
  | .mmab a => Sys2Proof.Machine.execMmab a s
  | .mmabStage core => Sys2Proof.Machine.execMmabStage core s
  | .mmabDone core => Sys2Proof.Machine.execMmabDone core s
  | .sampledTileCheck core => Sys2Proof.Machine.execSampledTileCheck core s
  | .coll a => Sys2Proof.Machine.execColl a s
  | .collPartialArrival op child vals digests => Sys2Proof.Machine.execCollPartialArrival op child vals digests s
  | .collDigestArrival op shard digest => Sys2Proof.Machine.execCollDigestArrival op shard digest s
  | .collComplete op vals => Sys2Proof.Machine.execCollComplete op vals s
  | .collTimeout op => Sys2Proof.Machine.execCollTimeout op s
  | .sbind d a => Sys2Proof.Machine.execSbind d a s
  | .sfree d => Sys2Proof.Machine.execSfree d s
  | .bra off => Sys2Proof.Machine.execBra off s
  | .brx a b => Sys2Proof.Machine.execBrx a b s
  | .call off => Sys2Proof.Machine.execCall off s
  | .callx a b => Sys2Proof.Machine.execCallx a b s
  | .ret => Sys2Proof.Machine.execRet s
  | .join pd a b => Sys2Proof.Machine.execJoin pd a b s
  | .joinTimeout g pc => Sys2Proof.Machine.execJoinTimeout g pc s
  | .bse n src off => Sys2Proof.Machine.execBse n src off s
  | .region m => Sys2Proof.Machine.execRegion m s
  | .phase m => Sys2Proof.Machine.execPhase m s
  | .phaseResume g => Sys2Proof.Machine.execPhaseResume g s
  | .xacq => Sys2Proof.Machine.execXacq s
  | .xrel => Sys2Proof.Machine.execXrel s
  | .yield => Sys2Proof.Machine.execYield s
  | .nop => Sys2Proof.Machine.execNop s
  | .waitc => Sys2Proof.Machine.execWaitc s
  | .exit => Sys2Proof.Machine.execExit s
  | .spawn queue pin d a b => Sys2Proof.Machine.execSpawn queue pin d a b s
  | .enqueueResume g => Sys2Proof.Machine.execEnqueueResume g s
  | .trap code a => Sys2Proof.Machine.execTrap code a s
  | .bkpt code a => Sys2Proof.Machine.execBkpt code a s
  | .evpost d a b => Sys2Proof.Machine.execEvpost d a b s
  | .evld d a => Sys2Proof.Machine.execEvld d a s
  | .evrel a => Sys2Proof.Machine.execEvrel a s
  | .wmark a b => Sys2Proof.Machine.execWmark a b s
  | .autld d a => Sys2Proof.Machine.execAutld d a s
  | .autctlStop d a => Sys2Proof.Machine.execAutctlStop d a s
  | .autctlResume d a => Sys2Proof.Machine.execAutctlResume d a s
  | .autctlCkpt d a b => Sys2Proof.Machine.execAutctlCkpt d a b s
  | .autctlRemove d a => Sys2Proof.Machine.execAutctlRemove d a s
  | .autctlCount d a => Sys2Proof.Machine.execAutctlCount d a s
  | .autctlOpen d a => Sys2Proof.Machine.execAutctlOpen d a s
  | .autctlClose d a => Sys2Proof.Machine.execAutctlClose d a s
  | .sysrd d a => Sys2Proof.Machine.execSysrd d a s
  | .syswrGctl d a b => Sys2Proof.Machine.execSyswrGctl d a b s
  | .syswrContextSet d b => Sys2Proof.Machine.execSyswrContextSet d b s
  | .syswrInvalidate d b => Sys2Proof.Machine.execSyswrInvalidate d b s
  | .syswrMigrate d b => Sys2Proof.Machine.execSyswrMigrate d b s
  | .syswrContextStop d b => Sys2Proof.Machine.execSyswrContextStop d b s
  | .syswrContextResume d b => Sys2Proof.Machine.execSyswrContextResume d b s
  | .syswrGroup d b => Sys2Proof.Machine.execSyswrGroup d b s
  | .syswrQueueCreate d b => Sys2Proof.Machine.execSyswrQueueCreate d b s
  | .syswrQueueDestroy d b => Sys2Proof.Machine.execSyswrQueueDestroy d b s
  | .syswrQueueSwap d b => Sys2Proof.Machine.execSyswrQueueSwap d b s
  | .ccnt ty d => Sys2Proof.Machine.execCcnt ty d s
  | .rand ty d => Sys2Proof.Machine.execRand ty d s
  | .tokwait => Sys2Proof.Machine.execTokwait s
  | .tokpass => Sys2Proof.Machine.execTokpass s
  | .psnt ty pd a => Sys2Proof.Machine.execPsnt ty pd a s
  | .psntClr ty d a => Sys2Proof.Machine.execPsntClr ty d a s
  | .illegalInstruction => Sys2Proof.Machine.execIllegalInstruction s
  | .loadResultReturn g idx sector => Sys2Proof.Machine.execLoadResultReturn g idx sector s
  | .tlbWalkComplete g => Sys2Proof.Machine.execTlbWalkComplete g s
  | .gatherWindowClose part idx => Sys2Proof.Machine.execGatherWindowClose part idx s
  | .pendingOvfRetry part idx => Sys2Proof.Machine.execPendingOvfRetry part idx s
  | .timeSliceExpiry core pasid => Sys2Proof.Machine.execTimeSliceExpiry core pasid s
  | .teamEviction core => Sys2Proof.Machine.execTeamEviction core s
  | .taskDispatch core => Sys2Proof.Machine.execTaskDispatch core s
  | .clusterReserveRequest core => Sys2Proof.Machine.execClusterReserveRequest core s
  | .clusterReserveGrant core => Sys2Proof.Machine.execClusterReserveGrant core s
  | .balanceExchange part => Sys2Proof.Machine.execBalanceExchange part s
  | .launchRequest part => Sys2Proof.Machine.execLaunchRequest part s
  | .automatonEventStep quarter slot => Sys2Proof.Machine.execAutomatonEventStep quarter slot s
  | .dropExpiredPass quarter slot => Sys2Proof.Machine.execDropExpiredPass quarter slot s
  | .matchEngineStateError quarter => Sys2Proof.Machine.execMatchEngineStateError quarter s
  | .epochBoundary part => Sys2Proof.Machine.execEpochBoundary part s
  | .eventPacketPost link port slot pasid pkt => Sys2Proof.Machine.execEventPacketPost link port slot pasid pkt s
  | .eventPacketWatermark link port slot pasid pkt => Sys2Proof.Machine.execEventPacketWatermark link port slot pasid pkt s
  | .remapHoldoffExpiry link entry => Sys2Proof.Machine.execRemapHoldoffExpiry link entry s
  | .refusalWindowClose link port => Sys2Proof.Machine.execRefusalWindowClose link port s
  | .slotcntRead link port slot pasid => Sys2Proof.Machine.execSlotcntRead link port slot pasid s
  | .slotBadRead link port slot pasid off len => Sys2Proof.Machine.execSlotBadRead link port slot pasid off len s
  | .barUnsupportedAccess acc => Sys2Proof.Machine.execBarUnsupportedAccess acc s
  | .mbstatWrite link v => Sys2Proof.Machine.execMbstatWrite link v s
  | .registerWrite link off v => Sys2Proof.Machine.execRegisterWrite link off v s
  | .partCreate link => Sys2Proof.Machine.execPartCreate link s
  | .partDestroy link => Sys2Proof.Machine.execPartDestroy link s
  | .partQuarters link => Sys2Proof.Machine.execPartQuarters link s
  | .delowPorts link => Sys2Proof.Machine.execDelowPorts link s
  | .routeSet link => Sys2Proof.Machine.execRouteSet link s
  | .evportSet link => Sys2Proof.Machine.execEvportSet link s
  | .slotSet link => Sys2Proof.Machine.execSlotSet link s
  | .remapSet link => Sys2Proof.Machine.execRemapSet link s
  | .streamAssign link => Sys2Proof.Machine.execStreamAssign link s
  | .pasidAdd link => Sys2Proof.Machine.execPasidAdd link s
  | .pasidRevoke link => Sys2Proof.Machine.execPasidRevoke link s
  | .keySet link => Sys2Proof.Machine.execKeySet link s
  | .keyClear link => Sys2Proof.Machine.execKeyClear link s
  | .rangeSet link => Sys2Proof.Machine.execRangeSet link s
  | .setWorld link => Sys2Proof.Machine.execSetWorld link s
  | .resetGroup link => Sys2Proof.Machine.execResetGroup link s
  | .resetTeam link => Sys2Proof.Machine.execResetTeam link s
  | .resetCore link => Sys2Proof.Machine.execResetCore link s
  | .resetQuarter link => Sys2Proof.Machine.execResetQuarter link s
  | .resetPartition link => Sys2Proof.Machine.execResetPartition link s
  | .resetMatchEngine link => Sys2Proof.Machine.execResetMatchEngine link s
  | .resetDelowPort link => Sys2Proof.Machine.execResetDelowPort link s
  | .resetPcieFunction link => Sys2Proof.Machine.execResetPcieFunction link s
  | .quote link => Sys2Proof.Machine.execQuote link s
  | .patch link => Sys2Proof.Machine.execPatch link s
  | .energySet link => Sys2Proof.Machine.execEnergySet link s
  | .replicaSet link => Sys2Proof.Machine.execReplicaSet link s
  | .info link => Sys2Proof.Machine.execInfo link s
  | .replicaDigestArrival part digest => Sys2Proof.Machine.execReplicaDigestArrival part digest s
  | .replicaTimeout part => Sys2Proof.Machine.execReplicaTimeout part s
  | .powerOn => Sys2Proof.Machine.execPowerOn s
  | .perstNReleaseLink0 => Sys2Proof.Machine.execPerstNReleaseLink0 s
  | .perstNLink1 assert => Sys2Proof.Machine.execPerstNLink1 assert s
  | .pwrfail => Sys2Proof.Machine.execPwrfail s
  | .thermtrip => Sys2Proof.Machine.execThermtrip s
  | .powerLimitExceeded watts => Sys2Proof.Machine.execPowerLimitExceeded watts s
  | .thermalLimit eighths => Sys2Proof.Machine.execThermalLimit eighths s
  | .thermalHardLimit eighths => Sys2Proof.Machine.execThermalHardLimit eighths s
  | .currentLimit => Sys2Proof.Machine.execCurrentLimit s
  | .stepRecovery => Sys2Proof.Machine.execStepRecovery s
  | .stepChangeComplete => Sys2Proof.Machine.execStepChangeComplete s
  | .packageTimerTick => Sys2Proof.Machine.execPackageTimerTick s
  | .energyWindowEnd => Sys2Proof.Machine.execEnergyWindowEnd s
  | .pcieLinkDown link => Sys2Proof.Machine.execPcieLinkDown link s
  | .hotReset link => Sys2Proof.Machine.execHotReset link s
  | .functionLevelReset link => Sys2Proof.Machine.execFunctionLevelReset link s
  | .atsInvalidation link pasid va pages => Sys2Proof.Machine.execAtsInvalidation link pasid va pages s
  | .atsCompletion link tag addr read write => Sys2Proof.Machine.execAtsCompletion link tag addr read write s
  | .hostReadCompletion link tag data => Sys2Proof.Machine.execHostReadCompletion link tag data s
  | .dieLinkCrcError dlink => Sys2Proof.Machine.execDieLinkCrcError dlink s
  | .dieLinkReplayWindow => Sys2Proof.Machine.execDieLinkReplayWindow s
  | .delowFlitReceive port bytes => Sys2Proof.Machine.execDelowFlitReceive port bytes s
  | .delowAckTimeout port => Sys2Proof.Machine.execDelowAckTimeout port s
  | .delowRetrainComplete port ok => Sys2Proof.Machine.execDelowRetrainComplete port ok s
  | .uncorrectableError cls target loc => Sys2Proof.Machine.execUncorrectableError cls target loc s
  | .pcieLinkUp link retraining => Sys2Proof.Machine.execPcieLinkUp link retraining s
  | .perstNAssertLink0 => Sys2Proof.Machine.execPerstNAssertLink0 s
  | .delowPortUp port => Sys2Proof.Machine.execDelowPortUp port s
  | .correctedError cls target loc => Sys2Proof.Machine.execCorrectedError cls target loc s

end Sys2Proof.Machine
end

