-- ==== Sys2Proof/Machine/Turns.lean ====
section
/-! DEFINITION. How an act that is due is carried out, and a machine that is about to run one given instruction word. -/

namespace Sys2Proof.Machine

/-- A path at a PC runs its instruction: what is checked before it, its meaning, and what follows it. (DEDUCED: log entry 9) -/
def runPath (s : State) (key pc path : Nat) : Host.Outcome State Fault Refusal :=
  match prepare s key pc path with
  | .done s => .next s
  | .run h i s bad =>
    match exec i s with
    | .next t => .next (afterIssue h i bad s t)
    | .fault f => .fault f
    | .refused r => .refused r

/-- The results that a deterministic core waits for before a path issues (R311). -/
def State.settleResults (s : State) (key : Nat) : State :=
  if s.normalMode (partOf key) then s else s.returnAll key

/-- An act that is due, in the state whose agenda holds the later ones. (DESIGN CHOICE: log entry 4) -/
def runTurn (t : Turn) (s : State) : Host.Outcome State Fault Refusal :=
  match t with
  | .event i => exec i s
  | .issue key =>
    match s.choosePaths key with
    | (s, none) => .next s
    | (s, some (pc, lanes)) => runPath s key pc lanes
  | .second key pc lanes =>
    let s := s.settleResults key
    let m := s.stillThere key pc lanes
    if m = 0 then .next s else runPath s key pc m
  | .turnEnd key => .next (s.endTurn key)
  | .waits key => .next (s.swaitFault key false)
  | .select => .next s.select
  | .close => .next s.closeClock
  | .settle => .next s.settleClock

/-- Whether an act happens although the clocks are stopped: power comes or goes (R39, R40). (DEDUCED: log entry 10) -/
def Turn.needsNoClock : Turn → Bool
  | .event .powerOn | .event .pwrfail => true
  | _ => false

/-! A machine about to run one word: a SPAWN, TEAM or POOL task is loaded by the host and firmware in many steps, for
which this stands. -/

/-- The virtual page, and the HBM page, of the word. (DESIGN CHOICE: log entry 3) -/
def loadPage : Nat := 1

/-- The translation of the page: RAW, NORMAL, with every permission. (DESIGN CHOICE: log entry 3) -/
def loadEntry : TlbEntry := ⟨0, 0, 0, loadPage, loadPage * 0x10000, 0, 0, 0, true, true, true, false, false, 0, 0, 0⟩

/-- A grid of one team of one group with 64 base registers and 1 MiB of local store. (DESIGN CHOICE: log entry 3) -/
def loadGrid : Grid :=
  { job := 0, pasid := 0, entry := loadPage * 0x10000, groups := 1, teams := 1, cw := 1, ch := 1, base := 64, ext := 0, cls := 0
    prio := 0, lstore := 2 ^ 20, batches := 0, poff := 0, args := [], map := [0], left := 1, ordinal := 0, uid := 0
    running := [(0, 0)] }

/-- The grid's one TEAM task. (DESIGN CHOICE: log entry 3) -/
def loadTask : Task := ⟨.team, loadPage * 0x10000, [], 0, 0, true, 0, 0, none, 0, 0, 0, 0, 0, none⟩

/-- Partition 0 on quarter 0, in normal mode, with the grid and its job. (DESIGN CHOICE: log entry 3) -/
def loadPart : Part :=
  { Part.create 0 [0] false 0 0 0 with
    pasids := [0], grids := [(0, loadGrid)], jobs := [(0, ⟨1, 0, 0, 0, 1, some 0, none⟩)] }

/-- The group that issues next in the next act, at bytes placed at its PC. (DESIGN CHOICE: log entry 3) -/
def State.placeWord (s : State) (bs : List Byte) : State :=
  let g := Group.fresh loadTask loadGrid (some 0) 0 0 0 s.clock .no (List.replicate 32 (Lane.fresh loadTask.pc true []))
  { s with
    agenda := [.issue 0]
    parts := tset 0 loadPart s.parts
    ctxs := tset 0 Ctx.new s.ctxs
    groups := tset 0 g s.groups
    teams := tset 0 (Team.fresh 0 0 loadTask loadGrid [0]) s.teams
    serial := max 1 s.serial
    tlb := loadEntry :: s.tlb
    mem := memPutBytes s.mem (loadPage * 0x10000) bs }

end Sys2Proof.Machine
end

