-- ==== Sys2Proof/Machine/Step.lean ====
section
/-! DEFINITION. One step of the machine: the act that is due, or the beginning of a clock. -/

namespace Sys2Proof.Machine

/-- One step. With no act due a clock begins; once the clocks have stopped, nothing happens but the coming or going of
power (R34, R40). (DESIGN CHOICE: log entry 4; DEDUCED: log entry 10) -/
def step (s : State) : Host.Outcome State Fault Refusal :=
  match s.agenda with
  | [] => if s.clocksRun then .next s.beginClock else .fault .clocksStopped
  | t :: rest =>
    if s.clocksRun || t.needsNoClock then runTurn t { s with agenda := rest } else .fault .clocksStopped

/-- The machine about to run, as its next act, the instruction whose bits are w; the bits from nbits upward are zero. (DESIGN CHOICE: log entry 3) -/
def State.withFetchWord (s : State) (nbits w : Nat) : State := s.placeWord (wordBytes (w % 2 ^ nbits))

end Sys2Proof.Machine
end

