-- ==== Sys2Proof/Safety.lean ====
section
/-! DEFINITION. What claims about the machine are stated in: a group that is about to run an instruction, what an
instruction writes, and what it leaves alone. A run is safe while no step answers a fault or a refusal. -/

namespace Sys2Proof.Machine

/-- The machine goes on to a state that satisfies a condition. -/
def Reaches (o : Host.Outcome State Fault Refusal) (P : State → Prop) : Prop := ∃ t, o = .next t ∧ P t

/-- Some lane of a path of a group of the state executes the instruction in hand, and no fault was found before it acts
(R152, R330, R358). -/
structure Runs (s : State) (iss : Issue) (g : Group) : Prop where
  issuing : s.cur = some iss
  group : s.group? iss.key = some g
  mask : iss.lanes < 2 ^ 32
  clean : iss.late = none
  some_lane : lanesOf iss.lanes ≠ []

/-- The executing lanes in rising order. -/
abbrev Issue.ls (iss : Issue) : List Nat := lanesOf iss.lanes

/-! Registers. -/

/-- An operand that is no stream register: its read and its write touch registers alone (R351, R415). -/
def flat : Opnd → Bool
  | .s _ => false
  | _ => true

/-- Register j of a value: 32 bits and the value's poison (R256, R358). -/
def valWord (v : Val) (j : Nat) : Reg := ⟨BitVec.ofNat 32 (v.1 / 2 ^ (32 * j)), v.2⟩

/-- Which register of a destination of n registers an operand of one register names (R351). -/
def destIndex (d : Opnd) (n : Nat) (o : Opnd) : Option Nat :=
  let within := fun m k => if m ≤ k ∧ k < m + n then some (k - m) else none
  match d, o with
  | .x m, .x k => within m k
  | .w m, .w k => within m k
  | .c m, .c k => within m k
  | .e m, .e k => within m k
  | _, _ => none

/-- A register as lane i of the group reads it after the lanes ls have written the results v to the n registers of D and
to their latches: a w register takes the value of the highest lane, and no other register changes (R153, R162, R358). -/
def regAfter (g : Group) (ls : List Nat) (d : Opnd) (n : Nat) (v : Nat → Val) (i : Nat) (o : Opnd) : Reg :=
  match o with
  | .lat => if i ∈ ls then valWord (v i) 0 else regOf g i .lat 0
  | .w k =>
    match destIndex d n (.w k), ls.getLast? with
    | some j, some top => valWord (v top) j
    | _, _ => regOf g i (.w k) 0
  | o =>
    match destIndex d n o with
    | some j => if i ∈ ls then valWord (v i) j else regOf g i o 0
    | none => regOf g i o 0

/-- Predicate register k of lane i after the lanes ls have written the predicates v to pD: p0 never changes (R281,
R358). -/
def predAfter (g : Group) (ls : List Nat) (pd : Opnd) (v : Nat → Tri × Bool) (i k : Nat) : PReg :=
  if pd = .p k ∧ k ≠ 0 ∧ i ∈ ls then ⟨(v i).1, (v i).2⟩ else (g.lane i).pred k

/-- A register of lane i after the lanes ls have written only their latches, with the codes of the predicates v (R360). -/
def codeAfter (g : Group) (ls : List Nat) (v : Nat → Tri × Bool) (i : Nat) (o : Opnd) : Reg :=
  if o = .lat ∧ i ∈ ls then valWord (triNum (v i).1, (v i).2) 0 else regOf g i o 0

/-- The lanes of the path stand at the next instruction, and the other lanes where they stood (R371). -/
def MovedOn (iss : Issue) (g g' : Group) : Prop :=
  ∀ i, i < g.lanes.length → (g'.lane i).pc = if bit iss.path i then iss.pc + 12 else (g.lane i).pc

/-- Two groups differ in their registers, predicates and PCs at most: the returns, waits, entries, stream registers,
buffers and every other part are the same. -/
def SameButRegs (g g' : Group) : Prop :=
  { g' with lanes := g.lanes, w := g.w } = g ∧ g'.lanes.length = g.lanes.length ∧
  ∀ i, { g'.lane i with pc := (g.lane i).pc, x := (g.lane i).x, p := (g.lane i).p, e := (g.lane i).e,
                         c := (g.lane i).c, lat := (g.lane i).lat } = g.lane i

/-- After an instruction every register and predicate of the group reads as given, its path has moved on, and nothing else
of the whole state has changed: no other group, no special register, no byte of memory. -/
def Changed (s : State) (iss : Issue) (g : Group) (regs : Nat → Opnd → Reg) (preds : Nat → Nat → PReg) (t : State) : Prop :=
  ∃ g', t = s.setGroup iss.key g' ∧
    (∀ i o, i < g.lanes.length → regOf g' i o 0 = regs i o) ∧
    (∀ i k, i < g.lanes.length → (g'.lane i).pred k = preds i k) ∧ MovedOn iss g g' ∧ SameButRegs g g'

/-- An instruction has written, in the lanes ls, the results v to the n registers of D and to the latches, and changed
nothing else. -/
def Wrote (s : State) (iss : Issue) (g : Group) (ls : List Nat) (d : Opnd) (n : Nat) (v : Nat → Val) (t : State) : Prop :=
  Changed s iss g (regAfter g ls d n v) (fun i k => (g.lane i).pred k) t

/-- An instruction has written, in the lanes ls, the predicates v to pD and their codes to the latches, and changed
nothing else. -/
def WrotePred (s : State) (iss : Issue) (g : Group) (ls : List Nat) (pd : Opnd) (v : Nat → Tri × Bool) (t : State) : Prop :=
  Changed s iss g (codeAfter g ls v) (predAfter g ls pd v) t

/-! Operands, stream registers among them (R359, R415). -/

/-- The group after the executing lanes have walked the stream registers among some operands, one operand after the
other. -/
def walked (iss : Issue) (g : Group) : List Opnd → Group
  | [] => g
  | .s k :: os => walked iss { g with sregs := lmod k (·.advance iss.lanes) g.sregs } os
  | _ :: os => walked iss g os

/-- The local-store offset of the element that lane i takes of stream register k: the executing lanes take consecutive
elements from the position, in rising order (R415). -/
def takes (iss : Issue) (g : Group) (k i : Nat) : Nat :=
  let r := g.sreg k
  r.elem ((r.pos + iss.ls.idxOf i) % r.count)

/-- The physical address of that element. -/
def takesAt (iss : Issue) (g : Group) (k i : Nat) : Nat := localAddr (g.team.getD 0) (takes iss g k i)

/-- A stream register among the operands may be walked: it is bound, and every executing lane's element lies in the
team's local store, clear of the range locks (R415, R204). -/
def mayWalk (s : State) (iss : Issue) (g : Group) (store : Bool) (o : Opnd) : Prop :=
  match o with
  | .s k =>
    (g.sreg k).bound = true ∧ g.team.isSome = true ∧
    ∀ i, i ∈ iss.ls → takes iss g k i + 2 ^ (g.sreg k).esz ≤ s.lstoreOf g ∧
      s.locked (coreOf iss.key) (takesAt iss g k i) (2 ^ (g.sreg k).esz) store = false
  | _ => True

/-- The source operands may be read one after the other. -/
def mayRead (s : State) (iss : Issue) : Group → List Opnd → Prop
  | _, [] => True
  | g, o :: os => mayWalk s iss g false o ∧ mayRead s iss (walked iss g [o]) os

/-- A value of each executing lane, from the state before an instruction. -/
abbrev Source := State → Issue → Group → Nat → Val

/-- An operand's value in lane i: a register, an immediate, a predicate's code, or a stream register's element extended
to 32 bits, which is poisoned as its bytes are (R351, R352, R415). -/
def laneVal (ty : Ty) (n : Nat) (o : Opnd) : Source := fun s iss g i =>
  match o with
  | .s k =>
    let r := g.sreg k
    let size := 2 ^ r.esz
    let v := s.readNat (takesAt iss g k i) size
    ((if r.sgn then ((BitVec.ofNat (8 * size) v).signExtend 32).toNat else v), s.poisonAt (takesAt iss g k i) size)
  | o => readOp g i ty n o

/-- The executing lanes' elements of stream register k stored, in rising lane order. -/
def storesStream (s : State) (iss : Issue) (g : Group) (k : Nat) (v : Nat → Val) : State :=
  iss.ls.foldl (fun s i => s.store (takesAt iss g k i) (leBytes (2 ^ (g.sreg k).esz) (v i).1) (v i).2) s

/-- An instruction has read its sources and written the results v to D and to the latches: to registers, or through a
stream register to its elements in local store, which counts as a store (R358, R415, R157). -/
def Delivered (s : State) (iss : Issue) (g : Group) (d : Opnd) (n : Nat) (srcs : List Opnd) (v : Nat → Val) (t : State) :
    Prop :=
  let g1 := walked iss g srcs
  match d with
  | .s k =>
    Wrote (storesStream s iss g1 k v) iss { walked iss g1 [d] with touched := true, progress := true } iss.ls d n v t
  | _ => Wrote s iss g1 iss.ls d n v t

/-- A well-formed instruction completes in every state in which some lane executes it and its stream registers may be
walked: its executing lanes write the results v to D, and nothing else changes. -/
def Computes (i : Instr) (d : Opnd) (n : Nat) (srcs : List Opnd) (v : Source) : Prop :=
  ∀ s iss g, wf i = true → Runs s iss g → mayRead s iss g srcs → mayWalk s iss (walked iss g srcs) true d →
    Reaches (exec i s) (Delivered s iss g d n srcs (v s iss g))

/-- As Computes, for an instruction that writes a predicate. -/
def Decides (i : Instr) (pd : Opnd) (srcs : List Opnd) (v : State → Issue → Group → Nat → Tri × Bool) : Prop :=
  ∀ s iss g, wf i = true → Runs s iss g → mayRead s iss g srcs →
    Reaches (exec i s) (WrotePred s iss (walked iss g srcs) iss.ls pd (v s iss g))

/-! Values of class 000 in the manual's terms: bit vectors of the type's width, and exact integers. -/

/-- An integer operand after absA and a negation, modulo 2^w (R344). -/
def intSrc (ty : Ty) (neg abs : Bool) (v : Nat) : BitVec (tyWidth ty) :=
  let b := BitVec.ofNat (tyWidth ty) v
  let b := if abs && ty.signed && b.msb then -b else b
  if neg then -b else b

/-- The number that a pattern of the type stands for (R361). -/
def intNum (ty : Ty) (b : BitVec (tyWidth ty)) : Int := if ty.signed then b.toInt else b.toNat

/-- An exact integer clamped to the type's bounds when sat is set, then kept modulo 2^w (R362). -/
def intRes (ty : Ty) (sat : Bool) (r : Int) : Nat :=
  let w := tyWidth ty
  let lo : Int := if ty.signed then -(2 ^ (w - 1)) else 0
  let hi : Int := if ty.signed then 2 ^ (w - 1) - 1 else 2 ^ w - 1
  (BitVec.ofInt w (if sat then max lo (min hi r) else r)).toNat

/-- A function of one operand's bits, with that operand's poison (R360). -/
def val1 (ta : Ty) (na : Nat) (a : Opnd) (f : Nat → Nat) : Source := fun s iss g i =>
  let x := laneVal ta na a s iss g i
  (f x.1, x.2)

/-- A function of two operands' bits: the result is poisoned when either is. -/
def val2 (ta : Ty) (na : Nat) (a : Opnd) (tb : Ty) (nb : Nat) (b : Opnd) (f : Nat → Nat → Nat) : Source :=
  fun s iss g i =>
    let x := laneVal ta na a s iss g i
    let y := laneVal tb nb b s iss (walked iss g [a]) i
    (f x.1 y.1, x.2 || y.2)

/-- A function of three operands' bits. -/
def val3 (ta : Ty) (na : Nat) (a : Opnd) (tb : Ty) (nb : Nat) (b : Opnd) (tc : Ty) (nc : Nat) (c : Opnd)
    (f : Nat → Nat → Nat → Nat) : Source := fun s iss g i =>
  let x := laneVal ta na a s iss g i
  let y := laneVal tb nb b s iss (walked iss g [a]) i
  let z := laneVal tc nc c s iss (walked iss g [a, b]) i
  (f x.1 y.1 z.1, x.2 || y.2 || z.2)

/-- A predicate of one operand's bits. -/
def tri1 (ta : Ty) (na : Nat) (a : Opnd) (f : Nat → Tri) : State → Issue → Group → Nat → Tri × Bool := fun s iss g i =>
  let x := laneVal ta na a s iss g i
  (f x.1, x.2)

/-- A predicate of two operands' bits. -/
def tri2 (ta : Ty) (na : Nat) (a : Opnd) (tb : Ty) (nb : Nat) (b : Opnd) (f : Nat → Nat → Tri) :
    State → Issue → Group → Nat → Tri × Bool := fun s iss g i =>
  let x := laneVal ta na a s iss g i
  let y := laneVal tb nb b s iss (walked iss g [a]) i
  (f x.1 y.1, x.2 || y.2)

/-- An exact function of two integers under the flags of R361. -/
def arith2 (ty : Ty) (fl : Flags) (sat : Bool) (a b : Opnd) (f : Int → Int → Int) : Source :=
  val2 ty ty.regs a ty ty.regs b fun x y =>
    intRes ty sat (f (intNum ty (intSrc ty fl.negA fl.absA x)) (intNum ty (intSrc ty fl.negB false y)))

/-- A bitwise function of two operands of the type's width. -/
def bits2 (ty : Ty) (a b : Opnd) (f : BitVec (tyWidth ty) → BitVec (tyWidth ty) → BitVec (tyWidth ty)) : Source :=
  val2 ty ty.regs a ty ty.regs b fun x y => (f (BitVec.ofNat _ x) (BitVec.ofNat _ y)).toNat

/-- A shift of an operand of the type's width by a 32-bit count (R361). -/
def shiftBy (ty : Ty) (a b : Opnd) (f : BitVec (tyWidth ty) → Nat → BitVec (tyWidth ty)) : Source :=
  val2 ty ty.regs a .n32 1 b fun x k => (f (BitVec.ofNat _ x) k).toNat

/-- BFX's field: n bits from bit p of the source extended to 512 bits, extended again to the width (R366). -/
def bfxBits (ty : Ty) (a b : Nat) : Nat :=
  let w := tyWidth ty
  let p := b % 256
  let n := min (b / 256 % 256) w
  let y : BitVec 512 := if ty.signed then (BitVec.ofNat w a).signExtend 512 else (BitVec.ofNat w a).setWidth 512
  let f : BitVec n := (y >>> p).setWidth n
  (if ty.signed then f.signExtend w else f.setWidth w).toNat

/-- BFI: bits p to p + n - 1 below w are the low bits of a, and every other bit is c's (R366). -/
def bfiBits (ty : Ty) (a b c : Nat) : Nat :=
  let w := tyWidth ty
  let p := b % 256
  let n := min (b / 256 % 256) w
  ((List.range w).map fun k => if bit (if p ≤ k ∧ k < p + n then a / 2 ^ (k - p) else c / 2 ^ k) 0 then 2 ^ k else 0).sum

/-- PRMT: four bytes, each chosen by its source field from the pair, or the fill byte (R366). -/
def prmtBits (a b c : Nat) : Nat :=
  let y := a % 2 ^ 32 + 2 ^ 32 * (b % 2 ^ 32)
  let byte := fun k => if bit c (12 + k) then c / 2 ^ 16 % 256 else y / 2 ^ (8 * (c / 2 ^ (3 * k) % 8)) % 256
  byte 0 + 2 ^ 8 * byte 1 + 2 ^ 16 * byte 2 + 2 ^ 24 * byte 3

/-! Predicates and the lane network. -/

/-- The predicate that an operand names in a lane. -/
def predOf (g : Group) (i : Nat) (o : Opnd) : PReg :=
  match o with
  | .p k => (g.lane i).pred k
  | _ => PReg.f

/-- F below U below T: Kleene's connectives are the lesser, the greater and the reversal of this order (R282). -/
def triRank : Tri → Nat
  | .F => 0 | .U => 1 | .T => 2

/-- Conjunction: the lesser. -/
def triAnd (a b : Tri) : Tri := if triRank a ≤ triRank b then a else b

/-- Disjunction: the greater. -/
def triOr (a b : Tri) : Tri := if triRank a ≤ triRank b then b else a

/-- Negation, where it is asked for. -/
def triNot (neg : Bool) (a : Tri) : Tri :=
  match neg, a with
  | true, .T => .F
  | true, .F => .T
  | _, a => a

/-- Whether a relation holds between two numbers (R368). -/
def relInt (r : Rel) (x y : Int) : Bool :=
  match r with
  | .eq => decide (x = y)
  | .ne => decide (x ≠ y)
  | .lt => decide (x < y)
  | .le => decide (x ≤ y)
  | .gt => decide (x > y)
  | .ge => decide (x ≥ y)

/-- T or F. -/
def triBool (b : Bool) : Tri := if b then .T else .F

/-- The conjunction of the executing lanes' predicates: F where one is F, else U where one is U, else T (R369). -/
def voteAll (ls : List Nat) (v : Nat → Tri) : Tri :=
  if ls.any (v · == .F) then .F else if ls.any (v · == .U) then .U else .T

/-- The disjunction. -/
def voteAny (ls : List Nat) (v : Nat → Tri) : Tri :=
  if ls.any (v · == .T) then .T else if ls.any (v · == .U) then .U else .F

/-- Bit k is 1 where lane k executes and its predicate has the value. -/
def ballotOf (ls : List Nat) (v : Nat → Tri) (t : Tri) : Nat :=
  ((List.range 32).map fun k => if ls.contains k && v k == t then 2 ^ k else 0).sum

/-- The source lane of SHFL for lane i with the segment width w and the operand b (R369). -/
def shflFrom (mode : ShflMode) (w i b : Nat) : Nat :=
  let lo := i - i % w
  match mode with
  | .idx => lo + b % w
  | .rot => lo + (i - lo + b) % w
  | .xor => lo + ((i - lo) ^^^ (b % w))
  | .rev => lo + (w - 1 - (i - lo))

/-- SHFL's segment width from the lowest executing lane's B (R369). -/
def shflWidth (v : Nat) : Nat :=
  let c := v / 2 ^ 8 % 8
  if 1 ≤ c ∧ c ≤ 5 then 2 ^ c else 32

/-- One combination of REDUX on two patterns of the type (R369). -/
def reduxStep (ty : Ty) (op : ReduxOp) (x y : Nat) : Nat :=
  let a := BitVec.ofNat (tyWidth ty) x
  let b := BitVec.ofNat (tyWidth ty) y
  match op with
  | .add => (a + b).toNat
  | .min => if intNum ty a ≤ intNum ty b then x else y
  | .max => if intNum ty a ≤ intNum ty b then y else x
  | .and => (a &&& b).toNat
  | .or => (a ||| b).toNat
  | .xor => (a ^^^ b).toNat

/-- The fold of an operation over the lanes' values, which is poisoned when one of them is. -/
def foldLanes (f : Nat → Nat → Nat) (v : Nat → Val) : List Nat → Val
  | [] => (0, false)
  | k :: ks => (ks.foldl (fun acc i => f acc (v i).1) (v k).1, (k :: ks).any fun i => (v i).2)

/-- The sum or difference with the carry or borrow that a predicate brings (R367). -/
def carrySum (sub : Bool) (a b : Nat) (cin : Tri) : Int :=
  let c : Int := if cin = .T then 1 else 0
  if sub then (a : Int) - b - c else (a : Int) + b + c

/-- LADD and LSUB: the sum modulo 2^32 in D, and in pC the carry out, which stays U where the carry in is U (R367). -/
def Carries (i : Instr) (sub : Bool) (d a b pc : Opnd) : Prop :=
  ∀ s iss g, wf i = true → Runs s iss g → mayRead s iss g [a, b] → mayWalk s iss (walked iss g [a, b]) true d →
    Reaches (exec i s) fun t =>
      let x := fun k => laneVal .n32 1 a s iss g k
      let y := fun k => laneVal .n32 1 b s iss (walked iss g [a]) k
      let p := fun k => predOf g k pc
      let z := fun k => carrySum sub (x k).1 (y k).1 (p k).v
      let bad := fun k => (x k).2 || (y k).2 || (p k).pois
      let v := fun k => ((BitVec.ofInt 32 (z k)).toNat, bad k)
      let out := fun k => (if (p k).v = .U then Tri.U else triBool (decide (if sub then z k < 0 else z k ≥ 2 ^ 32)), bad k)
      let g1 := walked iss g [a, b]
      match d with
      | .s n =>
        Changed (storesStream s iss g1 n v) iss { walked iss g1 [d] with touched := true, progress := true }
          (regAfter g1 iss.ls d 1 v) (predAfter g1 iss.ls pc out) t
      | _ => Changed s iss g1 (regAfter g1 iss.ls d 1 v) (predAfter g1 iss.ls pc out) t

/-! Point arithmetic. -/

/-- The operation of a one-source floating instruction on every element, after the flags of the source (R344, R383). -/
def fpElems1 (ty : Ty) (fl : Flags) (a : Opnd) (f : Nat → Nat) : Source :=
  val1 ty ty.regs a fun x => perElement ty (fun p _ _ => f p) (fpFlags ty fl.negA fl.absA x) 0 0

/-- As fpElems1, for two sources. -/
def fpElems2 (ty : Ty) (fl : Flags) (a b : Opnd) (f : Nat → Nat → Nat) : Source :=
  val2 ty ty.regs a ty ty.regs b fun x y =>
    perElement ty (fun p q _ => f p q) (fpFlags ty fl.negA fl.absA x) (fpFlags ty fl.negB false y) 0

/-- An exact value rounded once into the element format, clamped to the finite range under sat (R262). -/
def onceRounded (ty : Ty) (rnd : Rnd) (fl : Flags) (v : FVal) : Nat := (fpFmt ty).round v rnd fl.sat

/-- The value of an element. -/
def elemVal (ty : Ty) (x : Nat) : FVal := (fpFmt ty).value x

/-- The result of a comparison: U where an operand is NaN (R385). -/
def relFp (rel : Rel) (x y : FVal) : Tri :=
  if x.isNan || y.isNan then .U
  else match rel with
    | .eq => triBool (x.le y && y.le x)
    | .ne => triBool (!(x.le y && y.le x))
    | .lt => triBool (x.le y && !y.le x)
    | .le => triBool (x.le y)
    | .gt => triBool (y.le x && !x.le y)
    | .ge => triBool (y.le x)

/-! Intervals. -/

/-- An instruction's effect is to take a trap from the state before it: a fault, an abort, or a wait (R328 to R331,
R188). -/
def Traps (i : Instr) (s : State) (iss : Issue) (g : Group) (t : Trap) : Prop :=
  exec i s = .next (takeTrap s iss g t)

/-- The operands of an interval instruction in the lanes that execute it: none is invalid, and under EIF neither an
operand nor the result is empty (R390). -/
def ivLegal (iss : Issue) (g : Group) (ty : Ty) (ops : List IvOp) (nan : Bool) (res : List Nat → Bool) : Prop :=
  ∀ i ∈ iss.ls,
    (∀ o ∈ ops, ivBad ty nan o (ivRead g ty i o).1 = false) ∧
    (g.eif = true → (∀ o ∈ ops, ivEmptyOp ty o (ivRead g ty i o).1 = false) ∧
      res (ops.map fun o => (ivRead g ty i o).1) = false)

/-- An interval instruction writes the result f of its operands' images to the n registers of D, poisoned when an operand
is, wherever its operands are legal; else it traps and writes nothing. -/
def IvComputes (i : Instr) (ty : Ty) (d : Opnd) (n : Nat) (ops : List IvOp) (nan : Bool) (res : List Nat → Bool)
    (f : List Nat → Nat) : Prop :=
  ∀ s iss g, wf i = true → Runs s iss g → ivLegal iss g ty ops nan res →
    Reaches (exec i s) (Wrote s iss g iss.ls d n fun k =>
      (f (ops.map fun o => (ivRead g ty k o).1), ops.any fun o => (ivRead g ty k o).2))

/-- As IvComputes, for a predicate; an interval instruction of predicates has no result that could be empty. -/
def IvDecides (i : Instr) (ty : Ty) (pd : Opnd) (ops : List IvOp) (f : List Nat → Tri) : Prop :=
  ∀ s iss g, wf i = true → Runs s iss g → ivLegal iss g ty ops false (fun _ => false) →
    Reaches (exec i s) (WrotePred s iss g iss.ls pd fun k =>
      (f (ops.map fun o => (ivRead g ty k o).1), ops.any fun o => (ivRead g ty k o).2))

/-- An interval instruction faults before anything is written: 0x10 with the lanes in which an operand is refused, else
under EIF 0x11 with the lanes in which an operand or the result is empty, where empties count (R272, R276, R390). -/
def IvFaults (i : Instr) (ty : Ty) (ops : List IvOp) (nan empties : Bool) (res : List Nat → Bool) : Prop :=
  ∀ s iss g, wf i = true → Runs s iss g →
    let vals := fun k => ops.map fun o => (ivRead g ty k o).1
    let bad := iss.ls.filter fun k => ops.any fun o => ivBad ty nan o (ivRead g ty k o).1
    let hollow := iss.ls.filter fun k => (ops.any fun o => ivEmptyOp ty o (ivRead g ty k o).1) || res (vals k)
    (bad ≠ [] → Traps i s iss g (.plain 0x10 (maskOfList bad))) ∧
    (empties = true → g.eif = true → bad = [] → hollow ≠ [] → Traps i s iss g (.plain 0x11 (maskOfList hollow)))

/-- The exact set rounded outward into a register image: an interval result (R273). -/
def ivImage (ty : Ty) (f : List Iv → Iv) (vs : List Nat) : Nat := ivOut ty (f (vs.map (ivOf ty)))

/-- An instruction of intervals with an interval result: a set operation on the operands' sets, empty when an operand
is (R274, R277). -/
def IvSets (i : Instr) (ty : Ty) (d : Opnd) (srcs : List Opnd) (f : List Iv → Iv) : Prop :=
  let g := fun vs : List Iv => if vs.any Iv.isEmpty then Iv.empty else f vs
  IvComputes i ty d ty.regs (srcs.map .iv) false (fun vs => imgEmpty ty (ivImage ty g vs)) (ivImage ty g)

/-- Whether a real lies in a set. -/
def Iv.holds (a : Iv) (x : FVal) : Prop := x.isFin = true ∧ a.lo.le x = true ∧ x.le a.hi = true

/-! Conversions. -/

/-- Bits of element n of a source register of a type (R394, R239). -/
def elemOf (sty : Ty) (n v : Nat) : Nat :=
  match sty with
  | .bf16x2 => v / 2 ^ (16 * n) % 2 ^ 16
  | .e4m3 | .e5m2 => v / 2 ^ (8 * n) % 2 ^ 8
  | .e2m1 => v / 2 ^ (4 * n) % 2 ^ 4
  | _ => v

/-- The exact value of CVT's source, after its flags (R394). -/
def cvtExact (sty : Ty) (n : Nat) (fl : Flags) (v : Nat) : FVal :=
  if sty.isInt then FVal.ofInt (intNum sty (intSrc sty fl.negA fl.absA v))
  else (fpFmt sty).value (fpFlag (fpFmt sty) fl.negA fl.absA (elemOf sty n v))

/-- The f32 number of PACK's source, after its flags (R395). -/
def packExact (neg abs : Bool) (v : Nat) : FVal := Fmt.f32.value (fpFlag .f32 neg abs v)

/-- A field of k bits at bit p of a word replaced. -/
def withField (v p k x : Nat) : Nat := v % 2 ^ p + 2 ^ p * (x % 2 ^ k) + 2 ^ (p + k) * (v / 2 ^ (p + k))

/-- Whether a code of a format stands for a real number. -/
def realCode (f : Fmt) (c : Nat) : Prop := c < 2 ^ (f.signBit + 1) ∧ (f.value c).isFin = true

/-- A magnitude at the end of a format's real numbers: the greatest for k = 0, the next step of its last binade for k = 2,
and halfway for k = 1. -/
def Fmt.edge (f : Fmt) (k : Nat) : FVal :=
  match f.value f.maxCode with
  | .fin _ m e => .fin false (2 * m + k) (e - 1)
  | v => v

/-- A number overflows a format in a mode: rounded as if the exponent had no bound, it lies beyond the greatest real (R262). -/
def Fmt.overflows (f : Fmt) (rm : Rnd) (neg : Bool) (x : FVal) : Prop :=
  let toward := (f.edge 2).le x.abs = true
  let away := (f.edge 0).lt x.abs = true
  match rm with
  | .rne => (f.edge 1).lt x.abs = true ∨ ((f.edge 1).le x.abs = true ∧ f.maxCode % 2 = 1)
  | .rtz => toward
  | .rdn => if neg then away else toward
  | .rup => if neg then toward else away

/-- A code is the correct rounding of an exact value by a mode among the format's real numbers: the nearest, with ties to
the even code; the nearest toward zero; the greatest below; the least above (R261). -/
def CorrectlyRounded (f : Fmt) (rm : Rnd) (x : FVal) (r : Nat) : Prop :=
  ∀ c, realCode f c →
    match rm with
    | .rne =>
      (distance x (f.value r)).le (distance x (f.value c)) = true ∧
      ((distance x (f.value c)).le (distance x (f.value r)) = true →
        (f.value c).cmp (f.value r) = some .eq ∨ r % 2 = 0)
    | .rtz =>
      (f.value r).abs.le x.abs = true ∧ ((f.value c).abs.le x.abs = true → (f.value c).abs.le (f.value r).abs = true)
    | .rdn => (f.value r).le x = true ∧ ((f.value c).le x = true → (f.value c).le (f.value r) = true)
    | .rup => x.le (f.value r) = true ∧ (x.le (f.value c) = true → (f.value r).le (f.value c) = true)

/-! Memory accesses. -/

/-- After an instruction every register and predicate of the group reads as before and its path has moved on: what a form
that writes no register leaves of the lanes. -/
def OnlyMoved (iss : Issue) (g g' : Group) : Prop :=
  (∀ i o, i < g.lanes.length → regOf g' i o 0 = regOf g i o 0) ∧
  (∀ i k, i < g.lanes.length → (g'.lane i).pred k = (g.lane i).pred k) ∧ MovedOn iss g g' ∧
  g'.w = g.w ∧ g'.lanes.length = g.lanes.length ∧
  ∀ i, { g'.lane i with pc := (g.lane i).pc } = g.lane i

/-- Nothing has changed but that the path stands at the next instruction. -/
def OnlyMovedOn (s : State) (iss : Issue) (g : Group) (t : State) : Prop :=
  ∃ g', t = s.setGroup iss.key g' ∧ OnlyMoved iss g g' ∧ { g' with lanes := g.lanes } = g

/-- Two states differ at most in one group, in the contexts' energy counts, and in host sectors that had returned. -/
def SameButGroup (s t : State) (key : Nat) : Prop :=
  { t with groups := s.groups, ctxs := s.ctxs, links := s.links } = s ∧
  (∀ k, k ≠ key → t.group? k = s.group? k) ∧
  (∀ k, (tget? k t.ctxs).map (fun c => { c with energy := 0 }) = (tget? k s.ctxs).map fun c => { c with energy := 0 }) ∧
  t.links.map (fun l => { l with returned := [] }) = s.links.map fun l => { l with returned := [] }

/-- The address that a lane accesses in a space: base, index and the sign-extended offset, modulo the width of the base
(R401, R347). -/
def laneAddr (sp : Space) (g : Group) (base idx : Opnd) (off : BitVec 20) (i : Nat) : Nat :=
  let n := if sp = .generic then 2 else 1
  (BitVec.ofInt (32 * n) ((readOp g i .n64 n base).1 + (read32 g i idx).1 + off.toInt)).toNat

/-- The base and the index are clean in every executing lane (R400). -/
def cleanAddrs (sp : Space) (iss : Issue) (g : Group) (base idx : Opnd) : Prop :=
  ∀ i ∈ iss.ls, (readOp g i .n64 (if sp = .generic then 2 else 1) base).2 = false ∧ (read32 g i idx).2 = false

/-- The accesses of n bytes of the executing lanes: only the first byte of one on a format page counts (R175, R401). -/
def laneAccesses (s : State) (iss : Issue) (g : Group) (sp : Space) (n : Nat) (acc : Acc) (base idx : Opnd)
    (off : BitVec 20) : List LaneAccess :=
  trimFormat (accesses s iss.key g sp n acc (iss.ls.map fun i => (i, laneAddr sp g base idx off i)))

/-- Every byte is found: no walk and no host translation is awaited, and no byte faults (R188, R189, R330). -/
def allFound (xs : List LaneAccess) : Prop := missesOf xs = [] ∧ atsOf xs = [] ∧ hostsOf xs = [] ∧ byteFaults xs = []

/-- The places that a load reads: its bytes, or an element of a format page with the block's side bytes (R175). -/
def loadPlaces (p : Part) (x : LaneAccess) : List Place :=
  match x.entry.bind fun e => if e.fmt != 0 then some e else none with
  | none => x.places.map (·.1)
  | some e => elemPlaces p e (x.gen % 2 ^ 16)

/-- What a lane loads: its bytes as a number, or an element decoded to its type (R402, R269). -/
def loaded (s : State) (key : Nat) (g : Group) (p : Part) (ty : Ty) (ext : Nat → Nat) (x : LaneAccess) : Val :=
  match x.entry.bind fun e => if e.fmt != 0 then some e else none with
  | none =>
    let v := readPlaces s key g x.places
    (ext v.1, v.2)
  | some e => loadElem s key g p e x.gen ty

/-- A register of lane i after the lanes ls have written v to the n registers of D, and no latch (R399). -/
def regOnlyAfter (g : Group) (ls : List Nat) (d : Opnd) (n : Nat) (v : Nat → Val) (i : Nat) (o : Opnd) : Reg :=
  match d, o with
  | .lat, .lat => if i ∈ ls then valWord (v i) 0 else regOf g i .lat 0
  | _, .lat => regOf g i .lat 0
  | _, o => regAfter g ls d n v i o

/-- The sectors of an outstanding result return, one after the other (R164). -/
def returnsAll (key idx : Nat) : Nat → State → Host.Outcome State Fault Refusal
  | 0, s => .next s
  | n + 1, s =>
    match exec (.loadResultReturn key idx 0) s with
    | .next t => returnsAll key idx n t
    | o => o

/-- The youngest outstanding result of a group, behind the results of the group g, arrives with its sectors: then the n
registers of D hold the values v in the lanes ls, the load counter and the older results are those of g, and every other
register, every predicate and every PC reads as in g (R164, R399, R402). -/
def Arrives (key : Nat) (g : Group) (ls : List Nat) (d : Opnd) (n : Nat) (v : Nat → Val) (sectors : Nat) (t : State) : Prop :=
  Reaches (returnsAll key g.pend.length sectors t) fun u => ∃ g', u.group? key = some g' ∧
    g'.loads = g.loads ∧ g'.pend = g.pend ∧ g'.lanes.length = g.lanes.length ∧
    (∀ i o, i < g.lanes.length → regOf g' i o 0 = regOnlyAfter g ls d n v i o) ∧
    ∀ i, i < g.lanes.length → (g'.lane i).pc = (g.lane i).pc ∧ ∀ k, (g'.lane i).pred k = (g.lane i).pred k

/-- The value that a function of accesses gives a lane. -/
def ofLane (xs : List LaneAccess) (f : LaneAccess → Val) (i : Nat) : Val :=
  ((xs.find? fun x => x.lane == i).map f).getD (0, false)

/-- An operand names n registers of a lane or of the group, or none, and no predicate. -/
def fits (d : Opnd) (n : Nat) : Prop :=
  match d with
  | .x k => k + n ≤ 256
  | .w k => k + n ≤ 384
  | .c k | .e k => n = 1 ∧ k < 8
  | .p _ => False
  | _ => True

/-- The last of a sector's writes that names a register of a lane: a w register is every lane's (R164). -/
def lastNamed (ws : List PendWrite) (i : Nat) (o : Opnd) : Option PendWrite :=
  ws.reverse.find? fun w => decide (regField w.reg = o) && (Opnd.shared o || w.lane == i)

/-- A register of lane i after a sector's writes: its last write's value, else as it was. -/
def regReturned (g : Group) (ws : List PendWrite) (i : Nat) (o : Opnd) : Reg :=
  match o with
  | .x _ | .w _ | .c _ | .e _ | .lat => ((lastNamed ws i o).map (·.val)).getD (regOf g i o 0)
  | o => regOf g i o 0

/-- A predicate of lane i after a sector's writes: p0 never changes (R281, R370). -/
def predReturned (g : Group) (ws : List PendWrite) (i k : Nat) : PReg :=
  match (if k = 0 then none else lastNamed ws i (.p k)) with
  | some w => ⟨if w.val.bits.toNat % 4 = 0 then .F else if w.val.bits.toNat % 4 = 1 then .T else .U, w.val.pois⟩
  | none => (g.lane i).pred k

/-- Every lane of a group that has not exited waits at a PHASE, or none is left (R147). -/
def Group.atPhase (g : Group) : Bool := g.waiting .phase == g.live

/-- A load that meets no fault, with room for its result. At its issue nothing changes but the PC, the load counter and
what waits to return: the buffered stores before a DEVICE or STRONG access have drained, and the values are those of that
moment. When its sectors return, D holds the values, and no other register has changed (R402, R164, R177, R181). -/
def Loads (i : Instr) (sp : Space) (ty : Ty) (n : Nat) (ext : Nat → Nat) (elemOk : Bool) (d base idx : Opnd)
    (off : BitVec 20) : Prop :=
  ∀ s iss g p, wf i = true → Runs s iss g → g.atPhase = false → s.part? (partOf iss.key) = some p → cleanAddrs sp iss g base idx →
    let xs := laneAccesses s iss g sp n .r base idx off
    allFound xs → loadFormat elemOk xs = [] → lockFaults s iss.key g false xs = [] →
    hostNeeds s iss.key (xs.flatMap (loadPlaces p)) = [] → g.loads < 63 →
    let s1 := (s.setGroup iss.key (g.stepPast iss)).drainBehind iss.key (ordersOf xs)
    let g1 := s1.groupNow iss.key (g.stepPast iss)
    let value := fun x => loaded s1 iss.key g1 p ty ext x
    let sectors := sectorsOf d ty.regs (xs.map fun x => (x.lane, x.gen, value x))
    Reaches (exec i s) fun t => SameButGroup s1 t iss.key ∧
      (∃ g', t.group? iss.key = some g' ∧ OnlyMoved iss g g' ∧ g'.loads = g.loads + 1 ∧
        g'.pend = g.pend ++ [⟨sectors, []⟩] ∧
        { g' with lanes := g.lanes, loads := g.loads, pend := g.pend, buf := g.buf } = g) ∧
      Arrives iss.key (g.stepPast iss) iss.ls d ty.regs (ofLane xs value) sectors.length t

/-- What the lanes of a store put where (R402, R269). -/
def laneStores (xs : List LaneAccess) (n : Nat) (v : Nat → Val) : List LaneStore :=
  xs.map fun x =>
    ⟨x.lane, x.gen, x.places.map (·.1), storeBytes x n (v x.lane).1, (v x.lane).2, x.entry.elim 0 (·.mtype)⟩

/-- The byte that a lane's store puts at a physical address: each byte lies at its own place. -/
def LaneStore.byteAt (w : LaneStore) (a : Nat) : Option Byte :=
  ((List.zip (w.places.map (·.phys)) w.bytes).reverse.find? (·.1 == a)).map (·.2)

/-- A store that meets no fault: bytes of die store and paged memory join the group's buffer, bytes of local store and
spill window are in memory at once, the highest lane's where lanes overlap, and every other byte and register is as it was
(R184, R201, R402, R157). -/
def Stores (i : Instr) (sp : Space) (n : Nat) (v : Group → Nat → Val) (elemOk : Bool) (base idx : Opnd)
    (off : BitVec 20) : Prop :=
  ∀ s iss g, wf i = true → Runs s iss g → cleanAddrs sp iss g base idx →
    let xs := laneAccesses s iss g sp n .w base idx off
    let ws := laneStores xs n (v g)
    let held := ws.filter fun w => w.held sp
    let direct := ws.filter fun w => !w.held sp
    allFound xs → storeFormat elemOk xs = [] → lockFaults s iss.key g true xs = [] →
    (sp = .generic ∨ sp = .die → tokenFaults s iss.key g xs = []) → overflowFaults g held = [] →
    Reaches (exec i s) fun t =>
      SameButGroup s { t with mem := s.mem, pois := s.pois } iss.key ∧
      (∀ a, memGet t.mem a = (direct.reverse.findSome? (·.byteAt a)).getD (memGet s.mem a)) ∧
      ∃ g', t.group? iss.key = some g' ∧ OnlyMoved iss g g' ∧
        g'.buf = putBytes g.buf (storesOf held) ∧
        { g' with lanes := g.lanes, buf := g.buf, touched := g.touched, progress := g.progress } = g ∧
        g'.touched = true ∧ g'.progress = true

/-! Commit instructions and setts. -/

/-- The state in which the path of an instruction stands at the next one and nothing else has happened yet. -/
def movedOn (s : State) (iss : Issue) (g : Group) : State := s.setGroup iss.key (g.stepPast iss)

/-- What a commit instruction does before its own effect: the executing lanes' buffered stores drain, and their next
instruction must be a REGION (R186). -/
def committed (s : State) (iss : Issue) (g : Group) : State := commit iss (movedOn s iss g)

/-- The setts that the executing lanes name by an operand (R223). -/
def namesSetts (s : State) (iss : Issue) (g : Group) (a : Opnd) (refs : List SettRef) : Prop :=
  settRefs s iss g a = .ok refs

/-- An operand is clean in every executing lane. -/
def clean32 (iss : Issue) (g : Group) (o : Opnd) : Prop := ∀ i ∈ iss.ls, (read32 g i o).2 = false

/-- Whether a group's operation on a sett takes effect at once: always in normal mode, and on the team's own local store
in deterministic mode (R313, R314). -/
def settsNear (s : State) (iss : Issue) (g : Group) (refs : List SettRef) : Prop :=
  s.normalMode (partOf iss.key) = true ∨ ∀ r ∈ refs, homeSett g r.phys = true

/-- The four words of a sett that instructions read and write: generation, target, count, and the word of the kind. -/
def settWords (s : State) (a : Nat) : Nat × Nat × Nat × Nat := (s.settWord a 0, s.settWord a 1, s.settWord a 2, s.settWord a 3)

/-! Branches and calls. -/

/-- A PC some instructions further, modulo 2^56 (R340). -/
def branchTarget (pc : Nat) (off : BitVec 32) : Nat := (BitVec.ofInt 56 ((pc : Int) + 12 * off.toInt)).toNat

/-- The target that registers give a lane: A's low 56 bits and 12 times B, modulo 2^56 (R372). -/
def registerTarget (g : Group) (a b : Opnd) (i : Nat) : Nat := ((read64 g i a).1 % 2 ^ 56 + 12 * (read32 g i b).1) % 2 ^ 56

/-- After a branch the taken lanes stand at their targets, and the path's other lanes at the next instruction. A backward
branch of the lanes m counts in the spin table, which may demote them (R157); nothing else changes. -/
def Jumped (s : State) (iss : Issue) (g : Group) (back : Bool) (m : Nat) (taken : Nat → Option Nat) (t : State) : Prop :=
  ∃ g', t = s.setGroup iss.key g' ∧ g'.lanes.length = g.lanes.length ∧
    (∀ i, i < g.lanes.length → (g'.lane i).pc =
      match taken i with
      | some a => a
      | none => if bit iss.path i then iss.pc + 12 else (g.lane i).pc) ∧
    (∀ i, { g'.lane i with pc := (g.lane i).pc, demoted := (g.lane i).demoted } = g.lane i) ∧
    { g' with lanes := g.lanes, spins := g.spins } = g ∧
    g'.spins = (if back then (g.spinTake iss.pc m).spins else g.spins) ∧
    ∀ i, (g'.lane i).demoted = (if back then (g.spinTake iss.pc m).lane i else g.lane i).demoted

/-- A lane's return stack after an address is pushed: of 16 entries in the core the oldest moves to the spill window
(R149). -/
def pushed (l : Lane) (v : Nat) : List Nat × Nat :=
  if l.stack.length < 16 then (v :: l.stack, l.spilled) else (v :: l.stack.dropLast, l.spilled + 1)

/-- After a call the executing lanes stand at their targets with the return address on their stacks, and their next
instruction must be a REGION. An entry that leaves the core lies in the spill window; every other byte of memory and
everything else is as it was (R149, R151, R372). -/
def Called (s : State) (iss : Issue) (g : Group) (target : Nat → Nat) (t : State) : Prop :=
  let moves := fun i => i ∈ iss.ls ∧ 16 ≤ (g.lane i).stack.length
  let slot := fun i => s.spillEntry iss.key i (g.lane i).spilled
  SameButGroup s { t with mem := s.mem, pois := s.pois } iss.key ∧
  (∀ a, (∀ i, moves i → ¬ (slot i ≤ a ∧ a < slot i + 8)) → memGet t.mem a = memGet s.mem a) ∧
  (∀ i, moves i → t.readNat (slot i) 8 = (g.lane i).stack.getLastD 0 % 2 ^ 64) ∧
  ∃ g', t.group? iss.key = some g' ∧ g'.lanes.length = g.lanes.length ∧ { g' with lanes := g.lanes } = g ∧
    ∀ i, i < g.lanes.length → g'.lane i =
      if i ∈ iss.ls then
        { g.lane i with pc := target i, must := .afterCall, stack := (pushed (g.lane i) ((iss.pc + 12) % 2 ^ 56)).1,
                        spilled := (pushed (g.lane i) ((iss.pc + 12) % 2 ^ 56)).2 }
      else if bit iss.path i then { g.lane i with pc := iss.pc + 12 } else g.lane i

/-! Atomics. -/

/-- The lanes' steps of an ATOM in order: each with its old value, and whether it modified memory (R404, R405). -/
def atomRun (ty : Ty) (op : AtomOp) (nr : Bool) (d b : Opnd) (part : Nat) (g : Group) :
    State → List LaneAccess → State × List (Nat × Nat × Val × Bool)
  | s, [] => (s, [])
  | s, x :: xs =>
    match x.places with
    | [] => atomRun ty op nr d b part g s xs
    | (pl, e) :: _ =>
      let r := atomStep s g.pasid pl ty op (readOp g x.lane ty ty.regs b) (if nr then (0, false) else readOp g x.lane ty ty.regs d)
      let rest := atomRun ty op nr d b part g (r.1.charge part g.pasid (memCost pl.phys (4 * ty.regs))) xs
      (rest.1, (x.lane, x.gen, (r.2.1.1, r.2.1.2 || e.elim false (·.por)), r.2.2) :: rest.2)

/-! Regions, joins and ends. -/

/-- The registers of a table that a block mask names, as the table holds them, and nothing else (R188, R350). -/
def namedOnly {α : Type} [DecidableEq α] (zero : α) (named : Nat → Bool) (now kept : Tbl α) : Prop :=
  ∀ k, tget kept k zero = if named k then tget now k zero else zero

/-- A lane's region entry records its PC, its masks, its return stack and the registers that the masks name (R188). -/
def EntryOf (e : Entry) (l : Lane) (pc : Nat) (m : Masks) : Prop :=
  e.pc = pc ∧ e.masks = m ∧ e.stack = l.stack ∧ e.spilled = l.spilled ∧
  namedOnly Reg.zero (fun k => bit m.x.toNat (k / 8)) l.x e.x ∧ namedOnly PReg.f (fun k => bit m.p.toNat k) l.p e.p ∧
  namedOnly Reg.zero (fun k => bit m.e.toNat k) l.e e.e

/-- What a group's most recent REGION records for the group (R188). -/
def RecordOf (r : GroupRecord) (g : Group) (m : Masks) : Prop :=
  r.masks = m ∧ r.axis = g.axis ∧ r.sregs = g.sregs ∧ namedOnly Reg.zero (fun k => bit m.w.toNat (k / 32)) g.w r.w

/-- A lane that has entered a region: its latch and constants read zero, and its entry stands (R162, R188, R374). -/
def Entered (l l' : Lane) (pc : Nat) (m : Masks) : Prop :=
  { l' with must := l.must, lat := l.lat, c := l.c, entry := l.entry } = l ∧ l'.must = .nothing ∧ l'.lat = Reg.zero ∧ l'.c = [] ∧
  ∃ e, l'.entry = some e ∧ EntryOf e l pc m

/-- The group with the executing lanes waiting at the instruction. -/
def waitingAt (iss : Issue) (g : Group) (w : Wait) : Group :=
  g.eachLane iss.lanes fun _ l => { l with pc := iss.pc, wait := w }

/-- The state in which the executing lanes' stores have drained and the lanes wait at a barrier instruction (R186, R228). -/
def atBarrier (s : State) (iss : Issue) (g : Group) (w : Wait) : State :=
  let s1 := committed s iss g
  s1.setGroup iss.key (waitingAt iss (s1.groupNow iss.key g) w)

/-- The lanes of a group that wait at a barrier have gone on to the next instruction; an evicted group's are noted besides
(R228, R337). -/
def Passed (g : Group) (w : Wait) (g' : Group) : Prop :=
  let waits := fun l : Lane => l.live = true ∧ l.wait = w
  { g' with lanes := g.lanes, pre := g.pre } = g ∧
  g'.lanes = g.lanes.map (fun l => if waits l then { l with wait := .none, pc := l.pc + 12 } else l) ∧
  g'.pre = match g.pre with
    | .evicted at_ back freed => .evicted at_ back (freed ||| maskOf fun i => decide (waits (g.lane i)))
    | p => p

/-- A barrier has released its groups, on cores and evicted, and changed nothing else. -/
def Releases (s : State) (among : Group → Prop) (w : Wait) (t : State) : Prop :=
  let one := fun x y : Nat × Group => y.1 = x.1 ∧ (among x.2 → Passed x.2 w y.2) ∧ (¬ among x.2 → y.2 = x.2)
  let all := fun (xs ys : List (Nat × Group)) => ys.length = xs.length ∧ ∀ (n : Nat) x y, xs[n]? = some x → ys[n]? = some y → one x y
  { t with groups := s.groups, saved := s.saved } = s ∧ all s.groups t.groups ∧ all s.saved t.saved

/-- A group of a team's own task (R141). -/
def ofTeam (serial : Nat) (g : Group) : Prop := g.kind = .team ∧ g.team = some serial

/-- The groups of a team that have not exited have all arrived at a barrier (R228). -/
def teamArrived (s : State) (serial : Nat) (w : Wait) : Prop := ∀ x ∈ s.teamGroups serial, x.2.arrived w = true

/-- The executing lanes of a group stand at the next instruction. -/
def wentOn (iss : Issue) (t : State) : Prop :=
  ∃ g', t.group? iss.key = some g' ∧ ∀ i ∈ iss.ls, (g'.lane i).pc = iss.pc + 12 ∧ (g'.lane i).wait = .none

/-- The groups of a task on a core or evicted: a TEAM task's groups of its team, or the one group (R331). -/
def inTask (key : Nat) (g : Group) (k : Nat) (h : Group) : Prop :=
  match g.kind, g.team with
  | .team, some n => h.kind = .team ∧ h.team = some n
  | _, _ => k = key ∧ h.uid = g.uid

/-- An operation of a lane on a distant sett, deferred to the boundary (R314). -/
def deferredOf (iss : Issue) (g : Group) (pd : Nat) (r : SettRef) (op kind val : Nat) : DeferredSett :=
  ⟨iss.key, g.uid, r.lane, iss.pc, op, kind, r.phys, val, pd⟩

/-- In deterministic mode operations on distant setts wait for the boundary: they join the partition's deferred ones in
lane order, the whole group waits for the boundary with its path past the instruction, and nothing else changes (R314). -/
def Deferred (s1 : State) (iss : Issue) (g : Group) (ds : List DeferredSett) (t : State) : Prop :=
  t = (s1.modDet (partOf iss.key) fun d => { d with setts := d.setts ++ ds }).setGroup iss.key
    { s1.groupNow iss.key g with distant := true }

/-! Engine operations. -/

/-- The group in the state that a commit instruction acts on. -/
def committedGroup (s : State) (iss : Issue) (g : Group) : Group := (committed s iss g).groupNow iss.key g

/-- A pair is clean in every executing lane. -/
def clean64 (iss : Issue) (g : Group) (o : Opnd) : Prop := ∀ i ∈ iss.ls, (read64 g i o).2 = false

/-- No store of the executing lanes is left to drain, and no write waits at a link. -/
def nothingToDrain (s : State) (iss : Issue) (g : Group) : Prop :=
  (∀ b ∈ g.buf, bit iss.lanes b.lane = false) ∧ ∀ l ∈ s.links, l.writes = []

/-- An instruction whose executing lanes issue engine operations in lane order: every lane's request passes its checks
before the drain and, where there is anything to drain, after it; the engine has room, and the group holds the token where
it needs one. It then issues all of them, and changes nothing else of the state (R186, R233, R321, R330). -/
def EngineIssues {α : Type} (i : Instr) (ops : List Opnd) (token : Bool)
    (req : State → Issue → Group → Nat → Except (Nat × Nat × Nat) α) (one : Issue → Group → State → α → Option State)
    (room : State → Nat → List α → Prop) : Prop :=
  ∀ s iss g rs, wf i = true → Runs s iss g → (∀ o ∈ ops, clean32 iss g o) →
    (token = true → s.lacksToken iss.key g = false) →
    (∀ k ∈ iss.ls, ∃ r, req (movedOn s iss g) iss (g.stepPast iss) k = .ok r) →
    let s1 := committed s iss g
    let g1 := committedGroup s iss g
    (iss.ls.map (req s1 iss g1) = rs.map .ok ∨
      (nothingToDrain s iss g ∧ iss.ls.map (req (movedOn s iss g) iss (g.stepPast iss)) = rs.map .ok)) →
    room s (coreOf iss.key) rs →
    ∃ t, rs.foldlM (one iss g1) s1 = some t ∧
      exec i s = .next (t.modGroup iss.key fun g => { g with touched := true })

/-- Room for bulk operations: 16 of a core, and the range locks that they need (R204, R233). -/
def bulkRoom (s : State) (ck : Nat) (rs : List BulkReq) : Prop :=
  s.bulkCount ck + rs.length ≤ 16 ∧ (tget s.locks ck []).length + (rs.map fun r => (r.locks 0).length).sum ≤ 64

/-- The bytes that a list of writes leaves at an address: the last write there, else what was there. -/
def lastWrite (ws : List (Nat × Byte)) (old : Byte) (a : Nat) : Byte :=
  match ws.reverse.find? (·.1 == a) with
  | some w => w.2
  | none => old

/-- The byte that an engine's writes leave at an address, one after the other: a byte or one nibble of it (R231). -/
def engBytes (ws : List EngWrite) (old : Byte) (a : Nat) : Byte :=
  ws.foldl (fun b w => if w.place.phys = a then w.over b else b) old

/-- An engine operation's places are plain memory: unencrypted, and not behind a link. -/
def plainPlaces (pls : List Place) : Prop := ∀ pl ∈ pls, pl.key = 0 ∧ isHost pl.phys = false

/-! Answers that return later. -/

/-- Lanes act in rising order on the state, each with an answer; the first that has to ask a link stops them (R43). -/
def inLaneOrder {α : Type} (one : State → Nat → Except XErr (State × α)) :
    State → List Nat → Except XErr (State × List (Nat × α))
  | s, [] => .ok (s, [])
  | s, i :: is =>
    match one s i with
    | .error e => .error e
    | .ok (s, v) =>
      match inLaneOrder one s is with
      | .error e => .error e
      | .ok (t, vs) => .ok (t, (i, v) :: vs)

/-- The group's load counter is one higher, and clean answers of lanes wait to return to the n registers of D; those that
operations still owe, by their numbers, come with them (R164, R399). -/
def answersDue (key : Nat) (d : Opnd) (n : Nat) (vals : List (Nat × Nat)) (owed : List (Nat × Nat)) (s : State) : State :=
  s.modGroup key fun g => { g with
    loads := g.loads + 1
    pend := g.pend ++ [⟨vals.map fun x => pendAmong d n (vals.map (·.1)) x.1 (x.2, false), owed⟩] }

/-- The path waits for a link's answer: nothing of the instruction has happened, and it issues again (R43). -/
def AsksFirst (s : State) (iss : Issue) (g : Group) (e : XErr) (t : State) : Prop := t = takeTrap s iss g (askTrap e)

/-- A commit instruction whose executing lanes act in lane order, each with an answer of n words: the drain first, then
the acts, and the answers wait to return to D. It completes with the token, with room for its result, and where its
operands are as it asks (R186, R164, R321); where a lane has to ask a link first, the path waits (R43). -/
def Answers (i : Instr) (d : Opnd) (n : Nat) (asks : State → Issue → Group → Prop)
    (one : Issue → Group → State → Nat → Except XErr (State × Nat)) (after : Issue → State → State) : Prop :=
  ∀ s iss g, wf i = true → Runs s iss g → g.loads < 63 → s.lacksToken iss.key g = false → asks s iss g →
    Reaches (exec i s) fun t =>
      match inLaneOrder (one iss g) (committed s iss g) iss.ls with
      | .ok r => t = answersDue iss.key d n r.2 [] (after iss r.1)
      | .error e => AsksFirst s iss g e t

/-- The sectors that a group had asked for are used up. -/
def usedUp (iss : Issue) (s : State) : State := s.dropReturned (.group iss.key)

/-- As Answers, for operations that may answer later: each gives its answer, or none, and then the number under which it
waits is that of the state before it (R399, R423). -/
def AnswersLater (i : Instr) (d : Opnd) (n : Nat) (asks : State → Issue → Group → Prop)
    (one : Issue → Group → State → Nat → Except XErr (State × Option Nat)) (after : Issue → Group → State → State) : Prop :=
  ∀ s iss g, wf i = true → Runs s iss g → g.loads < 63 → s.lacksToken iss.key g = false → asks s iss g →
    let step := fun (s : State) k => (one iss g s k).map fun r => (r.1, r.2, r.1.serial - 1)
    Reaches (exec i s) fun t =>
      match inLaneOrder step (committed s iss g) iss.ls with
      | .ok r => t = after iss g (answersDue iss.key d n (r.2.map fun x => (x.1, x.2.1.getD 0))
          (r.2.filterMap fun x => if x.2.1 = none then some (x.2.2, x.1) else none) (usedUp iss r.1))
      | .error e => AsksFirst s iss g e t

/-- The lanes ls name blocks of n bytes in their team's local store: aligned, within it, and clean over pn bytes (R417,
R421, R425). -/
def namesBlocks (s : State) (g : Group) (ls : List Nat) (a : Opnd) (align n pn : Nat) : Prop :=
  ∃ t, g.team = some t ∧ ∀ i ∈ ls, (read32 g i a).1 % align = 0 ∧ (read32 g i a).1 + n ≤ s.lstoreOf g ∧
    s.poisonAt (localAddr t (read32 g i a).1) pn = false

/-- The place of a lane's block. -/
def blockPlace (g : Group) (o : Opnd) (i : Nat) : Nat := localAddr (g.team.getD 0) (read32 g i o).1

/-- The answer of a refusal: bit 31, and the reason. -/
def refusedWith (reason : Nat) : Nat := 2 ^ 31 + reason

/-- A SYSWR whose lanes name selectors: as AnswersLater, over the lanes' B and the blocks that it names; a context stop in
deterministic mode holds the group until the boundary (R425, R327). -/
def SysAnswers (i : Instr) (a : Option Opnd) (sel : Group → Nat → Nat) (d b : Opnd) : Prop :=
  AnswersLater i d 1
    (fun s iss g => (∀ o ∈ a, clean32 iss g o) ∧ clean32 iss g b ∧
      let blocks := iss.ls.filter fun k => sel g k != 0x010
      (blocks ≠ [] → namesBlocks s g blocks b 64 64 64))
    (fun iss g s k => sysOne iss.key (sel g k) (read32 g k b).1 (memBytes s.mem (blockPlace g b k) 64) s)
    fun iss g t => if (!t.normalMode (partOf iss.key) && iss.ls.any fun k => sel g k == 0x103) = true
      then t.modGroup iss.key Group.awaitBoundary else t

/-! Commands of firmware. -/

/-- Argument word k of the command in a link's mailbox (R79). -/
def argWord (l : Link) (k : Nat) : Nat := (l.mailbox.args.getD k 0).toNat

/-- Firmware takes up the command in a link's mailbox, by its opcode and, for RESET, its scope (R79, R80, R86). -/
structure Commanded (s : State) (link opcode : Nat) (scope : Option Nat) (l : Link) : Prop where
  posted : s.links[link]? = some l
  turn : s.firmwareTurn link = true
  ready : s.fw.available = true
  names : l.mailbox.opcode = opcode
  scopeIs : ∀ k ∈ scope, argWord l 0 = k

/-- A command whose arguments meet a condition has its effect and completes with status 0 and its result words. -/
def Commands (i : Nat → Instr) (opcode : Nat) (scope : Option Nat) (met : Nat → (Nat → Nat) → State → Prop)
    (effect : Nat → (Nat → Nat) → State → State × List Nat) : Prop :=
  ∀ s link l, Commanded s link opcode scope l → met link (argWord l) s →
    let r := effect link (argWord l) s
    exec (i link) s = .next (r.1.complete link 0 r.2)

/-- A command whose arguments meet a condition completes with a status of failure, and changes nothing (R80). -/
def Declines (i : Nat → Instr) (opcode : Nat) (scope : Option Nat) (status : Nat) (met : Nat → (Nat → Nat) → State → Prop) :
    Prop :=
  ∀ s link l, Commanded s link opcode scope l → met link (argWord l) s →
    exec (i link) s = .next (s.complete link status [])

/-- A partition exists, and a condition holds of it. -/
def ofPart (s : State) (part : Nat) (met : Part → Prop) : Prop := ∃ p, s.part? part = some p ∧ met p

/-- As Commands, where the result is told by what holds of it. -/
def CommandsTo (i : Nat → Instr) (opcode : Nat) (scope : Option Nat) (met : Nat → (Nat → Nat) → State → Prop)
    (after : (Nat → Nat) → State → State → List Nat → Prop) : Prop :=
  ∀ s link l, Commanded s link opcode scope l → met link (argWord l) s →
    ∃ t rs, exec (i link) s = .next (t.complete link 0 rs) ∧ after (argWord l) s t rs

/-- A RESET that is done: its event on the error stream of its partition, and its two result words (R86). -/
def resetEnds (s : State) (part scope target tasks cands : Nat) : State × List Nat :=
  (s.sysPost part errStream 0x0019 [scope, target, tasks, cands], [tasks, cands])

/-- The arguments of a RESET are in range, with flags that its scope has, and its partition exists (R81, R86). -/
def resetMet (limit flags : Nat) (a : Nat → Nat) (s : State) (met : Part → Prop) : Prop :=
  a 1 < 16 ∧ a 2 < limit ∧ a 3 &&& flags = a 3 ∧ ofPart s (a 1) met

/-- The rows of the mailbox commands. -/
def commandRows : List (Nat → Instr) :=
  [.partCreate, .partDestroy, .partQuarters, .delowPorts, .routeSet, .evportSet, .slotSet, .remapSet, .streamAssign, .pasidAdd,
   .pasidRevoke, .keySet, .keyClear, .rangeSet, .setWorld, .resetGroup, .resetTeam, .resetCore, .resetQuarter,
   .resetPartition, .resetMatchEngine, .resetDelowPort, .resetPcieFunction, .quote, .patch, .energySet, .replicaSet, .info]

/-- The unallocated opcodes, as ranges (R354). -/
def unallocated : List (Nat × Nat) :=
  [(0x01F, 0x01F), (0x025, 0x027), (0x02E, 0x07F), (0x090, 0x0FF), (0x11C, 0x17F), (0x183, 0x187), (0x18D, 0x1FF),
   (0x20C, 0x20F), (0x215, 0x27F), (0x287, 0x287), (0x28D, 0x28F), (0x292, 0x2FF), (0x312, 0x37F), (0x386, 0x387),
   (0x38F, 0x3FF)]

end Sys2Proof.Machine
end

