-- ==== Sys2Proof/Certificates/Slice0/Obligations.lean ====
section
/-! DEFINITION. The statements about the machine. Each docstring names the rules of the manual that it formalises. -/

open Sys2Proof Sys2Proof.Machine

/-! Class 000. -/

/-- The exact integer operations: the operands' numbers under the flags, the exact result, the clamp of sat, and the
result kept modulo 2^w; with the frame (R361, R362, R365, R366, R344, R360). -/
def Obligations.IntegerArithmeticResults : Prop :=
  (∀ ty fl d a b, Computes (.iadd ty fl d a b) d ty.regs [a, b] (arith2 ty fl fl.sat a b (· + ·))) ∧
  (∀ ty fl d a b, Computes (.isub ty fl d a b) d ty.regs [a, b] (arith2 ty fl fl.sat a b (· - ·))) ∧
  (∀ ty fl d a b, Computes (.imul ty fl d a b) d ty.regs [a, b] (arith2 ty fl fl.sat a b (· * ·))) ∧
  (∀ ty fl d a b, Computes (.imulh ty fl d a b) d ty.regs [a, b]
    (arith2 ty fl false a b fun x y => x * y / 2 ^ tyWidth ty)) ∧
  (∀ ty fl d a b, Computes (.imin ty fl d a b) d ty.regs [a, b] (arith2 ty fl false a b min)) ∧
  (∀ ty fl d a b, Computes (.imax ty fl d a b) d ty.regs [a, b] (arith2 ty fl false a b max)) ∧
  (∀ ty sat d a, Computes (.iabs ty sat d a) d ty.regs [a]
    (val1 ty ty.regs a fun x => intRes ty sat (intNum ty (intSrc ty false false x)).natAbs)) ∧
  (∀ ty fl d a b c, Computes (.imad ty fl d a b c) d ty.regs [a, b, c]
    (val3 ty ty.regs a ty ty.regs b ty ty.regs c fun x y z =>
      intRes ty fl.sat (intNum ty (intSrc ty fl.negA fl.absA x) * intNum ty (intSrc ty fl.negB false y) +
        intNum ty (intSrc ty fl.negC false z)))) ∧
  (∀ sat d a b c, Computes (.imadw .i32 sat d a b c) d 2 [a, b, c]
    (val3 .i32 1 a .i32 1 b .i64 2 c fun x y z =>
      intRes .i64 sat ((BitVec.ofNat 32 x).toInt * (BitVec.ofNat 32 y).toInt + (BitVec.ofNat 64 z).toInt))) ∧
  (∀ sat d a b c, Computes (.imadw .n32 sat d a b c) d 2 [a, b, c]
    (val3 .n32 1 a .n32 1 b .n64 2 c fun x y z =>
      intRes .n64 sat ((BitVec.ofNat 32 x).toNat * (BitVec.ofNat 32 y).toNat + (BitVec.ofNat 64 z).toNat))) ∧
  (∀ ty n d a b, Computes (.lea ty n d a b) d 2 [a, b]
    (val2 .n64 2 a ty 1 b fun x y =>
      (BitVec.ofNat 64 x + BitVec.ofInt 64 (intNum ty (intSrc ty false false y)) * BitVec.ofNat 64 (2 ^ n)).toNat))

/-- The bitwise operations and the shifts: 0 or copies of the top bit from w upward, and a rotation by k mod w; with the
frame (R361). -/
def Obligations.BitwiseAndShiftResults : Prop :=
  (∀ ty d a b, Computes (.and ty d a b) d ty.regs [a, b] (bits2 ty a b (· &&& ·))) ∧
  (∀ ty d a b, Computes (.or ty d a b) d ty.regs [a, b] (bits2 ty a b (· ||| ·))) ∧
  (∀ ty d a b, Computes (.xor ty d a b) d ty.regs [a, b] (bits2 ty a b (· ^^^ ·))) ∧
  (∀ ty d a b, Computes (.andn ty d a b) d ty.regs [a, b] (bits2 ty a b fun x y => x &&& ~~~y)) ∧
  (∀ ty d a b, Computes (.shl ty d a b) d ty.regs [a, b] (shiftBy ty a b fun x k => x <<< k)) ∧
  (∀ ty d a b, Computes (.shr ty d a b) d ty.regs [a, b] (shiftBy ty a b fun x k => x >>> k)) ∧
  (∀ ty d a b, Computes (.sar ty d a b) d ty.regs [a, b] (shiftBy ty a b BitVec.sshiftRight)) ∧
  (∀ ty d a b, Computes (.rol ty d a b) d ty.regs [a, b] (shiftBy ty a b BitVec.rotateLeft))

/-- Counts of bits, the reversal, the moves and the field operations; with the frame (R363 to R366). -/
def Obligations.BitCountMoveAndFieldResults : Prop :=
  (∀ ty d a, Computes (.popc ty d a) d 1 [a]
    (val1 ty ty.regs a fun x => ((List.range (tyWidth ty)).filter fun k => bit x k).length)) ∧
  (∀ ty d a, Computes (.clz ty d a) d 1 [a]
    (val1 ty ty.regs a fun x => (List.range (tyWidth ty)).reverse.findIdx fun k => bit x k)) ∧
  (∀ ty d a, Computes (.ctz ty d a) d 1 [a]
    (val1 ty ty.regs a fun x => (List.range (tyWidth ty)).findIdx fun k => bit x k)) ∧
  (∀ ty d a, Computes (.brev ty d a) d ty.regs [a]
    (val1 ty ty.regs a fun x => (BitVec.ofNat (tyWidth ty) x).reverse.toNat)) ∧
  (∀ ty d a, Computes (.mov ty d a) d ty.regs [a] (laneVal ty ty.regs a)) ∧
  (∀ ty d v, Computes (.movi ty d v) d ty.regs [] (fun _ _ _ _ => (immVal ty v, false))) ∧
  (∀ ty d a b, Computes (.bfx ty d a b) d ty.regs [a, b] (val2 ty ty.regs a .n32 1 b (bfxBits ty))) ∧
  (∀ ty d a b c, Computes (.bfi ty d a b c) d ty.regs [a, b, c]
    (val3 ty ty.regs a .n32 1 b ty ty.regs c (bfiBits ty))) ∧
  (∀ ty d a b c, Computes (.prmt ty d a b c) d 1 [a, b, c] (val3 ty 1 a ty 1 b ty 1 c prmtBits))

/-- LADD, LSUB and SEL: carries pass down a chain undecided where they are undecided, F and U both select B, and a
poisoned pC poisons what it selects; with the frame (R367). -/
def Obligations.CarryAndSelectResults : Prop :=
  (∀ ty d a b pc, Carries (.ladd ty d a b pc) false d a b pc) ∧
  (∀ ty d a b pc, Carries (.lsub ty d a b pc) true d a b pc) ∧
  (∀ ty d a b pc, Computes (.sel ty d a b pc) d ty.regs [a, b] fun s iss g i =>
    let x := laneVal ty ty.regs a s iss g i
    let y := laneVal ty ty.regs b s iss (walked iss g [a]) i
    let p := predOf g i pc
    (if p.v = .T then x.1 else y.1, x.2 || y.2 || p.pois))

/-- ICMP and the predicate instructions: the relation between the numbers, Kleene's connectives, PSET's codes, PDEF's
numbers and PTEST's mask; with the frame (R368, R370, R282). -/
def Obligations.PredicateResults : Prop :=
  (∀ ty rel fl pd a b, Decides (.icmp ty rel fl pd a b) pd [a, b]
    (tri2 ty ty.regs a ty ty.regs b fun x y =>
      triBool (relInt rel (intNum ty (intSrc ty fl.negA fl.absA x)) (intNum ty (intSrc ty fl.negB false y))))) ∧
  (∀ na nb pd pa pb, Decides (.pand na nb pd pa pb) pd [] fun _ _ g i =>
    (triAnd (triNot na (predOf g i pa).v) (triNot nb (predOf g i pb).v), (predOf g i pa).pois || (predOf g i pb).pois)) ∧
  (∀ na nb pd pa pb, Decides (.por na nb pd pa pb) pd [] fun _ _ g i =>
    (triOr (triNot na (predOf g i pa).v) (triNot nb (predOf g i pb).v), (predOf g i pa).pois || (predOf g i pb).pois)) ∧
  (∀ na pd pa, Decides (.pnot na pd pa) pd [] fun _ _ g i => (triNot (!na) (predOf g i pa).v, (predOf g i pa).pois)) ∧
  (∀ pd a, Decides (.pset pd a) pd [a]
    (tri1 .n32 1 a fun x => if x % 4 = 0 then .F else if x % 4 = 1 then .T else .U)) ∧
  (∀ d pa, Computes (.pdef d pa) d 1 [] fun _ _ g i =>
    ((match (predOf g i pa).v with | .F => 0 | .T => 1 | .U => 2), (predOf g i pa).pois)) ∧
  (∀ m pd pa, Decides (.ptest m pd pa) pd [] fun _ _ g i =>
    (triBool (match (predOf g i pa).v with | .T => bit m 2 | .F => bit m 1 | .U => bit m 0), (predOf g i pa).pois))

/-- The lane network reads executing lanes alone: SHFL writes the lanes whose source executes, VOTE and REDUX give every
lane one result, READL one lane's value, ELECT the lowest lane; with the frame (R369). -/
def Obligations.LaneNetworkResults : Prop :=
  (∀ ty mode d a b s iss g, wf (.shfl ty mode d a b) = true → Runs s iss g →
    let low := read32 g (iss.ls.headD 0) b
    let from_ := fun i => shflFrom mode (shflWidth low.1) i ((read32 g i b).1 % 256)
    Reaches (exec (.shfl ty mode d a b) s)
      (Wrote s iss g (iss.ls.filter fun i => iss.ls.contains (from_ i)) d ty.regs fun i =>
        let v := readOp g (from_ i) ty ty.regs a
        (v.1, v.2 || (read32 g i b).2 || low.2))) ∧
  (∀ mode d pa s iss g, wf (.vote mode d pa) = true → Runs s iss g →
    let v := fun i => (predOf g i pa).v
    let bad := iss.ls.any fun i => (predOf g i pa).pois
    Reaches (exec (.vote mode d pa) s) fun t =>
      match mode with
      | .all => WrotePred s iss g iss.ls d (fun _ => (voteAll iss.ls v, bad)) t
      | .any => WrotePred s iss g iss.ls d (fun _ => (voteAny iss.ls v, bad)) t
      | .ballot => Wrote s iss g iss.ls d 1 (fun _ => (ballotOf iss.ls v .T, bad)) t
      | .ballotf => Wrote s iss g iss.ls d 1 (fun _ => (ballotOf iss.ls v .F, bad)) t
      | .ballotu => Wrote s iss g iss.ls d 1 (fun _ => (ballotOf iss.ls v .U, bad)) t) ∧
  (∀ ty op d a s iss g, wf (.redux ty op d a) = true → Runs s iss g →
    Reaches (exec (.redux ty op d a) s)
      (Wrote s iss g iss.ls d ty.regs fun _ => foldLanes (reduxStep ty op) (fun i => readOp g i ty ty.regs a) iss.ls)) ∧
  (∀ ty d a b s iss g, wf (.readl ty d a b) = true → Runs s iss g →
    let low := iss.ls.headD 0
    let k := (read32 g low b).1 % 32
    let k := if iss.ls.contains k then k else low
    Reaches (exec (.readl ty d a b) s)
      (Wrote s iss g iss.ls d ty.regs fun _ =>
        ((readOp g k ty ty.regs a).1, (readOp g k ty ty.regs a).2 || (read32 g low b).2))) ∧
  (∀ pd s iss g, wf (.elect pd) = true → Runs s iss g →
    Reaches (exec (.elect pd) s) (WrotePred s iss g iss.ls pd fun i => (triBool (i == iss.ls.headD 0), false)))

/-! Classes 001 and 010. -/

/-- Point arithmetic: every element's result is the exact result rounded once by the mode, with the flags, the clamp of sat
and the frame (R382 to R384, R387, R344, R262). FMIN, FMAX, FCMP and FCLASS: a NaN beside a number gives the number, -0 lies
below +0, U marks an unordered comparison, and each element's class is one bit (R384 to R386). -/
def Obligations.PointArithmeticResults : Prop :=
  ((∀ ty r fl d a b, Computes (.fadd ty r fl d a b) d ty.regs [a, b]
    (fpElems2 ty fl a b fun x y => onceRounded ty r fl ((elemVal ty x).add r (elemVal ty y)))) ∧
  (∀ ty r fl d a b, Computes (.fsub ty r fl d a b) d ty.regs [a, b]
    (fpElems2 ty fl a b fun x y => onceRounded ty r fl ((elemVal ty x).add r (elemVal ty y).negate))) ∧
  (∀ ty r fl d a b, Computes (.fmul ty r fl d a b) d ty.regs [a, b]
    (fpElems2 ty fl a b fun x y => onceRounded ty r fl ((elemVal ty x).mul (elemVal ty y)))) ∧
  (∀ ty r fl d a b, Computes (.fdiv ty r fl d a b) d ty.regs [a, b]
    (fpElems2 ty fl a b fun x y => onceRounded ty r fl ((elemVal ty x).div (elemVal ty y)))) ∧
  (∀ ty r fl d a b c, Computes (.ffma ty r fl d a b c) d ty.regs [a, b, c]
    (val3 ty ty.regs a ty ty.regs b ty ty.regs c fun x y z =>
      perElement ty (fun p q u => onceRounded ty r fl (((elemVal ty p).mul (elemVal ty q)).add r (elemVal ty u)))
        (fpFlags ty fl.negA fl.absA x) (fpFlags ty fl.negB false y) (fpFlags ty fl.negC false z))) ∧
  (∀ ty r fl d a, Computes (.fsqrt ty r fl d a) d ty.regs [a]
    (fpElems1 ty fl a fun x => onceRounded ty r fl (elemVal ty x).sqrt)) ∧
  (∀ ty r fl d a, Computes (.frcp ty r fl d a) d ty.regs [a]
    (fpElems1 ty fl a fun x => onceRounded ty r fl ((FVal.fin false 1 0).div (elemVal ty x)))) ∧
  (∀ ty r fl d a, Computes (.frsq ty r fl d a) d ty.regs [a]
    (fpElems1 ty fl a fun x => onceRounded ty r fl (elemVal ty x).rsqrt)) ∧
  (∀ ty r fl d a, Computes (.fexp2 ty r fl d a) d ty.regs [a]
    (fpElems1 ty fl a fun x => onceRounded ty r fl (elemVal ty x).exp2)) ∧
  (∀ ty r fl d a, Computes (.flog2 ty r fl d a) d ty.regs [a]
    (fpElems1 ty fl a fun x => onceRounded ty r fl (elemVal ty x).log2)) ∧
  (∀ ty r fl d a, Computes (.frnd ty r fl d a) d ty.regs [a]
    (fpElems1 ty fl a fun x => onceRounded ty r Flags.none ((elemVal ty x).integral r))) ∧
  (∀ ty r fl d a b, Computes (.fscale ty r fl d a b) d ty.regs [a, b]
    (val2 ty ty.regs a .i32 1 b fun x y =>
      perElement ty (fun p _ _ => onceRounded ty r fl ((elemVal ty p).scale (BitVec.ofNat 32 y).toInt))
        (fpFlags ty fl.negA fl.absA x) 0 0))) ∧
  ((∀ ty fl d a b, Computes (.fmin ty fl d a b) d ty.regs [a, b] (fpElems2 ty fl a b fun x y =>
    if (elemVal ty x).isNan then (if (elemVal ty y).isNan then (fpFmt ty).qnan else y)
    else if (elemVal ty y).isNan then x
    else if (elemVal ty x).lt (elemVal ty y) then x
    else if (elemVal ty y).lt (elemVal ty x) then y
    else if bit x (fpFmt ty).signBit then x else y)) ∧
  (∀ ty fl d a b, Computes (.fmax ty fl d a b) d ty.regs [a, b] (fpElems2 ty fl a b fun x y =>
    if (elemVal ty x).isNan then (if (elemVal ty y).isNan then (fpFmt ty).qnan else y)
    else if (elemVal ty y).isNan then x
    else if (elemVal ty x).lt (elemVal ty y) then y
    else if (elemVal ty y).lt (elemVal ty x) then x
    else if bit x (fpFmt ty).signBit then y else x)) ∧
  (∀ ty rel fl pd a b, Decides (.fcmp ty rel fl pd a b) pd [a, b]
    (tri2 ty ty.regs a ty ty.regs b fun x y =>
      relFp rel (elemVal ty (fpFlags ty fl.negA fl.absA x)) (elemVal ty (fpFlags ty fl.negB false y)))) ∧
  (∀ ty fl d a, Computes (.fclass ty fl d a) d 1 [a] (fpElems1 ty fl a fun x =>
    let neg := bit x (fpFmt ty).signBit
    match elemVal ty x with
    | .nan => if bit x ((fpFmt ty).mant - 1) then 2 ^ 9 else 2 ^ 8
    | .inf _ => if neg then 2 ^ 0 else 2 ^ 7
    | .fin _ m _ =>
      if m = 0 then (if neg then 2 ^ 3 else 2 ^ 4)
      else if x % 2 ^ (fpFmt ty).signBit < 2 ^ (fpFmt ty).mant then (if neg then 2 ^ 2 else 2 ^ 5)
      else if neg then 2 ^ 1 else 2 ^ 6)))

/-- Interval operations write the exact set rounded outward, an operand that is empty giving the empty interval but for
IVHULL; with the frame (R272 to R274, R277, R389, R390). -/
def Obligations.IntervalResults : Prop :=
  (∀ ty d a b, IvSets (.ivadd ty d a b) ty d [a, b] fun vs => ivAdd (vs.getD 0 .empty) (vs.getD 1 .empty)) ∧
  (∀ ty d a b, IvSets (.ivsub ty d a b) ty d [a, b] fun vs => ivAdd (vs.getD 0 .empty) (ivNeg (vs.getD 1 .empty))) ∧
  (∀ ty d a b, IvSets (.ivmul ty d a b) ty d [a, b] fun vs => ivMul (vs.getD 0 .empty) (vs.getD 1 .empty)) ∧
  (∀ ty d a b, IvSets (.ivdiv ty d a b) ty d [a, b] fun vs => ivDiv (vs.getD 0 .empty) (vs.getD 1 .empty)) ∧
  (∀ ty d a b c, IvSets (.ivfma ty d a b c) ty d [a, b, c] fun vs =>
    ivAdd (ivMul (vs.getD 0 .empty) (vs.getD 1 .empty)) (vs.getD 2 .empty)) ∧
  (∀ ty d a, IvSets (.ivsqr ty d a) ty d [a] fun vs => ivSqr (vs.getD 0 .empty)) ∧
  (∀ ty d a, IvSets (.ivsqrt ty d a) ty d [a] fun vs => ivSqrt (vs.getD 0 .empty)) ∧
  (∀ ty d a, IvSets (.ivrcp ty d a) ty d [a] fun vs => ivDiv ⟨.fin false 1 0, .fin false 1 0⟩ (vs.getD 0 .empty)) ∧
  (∀ ty d a, IvSets (.ivexp2 ty d a) ty d [a] fun vs => ivExp2 (vs.getD 0 .empty)) ∧
  (∀ ty d a, IvSets (.ivlog2 ty d a) ty d [a] fun vs => ivLog2 (vs.getD 0 .empty)) ∧
  (∀ ty d a, IvSets (.ivabs ty d a) ty d [a] fun vs => ivAbs (vs.getD 0 .empty)) ∧
  (∀ ty d a, IvSets (.ivneg ty d a) ty d [a] fun vs => ivNeg (vs.getD 0 .empty)) ∧
  (∀ ty d a b, IvSets (.ivmin ty d a b) ty d [a, b] fun vs =>
    ⟨fmin2 (vs.getD 0 .empty).lo (vs.getD 1 .empty).lo, fmin2 (vs.getD 0 .empty).hi (vs.getD 1 .empty).hi⟩) ∧
  (∀ ty d a b, IvSets (.ivmax ty d a b) ty d [a, b] fun vs =>
    ⟨fmax2 (vs.getD 0 .empty).lo (vs.getD 1 .empty).lo, fmax2 (vs.getD 0 .empty).hi (vs.getD 1 .empty).hi⟩) ∧
  (∀ ty d a b, IvSets (.ivisect ty d a b) ty d [a, b] fun vs => ivIsect (vs.getD 0 .empty) (vs.getD 1 .empty)) ∧
  (∀ ty d a b, IvComputes (.ivhull ty d a b) ty d ty.regs [.iv a, .iv b] false
    (fun vs => imgEmpty ty (ivImage ty (fun vs => ivHull (vs.getD 0 .empty) (vs.getD 1 .empty)) vs))
    (ivImage ty fun vs => ivHull (vs.getD 0 .empty) (vs.getD 1 .empty))) ∧
  (∀ ty d p q, IvComputes (.ivmake ty d p q) ty d ty.regs [.pt p, .pt q] true
    (fun vs => imgEmpty ty (ivOut ty (ivMake (pointVal ty (vs.getD 0 0)) (pointVal ty (vs.getD 1 0)))))
    (fun vs => ivOut ty (ivMake (pointVal ty (vs.getD 0 0)) (pointVal ty (vs.getD 1 0))))) ∧
  (∀ ty d p, IvComputes (.ivpt ty d p) ty d ty.regs [.pt p] true
    (fun vs => imgEmpty ty (ivOut ty (ivMake (pointVal ty (vs.getD 0 0)) (pointVal ty (vs.getD 0 0)))))
    (fun vs => ivOut ty (ivMake (pointVal ty (vs.getD 0 0)) (pointVal ty (vs.getD 0 0)))))

/-- The bounds, the midpoint and the width of an interval as points, and the interval predicates; with the frame (R275,
R279, R389, R391). IVBIS writes the lower halves of the executing lanes' intervals and puts the upper halves into the
filling batch of the team's pool in lane order; no real of an interval is lost, and a batch with entries becomes a task at
IVBFL (R285 to R288, R392). -/
def Obligations.IntervalPointAndPredicateResults : Prop :=
  ((∀ ty d a, IvComputes (.ivlo ty d a) ty d ty.point.regs [.iv a] false (fun _ => false)
    fun vs => pointOf ty (vs.getD 0 0 % 2 ^ boundBits ty)) ∧
  (∀ ty d a, IvComputes (.ivhi ty d a) ty d ty.point.regs [.iv a] false (fun _ => false)
    fun vs => pointOf ty (vs.getD 0 0 / 2 ^ boundBits ty % 2 ^ boundBits ty)) ∧
  (∀ ty d a, IvComputes (.ivmid ty d a) ty d ty.point.regs [.iv a] false (fun _ => false) fun vs =>
    if (ivOf ty (vs.getD 0 0)).isEmpty then pointNan ty else pointOf ty (midCode ty (ivOf ty (vs.getD 0 0)))) ∧
  (∀ ty d a, IvComputes (.ivwid ty d a) ty d ty.point.regs [.iv a] false (fun _ => false)
    fun vs => ivWidth ty (vs.getD 0 0)) ∧
  (∀ ty rel pd a b, IvDecides (.ivcmp ty rel pd a b) ty pd [.iv a, .iv b]
    fun vs => ivCompare rel (ivOf ty (vs.getD 0 0)) (ivOf ty (vs.getD 1 0))) ∧
  (∀ ty pd p b, IvDecides (.ivin ty pd p b) ty pd [.pt p, .iv b] fun vs =>
    let x := pointVal ty (vs.getD 0 0)
    let i := ivOf ty (vs.getD 1 0)
    if x.isNan then .U else triBool (x.isFin && !i.isEmpty && i.lo.le x && x.le i.hi)) ∧
  (∀ ty pd a b, IvDecides (.ivsubs ty pd a b) ty pd [.iv a, .iv b] fun vs =>
    let x := ivOf ty (vs.getD 0 0)
    let y := ivOf ty (vs.getD 1 0)
    triBool (x.isEmpty || (!y.isEmpty && y.lo.le x.lo && x.hi.le y.hi))) ∧
  (∀ ty pd a s iss g, wf (.ivemp ty pd a) = true → Runs s iss g →
    (∀ i ∈ iss.ls, (ivOf ty (readOp g i ty ty.regs a).1).isInvalid = false) →
    Reaches (exec (.ivemp ty pd a) s) (WrotePred s iss g iss.ls pd fun k =>
      (triBool (ivOf ty (readOp g k ty ty.regs a).1).isEmpty, (readOp g k ty ty.regs a).2)))) ∧
  ((∀ ty d a b c s iss g serial t, wf (.ivbis ty d a b c) = true → Runs s iss g → g.team = some serial →
    tget? serial s.teams = some t → ivLegal iss g ty [.iv a] false (fun _ => false) → s.lacksToken iss.key g = false →
    let val := fun i => readOp g i ty ty.regs a
    let full := iss.ls.filter fun i => !imgEmpty ty (val i).1
    full.length ≤ poolRoom t → t.pn + full.length < 32 →
    let s2 := full.foldl (fun s i => s.poolAppend iss.key serial (entryWords ty (val i) (read32 g i b) (read32 g i c)))
      (committed s iss g)
    Reaches (exec (.ivbis ty d a b c) s) fun t => ∃ g', t = s2.setGroup iss.key g' ∧
      (∀ i o, i < g.lanes.length → regOf g' i o 0 = regAfter g iss.ls d ty.regs
        (fun i => (if imgEmpty ty (val i).1 then ivOut ty .empty else lowerHalf ty (val i).1, (val i).2)) i o) ∧
      (∀ i k, i < g.lanes.length → (g'.lane i).pred k = (g.lane i).pred k) ∧
      SameButRegs (s2.groupNow iss.key g) { g' with touched := g.touched }) ∧
  (∀ (s : State) key serial t words, tget? serial s.teams = some t → t.pn + 1 < 32 → words.length = 4 →
    let place := localAddr serial (t.poff + 512 * t.pf + 16 * t.pn)
    let s' := s.poolAppend key serial words
    { s' with mem := s.mem, pois := s.pois, teams := s.teams } = s ∧
    tget? serial s'.teams = some { t with pn := t.pn + 1 } ∧
    (∀ k, k < 4 → s'.readNat (place + 4 * k) 4 = (words.getD k Reg.zero).bits.toNat) ∧
    ∀ a, ¬ (place ≤ a ∧ a < place + 16) → memGet s'.mem a = memGet s.mem a) ∧
  (∀ (ty : Ty) (v : Nat) (x : FVal), ty.isIv = true → (ivOf ty v).holds x →
    (ivOf ty (lowerHalf ty v)).holds x ∨ (ivOf ty (upperHalf ty v)).holds x) ∧
  (∀ s iss g, Runs s iss g → s.lacksToken iss.key g = false → g.team = none → exec .ivbfl s = .next (committed s iss g)) ∧
  (∀ s iss g serial t, Runs s iss g → s.lacksToken iss.key g = false → g.team = some serial →
    tget? serial s.teams = some t → (t.pn = 0 ∨ (t.pb = 0 ∧ s.queueRoom (t.part * 256 + t.core) = true)) →
    exec .ivbfl s = .next (committed s iss g)) ∧
  (∀ s iss g serial t, Runs s iss g → s.lacksToken iss.key g = false → g.team = some serial →
    tget? serial s.teams = some t → t.pn ≠ 0 → t.pb ≠ 0 → s.queueRoom (t.part * 256 + t.core) = true →
    exec .ivbfl s = .next ((committed s iss g).makePoolTask iss.key serial t.pn)) ∧
  (∀ (s : State) key serial g t k, s.group? key = some g → tget? serial s.teams = some t →
    let s' := s.makePoolTask key serial k
    tget? serial s'.teams = some { t with pbusy := if bit t.pbusy t.pf then t.pbusy else t.pbusy + 2 ^ t.pf,
                                          pf := (t.pf + 1) % max 1 t.pb, pn := 0, attached := t.attached + 1 } ∧
    ∃ q, (s'.coreSt (t.part * 256 + t.core)).queue = (s.coreSt (t.part * 256 + t.core)).queue ++ [q] ∧ q.kind = .pool ∧
      q.pc = t.entry ∧ q.batch = t.pf ∧ q.sub = k ∧ (q.args.getD 0 Reg.zero).bits = BitVec.ofNat 32 (t.poff + 512 * t.pf) ∧
      (q.args.getD 1 Reg.zero).bits = BitVec.ofNat 32 k))

/-- The sum, the difference, the negation, the product and the intersection of intervals, rounded outward into their
images, hold every real that the exact set operation gives (R273, R274). The hull of two intervals holds the reals of
both and every real between one and another, and where one of them is empty it holds the reals of the other (R274, R277). -/
def Obligations.IntervalsEnclose : Prop :=
  (∀ (ty : Ty) (a b : Nat) (x y : FVal), ty.isIv = true → (ivOf ty a).holds x → (ivOf ty b).holds y →
    (ivOf ty (ivOut ty (ivAdd (ivOf ty a) (ivOf ty b)))).holds (x.add .rne y) ∧
    (ivOf ty (ivOut ty (ivAdd (ivOf ty a) (ivNeg (ivOf ty b))))).holds (x.add .rne y.negate) ∧
    (ivOf ty (ivOut ty (ivNeg (ivOf ty a)))).holds x.negate ∧
    (ivOf ty (ivOut ty (ivMul (ivOf ty a) (ivOf ty b)))).holds (x.mul y) ∧
    ((ivOf ty b).holds x → (ivOf ty (ivOut ty (ivIsect (ivOf ty a) (ivOf ty b)))).holds x)) ∧
  ∀ (ty : Ty) (a b : Nat), ty.isIv = true → (ivOf ty a).isInvalid = false → (ivOf ty b).isInvalid = false →
    let hull := ivOf ty (ivOut ty (ivHull (ivOf ty a) (ivOf ty b)))
    (∀ x, (ivOf ty a).holds x → hull.holds x) ∧ (∀ y, (ivOf ty b).holds y → hull.holds y) ∧
    (∀ x y z, (ivOf ty a).holds x → (ivOf ty b).holds y → z.isFin = true →
      (x.le z = true ∧ z.le y = true) ∨ (y.le z = true ∧ z.le x = true) → hull.holds z) ∧
    ((ivOf ty a).isEmpty = true → ∀ z, hull.holds z ↔ (ivOf ty b).holds z) ∧
    ((ivOf ty b).isEmpty = true → ∀ z, hull.holds z ↔ (ivOf ty a).holds z)

/-- Every interval instruction faults 0x10 with the lanes that hold an invalid interval, or a NaN point of IVMAKE and IVPT,
before anything is written; under EIF it faults 0x11 with the lanes in which an operand or an interval result is empty,
but for IVEMP (R272, R276, R390). -/
def Obligations.IntervalFaults : Prop :=
  let set := fun (ty : Ty) (f : List Iv → Iv) (vs : List Nat) => imgEmpty ty (ivImage ty f vs)
  let a1 := fun vs : List Iv => vs.getD 0 .empty
  let a2 := fun vs : List Iv => vs.getD 1 .empty
  (∀ ty d a b, IvFaults (.ivadd ty d a b) ty [.iv a, .iv b] false true (set ty fun vs => ivAdd (a1 vs) (a2 vs))) ∧
  (∀ ty d a b, IvFaults (.ivsub ty d a b) ty [.iv a, .iv b] false true (set ty fun vs => ivAdd (a1 vs) (ivNeg (a2 vs)))) ∧
  (∀ ty d a b, IvFaults (.ivmul ty d a b) ty [.iv a, .iv b] false true (set ty fun vs => ivMul (a1 vs) (a2 vs))) ∧
  (∀ ty d a b, IvFaults (.ivdiv ty d a b) ty [.iv a, .iv b] false true (set ty fun vs => ivDiv (a1 vs) (a2 vs))) ∧
  (∀ ty d a b c, IvFaults (.ivfma ty d a b c) ty [.iv a, .iv b, .iv c] false true
    (set ty fun vs => ivAdd (ivMul (a1 vs) (a2 vs)) (vs.getD 2 .empty))) ∧
  (∀ ty d a, IvFaults (.ivsqr ty d a) ty [.iv a] false true (set ty fun vs => ivSqr (a1 vs))) ∧
  (∀ ty d a, IvFaults (.ivsqrt ty d a) ty [.iv a] false true (set ty fun vs => ivSqrt (a1 vs))) ∧
  (∀ ty d a, IvFaults (.ivrcp ty d a) ty [.iv a] false true (set ty fun vs => ivDiv ⟨.fin false 1 0, .fin false 1 0⟩ (a1 vs))) ∧
  (∀ ty d a, IvFaults (.ivexp2 ty d a) ty [.iv a] false true (set ty fun vs => ivExp2 (a1 vs))) ∧
  (∀ ty d a, IvFaults (.ivlog2 ty d a) ty [.iv a] false true (set ty fun vs => ivLog2 (a1 vs))) ∧
  (∀ ty d a, IvFaults (.ivabs ty d a) ty [.iv a] false true (set ty fun vs => ivAbs (a1 vs))) ∧
  (∀ ty d a, IvFaults (.ivneg ty d a) ty [.iv a] false true (set ty fun vs => ivNeg (a1 vs))) ∧
  (∀ ty d a b, IvFaults (.ivmin ty d a b) ty [.iv a, .iv b] false true
    (set ty fun vs => ⟨fmin2 (a1 vs).lo (a2 vs).lo, fmin2 (a1 vs).hi (a2 vs).hi⟩)) ∧
  (∀ ty d a b, IvFaults (.ivmax ty d a b) ty [.iv a, .iv b] false true
    (set ty fun vs => ⟨fmax2 (a1 vs).lo (a2 vs).lo, fmax2 (a1 vs).hi (a2 vs).hi⟩)) ∧
  (∀ ty d a b, IvFaults (.ivisect ty d a b) ty [.iv a, .iv b] false true (set ty fun vs => ivIsect (a1 vs) (a2 vs))) ∧
  (∀ ty d a b, IvFaults (.ivhull ty d a b) ty [.iv a, .iv b] false true (set ty fun vs => ivHull (a1 vs) (a2 vs))) ∧
  (∀ ty d p q, IvFaults (.ivmake ty d p q) ty [.pt p, .pt q] true true
    fun vs => imgEmpty ty (ivOut ty (ivMake (pointVal ty (vs.getD 0 0)) (pointVal ty (vs.getD 1 0))))) ∧
  (∀ ty d p, IvFaults (.ivpt ty d p) ty [.pt p] true true
    fun vs => imgEmpty ty (ivOut ty (ivMake (pointVal ty (vs.getD 0 0)) (pointVal ty (vs.getD 0 0))))) ∧
  (∀ ty d a, IvFaults (.ivlo ty d a) ty [.iv a] false true fun _ => false) ∧
  (∀ ty d a, IvFaults (.ivhi ty d a) ty [.iv a] false true fun _ => false) ∧
  (∀ ty d a, IvFaults (.ivmid ty d a) ty [.iv a] false true fun _ => false) ∧
  (∀ ty d a, IvFaults (.ivwid ty d a) ty [.iv a] false true fun _ => false) ∧
  (∀ ty rel pd a b, IvFaults (.ivcmp ty rel pd a b) ty [.iv a, .iv b] false true fun _ => false) ∧
  (∀ ty pd p b, IvFaults (.ivin ty pd p b) ty [.pt p, .iv b] false true fun _ => false) ∧
  (∀ ty pd a b, IvFaults (.ivsubs ty pd a b) ty [.iv a, .iv b] false true fun _ => false) ∧
  (∀ ty pd a, IvFaults (.ivemp ty pd a) ty [.iv a] false false fun _ => false) ∧
  (∀ ty d a b c, IvFaults (.ivbis ty d a b c) ty [.iv a] false true fun _ => false)

/-! Class 011. -/

/-- CVT, PACK and UNPK: an exact value rounded once or clamped to an integer, two values beside C's other bits, and two
elements widened exactly; with the frame (R394 to R397, R262, R263). -/
def Obligations.ConversionResults : Prop :=
  (∀ dty sty n r fl d a, Computes (.cvt dty sty n r fl d a) d dty.regs [a] (val1 sty sty.regs a fun x =>
    if dty.isInt then roundInt dty (cvtExact sty n fl x) r
    else (fpFmt dty).round (cvtExact sty n fl x) r fl.sat)) ∧
  (∀ n r fl d a b c, Computes (.pack .bf16x2 n r fl d a b c) d 1 [a, b, c] (val3 .f32 1 a .f32 1 b .n32 1 c fun x y _ =>
    Fmt.bf16.round (packExact fl.negA fl.absA x) r fl.sat + 2 ^ 16 * Fmt.bf16.round (packExact fl.negB false y) r fl.sat)) ∧
  (∀ ty n r fl d a b c, ty = .e4m3 ∨ ty = .e5m2 →
    Computes (.pack ty n r fl d a b c) d 1 [a, b, c] (val3 .f32 1 a .f32 1 b .n32 1 c fun x y z =>
      withField (withField z (16 * n) 8 ((fpFmt ty).round (packExact fl.negA fl.absA x) r fl.sat)) (16 * n + 8) 8
        ((fpFmt ty).round (packExact fl.negB false y) r fl.sat))) ∧
  (∀ n r fl d a b c, Computes (.pack .e2m1 n r fl d a b c) d 1 [a, b, c] (val3 .f32 1 a .f32 1 b .n32 1 c fun x y z =>
    withField (withField z (8 * n) 4 (e2m1Code none (packExact fl.negA fl.absA x))) (8 * n + 4) 4
      (e2m1Code none (packExact fl.negB false y)))) ∧
  (∀ ty n d a, Computes (.unpk ty n d a) d 2 [a] (val1 .n32 1 a fun x =>
    let k := if ty = .bf16x2 then 0 else 2 * n
    Fmt.f32.round ((fpFmt ty).value (elemOf ty k x)) .rne false +
      2 ^ 32 * Fmt.f32.round ((fpFmt ty).value (elemOf ty (k + 1) x)) .rne false))

/-- Rounding is correct in every format and mode: a number that does not overflow gives the code of its sign that the mode
selects among the format's real numbers; one that does gives the greatest real of its sign where the mode leads toward
zero, else infinity, or NaN in E4M3; sat gives the greatest real instead, and changes no other result; infinities and NaN
follow (R261, R262). A plain E2M1 code is the nearest of the sixteen, with ties to the code whose bit 0 is 0 and zeros of
the value's sign, and ±6 beyond (R266). Widening loses nothing: an element of BF16, E5M2, E4M3 or E2M1 has exactly the value
of its f32 pattern, and an f32 number that of its f64 pattern (R396, R262). -/
def Obligations.RoundingIsCorrect : Prop :=
  (∀ f ∈ [Fmt.f64, Fmt.f32, Fmt.bf16, Fmt.e5m2, Fmt.e4m3], ∀ (rm : Rnd) (neg : Bool),
    (∀ (m : Nat) (e : Int),
      let x := FVal.fin neg m e
      let r := f.round x rm false
      (f.overflows rm neg x → r = if rm = .rtz ∨ (rm = .rdn ∧ neg = false) ∨ (rm = .rup ∧ neg = true) then f.pack neg f.maxCode
        else if f.hasInf then f.pack neg (f.maxCode + 1) else f.qnan) ∧
      (¬ f.overflows rm neg x → realCode f r ∧ bit r f.signBit = neg) ∧
      (realCode f r → CorrectlyRounded f rm x r) ∧
      (realCode f r → f.round x rm true = r) ∧ (¬ realCode f r → f.round x rm true = f.pack neg f.maxCode)) ∧
    f.round (.inf neg) rm true = f.pack neg f.maxCode ∧
    f.round (.inf neg) rm false = (if f.hasInf then f.pack neg (f.maxCode + 1) else f.qnan) ∧
    ∀ sat, f.round .nan rm sat = f.qnan) ∧
  (∀ (neg : Bool) (m : Nat) (e : Int),
    let y := FVal.fin neg m e
    let r := e2m1Code none y
    r < 16 ∧ ∀ c, c < 16 →
      (distance y (Fmt.e2m1.value r)).le (distance y (Fmt.e2m1.value c)) = true ∧
      ((distance y (Fmt.e2m1.value c)).le (distance y (Fmt.e2m1.value r)) = true → c ≠ r →
        if (Fmt.e2m1.value c).cmp (Fmt.e2m1.value r) = some .eq then bit r 3 = neg else r % 2 = 0)) ∧
  (e2m1Code none (.inf false) = 7 ∧ e2m1Code none (.inf true) = 15) ∧
  ((∀ f ∈ [Fmt.bf16, Fmt.e5m2, Fmt.e4m3, Fmt.e2m1], ∀ c, realCode f c →
    (Fmt.f32.value (Fmt.f32.round (f.value c) .rne false)).cmp (f.value c) = some .eq) ∧
  (∀ c, realCode Fmt.f32 c → (Fmt.f64.value (Fmt.f64.round (Fmt.f32.value c) .rne false)).cmp (Fmt.f32.value c) = some .eq))

/-- QAXIS, QCLR, QGET and QSET: the axis state of one residue register, +0, the residue, and a finite value or +0; with
the frame (R293, R297). -/
def Obligations.ResidueMoves : Prop :=
  (∀ lane carry k s iss g, wf (.qaxis lane carry (.e k)) = true → Runs s iss g →
    Reaches (exec (.qaxis lane carry (.e k)) s) fun t =>
      ∃ g', t = s.setGroup iss.key g' ∧ OnlyMoved iss g g' ∧ { g' with lanes := g.lanes, axis := g.axis } = g ∧
        g'.axisLane k = lane ∧ g'.axisCarry k = carry ∧
        ∀ j, j ≠ k → g'.axisLane j = g.axisLane j ∧ g'.axisCarry j = g.axisCarry j) ∧
  (∀ d, Computes (.qclr d) d 1 [] fun _ _ _ _ => (0, false)) ∧
  (∀ d a, Computes (.qget d a) d 1 [a] (val1 .f32 1 a id)) ∧
  (∀ d a, Computes (.qset d a) d 1 [a] (val1 .f32 1 a fun x => if (Fmt.f32.value x).isFin then x else 0))

/-- QST that meets no fault: the codes of its chains and its blocks' side bytes join the store buffer, the residue
registers take the last residues of their chains, and nothing else changes (R290 to R296, R184). -/
def Obligations.QuantisingStoreCompletes : Prop :=
  ∀ k lg cache d base idx off s iss g p, wf (.qst k lg cache d base idx off) = true → Runs s iss g →
    s.part? (partOf iss.key) = some p → cleanAddrs .generic iss g base idx →
    let i0 := iss.ls.headD 0
    let a0 := laneAddr .generic g base idx off i0
    let n := 2 ^ lg
    let x := (accesses s iss.key g .generic (32 * n) .w [(i0, a0)]).headD ⟨0, a0, []⟩
    allFound [x] → qstFaults s iss.key g x = [] →
    let fmt := x.entry.elim 0 (·.fmt)
    let sh := qstShape g iss.lanes (pfmtOf fmt) fmt n k d
    let ws := qstStores p x.entries.eraseDups iss.lanes (g.axisLane k) (pfmtOf fmt) n a0 sh
    let buf := putBytes g.buf (ws.flatMap bufOf)
    (bufLines buf).length ≤ 64 →
    Reaches (exec (.qst k lg cache d base idx off) s) fun t =>
      ∃ g', t = s.setGroup iss.key g' ∧ g'.buf = buf ∧
        (∀ i o, i < g.lanes.length → regOf g' i o 0 =
          if o = .e k then
            match sh.residues.reverse.find? (·.1 == i) with
            | some (_, v) => valWord v 0
            | none => regOf g i o 0
          else regOf g i o 0) ∧
        (∀ i j, i < g.lanes.length → (g'.lane i).pred j = (g.lane i).pred j) ∧ MovedOn iss g g' ∧
        SameButRegs g { g' with buf := g.buf, touched := g.touched, progress := g.progress }

/-! Class 100. -/

/-- The loads: local store, die store, spill window, generic space and intervals (R401 to R403, R164). A sector of an
outstanding load result returns: exactly its registers and predicates are written, and with the last sector the load counter
falls and lanes that waited for it go on (R164). -/
def Obligations.LoadResults : Prop :=
  ((∀ ty sw c d base idx off, Loads (.ld ty sw c d base idx off) .generic ty (accessSize ty sw) (extendLoad ty sw)
    (sw == .full && (ty == .f32 || ty == .bf16x2)) d base idx off) ∧
  (∀ ty sw c d base idx off, Loads (.ldl ty sw c d base idx off) .localStore ty (accessSize ty sw) (extendLoad ty sw)
    (sw == .full && (ty == .f32 || ty == .bf16x2)) d base idx off) ∧
  (∀ ty sw c d base idx off, Loads (.ldd ty sw c d base idx off) .die ty (accessSize ty sw) (extendLoad ty sw)
    (sw == .full && (ty == .f32 || ty == .bf16x2)) d base idx off) ∧
  (∀ ty sw c d base idx off, Loads (.ldsp ty sw c d base idx off) .spill ty (accessSize ty sw) (extendLoad ty sw)
    (sw == .full && (ty == .f32 || ty == .bf16x2)) d base idx off) ∧
  (∀ ty c d base idx off, Loads (.ldiv ty c d base idx off) .generic ty (4 * ty.regs) id false d base idx off)) ∧
  (∀ key idx sector s g p ws, s.group? key = some g → g.pend[idx]? = some p → p.sectors[sector]? = some ws → g.live ≠ 0 →
    (p.ready ws = true → Reaches (exec (.loadResultReturn key idx sector) s) fun t =>
      ∃ g', t = (s.modGroup key (fun _ => g')).phaseCheck key ∧ (g.atPhase = false → t = s.modGroup key (fun _ => g')) ∧
        (∀ i o, i < g.lanes.length → regOf g' i o 0 = regReturned g ws i o) ∧
        (∀ i k, i < g.lanes.length → (g'.lane i).pred k = predReturned g ws i k) ∧
        (if p.sectors.length = 1 then
          g'.loads = g.loads - 1 ∧ g'.pend = g.pend.eraseIdx idx ∧
          ∀ i, i < g.lanes.length → (g'.lane i).wait =
            if (g.lane i).wait = .engine ∨ ((g.lane i).wait = .loads ∧ g.loads ≤ 1) then .none else (g.lane i).wait
        else
          g'.loads = g.loads ∧ g'.pend = g.pend.set idx { p with sectors := p.sectors.eraseIdx sector } ∧
          ∀ i, i < g.lanes.length → (g'.lane i).wait = (g.lane i).wait) ∧
        { g' with lanes := g.lanes, w := g.w, loads := g.loads, pend := g.pend, spins := g.spins, reuse := g.reuse } = g ∧
        g'.lanes.length = g.lanes.length ∧
        (∀ i, { g'.lane i with x := (g.lane i).x, p := (g.lane i).p, e := (g.lane i).e, c := (g.lane i).c, lat := (g.lane i).lat,
                               wait := (g.lane i).wait } = g.lane i) ∧
        g'.spins.map (fun e => { e with clean := false }) = g.spins.map (fun e => { e with clean := false }) ∧
        (g'.reuse = g.reuse ∨ g'.reuse = none)) ∧
    (p.ready ws = false → g.atPhase = false → Reaches (exec (.loadResultReturn key idx sector) s) fun t =>
      { t with groups := s.groups } = s ∧ ∀ k, t.group? k = s.group? k)) ∧
  ∀ key m s g d n vals, s.group? key = some g → g.atPhase = false → vals.map (·.1) = lanesOf m → vals ≠ [] → fits d n →
    Arrives key g (lanesOf m) d n (fun i => ((vals.find? (·.1 == i)).elim 0 (·.2), false)) vals.length
      (answersDue key d n vals [] s)

/-- The stores (R401 to R403, R184, R201). Of lanes that store to one byte in one instruction the highest one's byte counts;
the buffer's youngest byte of an address is the newly stored one, and bytes that combine lie in it once (R185, R201, R177). -/
def Obligations.StoreResults : Prop :=
  (∀ ty sw c d base idx off, Stores (.st ty sw c d base idx off) .generic (accessSize ty sw)
    (fun g i => readOp g i ty ty.regs d) (sw == .full && ty == .f32) base idx off) ∧
  (∀ ty sw c d base idx off, Stores (.stl ty sw c d base idx off) .localStore (accessSize ty sw)
    (fun g i => readOp g i ty ty.regs d) (sw == .full && ty == .f32) base idx off) ∧
  (∀ ty sw c d base idx off, Stores (.std ty sw c d base idx off) .die (accessSize ty sw)
    (fun g i => readOp g i ty ty.regs d) (sw == .full && ty == .f32) base idx off) ∧
  (∀ ty sw c d base idx off, Stores (.stsp ty sw c d base idx off) .spill (accessSize ty sw)
    (fun g i => readOp g i ty ty.regs d) (sw == .full && ty == .f32) base idx off) ∧
  (∀ ty c d base idx off, Stores (.stiv ty c d base idx off) .generic (4 * ty.regs)
    (fun g i => readOp g i ty ty.regs d) false base idx off) ∧
  (∀ (buf new : List BufByte) (a : Nat),
    let youngest := fun l : List BufByte => l.reverse.find? (·.addr == a)
    youngest (putBytes buf new) = (youngest new).or (youngest buf)) ∧
  (let once := fun l : List BufByte => ((l.filter (·.combines)).map (·.addr)).Nodup
   ∀ (buf new : List BufByte), once buf → once (putBytes buf new)) ∧
  (∀ (ws : List LaneStore) (b : BufByte), b ∈ storesOf ws ↔
    b ∈ ws.flatMap bufOf ∧ ∀ c ∈ ws.flatMap bufOf, c.addr = b.addr → c.lane ≤ b.lane)

/-- ATOM that meets no fault: the executing lanes' buffered stores drain, then each lane's step reads the old value and
writes the new one in lane order, and the old values wait to return (R404, R405, R186, R284). A step reads the bytes of its
place and writes what the operation gives there, if anything; a poisoned part poisons both. What the operations give: sums
modulo 2^w, the lesser and the greater number, bitwise results, an exchange, a swap only where the old value is the expected
one, the sum of each element rounded to nearest, and the hull of two intervals by their own bounds (R404, R405, R284). -/
def Obligations.AtomResults : Prop :=
  (∀ ty op scope nr d base b off s iss g p, wf (.atom ty op scope nr d base b off) = true → Runs s iss g →
    s.part? (partOf iss.key) = some p → cleanAddrs .generic iss g base .zero → g.loads < 63 →
    let n := 4 * ty.regs
    let as := fun i => laneAddr .generic g base .zero off i
    let found := fun (s : State) (g : Group) => accesses s iss.key g .generic n .a (iss.ls.map fun i => (i, as i - as i % n))
    allFound (found s g) → atomFaults s iss.key p g ty op b (found s g) = [] →
    let s1 := committed s iss g
    let g1 := s1.groupNow iss.key g
    let run := atomRun ty op nr d b (partOf iss.key) g1 s1 (found s1 g1)
    let sectors := if nr then [] else sectorsOf d ty.regs (run.2.map fun r => (r.1, r.2.1, r.2.2.1))
    let modified := (run.2.filter fun r => r.2.2.2).map (·.1)
    Reaches (exec (.atom ty op scope nr d base b off) s) fun t =>
      (∃ g', t = run.1.setGroup iss.key g' ∧ g'.loads = g.loads + 1 ∧ g'.lanes = g1.lanes ∧
        g'.pend = g.pend ++ [⟨if sectors = [] then [[]] else sectors, []⟩] ∧ g'.spins = (g1.unclean (maskOfList modified)).spins ∧
        g'.progress = (g.progress || !modified.isEmpty) ∧
        { g' with loads := g1.loads, pend := g1.pend, spins := g1.spins, progress := g1.progress } = g1) ∧
      (nr = false → g.atPhase = false → Arrives iss.key g1 iss.ls d ty.regs
        (fun i => ((run.2.find? fun r => r.1 == i).map (·.2.2.1)).getD (0, false)) sectors.length t)) ∧
  (∀ (s : State) (who : Nat) (pl : Place) (ty : Ty) (op : AtomOp) (v e : Val), pl.key = 0 → isHost pl.phys = false →
    let n := 4 * ty.regs
    let old := s.readNat pl.phys n
    let pois := s.poisonAt pl.phys n || v.2 || (op == .cas && e.2)
    let r := atomStep s who pl ty op v e
    r.2.1 = (old, pois) ∧
    match atomNew ty op old v.1 e.1 with
    | none => r.1 = s ∧ r.2.2 = false
    | some x =>
      r.2.2 = (op != .hull || x != old) ∧ { r.1 with mem := s.mem, pois := s.pois } = s ∧
      (∀ a, memGet r.1.mem a =
        if pl.phys ≤ a ∧ a < pl.phys + n then BitVec.ofNat 8 (x / 2 ^ (8 * (a - pl.phys))) else memGet s.mem a) ∧
      ∀ a, r.1.poisonAt a 1 = (s.poisonAt a 1 || (pois && (granules pl.phys n).contains (granule a)))) ∧
  (∀ (ty : Ty) (x y e : Nat), ty.isInt = true → x < 2 ^ tyWidth ty → y < 2 ^ tyWidth ty →
    let a := BitVec.ofNat (tyWidth ty) x
    let b := BitVec.ofNat (tyWidth ty) y
    atomNew ty .add x y e = some (a + b).toNat ∧
    atomNew ty .min x y e = some (if intNum ty b < intNum ty a then y else x) ∧
    atomNew ty .max x y e = some (if intNum ty a < intNum ty b then y else x) ∧
    atomNew ty .and x y e = some (a &&& b).toNat ∧
    atomNew ty .or x y e = some (a ||| b).toNat ∧
    atomNew ty .xor x y e = some (a ^^^ b).toNat ∧
    atomNew ty .xchg x y e = some y ∧
    (atomNew ty .cas x y e = if x = e then some y else none)) ∧
  (∀ (ty : Ty) (x y e : Nat), ty = .f32 ∨ ty = .f64 →
    atomNew ty .fadd x y e = some ((fpFmt ty).round (((fpFmt ty).value x).add .rne ((fpFmt ty).value y)) .rne false)) ∧
  (∀ (x y e : Nat),
    let sum := fun k => Fmt.bf16.round ((Fmt.bf16.value (x / 2 ^ (16 * k) % 2 ^ 16)).add .rne
      (Fmt.bf16.value (y / 2 ^ (16 * k) % 2 ^ 16))) .rne false
    atomNew .bf16x2 .fadd x y e = some (sum 0 + 2 ^ 16 * sum 1)) ∧
  (∀ (ty : Ty) (m v e : Nat), ty.isIv = true → m < 2 ^ tyWidth ty → v < 2 ^ tyWidth ty →
    let w := 2 ^ boundBits ty
    ((ivOf ty m).isInvalid = true → atomNew ty .hull m v e = none) ∧
    ((ivOf ty m).isEmpty = true → atomNew ty .hull m v e = some v) ∧
    ((ivOf ty m).isNonEmpty = true → (ivOf ty v).isEmpty = true → atomNew ty .hull m v e = some m) ∧
    ((ivOf ty m).isNonEmpty = true → (ivOf ty v).isNonEmpty = true → ∃ r, atomNew ty .hull m v e = some r ∧
      (r % w = m % w ∨ r % w = v % w) ∧ (r / w = m / w ∨ r / w = v / w) ∧
      (ivOf ty r).lo.le (ivOf ty m).lo = true ∧ (ivOf ty r).lo.le (ivOf ty v).lo = true ∧
      (ivOf ty m).hi.le (ivOf ty r).hi = true ∧ (ivOf ty v).hi.le (ivOf ty r).hi = true))

/-- PREF and FENCE change nothing but the PC: in one order of all accesses they order nothing more (R199, R406, R409; the
model's choice of log entry 18). BIND adds one entry for each lane that names lines, where they lie in one kind of memory
and overlap no bound line; UNBIND removes the context's entries of the named setts (R198, R408). -/
def Obligations.HintsFencesAndBindingResults : Prop :=
  ((∀ c base idx off s iss g, wf (.pref c base idx off) = true → Runs s iss g → cleanAddrs .generic iss g base idx →
    Reaches (exec (.pref c base idx off) s) (OnlyMovedOn s iss g)) ∧
  (∀ scope s iss g, Runs s iss g → Reaches (exec (.fence scope) s) (OnlyMovedOn s iss g)) ∧
  (∀ s iss g, Runs s iss g → Reaches (exec .nop s) (OnlyMovedOn s iss g)) ∧
  (∀ s iss g, Runs s iss g → Reaches (exec .yield s) fun t =>
    ∃ g', t = s.setGroup iss.key g' ∧ OnlyMoved iss g g' ∧ { g' with lanes := g.lanes, yielded := g.yielded } = g ∧
      g'.yielded = (s.normalMode (partOf iss.key) || g.yielded))) ∧
  ((∀ d base n off s iss g p refs, wf (.bind d base n off) = true → Runs s iss g → s.part? (partOf iss.key) = some p →
    namesSetts s iss g d refs → clean32 iss g n → (∀ i ∈ iss.ls, (read64 g i base).2 = false) →
    let lo := fun i =>
      let a := (BitVec.ofInt 64 ((read64 g i base).1 + off.toInt)).toNat
      a - a % 128
    let entry := fun (r : SettRef) =>
      (⟨g.pasid, (bindable (lo r.lane) (read32 g r.lane n).1).getD false, lo r.lane / 128, (read32 g r.lane n).1, r.gen⟩ : Binding)
    let named := refs.filter fun r => (read32 g r.lane n).1 != 0
    (∀ r ∈ named, (bindable (lo r.lane) (read32 g r.lane n).1).isSome = true) →
    (∀ r ∈ named, ∀ e ∈ p.bindings, e.overlaps (entry r) = false) →
    (∀ r ∈ named, ∀ q ∈ named, q.lane ≠ r.lane → (entry r).overlaps (entry q) = false) →
    p.bindings.length + named.length ≤ 8192 →
    Reaches (exec (.bind d base n off) s) fun t =>
      ∃ g', OnlyMoved iss g g' ∧ { g' with lanes := g.lanes } = g ∧
        t = (s.setGroup iss.key g').modPart (partOf iss.key) fun q => { q with bindings := q.bindings ++ named.map entry }) ∧
  (∀ d s iss g refs, wf (.unbind d) = true → Runs s iss g → namesSetts s iss g d refs →
    Reaches (exec (.unbind d) s) fun t =>
      ∃ g', OnlyMoved iss g g' ∧ { g' with lanes := g.lanes } = g ∧
        t = (s.setGroup iss.key g').modPart (partOf iss.key) fun q =>
          { q with bindings := q.bindings.filter fun b => !(b.pasid == g.pasid && refs.any (·.gen == b.bset)) }))

/-! Class 101: setts and barriers. -/

/-- What an operation does to a clean sett's words: SINIT writes all of them, SARR counts and SEXP raises the target
modulo 2^32 before the sett settles, STRY takes a free lock or reads the generation, and REL frees the holder's lock
(R221 to R225). -/
def Obligations.SettOperations : Prop :=
  ∀ (s : State) (owner a gen : Nat), s.poisonAt a 32 = false →
    let w := settWords s a
    let kind := s.settKind a
    (∀ k n, k < 4 → n < 2 ^ 32 → ¬ (k = 1 ∧ n ≠ 0) → ¬ (k = 2 ∧ n = 0) →
      ∃ t, settDo s owner a gen (.init k n) = .ok (t, false) ∧ settWords t a = (0, n, 0, k)) ∧
    (∀ n, kind = 2 → w.2.1 ≠ 0 →
      let c := (w.2.2.1 + n) % 2 ^ 32
      ∃ t, settDo s owner a gen (.arr n) = .ok (t, false) ∧
        settWords t a = ((w.1 + c / w.2.1) % 2 ^ 32, w.2.1, c % w.2.1, w.2.2.2)) ∧
    (∀ n, kind = 3 →
      let c := (w.2.2.1 + n) % 2 ^ 32
      ∃ t, settDo s owner a gen (.arr n) = .ok (t, false) ∧
        settWords t a = if w.2.1 ≠ 0 ∧ w.2.1 ≤ c then ((w.1 + 1) % 2 ^ 32, 0, c - w.2.1, w.2.2.2) else (w.1, w.2.1, c, w.2.2.2)) ∧
    (∀ n, kind = 3 →
      let e := (w.2.1 + n) % 2 ^ 32
      ∃ t, settDo s owner a gen (.exp n) = .ok (t, false) ∧
        settWords t a = if e ≠ 0 ∧ e ≤ w.2.2.1 then ((w.1 + 1) % 2 ^ 32, 0, w.2.2.1 - e, w.2.2.2) else (w.1, e, w.2.2.1, w.2.2.2)) ∧
    (∀ g, kind = 1 → bit w.2.2.2 31 = true → settDo s owner a gen (.try_ g) = .ok (s, false)) ∧
    (∀ g, kind = 1 → bit w.2.2.2 31 = false → owner < 2 ^ 15 →
      ∃ t, settDo s owner a gen (.try_ g) = .ok (t, true) ∧ settWords t a = (w.1, w.2.1, w.2.2.1, 2 ^ 31 + owner * 2 ^ 16 + 1)) ∧
    (∀ g, kind ≠ 1 → settDo s owner a gen (.try_ g) = .ok (s, w.1 != g)) ∧
    (kind = 1 → bit w.2.2.2 31 = true → w.2.2.2 / 2 ^ 16 % 2 ^ 15 = owner →
      ∃ t, settDo s owner a gen .rel = .ok (t, false) ∧ settWords t a = (w.1, w.2.1, w.2.2.1, 1)) ∧
    (kind = 1 → ¬ (bit w.2.2.2 31 = true ∧ w.2.2.2 / 2 ^ 16 % 2 ^ 15 = owner) → settDo s owner a gen .rel = .error 0x0C) ∧
    (kind ≠ 1 → settDo s owner a gen .rel = .ok (s, false)) ∧
    (∀ n, kind ≠ 3 → ¬ (kind = 2 ∧ w.2.1 ≠ 0) → settDo s owner a gen (.arr n) = .error 0x0C) ∧
    (∀ n, kind ≠ 3 → settDo s owner a gen (.exp n) = .error 0x0C)

/-- The sett instructions apply their operation to each executing lane's sett in lane order, SARR and REL after the
drain of a commit instruction, and STRY's answers wait to return like a load; no register changes yet (R224, R225, R399,
R409 to R411). -/
def Obligations.SettInstructions : Prop :=
  (∀ kind a b s iss g refs s' out, wf (.sinit kind a b) = true → Runs s iss g → clean32 iss g b →
    namesSetts s iss g a refs → settsNear s iss g refs →
    let k := match kind with | .lock => 1 | .bar => 2 | .bytes => 3
    settRun (movedOn s iss g) iss.key (refs.map fun r => (r, .init k (read32 g r.lane b).1)) = .ok (s', out) →
    Reaches (exec (.sinit kind a b) s) fun t => ∃ g', t = s'.setGroup iss.key g' ∧ OnlyMoved iss g g' ∧ { g' with lanes := g.lanes } = g) ∧
  (∀ a b s iss g refs s' out, wf (.sexp a b) = true → Runs s iss g → clean32 iss g b →
    namesSetts s iss g a refs → settsNear s iss g refs →
    settRun (movedOn s iss g) iss.key (refs.map fun r => (r, .exp (read32 g r.lane b).1)) = .ok (s', out) →
    Reaches (exec (.sexp a b) s) fun t => ∃ g', t = s'.setGroup iss.key g' ∧ OnlyMoved iss g g' ∧ { g' with lanes := g.lanes } = g) ∧
  (∀ pd a b s iss g refs s' out, wf (.stry pd a b) = true → Runs s iss g → clean32 iss g b → g.loads < 63 →
    namesSetts s iss g a refs → settsNear s iss g refs →
    settRun (movedOn s iss g) iss.key (refs.map fun r => (r, .try_ (read32 g r.lane b).1)) = .ok (s', out) →
    Reaches (exec (.stry pd a b) s) fun t => ∃ g', t = s'.setGroup iss.key g' ∧ OnlyMoved iss g g' ∧ g'.loads = g.loads + 1 ∧
      g'.pend = g.pend ++ [⟨out.map fun (i, v) => pendOf i pd 1 (triNum (triBool v), false), []⟩] ∧
      { g' with lanes := g.lanes, loads := g.loads, pend := g.pend } = g) ∧
  (∀ scope a s iss g refs, wf (.acq scope a) = true → Runs s iss g → namesSetts s iss g a refs → settsNear s iss g refs →
    (∀ r ∈ refs, s.poisonAt r.phys 32 = false) →
    Reaches (exec (.acq scope a) s) (OnlyMovedOn s iss g)) ∧
  (∀ scope a b s iss g refs x s' out, wf (.sarr scope a b) = true → Runs s iss g → clean32 iss g b →
    namesSetts s iss g a refs → settsNear s iss g refs →
    settRun (movedOn s iss g) iss.key (refs.map fun r => (r, .arr (read32 g r.lane b).1)) = .ok x →
    settRun (committed s iss g) iss.key (refs.map fun r => (r, .arr (read32 g r.lane b).1)) = .ok (s', out) →
    Reaches (exec (.sarr scope a b) s) fun t => ∃ g', s'.group? iss.key = some g' ∧ t = s'.setGroup iss.key g') ∧
  (∀ scope a s iss g refs x s' out, wf (.rel scope a) = true → Runs s iss g →
    namesSetts s iss g a refs → settsNear s iss g refs →
    settRun (movedOn s iss g) iss.key (refs.map fun r => (r, .rel)) = .ok x →
    settRun (committed s iss g) iss.key (refs.map fun r => (r, .rel)) = .ok (s', out) →
    Reaches (exec (.rel scope a) s) fun t => ∃ g', s'.group? iss.key = some g' ∧ t = s'.setGroup iss.key g')

/-- SWAIT: a lane whose sett has left the awaited generation writes T and goes on, and another waits at the instruction; its
timeout later writes F unless the generation has changed (R226). In deterministic mode the sett instructions on setts
outside the team's own local store are deferred to the boundary and the group waits (R313, R314). -/
def Obligations.SwaitResults : Prop :=
  ((∀ pd a b lim s iss g refs, wf (.swait pd a b lim) = true → Runs s iss g → clean32 iss g b → namesSetts s iss g a refs →
    settsNear s iss g refs → (∀ r ∈ refs, s.poisonAt r.phys 32 = false ∧ s.settKind r.phys ≠ 1) →
    Reaches (exec (.swait pd a b lim) s) fun t => ∃ g', t = s.setGroup iss.key g' ∧ { g' with lanes := g.lanes } = g ∧
      g'.lanes.length = g.lanes.length ∧
      ∀ i, i < g.lanes.length → g'.lane i =
        match refs.find? (·.lane == i) with
        | none => if bit iss.path i then { g.lane i with pc := iss.pc + 12 } else g.lane i
        | some r =>
          if s.settGen r.phys = (read32 g i b).1 then
            { g.lane i with pc := iss.pc, wait := .swait r.phys (read32 g i b).1 g.resident lim.toNat (predNo pd) }
          else { g.lane i with pc := if bit iss.path i then iss.pc + 12 else (g.lane i).pc, p := tput PReg.f (predNo pd) PReg.t (g.lane i).p }) ∧
  (∀ key lane s g a e since lim pd, s.group? key = some g → lane < g.lanes.length → (g.lane lane).live = true →
    (g.lane lane).wait = .swait a e since lim pd → 0 < pd → lim ≠ 0 → since + lim ≤ g.resident →
    Reaches (exec (.swaitTimeout key lane) s) fun t => ∃ g', t = s.setGroup key g' ∧
      { g' with lanes := g.lanes, spins := g.spins } = g ∧ (∀ i, i ≠ lane → g'.lane i = g.lane i) ∧
      g'.lane lane = { g.lane lane with wait := .none, pc := (g.lane lane).pc + 12,
                                        p := tput PReg.f pd ⟨triBool (s.settGen a != e && !s.poisonAt a 32), false⟩ (g.lane lane).p })) ∧
  (∀ s iss g a b refs, Runs s iss g → s.normalMode (partOf iss.key) = false → namesSetts s iss g a refs →
    clean32 iss g b → (∀ r ∈ refs, homeSett g r.phys = false) →
    (∀ kind, wf (.sinit kind a b) = true →
      let k := match kind with | .lock => 1 | .bar => 2 | .bytes => 3
      Reaches (exec (.sinit kind a b) s)
        (Deferred (movedOn s iss g) iss g (refs.map fun r => deferredOf iss g 0 r 0 k (read32 g r.lane b).1))) ∧
    (wf (.sexp a b) = true → Reaches (exec (.sexp a b) s)
      (Deferred (movedOn s iss g) iss g (refs.map fun r => deferredOf iss g 0 r 2 0 (read32 g r.lane b).1))) ∧
    (∀ scope, wf (.sarr scope a b) = true → Reaches (exec (.sarr scope a b) s)
      (Deferred (committed s iss g) iss g (refs.map fun r => deferredOf iss g 0 r 1 0 (read32 g r.lane b).1))) ∧
    (∀ scope, wf (.acq scope a) = true → Reaches (exec (.acq scope a) s)
      (Deferred (movedOn s iss g) iss g (refs.map fun r => deferredOf iss g 0 r 4 0 0))) ∧
    (∀ scope, wf (.rel scope a) = true → Reaches (exec (.rel scope a) s)
      (Deferred (committed s iss g) iss g (refs.map fun r => deferredOf iss g 0 r 5 0 0))) ∧
    (∀ pd, wf (.stry pd a b) = true → g.loads < 63 → Reaches (exec (.stry pd a b) s)
      (Deferred (movedOn s iss g) iss g (refs.map fun r => deferredOf iss g (predNo pd) r 3 0 (read32 g r.lane b).1))))

/-- BAR and CBAR drain the executing lanes' stores and leave the lanes waiting at the instruction; then the barriers that the
group takes part in are looked at again: its team's, and in normal mode its cluster's, or its own where it is no team's
(R228, R186, R141). A team's barrier completes exactly when every group of the team that has not exited has arrived, and a
cluster's when every team of it has: every waiting lane of theirs then stands at the next instruction, and nothing else
changes (R228). So the instruction completes where its lanes are the last to arrive. -/
def Obligations.BarriersWait : Prop :=
  (∀ s iss g, Runs s iss g →
    exec .bar s = .next ((atBarrier s iss g .bar).barriersOf iss.key) ∧
    exec .cbar s = .next ((atBarrier s iss g .cbar).barriersOf iss.key)) ∧
  (∀ (s : State) (key serial : Nat) (g : Group) (tm : Team), s.group? key = some g → ofTeam serial g →
    tget? serial s.teams = some tm →
    s.barriersOf key = if s.normalMode tm.part then (s.barCheck serial).cbarCheck tm else s.barCheck serial) ∧
  (∀ (s : State) (serial : Nat),
    (s.teamGroups serial ≠ [] ∧ teamArrived s serial .bar → Releases s (ofTeam serial) .bar (s.barCheck serial)) ∧
    (¬ (s.teamGroups serial ≠ [] ∧ teamArrived s serial .bar) → s.barCheck serial = s)) ∧
  (∀ (s : State) (tm : Team),
    let all := (∃ u ∈ s.clusterTeams tm, s.teamGroups u.1 ≠ []) ∧ ∀ u ∈ s.clusterTeams tm, teamArrived s u.1 .cbar
    (all → Releases s (fun h => ∃ u ∈ s.clusterTeams tm, ofTeam u.1 h) .cbar (s.cbarCheck tm)) ∧
    (¬ all → s.cbarCheck tm = s)) ∧
  (∀ s iss g serial tm, Runs s iss g → ofTeam serial g → tget? serial s.teams = some tm → (∀ i ∈ iss.ls, (g.lane i).live = true) →
    (teamArrived (atBarrier s iss g .bar) serial .bar → Reaches (exec .bar s) fun t =>
      Releases (atBarrier s iss g .bar) (ofTeam serial) .bar t ∧ wentOn iss t) ∧
    (s.normalMode tm.part = true → (∀ u ∈ s.clusterTeams tm, teamArrived (atBarrier s iss g .cbar) u.1 .cbar) →
      Reaches (exec .cbar s) fun t =>
        Releases (atBarrier s iss g .cbar) (fun h => ∃ u ∈ s.clusterTeams tm, ofTeam u.1 h) .cbar t ∧ wentOn iss t)) ∧
  (∀ s iss g, Runs s iss g → g.kind ≠ .team → g.atBkpt = false → (∀ i ∈ iss.ls, (g.lane i).live = true) →
    let meets := fun w => ∀ i, i < g.lanes.length → (g.lane i).live = true → i ∈ iss.ls ∨ (g.lane i).wait = w
    (meets .bar → Reaches (exec .bar s) (wentOn iss)) ∧
    (meets .cbar → s.normalMode (partOf iss.key) = true → Reaches (exec .cbar s) (wentOn iss)))

/-- A drain empties the group's buffer of the lanes' bytes, in requests: where they lie in plaintext memory that is no
host memory, each byte then reads as the last request that names it gives, and every other byte as before. The requests hold
exactly the buffered bytes, and where no byte was buffered twice memory holds the youngest (R184 to R186, R177). -/
def Obligations.DrainWrites : Prop :=
  ∀ (s : State) (key m : Nat) (g : Group), s.group? key = some g →
    (∀ b ∈ g.buf, bit m b.lane = true → s.rangeKey (partOf key) b.range = 0 ∧ isHost b.addr = false) →
    let out := g.buf.filter fun b => bit m b.lane
    let last := fun (bs : List BufByte) a => ((bs.reverse.find? fun b => b.addr == a).map (·.byte)).getD (memGet s.mem a)
    (∃ g', (s.drain key m).group? key = some g' ∧ g'.buf = g.buf.filter (fun b => !bit m b.lane) ∧ { g' with buf := g.buf } = g) ∧
    (∀ a, memGet (s.drain key m).mem a = last (bufRuns out).flatten a) ∧
    (bufRuns out).flatten.Perm out ∧
    ((out.map (·.addr)).Nodup → ∀ a, memGet (s.drain key m).mem a = last out a)

/-! Class 110. -/

/-- Branches: BRA and BSE to an offset, BRX to the registers' target; lanes not taken go on (R340, R357, R372, R415). -/
def Obligations.BranchResults : Prop :=
  (∀ off s iss g, Runs s iss g → Reaches (exec (.bra off) s)
    (Jumped s iss g (decide (off.toInt < 0)) iss.lanes fun i => if i ∈ iss.ls then some (branchTarget iss.pc off) else none)) ∧
  (∀ a b s iss g, wf (.brx a b) = true → Runs s iss g →
    (∀ i ∈ iss.ls, (read64 g i a).2 = false ∧ (read32 g i b).2 = false ∧ registerTarget g a b i % 4 = 0) →
    Reaches (exec (.brx a b) s) (Jumped s iss g false 0 fun i => if i ∈ iss.ls then some (registerTarget g a b i) else none)) ∧
  (∀ n k off s iss g, wf (.bse n (.s k) off) = true → Runs s iss g →
    let flags := if n = 0 then (g.sreg k).f0 else if n = 1 then (g.sreg k).f1 else (g.sreg k).f2
    Reaches (exec (.bse n (.s k) off) s) (Jumped s iss g (decide (off.toInt < 0)) (maskOf fun i => bit iss.lanes i && bit flags i) fun i =>
      if i ∈ iss.ls ∧ bit flags i = true then some (branchTarget iss.pc off) else none))

/-- CALL and CALLX push the return address and RET pops it, and each lane's next instruction must be a REGION (R149 to R151,
R154, R372). A call beyond 32 entries, a return from an empty stack, and a target that is no multiple of 4 fault with the
lanes concerned (R150, R340, R356). -/
def Obligations.CallResults : Prop :=
  ((∀ off s iss g, Runs s iss g → (∀ i ∈ iss.ls, i < g.lanes.length ∧ (g.lane i).depth < 32) →
    Reaches (exec (.call off) s) (Called s iss g fun _ => branchTarget iss.pc off)) ∧
  (∀ a b s iss g, wf (.callx a b) = true → Runs s iss g → (∀ i ∈ iss.ls, i < g.lanes.length ∧ (g.lane i).depth < 32) →
    (∀ i ∈ iss.ls, (read64 g i a).2 = false ∧ (read32 g i b).2 = false ∧ registerTarget g a b i % 4 = 0) →
    Reaches (exec (.callx a b) s) (Called s iss g (registerTarget g a b))) ∧
  (∀ s iss g, Runs s iss g → (∀ i ∈ iss.ls, i < g.lanes.length ∧ (g.lane i).stack ≠ []) →
    Reaches (exec .ret s) fun t => ∃ g', t = s.setGroup iss.key g' ∧ g'.lanes.length = g.lanes.length ∧ { g' with lanes := g.lanes } = g ∧
      ∀ i, i < g.lanes.length → g'.lane i =
        if i ∈ iss.ls then
          let l := g.lane i
          let back := l.stack.tail = [] ∧ 0 < l.spilled
          { l with pc := l.stack.headD 0, must := .afterCall,
                   stack := if back then [s.readNat (s.spillEntry iss.key i (l.spilled - 1)) 8] else l.stack.tail,
                   spilled := if back then l.spilled - 1 else l.spilled }
        else if bit iss.path i then { g.lane i with pc := iss.pc + 12 } else g.lane i)) ∧
  ((∀ off s iss g, Runs s iss g → (∀ i ∈ iss.ls, 32 ≤ (g.lane i).depth) →
    exec (.call off) s =
      .next ((movedOn s iss g).taskFault iss.key (g.stepPast iss) ⟨0x18, 0, maskOfList iss.ls, 0, 0, 0⟩ iss.pc)) ∧
  (∀ s iss g, Runs s iss g → (∀ i ∈ iss.ls, (g.lane i).depth = 0) →
    exec .ret s =
      .next ((movedOn s iss g).taskFault iss.key (g.stepPast iss) ⟨0x19, 0, maskOfList iss.ls, 0, 0, 0⟩ iss.pc)) ∧
  (∀ a b s iss g, wf (.brx a b) = true → Runs s iss g → (∃ i ∈ iss.ls, registerTarget g a b i % 4 ≠ 0) →
    Traps (.brx a b) s iss g (.plain 0x14 iss.path) ∧ Traps (.callx a b) s iss g (.plain 0x14 iss.path)))

/-- JOIN opens an instance at its PC with the mask and the timeout of the lowest executing lane, or joins the one there;
then every full instance completes (R155, R373). A JOIN instance completes when every lane of its mask has arrived or
exited: its lanes go on with T in its predicate. Until then nothing changes, and at its timeout the lanes present go on with
F (R155). -/
def Obligations.JoinResults : Prop :=
  (∀ pd a b s iss g, wf (.join pd a b) = true → Runs s iss g →
    let g1 := waitingAt iss (g.stepPast iss) .join
    let low := iss.ls.headD 0
    ((∃ j ∈ g.joins, j.pc = iss.pc) →
      exec (.join pd a b) s = .next (s.setGroup iss.key
        (Group.joinCheck { g1 with joins := g.joins.map fun j => if j.pc = iss.pc then { j with lanes := j.lanes ||| iss.lanes } else j }))) ∧
    ((∀ j ∈ g.joins, j.pc ≠ iss.pc) → (read32 g low a).2 = false → (read32 g low b).2 = false →
      exec (.join pd a b) s = .next (s.setGroup iss.key
        (Group.joinCheck { g1 with joins := g.joins ++
          [⟨iss.pc, (read32 g low a).1, g.resident, (read32 g low b).1, iss.lanes, predNo pd⟩] })))) ∧
  (let leaves := fun (g g' : Group) (j : Join) (v : Tri) =>
    g'.joins = [] ∧ { g' with lanes := g.lanes, joins := g.joins, spins := g.spins } = g ∧ ∀ i, i < g.lanes.length → g'.lane i =
      if bit j.lanes i = true ∧ (g.lane i).live = true ∧ (g.lane i).wait = .join then
        { g.lane i with wait := .none, pc := j.pc + 12, p := tput PReg.f j.pd ⟨v, false⟩ (g.lane i).p }
      else g.lane i
  let full := fun (g : Group) (j : Join) => ∀ i ∈ lanesOf j.mask, bit j.lanes i = true ∨ (g.lane i).live = false
  (∀ g j, g.joins = [j] → full g j → leaves g g.joinCheck j .T) ∧
  (∀ g j, g.joins = [j] → ¬ full g j → g.joinCheck = g) ∧
  (∀ key s g j, s.group? key = some g → g.joins = [j] → ¬ full g j → j.limit ≠ 0 → j.since + j.limit ≤ g.resident →
    Reaches (exec (.joinTimeout key j.pc) s) fun t => ∃ g', t = s.modGroup key (fun _ => g') ∧ leaves g g' j .F) ∧
  (∀ key s g j, s.group? key = some g → g.joins = [j] → ¬ full g j → (j.limit = 0 ∨ g.resident < j.since + j.limit) →
    Reaches (exec (.joinTimeout key j.pc) s) fun t => t.group? key = some g))

/-- REGION drains the executing lanes' stores and makes this their region entry, with the live-ins that the masks name;
the group's record is taken and the reuse latch released (R184 to R188, R246, R374). -/
def Obligations.RegionResults : Prop :=
  ∀ m s iss g, Runs s iss g →
    Reaches (exec (.region m) s) fun t =>
      let s1 := (movedOn s iss g).drain iss.key iss.lanes
      let g1 := s1.groupNow iss.key g
      ∃ g' r, t = s1.setGroup iss.key g' ∧ { g' with lanes := g1.lanes, reuse := g1.reuse, record := g1.record } = g1 ∧
        g'.reuse = none ∧ g'.record = some r ∧ RecordOf r g m ∧
        ∀ i, i < g.lanes.length → if i ∈ iss.ls then Entered (g1.lane i) (g'.lane i) iss.pc m else g'.lane i = g1.lane i

/-- PHASE drains the executing lanes' stores and leaves them waiting at the instruction with its masks; the group arrives
when all its lanes that have not exited wait there and its outstanding results are in: its record stands in its slot, the
registers that the masks do not carry read zero, and its phase number rises; lanes at different PHASEs, a record beyond 4096
bytes and a held extension fault instead (R147, R148). It resumes, where it may, in a new region after the PHASE with the carried registers as
its live-ins (R147, R185, R375). -/
def Obligations.PhaseResults : Prop :=
  (∀ m s iss g, Runs s iss g →
    let s1 := (movedOn s iss g).drain iss.key iss.lanes
    let g1 := s1.groupNow iss.key g
    exec (.phase m) s = .next
      ((s1.setGroup iss.key { waitingAt iss g1 .phase with phasePc := iss.pc, phaseMasks := m }).phaseCheck iss.key)) ∧
  (∀ (s : State) (key : Nat) (g : Group), s.group? key = some g →
    let meets := g.halt = .running ∧ g.live ≠ 0 ∧ g.atPhase = true ∧ ∀ p ∈ g.pend, p.owed = []
    let one := ∀ i ∈ lanesOf g.live, ∀ j ∈ lanesOf g.live, (g.lane i).pc = (g.lane j).pc
    let fails := fun code => s.phaseCheck key = s.taskFault key g ⟨code, 0, g.live, 0, 0, 0⟩ g.phasePc
    (¬ meets → s.phaseCheck key = s) ∧
    (meets → ¬ one → fails 0x1D) ∧
    (meets → one → 4096 < phaseSize g.phaseMasks → fails 0x1E) ∧
    (meets → one → phaseSize g.phaseMasks ≤ 4096 → g.holdsExt = true → fails 0x1F) ∧
    (meets → one → phaseSize g.phaseMasks ≤ 4096 → g.holdsExt = false →
      let r := g.returnAll
      ∃ g', (s.phaseCheck key).group? key = some g' ∧ g'.halt = .phase ∧ g'.phaseNo = (g.phaseNo + 1) % 2 ^ 32 ∧ g'.buf = [] ∧
        g'.loads = r.loads ∧ g'.pend = [] ∧
        memBytes (s.phaseCheck key).mem (s.phaseAddr key) (phaseSize g.phaseMasks) = phaseRecord r g.phasePc g.phaseMasks ∧
        namedOnly Reg.zero (fun k => bit g.phaseMasks.w.toNat (k / 32)) r.w g'.w ∧
        ∀ i, i < g.lanes.length → (g'.lane i).lat = Reg.zero ∧ (g'.lane i).c = [] ∧
          namedOnly Reg.zero (fun k => bit g.phaseMasks.x.toNat (k / 8)) (r.lane i).x (g'.lane i).x ∧
          namedOnly PReg.f (fun k => bit g.phaseMasks.p.toNat k) (r.lane i).p (g'.lane i).p ∧
          namedOnly Reg.zero (fun k => bit g.phaseMasks.e.toNat k) (r.lane i).e (g'.lane i).e)) ∧
  (∀ key s g, s.group? key = some g → s.phaseReady key g = true →
    Reaches (exec (.phaseResume key) s) fun t => ∃ g' r, t = s.setGroup key g' ∧ g'.halt = .running ∧
      g'.record = some r ∧ RecordOf r g g.phaseMasks ∧
      { g' with lanes := g.lanes, halt := g.halt, record := g.record, reuse := g.reuse } = g ∧
      ∀ i, i < g.lanes.length → i < 32 → if (g.lane i).live = true then
        Entered { g.lane i with wait := .none, pc := g.phasePc + 12 } (g'.lane i) (g.phasePc + 12) g.phaseMasks
        else g'.lane i = g.lane i)

/-- XACQ: the holder goes on, and another group of a team waits at the instruction with one request outstanding; XREL gives
the extension up; WAITC waits for the load counter; EXIT ends the executing lanes (R160, R164, R376, R377). A holder that
releases the extension keeps none of its registers, and the extension goes to the oldest request, whose lanes at XACQ then
go on and read the registers as the last holder left them (R160). -/
def Obligations.ExtensionAndWaitResults : Prop :=
  ((∀ s iss g, Runs s iss g → g.holdsExt = true → Reaches (exec .xacq s) (OnlyMovedOn s iss g)) ∧
  (∀ s iss g n, Runs s iss g → g.holdsExt = false → g.team = some n →
    exec .xacq s = .next ((s.setGroup iss.key (waitingAt iss (g.stepPast iss) .xacq)).modTeam n fun t =>
      if t.extQueue.contains iss.key || t.extNew.contains iss.key then t else { t with extNew := t.extNew ++ [iss.key] })) ∧
  (∀ s iss g, Runs s iss g → g.holdsExt = false → g.team = none →
    exec .xacq s = .next (s.setGroup iss.key (waitingAt iss (g.stepPast iss) .xacq))) ∧
  (∀ s iss g n, Runs s iss g → g.team = some n → exec .xrel s = .next ((movedOn s iss g).releaseExt n iss.key)) ∧
  (∀ s iss g, Runs s iss g → g.team = none → Reaches (exec .xrel s) (OnlyMovedOn s iss g)) ∧
  (∀ s iss g, Runs s iss g → g.loads = 0 → Reaches (exec .waitc s) (OnlyMovedOn s iss g)) ∧
  (∀ s iss g, Runs s iss g → g.loads ≠ 0 →
    exec .waitc s = .next (s.setGroup iss.key (waitingAt iss (g.stepPast iss) .loads)))) ∧
  (∀ (s : State) (n key next : Nat) (rest : List Nat) (t : Team) (g h : Group),
    tget? n s.teams = some t → t.extHolder = some key → t.extQueue = next :: rest → next ≠ key → s.saved = [] →
    s.group? key = some g → g.team = some n → g.lanes.length = 32 → s.group? next = some h → h.team = some n →
    h.lanes.length = 32 → (∀ i k, 64 ≤ k → tget? k (h.lane i).x = none) → (∀ i k, 256 ≤ k → tget? k (g.lane i).x = none) →
    let s' := s.releaseExt n key
    (∃ t', tget? n s'.teams = some t' ∧ t'.extHolder = some next ∧ t'.extQueue = rest) ∧
    (∃ g', s'.group? key = some g' ∧ g'.holdsExt = false ∧
      ∀ i k, i < 32 → regOf g' i (.x k) 0 = if k < 64 then regOf g i (.x k) 0 else Reg.zero) ∧
    ∃ h', s'.group? next = some h' ∧ h'.holdsExt = true ∧
      (∀ i k, i < 32 → k < 256 → regOf h' i (.x k) 0 = if k < 64 then regOf h i (.x k) 0 else regOf g i (.x k) 0) ∧
      ∀ i, i < 32 → (h'.lane i).wait = if (h.lane i).live = true ∧ (h.lane i).wait = .xacq then .none else (h.lane i).wait)

/-- EXIT drains the executing lanes' stores, and they never issue again. While other lanes of the group live, the group
stays; when its last lanes exit with nothing outstanding, it leaves the part (R377, R185). A job whose count reaches zero is
reported and its entry is free (R138). -/
def Obligations.ExitResults : Prop :=
  (∀ s iss g, Runs s iss g → g.joins = [] → (∃ i, i < 32 ∧ i < g.lanes.length ∧ i ∉ iss.ls ∧ (g.lane i).live = true ∧
      (g.lane i).wait = .none) → g.halt = .running →
    Reaches (exec .exit s) fun t => ∃ g', t.group? iss.key = some g' ∧ g'.progress = true ∧
      g'.buf = g.buf.filter (fun b => !bit iss.lanes b.lane) ∧
      ∀ i, i < g.lanes.length → g'.lane i =
        if i ∈ iss.ls then { g.lane i with live := false, wait := .none, pc := iss.pc }
        else if bit iss.path i then { g.lane i with pc := iss.pc + 12 } else g.lane i) ∧
  (∀ s iss g, Runs s iss g → g.joins = [] → (∀ i, i < 32 → (g.lane i).live = true → i ∈ iss.ls) → g.loads = 0 →
    s.busyEngine iss.key = false →
    Reaches (exec .exit s) fun t => ∀ h, (iss.key, h) ∈ t.everyGroup → h.uid ≠ g.uid) ∧
  (∀ (s : State) part id p j, s.part? part = some p → tget? id p.jobs = some j →
    (j.count ≠ 0 → s.jobCheck part id = s) ∧
    (j.count = 0 → p.replica = none → s.jobCheck part id =
      (s.modPart part fun p => { p with jobs := terase id p.jobs }).sysPost part doneStream 0x0002
        [id, j.ended, j.faulted, j.refused, j.pasid.getD 0]))

/-- SPAWN drains, and each executing lane's task goes to its target in lane order; lanes whose target has no room wait with
the group, which issues again once there is room (R378, R143, R145, R186). One lane's task: its start PC, arguments, job and
priority; where its queue has room it joins the queue's end, the job and the grid count one more, and a target that does not
exist is refused with its reason (R137, R140, R145, R317, R378). The logical id of a group's k-th task, and its mix onto a
virtual core, are functions of the creator's id and k alone (R317, R318): the low five bits are zero and bit 63 is one. -/
def Obligations.SpawnResults : Prop :=
  ((∀ queue pin d a b s iss g, wf (.spawn queue pin d a b) = true → Runs s iss g →
    (∀ i ∈ iss.ls, (read64 g i d).2 = false) → s.lacksToken iss.key g = false →
    let one := fun s i => State.spawnOne s iss.key queue pin (read64 g i d).1 (read32 g i a) ((List.range 8).map fun k => regOf g i b k)
    let r := inTurn one (committed s iss g) iss.ls
    exec (.spawn queue pin d a b) s = .next (if r.2 = [] then r.1 else r.1.modGroup iss.key fun g =>
      (g.eachLane (maskOfList r.2) fun _ l => { l with pc := iss.pc, must := .nothing }).stallAll .enqueue)) ∧
  (∀ key s g, s.group? key = some g → Reaches (exec (.enqueueResume key) s) fun t =>
    t = s.modGroup key fun _ => { g with lanes := g.lanes.map fun l => if l.wait = .enqueue then { l with wait := .none } else l })) ∧
  (∀ (s : State) (key : Nat) (g : Group) (p : Part) (pin : Bool) (pc : Nat) (h : Val) (args : List Reg),
    s.group? key = some g → s.part? (partOf key) = some p → p.det = none → h.2 = false →
    (h.1 < 16 * p.quarters.length → s.queueRoom (partOf key * 256 + h.1) = true →
      ∃ t q, s.spawnOne key false pin pc h args = some t ∧
        (t.coreSt (partOf key * 256 + h.1)).queue = (s.coreSt (partOf key * 256 + h.1)).queue ++ [q] ∧
        q.kind = .spawn ∧ q.pc = pc / 4 % 2 ^ 54 * 4 ∧ q.args = args ∧ q.job = g.job ∧ q.grid = g.grid ∧ q.pasid = g.pasid ∧
        q.pin = pin ∧ q.lid = childLid g.logicalId g.made ∧
        (t.job? (partOf key) g.job).map (·.count) = some (((s.job? (partOf key) g.job).elim 0 (·.count)) + 1)) ∧
    (16 * p.quarters.length ≤ h.1 →
      s.spawnOne key false pin pc h args = some ((s.jobMore (partOf key) g.uid g.job).refuseEnqueue key g 18 h.1))) ∧
  (∀ p k, childLid p k % 32 = 0 ∧ bit (childLid p k) 63 = true ∧ childLid p k < 2 ^ 64 ∧ mixId p < 2 ^ 32)

/-! Exceptions. -/

/-- TRAP ends the task as faulted, with a record of code 0x24; BKPT posts a record of code 0x25 and halts the group where
it stands, with its lanes past the instruction (R331 to R333). -/
def Obligations.TrapAndBreakpointResults : Prop :=
  (∀ code a s iss g, wf (.trap code a) = true → Runs s iss g →
    let v := read32 g (iss.ls.headD 0) a
    exec (.trap code a) s = .next (s.taskFault iss.key g ⟨0x24, 0, iss.lanes, code.toNat, v.1, if v.2 then 2 else 0⟩ iss.pc)) ∧
  (∀ code a s iss g, wf (.bkpt code a) = true → Runs s iss g →
    let v := read32 g (iss.ls.headD 0) a
    let pois := if v.2 then 2 else 0
    ∃ g', OnlyMoved iss g g' ∧ { g' with lanes := g.lanes, halt := g.halt } = g ∧
      g'.halt = .bkpt iss.pc iss.lanes code.toNat v.1 pois ∧
      exec (.bkpt code a) s = .next ((s.setGroup iss.key g').postDue (partOf iss.key) g.uid faultStream 0x0008
        ((movedOn s iss g).faultWords iss.key (g.stepPast iss) ⟨0x25, 0, iss.lanes, code.toNat, v.1, pois⟩ iss.pc)))

/-- A fault ends the whole task: no group of it is left on a core or evicted, its group's engine operations are abandoned,
and groups outside its team keep their registers, and their PCs unless they wait at a CBAR that its end lets complete
(R331). The words of a fault's record: code, access and
PASID; job; team, kind, slot and core; lanes; PC; detail; logical id; flags; zero (R331). -/
def Obligations.FaultEndsTheTask : Prop :=
  (∀ (s : State) (key : Nat) (g : Group) (f : FaultInfo) (pc : Nat), s.group? key = some g →
    (∀ k h, (k, h) ∈ s.everyGroup → inTask key g k h → ∀ h', (k, h') ∈ (s.taskFault key g f pc).everyGroup →
      h'.uid ≠ h.uid) ∧
    (∀ x ∈ (s.taskFault key g f pc).bulks, x.2.group ≠ key) ∧
    (∀ x ∈ (s.taskFault key g f pc).mmabs, x.2.group ≠ key) ∧
    (∀ x ∈ (s.taskFault key g f pc).colls, x.2.group ≠ key) ∧
    ∀ k h, (k, h) ∈ s.everyGroup → g.team = none ∨ h.team ≠ g.team →
      (∀ x ∈ s.taskGroups key g, ¬ (x.1 = k ∧ x.2.uid = h.uid)) →
      ∃ h', (k, h') ∈ (s.taskFault key g f pc).everyGroup ∧ h'.uid = h.uid ∧ (∀ i o, regOf h' i o 0 = regOf h i o 0) ∧
        ∀ i, (∀ n, (h'.lane i).pred n = (h.lane i).pred n) ∧ ((h'.lane i).pc = (h.lane i).pc ∨ (h.lane i).wait = .cbar)) ∧
  (∀ (s : State) (key : Nat) (g : Group) (f : FaultInfo) (pc : Nat), f.code < 256 → f.acc < 16 → g.pasid < 2 ^ 20 →
    let w := s.faultWords key g f pc
    w.length = 12 ∧ w.getD 0 0 / 2 ^ 24 = f.code ∧ w.getD 0 0 / 2 ^ 20 % 16 = f.acc ∧ w.getD 0 0 % 2 ^ 20 = g.pasid ∧
    w.getD 1 0 = g.job ∧ w.getD 3 0 = f.lanes ∧ w.getD 4 0 + 2 ^ 32 * w.getD 5 0 = pc % 2 ^ 64 ∧
    w.getD 6 0 = f.d6 ∧ w.getD 7 0 = f.d7 ∧ w.getD 8 0 + 2 ^ 32 * w.getD 9 0 = g.logicalId % 2 ^ 64 ∧
    w.getD 10 0 = f.flags ∧ w.getD 11 0 = 0 ∧
    w.getD 2 0 % 2 ^ 8 = key / 48 % 256 ∧ w.getD 2 0 / 2 ^ 8 % 2 ^ 6 = key % 48 ∧
    w.getD 2 0 / 2 ^ 14 % 4 = (match g.kind with | .spawn => 0 | .team => 1 | .pool => 2))

/-! Bulk operations, the matrix engine and collectives. -/

/-- BCOPY, BQST, MMAB and COLL drain, and issue the executing lanes' engine operations in lane order, each with its record
or block as its bytes stand, its range locks and the next serial number; a copy's or a BQST's tile is walked ahead into its
core's own TLB (R230 to R235, R247 to R249, R251, R298 to R301, R412, R54, R59, R180, R204, R186). -/
def Obligations.EngineOperationsIssue : Prop :=
  (∀ d a b, EngineIssues (.bcopyG2l d a b) [d, a, b] false
    (fun s iss g i => bcopyReq s iss g false a i (read32 g i d).1 (read32 g i a).1 (read32 g i b).1)
    (fun _ _ s r => s.bulkIssue r) bulkRoom) ∧
  (∀ d a b, EngineIssues (.bcopyL2g d a b) [d, a, b] true
    (fun s iss g i => bcopyReq s iss g true a i (read32 g i d).1 (read32 g i a).1 (read32 g i b).1)
    (fun _ _ s r => s.bulkIssue r) bulkRoom) ∧
  (∀ d a b, EngineIssues (.bqst d a b) [d, a, b] true
    (fun s iss g i => bqstReq s iss g a i (read32 g i d).1 (read32 g i a).1 (read32 g i b).1)
    (fun _ _ s r => s.bulkIssue r) bulkRoom) ∧
  (∀ a, EngineIssues (.mmab a) [a] false (fun s iss g i => mmabReq s iss g a i (read32 g i a).1)
    (fun _ _ s m => s.mmabIssue m)
    (fun s ck rs => (s.mmabsOf ck).length + rs.length ≤ 4 ∧ (tget s.locks ck []).length + rs.length ≤ 64)) ∧
  (∀ a, EngineIssues (.coll a) [a] true (fun s iss g i => collAt s iss.key g a.code i (read32 g i a).1)
    (fun iss g s x => s.collIssue iss g x.1 x.2)
    (fun s ck rs => s.collCount ck + rs.length ≤ 8 ∧ (tget s.locks ck []).length + 2 * rs.length ≤ 64)) ∧
  (∀ s iss g l2g a i off rec settv r, bcopyReq s iss g l2g a i off rec settv = .ok r →
    off % 32 = 0 ∧ rec % 64 = 0 ∧ r.lane = i ∧ r.op.group = iss.key ∧ r.op.kind = (if l2g then 1 else 0) ∧ r.op.off = off ∧
    r.op.size = r.op.tensor.imageSize ∧ off + r.op.size ≤ s.lstoreOf g ∧ r.op.suspended = none ∧
    ∃ n, g.team = some n ∧ r.op.tensor = tensorOf (memBytes s.mem (localAddr n rec) 64)) ∧
  (∀ s iss g a i off rec settv r, bqstReq s iss g a i off rec settv = .ok r →
    off % 32 = 0 ∧ rec % 64 = 0 ∧ r.lane = i ∧ r.op.group = iss.key ∧ r.op.kind = 2 ∧ r.op.off = off ∧
    r.op.size = 4 * r.op.tensor.count ∧ off + r.op.size ≤ s.lstoreOf g ∧
    r.op.tensor.resid + 4 * r.op.tensor.chains ≤ s.lstoreOf g ∧ r.op.suspended = none ∧
    ∃ n, g.team = some n ∧ r.op.tensor = tensorOf (memBytes s.mem (localAddr n rec) 64)) ∧
  (∀ (s t : State) r, s.bulkIssue r = some t →
    { t with bulks := s.bulks, locks := s.locks, serial := s.serial, tlb := s.tlb } = s ∧ t.serial = s.serial + 1 ∧
    t.tlb.filter (·.home != aheadTlb r.op.core) = s.tlb.filter (·.home != aheadTlb r.op.core) ∧
    tget? s.serial t.bulks = some r.op ∧
    tget t.locks r.op.core [] = tget s.locks r.op.core [] ++ r.locks s.serial) ∧
  (∀ s iss g a i off m, mmabReq s iss g a i off = .ok m →
    off < 2 ^ 20 ∧ off % 64 = 0 ∧ off + 64 ≤ s.lstoreOf g ∧ m.group = iss.key ∧ m.core = coreOf iss.key ∧ m.stage = 0 ∧
    m.left = none ∧ m.finished = false ∧ g.team = some m.team ∧ m.block = memBytes s.mem (localAddr m.team off) 64 ∧
    mmabOk m.block (s.lstoreOf g) = true) ∧
  (∀ (s t : State) m, s.mmabIssue m = some t →
    let b := mmabOf m.block
    { t with mmabs := s.mmabs, locks := s.locks, serial := s.serial } = s ∧ t.serial = s.serial + 1 ∧
    tget? s.serial t.mmabs = some m ∧
    tget t.locks m.core [] = tget s.locks m.core [] ++ [lockOf (localAddr m.team b.accum)
      (localAddr m.team (b.accum + b.accBytes (b.ty.getD .bf16x2) - 1)) true s.serial]) ∧
  (∀ s key g field lane v bs done, collAt s key g field lane v = .ok (bs, done) →
    collBlockOk bs = true ∧
    (v < 2 ^ 30 → v % 64 = 0 ∧ v + 64 ≤ s.lstoreOf g ∧ bs = memBytes s.mem (localAddr (g.team.getD 0) v) 64) ∧
    (2 ^ 30 ≤ v → v / 2 ^ 30 = 1 ∧ v % 64 = 0 ∧ bs = memBytes s.mem (dieAddr (dieOf (s.coreQuarter (coreOf key))) (v % 2 ^ 30)) 64)) ∧
  (∀ (s t : State) iss g bs done, s.collIssue iss g bs done = some t →
    let b := collBlock bs
    let size := b.count * collBytes b.type
    { t with colls := s.colls, locks := s.locks, serial := s.serial } = s ∧ t.serial = s.serial + 1 ∧
    tget t.locks (coreOf iss.key) [] = tget s.locks (coreOf iss.key) [] ++
      spanLock (partOf iss.key) g.pasid (some (b.src, b.src + size - 1)) false s.serial ++
      spanLock (partOf iss.key) g.pasid (some (b.dst, b.dst + size - 1)) true s.serial ∧
    ∃ c, tget? s.serial t.colls = some c ∧ c.block = bs ∧ c.done = done ∧ c.group = iss.key ∧ c.tag = b.tag ∧ c.self = b.self ∧
      c.timeoutAt = s.timer + b.timeout ∧ c.nodes = [] ∧ c.own = [] ∧ c.result = none ∧ c.suspended = none)

/-- A copy that meets no translation fault completes: a g2l copy's image is in every receiver's local store, an l2g copy's
in-bounds elements are in memory, a BQST's codes, side bytes and residues are written, and every other byte is as it was; a
BQST whose blocks do not start at multiples of 32 is abandoned with 0x08 instead (R176). The operation then leaves its core with its locks, and its bytes arrive on its setts (R231, R234, R235, R299, R300). -/
def Obligations.CopiesComplete : Prop :=
  (∀ op (s : State) b p xs, tget? op s.bulks = some b → b.suspended = none → s.normalMode b.part = true → b.kind = 0 →
    s.part? b.part = some p →
    let as := b.tensor.elems.flatMap b.tensor.elemAddrs
    let image := g2lImage s p b.tensor xs
    engTry s op b.part b.core b.pasid b.tensor.fmt .r as = .pages xs → poisonedAddr s p xs as = none →
    (∀ x ∈ image, b.off + x.1 < 2 ^ 20) →
    ∃ w : State, exec (.copyComplete op) s = .next (((w.bulkGone op b).copyArrive b).lateExit b.group) ∧
      { w with mem := s.mem, pois := s.pois, ctxs := s.ctxs } = s ∧
      (∀ r ∈ b.receivers, thas r s.teams = true → ∀ o, b.off + o < 2 ^ 20 →
        memGet w.mem (localAddr r (b.off + o)) = lastWrite image (memGet s.mem (localAddr r (b.off + o))) o) ∧
      ∀ a, (∀ r ∈ b.receivers, thas r s.teams = true → ∀ x ∈ image, a ≠ localAddr r (b.off + x.1)) →
        memGet w.mem a = memGet s.mem a) ∧
  (∀ op (s : State) b p xs, tget? op s.bulks = some b → b.suspended = none → s.normalMode b.part = true → b.kind = 1 →
    s.part? b.part = some p →
    let ws := l2gWrites s p b xs
    engTry s op b.part b.core b.pasid b.tensor.fmt .w (b.tensor.elems.flatMap b.tensor.elemAddrs) = .pages xs →
    plainPlaces (ws.map (·.place)) →
    ∃ w : State, exec (.copyComplete op) s = .next (((w.bulkGone op b).copyArrive b).lateExit b.group) ∧
      { w with mem := s.mem, pois := s.pois, ctxs := s.ctxs } = s ∧
      ∀ a, memGet w.mem a = engBytes ws (memGet s.mem a) a) ∧
  (∀ op (s : State) b p xs, tget? op s.bulks = some b → b.suspended = none → s.normalMode b.part = true → b.kind = 2 →
    s.bqstBlocked op b = false → s.part? b.part = some p →
    engTry s op b.part b.core b.pasid b.tensor.fmt .w (b.tensor.elems.flatMap b.tensor.elemAddrs) = .pages xs →
    ∀ at_, b.tensor.partBlock = some at_ → exec (.bqstComplete op) s = .next ((s.bulkGone op b).engineFault b.group b.pc
      ⟨0x08, Acc.w.bits, 0, lo32 (at_ / 2 ^ 16 * 2 ^ 16), hi32 (at_ / 2 ^ 16 * 2 ^ 16), 0⟩)) ∧
  (∀ op (s : State) b p xs, tget? op s.bulks = some b → b.suspended = none → s.normalMode b.part = true → b.kind = 2 →
    s.bqstBlocked op b = false → s.part? b.part = some p → b.tensor.partBlock = none →
    let shape := bqstShape s b
    let ws := bqstWrites p b xs shape.1 shape.2.1
    engTry s op b.part b.core b.pasid b.tensor.fmt .w (b.tensor.elems.flatMap b.tensor.elemAddrs) = .pages xs →
    plainPlaces (ws.map (·.place)) → (∀ x ∈ ws, isLocal x.place.phys = false) →
    ∃ w : State, exec (.bqstComplete op) s = .next (((w.bulkGone op b).arrive b.sett b.size).lateExit b.group) ∧
      { w with mem := s.mem, pois := s.pois, ctxs := s.ctxs } = s ∧
      (∀ a, isLocal a = false → memGet w.mem a = engBytes ws (memGet s.mem a) a) ∧
      (∀ k v, (k, v) ∈ shape.2.2 → w.readNat (localAddr b.team (b.tensor.resid + 4 * k)) 4 = v.1 % 2 ^ 32) ∧
      ∀ a, isLocal a = true → (∀ k, k < b.tensor.chains → ¬ (localAddr b.team (b.tensor.resid + 4 * k) ≤ a ∧
        a < localAddr b.team (b.tensor.resid + 4 * k) + 4)) → memGet w.mem a = memGet s.mem a) ∧
  (∀ (s : State) op b, tget? op (s.bulkGone op b).bulks = none ∧ ∀ l ∈ tget (s.bulkGone op b).locks b.core [], l.op ≠ op)

/-- MMA writes each executing lane's 32 sums of products, added chunk by chunk in increasing K, and RU keeps the lanes' A
rows. A filled stage of an MMAB begins with its stage as a source range, takes its clocks, adds its products to every
accumulator, releases the range and arrives on its empty sett; a lock as its full sett abandons it. A finished MMAB completes
its tiles as far as the checker takes them, writes its accumulators, releases its area and arrives on its done sett; the
checker posts its sample (R240 to R246, R250 to R255). -/
def Obligations.MatrixResults : Prop :=
  (∀ ty z ru d a b s iss g serial, wf (.mma ty z ru d a b) = true → Runs s iss g → g.team = some serial →
    let ck := coreOf iss.key
    let low := iss.ls.headD 0
    let off := (read32 g low b).1
    let record := memBytes s.mem (localAddr serial off) 64
    let t := tensorOf record
    let sh := mmaShape ty
    let base := t.base % 2 ^ 20
    let bOffs := fun n => (List.range sh.k).flatMap fun k => (mmaBOffs ty t base k n).elim [] (·.1)
    (read32 g low b).2 = false → off < 2 ^ 20 → off % 64 = 0 → off + 64 ≤ s.lstoreOf g →
    s.poisonAt (localAddr serial off) 64 = false → mmaRecordOk ty record (vcoreOf ck) (s.lstoreOf g) = true →
    (∀ n, n < 32 → ∀ o ∈ bOffs n, s.locked ck (localAddr serial o) 1 false = false) →
    (ty = .f64 ∨ s.sampled ck (s.tilesOf ck + 1) = false ∨ s.checkerBusy ck = false) →
    let nr := accRegs ty
    let x := decide (t.fmt = 4)
    let regs := fun i => (List.range sh.aRegs).map (regOf g i a)
    let row := fun i => (List.range sh.k).map (mmaA ty x (regs i))
    let col := fun n => (List.range sh.k).map fun k => mmaB s serial ty x t base k n
    let old := fun i n => if z then (0, false) else joinRegs ((List.range nr).map fun q => regOf g i d (nr * n + q))
    let sum := fun i n => (dotAdd ty (old i n).1 (List.zip (row i) (col n)),
      (old i n).2 || mmaAPois ty (regs i) || (bOffs n).any fun o => s.poisonAt (localAddr serial o) 1)
    Reaches (exec (.mma ty z ru d a b) s) fun t =>
      { t with groups := s.groups, ctxs := s.ctxs, parts := s.parts, samples := s.samples, free := s.free } = s ∧
      (∀ k, k ≠ iss.key → t.group? k = s.group? k) ∧ ∃ g', t.group? iss.key = some g' ∧
        (∀ i o, i < g.lanes.length → regOf g' i o 0 =
          match destIndex d (32 * nr) o with
          | some j => if i ∈ iss.ls then valWord (sum i (j / nr)) (j % nr) else regOf g i o 0
          | none => regOf g i o 0) ∧
        (∀ i k, i < g.lanes.length → (g'.lane i).pred k = (g.lane i).pred k) ∧ MovedOn iss g g' ∧
        g'.reuse = (if ru then some (a.code, iss.ls.map fun i => (i, regs i)) else none) ∧
        SameButRegs g { g' with reuse := g.reuse, touched := g.touched }) ∧
  (∀ core (s : State) op m rest ty, s.normalMode (partOfCore core) = true → s.mmabsOf core = (op, m) :: rest →
    let b := mmabOf m.block
    let base := b.stage + m.stage % b.nstage * b.stride
    b.ty = some ty → m.finished = false →
    (∀ n, m.left = some (n + 1) → exec (.mmabStage core) s = .next s) ∧
    (m.left = none → s.stageMisused m = true →
      let sett := localGeneric (vcoreOf m.core) (b.full + 32 * (m.stage % b.nstage))
      exec (.mmabStage core) s = .next ((s.mmabGone op m).engineFault m.group m.pc ⟨0x0C, 0, 0, lo32 sett, hi32 sett, 0⟩)) ∧
    (m.left = none → s.stageMisused m = false → s.stageReady m = true → (tget s.locks core []).length < 64 →
      Reaches (exec (.mmabStage core) s) fun t => { t with mmabs := s.mmabs, locks := s.locks } = s ∧
        t.mmabs = tset op { m with left := some ((2 * b.m * b.n * b.kc + (mmaShape ty).rate - 1) / (mmaShape ty).rate) } s.mmabs ∧
        tget t.locks core [] = tget s.locks core [] ++
          [lockOf (localAddr m.team base) (localAddr m.team (base + b.stageBytes ty - 1)) false op]) ∧
    (m.left = none → s.stageMisused m = false → s.stageReady m = false → exec (.mmabStage core) s = .next s)) ∧
  (∀ core (s : State) op m rest ty, s.normalMode (partOfCore core) = true → s.mmabsOf core = (op, m) :: rest →
    let b := mmabOf m.block
    let count := b.m * b.n
    b.ty = some ty → m.finished = false → m.left = some 0 →
    (m.stage ≠ 0 → m.acc.length = count ∧ m.pois.length = count ∧ m.chk.length = count) →
    let base := b.stage + m.stage % b.nstage * b.stride
    let row := fun i => (List.range b.kc).map (stageElem s m.team ty b.x base i b.m b.kc)
    let col := fun n => (List.range b.kc).map (stageElem s m.team ty b.x (base + b.bOff ty) n b.n b.kc)
    let size := 4 * accRegs ty
    let old := fun e => if m.stage = 0 then (if b.zero then 0 else s.readNat (localAddr m.team (b.accum + e * size)) size)
      else m.acc.getD e 0
    ∃ (w : State) (m' : MmabOp), exec (.mmabStage core) s =
        .next (w.arrive (localAddr m.team (b.empty + 32 * (m.stage % b.nstage))) (b.stageBytes ty)) ∧
      { w with mmabs := s.mmabs, ctxs := s.ctxs, locks := s.locks } = s ∧ w.mmabs = tset op m' s.mmabs ∧
      tget w.locks core [] = (tget s.locks core []).filter (fun l => l.op != op || l.dst) ∧ m'.stage = m.stage + 1 ∧
      m'.left = none ∧ m'.finished = (m.stage + 1 == b.k / b.kc) ∧ m'.acc.length = count ∧
      ∀ i n, i < b.m → n < b.n → m'.acc.getD (i * b.n + n) 0 = dotAdd ty (old (i * b.n + n)) (List.zip (row i) (col n))) ∧
  (∀ core (s : State) op m rest ty, s.normalMode (partOfCore core) = true → s.mmabsOf core = (op, m) :: rest →
    let b := mmabOf m.block
    let size := 4 * accRegs ty
    let tiles := if ty = .f64 then 0 else b.m / 32 * (b.n / 32)
    b.ty = some ty → m.finished = true → m.tile ≤ tiles →
    let r := s.mmabTiles m b ty (tiles - m.tile) m.tile
    ({ r.1 with parts := s.parts, samples := s.samples, free := s.free } = s ∧ m.tile ≤ r.2 ∧ r.2 ≤ tiles ∧
      (s.checkerBusy core = false → m.tile < tiles → m.tile < r.2)) ∧
    (r.2 < tiles → exec (.mmabDone core) s = .next { r.1 with mmabs := tset op { m with tile := r.2 } s.mmabs }) ∧
    (r.2 = tiles → m.pois.length = m.acc.length →
      ∃ w : State, exec (.mmabDone core) s =
          .next (((w.mmabGone op m).arrive (localAddr m.team b.done) (b.accBytes ty)).lateExit m.group) ∧
        { w with mem := s.mem, pois := s.pois, ctxs := s.ctxs } = r.1 ∧
        (∀ e, e < m.acc.length → w.readNat (localAddr m.team (b.accum + e * size)) size = m.acc.getD e 0 % 2 ^ (8 * size)) ∧
        ∀ a, ¬ (localAddr m.team b.accum ≤ a ∧ a < localAddr m.team b.accum + m.acc.length * size) →
          memGet w.mem a = memGet s.mem a)) ∧
  (∀ core (s : State) x, s.samples.find? (·.1 == core) = some x →
    exec (.sampledTileCheck core) s = .next (State.wakeEngine
      (({ s with samples := s.samples.erase x } : State).sysPost (partOfCore core) teleStream 0x001A x.2) core)) ∧
  (∀ core (s : State), s.samples.find? (·.1 == core) = none → exec (.sampledTileCheck core) s = .next s)

/-- A child's partial result and its digests enter a node's engine, and a digest alone; a digest unlike the root's own
abandons the collective. A leaf's result is written and the leaf completes: it leaves its core and arrives on its sett; a
result passes to the children on the package. A timeout abandons a collective that has no result yet (R56 to R59, R412). -/
def Obligations.CollectivesComplete : Prop :=
  let gone := fun (w : State) op (c : CollOp) => (State.arrive
    (((({ w with colls := terase op w.colls } : State).unlock c.core op).dropReturned (.engine op)).wakeEngine c.core)
    c.done ((collBlock c.block).count * collBytes (collBlock c.block).type)).lateExit c.group
  (∀ op child vals ds (s : State) c, tget? op s.colls = some c →
    (c.result.isSome = true ∨ (collBlock c.block).type = 6 ∨
      ∀ v ∈ vals, collNan (collBlock c.block).type (v % 2 ^ 128) = false) →
    exec (.collPartialArrival op child vals ds) s = .next ((s.modColl op fun c => c.take child vals ds).collRun op)) ∧
  (∀ (c : CollOp) child vals ds, vals ≠ [] → (tget (c.take child vals ds).partials child [] = vals) ∧
    ∀ k, k ≠ child → tget (c.take child vals ds).partials k [] = tget c.partials k []) ∧
  (∀ op shard digest (s : State), exec (.collDigestArrival op shard digest) s =
    .next ((s.modColl op fun c => c.take shard [] [(shard, digest)]).collRun op)) ∧
  (∀ op shard digest own (s : State) c, tget? op s.colls = some c → c.node.parent = 0xFFFF → c.result = none →
    c.own ≠ [] → c.nodes ≠ [] → c.suspended = none → c.digests.head? = some own → (∀ x ∈ c.digests, x.1 ≠ shard) →
    digest ≠ own.2 →
    exec (.collDigestArrival op shard digest) s =
      .next ((s.modColl op fun c => c.take shard [] [(shard, digest)]).collKill c.part c.tag 2)) ∧
  (∀ op vals (s : State) c, tget? op s.colls = some c → c.result = none → c.nodes ≠ [] → c.suspended = none →
    s.normalMode c.part = true → c.node.kids = [] → (collBlock c.block).kind = 0 → c.node.parent ≠ 0xFFFF →
    exec (.collComplete op vals) s = .next (gone s op c)) ∧
  (∀ op vals (s : State) c p xs, tget? op s.colls = some c → c.result = none → c.nodes ≠ [] → c.suspended = none →
    s.normalMode c.part = true → c.node.kids = [] → (collBlock c.block).kind ≠ 0 → s.part? c.part = some p →
    let b := collBlock c.block
    let n := collBytes b.type
    engTry s op c.part c.core c.pasid 0 .w ((List.range (n * b.count)).map (b.dst + ·)) = .pages xs →
    let places := fun k q => (engPlaces p xs (b.dst + n * k + q)).take 1
    let ws := (List.range b.count).flatMap fun k =>
      (leBytes n (vals.getD k 0)).zipIdx.flatMap fun x => (places k x.2).map fun pl => (pl, x.1)
    plainPlaces (ws.map (·.1)) →
    ∃ w : State, exec (.collComplete op vals) s = .next (gone w op c) ∧
      { w with mem := s.mem, pois := s.pois, ctxs := s.ctxs, colls := s.colls } = s ∧
      ∀ a, memGet w.mem a = lastWrite (ws.map fun x => (x.1.phys, x.2)) (memGet s.mem a) a) ∧
  (∀ (s : State) op c vals n k m d, k ∈ c.node.kids → s.shardHere c k = true → s.shardOp c k = some m →
    tget? m s.colls = some d → d.result = none →
    (tget? m (s.toKids op c vals (n + 1)).colls).map (·.result) = some (some vals)) ∧
  (∀ op (s : State) c, tget? op s.colls = some c → c.result = none → c.timeoutAt ≤ s.timer →
    exec (.collTimeout op) s = .next (s.collKill c.part c.tag 4)) ∧
  (∀ op (s : State) c, tget? op s.colls = some c → (c.result.isSome = true ∨ s.timer < c.timeoutAt) →
    exec (.collTimeout op) s = .next s) ∧
  (∀ (s : State) op reason, tget? op (s.collAbandon op reason).colls = none)

/-! Class 111: events, automata and system operations. -/

/-- EVPOST posts one event of each executing lane in lane order, and its statuses return to D; EVLD reads events whole into
16 registers; EVREL raises a held stream's released count; WMARK raises a watermark (R63, R64, R89, R94, R417 to R420). -/
def Obligations.EventInstructions : Prop :=
  (∀ d a b, Answers (.evpost d a b) d 1
    (fun s iss g => clean32 iss g a ∧ clean32 iss g b ∧ namesBlocks s g iss.ls a 64 64 16)
    (fun iss g s i => evpostOne iss.key g (blockPlace g a i) (read32 g i b).1 s) usedUp) ∧
  (∀ key g at_ sid (s : State), s.stream? (partOf key) sid = none →
    evpostOne key g at_ sid s = .ok (s, refusedWith 8)) ∧
  (∀ key g at_ sid (s : State) st, s.stream? (partOf key) sid = some st → bits (fieldOf (memBytes s.mem at_ 64) 8 8) 62 2 = 0 →
    fieldOf (memBytes s.mem at_ 64) 8 8 % 2 ^ 62 = 0 → (∀ k, k < 12 → s.poisonAt (at_ + 16 + 4 * k) 4 = false) →
    let bs := memBytes s.mem at_ 64
    let p : Post := ⟨0, fieldOf bs 0 6, fieldOf bs 6 2, (List.range 12).map fun k => fieldOf bs (16 + 4 * k) 4, true, false,
      g.pasid, s.coreSecure (coreOf key), .group key⟩
    evpostOne key g at_ sid s = match s.postActs (partOf key) sid p with
      | .ok r => .ok (r.1, 0)
      | .error (.refused r) => .ok (s, refusedWith r)
      | .error (.ring _ _) => .ok (s, refusedWith 9)
      | .error (.waits e) => .error e) ∧
  (∀ (s : State) part sid p st, s.stream? part sid = some st → p.op ≠ 2 → (∃ t, st.last = some t ∧ p.time < t) →
    s.post part sid p = .error (.refused 7)) ∧
  (∀ (s t : State) part sid p st q, s.stream? part sid = some st → s.post part sid p = .ok (t, some q) →
    let start := p.cls = 0x0001 ∧ sid = part * 16 + ctlStream
    let words := if start then p.payload.set 11 p.pasid else p.payload
    q = st.tail ∧ (∃ st', t.stream? part sid = some st' ∧ st'.tail = st.tail + 1 ∧ st'.last = some p.time) ∧
    ∃ pl, s.ringPlace p.waiter part p.secure p.pasid (st.entry st.tail) .w = .ok pl ∧
      t.mem = (s.writeNow (some p.pasid) pl.key pl.phys
        (eventBytes p.cls p.time (evFlags p.pois false p.dev) sid q words) false).mem) ∧
  (∀ (s : State) who phys bs p, isHost phys = false → (∀ l ∈ s.links, l.writes = []) →
    memBytes (s.writeNow who 0 phys bs p).mem phys bs.length = bs) ∧
  (∀ (cls time flags sid seq : Nat) payload,
    (eventBytes cls time flags sid seq payload).length = 64 ∧
    fieldOf (eventBytes cls time flags sid seq payload) 0 6 = time % 2 ^ 48 ∧
    fieldOf (eventBytes cls time flags sid seq payload) 6 2 = cls % 2 ^ 16 ∧
    fieldOf (eventBytes cls time flags sid seq payload) 8 6 = seq % 2 ^ 48) ∧
  (∀ d a s iss g (at_ : Nat → Nat), wf (.evld d a) = true → Runs s iss g → g.atPhase = false → clean64 iss g a →
    (∀ i ∈ iss.ls, ∃ sid st q, s.handle? (partOf iss.key) (read64 g i a).1 = some (sid, st, q) ∧ st.low ≤ q ∧ q < st.tail ∧
      at_ i = st.entry q) →
    let xs := accesses s iss.key g .generic 64 .r (iss.ls.map fun i => (i, at_ i))
    allFound xs → loadFormat false xs = [] → lockFaults s iss.key g false xs = [] →
    hostNeeds s iss.key (xs.flatMap fun x => x.places.map (·.1)) = [] → g.loads < 63 →
    let value := fun x : LaneAccess => readPlaces s iss.key { g with buf := [] } x.places
    let sectors := sectorsOf d 16 (xs.map fun x => (x.lane, x.gen, value x))
    Reaches (exec (.evld d a) s) fun t => SameButGroup s t iss.key ∧
      (∃ g', t.group? iss.key = some g' ∧ OnlyMoved iss g g' ∧ g'.loads = g.loads + 1 ∧
        g'.pend = g.pend ++ [⟨sectors, []⟩] ∧ { g' with lanes := g.lanes, loads := g.loads, pend := g.pend } = g) ∧
      Arrives iss.key (g.stepPast iss) iss.ls d 16 (ofLane xs value) sectors.length t) ∧
  (∀ d a s iss g, wf (.evld d a) = true → Runs s iss g → clean64 iss g a → iss.ls ≠ [] →
    (∀ i ∈ iss.ls, ∀ sid st q, s.handle? (partOf iss.key) (read64 g i a).1 = some (sid, st, q) → q < st.low ∨ st.tail ≤ q) →
    Traps (.evld d a) s iss g (.at_ 0x20 0 iss.lanes (read64 g (iss.ls.headD 0) a).1)) ∧
  (∀ a s iss g, wf (.evrel a) = true → Runs s iss g → clean64 iss g a → s.lacksToken iss.key g = false →
    exec (.evrel a) s =
      .next (iss.ls.foldl (fun s i => evrelOne (partOf iss.key) (read64 g i a).1 s) (committed s iss g))) ∧
  (∀ part h (s : State) sid st q, s.handle? part h = some (sid, st, q) →
    (st.hold = true → ∃ st', (evrelOne part h s).stream? part sid = some st' ∧ st'.tail = st.tail ∧
      st'.released = max st.released (min (q + 1) st.tail)) ∧
    (st.hold = false → evrelOne part h s = s)) ∧
  (∀ a b s iss g, wf (.wmark a b) = true → Runs s iss g → clean32 iss g b → s.lacksToken iss.key g = false →
    exec (.wmark a b) s = .next
      (iss.ls.foldl (fun s i => wmarkOne (partOf iss.key) (read64 g i a).1 (read32 g i b).1 s) (committed s iss g))) ∧
  (∀ part time sid (s : State) st, s.stream? part sid = some st →
    if st.timed = true ∨ st.nodev = true ∨ (part * 16 ≤ sid ∧ sid ≤ part * 16 + 4) then wmarkOne part time sid s = s
    else (wmarkOne part time sid s).stream? part sid =
      some { st with wm := some (max (st.wm.getD 0) (time % 2 ^ 48)) })

/-- SYSRD's and RAND's values return like loads; CCNT, PSNT and PSNT.clr write at once, and no latch; TOKWAIT completes
for the holder of the token, and TOKPASS begins its pass; SBIND and SFREE set one stream register (R322 to R326, R399, R414,
R424, R426, R427). -/
def Obligations.SystemRegisterResults : Prop :=
  (∀ d a s iss g, wf (.sysrd d a) = true → Runs s iss g → clean32 iss g a → g.loads < 63 →
    exec (.sysrd d a) s = .next (answersDue iss.key d 1
      (iss.ls.map fun i => (i, sysReg s iss.key g i (read32 g i a).1)) [] (movedOn s iss g))) ∧
  (∀ (s : State) key g i, sysReg s key g i 0x0005 = (if g.kind = .team then g.gidx else 0) ∧
    sysReg s key g i 0x0006 = g.logicalId % 2 ^ 32 ∧ sysReg s key g i 0x0007 = g.logicalId / 2 ^ 32 % 2 ^ 32) ∧
  (∀ ty d s iss g, wf (.ccnt ty d) = true → Runs s iss g →
    let n := (if s.normalMode (partOf iss.key) then g.resident else g.issued) % 2 ^ (32 * ty.regs)
    Reaches (exec (.ccnt ty d) s)
      (Changed s iss g (regOnlyAfter g iss.ls d ty.regs fun _ => (n, false)) fun i k => (g.lane i).pred k)) ∧
  (∀ ty d s iss g, wf (.rand ty d) = true → Runs s iss g → g.loads < 63 →
    let seed := (s.part? (partOf iss.key)).elim 0 (·.seed)
    let draw := fun i => randValue ty (randBlock (randKey seed g.job ((g.logicalId + i) % 2 ^ 64)) (g.lane i).draws)
    let drawn := (g.stepPast iss).eachLane iss.lanes fun _ l => { l with draws := (l.draws + 1) % 2 ^ 64 }
    exec (.rand ty d) s =
      .next (answersDue iss.key d ty.regs (iss.ls.map fun i => (i, draw i)) [] (s.setGroup iss.key drawn))) ∧
  (∀ s iss g, Runs s iss g → g.loads < 63 → s.lacksToken iss.key g = false →
    Reaches (exec .tokwait s) (OnlyMovedOn s iss g)) ∧
  (∀ s iss g, Runs s iss g → g.loads < 63 → s.lacksToken iss.key g = true →
    Reaches (exec .tokwait s) fun t => ∃ g', t = s.setGroup iss.key g' ∧ OnlyMoved iss g g' ∧
      { g' with lanes := g.lanes, loads := g.loads, tokwaits := g.tokwaits } = g ∧ g'.loads = g.loads + 1 ∧
      g'.tokwaits = g.tokwaits + 1) ∧
  (∀ s iss g, Runs s iss g → s.lacksToken iss.key g = false →
    exec .tokpass s = .next ((committed s iss g).modDet (partOf iss.key) fun d =>
      if d.holder = some g.uid then { d with passing := true } else d)) ∧
  (∀ ty pd a s iss g, wf (.psnt ty pd a) = true → Runs s iss g →
    Reaches (exec (.psnt ty pd a) s) (Changed s iss g (fun i o => regOf g i o 0)
      (predAfter g iss.ls pd fun i => (triBool (readOp g i ty ty.regs a).2, false)))) ∧
  (∀ ty d a s iss g, wf (.psntClr ty d a) = true → Runs s iss g →
    Reaches (exec (.psntClr ty d a) s)
      (Changed s iss g (regOnlyAfter g iss.ls d ty.regs fun i => ((readOp g i ty ty.regs a).1, false))
        fun i k => (g.lane i).pred k)) ∧
  (∀ k a s iss g n, wf (.sbind (.s k) a) = true → Runs s iss g → g.team = some n →
    let off := (read32 g (iss.ls.headD 0) a).1
    let pattern := memBytes s.mem (localAddr n off) 32
    (read32 g (iss.ls.headD 0) a).2 = false → off % 32 = 0 → off + 32 ≤ s.lstoreOf g →
    s.poisonAt (localAddr n off) 32 = false → patternOk pattern = true →
    Reaches (exec (.sbind (.s k) a) s) fun t => ∃ g', t = s.setGroup iss.key g' ∧ OnlyMoved iss g g' ∧
      { g' with lanes := g.lanes, sregs := g.sregs } = g ∧
      g'.sregs = lmod k (fun _ => patternOf off pattern) g.sregs) ∧
  (∀ k s iss g, wf (.sfree (.s k)) = true → Runs s iss g →
    Reaches (exec (.sfree (.s k)) s) fun t => ∃ g', t = s.setGroup iss.key g' ∧ OnlyMoved iss g g' ∧
      { g' with lanes := g.lanes, sregs := g.sregs } = g ∧ g'.sregs = lmod k (fun _ => SReg.free) g.sregs)

/-- AUTLD and AUTCTL act on each executing lane's automaton or stream in lane order, and their statuses return to D: an
installation, a stop, a removal, a resumption, a count, a checkpoint, and the opening and closing of a stream. Operations on
one automaton act in the order of their issue; one whose automaton has outputs in the engine's queue answers later (R92,
R124, R421 to R423). -/
def Obligations.AutomatonInstructions : Prop :=
  let named := fun (s : State) part pasid v q k a => s.named part pasid v = .ok (q, k, a)
  let issued := fun (a : Opnd) (act : Group → Nat → AutAct) (iss : Issue) (g : Group) (s : State) (i : Nat) =>
    autIssue (.group iss.key)
      ⟨0, act g i, (read32 g i a).1, partOf iss.key, g.pasid, s.coreSecure (coreOf iss.key)⟩ s
  (∀ d a, Answers (.autld d a) d 1 (fun s iss g => clean32 iss g a ∧ namesBlocks s g iss.ls a 64 64 64)
    (fun iss g s i => autldOne (.group iss.key) (partOf iss.key) (s.coreSecure (coreOf iss.key)) g.pasid
      (memBytes s.mem (blockPlace g a i) 64) s) usedUp) ∧
  (∀ d a, Answers (.autctlOpen d a) d 1 (fun s iss g => clean32 iss g a ∧ namesBlocks s g iss.ls a 32 32 32)
    (fun iss g s i => .ok (autOpen (partOf iss.key) g.pasid (memBytes s.mem (blockPlace g a i) 32) s)) fun _ s => s) ∧
  (∀ d a, Answers (.autctlClose d a) d 1 (fun _ iss g => clean32 iss g a)
    (fun iss g s i => .ok (autClose (partOf iss.key) (read32 g i a).1 s)) fun _ s => s) ∧
  (∀ d a, AnswersLater (.autctlStop d a) d 1 (fun _ iss g => clean32 iss g a) (issued a fun _ _ => .stop) fun _ _ s => s) ∧
  (∀ d a, AnswersLater (.autctlRemove d a) d 1 (fun _ iss g => clean32 iss g a) (issued a fun _ _ => .remove) fun _ _ s => s) ∧
  (∀ d a, AnswersLater (.autctlResume d a) d 1 (fun _ iss g => clean32 iss g a) (issued a fun _ _ => .resume) fun _ _ s => s) ∧
  (∀ d a, AnswersLater (.autctlCount d a) d 4 (fun _ iss g => clean32 iss g a) (issued a fun _ _ => .count) fun _ _ s => s) ∧
  (∀ d a b, AnswersLater (.autctlCkpt d a b) d 1 (fun _ iss g => clean32 iss g a ∧ clean64 iss g b)
    (issued a fun g i => .ckpt (read64 g i b).1) fun _ _ s => s) ∧
  (∀ w (o : AutOp) (s : State), (∃ x ∈ (s.engine o.quarter).ops, x.slot = o.slot) →
    (∃ r, s.named o.part o.pasid o.value = .ok r) →
    ∃ t, autIssue w o s = .ok (t, none) ∧ { t with engines := s.engines, serial := s.serial } = s ∧ t.serial = s.serial + 1 ∧
      t.engine o.quarter = { s.engine o.quarter with ops := (s.engine o.quarter).ops ++ [{ o with serial := s.serial }] }) ∧
  (∀ w (o : AutOp) (s t : State) v, (∀ x ∈ (s.engine o.quarter).ops, x.slot ≠ o.slot) →
    autTry w o s = .ok (t, some v) → autIssue w o s = .ok (t, some v)) ∧
  (∀ w n part pasid v secure at_ (s : State),
    let op := fun act => autTry w ⟨n, act, v, part, pasid, secure⟩ s
    op .stop = .ok (autStop false part pasid v s) ∧ op .remove = .ok (autStop true part pasid v s) ∧
    op .resume = .ok ((autResume part pasid v s).1, some (autResume part pasid v s).2) ∧
    op .count = .ok ((autCount part pasid v s).1, some (autCount part pasid v s).2) ∧
    ∀ t r, autCkpt w part secure pasid v at_ s = .ok (t, r) → op (.ckpt at_) = .ok (t, some r)) ∧
  (∀ (s : State) part pasid v q k a, named s part pasid v q k a → a.stopped = true → s.hasOutputs q k = true →
    autStop false part pasid v s = (s, none) ∧ autStop true part pasid v s = (s, none)) ∧
  (∀ (s : State) part pasid v q k a, named s part pasid v q k a → s.hasOutputs q k = false →
    (a.stopped = true → autStop false part pasid v s = (s, some 0)) ∧
    (a.stopped = false → (autStop false part pasid v s).2 = some 0 ∧
      ∃ a', (autStop false part pasid v s).1.automaton? q k = some a' ∧ a'.stopped = true ∧ a'.cause = 0 ∧ a'.cands = a.cands) ∧
    (autStop true part pasid v s).2 = some 0 ∧ (autStop true part pasid v s).1.automaton? q k = none) ∧
  (∀ (s : State) part pasid v q k a, named s part pasid v q k a →
    (a.stopped = false → autResume part pasid v s = (s, 0)) ∧
    (a.stopped = true → a.evictedSeg = false → (∀ sid ∈ a.table.watch, (s.stream? part sid).isSome = true) →
      let a' := { a with stopped := false, cause := 0, ctxStop := false }
      (s.setAutomaton q k a').nextEvent part a' = none → autResume part pasid v s = (s.setAutomaton q k a', 0)) ∧
    autCount part pasid v s = (s, a.refused + a.evicted * 2 ^ 32 + a.xrefused * 2 ^ 64 + a.cands.length * 2 ^ 96)) ∧
  (∀ (s : State) part pasid v r, s.named part pasid v = .error r →
    autStop false part pasid v s = (s, some (refusedWith r)) ∧ autStop true part pasid v s = (s, some (refusedWith r)) ∧
    autResume part pasid v s = (s, refusedWith r) ∧ autCount part pasid v s = (s, refusedWith r) ∧
    ∀ w secure a, autCkpt w part secure pasid v a s = .ok (s, refusedWith r)) ∧
  (∀ (s t : State) w part secure pasid v a q k x, named s part pasid v q k x →
    (a % 64 ≠ 0 → autCkpt w part secure pasid v a s = .ok (s, refusedWith 5)) ∧
    (a % 64 = 0 → s.ctxWrite w part secure pasid a (spoorBytes x 0) = .ok t →
      autCkpt w part secure pasid v a s = .ok (t.writeFrame q k x, 0))) ∧
  (∀ (s : State) part sid, (part * 16 ≤ sid ∧ sid ≤ part * 16 + 4 → autClose part sid s = (s, refusedWith 3)) ∧
    (¬ (part * 16 ≤ sid ∧ sid ≤ part * 16 + 4) →
      (s.stream? part sid = none → autClose part sid s = (s, refusedWith 6)) ∧
      (s.stream? part sid ≠ none → (autClose part sid s).2 = 0 ∧ (autClose part sid s).1.stream? part sid = none))) ∧
  (∀ (s : State) part pasid bs p sid st, s.part? part = some p → streamOf pasid bs = some (sid, st) →
    (sid ∈ p.assigned → thas sid p.streams = false → ringInside p st.base st.lgent = true →
      (autOpen part pasid bs s).2 = 0 ∧ (autOpen part pasid bs s).1.stream? part sid = some st ∧ st.tail = 0 ∧ st.low = 0 ∧
        st.released = 0 ∧ st.wm = none) ∧
    (sid ∉ p.assigned ∨ thas sid p.streams = true → autOpen part pasid bs s = (s, refusedWith 4))) ∧
  (∀ (s : State) w part secure pasid bs p, s.part? part = some p →
    let b := installOf bs
    (installBad bs = true → autldOne w part secure pasid bs s = .ok (s, refusedWith 8)) ∧
    ∀ image e seg next, installBad bs = false → b.restore = false → s.readTable w part secure pasid b.table = .ok image →
      areaOk p b.area (autTableOf image).budget = true → b.quarter ∈ p.quarters → b.slot ≠ 0 →
      s.automaton? b.quarter b.slot = none → autTableOk p image = true →
      (s.engine b.quarter).makeRun (autTableOf image).budget = some (e, seg) → s.startNext part (autTableOf image) = some next →
      ∃ t a, autldOne w part secure pasid bs s = .ok (t, b.quarter * 2 ^ 16 + b.slot) ∧
        t.automaton? b.quarter b.slot = some a ∧ a.table = autTableOf image ∧ a.seg = seg ∧ a.job = b.job ∧ a.pasid = pasid ∧
        a.area = b.area ∧ a.next = next ∧ a.cands = [] ∧ a.stopped = false)

/-- SYSWR performs each executing lane's operation in lane order, and its statuses return to D: the group control register,
a context's settings, invalidation, stops and resumes, a halted group, and queues; a refusal changes nothing. A migration
sets MIG, invalidates its page and answers at its end, with its waiters released (R145, R167, R182, R193, R333, R338,
R425). -/
def Obligations.SystemWrites : Prop :=
  (∀ d v b, SysAnswers (.syswrGctl d (.imm v) b) none (fun _ _ => v.toNat) d b) ∧
  (∀ d a b, (∀ v, a ≠ .imm v) → SysAnswers (.syswrGctl d a b) (some a) (fun g k => (read32 g k a).1) d b) ∧
  (∀ d b, SysAnswers (.syswrContextSet d b) none (fun _ _ => 0x100) d b) ∧
  (∀ d b, SysAnswers (.syswrInvalidate d b) none (fun _ _ => 0x101) d b) ∧
  (∀ d b, SysAnswers (.syswrMigrate d b) none (fun _ _ => 0x102) d b) ∧
  (∀ d b, SysAnswers (.syswrContextStop d b) none (fun _ _ => 0x103) d b) ∧
  (∀ d b, SysAnswers (.syswrContextResume d b) none (fun _ _ => 0x104) d b) ∧
  (∀ d b, SysAnswers (.syswrGroup d b) none (fun _ _ => 0x105) d b) ∧
  (∀ d b, SysAnswers (.syswrQueueCreate d b) none (fun _ _ => 0x106) d b) ∧
  (∀ d b, SysAnswers (.syswrQueueDestroy d b) none (fun _ _ => 0x107) d b) ∧
  (∀ d b, SysAnswers (.syswrQueueSwap d b) none (fun _ _ => 0x108) d b) ∧
  ∀ key (s : State) p bs v, s.part? (partOf key) = some p →
    let part := partOf key
    let f := fieldOf bs
    let done := fun sel => sysOne key sel v bs s
    (∀ sel t r, sel ≠ 0x106 → done sel = .ok (t, some r) → 2 ^ 31 ≤ r → t = s) ∧
    (∀ sel, sel ≠ 0x010 → (sel < 0x100 ∨ 0x108 < sel) → done sel = .ok (s, some (refusedWith 1))) ∧
    (done 0x010 = .ok (s.modGroup key fun g => { g with
      spint := min 256 (max 4 (bits v 8 9)), sbchk := bit v 1, eif := bit v 0 }, some 0)) ∧
    (∀ sel, 0x100 ≤ sel → sel ≤ 0x104 → f 0 4 ∉ p.pasids →
      done sel = .ok (s, some (refusedWith 1)) ∨ done sel = .ok (s, some (refusedWith 2))) ∧
    (∀ t, done 0x100 = .ok (t, some 0) → ∃ c, tget? (ctxKey part (f 0 4)) t.ctxs = some c ∧
      (bit (f 4 1) 0 = true → c.root = some (f 8 8)) ∧ (bit (f 4 1) 1 = true → c.share = f 24 1) ∧
      (bit (f 4 1) 2 = true → c.save = some (f 16 8)) ∧ (bit (f 4 1) 3 = true → c.slice = f 28 4) ∧
      { t with ctxs := s.ctxs } = s) ∧
    (∀ t, done 0x101 = .ok (t, some 0) →
      (∀ e ∈ t.tlb, ¬ (e.part = part ∧ e.pasid = f 0 4 ∧ f 8 8 / 2 ^ 16 ≤ e.vpage ∧ e.vpage < f 8 8 / 2 ^ 16 + f 16 4)) ∧
      ∀ g, t.group? key = some g → ∀ b ∈ g.buf, 32 ≤ b.lane) ∧
    (∀ t, done 0x102 = .ok (t, none) → ∃ m level u p',
      s.leafOf (.group key) part p (s.coreSecure (coreOf key)) (f 0 4) (f 8 8 / 2 ^ 16) = .ok (level, m.entry, m.lo, m.hi) ∧
      bit m.lo 10 = false ∧ m.serial = s.serial ∧ m.pasid = f 0 4 ∧ m.vpage = f 8 8 / 2 ^ 16 ∧ m.units = leafUnits level ∧
      m.data = f 16 8 ∧ m.side = f 24 8 ∧ (s.drain key allLanes).putLeaf p m (m.lo + 2 ^ 10) m.hi = .ok u ∧ t.mem = u.mem ∧
      (∀ e ∈ t.tlb, ¬ (e.part = part ∧ e.pasid = f 0 4 ∧ m.vpage ≤ e.vpage ∧ e.vpage < m.vpage + m.units)) ∧
      t.serial = s.serial + 1 ∧ t.part? part = some p' ∧ p'.migs = p.migs ++ [m]) ∧
    (∀ m u w, s.flushWrites.migrationNeeds p m = [] →
      m.frames.foldlM (fun s (x : Nat × Nat × Nat) =>
        s.copyFrame (.mover m.serial) part p m.secure m.pasid x.1 x.2.1 x.2.2) s.flushWrites = .ok u →
      u.putLeaf p m (m.lo - bits m.lo 16 40 * 0x10000 + m.data) (m.hi - bits m.hi 12 44 * 0x1000 + m.side) = .ok w →
      (migrationEnd part m s).mem = w.mem ∧
      ∃ p', (migrationEnd part m s).part? part = some p' ∧ ∀ x ∈ p'.migs, x.serial ≠ m.serial) ∧
    (∀ w pasid src dst (u : State), src.key = 0 → dst.key = 0 → isHost src.phys = false → isHost dst.phys = false →
      (∀ l ∈ u.links, l.writes = []) →
      memBytes (u.copySector w pasid src dst).mem dst.phys 32 = memBytes u.mem src.phys 32) ∧
    (∀ t, done 0x103 = .ok (t, some 0) → (tget t.ctxs (ctxKey part (f 0 4)) Ctx.new).stopped = true) ∧
    (∀ t, done 0x104 = .ok (t, some 0) → (tget t.ctxs (ctxKey part (f 0 4)) Ctx.new).stopped = false) ∧
    (let k := (part * 256 + f 0 4) * 48 + f 4 4
     ∀ g pc lanes code val flags, f 0 4 < 256 → f 4 4 < 48 → zeroBytes bs 12 64 = true → s.group? k = some g →
      g.halt = .bkpt pc lanes code val flags →
      (f 8 4 = 0 → done 0x105 = .ok (s.setGroup k { g with halt := .running }, some 0)) ∧
      (f 8 4 = 1 → done 0x105 = .ok (s.taskFault k g ⟨0x25, 0, lanes, code, val, flags⟩ pc, some 0))) ∧
    (∀ k, (∀ j, j < k → (tget p.queues j Queue.new).created = true) → (tget p.queues k Queue.new).created = false → k < 1024 →
      zeroBytes bs 20 64 = true → f 4 4 ∈ p.pasids → f 4 4 < 2 ^ 20 → f 8 8 % 64 = 0 → f 8 8 < 2 ^ 56 →
      (∃ n, n ≤ 16 ∧ f 16 4 = 2 ^ n) → f 0 4 < 16 * p.quarters.length →
      let gen := (tget p.queues k Queue.new).gen
      done 0x106 = .ok (s.modPart part fun p => { p with
        queues := tset k ⟨true, gen, part * 256 + f 0 4, f 4 4, f 8 8, f 16 4, false, 0, 0, []⟩ p.queues },
        some (gen * 2 ^ 16 + k))) ∧
    (∀ k q, zeroBytes bs 4 64 = true → liveQueue p (f 0 4) = some (k, q) → ∃ t p', done 0x107 = .ok (t, some 0) ∧
      t.part? part = some p' ∧ tget? k p'.queues = some { Queue.new with gen := (q.gen + 1) % 2 ^ 16 }) ∧
    (∀ k q, zeroBytes bs 8 64 = true → f 4 4 = 1 → liveQueue p (f 0 4) = some (k, q) →
      done 0x108 = .ok (s.modPart part fun p => { p with queues := tset k { q with swapped := true } p.queues }, some 0)) ∧
    ∀ k q t, zeroBytes bs 8 64 = true → f 4 4 = 0 → liveQueue p (f 0 4) = some (k, q) →
      q.tasks.foldlM (fun (s : State) t => if s.queueRoom q.core then some (s.enqueue q.core t) else none) s = some t →
      done 0x108 = .ok (t.modPart part fun p => { p with queues := tset k { q with
        swapped := false, head := (q.head + q.used) % max 1 q.size, used := 0, tasks := [] } p.queues }, some 0)

/-! Steps of the machine that no program issues. -/

/-- An illegal word faults with every lane of its path. A group's walks return, into its core's TLB and its die's, and its
lanes issue again; a gathering window closes at its time; waiters of a retry are released, and a group goes on at its region
entries; a slice's end halts its groups in place, its lanes at a REGION as they are and the others at their region entries;
an evicted unit waits in the save area with its whole return stacks; a task starts in its core's lowest free slots (R36,
R141, R142, R180, R188 to R190, R335, R336, R356). -/
def Obligations.SchedulerSteps : Prop :=
  (∀ s iss g, Runs s iss g → exec .illegalInstruction s =
    .next (s.taskFault iss.key g ⟨0x14, 0, iss.path, 0, 0, 0⟩ iss.pc)) ∧
  (∀ key (s : State) g, s.group? key = some g → g.walks ≠ [] →
    let r := g.walks.foldl (fun (r : State × List Nat) page =>
      ((r.1.fillTlb key g page).1, r.2 ++ if (r.1.fillTlb key g page).2 then [page] else [])) (s, [])
    (r.2 ≠ [] → exec (.tlbWalkComplete key) s = .next (r.1.setGroup key { g with walks := r.2 })) ∧
    (r.2 = [] → Reaches (exec (.tlbWalkComplete key) s) fun t => t.agenda = g.replays key ++ r.1.agenda ∧ t.tlb = r.1.tlb ∧
      t.group? key = some { g with
        walks := [], walked := true, lanes := g.lanes.map fun l => if l.wait = .walk then { l with wait := .none } else l })) ∧
  (∀ (s : State) key g page p, s.part? (partOf key) = some p →
    let part := partOf key
    let home := coreOf key
    let die := dieTlb (dieOf (s.coreQuarter home))
    let walk := s.walkPage (.group key) home part p (s.coreSecure home) g.pasid page
    (∀ e, s.tlbHit home part g.pasid page = some e → s.fillTlb key g page = (s, false)) ∧
    (s.tlbHit home part g.pasid page = none →
      (∀ e, s.tlbHit die part g.pasid page = some e →
        s.fillTlb key g page = (s.tlbInsert { e with home := home }, false)) ∧
      (s.tlbHit die part g.pasid page = none →
        (∀ e, walk = .ok e → s.fillTlb key g page = ((s.tlbInsert { e with home := die }).tlbInsert e, false)) ∧
        (∀ e, walk = .error e → e.asks = false → s.fillTlb key g page = (s, false)) ∧
        ∀ e, walk = .error e → e.asks = true → s.fillTlb key g page = (s.askFor (.group key) g.pasid e, true)))) ∧
  (∀ (s : State) e, e ∈ (s.tlbInsert e).tlb ∧ (∀ x ∈ (s.tlbInsert e).tlb, x = e ∨ x ∈ s.tlb) ∧
    ∀ x ∈ s.tlb, x.home ≠ e.home → x ∈ (s.tlbInsert e).tlb) ∧
  (∀ part idx (s : State) p x, s.part? part = some p → p.windows[idx]? = some x →
    (s.clock < x.closes → exec (.gatherWindowClose part idx) s = .next s) ∧
    (x.closes ≤ s.clock → Reaches (exec (.gatherWindowClose part idx) s) fun t =>
      ∃ p', t.part? part = some p' ∧ p'.windows = p.windows.eraseIdx idx ∧
        (x.waiters = [] → t = s.modPart part fun p => { p with windows := p.windows.eraseIdx idx }) ∧
        (x.waiters ≠ [] → s.recordFull part = false → p.pending.length < 4096 →
          (p.pending.find? fun e => e.pasid == x.pasid && e.page == x.page) = none →
          p'.pending = p.pending ++ [⟨x.pasid, x.page, x.acc, x.waiters⟩]))) ∧
  (∀ part idx (s : State) p r, s.part? part = some p → p.retries[idx]? = some r →
    (s.clock < r.at_ → exec (.pendingOvfRetry part idx) s = .next s) ∧
    (r.at_ ≤ s.clock → exec (.pendingOvfRetry part idx) s = .next (r.waiters.foldl (fun s w => s.releaseWaiter part w)
      (s.modPart part fun p => { p with retries := p.retries.eraseIdx idx })))) ∧
  (∀ (s : State) part key g, s.group? key = some g → (s.releaseWaiter part (.group key)).group? key = some { g with
    halt := (match g.halt with | .aborted _ => .running | h => h), lanes := g.lanes.map fun l => if l.wait = .aborted then { l with wait := .none } else l }) ∧
  (∀ ck pasid (s : State), s.normalMode (partOfCore ck) = true →
    let key := ctxKey (partOfCore ck) pasid
    let c := tget s.ctxs key Ctx.new
    let fresh := fun (s : State) => { s with ctxs := tmod key (fun c => { c with used := terase (vcoreOf ck) c.used }) s.ctxs }
    (tget c.used (vcoreOf ck) 0 < 1024 * c.slice → exec (.timeSliceExpiry ck pasid) s = .next s) ∧
    (1024 * c.slice ≤ tget c.used (vcoreOf ck) 0 →
      (s.starved ck pasid = none → s.longestHalted ck pasid = none →
        exec (.timeSliceExpiry ck pasid) s = .next (fresh s)) ∧
      (∀ t, s.starved ck pasid = some t → s.longestHalted ck pasid = none →
        exec (.timeSliceExpiry ck pasid) s = .next (fresh (s.haltContext ck pasid))) ∧
      ∀ other, s.longestHalted ck pasid = some other →
        exec (.timeSliceExpiry ck pasid) s = .next ((fresh (s.haltContext ck pasid)).schedule ck other))) ∧
  (∀ ck pasid (s : State), s.normalMode (partOfCore ck) = false → let key := ctxKey (partOfCore ck) pasid
    exec (.timeSliceExpiry ck pasid) s = .next (if tget (tget s.ctxs key Ctx.new).used (vcoreOf ck) 0 <
        1024 * (tget s.ctxs key Ctx.new).slice then s
      else { s with ctxs := tmod key (fun c => { c with used := terase (vcoreOf ck) c.used }) s.ctxs })) ∧
  (∀ (s : State) key g h, s.group? key = some g → g.pre = .no → (s.returnAll key).group? key = some h →
    let s1 := s.returnAll key
    let whole := s1.normalMode (partOf key) = false ∨ h.whole = true
    ∃ g', (s.haltGroup key).group? key = some g' ∧ g'.lanes.length = h.lanes.length ∧ g'.reuse = none ∧
      (whole → g'.lanes = h.lanes ∧ g'.w = h.w ∧ ((∀ ms, h.halt ≠ .aborted ms) → g'.pre = .inPlace s1.clock true)) ∧
      (¬ whole → (∀ ms, h.halt ≠ .aborted ms) → g'.pre = .inPlace s1.clock false ∧
        (∀ b ∈ g'.buf, b.lane < 32 → (s1.markerAt key h b.lane).isSome = false) ∧
        ∀ i, i < 32 → i < h.lanes.length → (h.lane i).live = true →
          if (h.lane i).committed = true ∨ (s1.markerAt key h i).isSome = true then g'.lane i = h.lane i
          else (g'.lane i).pc = ((h.lane i).entry.map (·.pc)).getD h.startPc ∧ (g'.lane i).wait = .none ∧
            (g'.lane i).c = [] ∧ (g'.lane i).lat = Reg.zero)) ∧
  (∀ core (s : State), s.evictable core = none → exec (.teamEviction core) s = .next s) ∧
  (∀ core (s : State) u g w, s.evictable core = some u → u.keys.head?.bind s.group? = some g →
    let s1 := u.keys.foldl State.returnAll s
    (∀ k ∈ u.keys, (s1.group? k).isSome = true) → s1.writeUnit core g.pasid u = .ok w →
    Reaches (exec (.teamEviction core) s) fun t => (∀ k ∈ u.keys, t.group? k = none) ∧
      ∀ k ∈ u.keys, ∀ h, (k, h) ∈ w.groups →
        (k, { w.gatherStacks k h with pre := .evicted h.haltedAt false 0 }) ∈ t.saved) ∧
  (∀ (s : State) key g i, i < g.lanes.length →
    ((s.gatherStacks key g).lane i).stack = (g.lane i).stack ++
      (List.range (g.lane i).spilled).reverse.map fun e => s.readNat (s.spillEntry key i e) 8) ∧
  (∀ core (s : State) t g, s.normalMode (partOfCore core) = true → s.dispatchable core = some t →
    s.gridOf (partOfCore core) t.grid = some g → g.groups ≤ (s.freeSlots core).length → s.freeSlots core ≠ [] →
    Reaches (exec (.taskDispatch core) s) fun s' =>
      (s'.coreSt core).queue = (s.coreSt core).queue.erase t ∧
      let key := fun k => core * 48 + (s.freeSlots core).getD k 0
      let starts := fun (h : Group) => h.kind = t.kind ∧ h.job = t.job ∧ h.pasid = t.pasid ∧ h.grid = t.grid ∧ h.prio = t.prio ∧
        h.base = g.base ∧ h.startPc = t.pc ∧ h.eif = true ∧ h.sbchk = false ∧ h.spint = 16 ∧ h.halt = .running ∧ h.loads = 0 ∧
        h.lanes.length = 32 ∧ (∀ i, i < 32 → (h.lane i).pc = t.pc ∧ (h.lane i).wait = .none) ∧
        ∀ k, k < 8 → tget h.w k Reg.zero = t.args.getD k Reg.zero
      match t.kind with
      | .spawn => ∃ h, s'.group? (key 0) = some h ∧ starts h ∧ h.team = none ∧ h.logicalId = t.lid
      | .pool => ∃ h, s'.group? (key 0) = some h ∧ starts h ∧ h.team = t.team ∧ h.logicalId = t.lid ∧
          ∀ i, i < 32 → (h.lane i).live = decide (i < t.count)
      | .team => ∀ k, k < g.groups → ∃ h, s'.group? (key k) = some h ∧ starts h ∧ h.team = some s.serial ∧ h.gidx = k ∧
          h.logicalId = t.lid + 32 * k ∧ ∀ i, i < 32 → (h.lane i).live = true)

/-- A cluster's reservation asks its cores one at a time in increasing order, and a core that grants sets its room aside;
balancing moves tasks that are not pinned, youngest first; a launch waits for what its template and its map need, is refused
with its reason, or takes the lowest free grid entry (R43, R72, R134 to R137, R144, R146). -/
def Obligations.ClusterBalanceAndLaunchSteps : Prop :=
  (∀ core (s : State) t g p, s.normalMode (partOfCore core) = true → s.reservable core = some (t, g) →
    s.part? (partOfCore core) = some p →
    let part := partOfCore core
    let cluster := t.sub / g.clusterSize
    let next := nextAsked (g.clusterCores part cluster) [core]
    Reaches (exec (.clusterReserveRequest core) s) fun s' =>
      (s'.coreSt core).granted = (s.coreSt core).granted ++ [(t.grid, cluster)] ∧
      (∀ c, next = some c → c ≠ core ∧ (s'.coreSt c).requests = (s.coreSt c).requests ++ [(t.grid, cluster)]) ∧
      ∃ p', s'.part? part = some p' ∧ p'.reservations = p.reservations ++ [⟨t.grid, cluster, [core], next⟩]) ∧
  (∀ core (s : State) grid cluster t p r, s.normalMode (partOfCore core) = true → s.grantable core = some (grid, cluster, t) →
    s.part? (partOfCore core) = some p → (p.reservations.find? fun r => r.grid == grid && r.cluster == cluster) = some r →
    let part := partOfCore core
    let cores := (s.gridOf part grid).elim [] fun g => g.clusterCores part cluster
    (∀ c, nextAsked cores (r.granted ++ [core]) = some c → Reaches (exec (.clusterReserveGrant core) s) fun s' =>
      (s'.coreSt core).granted = (s.coreSt core).granted ++ [(grid, cluster)] ∧ (grid, cluster) ∈ (s'.coreSt c).requests) ∧
    (nextAsked cores (r.granted ++ [core]) = none →
      exec (.clusterReserveGrant core) s = .next ((s.grantAt core grid cluster).startCluster part r cores))) ∧
  (∀ part (s : State) p, s.part? part = some p → p.det = none → s.clock % 1024 = 0 →
    let vs := List.range (16 * p.quarters.length)
    exec (.balanceExchange part) s = .next (vs.foldl (fun t v => t.balanceCore part p
      (vs.map fun v => (s.coreSt (part * 256 + v)).queue.length) v) s)) ∧
  (∀ part (s : State) p, s.part? part = some p → (p.det ≠ none ∨ s.clock % 1024 ≠ 0) →
    exec (.balanceExchange part) s = .next s) ∧
  (∀ (s : State) src dst n, src ≠ dst →
    ((s.moveTasks src dst n).coreSt src).queue.filter (·.pin) = (s.coreSt src).queue.filter (·.pin) ∧
    ((s.moveTasks src dst n).coreSt src).queue.length + ((s.moveTasks src dst n).coreSt dst).queue.length =
      (s.coreSt src).queue.length + (s.coreSt dst).queue.length) ∧
  (∀ part (s : State) p l rest, s.normalMode part = true → s.part? part = some p → p.halted = false → p.placing = none →
    p.launches = l :: rest →
    let s1 := s.modPart part fun p => { p with launches := rest }
    let check := checkLaunch s1 part { p with launches := rest } l
    (∀ e, launchAsks s part l = some e → exec (.launchRequest part) s = .next (s.askFor (.launcher part) l.pasid e)) ∧
    (∀ reason team, launchAsks s part l = none → check = .error (reason, team) →
      exec (.launchRequest part) s = .next ((s1.dropReturned (.launcher part)).refuseLaunch part l reason team)) ∧
    ∀ t n vs k, launchAsks s part l = none → check = .ok (t, n, vs) → k < 1024 → (∀ j, j < k → thas j p.grids = true) → thas k p.grids = false →
      Reaches (exec (.launchRequest part) s) fun s' => ∃ p' g, s'.part? part = some p' ∧ tget? k p'.grids = some g ∧
        g.job = l.job ∧ g.pasid = l.pasid ∧ g.args = l.args ∧ g.entry = t.entry ∧ g.groups = t.groups ∧ g.teams = n ∧ g.left = n ∧
        g.map = vs ∧ g.base = 8 * t.base ∧ g.ext = 64 * t.ext ∧ g.lstore = t.lstore ∧ p'.launches = rest)

/-- The match engine: an automaton takes its next event, its expired candidates go, its sequence advances, and its live
candidates stay within its budget; a pass drops what has expired; its outputs keep their order in a queue of 32 entries; an
error restores the engine's automata from their latest frames. At a boundary the acts that are due happen in their order, and
the round counts as applied (R107, R108, R115, R118, R119, R130, R314). -/
def Obligations.MatchEngineAndBoundarySteps : Prop :=
  (∀ q k (s : State) part a pos e, s.scannable q k = some (part, a) → s.nextEvent part a = some pos →
    let s1 := s.setEngine q { s.engine q with rot := k }
    s1.takeEvent part q k a pos = .ok e →
    let r := processEvent a q k pos.2.1 e
    let s2 := (((s1.chargeEvent part q k a pos).dropReturned (.scanner q k)).setAutomaton q k r.1).queueOutputs q r.2.1
    exec (.automatonEventStep q k) s =
      .next ((if r.2.2 then s2.stopAutomaton q k r.1 1 0 0 else s2.rebaseAll part r.1.table.watch).engineDrain q)) ∧
  (∀ q k (s : State) part a pos e, s.scannable q k = some (part, a) → s.nextEvent part a = some pos →
    let s1 := s.setEngine q { s.engine q with rot := k }
    s1.takeEvent part q k a pos = .error e →
    exec (.automatonEventStep q k) s = .next (if e.asks then s1.askFor (.scanner q k) a.pasid e
      else (s1.dropReturned (.scanner q k)).stopAutomaton q k a 3 e.code
        (handleOf (a.table.watch.getD pos.2.1 0) pos.2.2))) ∧
  (∀ q (s : State) os, let e := s.engine q
    let e' := (s.queueOutputs q os).engine q
    e'.out ++ e'.spill = e.out ++ e.spill ++ os ∧ (e.queued ≤ 32 → e'.queued ≤ 32) ∧
    (e'.spill ≠ [] → 32 ≤ e'.queued) ∧ ∀ k, e'.spill ≠ [] → (s.queueOutputs q os).scannable q k = none) ∧
  (∀ (a : Automaton) q k i e, 0 < a.table.budget → a.cands.length ≤ a.table.budget →
    let a' := (processEvent a q k i e).1
    a'.cands.length ≤ a.table.budget ∧ a'.next = a.next.set i (e.seq + 1) ∧ a'.last = some (i, e.time, e.seq) ∧
    a'.table = a.table ∧ a'.seg = a.seg ∧ a'.job = a.job ∧ a'.pasid = a.pasid ∧ a'.area = a.area) ∧
  (∀ q k (s : State) part a safe, s.scannable q k = some (part, a) → s.passDue part a = some safe →
    Reaches (exec (.dropExpiredPass q k) s) fun t =>
      let r := dropExpired a q k safe
      let a' := { r.1 with sdone := some safe }
      let out := r.2 ++ if a.table.rep && decide (0 < safe) then [Output.raise k a.table.rstream (safe - 1)] else []
      let s2 := ((s.setEngine q { s.engine q with rot := k }).setAutomaton q k a').queueOutputs q out
      t = (if a'.dirty then s2.writeFrame q k a' else s2.rebaseAll part a'.table.watch).engineDrain q) ∧
  (∀ (a : Automaton) q k limit, ∀ c ∈ (dropExpired a q k limit).1.cands,
    c ∈ a.cands ∧ ∀ p, a.table.point c = some p → limit ≤ p) ∧
  (∀ q (s : State) part, s.partOfQuarter q = some part → exec (.matchEngineStateError q) s =
    .next ((s.recoverEngine q false).sysPost part errStream 0x0016 [3, q, 0, 0, tget s.corrected (locKey 3 q 0) 0])) ∧
  (∀ q k (s : State) a bs, s.automaton? q k = some a → s.latestFrame a = some bs →
    ∃ a', (s.recoverSlot q k false).automaton? q k = some a' ∧ a'.cands = (a.fromSpoor bs).cands ∧
      a'.next = (a.fromSpoor bs).next ∧ a'.oserial = (a.fromSpoor bs).oserial ∧ a'.table = a.table ∧
      ((s.recoverSlot q k false).engine q).gates = (s.engine q).gates) ∧
  (∀ part (s : State) d, s.detOf part = some d → d.atBoundary = true → (∀ x ∈ s.samples, partOfCore x.1 ≠ part) →
    let acts := s.dueActs part d
    let r := acts.foldl (fun (r : State × Bool) a => ((r.1.dueReady a).1, r.2 && (r.1.dueReady a).2)) (s, true)
    exec (.epochBoundary part) s = .next (if r.2 then r.1.boundary part d acts else r.1)) ∧
  (∀ part (s : State) d earlier act later, s.dueActs part d = earlier ++ act :: later →
    ∀ n ∈ s.before act, n ∈ earlier.map DueAct.op) ∧
  (∀ part (s : State) d acts x, (s.boundary part d acts).detOf part = some x → x.applied = some d.round ∧ x.turned = []) ∧
  (∀ part (s : State) d h, s.detOf part = some d → d.holder = some h → d.passing = true → s.heldUid part d h = false →
    (s.passToken part).detOf part = some { d with
      holder := (d.search (d.place h + 1)).map (·.uid), passing := false, lastHolder := d.place h }) ∧
  (∀ part (s : State) d m, s.detOf part = some d → d.holder = none → d.search d.lastHolder = some m →
    (s.assignToken part).detOf part = some { d with holder := some m.uid }) ∧
  (∀ part (s : State) key g d, s.detOf part = some d → s.group? key = some g → partOf key = part →
    ∃ g', (s.grantToken part g.uid).group? key = some g' ∧ g'.tokwaits = 0 ∧ g'.loads = g.loads - g.tokwaits) ∧
  (∀ part (s : State) d, s.detOf part = some d → d.atBoundary = false → exec (.epochBoundary part) s = .next s)

/-- The host at a function's BARs: an admitted packet appends its event or raises a watermark and counts as posted, any
other is refused and counted with the lowest reason; one whose ring waits for a translation stays with its link, and those
behind it in their order; a write of BAR 2 is its packets; SLOTCNT clears as it is read; report windows and moderated
interrupts end at their ticks; the mailbox and unanswered accesses (R41 to R43, R60 to R70, R79). -/
def Obligations.HostAccesses : Prop :=
  let behind := fun (s : State) (link : Nat) => ∃ l, s.links[link]? = some l ∧ l.parked ≠ []
  let sent := fun (s : State) link port slot (pkt : Packet) =>
    let po := s.port link port
    s.postActs po.part (po.slot slot).stream
      ⟨pkt.op, pkt.time, pkt.cls, pkt.payload.map (·.toNat), false, false, po.pasid, s.securePort link port, .ring⟩
  let reason := fun (s : State) link port slot pasid pkt =>
    packetReason s (s.port link port) ((s.port link port).slot slot) ((s.links[link]?).elim false (·.enabled)) pasid pkt
  let first := fun (pkt : Packet) => pkt.time % 2 ^ 48 + pkt.cls * 2 ^ 48
  (∀ link port slot pasid pkt (s : State) t q, ¬ behind s link → reason s link port slot pasid pkt = none →
    sent s link port slot pkt = .ok (t, some q) →
    exec (.eventPacketPost link port slot pasid pkt) s = .next ((t.dropReturned .ring).modSlot link port slot fun sl =>
      { sl with posted := min (sl.posted + 1) (2 ^ 32 - 1), lastSeq := q })) ∧
  (∀ link port slot pasid pkt (s : State) r, ¬ behind s link → reason s link port slot pasid pkt = some r →
    exec (.eventPacketPost link port slot pasid pkt) s = .next (s.refuse link port slot r pasid (first pkt))) ∧
  (∀ link port slot pasid pkt (s : State) r, ¬ behind s link → reason s link port slot pasid pkt = none →
    sent s link port slot pkt = .error (.refused r) →
    exec (.eventPacketPost link port slot pasid pkt) s = .next (s.refuse link port slot r pasid (first pkt))) ∧
  (∀ link port slot pasid pkt (s : State) code guest st, ¬ behind s link → reason s link port slot pasid pkt = none →
    sent s link port slot pkt = .error (.ring code guest) →
    s.stream? (s.port link port).part ((s.port link port).slot slot).stream = some st →
    exec (.eventPacketPost link port slot pasid pkt) s =
      .next ((s.postFault (s.port link port).part (s.port link port).pasid (st.entry st.tail / 2 ^ 16) code guest).refuse
        link port slot 9 pasid (first pkt))) ∧
  (∀ link port slot pasid pkt (s : State) e, ¬ behind s link → reason s link port slot pasid pkt = none →
    sent s link port slot pkt = .error (.waits e) →
    exec (.eventPacketPost link port slot pasid pkt) s =
      .next ((s.askFor .ring (s.port link port).pasid e).park link port slot pasid pkt)) ∧
  (∀ link port slot pasid pkt (s : State), behind s link →
    exec (.eventPacketPost link port slot pasid pkt) s = .next (s.park link port slot pasid pkt)) ∧
  (∀ link port slot pasid pkt (s : State) l, s.links[link]? = some l →
    (s.park link port slot pasid pkt).links[link]? = some { l with parked := l.parked ++ [(port, slot, pasid, pkt)] } ∧
    (l.parked = [(port, slot, pasid, pkt)] → s.unpark link =
      hostPacket link port slot pasid pkt { s with links := s.links.set link { l with parked := [] } })) ∧
  (∀ link port slot reason pasid first8 (s : State), link < s.links.length →
    (((s.refuse link port slot reason pasid first8).port link port).slot slot).refused =
      min (((s.port link port).slot slot).refused + 1) (2 ^ 32 - 1)) ∧
  (∀ link port slot pasid pkt (s : State) st, ¬ behind s link →
    let po := s.port link port
    let sl := po.slot slot
    reason s link port slot pasid { pkt with op := 2 } = none → s.stream? po.part sl.stream = some st → st.timed = false →
    exec (.eventPacketWatermark link port slot pasid pkt) s =
      .next (((s.setStream po.part sl.stream { st with wm := some (max (st.wm.getD 0) pkt.time) }).dropReturned .ring).modSlot
        link port slot fun sl => { sl with posted := min (sl.posted + 1) (2 ^ 32 - 1) })) ∧
  (∀ link k (s : State) l, s.links[link]? = some l →
    let e := tget l.remaps k Remap.new
    (e.due s.timer = false → exec (.remapHoldoffExpiry link k) s = .next s) ∧
    (e.due s.timer = true → exec (.remapHoldoffExpiry link k) s = .next (State.sendMsix
      { s with links := s.links.set link { l with remaps := tset k { e with lastSent := some s.timer, pend := false } l.remaps } }
      link e.vec))) ∧
  (∀ link port (s : State) t, (s.port link port).window = some t →
    (s.timer < t → exec (.refusalWindowClose link port) s = .next s) ∧
    (t ≤ s.timer → (s.port link port).pendCount = 0 →
      exec (.refusalWindowClose link port) s = .next (s.setPort link port { s.port link port with window := none })) ∧
    (t ≤ s.timer → (s.port link port).pendCount ≠ 0 → link < s.links.length →
      Reaches (exec (.refusalWindowClose link port) s) fun s' =>
        (s'.port link port).window = some (s.timer + 4096) ∧ (s'.port link port).pendCount = 0)) ∧
  (∀ link port slot pasid (s : State),
    let po := s.port link port
    (s.links[link]?).elim false (·.enabled) = true → (pasid = none ∨ (pasid = some po.pasid ∧ s.livePasid po = true)) →
    exec (.slotcntRead link port slot pasid) s = .next ((s.emit (.completion link
        ((po.slot slot).refused * 2 ^ 32 + (po.slot slot).posted))).modSlot link port slot fun sl =>
      { sl with refused := 0, posted := 0 })) ∧
  (∀ link port slot pasid off len (s : State), (s.links[link]?).elim false (·.enabled) = true →
    (len ≠ 8 ∨ off % 8 ≠ 0 ∨ 64 ≤ off) → exec (.slotBadRead link port slot pasid off len) s =
      .next ((s.emit (.unsupported link)).refuse link port slot 1 pasid 0)) ∧
  (∀ acc (s : State), acc.bar = 0 → 0x140 ≤ acc.off → inMsix acc.off acc.len = false →
    exec (.barUnsupportedAccess acc) s = .next (if acc.write then s else s.emit (.unsupported acc.link))) ∧
  (∀ acc (s : State) l, acc.bar = 0 → acc.write = false → acc.off < 0x140 → acc.off % 4 = 0 → acc.len = 4 → acc.pasid = none →
    s.links[acc.link]? = some l →
    exec (.barUnsupportedAccess acc) s = .next (s.emit (.completion acc.link (mailboxWord l.mailbox acc.off)))) ∧
  (∀ acc (s : State), acc.bar = 2 → acc.off + acc.len ≤ 2 ^ 21 → acc.write = true →
    exec (.barUnsupportedAccess acc) s = .next (if packetsOk acc = true then postPackets acc s
      else (touchedSlots acc).foldl (fun (s : State) x =>
        s.refuse acc.link x.1 x.2.1 1 acc.pasid (acc.value / 2 ^ (8 * x.2.2) % 2 ^ 64)) s)) ∧
  (∀ acc (s : State), acc.len = 64 → acc.off % 64 = 0 →
    postPackets acc s = hostPacket acc.link (acc.off / 4096) (acc.off / 64 % 64) acc.pasid (packetOf (acc.value % 2 ^ 512)) s) ∧
  (∀ link v (s : State), exec (.mbstatWrite link v) s =
    .next (s.modMailbox link fun m => if bit v.toNat 31 then { m with done := false } else m)) ∧
  (∀ link v (s : State) l, s.links[link]? = some l → l.mailbox.go = false → bit v.toNat 31 = true →
    exec (.registerWrite link 0 v) s = .next (s.modMailbox link fun _ =>
      { l.mailbox with
        tag := bits v.toNat 16 8, opcode := bits v.toNat 0 16, go := true, order := 2 * s.clock + link })) ∧
  (∀ link k v (s : State), k < 32 → exec (.registerWrite link (0x40 + 4 * k) v) s =
    .next (s.modMailbox link fun m => if m.go then m else { m with args := m.args.set k v })) ∧
  (∀ link off v (s : State), off % 4 ≠ 0 ∨ (0xC0 ≤ off ∧ off < 0x80000) → exec (.registerWrite link off v) s = .next s)

/-! Firmware: the mailbox commands. -/

/-- The mailbox: what a completion leaves there, one command at a time in the order of GO, status 7 while firmware is
unavailable, and status 1 for an opcode that does not exist (R79, R80). -/
def Obligations.MailboxCompletion : Prop :=
  (∀ link status (rs : List Nat) (s : State) l, s.links[link]? = some l →
    ∃ l', (s.complete link status rs).links[link]? = some l' ∧
      l'.mailbox.go = false ∧ l'.mailbox.done = true ∧ l'.mailbox.doneTag = l.mailbox.tag ∧ l'.mailbox.status = status ∧
      l'.mailbox.args = l.mailbox.args ∧ l'.mailbox.res.length = l.mailbox.res.length ∧
      (∀ k v, rs[k]? = some v → k < l.mailbox.res.length → l'.mailbox.res[k]? = some (BitVec.ofNat 32 v)) ∧
      (∀ k, rs.length ≤ k → l'.mailbox.res[k]? = l.mailbox.res[k]?) ∧
      (l.mailbox.irqEn = false → s.complete link status rs = { s with links := s.links.set link l' })) ∧
  (∀ link status (rs : List Nat) (s : State), { s.complete link status rs with links := s.links, out := s.out } = s) ∧
  (∀ i ∈ commandRows, ∀ link (s : State), s.firmwareTurn link = false → exec (i link) s = .next s) ∧
  (∀ i ∈ commandRows, ∀ link (s : State), s.firmwareTurn link = true → s.fw.available = false →
    exec (i link) s = .next (s.complete link 7 [])) ∧
  (∀ i ∈ commandRows, ∀ link (s : State) l, s.links[link]? = some l → s.firmwareTurn link = true → s.fw.available = true →
    (l.mailbox.opcode = 0 ∨ 0x15 < l.mailbox.opcode) → exec (i link) s = .next (s.complete link 1 [])) ∧
  (∀ (s : State) a b x y, s.links[a]? = some x → s.links[b]? = some y → s.firmwareTurn a = true → s.firmwareTurn b = true →
    x.mailbox.order = y.mailbox.order) ∧
  Declines .resetGroup 0x10 none 2 (fun _ a _ => 7 < a 0)

/-- The commands on partitions, ports, routes, streams and contexts: each completes with its effect where its arguments
are as R81 and R82 ask, and with the status of R82 where they are not (R52, R53, R60, R61, R68, R70, R74). -/
def Obligations.PartitionCommands : Prop :=
  let created := fun (a : Nat → Nat) =>
    Part.create (a 0) (quartersOf (a 1)) (bit (a 2) 0) (bits (a 2) 8 8) (bits (a 2) 16 5) (a 3)
  let clean := fun (a : Nat → Nat) => a 0 < 16 ∧ 0 < a 1 ∧ a 1 < 2 ^ 16 ∧ bits (a 2) 1 7 = 0 ∧ bits (a 2) 21 11 = 0
  Commands .partCreate 0x1 none
    (fun _ a s => clean a ∧ thas (a 0) s.parts = false ∧ ∀ q ∈ quartersOf (a 1), q ∉ s.ownedQuarters)
    (fun _ a s => (s.createPart (a 0) (created a), [16 * a 0])) ∧
  Declines .partCreate 0x1 none 2 (fun _ a _ => bits (a 2) 1 7 ≠ 0 ∨ bits (a 2) 21 11 ≠ 0) ∧
  Declines .partCreate 0x1 none 3
    (fun _ a s => clean a ∧ (thas (a 0) s.parts = true ∨ ∃ q ∈ quartersOf (a 1), q ∈ s.ownedQuarters)) ∧
  (∀ n qs det push k seed, let p := Part.create n qs det push k seed
    p.quarters = qs ∧ p.home = qs.headD 0 ∧ p.det.isSome = det ∧ p.push = (if push = 0 then 8 else push) ∧
    ∀ j, j < 5 → ∃ st, tget? (16 * n + j) p.streams = some st ∧ st.tail = 0 ∧ st.lgent = 12 ∧ st.timed = decide (j ≠ 0) ∧
      st.base = 0xFD000000000000 + 2 ^ 25 * p.home + 0x0C00000 + 0x40000 * j) ∧
  Commands .partDestroy 0x2 none (fun _ a s => a 0 < 16 ∧ ofPart s (a 0) fun _ => True)
    (fun _ a s => (s.destroyPart (a 0), [])) ∧
  (∀ (s : State) part p, s.part? part = some p →
    let t := s.destroyPart part
    t.part? part = none ∧ (∀ k, partOf k = part → t.group? k = none) ∧
    (∀ q ∈ p.quarters, ∀ off, off < 2 ^ 25 → memGet t.mem (sliceAddr q off) = 0) ∧
    (∀ k o ws, tget? k t.fw.keys = some (o, ws) → o ≠ part) ∧ (∀ d, (t.dport d).owner ≠ some part) ∧
    (∀ link port, (t.port link port).en = true → (t.port link port).part ≠ part) ∧
    ∀ n, n ≠ part → t.part? n = s.part? n) ∧
  (let kept := fun (a : Nat → Nat) (p : Part) =>
     (List.range 16).filter fun q => bit (a 1) q || (p.quarters.contains q && !bit (a 2) q)
   let fits := fun (a : Nat → Nat) => a 0 < 16 ∧ a 1 < 2 ^ 16 ∧ a 2 < 2 ^ 16 ∧ a 1 &&& a 2 = 0
   Commands .partQuarters 0x3 none
     (fun _ a s => fits a ∧ (∀ q ∈ quartersOf (a 1), q ∉ s.ownedQuarters) ∧ ofPart s (a 0) fun p =>
       ∀ q ∈ quartersOf (a 2), q ∈ p.quarters ∧ q ≠ p.home ∧ s.quarterBusy (a 0) p q = false)
     (fun _ a s => match s.part? (a 0) with
       | none => (s, [])
       | some p => (s.setQuarters (a 0) p (kept a p), [quarterMask (kept a p)])) ∧
   Declines .partQuarters 0x3 none 3 (fun _ a s => fits a ∧ ofPart s (a 0) fun p =>
     p.home ∈ quartersOf (a 2) ∨ ∃ q ∈ quartersOf (a 2), s.quarterBusy (a 0) p q = true)) ∧
  (∀ (s : State) part p new, s.part? part = some p → ∃ p', (s.setQuarters part p new).part? part = some p' ∧ p'.quarters = new ∧
    (∀ r ∈ p'.ranges, r.valid = true → ∀ q ∈ p.quarters, q ∉ new → r.reaches q = false) ∧
    ∀ q ∈ p.quarters, q ∉ new → ∀ off, off < 2 ^ 25 → memGet (s.setQuarters part p new).mem (sliceAddr q off) = 0) ∧
  Commands .delowPorts 0x4 none
    (fun _ a s => a 0 < 16 ∧ a 3 = 0 ∧ (ofPart s (a 0) fun _ => True) ∧
      ∀ p ∈ portsOf (arg64 a 1), (s.dport p).owner = none ∨ (s.dport p).owner = some (a 0))
    (fun _ a s => ((portsOf (arg64 a 1)).foldl (fun s p => s.modDport p fun d => { d with owner := some (a 0) }) s, [])) ∧
  Declines .delowPorts 0x4 none 3 (fun _ a s => a 0 < 16 ∧ a 3 = 0 ∧ (ofPart s (a 0) fun _ => True) ∧
    ∃ p ∈ portsOf (arg64 a 1), ∃ n, (s.dport p).owner = some n ∧ n ≠ a 0) ∧
  Commands .routeSet 0x5 none
    (fun _ a s => a 0 < 16 ∧ a 1 < 1024 ∧ (ofPart s (a 0) fun _ => True) ∧
      ∀ p ∈ portsOf (arg64 a 2), (s.dport p).owner = some (a 0))
    (fun _ a s => (s.modPart (a 0) fun p => { p with routes := tput 0 (a 1) (arg64 a 2) p.routes }, [])) ∧
  Declines .routeSet 0x5 none 3 (fun _ a s => a 0 < 16 ∧ a 1 < 1024 ∧ (ofPart s (a 0) fun _ => True) ∧
    ∃ p ∈ portsOf (arg64 a 2), (s.dport p).owner ≠ some (a 0)) ∧
  Commands .evportSet 0x6 none
    (fun _ a s => a 0 < 2 ∧ a 1 < 512 ∧ a 2 < 16 ∧ a 3 < 2 ^ 20 ∧ (ofPart s (a 2) fun _ => True) ∧
      ((s.port (a 0) (a 1)).en = false ∨ (s.port (a 0) (a 1)).part = a 2))
    (fun _ a s => (s.setPort (a 0) (a 1) { s.port (a 0) (a 1) with en := true, part := a 2, pasid := a 3 }, [])) ∧
  Declines .evportSet 0x6 none 3 (fun _ a s => a 0 < 2 ∧ a 1 < 512 ∧ a 2 < 16 ∧ a 3 < 2 ^ 20 ∧ (ofPart s (a 2) fun _ => True) ∧
    (s.port (a 0) (a 1)).en = true ∧ (s.port (a 0) (a 1)).part ≠ a 2) ∧
  (let fits := fun (a : Nat → Nat) => a 0 < 2 ∧ a 1 < 512 ∧ a 2 < 64 ∧ bits (a 3) 27 2 = 0 ∧ bits (a 3) 10 5 = 0
   let bound := fun (a : Nat → Nat) (sl : Slot) => { sl with map := bit (a 3) 31, w := bit (a 3) 30, irq := bit (a 3) 29, stream := bits (a 3) 15 12, ridx := bits (a 3) 0 10 }
   let timed := fun (a : Nat → Nat) (s : State) => (s.openStream (bits (a 3) 15 12)).elim false (·.timed)
   let held := fun (a : Nat → Nat) (s : State) =>
     ofPart s (s.port (a 0) (a 1)).part fun p => p.holds (s.port (a 0) (a 1)).part (bits (a 3) 15 12) = true
   Commands .slotSet 0x7 none
     (fun _ a s => fits a ∧ (s.port (a 0) (a 1)).en = true ∧
       (bit (a 3) 31 = true → (bit (a 3) 30 = true → timed a s = false) ∧ held a s ∧
         (bit (a 3) 29 = true → ∀ l, s.links[a 0]? = some l →
           (tget l.remaps (bits (a 3) 0 10) Remap.new).part = (s.port (a 0) (a 1)).part)))
     (fun _ a s => (s.modSlot (a 0) (a 1) (a 2) (bound a), [])) ∧
   Declines .slotSet 0x7 none 3 (fun _ a s => fits a ∧ (s.port (a 0) (a 1)).en = true ∧ bit (a 3) 31 = true ∧
     timed a s = false ∧ ¬ held a s) ∧
   Declines .slotSet 0x7 none 2 (fun _ a s => bit (a 3) 31 = true ∧ bit (a 3) 30 = true ∧ timed a s = true) ∧
   Declines .slotSet 0x7 none 4 (fun _ a s => fits a ∧ bit (a 3) 31 = false ∧ (s.port (a 0) (a 1)).en = false) ∧
   Declines .slotSet 0x7 none 2 (fun _ a _ => bits (a 3) 27 2 ≠ 0 ∨ bits (a 3) 10 5 ≠ 0)) ∧
  (let entry := fun (a : Nat → Nat) (e : Remap) =>
     let v := arg64 a 2
     { e with v := bit v 63, mask := bit v 62, part := bits v 57 4, vec := bits v 48 6, mod := bits v 32 16, cls := bits v 16 16 }
   Commands .remapSet 0x8 none
     (fun _ a _ => a 0 < 2 ∧ a 1 < 1024 ∧ bits (arg64 a 2) 54 3 = 0 ∧ bits (arg64 a 2) 0 16 = 0)
     (fun _ a s => (remapTick (a 0) (a 1)
       (s.modLink (a 0) fun l => { l with remaps := tset (a 1) (entry a (tget l.remaps (a 1) Remap.new)) l.remaps }), []))) ∧
  (let fits := fun (a : Nat → Nat) (s : State) => a 0 < 16 ∧ a 1 < 2 ^ 12 ∧ (ofPart s (a 0) fun _ => True)
   Commands .streamAssign 0x9 none
     (fun _ a s => fits a s ∧ a 2 = 0 ∧ (s.parts.all fun (n, q) => n == a 0 || !q.holds n (a 1)) = true)
     (fun _ a s => (if (s.part? (a 0)).any fun p => p.holds (a 0) (a 1) then s
       else s.modPart (a 0) fun p => { p with assigned := insertNat (a 1) p.assigned }, [])) ∧
   Declines .streamAssign 0x9 none 3
     (fun _ a s => fits a s ∧ a 2 = 0 ∧ (s.parts.any fun (n, q) => n != a 0 && q.holds n (a 1)) = true) ∧
   Commands .streamAssign 0x9 none
     (fun _ a s => fits a s ∧ a 2 = 1 ∧ isSystemStream (a 0) (a 1) = false ∧ ofPart s (a 0) fun p => a 1 ∈ p.assigned)
     (fun _ a s => ((s.closeStream (a 0) (a 1)).modPart (a 0) fun p =>
       { p with assigned := p.assigned.filter (· != a 1) }, [])) ∧
   Declines .streamAssign 0x9 none 3 (fun _ a s => fits a s ∧ a 2 = 1 ∧ isSystemStream (a 0) (a 1) = true) ∧
   Declines .streamAssign 0x9 none 4 (fun _ a s => fits a s ∧ a 2 = 1 ∧ ofPart s (a 0) fun p => p.holds (a 0) (a 1) = false)) ∧
  (let fits := fun (a : Nat → Nat) (s : State) => a 0 < 16 ∧ a 1 < 2 ^ 20 ∧ (ofPart s (a 0) fun _ => True)
   Commands .pasidAdd 0xA none (fun _ a s => fits a s)
     (fun _ a s => (State.modPart
       { s with ctxs := tset (ctxKey (a 0) (a 1)) (tget s.ctxs (ctxKey (a 0) (a 1)) Ctx.new) s.ctxs } (a 0)
       fun p => { p with pasids := insertNat (a 1) p.pasids, revoked := p.revoked.filter (· != a 1) }, [])) ∧
   Commands .pasidRevoke 0xB none (fun _ a s => fits a s)
     (fun _ a s => (s.modPart (a 0) fun p =>
       { p with pasids := p.pasids.filter (· != a 1), revoked := insertNat (a 1) p.revoked }, []))) ∧
  Commands .energySet 0x13 none
    (fun _ a s => a 0 < 16 ∧ a 1 < 2 ^ 20 ∧ ofPart s (a 0) fun p => a 1 ∈ p.pasids)
    (fun _ a s =>
      let k := ctxKey (a 0) (a 1)
      ({ s with ctxs := tset k { tget s.ctxs k Ctx.new with budget := some (arg64 a 2) } s.ctxs }, []))

/-- Keys, ranges, worlds, quotes, patches, replicas and information: each command completes with its effect, and is
declined where the manual says so (R76, R78, R81 to R83, R88, R178, R181). -/
def Obligations.KeyRangeAndPatchCommands : Prop :=
  (let fits := fun (a : Nat → Nat) (s : State) => a 0 < 16 ∧ 1 ≤ a 1 ∧ a 1 < 4096 ∧ (ofPart s (a 0) fun _ => True)
   Commands .keySet 0xC none
     (fun link a s => fits a s ∧ s.linkIde link = true ∧ ∀ o ws, tget? (a 1) s.fw.keys = some (o, ws) → o = a 0)
     (fun _ a s =>
       let ws := (List.range 16).map fun k => BitVec.ofNat 32 (a (2 + k))
       ({ s with fw := { s.fw with keys := tset (a 1) (a 0, ws) s.fw.keys } }, [])) ∧
   Declines .keySet 0xC none 5 (fun link a s => fits a s ∧ s.linkIde link = false) ∧
   Declines .keySet 0xC none 3 (fun link a s => fits a s ∧ s.linkIde link = true ∧
     ∃ o ws, tget? (a 1) s.fw.keys = some (o, ws) ∧ o ≠ a 0)) ∧
  Commands .keyClear 0xD none
    (fun link a s => 1 ≤ a 0 ∧ a 0 < 4096 ∧ thas (a 0) s.fw.keys = true ∧ s.linkIde link = true)
    (fun _ a s => ({ s with fw := { s.fw with keys := terase (a 0) s.fw.keys } }, [])) ∧
  Declines .keyClear 0xD none 5
    (fun link a s => 1 ≤ a 0 ∧ a 0 < 4096 ∧ thas (a 0) s.fw.keys = true ∧ s.linkIde link = false) ∧
  (let entry := fun (a : Nat → Nat) => rangeOf fun k => a (2 + k)
   let fits := fun (a : Nat → Nat) => a 0 < 16 ∧ a 1 < 48 ∧ (rangeClean fun k => a (2 + k)) = true
   let keyed := fun (a : Nat → Nat) (s : State) => (entry a).key = 0 ∨ ∃ ws, tget? (entry a).key s.fw.keys = some (a 0, ws)
   CommandsTo .rangeSet 0xE none
     (fun _ a s => fits a ∧ keyed a s ∧ ofPart s (a 0) fun p => (entry a).valid = true → rangeFits s (a 0) p (entry a) = true ∧
       ∀ k o, p.ranges[k]? = some o → k ≠ a 1 → o.valid = true → (entry a).glast < o.gbase ∨ o.glast < (entry a).gbase)
     (fun a s t rs => ∃ p p', s.part? (a 0) = some p ∧ t.part? (a 0) = some p' ∧ rs = [(p.rangeGen + 1) % 2 ^ 32] ∧
       p'.rangeGen = (p.rangeGen + 1) % 2 ^ 32 ∧ p'.ranges = p.ranges.set (a 1) (entry a) ∧
       (∀ e ∈ t.tlb, e ∈ s.tlb ∧ (e.part = a 0 → e.range ≠ a 1 ∧ e.sideRange ≠ a 1)) ∧ t.mem = s.mem) ∧
   Declines .rangeSet 0xE none 2 (fun _ a s => fits a ∧ ¬ keyed a s) ∧
   Declines .rangeSet 0xE none 2 (fun _ a _ => fits a ∧ (entry a).valid = true ∧ rangeSpan (entry a) = false) ∧
   Declines .rangeSet 0xE none 4 (fun _ a s => fits a ∧ keyed a s ∧ ((entry a).valid = true → rangeSpan (entry a) = true) ∧
     s.part? (a 0) = none) ∧
   Declines .rangeSet 0xE none 2 (fun _ a s => fits a ∧ ofPart s (a 0) fun p => (entry a).valid = true ∧
     ((∃ q, q < 16 ∧ q ∉ p.quarters ∧ (entry a).reaches q = true) ∨
      ∃ k o, p.ranges[k]? = some o ∧ k ≠ a 1 ∧ o.valid = true ∧ (entry a).gbase ≤ o.glast ∧ o.gbase ≤ (entry a).glast))) ∧
  (let fits := fun (a : Nat → Nat) => a 2 < 2 ∧ ((a 0 = 0 ∧ a 1 < 16) ∨ (a 0 = 1 ∧ a 1 < 64) ∨ (a 0 = 2 ∧ a 1 < 1024))
   let others := fun (a : Nat → Nat) (s : State) => s.fw.secure.filter (· != (a 0, a 1))
   Commands .setWorld 0xF none (fun _ a s => fits a ∧ s.blockAssigned (a 0) (a 1) = false)
     (fun _ a s => ({ s with fw := { s.fw with secure := if a 2 = 1 then others a s ++ [(a 0, a 1)] else others a s } }, [])) ∧
   Declines .setWorld 0xF none 3 (fun _ a s => fits a ∧ s.blockAssigned (a 0) (a 1) = true)) ∧
  Commands .quote 0x11 none (fun _ a s => a 0 = 0xFF ∨ (a 0 < 16 ∧ ofPart s (a 0) fun _ => True))
    (fun link a s =>
      let body := quoteBody s a
      (s.writeNow none 0 (hostAddr link (arg64 a 9 % 2 ^ 56)) (body ++ (List.range 7856).map (Config.quoteSignature body)) false,
       [8056])) ∧
  (∀ (s : State) (a : Nat → Nat), (quoteBody s a).length = 200 ∧
    (∀ k, k < 8 → fieldOf (quoteBody s a) (4 * k) 4 = a (1 + k) % 2 ^ 32) ∧
    fieldOf (quoteBody s a) 96 4 = s.fw.fusedLevel % 2 ^ 32 ∧ fieldOf (quoteBody s a) 100 4 = a 0 % 2 ^ 32) ∧
  (let image := fun (link : Nat) (a : Nat → Nat) (s : State) => memBytes s.mem (hostAddr link (arg64 a 0 % 2 ^ 56)) (a 2)
   let good := fun (link : Nat) (a : Nat → Nat) (s : State) =>
     Config.signatureHolds (image link a s) = true ∧ s.fw.fusedLevel ≤ Config.patchLevel (image link a s) ∧
     ∀ b ∈ hostBlocks (hostAddr link (arg64 a 0 % 2 ^ 56)) (a 2), (s.returnedTo .ring b.1).getD false = false
   ∀ s link l, Commanded s link 0x12 none l → 1 ≤ argWord l 2 → argWord l 2 ≤ 2 ^ 20 →
     let level := Config.patchLevel (image link (argWord l) s)
     let ends := fun (t : State) status rs => exec (.patch link) s = .next ((t.complete link status rs).dropReturned .ring)
     (s.patchNeeds link ≠ [] → exec (.patch link) s =
       .next ((s.patchNeeds link).foldl (fun s x => s.askHost .ring none 0 0 x.1 x.2) s)) ∧
     (s.patchNeeds link = [] → good link (argWord l) s → ends { s with fw := { s.fw with
       patch := some (level, image link (argWord l) s), fusedLevel := level } } 0 [level]) ∧
     (s.patchNeeds link = [] → ¬ good link (argWord l) s → ends s 6 [])) ∧
  Commands .replicaSet 0x14 none
    (fun _ a s => a 0 < 16 ∧ a 1 < 1024 ∧ a 2 < 16 ∧ ofPart s (a 0) fun p => p.det ≠ none)
    (fun _ a s => (s.modPart (a 0) fun p =>
      { p with replica := some ⟨a 1, a 2, a 3, arg64 a 4, a 6, 0, [], []⟩ }, [])) ∧
  Declines .replicaSet 0x14 none 2 (fun _ a s => a 0 < 16 ∧ ofPart s (a 0) fun p => p.det = none) ∧
  Commands .info 0x15 none (fun _ _ _ => True) (fun _ _ s => (s, [s.fw.packageId, s.fw.fusedLevel, quarterMask (tkeys s.parts),
    quarterMask ((List.range 16).filter fun q => !s.ownedQuarters.contains q)]))

/-- RESET by its scopes: a group, a team, a core, a quarter, a partition, a match engine, a Delow port and a PCIe function,
and the retirement of a core's host. What it ends it counts in its event and result words (R45, R51, R86, R87, R130,
R309). -/
def Obligations.ResetCommands : Prop :=
  (∀ scope target uid (s : State) key g, s.groupOf uid = some (key, g) →
    ((∀ x ∈ s.taskGroups key g, s.opPc x.1 = none) → s.resetTask scope target uid =
      (s.taskFault key g ⟨0x26, 0, 0, scope, target, 0⟩ (g.lane (lowLane g.live)).pc, 1)) ∧
    ∀ before k h after pc, s.taskGroups key g = before ++ (k, h) :: after → (∀ x ∈ before, s.opPc x.1 = none) →
      s.opPc k = some pc → s.resetTask scope target uid = (s.taskFault k h ⟨0x26, 0, 0, scope, target, 1⟩ pc, 1)) ∧
  (let key := fun (a : Nat → Nat) => a 1 * 256 * 48 + a 2
   let others := fun (s : State) (k : Nat) (g : Group) => s.opPc k = none ∧ (∀ ms, g.halt ≠ .aborted ms) ∧
     ∃ t, g.kind = .team ∧ s.teamOf g = some t ∧ 1 < t.open_
   Commands .resetGroup 0x10 (some 0)
     (fun _ a s => (resetMet (256 * 48) 0 a s fun _ => True) ∧ ∃ g, s.anyGroup (key a) = some g ∧ ¬ others s (key a) g)
     (fun _ a s =>
       let r := s.resetTask 0 (a 2) ((s.anyGroup (key a)).elim 0 (·.uid))
       resetEnds r.1 (a 1) 0 (a 2) r.2 0) ∧
   Commands .resetGroup 0x10 (some 0)
     (fun _ a s => (resetMet (256 * 48) 0 a s fun _ => True) ∧ ∃ g, s.anyGroup (key a) = some g ∧ others s (key a) g)
     (fun _ a s => match s.anyGroup (key a) with
       | none => (s, [])
       | some g =>
         let s1 := (s.removeGroup (key a) g).modTeam (g.team.getD 0) fun t => { t with open_ := t.open_ - 1 }
         resetEnds (s1.barriers g.team) (a 1) 0 (a 2) 0 0) ∧
   Declines .resetGroup 0x10 (some 0) 4 (fun _ a s => (resetMet (256 * 48) 0 a s fun _ => True) ∧ s.anyGroup (key a) = none)) ∧
  (let team := fun (a : Nat → Nat) (s : State) => s.teams.find? fun (_, t) => t.part == a 1 && t.core == a 2
   Commands .resetTeam 0x10 (some 1)
     (fun _ a s => (resetMet 256 0 a s fun p => a 2 < 16 * p.quarters.length) ∧ team a s ≠ none)
     (fun _ a s =>
       let serial := (team a s).map (·.1)
       let r := s.resetTasks 1 (a 2) ((s.everyGroup.filter fun x => x.2.team == serial).map (·.2.uid))
       let q := r.1.resetQueued (a 1) 1 (a 2) fun _ t => t.team == serial
       resetEnds q.1 (a 1) 1 (a 2) (r.2 + q.2) 0) ∧
   Declines .resetTeam 0x10 (some 1) 4 (fun _ a s => (resetMet 256 0 a s fun _ => True) ∧ team a s = none)) ∧
  Commands .resetCore 0x10 (some 2)
    (fun _ a s => (resetMet 256 2 a s fun p => a 2 < 16 * p.quarters.length) ∧ bit (a 3) 1 = false)
    (fun _ a s =>
      let r := s.resetCores (a 1) 2 (a 2) [a 1 * 256 + a 2]
      resetEnds r.1 (a 1) 2 (a 2) r.2 0) ∧
  CommandsTo .resetCore 0x10 (some 2)
    (fun _ a s => bit (a 3) 1 = true ∧ resetMet 256 2 a s fun p =>
      a 2 < 16 * p.quarters.length ∧ p.det ≠ none ∧ p.newHost (a 2) ≠ none)
    (fun a s t rs => rs = [0, 0] ∧ t.groups = s.groups ∧ t.cores = s.cores ∧ ∃ p p' x, s.part? (a 1) = some p ∧ t.part? (a 1) = some p' ∧
      p.newHost (a 2) = some x ∧ p'.retired = insertNat (p.hostOf (a 2)) p.retired ∧
      ∀ v, v < 16 * p.quarters.length → p'.hostOf v = if p.hostOf v = p.hostOf (a 2) then x else p.hostOf v) ∧
  Declines .resetCore 0x10 (some 2) 2 (fun _ a s => bit (a 3) 1 = true ∧ resetMet 256 2 a s fun p => p.det = none) ∧
  Declines .resetCore 0x10 (some 2) 3 (fun _ a s => bit (a 3) 1 = true ∧ resetMet 256 2 a s fun p =>
    a 2 < 16 * p.quarters.length ∧ p.det ≠ none ∧ p.newHost (a 2) = none) ∧
  (∀ (p : Part) v x, p.newHost v = some x → x ≠ p.hostOf v ∧ x ∉ p.retired ∧
    ∃ u ∈ p.vcores, dieOf (p.quarterOf u) = dieOf (p.quarterOf v) ∧ p.ownHost u = x) ∧
  Commands .resetQuarter 0x10 (some 3) (fun _ a s => resetMet 16 0 a s fun p => a 2 ∈ p.quarters)
    (fun _ a s =>
      let cks := (s.part? (a 1)).elim [] fun p => (p.vcores.filter fun v => p.quarterOf v == a 2).map (a 1 * 256 + ·)
      let r := s.resetCores (a 1) 3 (a 2) cks
      let d := r.1.dropLaunches (a 1) 3 (a 2) (fun l => l.quarter == a 2) fun v => cks.contains (a 1 * 256 + v)
      let e := d.1.dropEngine (a 2)
      resetEnds e.1 (a 1) 3 (a 2) (r.2 + d.2) e.2) ∧
  (∀ (s : State) part scope target mine here p p', s.part? part = some p →
    (s.dropLaunches part scope target mine here).1.part? part = some p' →
    p'.launches = p.launches.filter (fun l => !mine l) ∧
    ∀ k ts g i, p'.placing = some (k, ts) → tget? k p.grids = some g → i ∈ ts → here (g.map.getD i 0) = false) ∧
  CommandsTo .resetPartition 0x10 (some 4) (fun _ a s => a 1 < 16 ∧ a 3 = 0 ∧ ofPart s (a 1) fun _ => True)
    (fun a s t rs => rs.length = 2 ∧ ∃ p p', s.part? (a 1) = some p ∧ t.part? (a 1) = some p' ∧ p'.halted = false ∧
      p'.launches = [] ∧ p'.placing = none ∧ p'.windows = [] ∧ p'.pending = [] ∧ p'.retries = [] ∧ p'.reservations = [] ∧
      p'.quarters = p.quarters ∧ p'.ranges = p.ranges ∧ t.fw = s.fw) ∧
  Commands .resetMatchEngine 0x10 (some 5) (fun _ a s => resetMet 16 1 a s fun p => a 2 ∈ p.quarters)
    (fun _ a s => resetEnds (s.recoverEngine (a 2) (bit (a 3) 0)) (a 1) 5 (a 2) 0
      (if bit (a 3) 0 then ((s.engine (a 2)).slots.map fun x => x.2.cands.length).sum else 0)) ∧
  Commands .resetDelowPort 0x10 (some 6)
    (fun _ a s => (resetMet 64 0 a s fun _ => True) ∧ (s.dport (a 2)).owner = some (a 1))
    (fun _ a s => resetEnds (s.portReset (a 2)) (a 1) 6 (a 2) 0 0) ∧
  Declines .resetDelowPort 0x10 (some 6) 3
    (fun _ a s => (resetMet 64 0 a s fun _ => True) ∧ (s.dport (a 2)).owner ≠ some (a 1)) ∧
  Commands .resetPcieFunction 0x10 (some 7)
    (fun _ a s => (resetMet 2 0 a s fun _ => True) ∧ s.power.released.getD (a 2) true = true)
    (fun _ a s => resetEnds (s.linkDrop (a 2) 3 ((s.links[a 2]?).elim false (·.up))) (a 1) 7 (a 2) 0 0) ∧
  Declines .resetPcieFunction 0x10 (some 7) 3
    (fun _ a s => (resetMet 2 0 a s fun _ => True) ∧ s.power.released.getD (a 2) true = false)

/-! Power, links and errors. -/

/-- Power comes and goes, the causes of a clock step and the step itself, the timer and the energy windows (R31 to R35, R38
to R40, R45, R77). -/
def Obligations.PowerClockAndTimerSteps : Prop :=
  (∀ s : State, s.power.on = true → exec .powerOn s = .next s) ∧
  (∀ s : State, s.power.on = false → Reaches (exec .powerOn s) fun t =>
    t.power.on = lanesGood ∧ t.power.released = [false, false] ∧ t.timer = 0 ∧ t.parts = [] ∧ t.groups = [] ∧
    (∀ a, t.byte a = 0) ∧ t.fw.keys = [] ∧ t.fw.patch = none ∧ t.fw.running = none ∧ t.fw.fusedLevel = s.fw.fusedLevel ∧
    (lanesGood = true → t.fw.available = Config.romGood) ∧ (lanesGood = false → t.clocksRun = false)) ∧
  (lanesGood = true ↔ ∀ k, k < 4 → Config.failedLanes k ≤ Config.spareLanes k) ∧
  (∀ s : State, Reaches (exec .pwrfail s) fun t =>
    t.out = s.out ++ [.pwrfail] ∧ t.clocksRun = false ∧ step t = .fault .clocksStopped ∧ t.timer = 0 ∧ t.parts = [] ∧
    t.groups = [] ∧ (∀ a, t.byte a = 0) ∧ t.fw.keys = [] ∧ t.fw.patch = none ∧ t.fw.fusedLevel = s.fw.fusedLevel) ∧
  (∀ s : State, s.power.released.getD 0 true = true → exec .perstNReleaseLink0 s = .next s) ∧
  (∀ s : State, s.power.released.getD 0 true = false → Reaches (exec .perstNReleaseLink0 s) fun t =>
    t.parts = [] ∧ t.groups = [] ∧ t.links = State.reset.links ∧ t.dports = State.reset.dports ∧ t.fw.keys = [] ∧
    t.fw.secure = [] ∧ t.fw.fusedLevel = s.fw.fusedLevel ∧ t.timer = s.timer ∧
    t.power.released = s.power.released.set 0 true ∧ t.power.step = State.reset.power.step ∧
    t.power.hottest = s.power.hottest ∧ t.power.watts = s.power.watts ∧ t.power.thermtrip = s.power.thermtrip ∧
    t.power.on = (s.power.on && lanesGood) ∧ (lanesGood = true → t.fw.available = Config.romGood) ∧
    (lanesGood = true → Config.romGood = true →
      ∀ level bs, s.fw.patch = some (level, bs) →
        let good := Config.signatureHolds bs && decide (s.fw.fusedLevel ≤ level)
        t.fw.patch = (if good then s.fw.patch else none) ∧ t.fw.running = (if good then s.fw.patch else none))) ∧
  (∀ s : State, exec .perstNAssertLink0 s = .next (State.linkDrop
    { s with power := { s.power with released := s.power.released.set 0 false } } 0 3 ((s.links[0]?).elim false (·.up)))) ∧
  (∀ s : State, exec (.perstNLink1 true) s = .next (State.linkDrop
    { s with power := { s.power with released := s.power.released.set 1 false } } 1 3 ((s.links[1]?).elim false (·.up)))) ∧
  (∀ s : State, exec (.perstNLink1 false) s =
    .next { s with power := { s.power with released := s.power.released.set 1 true } }) ∧
  (∀ s : State, Reaches (exec .thermtrip s) fun t => t = { s with
    power := { s.power with thermtrip := true }, out := s.out ++ [.thermtrip] } ∧ t.clocksRun = false) ∧
  (∀ p : Power, p.active = true ↔ 6000 < p.watts ∨ 8 * 105 < p.hottest) ∧
  (let last := fun (s : State) => if s.power.active then s.timer else s.power.lastCause
   (∀ watts (s : State), watts ≤ 6000 → exec (.powerLimitExceeded watts) s =
     .next { s with power := { s.power with watts := watts, lastCause := last s } }) ∧
   (∀ eighths (s : State), eighths ≤ 8 * 105 → exec (.thermalLimit eighths) s =
     .next { s with power := { s.power with hottest := eighths, lastCause := last s } }) ∧
   ∀ eighths (s : State), eighths ≤ 8 * 115 → exec (.thermalHardLimit eighths) s =
     .next { s with power := { s.power with hottest := eighths, lastCause := last s } }) ∧
  (let calls := fun (i : Instr) (s : State) (p : Power) (new bits : Nat) =>
     (s.power.changing = none → new ≠ s.power.step → exec i s = .next { s with
       power := { p with lastCause := s.timer, changing := some (new, bits, s.clock + 64) } }) ∧
     (s.power.changing = none → new = s.power.step → exec i s = .next { s with power := { p with lastCause := s.timer } })
   (∀ watts (s : State), 6000 < watts → s.power.step ≤ 3 →
     calls (.powerLimitExceeded watts) s { s.power with watts := watts } (min 3 (s.power.step + 1)) 1) ∧
   (∀ eighths (s : State), 8 * 105 < eighths → s.power.step ≤ 3 →
     calls (.thermalLimit eighths) s { s.power with hottest := eighths } (min 3 (s.power.step + 1)) 2) ∧
   (∀ eighths (s : State), 8 * 115 < eighths →
     calls (.thermalHardLimit eighths) s { s.power with hottest := eighths } 3 4) ∧
   ∀ s : State, calls .currentLimit s s.power 3 8) ∧
  (∀ (s : State) new b done, s.power.changing = some (new, b, done) → done ≠ s.clock + 64 → s.power.pending = none →
    exec .currentLimit s = .next { s with power := { s.power with lastCause := s.timer, pending := some (3, 8) } }) ∧
  (∀ (s : State) new b, s.power.changing = some (new, b, s.clock + 64) → new ≤ 3 →
    Reaches (exec .currentLimit s) fun t => (s.power.step = 3 → t.power.changing = none) ∧
      (s.power.step ≠ 3 → ∃ b', t.power.changing = some (3, b', s.clock + 64) ∧ bit b' 3 = true)) ∧
  (∀ s : State, 0 < s.power.step → s.power.changing = none → s.power.active = false → s.power.lastCause + 4000 ≤ s.timer →
    s.power.lastUp + 4000 ≤ s.timer → exec .stepRecovery s = .next { s with power := { s.power with changing := some (s.power.step - 1, 16, s.clock + 64) } }) ∧
  (∀ s : State, (s.power.active = true ∨ s.timer < s.power.lastCause + 4000 ∨ s.timer < s.power.lastUp + 4000) →
    exec .stepRecovery s = .next s) ∧
  (∀ (s : State) new b done, s.power.changing = some (new, b, done) → s.power.pending = none →
    exec .stepChangeComplete s = .next (State.sysPostAll
      { s with power := { s.power with step := new, changing := none, lastUp := if new < s.power.step then s.timer else s.power.lastUp } }
      teleStream 0x0010 [new, s.power.step, b, s.power.hottest, s.power.watts])) ∧
  (∀ (s : State) new b done, s.power.changing = some (new, b, done) → Reaches (exec .stepChangeComplete s) fun t =>
    (∃ p' : Power, p'.step = new ∧ t = State.sysPostAll { s with power := p' } teleStream 0x0010
      [new, s.power.step, b, s.power.hottest, s.power.watts]) ∧
    t.power.step = new ∧ t.power.pending = none ∧ t.groups = s.groups ∧ t.teams = s.teams ∧ t.timer = s.timer ∧
    ∀ n b', s.power.pending = some (n, b') → n ≠ new → t.power.changing = some (n, b', s.clock + 64)) ∧
  (∀ s : State, exec .packageTimerTick s = .next { s with timer := (s.timer + 1) % 2 ^ 48 }) ∧
  (∀ s : State, Reaches (exec .energyWindowEnd s) fun t =>
    (∀ k c, tget? k s.ctxs = some c → ∃ c', tget? k t.ctxs = some c' ∧ c'.energy = 0 ∧
      c'.throttle = (match c.budget with
        | none => 0
        | some b => if b < c.energy / 100 then min 3 (c.throttle + 1) else 0)) ∧
    t.groups = s.groups ∧ t.power = s.power) ∧
  (∀ (s : State) k c, s.ctxs = [(k, c)] → exec .energyWindowEnd s = .next { s.sysPost (k / 2 ^ 20) teleStream 0x0011
      [c.energy / 100 % 2 ^ 32, c.energy / 100 / 2 ^ 32 % 2 ^ 32, k % 2 ^ 20] with
    ctxs := [(k, { c with throttle := if c.over then c.rate else 0, energy := 0 })] })

/-- The PCIe links and the die links: a link that goes down, comes up or has its function reset, answers of the host, and
replays; and an event that the part posts itself (R41, R43, R45, R48, R66, R74, R89). -/
def Obligations.LinkSteps : Prop :=
  (∀ link (s : State), exec (.pcieLinkDown link) s = .next (s.linkDrop link 0 false)) ∧
  (∀ link (s : State), exec (.hotReset link) s = .next (s.linkDrop link 3 ((s.links[link]?).elim false (·.up)))) ∧
  (∀ link (s : State), exec (.functionLevelReset link) s = .next (s.linkDrop link 3 ((s.links[link]?).elim false (·.up)))) ∧
  (∀ link state up (s : State) l, s.links[link]? = some l → ∃ l', (s.linkDrop link state up).links[link]? = some l' ∧
    l'.up = up ∧ l'.enabled = false ∧ l'.ide = (up && l.ide) ∧ l'.reads = [] ∧ l'.ats = [] ∧ l'.writes = [] ∧
    l'.mailbox = l.mailbox ∧
    (l.collOps = [] → l'.returned = l.returned ++ l.reads.map fun q => (q.waiter, q.addr, true))) ∧
  (∀ link state up (s : State) l op c, s.links[link]? = some l → l.collOps = [op] → tget? op s.colls = some c →
    (∀ x ∈ s.colls, x.2.result = none) → tget? op (s.linkDrop link state up).colls = none) ∧
  (∀ link state up (s : State) l p po n st, s.links[link]? = some l → l.reads = [] → l.ats = [] → l.invals = [] →
    l.ports = [(n, po)] → po.en = true → po.part = p → s.stream? p (16 * p + 4) = some st →
    s.linkDrop link state up = State.sysPost
      { s with links := s.links.set link { l with up := up, enabled := false, ide := up && l.ide, writes := [] } } p
      errStream 0x0014 [0, link, state, 0, l.writes.length]) ∧
  (∀ link (s : State), exec (.pcieLinkUp link false) s = .next
    (State.linkEvent { s with
      free := s.free + 1
      links := lmod link (fun l => { l with up := true, enabled := true, ide := Config.freeBool s.free }) s.links } link 2 0 0)) ∧
  (∀ link (s : State), exec (.pcieLinkUp link true) s = .next (s.linkEvent link 1 0 0)) ∧
  (∀ link tag addr rd wr (s : State) l q, s.links[link]? = some l → (l.ats.find? fun x => x.tag == tag) = some q →
    Reaches (exec (.atsCompletion link tag addr rd wr) s) fun t => ∃ l', t.links[link]? = some l' ∧
      l'.ats = l.ats.filter (fun x => x.tag != tag) ∧ l'.reads = l.reads ∧
      (⟨q.pasid, q.page, addr - addr % 2 ^ 16, rd, wr⟩ : AtcEntry) ∈ l'.atc ∧
      ∀ key, q.waiter = .group key → t.remoteBusy q.waiter = false → ∀ g, s.group? key = some g →
        t.group? key = some { g with lanes := g.lanes.map fun l => if l.wait = .remote then { l with wait := .none } else l }) ∧
  (∀ link pasid va pages (s : State) l, s.links[link]? = some l →
    Reaches (exec (.atsInvalidation link pasid va pages) s) fun t => ∃ l', t.links[link]? = some l' ∧
      (∀ e ∈ l'.atc, e ∈ l.atc ∧ ¬ (e.pasid = pasid ∧ va / 2 ^ 16 ≤ e.page ∧ e.page < va / 2 ^ 16 + pages)) ∧
      let hit := fun (e : AtcEntry) => e.pasid == pasid && decide (va / 2 ^ 16 ≤ e.page) && decide (e.page < va / 2 ^ 16 + pages)
      let frames := (l.atc.filter hit).map fun e => hostAddr link e.addr / 2 ^ 16
      let used := (∃ q ∈ l.reads, q.addr / 2 ^ 16 ∈ frames) ∨ (∃ w ∈ l.writes, w.phys / 2 ^ 16 ∈ frames) ∨
        s.bufferedAt frames = true
      (used → (pasid, va, pages, frames) ∈ l'.invals) ∧
      (l.invals = [] → (used → t.out = s.out) ∧ (¬ used → l'.invals = [] ∧ t.out = s.out ++ [.atsDone link pasid va]))) ∧
  (∀ link tag data (s : State) l q, s.links[link]? = some l → (l.reads.find? fun x => x.tag == tag) = some q →
    data.length = q.len → Reaches (exec (.hostReadCompletion link tag data) s) fun t =>
      memBytes t.mem q.addr q.len = data ∧ ∃ l', t.links[link]? = some l' ∧ l'.reads = l.reads.filter (fun x => x.tag != tag) ∧
      l'.returned = l.returned ++ [(q.waiter, q.addr, false)] ∧
      ∀ a, a < q.addr ∨ q.addr + q.len ≤ a → t.byte a = s.byte a) ∧
  (∀ n (s : State) d, s.dlinks[n]? = some d → exec (.dieLinkCrcError n) s = .next
    { s with dlinks := s.dlinks.set n { d with replays := min (d.replays + 1) (2 ^ 32 - 1) } }) ∧
  (∀ s : State, Reaches (exec .dieLinkReplayWindow s) fun t =>
    t.dlinks = s.dlinks.map (fun d => { d with replays := 0 }) ∧ t.groups = s.groups) ∧
  (∀ (s : State) n d, s.dlinks = List.replicate n ⟨0, 0⟩ ++ [d] → 0 < d.replays → exec .dieLinkReplayWindow s = .next
    { s.sysPostAll teleStream 0x001B [n, d.replays, d.spares] with
      dlinks := s.dlinks.map fun d => { d with replays := 0 } }) ∧
  (∀ part kind cls payload (s : State) p st, s.part? part = some p → s.stream? part (part * 16 + kind) = some st → kind < 5 →
    p.home < 16 → st.lgent = 12 → st.tail < 2 ^ 40 → (∀ l ∈ s.links, l.writes = []) →
    let st' := s.rebased part (part * 16 + kind) st (st.tail + 1)
    let t := s.sysPost part kind cls payload
    (st.tail - st'.low = 4096 → t = s.modPart part fun p => { p with lost := true }) ∧
    (st.tail - st'.low ≠ 4096 →
      memBytes t.mem (sliceAddr p.home (0x0C00000 + 0x40000 * kind + 64 * (st.tail % 4096))) 64 =
        eventBytes cls s.timer 2 (part * 16 + kind) st.tail payload ∧
      ∃ st2, t.stream? part (part * 16 + kind) = some st2 ∧ st2.tail = st.tail + 1 ∧ st2.last = some s.timer))

/-- Delow ports: a flit's 256 bytes hold its fields; one in order is acknowledged and its buffer returned, a bad one is
resent for, counted or discarded; a flit that has gone 2 µs without acknowledgement is resent with those behind it, and the
eighth resend in a row retrains; a retrain, a reset and a port that comes up (R49 to R53). -/
def Obligations.DelowPortSteps : Prop :=
  let sentAgain := fun (s : State) (p : Nat) =>
    (s.dport p).replay.map fun x => Out.flit p (flitUnit { x.flit with ack := (s.dport p).got.getD 0 })
  (∀ p bs (s : State), ((s.dport p).up = false ∨ (s.dport p).retraining = true) → exec (.delowFlitReceive p bs) s = .next s) ∧
  (∀ p bs (s : State), (s.dport p).up = true → (s.dport p).retraining = false →
    (Config.flitFec bs = none → exec (.delowFlitReceive p bs) s = .next (s.resend p)) ∧
    ∀ body, Config.flitFec bs = some body → exec (.delowFlitReceive p bs) s = .next (s.flitTaken p (flitOf body))) ∧
  (∀ f : Flit, f.type < 16 → f.vc < 8 → f.part < 16 → f.dpkg < 1024 → f.spkg < 1024 → f.seq < 4096 → f.ack < 4096 →
    f.credits < 256 → f.cvc < 8 → f.sectors < 8 → f.tag < 2 ^ 16 → f.reserved < 2 ^ 43 → f.data.length = 32 * f.sectors →
    flitOf (flitBody f) = f ∧ (flitBody f).length = 240 ∧ (flitUnit f).length = 256 ∧ (flitUnit f).take 240 = flitBody f) ∧
  (∀ p (f : Flit) (s : State),
    (flitMalformed f = true → s.flitTaken p f = s.setDport p { s.dport p with malformed := (s.dport p).malformed + 1 }) ∧
    (flitMalformed f = false → ∀ n, (s.dport p).owner = some n → n ≠ f.part → s.flitTaken p f =
      (s.setDport p { s.dport p with foreign := (s.dport p).foreign + 1 }).sysPost n errStream 0x0014 [1, p, 2, 0, 0]) ∧
    (flitMalformed f = false → (s.dport p).owner = some f.part → f.seq < 4096 →
      let want := (s.dport p).got.elim 0 fun g => (g + 1) % 4096
      let ahead := (f.seq + 4096 - want) % 4096
      (0 < ahead → ahead ≤ 2048 → s.flitTaken p f = s.resend p) ∧ (2048 < ahead → s.flitTaken p f = s) ∧
      (f.seq = want → (s.flitTaken p f).mem = s.mem ∧ ((s.flitTaken p f).dport p).got = some f.seq ∧
        ∀ q, q ≠ p → (s.flitTaken p f).dport q = s.dport q))) ∧
  (∀ f : Flit, flitMalformed f = true ↔ f.reserved ≠ 0 ∨ 6 ≤ f.type ∨ 4 ≤ f.vc ∨ 4 ≤ f.cvc ∨ 8 ≤ f.sectors) ∧
  (∀ p (s : State), ((s.dport p).replay = [] → exec (.delowAckTimeout p) s = .next s) ∧
    ∀ x rest, (s.dport p).replay = x :: rest →
      exec (.delowAckTimeout p) s = .next (if x.at_ + 8 ≤ s.timer then s.resend p else s)) ∧
  (∀ p (s : State), (s.dport p).up = true → (s.dport p).retraining = false → (s.dport p).replay ≠ [] →
    (s.resend p).dport p = { s.dport p with
      replays := (s.dport p).replays + 1, retraining := decide (8 ≤ (s.dport p).replays + 1)
      replay := (s.dport p).replay.map fun x => { x with at_ := s.timer } } ∧
    (s.resend p).out = s.out ++ sentAgain s p) ∧
  (∀ p ok (s : State), (s.dport p).retraining = false → exec (.delowRetrainComplete p ok) s = .next s) ∧
  (∀ p (s : State), (s.dport p).retraining = true → exec (.delowRetrainComplete p false) s = .next (s.portReset p)) ∧
  (∀ p (s : State), (s.dport p).retraining = true → (s.dport p).waiting = [] →
    Reaches (exec (.delowRetrainComplete p true) s) fun t => t.dport p = { s.dport p with
        retraining := false, replays := 0, replay := (s.dport p).replay.map fun x => { x with at_ := s.timer } } ∧
      t.out = s.out ++ sentAgain s p) ∧
  (∀ p (s : State), (∀ x ∈ (s.dport p).replay, x.carries ≠ 3) → ∀ n, (s.dport p).owner = some n →
    let d := s.dport p
    let count := fun k => (d.replay.filter fun x => x.carries == k).length
    s.portReset p = (s.setDport p { d with up := false, nextSeq := 0, got := none, credits := [0, 0, 0, 0], replay := [],
                                           replays := 0, retraining := false }).sysPost n errStream 0x0014
      [1, p, 3, count 1, count 2]) ∧
  (∀ p (s : State), (s.dport p).waiting = [] → ∀ n, (s.dport p).owner = some n → exec (.delowPortUp p) s = .next
    ((s.setDport p { s.dport p with up := true, retraining := false }).sysPost n errStream 0x0014 [1, p, 2, 0, 0])) ∧
  (∀ part d a (s : State) pt p, s.part? part = some pt → s.routePort part d a = some p →
    p < 64 ∧ bit (tget pt.routes d 0) p = true ∧ (s.dport p).up = true) ∧
  (∀ part d a (s : State) pt, s.part? part = some pt →
    (s.routePort part d a = none ↔ ∀ p, p < 64 → bit (tget pt.routes d 0) p = true → (s.dport p).up = false))

/-- Errors stay in their boundary and are reported on the owner's error stream; corrected ones are counted; a twin's digest
is compared when both are known, and a difference or a late digest halts the partition (R84, R85, R88, R130). -/
def Obligations.ErrorAndReplicaSteps : Prop :=
  (∀ cls target loc (s : State), Reaches (exec (.correctedError cls target loc) s) fun t =>
    tget t.corrected (locKey cls target loc) 0 = min (tget s.corrected (locKey cls target loc) 0 + 1) (2 ^ 32 - 1) ∧
    { t with corrected := s.corrected } = s) ∧
  (let told := fun (s : State) (n cls target loc : Nat) =>
     s.sysPost n errStream 0x0016 (cls :: s.errorWords cls target loc ++ [tget s.corrected (locKey cls target loc) 0])
   (∀ q loc (s : State) n, s.partOfQuarter q = some n →
     (isLocal loc = false → exec (.uncorrectableError 1 q loc) s = .next (told (s.poisonReg loc) n 1 q loc)) ∧
     (isLocal loc = true → exec (.uncorrectableError 1 q loc) s = .next (told (s.setPoison loc true) n 1 q loc)) ∧
     exec (.uncorrectableError 2 q loc) s = .next (told (s.setPoison loc true) n 2 q loc) ∧
     exec (.uncorrectableError 3 q loc) s = .next (told (s.recoverEngine q false) n 3 q loc)) ∧
   (∀ p loc (s : State) n, p < 64 → (s.dport p).owner = some n → exec (.uncorrectableError 4 p loc) s =
     .next (told (s.setDport p { s.dport p with retraining := true }) n 4 p loc)) ∧
   (∀ k loc (s : State), exec (.uncorrectableError 4 (64 + k) loc) s = .next
     (((s.links[k]?).elim [] Link.parts).foldl (fun s n => told s n 4 (64 + k) loc)
       (s.linkDrop k 3 ((s.links[k]?).elim false (·.up))))) ∧
   (∀ n loc (s : State) p, n < 16 → s.part? n = some p → exec (.uncorrectableError 5 n loc) s =
     .next (told (s.modPart n fun p => { p with halted := true }) n 5 n loc)) ∧
   ∀ n loc (s : State), 16 ≤ n → s.part? n = none → exec (.uncorrectableError 5 n loc) s =
     .next { s with fw := { s.fw with available := false } }) ∧
  (∀ (s : State) target loc,
    (isLocal loc = false → s.errorWords 1 target loc = [target, loc / 2 ^ 16 % 2 ^ 16, loc % 2 ^ 16]) ∧
    (isDieStore loc = true → isLocal loc = false →
      let line := 0xFD * 2 ^ 48 + (loc - dieStoreBase) / 128 * 128
      s.errorWords 2 target loc = [target, line % 2 ^ 32, line / 2 ^ 32 % 2 ^ 32]) ∧
    s.errorWords 3 target loc = [target, 0, 0] ∧ (target < 64 → s.errorWords 4 target loc = [target, 0, 0]) ∧
    ∀ k, s.errorWords 4 (64 + k) loc = [k, 0, 0]) ∧
  (∀ a (s : State), (s.setPoison a true).poisonAt a 1 = true ∧ (s.setPoison a true).mem = s.mem ∧
    ∀ b, granule b ≠ granule a → (s.setPoison a true).poisonAt b 1 = s.poisonAt b 1) ∧
  (∀ part digest (s : State) p r, s.part? part = some p → p.replica = some r →
    (r.own = [] → exec (.replicaDigestArrival part digest) s =
        .next (s.modPart part fun p => { p with replica := some { r with early := r.early ++ [digest] } }) ∧
      exec (.replicaTimeout part) s = .next s) ∧
    (∀ own t rest, r.own = (own, t) :: rest →
      let s1 := s.modPart part fun p => { p with replica := some { r with own := rest } }
      let at_ := { r with step := r.step - rest.length }
      (own = digest → exec (.replicaDigestArrival part digest) s = .next s1) ∧
      (own ≠ digest → exec (.replicaDigestArrival part digest) s =
        .next (s1.replicaHalt part at_ (digestWords own) (digestWords digest) 1)) ∧
      (t ≤ s.timer → exec (.replicaTimeout part) s = .next (s1.replicaHalt part at_ (digestWords own) [] 2)) ∧
      (s.timer < t → exec (.replicaTimeout part) s = .next s))) ∧
  (∀ part r own twin reason (s : State) p, s.part? part = some p →
    ∃ p', (s.replicaHalt part r own twin reason).part? part = some p' ∧ p'.halted = true)

/-! Words, steps and invariants. -/

/-- Words written out from the manual's bodies, two of class 000 and one of each other class, decode to the instructions
that they stand for; words that it calls illegal do not (R343 to R350, R353, R354). -/
def Obligations.WrittenWordsDecode : Prop :=
  decodeWord 0xC2C7000000000000C01C0100 = .ok (Header.plain, .nop) ∧
  decodeWord 0x00070000003005107C011100 =
    .ok (Header.plain, .iadd .i32 ⟨true, false, false, false, true⟩ (.x 3) (.x 5) (.w 7)) ∧
  decodeWord 0x0107000800100200007FFF83 =
    .ok (Header.plain, .imad .i32 ⟨false, true, false, false, false⟩ (.x 1) (.x 2) (.x 3) (.imm 0x7FFF)) ∧
  decodeWord 0x20070040001002003C014B00 =
    .ok (Header.plain, .fadd .f32 .rdn ⟨false, true, false, true, true⟩ (.x 1) (.x 2) (.x 3)) ∧
  decodeWord 0x410700700020040060080000 = .ok (Header.plain, .ivfma .f32iv (.x 2) (.x 4) (.x 6) (.x 8)) ∧
  decodeWord 0x60070043001002C01C01200A = .ok (Header.plain, .cvt .f32 .e4m3 3 .rtz Flags.none (.x 1) (.x 2)) ∧
  decodeWord 0x80070010003004007FFFFA06 = .ok (Header.plain, .ld .n32 .b16 .cs (.x 3) (.x 4) (.x 7) (-6)) ∧
  decodeWord 0xA0C700002810020030000064 = .ok (Header.plain, .swait (.p 1) (.x 2) (.x 3) 100) ∧
  decodeWord 0xC0070000FFFFFFFEC01C0100 = .ok (Header.plain, .bra (-2)) ∧
  decodeWord 0xE2070010001C00C010000033 = .ok (Header.plain, .sysrd (.x 1) (.imm 0x33)) ∧
  decodeWord 0x07C700000000000000000000 = .error .unallocated ∧
  decodeWord 0xC1C50000F000000180185420 = .error .guardedMarker

/-- A step runs what is due. A path of a group whose word is fetched, decodes, is not held, and passes the checks runs its
instruction, in the lanes that its guard leaves, and the group's counts follow; a word that is illegal runs Illegal
Instruction; a step that no program issues runs as it stands; with nothing due a clock begins (R152, R340, R341, R356). -/
def Obligations.StepRunsTheDecodedInstruction : Prop :=
  (∀ (s : State) rest key s1 pc path g bs h i tl bad, s.clocksRun = true → s.agenda = .issue key :: rest →
    State.choosePaths { s with agenda := rest } key = (s1, some (pc, path)) → s1.group? key = some g → pc % 4 = 0 →
    fetchWord s1 ⟨key, pc, path, path, none⟩ g = .ok bs → decode bs = .ok (h, i, tl) →
    ((∃ m, i = .region m) → (s1.part? (partOf key)).elim false (·.halted) = false) → (h.wl = true → g.loads = 0) →
    (s1.normalMode (partOf key) = true → s1.blocked key g h i path = false) →
    let late := lateFault s1 ⟨key, pc, path, g.guarded h path, none⟩ g h i
    checks ⟨key, pc, path, g.guarded h path, late⟩ g h i = .ok bad →
    let s2 : State := { s1 with cur := some ⟨key, pc, path, maskDiff (g.guarded h path) bad, late⟩ }
    step s = match exec i s2 with
      | .next t => .next (afterIssue h i bad s2 t)
      | .fault f => .fault f
      | .refused r => .refused r) ∧
  (∀ (s : State) rest key pc lanes, s.clocksRun = true → s.agenda = .second key pc lanes :: rest →
    s.normalMode (partOf key) = true → State.stillThere { s with agenda := rest } key pc lanes ≠ 0 →
    step s = runPath { s with agenda := rest } key pc (State.stillThere { s with agenda := rest } key pc lanes)) ∧
  (∀ (s : State) key g pc path bs, s.group? key = some g → fetchWord s ⟨key, pc, path, path, none⟩ g = .ok bs →
    (pc % 4 ≠ 0 ∨ ∃ e, decode bs = .error e) →
    let s2 : State := { s with cur := some ⟨key, pc, path, path, none⟩ }
    ∃ t, exec .illegalInstruction s2 = .next t ∧
      runPath s key pc path = .next (afterIssue plainHeader .illegalInstruction 0 s2 t)) ∧
  (∀ (s : State) iss g bs k, fetchWord s iss g = .ok bs → 12 ≤ bs.length → k < 12 →
    ∃ pl e, isPaged ((iss.pc + k) % 2 ^ 56) = true ∧ s.anyByte iss.key g ((iss.pc + k) % 2 ^ 56) .x = .ok (pl, e) ∧
      bs[k]? = some (readByte s iss.key { g with buf := [] } pl e).1) ∧
  (∀ (g : Group) h path k, k < 32 → path < 2 ^ 32 →
    bit (g.guarded h path) k = (bit path k && bit h.gmask (match ((g.lane k).pred h.gpred).v with
      | .T => 2
      | .F => 1
      | .U => 0))) ∧
  (∀ (s : State) rest i, s.clocksRun = true → s.agenda = .event i :: rest → step s = exec i { s with agenda := rest }) ∧
  (∀ s : State, s.clocksRun = true → s.agenda = [] → step s = .next s.beginClock) ∧
  (∀ s : State, s.clocksRun = false → s.agenda = [] → step s = .fault .clocksStopped)

/-- The machine after reset: no partition, no key and no running group; the mailboxes, event ports, notify slots and remap
entries at the values that their tables give; and memory in its canonical form. What the manual gives no value is as log
entries 1 and 2 choose. -/
def Obligations.ResetIsAsStated : Prop :=
  memWf State.reset.mem = true ∧ State.reset.parts = [] ∧ State.reset.groups = [] ∧ State.reset.fw.keys = [] ∧
  State.reset.timer = 0 ∧ (∀ d, (State.reset.dport d).owner = none ∧ (State.reset.dport d).up = false) ∧
  (∀ link, link < 2 → ∃ l, State.reset.links[link]? = some l ∧
    l.mailbox.go = false ∧ l.mailbox.tag = 0 ∧ l.mailbox.opcode = 0 ∧ l.mailbox.done = false ∧ l.mailbox.status = 0 ∧
    l.mailbox.doneTag = 0 ∧ l.mailbox.irqEn = false ∧ l.mailbox.irqVec = 0 ∧ (∀ k, k < 32 → l.mailbox.args[k]? = some 0) ∧
    ∀ k, k < 1024 →
      let e := tget l.remaps k Remap.new
      e.v = false ∧ e.mask = true ∧ e.pend = false ∧ e.part = 0 ∧ e.vec = 0 ∧ e.mod = 0 ∧ e.cls = 0xFFFF) ∧
  (∀ link port slot, link < 2 →
    let po := State.reset.port link port
    let sl := po.slot slot
    po.en = false ∧ po.part = 0 ∧ po.pasid = 0 ∧ sl.map = false ∧ sl.w = false ∧ sl.irq = false ∧ sl.stream = 0 ∧
    sl.ridx = 0) ∧
  (∀ a, State.reset.byte a = 0) ∧ State.reset.clocksRun = true ∧ ∃ t, step State.reset = .next t

/-- Decoding and encoding agree on every instruction and every operand that an encoding admits: an encoded instruction is
read back with all its fields and the bytes after it, every well-formed instruction has a word, and whatever decodes is
well formed and has exactly the word that was read. The all-zero word and a word whose opcode is unallocated raise Illegal
Instruction (R340, R343 to R351, R353 to R356). -/
def Obligations.EncodingsRoundTrip : Prop :=
  (∀ h i w rest, h.wf = true → wf i = true → guardOk h i = true → encode h i = some w →
    decode (wordBytes w ++ rest) = .ok (h, i, rest)) ∧
  (∀ h i, h.wf = true → wf i = true → ∃ w, encode h i = some w ∧ w < 2 ^ 96) ∧
  (∀ bs h i rest, decode bs = .ok (h, i, rest) →
    wf i = true ∧ h.wf = true ∧ guardOk h i = true ∧ encode h i = some (leNat (bs.take 12)) ∧ rest = bs.drop 12) ∧
  decodeWord 0 = .error .emptyGuard ∧
  (∀ w, (unallocated.any fun r => decide (r.1 ≤ bits w 86 10) && decide (bits w 86 10 ≤ r.2)) = true →
    ∃ e, decodeWord w = .error e) ∧
  ∀ (s : State) key g pc path bs w e, s.group? key = some g → lanesOf path ≠ [] → path < 2 ^ 32 → pc % 4 = 0 →
    fetchWord s ⟨key, pc, path, path, none⟩ g = .ok bs → leNat (bs.take 12) = w → decodeWord w = .error e →
    let s2 : State := { s with cur := some ⟨key, pc, path, path, none⟩ }
    runPath s key pc path = .next (afterIssue plainHeader .illegalInstruction 0 s2 (s2.taskFault key g ⟨0x14, 0, path, 0, 0, 0⟩ pc))

/-- Every step keeps memory in its canonical form, whatever it runs: addresses strictly rise, and no byte is listed that
reads as an unlisted one. The form is the model's own (log entry 1). -/
def Obligations.MemoryStaysCanonical : Prop :=
  (∀ s t, memWf s.mem = true → step s = .next t → memWf t.mem = true) ∧
  (∀ i s t, memWf s.mem = true → exec i s = .next t → memWf t.mem = true) ∧
  (∀ m m' : List Host.Cell, memWf m = true → memWf m' = true → (∀ a, memGet m a = memGet m' a) → m = m')

/-- No instruction of a program changes what only firmware, the host and the package's own steps change: the partitions with
their quarters, ranges, PASIDs, assigned streams and routes; keys, worlds and the firmware; power, the clock and the timer;
event ports, mailboxes and the owners of Delow ports (R52, R53, R60, R68, R76, R78, R81, R178). -/
def Obligations.ProgramsLeaveFirmwareAlone : Prop :=
  ∀ i s t, wf i = true → exec i s = .next t →
    t.fw = s.fw ∧ t.power = s.power ∧ t.clock = s.clock ∧ t.timer = s.timer ∧ t.corrected = s.corrected ∧
    (∀ n, (t.part? n).map (fun p => (p.quarters, p.home, p.ranges, p.rangeGen, p.pasids, p.revoked, p.assigned, p.routes)) =
      (s.part? n).map fun p => (p.quarters, p.home, p.ranges, p.rangeGen, p.pasids, p.revoked, p.assigned, p.routes)) ∧
    t.links.map (fun l => (l.up, l.enabled, l.mailbox, l.ide)) = s.links.map (fun l => (l.up, l.enabled, l.mailbox, l.ide)) ∧
    (∀ link port, let po := s.port link port
      let po' := t.port link port
      po'.en = po.en ∧ po'.part = po.part ∧ po'.pasid = po.pasid) ∧
    ∀ p, (t.dport p).owner = (s.dport p).owner
end

