-- ==== Sys2Proof/Laws/Alu.lean ====
section
/-! SUPPORT. The integer operations on a lane's bits agree with the manual's terms: bit vectors of the type's width and
exact integers. -/

namespace Sys2Proof.Machine

theorem wrap_eq (w : Nat) (v : Int) : wrap w v = (BitVec.ofInt w v).toNat := by
  simp [wrap, BitVec.toNat_ofInt]

theorem intVal_signed (w v : Nat) (hw : 0 < w) : intVal true w v = (BitVec.ofNat w v).toInt := by
  obtain ⟨k, rfl⟩ : ∃ k, w = k + 1 := ⟨w - 1, by omega⟩
  have hp : 2 ^ (k + 1) = 2 * 2 ^ k := by rw [Nat.pow_succ]; omega
  simp only [intVal, BitVec.toInt_eq_toNat_cond, BitVec.toNat_ofNat, Bool.true_and, decide_eq_true_eq, Nat.add_sub_cancel]
  by_cases h : 2 ^ k ≤ v % 2 ^ (k + 1)
  · rw [if_pos h, if_neg (by omega)]
  · rw [if_neg h, if_pos (by omega)]

theorem intVal_unsigned (w v : Nat) : intVal false w v = (BitVec.ofNat w v).toNat := by
  simp [intVal]

theorem tyWidth_pos (ty : Ty) : 0 < tyWidth ty := by cases ty <;> decide

theorem tyInt_eq (ty : Ty) (v : Nat) : tyInt ty v = intNum ty (BitVec.ofNat (tyWidth ty) v) := by
  unfold tyInt intNum
  cases ty.signed
  · simp [intVal_unsigned]
  · simp [intVal_signed _ _ (tyWidth_pos ty)]

theorem intFlag_eq (ty : Ty) (neg abs : Bool) (v : Nat) : intFlag ty neg abs v = (intSrc ty neg abs v).toNat := by
  have key : ∀ b : BitVec (tyWidth ty), ∀ neg : Bool,
      (if neg then wrap (tyWidth ty) (-(b.toNat : Int)) else b.toNat) = (if neg then -b else b).toNat := by
    intro b neg
    cases neg
    · rfl
    · simp only [if_true, wrap_eq]
      rw [BitVec.ofInt_neg, BitVec.ofInt_natCast, BitVec.ofNat_toNat, BitVec.setWidth_eq]
  unfold intFlag intSrc
  simp only
  rw [← key]
  have h : (if (abs && decide (tyInt ty v < 0)) = true then wrap (tyWidth ty) (-tyInt ty v) else v % 2 ^ tyWidth ty) =
      (if (abs && ty.signed && (BitVec.ofNat (tyWidth ty) v).msb) = true then -BitVec.ofNat (tyWidth ty) v
        else BitVec.ofNat (tyWidth ty) v).toNat := by
    rw [tyInt_eq]
    unfold intNum
    cases hs : ty.signed
    · have : ¬ (((BitVec.ofNat (tyWidth ty) v).toNat : Int) < 0) := by omega
      cases abs <;> simp [BitVec.toNat_ofNat]
      omega
    · simp only [if_true, Bool.and_true]
      have hm : ((BitVec.ofNat (tyWidth ty) v).toInt < 0) ↔ (BitVec.ofNat (tyWidth ty) v).msb = true := by
        rw [BitVec.toInt_neg_iff, BitVec.msb_eq_decide]
        have := tyWidth_pos ty
        obtain ⟨k, hk⟩ : ∃ k, tyWidth ty = k + 1 := ⟨tyWidth ty - 1, by omega⟩
        rw [hk, Nat.pow_succ]
        simp; omega
      cases abs
      · simp
      · simp only [Bool.true_and, decide_eq_true_eq, hm]
        split
        · rw [wrap_eq, BitVec.ofInt_neg, BitVec.ofInt_toInt]
        · simp
  rw [h]

theorem finishInt_eq (ty : Ty) (sat : Bool) (v : Int) (h : ty.isInt = true) : finishInt ty sat v = intRes ty sat v := by
  unfold finishInt intRes
  simp only [wrap_eq]
  cases ty <;> first | rfl | simp [Ty.isInt] at h

theorem tyInt_intFlag (ty : Ty) (neg abs : Bool) (v : Nat) :
    tyInt ty (intFlag ty neg abs v) = intNum ty (intSrc ty neg abs v) := by
  rw [tyInt_eq, intFlag_eq, BitVec.ofNat_toNat, BitVec.setWidth_eq]

/-! Bitwise operations and shifts. -/

theorem aluAndn_eq (ty : Ty) (a b : BitVec (tyWidth ty)) :
    aluAndn ty a.toNat b.toNat = (a &&& ~~~b).toNat := by
  simp only [aluAndn, BitVec.toNat_and, BitVec.toNat_not, Nat.mod_eq_of_lt b.isLt]

theorem aluShl_eq (ty : Ty) (a : BitVec (tyWidth ty)) (k : Nat) : aluShl ty a.toNat k = (a <<< k).toNat := by
  simp only [aluShl, BitVec.toNat_shiftLeft, Nat.shiftLeft_eq]
  split
  · next h =>
    obtain ⟨j, rfl⟩ := Nat.exists_eq_add_of_le h
    rw [Nat.pow_add, ← Nat.mul_assoc, Nat.mul_right_comm, Nat.mul_mod_left]
  · rfl

theorem aluShr_eq (ty : Ty) (a : BitVec (tyWidth ty)) (k : Nat) : aluShr ty a.toNat k = (a >>> k).toNat := by
  simp only [aluShr, BitVec.toNat_ushiftRight, Nat.shiftRight_eq_div_pow, Nat.mod_eq_of_lt a.isLt]
  split
  · next h =>
    exact (Nat.div_eq_of_lt (Nat.lt_of_lt_of_le a.isLt (Nat.pow_le_pow_right (by decide) h))).symm
  · rfl

theorem aluSar_eq (ty : Ty) (a : BitVec (tyWidth ty)) (k : Nat) : aluSar ty a.toNat k = (a.sshiftRight k).toNat := by
  simp only [aluSar, wrap_eq, intVal_signed _ _ (tyWidth_pos ty), BitVec.ofNat_toNat, BitVec.setWidth_eq]
  have e : a.toInt / ((2 ^ min k (tyWidth ty) : Nat) : Int) = (a.sshiftRight k).toInt := by
    rw [BitVec.toInt_sshiftRight, Int.shiftRight_eq_div_pow]
    by_cases h : k ≤ tyWidth ty
    · rw [Nat.min_eq_left h]
    · rw [Nat.min_eq_right (by omega)]
      have hb : ∀ j, tyWidth ty ≤ j → a.toInt / ((2 ^ j : Nat) : Int) = if a.toInt < 0 then -1 else 0 := by
        intro j hj
        have h1 := a.toInt_lt
        have h2 := a.le_toInt
        have hp : ((2 : Int) ^ (tyWidth ty - 1)) ≤ ((2 ^ j : Nat) : Int) := by
          rw [Int.natCast_pow]
          exact Int.ofNat_le.2 (Nat.pow_le_pow_right (by decide) (by omega))
        split
        · have : a.toInt / ((2 ^ j : Nat) : Int) = -1 := by
            rw [Int.ediv_eq_iff_of_pos (by exact Int.ofNat_lt.2 (Nat.two_pow_pos j))]
            omega
          exact this
        · exact Int.ediv_eq_zero_of_lt (by omega) (by omega)
      rw [hb _ (Nat.le_refl _), hb _ (by omega)]
  rw [e, BitVec.ofInt_toInt]

theorem aluRol_eq (ty : Ty) (a : BitVec (tyWidth ty)) (k : Nat) : aluRol ty a.toNat k = (a.rotateLeft k).toNat := by
  have hw := tyWidth_pos ty
  have hk := Nat.mod_lt k hw
  simp only [aluRol, BitVec.toNat_rotateLeft, Nat.shiftLeft_eq, Nat.shiftRight_eq_div_pow, Nat.mod_eq_of_lt a.isLt]
  generalize k % tyWidth ty = r at hk
  have hp : 2 ^ tyWidth ty = 2 ^ r * 2 ^ (tyWidth ty - r) := by rw [← Nat.pow_add]; congr 1; omega
  have e : a.toNat * 2 ^ r % 2 ^ tyWidth ty = 2 ^ r * (a.toNat % 2 ^ (tyWidth ty - r)) := by
    rw [hp, Nat.mul_comm a.toNat, Nat.mul_mod_mul_left]
  have lt : a.toNat / 2 ^ (tyWidth ty - r) < 2 ^ r := by
    rw [Nat.div_lt_iff_lt_mul (Nat.two_pow_pos _), ← hp]
    exact a.isLt
  rw [e, Nat.two_pow_add_eq_or_of_lt lt]

/-- The shifts read only the low w bits of their operand. -/
theorem alu_shifts_mod (ty : Ty) (x k : Nat) :
    aluShl ty x k = aluShl ty (x % 2 ^ tyWidth ty) k ∧ aluShr ty x k = aluShr ty (x % 2 ^ tyWidth ty) k ∧
    aluSar ty x k = aluSar ty (x % 2 ^ tyWidth ty) k ∧ aluRol ty x k = aluRol ty (x % 2 ^ tyWidth ty) k := by
  refine ⟨?_, ?_, ?_, ?_⟩
  · simp only [aluShl, Nat.mod_mul_mod]
  · simp only [aluShr, Nat.mod_mod]
  · simp only [aluSar, intVal, Nat.mod_mod]
  · simp only [aluRol, Nat.mod_mul_mod, Nat.mod_mod]

/-! Counts and reversal. -/

theorem bit_zero (v : Nat) : bit v 0 = (v % 2 == 1) := by simp [bit]

theorem bit_succ (v k : Nat) : bit v (k + 1) = bit (v / 2) k := by
  simp only [bit, Nat.pow_succ, Nat.div_div_eq_div_mul, Nat.mul_comm]

theorem popCount_eq (n v : Nat) : popCount n v = ((List.range n).filter fun k => bit v k).length := by
  induction n generalizing v with
  | zero => rfl
  | succ n ih =>
    rw [popCount, ih, List.range_succ_eq_map, List.filter_cons, List.filter_map]
    have e : ((fun k => bit v k) ∘ Nat.succ) = fun k => bit (v / 2) k := funext fun k => bit_succ v k
    rw [e, bit_zero]
    have := Nat.mod_two_eq_zero_or_one v
    rcases this with h | h <;> simp [h]; omega

theorem trailing_eq (n v : Nat) : trailing n v = (List.range n).findIdx fun k => bit v k := by
  induction n generalizing v with
  | zero => rfl
  | succ n ih =>
    rw [trailing, List.range_succ_eq_map, List.findIdx_cons, bit_zero]
    have e : ((fun k => bit v k) ∘ Nat.succ) = fun k => bit (v / 2) k := funext fun k => bit_succ v k
    rcases Nat.mod_two_eq_zero_or_one v with h | h
    · simp [h, ih, List.findIdx_map, e]; omega
    · simp [h]

theorem aluClz_eq (ty : Ty) (a : Nat) : aluClz ty a = (List.range (tyWidth ty)).reverse.findIdx fun k => bit a k := by
  unfold aluClz
  simp only
  generalize tyWidth ty = w
  induction w with
  | zero => simp [Nat.mod_one]
  | succ n ih =>
    rw [List.range_succ, List.reverse_append, List.reverse_singleton, List.singleton_append, List.findIdx_cons]
    by_cases hb : bit a n = true
    · have hb' : a / 2 ^ n % 2 = 1 := by simpa [bit] using hb
      have e : a % 2 ^ (n + 1) = a % 2 ^ n + 2 ^ n := by
        rw [Nat.pow_succ, Nat.mod_mul, hb', Nat.mul_one]
      have hl : Nat.log2 (a % 2 ^ (n + 1)) = n := by
        have hlt := Nat.mod_lt a (Nat.two_pow_pos n)
        rw [e, Nat.log2_eq_iff (by omega), Nat.pow_succ]
        omega
      have := Nat.two_pow_pos n
      rw [if_neg (by omega), hl, hb]
      simp
    · have hb' : a / 2 ^ n % 2 = 0 := by
        have := Nat.mod_two_eq_zero_or_one (a / 2 ^ n)
        simp [bit] at hb
        omega
      have e : a % 2 ^ (n + 1) = a % 2 ^ n := by rw [Nat.pow_succ, Nat.mod_mul, hb']; omega
      simp only [Bool.not_eq_true] at hb
      rw [e, hb, cond_false, ← ih]
      split
      · rfl
      · next h0 =>
        have : Nat.log2 (a % 2 ^ n) < n := (Nat.log2_lt h0).2 (Nat.mod_lt a (Nat.two_pow_pos n))
        omega

theorem reverseBits_acc (n v acc : Nat) : reverseBits n v acc = 2 ^ n * acc + reverseBits n v 0 := by
  induction n generalizing v acc with
  | zero => simp [reverseBits]
  | succ n ih =>
    rw [reverseBits, ih, reverseBits, ih (v / 2) (2 * 0 + v % 2), Nat.pow_succ]
    simp only [Nat.mul_add, Nat.mul_assoc, Nat.mul_zero, Nat.zero_add, Nat.add_assoc]

theorem reverseBits_lt (n v : Nat) : reverseBits n v 0 < 2 ^ n := by
  induction n generalizing v with
  | zero => simp [reverseBits]
  | succ n ih =>
    have h1 := ih (v / 2)
    have h2 : 2 ^ n * (v % 2) ≤ 2 ^ n * 1 := Nat.mul_le_mul_left _ (by omega)
    rw [reverseBits, reverseBits_acc, Nat.pow_succ, Nat.mul_zero, Nat.zero_add]
    omega

theorem testBit_reverseBits (n v k : Nat) :
    (reverseBits n v 0).testBit k = (decide (k < n) && v.testBit (n - 1 - k)) := by
  induction n generalizing v k with
  | zero => simp [reverseBits]
  | succ n ih =>
    rw [reverseBits, reverseBits_acc, Nat.mul_zero, Nat.zero_add,
      Nat.testBit_two_pow_mul_add _ (reverseBits_lt n (v / 2)), ih]
    by_cases h : k < n
    · have e : n + 1 - 1 - k = (n - 1 - k) + 1 := by omega
      simp only [h, if_true, e, Nat.testBit_succ, decide_true, Bool.true_and]
      simp; omega
    · by_cases h2 : k = n
      · subst h2; simp
      · have h3 : ¬ k < n + 1 := by omega
        have h4 : k - n ≠ 0 := by omega
        simp only [h, if_false, h3, decide_false, Bool.false_and]
        exact Nat.testBit_lt_two_pow (Nat.lt_of_lt_of_le (Nat.mod_lt v (by decide)) (by
          calc 2 = 2 ^ 1 := rfl
            _ ≤ 2 ^ (k - n) := Nat.pow_le_pow_right (by decide) (by omega)))

theorem aluBrev_eq (ty : Ty) (a : Nat) : aluBrev ty a = (BitVec.ofNat (tyWidth ty) a).reverse.toNat := by
  refine Nat.eq_of_testBit_eq fun k => ?_
  rw [aluBrev, testBit_reverseBits, BitVec.testBit_toNat, BitVec.getLsbD_reverse, BitVec.getMsbD, BitVec.getLsbD_ofNat]
  by_cases h : k < tyWidth ty
  · have : tyWidth ty - 1 - k < tyWidth ty := by omega
    simp [h, this]
  · simp [h]

/-! Fields. -/

theorem aluBfx_eq (ty : Ty) (a b : Nat) : aluBfx ty a b = bfxBits ty a b := by
  unfold aluBfx bfxBits
  dsimp only
  generalize hn : min (b / 256 % 256) (tyWidth ty) = n
  generalize b % 256 = p
  have hy : wrap 512 (tyInt ty a) =
      (if ty.signed then (BitVec.ofNat (tyWidth ty) a).signExtend 512 else (BitVec.ofNat (tyWidth ty) a).setWidth 512).toNat := by
    rw [wrap_eq, tyInt_eq, intNum]
    split
    · rfl
    · rw [BitVec.ofInt_natCast, BitVec.toNat_ofNat, BitVec.toNat_setWidth]
  rw [hy]
  generalize (if ty.signed then (BitVec.ofNat (tyWidth ty) a).signExtend 512 else (BitVec.ofNat (tyWidth ty) a).setWidth 512) = y
  split
  · next h0 =>
    subst h0
    split
    · simp [BitVec.signExtend, BitVec.of_length_zero]
    · simp [BitVec.of_length_zero]
  · next h0 =>
    have hf : y.toNat / 2 ^ p % 2 ^ n = ((y >>> p).setWidth n).toNat := by
      simp [BitVec.toNat_setWidth, Nat.shiftRight_eq_div_pow]
    rw [hf, wrap_eq]
    cases ty.signed
    · rw [intVal_unsigned, BitVec.ofNat_toNat, BitVec.setWidth_eq, BitVec.ofInt_natCast, BitVec.ofNat_toNat]
      rfl
    · rw [intVal_signed _ _ (by omega), BitVec.ofNat_toNat, BitVec.setWidth_eq]
      rfl

/-- The bits of a number without those of another. -/
theorem testBit_sub_and (w c m k : Nat) (hc : c < 2 ^ w) :
    (c - (c &&& m)).testBit k = (c.testBit k && !m.testBit k) := by
  have hsplit : (BitVec.ofNat w c &&& ~~~BitVec.ofNat w m) &&& (BitVec.ofNat w c &&& BitVec.ofNat w m) = 0#w := by
    ext i hi; simp; intros; simp_all
  have hsum := BitVec.toNat_add_of_and_eq_zero hsplit
  have hor : (BitVec.ofNat w c &&& ~~~BitVec.ofNat w m) + (BitVec.ofNat w c &&& BitVec.ofNat w m) = BitVec.ofNat w c := by
    rw [BitVec.add_eq_or_of_and_eq_zero _ _ hsplit]
    ext i hi
    simp only [BitVec.getElem_or, BitVec.getElem_and, BitVec.getElem_not]
    cases (BitVec.ofNat w c)[i] <;> cases (BitVec.ofNat w m)[i] <;> rfl
  rw [hor] at hsum
  have hand : (BitVec.ofNat w c &&& BitVec.ofNat w m).toNat = c &&& m := by
    rw [BitVec.toNat_and, BitVec.toNat_ofNat, BitVec.toNat_ofNat, ← Nat.and_mod_two_pow,
      Nat.mod_eq_of_lt (Nat.lt_of_le_of_lt Nat.and_le_left hc)]
  rw [hand, BitVec.toNat_ofNat, Nat.mod_eq_of_lt hc] at hsum
  have he : c - (c &&& m) = (BitVec.ofNat w c &&& ~~~BitVec.ofNat w m).toNat := by omega
  rw [he, BitVec.testBit_toNat]
  simp only [BitVec.getLsbD_and, BitVec.getLsbD_not, BitVec.getLsbD_ofNat]
  by_cases hk : k < w
  · simp [hk]
  · have : c.testBit k = false := Nat.testBit_lt_two_pow (Nat.lt_of_lt_of_le hc (Nat.pow_le_pow_right (by decide) (by omega)))
    simp [hk, this]

/-- Numbers given by their bits. -/
theorem testBit_sum (w : Nat) (f : Nat → Bool) (k : Nat) :
    (((List.range w).map fun k => if f k then 2 ^ k else 0).sum).testBit k = (decide (k < w) && f k) ∧
    ((List.range w).map fun k => if f k then 2 ^ k else 0).sum < 2 ^ w := by
  induction w with
  | zero => simp
  | succ n ih =>
    obtain ⟨ih, hlt⟩ := ih
    rw [List.range_succ, List.map_append, List.sum_append]
    simp only [List.map_cons, List.map_nil, List.sum_cons, List.sum_nil, Nat.add_zero]
    have hp : 2 ^ (n + 1) = 2 * 2 ^ n := by rw [Nat.pow_succ]; omega
    refine ⟨?_, by split <;> omega⟩
    have e : (((List.range n).map fun k => if f k then 2 ^ k else 0).sum + if f n then 2 ^ n else 0) =
        2 ^ n * (if f n then 1 else 0) + ((List.range n).map fun k => if f k then 2 ^ k else 0).sum := by
      split <;> omega
    rw [e, Nat.testBit_two_pow_mul_add _ hlt, ih]
    by_cases h : k < n
    · have : k < n + 1 := by omega
      simp [h, this]
    · by_cases h2 : k = n
      · subst h2; cases f k <;> simp
      · have h3 : ¬ k < n + 1 := by omega
        obtain ⟨j, hj⟩ : ∃ j, k - n = j + 1 := ⟨k - n - 1, by omega⟩
        simp only [h, if_false, h3, decide_false, Bool.false_and, hj]
        cases f n <;> simp [Nat.testBit_succ]

theorem bit_eq_testBit (v k : Nat) : bit v k = v.testBit k := by
  simp only [bit, Nat.testBit_eq_decide_div_mod_eq]
  rcases Nat.mod_two_eq_zero_or_one (v / 2 ^ k) with h | h <;> simp [h]

theorem aluBfi_eq (ty : Ty) (a b c : Nat) : aluBfi ty a b c = bfiBits ty a b c := by
  refine Nat.eq_of_testBit_eq fun k => ?_
  unfold aluBfi bfiBits
  simp only
  generalize hn : min (b / 256 % 256) (tyWidth ty) = n
  generalize b % 256 = p
  rw [(testBit_sum _ _ _).1, Nat.testBit_mod_two_pow, Nat.testBit_or,
    testBit_sub_and (tyWidth ty) _ _ _ (Nat.mod_lt _ (Nat.two_pow_pos _))]
  have hm : (2 ^ n - 1) * 2 ^ p = 2 ^ p * (2 ^ n - 1) := Nat.mul_comm ..
  have ha : (a % 2 ^ n) * 2 ^ p = 2 ^ p * (a % 2 ^ n) := Nat.mul_comm ..
  rw [hm, ha, Nat.testBit_two_pow_mul, Nat.testBit_two_pow_mul, Nat.testBit_two_pow_sub_one, Nat.testBit_mod_two_pow,
    Nat.testBit_mod_two_pow, bit_eq_testBit]
  by_cases hk : k < tyWidth ty
  · by_cases h1 : p ≤ k
    · by_cases h2 : k < p + n
      · have h3 : k - p < n := by omega
        have h4 : p ≤ k ∧ k < p + n := ⟨h1, h2⟩
        simp [hk, h1, h3, h4, Nat.testBit_eq_decide_div_mod_eq]
      · have h3 : ¬ k - p < n := by omega
        simp [hk, h1, h2, h3, Nat.testBit_eq_decide_div_mod_eq]
    · simp [hk, h1, Nat.testBit_eq_decide_div_mod_eq]
  · simp [hk]

theorem aluPrmt_eq (a b c : Nat) : aluPrmt a b c = prmtBits a b c := by
  have h : ∀ y k, prmtByte y c k =
      if bit c (12 + k) then c / 2 ^ 16 % 256 else y / 2 ^ (8 * (c / 2 ^ (3 * k) % 8)) % 256 := fun _ _ => rfl
  simp only [aluPrmt, prmtBits, h, Nat.mul_comm _ (2 ^ 8), Nat.mul_comm _ (2 ^ 16), Nat.mul_comm _ (2 ^ 24),
    Nat.mul_comm _ (2 ^ 32)]

theorem aluMadw_eq (ty : Ty) (sat : Bool) (a b c : Nat) (h : ty.isInt32 = true) :
    aluMadw ty sat a b c = intRes (wide ty) sat
      (intNum ty (BitVec.ofNat (tyWidth ty) a) * intNum ty (BitVec.ofNat (tyWidth ty) b) +
        intNum (wide ty) (BitVec.ofNat (tyWidth (wide ty)) c)) := by
  rw [aluMadw, finishInt_eq _ _ _ (by cases ty <;> simp [Ty.isInt32] at h <;> rfl), tyInt_eq, tyInt_eq, tyInt_eq]

theorem aluLea_eq (ty : Ty) (n a b : Nat) :
    aluLea ty n a b =
      (BitVec.ofNat 64 a + BitVec.ofInt 64 (intNum ty (BitVec.ofNat (tyWidth ty) b)) * BitVec.ofNat 64 (2 ^ n)).toNat := by
  rw [aluLea, wrap_eq, tyInt_eq, BitVec.ofInt_add, BitVec.ofInt_mul, BitVec.ofInt_natCast, BitVec.ofInt_natCast]

end Sys2Proof.Machine
end

