-- ==== Sys2Proof/Laws/Table.lean ====
section
/-! SUPPORT. What tables and lane masks answer after each of their operations. -/

namespace Sys2Proof

@[simp] theorem tget?_tset_self {α : Type} (k : Nat) (a : α) (t : Tbl α) : tget? k (tset k a t) = some a := by
  induction t with
  | nil => simp [tset, tget?]
  | cons e t ih =>
    obtain ⟨j, b⟩ := e
    simp only [tset]
    split
    · next h => simp [tget?, Nat.ne_of_lt h, ih]
    · split <;> simp [tget?]

@[simp] theorem tget?_tset_ne {α : Type} {k k' : Nat} (h : k' ≠ k) (a : α) (t : Tbl α) :
    tget? k' (tset k a t) = tget? k' t := by
  have h' : k ≠ k' := fun e => h e.symm
  induction t with
  | nil => simp [tset, tget?, h']
  | cons e t ih =>
    obtain ⟨j, b⟩ := e
    simp only [tset]
    split
    · simp [tget?, ih]
    · split
      · next e => subst e; simp [tget?, h']
      · simp [tget?, h']

@[simp] theorem tget?_terase_self {α : Type} (k : Nat) (t : Tbl α) : tget? k (terase k t) = none := by
  induction t with
  | nil => rfl
  | cons e t ih =>
    obtain ⟨j, b⟩ := e
    simp only [terase]
    split
    · exact ih
    · next h => simp [tget?, h, ih]

@[simp] theorem tget?_terase_ne {α : Type} {k k' : Nat} (h : k' ≠ k) (t : Tbl α) :
    tget? k' (terase k t) = tget? k' t := by
  induction t with
  | nil => rfl
  | cons e t ih =>
    obtain ⟨j, b⟩ := e
    simp only [terase]
    split
    · next e => subst e; simp [tget?, ih, Ne.symm h]
    · simp [tget?, ih]

@[simp] theorem tget?_tmod_self {α : Type} (k : Nat) (f : α → α) (t : Tbl α) :
    tget? k (tmod k f t) = (tget? k t).map f := by
  induction t with
  | nil => rfl
  | cons e t ih =>
    obtain ⟨j, b⟩ := e
    simp only [tmod]
    split
    · next e => simp [tget?, e]
    · next h => simp [tget?, h, ih]

@[simp] theorem tget?_tmod_ne {α : Type} {k k' : Nat} (h : k' ≠ k) (f : α → α) (t : Tbl α) :
    tget? k' (tmod k f t) = tget? k' t := by
  induction t with
  | nil => rfl
  | cons e t ih =>
    obtain ⟨j, b⟩ := e
    simp only [tmod]
    split
    · next e => subst e; simp [tget?, Ne.symm h]
    · simp [tget?, ih]

@[simp] theorem tget_tput_self {α : Type} [DecidableEq α] (d : α) (k : Nat) (a : α) (t : Tbl α) :
    tget (tput d k a t) k d = a := by
  unfold tput tget
  split
  · next h => simp [h]
  · simp

@[simp] theorem tget_tput_ne {α : Type} [DecidableEq α] {k k' : Nat} (h : k' ≠ k) (d a : α) (t : Tbl α) :
    tget (tput d k a t) k' d = tget t k' d := by
  unfold tput tget
  split <;> simp [h]

@[simp] theorem tget_tset_self {α : Type} (k : Nat) (a d : α) (t : Tbl α) : tget (tset k a t) k d = a := by
  simp [tget]

@[simp] theorem tget_tset_ne {α : Type} {k k' : Nat} (h : k' ≠ k) (a d : α) (t : Tbl α) :
    tget (tset k a t) k' d = tget t k' d := by simp [tget, h]

/-- A table read after it is built from a list of lanes. -/
theorem tget_map {α : Type} (l : List Nat) (f : Nat → α) (k : Nat) (d : α) (h : k ∈ l) :
    tget (l.map fun i => (i, f i)) k d = f k := by
  unfold tget
  induction l with
  | nil => simp at h
  | cons j l ih =>
    simp only [List.map_cons, tget?]
    split
    · next e => simp [e]
    · next e =>
      rcases List.mem_cons.1 h with h | h
      · exact absurd h.symm e
      · exact ih h

theorem tset_tset {α : Type} (k : Nat) (a b : α) (t : Tbl α) : tset k a (tset k b t) = tset k a t := by
  induction t with
  | nil => simp [tset]
  | cons e t ih =>
    obtain ⟨j, c⟩ := e
    simp only [tset]
    split
    · next h => simp [tset, h, ih]
    · split <;> simp [tset]

/-! Keys in rising order. -/

theorem mem_lanesOf {m i : Nat} : i ∈ lanesOf m ↔ i < 32 ∧ bit m i = true := by
  simp [lanesOf, laneIds]

theorem lanesOf_lt {m i : Nat} (h : i ∈ lanesOf m) : i < 32 := (mem_lanesOf.1 h).1

theorem lanesOf_nodup (m : Nat) : (lanesOf m).Nodup :=
  List.Nodup.sublist List.filter_sublist List.nodup_range

@[simp] theorem length_lmod {α : Type} (i : Nat) (f : α → α) (l : List α) : (lmod i f l).length = l.length := by
  induction l generalizing i with
  | nil => simp [lmod]
  | cons a l ih => cases i <;> simp [lmod, ih]

theorem getElem?_lmod_self {α : Type} (i : Nat) (f : α → α) (l : List α) : (lmod i f l)[i]? = (l[i]?).map f := by
  induction l generalizing i with
  | nil => simp [lmod]
  | cons a l ih => cases i <;> simp [lmod, ih]

theorem getElem?_lmod_ne {α : Type} {i j : Nat} (h : j ≠ i) (f : α → α) (l : List α) : (lmod i f l)[j]? = l[j]? := by
  induction l generalizing i j with
  | nil => simp [lmod]
  | cons a l ih =>
    cases i with
    | zero => cases j with
      | zero => exact absurd rfl h
      | succ j => simp [lmod]
    | succ i => cases j with
      | zero => simp [lmod]
      | succ j => simp [lmod, ih (j := j) (i := i) (by omega)]

theorem lmod_lmod {α : Type} (i : Nat) (f g : α → α) (l : List α) : lmod i f (lmod i g l) = lmod i (fun a => f (g a)) l := by
  induction l generalizing i with
  | nil => simp [lmod]
  | cons a l ih => cases i <;> simp [lmod, ih]

end Sys2Proof
end

