-- ==== Sys2Proof/Laws/Regs.lean ====
section
/-! SUPPORT. What a group's registers and lanes read after each of the operations that write them. -/

namespace Sys2Proof.Machine

/-! Lanes. -/

@[simp] theorem Group.setLane_length (g : Group) (i : Nat) (f : Lane → Lane) :
    (g.setLane i f).lanes.length = g.lanes.length := length_lmod ..

@[simp] theorem Group.eachLane_length (g : Group) (m : Nat) (f : Nat → Lane → Lane) :
    (g.eachLane m f).lanes.length = g.lanes.length := by simp [Group.eachLane]

theorem Group.lane_setLane_self (g : Group) {i : Nat} (h : i < g.lanes.length) (f : Lane → Lane) :
    (g.setLane i f).lane i = f (g.lane i) := by
  simp only [Group.lane, Group.setLane, List.getD_eq_getElem?_getD, getElem?_lmod_self]; simp [h]

theorem Group.lane_setLane_ne (g : Group) {i j : Nat} (h : j ≠ i) (f : Lane → Lane) :
    (g.setLane i f).lane j = g.lane j := by
  simp [Group.lane, Group.setLane, getElem?_lmod_ne h]

theorem Group.lane_setLane (g : Group) (i j : Nat) (f : Lane → Lane) :
    (g.setLane i f).lane j = if j = i ∧ i < g.lanes.length then f (g.lane i) else g.lane j := by
  by_cases h : j = i
  · subst h
    by_cases hl : j < g.lanes.length
    · simp [hl, g.lane_setLane_self hl]
    · simp [hl, Group.lane, Group.setLane]
  · simp [h, g.lane_setLane_ne h]

theorem Group.lane_setLane_of (g : Group) (a : Nat) {i : Nat} (h : i < g.lanes.length) (f : Lane → Lane) :
    (g.setLane a f).lane i = if i = a then f (g.lane i) else g.lane i := by
  rw [Group.lane_setLane]
  by_cases e : i = a
  · subst e; simp [h]
  · simp [e]

theorem Group.lane_eachLane (g : Group) (m i : Nat) (f : Nat → Lane → Lane) :
    (g.eachLane m f).lane i = if bit m i = true ∧ i < g.lanes.length then f i (g.lane i) else g.lane i := by
  by_cases hl : i < g.lanes.length
  · by_cases hb : bit m i = true <;> simp [Group.lane, Group.eachLane, hl, hb]
  · simp [Group.lane, Group.eachLane, hl]

@[simp] theorem Group.setLane_w (g : Group) (i : Nat) (f : Lane → Lane) : (g.setLane i f).w = g.w := rfl
@[simp] theorem Group.eachLane_w (g : Group) (m : Nat) (f : Nat → Lane → Lane) : (g.eachLane m f).w = g.w := rfl

/-! One register written. -/

/-- Whether an operand names register j of a destination. -/
def isReg (d o : Opnd) (j : Nat) : Bool :=
  match d, o with
  | .x m, .x k | .w m, .w k | .e m, .e k | .c m, .c k => decide (k = m + j)
  | _, _ => false

/-- Whether the register that an operand names is the group's. -/
def sharedReg : Opnd → Bool
  | .w _ => true
  | _ => false

/-- A register after one register write: it is the written one, in the lane or shared, or it is unchanged. -/
theorem regOf_setReg (g : Group) (a i : Nat) (d o : Opnd) (j : Nat) (r : Reg) (hi : i < g.lanes.length) (ho : o ≠ .lat) :
    regOf (setReg g a d j r) i o 0 =
      if (i = a ∨ sharedReg o = true) ∧ isReg d o j = true then r else regOf g i o 0 := by
  cases d <;> cases o <;> first
    | exact absurd rfl ho
    | rfl
    | (simp only [isReg, Bool.false_eq_true, and_false, if_false]; rfl)
    | (simp only [isReg, Bool.false_eq_true, and_false, if_false, setReg, regOf, Group.lane_setLane_of _ _ hi]; done)
    | (simp only [isReg, Bool.false_eq_true, and_false, if_false, setReg, regOf, Group.lane_setLane_of _ _ hi]
       split <;> simp_all; done)
    | (simp only [setReg, regOf, Group.lane_setLane_of _ _ hi, Nat.add_zero, isReg, sharedReg]
       split <;> simp_all <;> split <;> simp_all; done)

/-- destIndex by registers. -/
theorem destIndex_zero (d o : Opnd) : destIndex d 0 o = none := by
  cases d <;> cases o <;> simp [destIndex]

theorem destIndex_succ (d o : Opnd) (n : Nat) :
    destIndex d (n + 1) o = if isReg d o n = true then some n else destIndex d n o := by
  cases d <;> cases o <;> simp only [destIndex, isReg, decide_eq_true_eq, Bool.false_eq_true, if_false]
  all_goals
    rename_i m k
    by_cases hk : k = m + n
    · subst hk; simp
    · have e : (m ≤ k ∧ k < m + (n + 1)) ↔ (m ≤ k ∧ k < m + n) := by omega
      simp only [hk, if_false, e]

/-- The latch after one register write to another level. -/
theorem lat_setReg (g : Group) (a i : Nat) (d : Opnd) (j : Nat) (r : Reg) (hd : d ≠ .lat) :
    regOf (setReg g a d j r) i .lat 0 = regOf g i .lat 0 := by
  cases d <;> first
    | exact absurd rfl hd
    | rfl
    | (simp only [setReg, regOf, Group.lane_setLane]; split <;> simp_all)

theorem regOf_writeLat (g : Group) (a i : Nat) (v : Val) (o : Opnd) (ho : o ≠ .lat) :
    regOf (writeLat g a v) i o 0 = regOf g i o 0 := by
  cases o <;> first
    | exact absurd rfl ho
    | rfl
    | (simp only [writeLat, regOf, Group.lane_setLane]; split <;> simp_all)

theorem lat_writeLat (g : Group) (a i : Nat) (v : Val) (hi : i < g.lanes.length) :
    regOf (writeLat g a v) i .lat 0 = if i = a then valWord v 0 else regOf g i .lat 0 := by
  simp only [writeLat, regOf, Group.lane_setLane_of _ _ hi, valWord, Nat.mul_zero, Nat.pow_zero, Nat.div_one]
  split <;> simp_all

/-- The latch after a write to the latch of another lane. -/
theorem lat_setReg_lat (g : Group) (a i : Nat) (j : Nat) (r : Reg) (h : i ≠ a) :
    regOf (setReg g a .lat j r) i .lat 0 = regOf g i .lat 0 := by
  simp only [setReg, regOf, Group.lane_setLane_ne _ h]

/-! What register writes never touch. -/

/-- A group that differs from another in registers of its lanes and its w registers only, with predicates and PCs kept. -/
structure SameRest (g g' : Group) : Prop where
  rest : { g' with lanes := g.lanes, w := g.w } = g
  length : g'.lanes.length = g.lanes.length
  lane : ∀ i, { g'.lane i with x := (g.lane i).x, e := (g.lane i).e, c := (g.lane i).c, lat := (g.lane i).lat } = g.lane i

theorem SameRest.refl (g : Group) : SameRest g g := ⟨rfl, rfl, fun _ => rfl⟩

theorem SameRest.trans {a b c : Group} (h : SameRest a b) (k : SameRest b c) : SameRest a c := by
  refine ⟨?_, k.length.trans h.length, fun i => ?_⟩
  · rw [← h.rest, ← k.rest]
  · rw [← h.lane i, ← k.lane i]

theorem sameRest_setLane (g : Group) (a : Nat) (f : Lane → Lane)
    (hf : ∀ l, { f l with x := l.x, e := l.e, c := l.c, lat := l.lat } = l) : SameRest g (g.setLane a f) := by
  refine ⟨rfl, by simp, fun i => ?_⟩
  rw [Group.lane_setLane]
  split
  · next h => rw [h.1]; exact hf _
  · rfl

theorem sameRest_setReg (g : Group) (a : Nat) (d : Opnd) (j : Nat) (r : Reg) : SameRest g (setReg g a d j r) := by
  cases d <;> first
    | exact SameRest.refl g
    | exact sameRest_setLane g a _ fun l => rfl
    | exact ⟨rfl, rfl, fun _ => rfl⟩

theorem sameRest_writeLat (g : Group) (a : Nat) (v : Val) : SameRest g (writeLat g a v) :=
  sameRest_setLane g a _ fun _ => rfl

theorem sameRest_foldl {α : Type} (f : Group → α → Group) (h : ∀ g x, SameRest g (f g x)) (l : List α) (g : Group) :
    SameRest g (l.foldl f g) := by
  induction l generalizing g with
  | nil => exact SameRest.refl g
  | cons x l ih => exact (h g x).trans (ih (f g x))

theorem sameRest_writeOp (g : Group) (a : Nat) (d : Opnd) (n : Nat) (v : Val) : SameRest g (writeOp g a d n v) :=
  sameRest_foldl _ (fun g j => sameRest_setReg g a d j _) _ g

/-! n registers written in one lane. -/

theorem regOf_writeOp (g : Group) (a i : Nat) (d o : Opnd) (n : Nat) (v : Val) (hi : i < g.lanes.length) (ho : o ≠ .lat) :
    regOf (writeOp g a d n v) i o 0 =
      match destIndex d n o with
      | some j => if i = a ∨ sharedReg o = true then valWord v j else regOf g i o 0
      | none => regOf g i o 0 := by
  unfold writeOp
  induction n with
  | zero => simp [destIndex_zero]
  | succ n ih =>
    rw [List.range_succ, List.foldl_append]
    simp only [List.foldl_cons, List.foldl_nil]
    have hl := (sameRest_foldl (fun g j => setReg g a d j ⟨BitVec.ofNat 32 (v.1 / 2 ^ (32 * j)), v.2⟩)
      (fun g j => sameRest_setReg g a d j _) (List.range n) g).length
    rw [regOf_setReg _ _ _ _ _ _ _ (by omega) ho, ih, destIndex_succ]
    by_cases h : isReg d o n = true
    · by_cases he : i = a ∨ sharedReg o = true
      · simp [h, he, valWord]
      · simp only [h, he, false_and, if_false, if_true]
        split <;> simp_all
    · simp [h]

/-! n registers written in each of several lanes. -/

theorem regOf_foldl_writeOp (g : Group) (ls : List Nat) (i : Nat) (d o : Opnd) (n : Nat) (v : Nat → Val)
    (hi : i < g.lanes.length) (ho : o ≠ .lat) :
    regOf ((ls.map fun i => (i, v i)).foldl (fun g p => writeOp g p.1 d n p.2) g) i o 0 =
      match destIndex d n o with
      | some j =>
        if sharedReg o = true then (match ls.getLast? with | some top => valWord (v top) j | none => regOf g i o 0)
        else if i ∈ ls then valWord (v i) j else regOf g i o 0
      | none => regOf g i o 0 := by
  induction ls generalizing g with
  | nil => cases destIndex d n o <;> simp
  | cons a ls ih =>
    have hl := (sameRest_writeOp g a d n (v a)).length
    simp only [List.map_cons, List.foldl_cons]
    rw [ih _ (by omega), regOf_writeOp _ _ _ _ _ _ _ hi ho]
    cases destIndex d n o with
    | none => rfl
    | some j =>
      by_cases hsh : sharedReg o = true
      · cases hls : ls with
        | nil => simp [hsh]
        | cons b l => simp [hsh, List.getLast?_cons]
      · by_cases hm : i ∈ ls
        · simp [hsh, hm]
        · by_cases e : i = a <;> simp [hsh, hm, e]

/-- The latch of a lane that is not written. -/
theorem lat_writeOp (g : Group) (a i : Nat) (d : Opnd) (n : Nat) (v : Val) (h : d ≠ .lat ∨ i ≠ a) :
    regOf (writeOp g a d n v) i .lat 0 = regOf g i .lat 0 := by
  unfold writeOp
  induction n with
  | zero => rfl
  | succ n ih =>
    rw [List.range_succ, List.foldl_append]
    simp only [List.foldl_cons, List.foldl_nil]
    by_cases hd : d = .lat
    · subst hd
      rw [lat_setReg_lat _ _ _ _ _ (h.resolve_left (by simp)), ih]
    · rw [lat_setReg _ _ _ _ _ _ hd, ih]

theorem lat_foldl_writeOp (g : Group) (ls : List Nat) (i : Nat) (d : Opnd) (n : Nat) (v : Nat → Val) (h : i ∉ ls) :
    regOf ((ls.map fun i => (i, v i)).foldl (fun g p => writeOp g p.1 d n p.2) g) i .lat 0 = regOf g i .lat 0 := by
  induction ls generalizing g with
  | nil => rfl
  | cons a ls ih =>
    simp only [List.map_cons, List.foldl_cons]
    rw [ih _ (fun hm => h (by simp [hm])), lat_writeOp _ _ _ _ _ _ (.inr fun e => h (by simp [e]))]

end Sys2Proof.Machine
end

