-- ==== Sys2Proof/Laws/State.lean ====
section
/-! SUPPORT. What each named update of the state leaves: one lemma for each field that the update does not name. -/

namespace Sys2Proof.Machine

@[simp] theorem State.dropDenied_agenda (s : State) (pasid : Nat) : (s.dropDenied pasid).agenda = s.agenda := rfl
@[simp] theorem State.dropDenied_cur (s : State) (pasid : Nat) : (s.dropDenied pasid).cur = s.cur := rfl
@[simp] theorem State.dropDenied_clock (s : State) (pasid : Nat) : (s.dropDenied pasid).clock = s.clock := rfl
@[simp] theorem State.dropDenied_sub (s : State) (pasid : Nat) : (s.dropDenied pasid).sub = s.sub := rfl
@[simp] theorem State.dropDenied_timer (s : State) (pasid : Nat) : (s.dropDenied pasid).timer = s.timer := rfl
@[simp] theorem State.dropDenied_power (s : State) (pasid : Nat) : (s.dropDenied pasid).power = s.power := rfl
@[simp] theorem State.dropDenied_fw (s : State) (pasid : Nat) : (s.dropDenied pasid).fw = s.fw := rfl
@[simp] theorem State.dropDenied_dports (s : State) (pasid : Nat) : (s.dropDenied pasid).dports = s.dports := rfl
@[simp] theorem State.dropDenied_dlinks (s : State) (pasid : Nat) : (s.dropDenied pasid).dlinks = s.dlinks := rfl
@[simp] theorem State.dropDenied_parts (s : State) (pasid : Nat) : (s.dropDenied pasid).parts = s.parts := rfl
@[simp] theorem State.dropDenied_ctxs (s : State) (pasid : Nat) : (s.dropDenied pasid).ctxs = s.ctxs := rfl
@[simp] theorem State.dropDenied_cores (s : State) (pasid : Nat) : (s.dropDenied pasid).cores = s.cores := rfl
@[simp] theorem State.dropDenied_groups (s : State) (pasid : Nat) : (s.dropDenied pasid).groups = s.groups := rfl
@[simp] theorem State.dropDenied_saved (s : State) (pasid : Nat) : (s.dropDenied pasid).saved = s.saved := rfl
@[simp] theorem State.dropDenied_teams (s : State) (pasid : Nat) : (s.dropDenied pasid).teams = s.teams := rfl
@[simp] theorem State.dropDenied_engines (s : State) (pasid : Nat) : (s.dropDenied pasid).engines = s.engines := rfl
@[simp] theorem State.dropDenied_bulks (s : State) (pasid : Nat) : (s.dropDenied pasid).bulks = s.bulks := rfl
@[simp] theorem State.dropDenied_mmabs (s : State) (pasid : Nat) : (s.dropDenied pasid).mmabs = s.mmabs := rfl
@[simp] theorem State.dropDenied_colls (s : State) (pasid : Nat) : (s.dropDenied pasid).colls = s.colls := rfl
@[simp] theorem State.dropDenied_locks (s : State) (pasid : Nat) : (s.dropDenied pasid).locks = s.locks := rfl
@[simp] theorem State.dropDenied_samples (s : State) (pasid : Nat) : (s.dropDenied pasid).samples = s.samples := rfl
@[simp] theorem State.dropDenied_tlb (s : State) (pasid : Nat) : (s.dropDenied pasid).tlb = s.tlb := rfl
@[simp] theorem State.dropDenied_mem (s : State) (pasid : Nat) : (s.dropDenied pasid).mem = s.mem := rfl
@[simp] theorem State.dropDenied_pois (s : State) (pasid : Nat) : (s.dropDenied pasid).pois = s.pois := rfl
@[simp] theorem State.dropDenied_corrected (s : State) (pasid : Nat) : (s.dropDenied pasid).corrected = s.corrected := rfl
@[simp] theorem State.dropDenied_out (s : State) (pasid : Nat) : (s.dropDenied pasid).out = s.out := rfl
@[simp] theorem State.dropDenied_serial (s : State) (pasid : Nat) : (s.dropDenied pasid).serial = s.serial := rfl
@[simp] theorem State.dropDenied_free (s : State) (pasid : Nat) : (s.dropDenied pasid).free = s.free := rfl

@[simp] theorem State.unmapStream_agenda (s : State) (sid : Nat) : (s.unmapStream sid).agenda = s.agenda := rfl
@[simp] theorem State.unmapStream_cur (s : State) (sid : Nat) : (s.unmapStream sid).cur = s.cur := rfl
@[simp] theorem State.unmapStream_clock (s : State) (sid : Nat) : (s.unmapStream sid).clock = s.clock := rfl
@[simp] theorem State.unmapStream_sub (s : State) (sid : Nat) : (s.unmapStream sid).sub = s.sub := rfl
@[simp] theorem State.unmapStream_timer (s : State) (sid : Nat) : (s.unmapStream sid).timer = s.timer := rfl
@[simp] theorem State.unmapStream_power (s : State) (sid : Nat) : (s.unmapStream sid).power = s.power := rfl
@[simp] theorem State.unmapStream_fw (s : State) (sid : Nat) : (s.unmapStream sid).fw = s.fw := rfl
@[simp] theorem State.unmapStream_dports (s : State) (sid : Nat) : (s.unmapStream sid).dports = s.dports := rfl
@[simp] theorem State.unmapStream_dlinks (s : State) (sid : Nat) : (s.unmapStream sid).dlinks = s.dlinks := rfl
@[simp] theorem State.unmapStream_parts (s : State) (sid : Nat) : (s.unmapStream sid).parts = s.parts := rfl
@[simp] theorem State.unmapStream_ctxs (s : State) (sid : Nat) : (s.unmapStream sid).ctxs = s.ctxs := rfl
@[simp] theorem State.unmapStream_cores (s : State) (sid : Nat) : (s.unmapStream sid).cores = s.cores := rfl
@[simp] theorem State.unmapStream_groups (s : State) (sid : Nat) : (s.unmapStream sid).groups = s.groups := rfl
@[simp] theorem State.unmapStream_saved (s : State) (sid : Nat) : (s.unmapStream sid).saved = s.saved := rfl
@[simp] theorem State.unmapStream_teams (s : State) (sid : Nat) : (s.unmapStream sid).teams = s.teams := rfl
@[simp] theorem State.unmapStream_engines (s : State) (sid : Nat) : (s.unmapStream sid).engines = s.engines := rfl
@[simp] theorem State.unmapStream_bulks (s : State) (sid : Nat) : (s.unmapStream sid).bulks = s.bulks := rfl
@[simp] theorem State.unmapStream_mmabs (s : State) (sid : Nat) : (s.unmapStream sid).mmabs = s.mmabs := rfl
@[simp] theorem State.unmapStream_colls (s : State) (sid : Nat) : (s.unmapStream sid).colls = s.colls := rfl
@[simp] theorem State.unmapStream_locks (s : State) (sid : Nat) : (s.unmapStream sid).locks = s.locks := rfl
@[simp] theorem State.unmapStream_samples (s : State) (sid : Nat) : (s.unmapStream sid).samples = s.samples := rfl
@[simp] theorem State.unmapStream_tlb (s : State) (sid : Nat) : (s.unmapStream sid).tlb = s.tlb := rfl
@[simp] theorem State.unmapStream_mem (s : State) (sid : Nat) : (s.unmapStream sid).mem = s.mem := rfl
@[simp] theorem State.unmapStream_pois (s : State) (sid : Nat) : (s.unmapStream sid).pois = s.pois := rfl
@[simp] theorem State.unmapStream_corrected (s : State) (sid : Nat) : (s.unmapStream sid).corrected = s.corrected := rfl
@[simp] theorem State.unmapStream_out (s : State) (sid : Nat) : (s.unmapStream sid).out = s.out := rfl
@[simp] theorem State.unmapStream_serial (s : State) (sid : Nat) : (s.unmapStream sid).serial = s.serial := rfl
@[simp] theorem State.unmapStream_free (s : State) (sid : Nat) : (s.unmapStream sid).free = s.free := rfl

@[simp] theorem State.setEngine_agenda (s : State) (q : Nat) (e : Engine) : (s.setEngine q e).agenda = s.agenda := rfl
@[simp] theorem State.setEngine_cur (s : State) (q : Nat) (e : Engine) : (s.setEngine q e).cur = s.cur := rfl
@[simp] theorem State.setEngine_clock (s : State) (q : Nat) (e : Engine) : (s.setEngine q e).clock = s.clock := rfl
@[simp] theorem State.setEngine_sub (s : State) (q : Nat) (e : Engine) : (s.setEngine q e).sub = s.sub := rfl
@[simp] theorem State.setEngine_timer (s : State) (q : Nat) (e : Engine) : (s.setEngine q e).timer = s.timer := rfl
@[simp] theorem State.setEngine_power (s : State) (q : Nat) (e : Engine) : (s.setEngine q e).power = s.power := rfl
@[simp] theorem State.setEngine_fw (s : State) (q : Nat) (e : Engine) : (s.setEngine q e).fw = s.fw := rfl
@[simp] theorem State.setEngine_links (s : State) (q : Nat) (e : Engine) : (s.setEngine q e).links = s.links := rfl
@[simp] theorem State.setEngine_dports (s : State) (q : Nat) (e : Engine) : (s.setEngine q e).dports = s.dports := rfl
@[simp] theorem State.setEngine_dlinks (s : State) (q : Nat) (e : Engine) : (s.setEngine q e).dlinks = s.dlinks := rfl
@[simp] theorem State.setEngine_parts (s : State) (q : Nat) (e : Engine) : (s.setEngine q e).parts = s.parts := rfl
@[simp] theorem State.setEngine_ctxs (s : State) (q : Nat) (e : Engine) : (s.setEngine q e).ctxs = s.ctxs := rfl
@[simp] theorem State.setEngine_cores (s : State) (q : Nat) (e : Engine) : (s.setEngine q e).cores = s.cores := rfl
@[simp] theorem State.setEngine_groups (s : State) (q : Nat) (e : Engine) : (s.setEngine q e).groups = s.groups := rfl
@[simp] theorem State.setEngine_saved (s : State) (q : Nat) (e : Engine) : (s.setEngine q e).saved = s.saved := rfl
@[simp] theorem State.setEngine_teams (s : State) (q : Nat) (e : Engine) : (s.setEngine q e).teams = s.teams := rfl
@[simp] theorem State.setEngine_bulks (s : State) (q : Nat) (e : Engine) : (s.setEngine q e).bulks = s.bulks := rfl
@[simp] theorem State.setEngine_mmabs (s : State) (q : Nat) (e : Engine) : (s.setEngine q e).mmabs = s.mmabs := rfl
@[simp] theorem State.setEngine_colls (s : State) (q : Nat) (e : Engine) : (s.setEngine q e).colls = s.colls := rfl
@[simp] theorem State.setEngine_locks (s : State) (q : Nat) (e : Engine) : (s.setEngine q e).locks = s.locks := rfl
@[simp] theorem State.setEngine_samples (s : State) (q : Nat) (e : Engine) : (s.setEngine q e).samples = s.samples := rfl
@[simp] theorem State.setEngine_tlb (s : State) (q : Nat) (e : Engine) : (s.setEngine q e).tlb = s.tlb := rfl
@[simp] theorem State.setEngine_mem (s : State) (q : Nat) (e : Engine) : (s.setEngine q e).mem = s.mem := rfl
@[simp] theorem State.setEngine_pois (s : State) (q : Nat) (e : Engine) : (s.setEngine q e).pois = s.pois := rfl
@[simp] theorem State.setEngine_corrected (s : State) (q : Nat) (e : Engine) : (s.setEngine q e).corrected = s.corrected := rfl
@[simp] theorem State.setEngine_out (s : State) (q : Nat) (e : Engine) : (s.setEngine q e).out = s.out := rfl
@[simp] theorem State.setEngine_serial (s : State) (q : Nat) (e : Engine) : (s.setEngine q e).serial = s.serial := rfl
@[simp] theorem State.setEngine_free (s : State) (q : Nat) (e : Engine) : (s.setEngine q e).free = s.free := rfl

@[simp] theorem State.addLocks_agenda (s : State) (ck : Nat) (ls : List RangeLock) : (s.addLocks ck ls).agenda = s.agenda := rfl
@[simp] theorem State.addLocks_cur (s : State) (ck : Nat) (ls : List RangeLock) : (s.addLocks ck ls).cur = s.cur := rfl
@[simp] theorem State.addLocks_clock (s : State) (ck : Nat) (ls : List RangeLock) : (s.addLocks ck ls).clock = s.clock := rfl
@[simp] theorem State.addLocks_sub (s : State) (ck : Nat) (ls : List RangeLock) : (s.addLocks ck ls).sub = s.sub := rfl
@[simp] theorem State.addLocks_timer (s : State) (ck : Nat) (ls : List RangeLock) : (s.addLocks ck ls).timer = s.timer := rfl
@[simp] theorem State.addLocks_power (s : State) (ck : Nat) (ls : List RangeLock) : (s.addLocks ck ls).power = s.power := rfl
@[simp] theorem State.addLocks_fw (s : State) (ck : Nat) (ls : List RangeLock) : (s.addLocks ck ls).fw = s.fw := rfl
@[simp] theorem State.addLocks_links (s : State) (ck : Nat) (ls : List RangeLock) : (s.addLocks ck ls).links = s.links := rfl
@[simp] theorem State.addLocks_dports (s : State) (ck : Nat) (ls : List RangeLock) : (s.addLocks ck ls).dports = s.dports := rfl
@[simp] theorem State.addLocks_dlinks (s : State) (ck : Nat) (ls : List RangeLock) : (s.addLocks ck ls).dlinks = s.dlinks := rfl
@[simp] theorem State.addLocks_parts (s : State) (ck : Nat) (ls : List RangeLock) : (s.addLocks ck ls).parts = s.parts := rfl
@[simp] theorem State.addLocks_ctxs (s : State) (ck : Nat) (ls : List RangeLock) : (s.addLocks ck ls).ctxs = s.ctxs := rfl
@[simp] theorem State.addLocks_cores (s : State) (ck : Nat) (ls : List RangeLock) : (s.addLocks ck ls).cores = s.cores := rfl
@[simp] theorem State.addLocks_groups (s : State) (ck : Nat) (ls : List RangeLock) : (s.addLocks ck ls).groups = s.groups := rfl
@[simp] theorem State.addLocks_saved (s : State) (ck : Nat) (ls : List RangeLock) : (s.addLocks ck ls).saved = s.saved := rfl
@[simp] theorem State.addLocks_teams (s : State) (ck : Nat) (ls : List RangeLock) : (s.addLocks ck ls).teams = s.teams := rfl
@[simp] theorem State.addLocks_engines (s : State) (ck : Nat) (ls : List RangeLock) : (s.addLocks ck ls).engines = s.engines := rfl
@[simp] theorem State.addLocks_bulks (s : State) (ck : Nat) (ls : List RangeLock) : (s.addLocks ck ls).bulks = s.bulks := rfl
@[simp] theorem State.addLocks_mmabs (s : State) (ck : Nat) (ls : List RangeLock) : (s.addLocks ck ls).mmabs = s.mmabs := rfl
@[simp] theorem State.addLocks_colls (s : State) (ck : Nat) (ls : List RangeLock) : (s.addLocks ck ls).colls = s.colls := rfl
@[simp] theorem State.addLocks_samples (s : State) (ck : Nat) (ls : List RangeLock) : (s.addLocks ck ls).samples = s.samples := rfl
@[simp] theorem State.addLocks_tlb (s : State) (ck : Nat) (ls : List RangeLock) : (s.addLocks ck ls).tlb = s.tlb := rfl
@[simp] theorem State.addLocks_mem (s : State) (ck : Nat) (ls : List RangeLock) : (s.addLocks ck ls).mem = s.mem := rfl
@[simp] theorem State.addLocks_pois (s : State) (ck : Nat) (ls : List RangeLock) : (s.addLocks ck ls).pois = s.pois := rfl
@[simp] theorem State.addLocks_corrected (s : State) (ck : Nat) (ls : List RangeLock) : (s.addLocks ck ls).corrected = s.corrected := rfl
@[simp] theorem State.addLocks_out (s : State) (ck : Nat) (ls : List RangeLock) : (s.addLocks ck ls).out = s.out := rfl
@[simp] theorem State.addLocks_serial (s : State) (ck : Nat) (ls : List RangeLock) : (s.addLocks ck ls).serial = s.serial := rfl
@[simp] theorem State.addLocks_free (s : State) (ck : Nat) (ls : List RangeLock) : (s.addLocks ck ls).free = s.free := rfl

@[simp] theorem State.modColl_agenda (s : State) (op : Nat) (f : CollOp → CollOp) : (s.modColl op f).agenda = s.agenda := rfl
@[simp] theorem State.modColl_cur (s : State) (op : Nat) (f : CollOp → CollOp) : (s.modColl op f).cur = s.cur := rfl
@[simp] theorem State.modColl_clock (s : State) (op : Nat) (f : CollOp → CollOp) : (s.modColl op f).clock = s.clock := rfl
@[simp] theorem State.modColl_sub (s : State) (op : Nat) (f : CollOp → CollOp) : (s.modColl op f).sub = s.sub := rfl
@[simp] theorem State.modColl_timer (s : State) (op : Nat) (f : CollOp → CollOp) : (s.modColl op f).timer = s.timer := rfl
@[simp] theorem State.modColl_power (s : State) (op : Nat) (f : CollOp → CollOp) : (s.modColl op f).power = s.power := rfl
@[simp] theorem State.modColl_fw (s : State) (op : Nat) (f : CollOp → CollOp) : (s.modColl op f).fw = s.fw := rfl
@[simp] theorem State.modColl_links (s : State) (op : Nat) (f : CollOp → CollOp) : (s.modColl op f).links = s.links := rfl
@[simp] theorem State.modColl_dports (s : State) (op : Nat) (f : CollOp → CollOp) : (s.modColl op f).dports = s.dports := rfl
@[simp] theorem State.modColl_dlinks (s : State) (op : Nat) (f : CollOp → CollOp) : (s.modColl op f).dlinks = s.dlinks := rfl
@[simp] theorem State.modColl_parts (s : State) (op : Nat) (f : CollOp → CollOp) : (s.modColl op f).parts = s.parts := rfl
@[simp] theorem State.modColl_ctxs (s : State) (op : Nat) (f : CollOp → CollOp) : (s.modColl op f).ctxs = s.ctxs := rfl
@[simp] theorem State.modColl_cores (s : State) (op : Nat) (f : CollOp → CollOp) : (s.modColl op f).cores = s.cores := rfl
@[simp] theorem State.modColl_groups (s : State) (op : Nat) (f : CollOp → CollOp) : (s.modColl op f).groups = s.groups := rfl
@[simp] theorem State.modColl_saved (s : State) (op : Nat) (f : CollOp → CollOp) : (s.modColl op f).saved = s.saved := rfl
@[simp] theorem State.modColl_teams (s : State) (op : Nat) (f : CollOp → CollOp) : (s.modColl op f).teams = s.teams := rfl
@[simp] theorem State.modColl_engines (s : State) (op : Nat) (f : CollOp → CollOp) : (s.modColl op f).engines = s.engines := rfl
@[simp] theorem State.modColl_bulks (s : State) (op : Nat) (f : CollOp → CollOp) : (s.modColl op f).bulks = s.bulks := rfl
@[simp] theorem State.modColl_mmabs (s : State) (op : Nat) (f : CollOp → CollOp) : (s.modColl op f).mmabs = s.mmabs := rfl
@[simp] theorem State.modColl_locks (s : State) (op : Nat) (f : CollOp → CollOp) : (s.modColl op f).locks = s.locks := rfl
@[simp] theorem State.modColl_samples (s : State) (op : Nat) (f : CollOp → CollOp) : (s.modColl op f).samples = s.samples := rfl
@[simp] theorem State.modColl_tlb (s : State) (op : Nat) (f : CollOp → CollOp) : (s.modColl op f).tlb = s.tlb := rfl
@[simp] theorem State.modColl_mem (s : State) (op : Nat) (f : CollOp → CollOp) : (s.modColl op f).mem = s.mem := rfl
@[simp] theorem State.modColl_pois (s : State) (op : Nat) (f : CollOp → CollOp) : (s.modColl op f).pois = s.pois := rfl
@[simp] theorem State.modColl_corrected (s : State) (op : Nat) (f : CollOp → CollOp) : (s.modColl op f).corrected = s.corrected := rfl
@[simp] theorem State.modColl_out (s : State) (op : Nat) (f : CollOp → CollOp) : (s.modColl op f).out = s.out := rfl
@[simp] theorem State.modColl_serial (s : State) (op : Nat) (f : CollOp → CollOp) : (s.modColl op f).serial = s.serial := rfl
@[simp] theorem State.modColl_free (s : State) (op : Nat) (f : CollOp → CollOp) : (s.modColl op f).free = s.free := rfl

@[simp] theorem State.setDport_agenda (s : State) (p : Nat) (d : DPort) : (s.setDport p d).agenda = s.agenda := rfl
@[simp] theorem State.setDport_cur (s : State) (p : Nat) (d : DPort) : (s.setDport p d).cur = s.cur := rfl
@[simp] theorem State.setDport_clock (s : State) (p : Nat) (d : DPort) : (s.setDport p d).clock = s.clock := rfl
@[simp] theorem State.setDport_sub (s : State) (p : Nat) (d : DPort) : (s.setDport p d).sub = s.sub := rfl
@[simp] theorem State.setDport_timer (s : State) (p : Nat) (d : DPort) : (s.setDport p d).timer = s.timer := rfl
@[simp] theorem State.setDport_power (s : State) (p : Nat) (d : DPort) : (s.setDport p d).power = s.power := rfl
@[simp] theorem State.setDport_fw (s : State) (p : Nat) (d : DPort) : (s.setDport p d).fw = s.fw := rfl
@[simp] theorem State.setDport_links (s : State) (p : Nat) (d : DPort) : (s.setDport p d).links = s.links := rfl
@[simp] theorem State.setDport_dlinks (s : State) (p : Nat) (d : DPort) : (s.setDport p d).dlinks = s.dlinks := rfl
@[simp] theorem State.setDport_parts (s : State) (p : Nat) (d : DPort) : (s.setDport p d).parts = s.parts := rfl
@[simp] theorem State.setDport_ctxs (s : State) (p : Nat) (d : DPort) : (s.setDport p d).ctxs = s.ctxs := rfl
@[simp] theorem State.setDport_cores (s : State) (p : Nat) (d : DPort) : (s.setDport p d).cores = s.cores := rfl
@[simp] theorem State.setDport_groups (s : State) (p : Nat) (d : DPort) : (s.setDport p d).groups = s.groups := rfl
@[simp] theorem State.setDport_saved (s : State) (p : Nat) (d : DPort) : (s.setDport p d).saved = s.saved := rfl
@[simp] theorem State.setDport_teams (s : State) (p : Nat) (d : DPort) : (s.setDport p d).teams = s.teams := rfl
@[simp] theorem State.setDport_engines (s : State) (p : Nat) (d : DPort) : (s.setDport p d).engines = s.engines := rfl
@[simp] theorem State.setDport_bulks (s : State) (p : Nat) (d : DPort) : (s.setDport p d).bulks = s.bulks := rfl
@[simp] theorem State.setDport_mmabs (s : State) (p : Nat) (d : DPort) : (s.setDport p d).mmabs = s.mmabs := rfl
@[simp] theorem State.setDport_colls (s : State) (p : Nat) (d : DPort) : (s.setDport p d).colls = s.colls := rfl
@[simp] theorem State.setDport_locks (s : State) (p : Nat) (d : DPort) : (s.setDport p d).locks = s.locks := rfl
@[simp] theorem State.setDport_samples (s : State) (p : Nat) (d : DPort) : (s.setDport p d).samples = s.samples := rfl
@[simp] theorem State.setDport_tlb (s : State) (p : Nat) (d : DPort) : (s.setDport p d).tlb = s.tlb := rfl
@[simp] theorem State.setDport_mem (s : State) (p : Nat) (d : DPort) : (s.setDport p d).mem = s.mem := rfl
@[simp] theorem State.setDport_pois (s : State) (p : Nat) (d : DPort) : (s.setDport p d).pois = s.pois := rfl
@[simp] theorem State.setDport_corrected (s : State) (p : Nat) (d : DPort) : (s.setDport p d).corrected = s.corrected := rfl
@[simp] theorem State.setDport_out (s : State) (p : Nat) (d : DPort) : (s.setDport p d).out = s.out := rfl
@[simp] theorem State.setDport_serial (s : State) (p : Nat) (d : DPort) : (s.setDport p d).serial = s.serial := rfl
@[simp] theorem State.setDport_free (s : State) (p : Nat) (d : DPort) : (s.setDport p d).free = s.free := rfl

@[simp] theorem State.modLink_agenda (s : State) (link : Nat) (f : Link → Link) : (s.modLink link f).agenda = s.agenda := rfl
@[simp] theorem State.modLink_cur (s : State) (link : Nat) (f : Link → Link) : (s.modLink link f).cur = s.cur := rfl
@[simp] theorem State.modLink_clock (s : State) (link : Nat) (f : Link → Link) : (s.modLink link f).clock = s.clock := rfl
@[simp] theorem State.modLink_sub (s : State) (link : Nat) (f : Link → Link) : (s.modLink link f).sub = s.sub := rfl
@[simp] theorem State.modLink_timer (s : State) (link : Nat) (f : Link → Link) : (s.modLink link f).timer = s.timer := rfl
@[simp] theorem State.modLink_power (s : State) (link : Nat) (f : Link → Link) : (s.modLink link f).power = s.power := rfl
@[simp] theorem State.modLink_fw (s : State) (link : Nat) (f : Link → Link) : (s.modLink link f).fw = s.fw := rfl
@[simp] theorem State.modLink_dports (s : State) (link : Nat) (f : Link → Link) : (s.modLink link f).dports = s.dports := rfl
@[simp] theorem State.modLink_dlinks (s : State) (link : Nat) (f : Link → Link) : (s.modLink link f).dlinks = s.dlinks := rfl
@[simp] theorem State.modLink_parts (s : State) (link : Nat) (f : Link → Link) : (s.modLink link f).parts = s.parts := rfl
@[simp] theorem State.modLink_ctxs (s : State) (link : Nat) (f : Link → Link) : (s.modLink link f).ctxs = s.ctxs := rfl
@[simp] theorem State.modLink_cores (s : State) (link : Nat) (f : Link → Link) : (s.modLink link f).cores = s.cores := rfl
@[simp] theorem State.modLink_groups (s : State) (link : Nat) (f : Link → Link) : (s.modLink link f).groups = s.groups := rfl
@[simp] theorem State.modLink_saved (s : State) (link : Nat) (f : Link → Link) : (s.modLink link f).saved = s.saved := rfl
@[simp] theorem State.modLink_teams (s : State) (link : Nat) (f : Link → Link) : (s.modLink link f).teams = s.teams := rfl
@[simp] theorem State.modLink_engines (s : State) (link : Nat) (f : Link → Link) : (s.modLink link f).engines = s.engines := rfl
@[simp] theorem State.modLink_bulks (s : State) (link : Nat) (f : Link → Link) : (s.modLink link f).bulks = s.bulks := rfl
@[simp] theorem State.modLink_mmabs (s : State) (link : Nat) (f : Link → Link) : (s.modLink link f).mmabs = s.mmabs := rfl
@[simp] theorem State.modLink_colls (s : State) (link : Nat) (f : Link → Link) : (s.modLink link f).colls = s.colls := rfl
@[simp] theorem State.modLink_locks (s : State) (link : Nat) (f : Link → Link) : (s.modLink link f).locks = s.locks := rfl
@[simp] theorem State.modLink_samples (s : State) (link : Nat) (f : Link → Link) : (s.modLink link f).samples = s.samples := rfl
@[simp] theorem State.modLink_tlb (s : State) (link : Nat) (f : Link → Link) : (s.modLink link f).tlb = s.tlb := rfl
@[simp] theorem State.modLink_mem (s : State) (link : Nat) (f : Link → Link) : (s.modLink link f).mem = s.mem := rfl
@[simp] theorem State.modLink_pois (s : State) (link : Nat) (f : Link → Link) : (s.modLink link f).pois = s.pois := rfl
@[simp] theorem State.modLink_corrected (s : State) (link : Nat) (f : Link → Link) : (s.modLink link f).corrected = s.corrected := rfl
@[simp] theorem State.modLink_out (s : State) (link : Nat) (f : Link → Link) : (s.modLink link f).out = s.out := rfl
@[simp] theorem State.modLink_serial (s : State) (link : Nat) (f : Link → Link) : (s.modLink link f).serial = s.serial := rfl
@[simp] theorem State.modLink_free (s : State) (link : Nat) (f : Link → Link) : (s.modLink link f).free = s.free := rfl

@[simp] theorem State.setByte_agenda (s : State) (a : Nat) (b : Byte) : (s.setByte a b).agenda = s.agenda := rfl
@[simp] theorem State.setByte_cur (s : State) (a : Nat) (b : Byte) : (s.setByte a b).cur = s.cur := rfl
@[simp] theorem State.setByte_clock (s : State) (a : Nat) (b : Byte) : (s.setByte a b).clock = s.clock := rfl
@[simp] theorem State.setByte_sub (s : State) (a : Nat) (b : Byte) : (s.setByte a b).sub = s.sub := rfl
@[simp] theorem State.setByte_timer (s : State) (a : Nat) (b : Byte) : (s.setByte a b).timer = s.timer := rfl
@[simp] theorem State.setByte_power (s : State) (a : Nat) (b : Byte) : (s.setByte a b).power = s.power := rfl
@[simp] theorem State.setByte_fw (s : State) (a : Nat) (b : Byte) : (s.setByte a b).fw = s.fw := rfl
@[simp] theorem State.setByte_links (s : State) (a : Nat) (b : Byte) : (s.setByte a b).links = s.links := rfl
@[simp] theorem State.setByte_dports (s : State) (a : Nat) (b : Byte) : (s.setByte a b).dports = s.dports := rfl
@[simp] theorem State.setByte_dlinks (s : State) (a : Nat) (b : Byte) : (s.setByte a b).dlinks = s.dlinks := rfl
@[simp] theorem State.setByte_parts (s : State) (a : Nat) (b : Byte) : (s.setByte a b).parts = s.parts := rfl
@[simp] theorem State.setByte_ctxs (s : State) (a : Nat) (b : Byte) : (s.setByte a b).ctxs = s.ctxs := rfl
@[simp] theorem State.setByte_cores (s : State) (a : Nat) (b : Byte) : (s.setByte a b).cores = s.cores := rfl
@[simp] theorem State.setByte_groups (s : State) (a : Nat) (b : Byte) : (s.setByte a b).groups = s.groups := rfl
@[simp] theorem State.setByte_saved (s : State) (a : Nat) (b : Byte) : (s.setByte a b).saved = s.saved := rfl
@[simp] theorem State.setByte_teams (s : State) (a : Nat) (b : Byte) : (s.setByte a b).teams = s.teams := rfl
@[simp] theorem State.setByte_engines (s : State) (a : Nat) (b : Byte) : (s.setByte a b).engines = s.engines := rfl
@[simp] theorem State.setByte_bulks (s : State) (a : Nat) (b : Byte) : (s.setByte a b).bulks = s.bulks := rfl
@[simp] theorem State.setByte_mmabs (s : State) (a : Nat) (b : Byte) : (s.setByte a b).mmabs = s.mmabs := rfl
@[simp] theorem State.setByte_colls (s : State) (a : Nat) (b : Byte) : (s.setByte a b).colls = s.colls := rfl
@[simp] theorem State.setByte_locks (s : State) (a : Nat) (b : Byte) : (s.setByte a b).locks = s.locks := rfl
@[simp] theorem State.setByte_samples (s : State) (a : Nat) (b : Byte) : (s.setByte a b).samples = s.samples := rfl
@[simp] theorem State.setByte_tlb (s : State) (a : Nat) (b : Byte) : (s.setByte a b).tlb = s.tlb := rfl
@[simp] theorem State.setByte_pois (s : State) (a : Nat) (b : Byte) : (s.setByte a b).pois = s.pois := rfl
@[simp] theorem State.setByte_corrected (s : State) (a : Nat) (b : Byte) : (s.setByte a b).corrected = s.corrected := rfl
@[simp] theorem State.setByte_out (s : State) (a : Nat) (b : Byte) : (s.setByte a b).out = s.out := rfl
@[simp] theorem State.setByte_serial (s : State) (a : Nat) (b : Byte) : (s.setByte a b).serial = s.serial := rfl
@[simp] theorem State.setByte_free (s : State) (a : Nat) (b : Byte) : (s.setByte a b).free = s.free := rfl

@[simp] theorem State.setBytes_agenda (s : State) (a : Nat) (bs : List Byte) : (s.setBytes a bs).agenda = s.agenda := rfl
@[simp] theorem State.setBytes_cur (s : State) (a : Nat) (bs : List Byte) : (s.setBytes a bs).cur = s.cur := rfl
@[simp] theorem State.setBytes_clock (s : State) (a : Nat) (bs : List Byte) : (s.setBytes a bs).clock = s.clock := rfl
@[simp] theorem State.setBytes_sub (s : State) (a : Nat) (bs : List Byte) : (s.setBytes a bs).sub = s.sub := rfl
@[simp] theorem State.setBytes_timer (s : State) (a : Nat) (bs : List Byte) : (s.setBytes a bs).timer = s.timer := rfl
@[simp] theorem State.setBytes_power (s : State) (a : Nat) (bs : List Byte) : (s.setBytes a bs).power = s.power := rfl
@[simp] theorem State.setBytes_fw (s : State) (a : Nat) (bs : List Byte) : (s.setBytes a bs).fw = s.fw := rfl
@[simp] theorem State.setBytes_links (s : State) (a : Nat) (bs : List Byte) : (s.setBytes a bs).links = s.links := rfl
@[simp] theorem State.setBytes_dports (s : State) (a : Nat) (bs : List Byte) : (s.setBytes a bs).dports = s.dports := rfl
@[simp] theorem State.setBytes_dlinks (s : State) (a : Nat) (bs : List Byte) : (s.setBytes a bs).dlinks = s.dlinks := rfl
@[simp] theorem State.setBytes_parts (s : State) (a : Nat) (bs : List Byte) : (s.setBytes a bs).parts = s.parts := rfl
@[simp] theorem State.setBytes_ctxs (s : State) (a : Nat) (bs : List Byte) : (s.setBytes a bs).ctxs = s.ctxs := rfl
@[simp] theorem State.setBytes_cores (s : State) (a : Nat) (bs : List Byte) : (s.setBytes a bs).cores = s.cores := rfl
@[simp] theorem State.setBytes_groups (s : State) (a : Nat) (bs : List Byte) : (s.setBytes a bs).groups = s.groups := rfl
@[simp] theorem State.setBytes_saved (s : State) (a : Nat) (bs : List Byte) : (s.setBytes a bs).saved = s.saved := rfl
@[simp] theorem State.setBytes_teams (s : State) (a : Nat) (bs : List Byte) : (s.setBytes a bs).teams = s.teams := rfl
@[simp] theorem State.setBytes_engines (s : State) (a : Nat) (bs : List Byte) : (s.setBytes a bs).engines = s.engines := rfl
@[simp] theorem State.setBytes_bulks (s : State) (a : Nat) (bs : List Byte) : (s.setBytes a bs).bulks = s.bulks := rfl
@[simp] theorem State.setBytes_mmabs (s : State) (a : Nat) (bs : List Byte) : (s.setBytes a bs).mmabs = s.mmabs := rfl
@[simp] theorem State.setBytes_colls (s : State) (a : Nat) (bs : List Byte) : (s.setBytes a bs).colls = s.colls := rfl
@[simp] theorem State.setBytes_locks (s : State) (a : Nat) (bs : List Byte) : (s.setBytes a bs).locks = s.locks := rfl
@[simp] theorem State.setBytes_samples (s : State) (a : Nat) (bs : List Byte) : (s.setBytes a bs).samples = s.samples := rfl
@[simp] theorem State.setBytes_tlb (s : State) (a : Nat) (bs : List Byte) : (s.setBytes a bs).tlb = s.tlb := rfl
@[simp] theorem State.setBytes_pois (s : State) (a : Nat) (bs : List Byte) : (s.setBytes a bs).pois = s.pois := rfl
@[simp] theorem State.setBytes_corrected (s : State) (a : Nat) (bs : List Byte) : (s.setBytes a bs).corrected = s.corrected := rfl
@[simp] theorem State.setBytes_out (s : State) (a : Nat) (bs : List Byte) : (s.setBytes a bs).out = s.out := rfl
@[simp] theorem State.setBytes_serial (s : State) (a : Nat) (bs : List Byte) : (s.setBytes a bs).serial = s.serial := rfl
@[simp] theorem State.setBytes_free (s : State) (a : Nat) (bs : List Byte) : (s.setBytes a bs).free = s.free := rfl

@[simp] theorem State.setPoison_agenda (s : State) (a : Nat) (p : Bool) : (s.setPoison a p).agenda = s.agenda := rfl
@[simp] theorem State.setPoison_cur (s : State) (a : Nat) (p : Bool) : (s.setPoison a p).cur = s.cur := rfl
@[simp] theorem State.setPoison_clock (s : State) (a : Nat) (p : Bool) : (s.setPoison a p).clock = s.clock := rfl
@[simp] theorem State.setPoison_sub (s : State) (a : Nat) (p : Bool) : (s.setPoison a p).sub = s.sub := rfl
@[simp] theorem State.setPoison_timer (s : State) (a : Nat) (p : Bool) : (s.setPoison a p).timer = s.timer := rfl
@[simp] theorem State.setPoison_power (s : State) (a : Nat) (p : Bool) : (s.setPoison a p).power = s.power := rfl
@[simp] theorem State.setPoison_fw (s : State) (a : Nat) (p : Bool) : (s.setPoison a p).fw = s.fw := rfl
@[simp] theorem State.setPoison_links (s : State) (a : Nat) (p : Bool) : (s.setPoison a p).links = s.links := rfl
@[simp] theorem State.setPoison_dports (s : State) (a : Nat) (p : Bool) : (s.setPoison a p).dports = s.dports := rfl
@[simp] theorem State.setPoison_dlinks (s : State) (a : Nat) (p : Bool) : (s.setPoison a p).dlinks = s.dlinks := rfl
@[simp] theorem State.setPoison_parts (s : State) (a : Nat) (p : Bool) : (s.setPoison a p).parts = s.parts := rfl
@[simp] theorem State.setPoison_ctxs (s : State) (a : Nat) (p : Bool) : (s.setPoison a p).ctxs = s.ctxs := rfl
@[simp] theorem State.setPoison_cores (s : State) (a : Nat) (p : Bool) : (s.setPoison a p).cores = s.cores := rfl
@[simp] theorem State.setPoison_groups (s : State) (a : Nat) (p : Bool) : (s.setPoison a p).groups = s.groups := rfl
@[simp] theorem State.setPoison_saved (s : State) (a : Nat) (p : Bool) : (s.setPoison a p).saved = s.saved := rfl
@[simp] theorem State.setPoison_teams (s : State) (a : Nat) (p : Bool) : (s.setPoison a p).teams = s.teams := rfl
@[simp] theorem State.setPoison_engines (s : State) (a : Nat) (p : Bool) : (s.setPoison a p).engines = s.engines := rfl
@[simp] theorem State.setPoison_bulks (s : State) (a : Nat) (p : Bool) : (s.setPoison a p).bulks = s.bulks := rfl
@[simp] theorem State.setPoison_mmabs (s : State) (a : Nat) (p : Bool) : (s.setPoison a p).mmabs = s.mmabs := rfl
@[simp] theorem State.setPoison_colls (s : State) (a : Nat) (p : Bool) : (s.setPoison a p).colls = s.colls := rfl
@[simp] theorem State.setPoison_locks (s : State) (a : Nat) (p : Bool) : (s.setPoison a p).locks = s.locks := rfl
@[simp] theorem State.setPoison_samples (s : State) (a : Nat) (p : Bool) : (s.setPoison a p).samples = s.samples := rfl
@[simp] theorem State.setPoison_tlb (s : State) (a : Nat) (p : Bool) : (s.setPoison a p).tlb = s.tlb := rfl
@[simp] theorem State.setPoison_mem (s : State) (a : Nat) (p : Bool) : (s.setPoison a p).mem = s.mem := rfl
@[simp] theorem State.setPoison_corrected (s : State) (a : Nat) (p : Bool) : (s.setPoison a p).corrected = s.corrected := rfl
@[simp] theorem State.setPoison_out (s : State) (a : Nat) (p : Bool) : (s.setPoison a p).out = s.out := rfl
@[simp] theorem State.setPoison_serial (s : State) (a : Nat) (p : Bool) : (s.setPoison a p).serial = s.serial := rfl
@[simp] theorem State.setPoison_free (s : State) (a : Nat) (p : Bool) : (s.setPoison a p).free = s.free := rfl

@[simp] theorem State.zeroRange_agenda (s : State) (lo hi : Nat) : (s.zeroRange lo hi).agenda = s.agenda := rfl
@[simp] theorem State.zeroRange_cur (s : State) (lo hi : Nat) : (s.zeroRange lo hi).cur = s.cur := rfl
@[simp] theorem State.zeroRange_clock (s : State) (lo hi : Nat) : (s.zeroRange lo hi).clock = s.clock := rfl
@[simp] theorem State.zeroRange_sub (s : State) (lo hi : Nat) : (s.zeroRange lo hi).sub = s.sub := rfl
@[simp] theorem State.zeroRange_timer (s : State) (lo hi : Nat) : (s.zeroRange lo hi).timer = s.timer := rfl
@[simp] theorem State.zeroRange_power (s : State) (lo hi : Nat) : (s.zeroRange lo hi).power = s.power := rfl
@[simp] theorem State.zeroRange_fw (s : State) (lo hi : Nat) : (s.zeroRange lo hi).fw = s.fw := rfl
@[simp] theorem State.zeroRange_links (s : State) (lo hi : Nat) : (s.zeroRange lo hi).links = s.links := rfl
@[simp] theorem State.zeroRange_dports (s : State) (lo hi : Nat) : (s.zeroRange lo hi).dports = s.dports := rfl
@[simp] theorem State.zeroRange_dlinks (s : State) (lo hi : Nat) : (s.zeroRange lo hi).dlinks = s.dlinks := rfl
@[simp] theorem State.zeroRange_parts (s : State) (lo hi : Nat) : (s.zeroRange lo hi).parts = s.parts := rfl
@[simp] theorem State.zeroRange_ctxs (s : State) (lo hi : Nat) : (s.zeroRange lo hi).ctxs = s.ctxs := rfl
@[simp] theorem State.zeroRange_cores (s : State) (lo hi : Nat) : (s.zeroRange lo hi).cores = s.cores := rfl
@[simp] theorem State.zeroRange_groups (s : State) (lo hi : Nat) : (s.zeroRange lo hi).groups = s.groups := rfl
@[simp] theorem State.zeroRange_saved (s : State) (lo hi : Nat) : (s.zeroRange lo hi).saved = s.saved := rfl
@[simp] theorem State.zeroRange_teams (s : State) (lo hi : Nat) : (s.zeroRange lo hi).teams = s.teams := rfl
@[simp] theorem State.zeroRange_engines (s : State) (lo hi : Nat) : (s.zeroRange lo hi).engines = s.engines := rfl
@[simp] theorem State.zeroRange_bulks (s : State) (lo hi : Nat) : (s.zeroRange lo hi).bulks = s.bulks := rfl
@[simp] theorem State.zeroRange_mmabs (s : State) (lo hi : Nat) : (s.zeroRange lo hi).mmabs = s.mmabs := rfl
@[simp] theorem State.zeroRange_colls (s : State) (lo hi : Nat) : (s.zeroRange lo hi).colls = s.colls := rfl
@[simp] theorem State.zeroRange_locks (s : State) (lo hi : Nat) : (s.zeroRange lo hi).locks = s.locks := rfl
@[simp] theorem State.zeroRange_samples (s : State) (lo hi : Nat) : (s.zeroRange lo hi).samples = s.samples := rfl
@[simp] theorem State.zeroRange_tlb (s : State) (lo hi : Nat) : (s.zeroRange lo hi).tlb = s.tlb := rfl
@[simp] theorem State.zeroRange_corrected (s : State) (lo hi : Nat) : (s.zeroRange lo hi).corrected = s.corrected := rfl
@[simp] theorem State.zeroRange_out (s : State) (lo hi : Nat) : (s.zeroRange lo hi).out = s.out := rfl
@[simp] theorem State.zeroRange_serial (s : State) (lo hi : Nat) : (s.zeroRange lo hi).serial = s.serial := rfl
@[simp] theorem State.zeroRange_free (s : State) (lo hi : Nat) : (s.zeroRange lo hi).free = s.free := rfl

@[simp] theorem State.dropReturned_agenda (s : State) (w : Waiter) : (s.dropReturned w).agenda = s.agenda := rfl
@[simp] theorem State.dropReturned_cur (s : State) (w : Waiter) : (s.dropReturned w).cur = s.cur := rfl
@[simp] theorem State.dropReturned_clock (s : State) (w : Waiter) : (s.dropReturned w).clock = s.clock := rfl
@[simp] theorem State.dropReturned_sub (s : State) (w : Waiter) : (s.dropReturned w).sub = s.sub := rfl
@[simp] theorem State.dropReturned_timer (s : State) (w : Waiter) : (s.dropReturned w).timer = s.timer := rfl
@[simp] theorem State.dropReturned_power (s : State) (w : Waiter) : (s.dropReturned w).power = s.power := rfl
@[simp] theorem State.dropReturned_fw (s : State) (w : Waiter) : (s.dropReturned w).fw = s.fw := rfl
@[simp] theorem State.dropReturned_dports (s : State) (w : Waiter) : (s.dropReturned w).dports = s.dports := rfl
@[simp] theorem State.dropReturned_dlinks (s : State) (w : Waiter) : (s.dropReturned w).dlinks = s.dlinks := rfl
@[simp] theorem State.dropReturned_parts (s : State) (w : Waiter) : (s.dropReturned w).parts = s.parts := rfl
@[simp] theorem State.dropReturned_ctxs (s : State) (w : Waiter) : (s.dropReturned w).ctxs = s.ctxs := rfl
@[simp] theorem State.dropReturned_cores (s : State) (w : Waiter) : (s.dropReturned w).cores = s.cores := rfl
@[simp] theorem State.dropReturned_groups (s : State) (w : Waiter) : (s.dropReturned w).groups = s.groups := rfl
@[simp] theorem State.dropReturned_saved (s : State) (w : Waiter) : (s.dropReturned w).saved = s.saved := rfl
@[simp] theorem State.dropReturned_teams (s : State) (w : Waiter) : (s.dropReturned w).teams = s.teams := rfl
@[simp] theorem State.dropReturned_engines (s : State) (w : Waiter) : (s.dropReturned w).engines = s.engines := rfl
@[simp] theorem State.dropReturned_bulks (s : State) (w : Waiter) : (s.dropReturned w).bulks = s.bulks := rfl
@[simp] theorem State.dropReturned_mmabs (s : State) (w : Waiter) : (s.dropReturned w).mmabs = s.mmabs := rfl
@[simp] theorem State.dropReturned_colls (s : State) (w : Waiter) : (s.dropReturned w).colls = s.colls := rfl
@[simp] theorem State.dropReturned_locks (s : State) (w : Waiter) : (s.dropReturned w).locks = s.locks := rfl
@[simp] theorem State.dropReturned_samples (s : State) (w : Waiter) : (s.dropReturned w).samples = s.samples := rfl
@[simp] theorem State.dropReturned_tlb (s : State) (w : Waiter) : (s.dropReturned w).tlb = s.tlb := rfl
@[simp] theorem State.dropReturned_mem (s : State) (w : Waiter) : (s.dropReturned w).mem = s.mem := rfl
@[simp] theorem State.dropReturned_pois (s : State) (w : Waiter) : (s.dropReturned w).pois = s.pois := rfl
@[simp] theorem State.dropReturned_corrected (s : State) (w : Waiter) : (s.dropReturned w).corrected = s.corrected := rfl
@[simp] theorem State.dropReturned_out (s : State) (w : Waiter) : (s.dropReturned w).out = s.out := rfl
@[simp] theorem State.dropReturned_serial (s : State) (w : Waiter) : (s.dropReturned w).serial = s.serial := rfl
@[simp] theorem State.dropReturned_free (s : State) (w : Waiter) : (s.dropReturned w).free = s.free := rfl

@[simp] theorem State.disablePorts_agenda (s : State) (test : Port → Bool) : (s.disablePorts test).agenda = s.agenda := rfl
@[simp] theorem State.disablePorts_cur (s : State) (test : Port → Bool) : (s.disablePorts test).cur = s.cur := rfl
@[simp] theorem State.disablePorts_clock (s : State) (test : Port → Bool) : (s.disablePorts test).clock = s.clock := rfl
@[simp] theorem State.disablePorts_sub (s : State) (test : Port → Bool) : (s.disablePorts test).sub = s.sub := rfl
@[simp] theorem State.disablePorts_timer (s : State) (test : Port → Bool) : (s.disablePorts test).timer = s.timer := rfl
@[simp] theorem State.disablePorts_power (s : State) (test : Port → Bool) : (s.disablePorts test).power = s.power := rfl
@[simp] theorem State.disablePorts_fw (s : State) (test : Port → Bool) : (s.disablePorts test).fw = s.fw := rfl
@[simp] theorem State.disablePorts_dports (s : State) (test : Port → Bool) : (s.disablePorts test).dports = s.dports := rfl
@[simp] theorem State.disablePorts_dlinks (s : State) (test : Port → Bool) : (s.disablePorts test).dlinks = s.dlinks := rfl
@[simp] theorem State.disablePorts_parts (s : State) (test : Port → Bool) : (s.disablePorts test).parts = s.parts := rfl
@[simp] theorem State.disablePorts_ctxs (s : State) (test : Port → Bool) : (s.disablePorts test).ctxs = s.ctxs := rfl
@[simp] theorem State.disablePorts_cores (s : State) (test : Port → Bool) : (s.disablePorts test).cores = s.cores := rfl
@[simp] theorem State.disablePorts_groups (s : State) (test : Port → Bool) : (s.disablePorts test).groups = s.groups := rfl
@[simp] theorem State.disablePorts_saved (s : State) (test : Port → Bool) : (s.disablePorts test).saved = s.saved := rfl
@[simp] theorem State.disablePorts_teams (s : State) (test : Port → Bool) : (s.disablePorts test).teams = s.teams := rfl
@[simp] theorem State.disablePorts_engines (s : State) (test : Port → Bool) : (s.disablePorts test).engines = s.engines := rfl
@[simp] theorem State.disablePorts_bulks (s : State) (test : Port → Bool) : (s.disablePorts test).bulks = s.bulks := rfl
@[simp] theorem State.disablePorts_mmabs (s : State) (test : Port → Bool) : (s.disablePorts test).mmabs = s.mmabs := rfl
@[simp] theorem State.disablePorts_colls (s : State) (test : Port → Bool) : (s.disablePorts test).colls = s.colls := rfl
@[simp] theorem State.disablePorts_locks (s : State) (test : Port → Bool) : (s.disablePorts test).locks = s.locks := rfl
@[simp] theorem State.disablePorts_samples (s : State) (test : Port → Bool) : (s.disablePorts test).samples = s.samples := rfl
@[simp] theorem State.disablePorts_tlb (s : State) (test : Port → Bool) : (s.disablePorts test).tlb = s.tlb := rfl
@[simp] theorem State.disablePorts_mem (s : State) (test : Port → Bool) : (s.disablePorts test).mem = s.mem := rfl
@[simp] theorem State.disablePorts_pois (s : State) (test : Port → Bool) : (s.disablePorts test).pois = s.pois := rfl
@[simp] theorem State.disablePorts_corrected (s : State) (test : Port → Bool) : (s.disablePorts test).corrected = s.corrected := rfl
@[simp] theorem State.disablePorts_out (s : State) (test : Port → Bool) : (s.disablePorts test).out = s.out := rfl
@[simp] theorem State.disablePorts_serial (s : State) (test : Port → Bool) : (s.disablePorts test).serial = s.serial := rfl
@[simp] theorem State.disablePorts_free (s : State) (test : Port → Bool) : (s.disablePorts test).free = s.free := rfl

@[simp] theorem State.modPower_agenda (s : State) (f : Power → Power) : (s.modPower f).agenda = s.agenda := rfl
@[simp] theorem State.modPower_cur (s : State) (f : Power → Power) : (s.modPower f).cur = s.cur := rfl
@[simp] theorem State.modPower_clock (s : State) (f : Power → Power) : (s.modPower f).clock = s.clock := rfl
@[simp] theorem State.modPower_sub (s : State) (f : Power → Power) : (s.modPower f).sub = s.sub := rfl
@[simp] theorem State.modPower_timer (s : State) (f : Power → Power) : (s.modPower f).timer = s.timer := rfl
@[simp] theorem State.modPower_fw (s : State) (f : Power → Power) : (s.modPower f).fw = s.fw := rfl
@[simp] theorem State.modPower_links (s : State) (f : Power → Power) : (s.modPower f).links = s.links := rfl
@[simp] theorem State.modPower_dports (s : State) (f : Power → Power) : (s.modPower f).dports = s.dports := rfl
@[simp] theorem State.modPower_dlinks (s : State) (f : Power → Power) : (s.modPower f).dlinks = s.dlinks := rfl
@[simp] theorem State.modPower_parts (s : State) (f : Power → Power) : (s.modPower f).parts = s.parts := rfl
@[simp] theorem State.modPower_ctxs (s : State) (f : Power → Power) : (s.modPower f).ctxs = s.ctxs := rfl
@[simp] theorem State.modPower_cores (s : State) (f : Power → Power) : (s.modPower f).cores = s.cores := rfl
@[simp] theorem State.modPower_groups (s : State) (f : Power → Power) : (s.modPower f).groups = s.groups := rfl
@[simp] theorem State.modPower_saved (s : State) (f : Power → Power) : (s.modPower f).saved = s.saved := rfl
@[simp] theorem State.modPower_teams (s : State) (f : Power → Power) : (s.modPower f).teams = s.teams := rfl
@[simp] theorem State.modPower_engines (s : State) (f : Power → Power) : (s.modPower f).engines = s.engines := rfl
@[simp] theorem State.modPower_bulks (s : State) (f : Power → Power) : (s.modPower f).bulks = s.bulks := rfl
@[simp] theorem State.modPower_mmabs (s : State) (f : Power → Power) : (s.modPower f).mmabs = s.mmabs := rfl
@[simp] theorem State.modPower_colls (s : State) (f : Power → Power) : (s.modPower f).colls = s.colls := rfl
@[simp] theorem State.modPower_locks (s : State) (f : Power → Power) : (s.modPower f).locks = s.locks := rfl
@[simp] theorem State.modPower_samples (s : State) (f : Power → Power) : (s.modPower f).samples = s.samples := rfl
@[simp] theorem State.modPower_tlb (s : State) (f : Power → Power) : (s.modPower f).tlb = s.tlb := rfl
@[simp] theorem State.modPower_mem (s : State) (f : Power → Power) : (s.modPower f).mem = s.mem := rfl
@[simp] theorem State.modPower_pois (s : State) (f : Power → Power) : (s.modPower f).pois = s.pois := rfl
@[simp] theorem State.modPower_corrected (s : State) (f : Power → Power) : (s.modPower f).corrected = s.corrected := rfl
@[simp] theorem State.modPower_out (s : State) (f : Power → Power) : (s.modPower f).out = s.out := rfl
@[simp] theorem State.modPower_serial (s : State) (f : Power → Power) : (s.modPower f).serial = s.serial := rfl
@[simp] theorem State.modPower_free (s : State) (f : Power → Power) : (s.modPower f).free = s.free := rfl

@[simp] theorem State.modCore_agenda (s : State) (ck : Nat) (f : CoreSt → CoreSt) : (s.modCore ck f).agenda = s.agenda := rfl
@[simp] theorem State.modCore_cur (s : State) (ck : Nat) (f : CoreSt → CoreSt) : (s.modCore ck f).cur = s.cur := rfl
@[simp] theorem State.modCore_clock (s : State) (ck : Nat) (f : CoreSt → CoreSt) : (s.modCore ck f).clock = s.clock := rfl
@[simp] theorem State.modCore_sub (s : State) (ck : Nat) (f : CoreSt → CoreSt) : (s.modCore ck f).sub = s.sub := rfl
@[simp] theorem State.modCore_timer (s : State) (ck : Nat) (f : CoreSt → CoreSt) : (s.modCore ck f).timer = s.timer := rfl
@[simp] theorem State.modCore_power (s : State) (ck : Nat) (f : CoreSt → CoreSt) : (s.modCore ck f).power = s.power := rfl
@[simp] theorem State.modCore_fw (s : State) (ck : Nat) (f : CoreSt → CoreSt) : (s.modCore ck f).fw = s.fw := rfl
@[simp] theorem State.modCore_links (s : State) (ck : Nat) (f : CoreSt → CoreSt) : (s.modCore ck f).links = s.links := rfl
@[simp] theorem State.modCore_dports (s : State) (ck : Nat) (f : CoreSt → CoreSt) : (s.modCore ck f).dports = s.dports := rfl
@[simp] theorem State.modCore_dlinks (s : State) (ck : Nat) (f : CoreSt → CoreSt) : (s.modCore ck f).dlinks = s.dlinks := rfl
@[simp] theorem State.modCore_parts (s : State) (ck : Nat) (f : CoreSt → CoreSt) : (s.modCore ck f).parts = s.parts := rfl
@[simp] theorem State.modCore_ctxs (s : State) (ck : Nat) (f : CoreSt → CoreSt) : (s.modCore ck f).ctxs = s.ctxs := rfl
@[simp] theorem State.modCore_groups (s : State) (ck : Nat) (f : CoreSt → CoreSt) : (s.modCore ck f).groups = s.groups := rfl
@[simp] theorem State.modCore_saved (s : State) (ck : Nat) (f : CoreSt → CoreSt) : (s.modCore ck f).saved = s.saved := rfl
@[simp] theorem State.modCore_teams (s : State) (ck : Nat) (f : CoreSt → CoreSt) : (s.modCore ck f).teams = s.teams := rfl
@[simp] theorem State.modCore_engines (s : State) (ck : Nat) (f : CoreSt → CoreSt) : (s.modCore ck f).engines = s.engines := rfl
@[simp] theorem State.modCore_bulks (s : State) (ck : Nat) (f : CoreSt → CoreSt) : (s.modCore ck f).bulks = s.bulks := rfl
@[simp] theorem State.modCore_mmabs (s : State) (ck : Nat) (f : CoreSt → CoreSt) : (s.modCore ck f).mmabs = s.mmabs := rfl
@[simp] theorem State.modCore_colls (s : State) (ck : Nat) (f : CoreSt → CoreSt) : (s.modCore ck f).colls = s.colls := rfl
@[simp] theorem State.modCore_locks (s : State) (ck : Nat) (f : CoreSt → CoreSt) : (s.modCore ck f).locks = s.locks := rfl
@[simp] theorem State.modCore_samples (s : State) (ck : Nat) (f : CoreSt → CoreSt) : (s.modCore ck f).samples = s.samples := rfl
@[simp] theorem State.modCore_tlb (s : State) (ck : Nat) (f : CoreSt → CoreSt) : (s.modCore ck f).tlb = s.tlb := rfl
@[simp] theorem State.modCore_mem (s : State) (ck : Nat) (f : CoreSt → CoreSt) : (s.modCore ck f).mem = s.mem := rfl
@[simp] theorem State.modCore_pois (s : State) (ck : Nat) (f : CoreSt → CoreSt) : (s.modCore ck f).pois = s.pois := rfl
@[simp] theorem State.modCore_corrected (s : State) (ck : Nat) (f : CoreSt → CoreSt) : (s.modCore ck f).corrected = s.corrected := rfl
@[simp] theorem State.modCore_out (s : State) (ck : Nat) (f : CoreSt → CoreSt) : (s.modCore ck f).out = s.out := rfl
@[simp] theorem State.modCore_serial (s : State) (ck : Nat) (f : CoreSt → CoreSt) : (s.modCore ck f).serial = s.serial := rfl
@[simp] theorem State.modCore_free (s : State) (ck : Nat) (f : CoreSt → CoreSt) : (s.modCore ck f).free = s.free := rfl

@[simp] theorem State.setPort_agenda (s : State) (link port : Nat) (po : Port) : (s.setPort link port po).agenda = s.agenda := rfl
@[simp] theorem State.setPort_cur (s : State) (link port : Nat) (po : Port) : (s.setPort link port po).cur = s.cur := rfl
@[simp] theorem State.setPort_clock (s : State) (link port : Nat) (po : Port) : (s.setPort link port po).clock = s.clock := rfl
@[simp] theorem State.setPort_sub (s : State) (link port : Nat) (po : Port) : (s.setPort link port po).sub = s.sub := rfl
@[simp] theorem State.setPort_timer (s : State) (link port : Nat) (po : Port) : (s.setPort link port po).timer = s.timer := rfl
@[simp] theorem State.setPort_power (s : State) (link port : Nat) (po : Port) : (s.setPort link port po).power = s.power := rfl
@[simp] theorem State.setPort_fw (s : State) (link port : Nat) (po : Port) : (s.setPort link port po).fw = s.fw := rfl
@[simp] theorem State.setPort_dports (s : State) (link port : Nat) (po : Port) : (s.setPort link port po).dports = s.dports := rfl
@[simp] theorem State.setPort_dlinks (s : State) (link port : Nat) (po : Port) : (s.setPort link port po).dlinks = s.dlinks := rfl
@[simp] theorem State.setPort_parts (s : State) (link port : Nat) (po : Port) : (s.setPort link port po).parts = s.parts := rfl
@[simp] theorem State.setPort_ctxs (s : State) (link port : Nat) (po : Port) : (s.setPort link port po).ctxs = s.ctxs := rfl
@[simp] theorem State.setPort_cores (s : State) (link port : Nat) (po : Port) : (s.setPort link port po).cores = s.cores := rfl
@[simp] theorem State.setPort_groups (s : State) (link port : Nat) (po : Port) : (s.setPort link port po).groups = s.groups := rfl
@[simp] theorem State.setPort_saved (s : State) (link port : Nat) (po : Port) : (s.setPort link port po).saved = s.saved := rfl
@[simp] theorem State.setPort_teams (s : State) (link port : Nat) (po : Port) : (s.setPort link port po).teams = s.teams := rfl
@[simp] theorem State.setPort_engines (s : State) (link port : Nat) (po : Port) : (s.setPort link port po).engines = s.engines := rfl
@[simp] theorem State.setPort_bulks (s : State) (link port : Nat) (po : Port) : (s.setPort link port po).bulks = s.bulks := rfl
@[simp] theorem State.setPort_mmabs (s : State) (link port : Nat) (po : Port) : (s.setPort link port po).mmabs = s.mmabs := rfl
@[simp] theorem State.setPort_colls (s : State) (link port : Nat) (po : Port) : (s.setPort link port po).colls = s.colls := rfl
@[simp] theorem State.setPort_locks (s : State) (link port : Nat) (po : Port) : (s.setPort link port po).locks = s.locks := rfl
@[simp] theorem State.setPort_samples (s : State) (link port : Nat) (po : Port) : (s.setPort link port po).samples = s.samples := rfl
@[simp] theorem State.setPort_tlb (s : State) (link port : Nat) (po : Port) : (s.setPort link port po).tlb = s.tlb := rfl
@[simp] theorem State.setPort_mem (s : State) (link port : Nat) (po : Port) : (s.setPort link port po).mem = s.mem := rfl
@[simp] theorem State.setPort_pois (s : State) (link port : Nat) (po : Port) : (s.setPort link port po).pois = s.pois := rfl
@[simp] theorem State.setPort_corrected (s : State) (link port : Nat) (po : Port) : (s.setPort link port po).corrected = s.corrected := rfl
@[simp] theorem State.setPort_out (s : State) (link port : Nat) (po : Port) : (s.setPort link port po).out = s.out := rfl
@[simp] theorem State.setPort_serial (s : State) (link port : Nat) (po : Port) : (s.setPort link port po).serial = s.serial := rfl
@[simp] theorem State.setPort_free (s : State) (link port : Nat) (po : Port) : (s.setPort link port po).free = s.free := rfl

@[simp] theorem State.mapGroups_agenda (s : State) (f : Nat → Group → Group) : (s.mapGroups f).agenda = s.agenda := rfl
@[simp] theorem State.mapGroups_cur (s : State) (f : Nat → Group → Group) : (s.mapGroups f).cur = s.cur := rfl
@[simp] theorem State.mapGroups_clock (s : State) (f : Nat → Group → Group) : (s.mapGroups f).clock = s.clock := rfl
@[simp] theorem State.mapGroups_sub (s : State) (f : Nat → Group → Group) : (s.mapGroups f).sub = s.sub := rfl
@[simp] theorem State.mapGroups_timer (s : State) (f : Nat → Group → Group) : (s.mapGroups f).timer = s.timer := rfl
@[simp] theorem State.mapGroups_power (s : State) (f : Nat → Group → Group) : (s.mapGroups f).power = s.power := rfl
@[simp] theorem State.mapGroups_fw (s : State) (f : Nat → Group → Group) : (s.mapGroups f).fw = s.fw := rfl
@[simp] theorem State.mapGroups_links (s : State) (f : Nat → Group → Group) : (s.mapGroups f).links = s.links := rfl
@[simp] theorem State.mapGroups_dports (s : State) (f : Nat → Group → Group) : (s.mapGroups f).dports = s.dports := rfl
@[simp] theorem State.mapGroups_dlinks (s : State) (f : Nat → Group → Group) : (s.mapGroups f).dlinks = s.dlinks := rfl
@[simp] theorem State.mapGroups_parts (s : State) (f : Nat → Group → Group) : (s.mapGroups f).parts = s.parts := rfl
@[simp] theorem State.mapGroups_ctxs (s : State) (f : Nat → Group → Group) : (s.mapGroups f).ctxs = s.ctxs := rfl
@[simp] theorem State.mapGroups_cores (s : State) (f : Nat → Group → Group) : (s.mapGroups f).cores = s.cores := rfl
@[simp] theorem State.mapGroups_teams (s : State) (f : Nat → Group → Group) : (s.mapGroups f).teams = s.teams := rfl
@[simp] theorem State.mapGroups_engines (s : State) (f : Nat → Group → Group) : (s.mapGroups f).engines = s.engines := rfl
@[simp] theorem State.mapGroups_bulks (s : State) (f : Nat → Group → Group) : (s.mapGroups f).bulks = s.bulks := rfl
@[simp] theorem State.mapGroups_mmabs (s : State) (f : Nat → Group → Group) : (s.mapGroups f).mmabs = s.mmabs := rfl
@[simp] theorem State.mapGroups_colls (s : State) (f : Nat → Group → Group) : (s.mapGroups f).colls = s.colls := rfl
@[simp] theorem State.mapGroups_locks (s : State) (f : Nat → Group → Group) : (s.mapGroups f).locks = s.locks := rfl
@[simp] theorem State.mapGroups_samples (s : State) (f : Nat → Group → Group) : (s.mapGroups f).samples = s.samples := rfl
@[simp] theorem State.mapGroups_tlb (s : State) (f : Nat → Group → Group) : (s.mapGroups f).tlb = s.tlb := rfl
@[simp] theorem State.mapGroups_mem (s : State) (f : Nat → Group → Group) : (s.mapGroups f).mem = s.mem := rfl
@[simp] theorem State.mapGroups_pois (s : State) (f : Nat → Group → Group) : (s.mapGroups f).pois = s.pois := rfl
@[simp] theorem State.mapGroups_corrected (s : State) (f : Nat → Group → Group) : (s.mapGroups f).corrected = s.corrected := rfl
@[simp] theorem State.mapGroups_out (s : State) (f : Nat → Group → Group) : (s.mapGroups f).out = s.out := rfl
@[simp] theorem State.mapGroups_serial (s : State) (f : Nat → Group → Group) : (s.mapGroups f).serial = s.serial := rfl
@[simp] theorem State.mapGroups_free (s : State) (f : Nat → Group → Group) : (s.mapGroups f).free = s.free := rfl

@[simp] theorem State.unlock_agenda (s : State) (ck op : Nat) : (s.unlock ck op).agenda = s.agenda := rfl
@[simp] theorem State.unlock_cur (s : State) (ck op : Nat) : (s.unlock ck op).cur = s.cur := rfl
@[simp] theorem State.unlock_clock (s : State) (ck op : Nat) : (s.unlock ck op).clock = s.clock := rfl
@[simp] theorem State.unlock_sub (s : State) (ck op : Nat) : (s.unlock ck op).sub = s.sub := rfl
@[simp] theorem State.unlock_timer (s : State) (ck op : Nat) : (s.unlock ck op).timer = s.timer := rfl
@[simp] theorem State.unlock_power (s : State) (ck op : Nat) : (s.unlock ck op).power = s.power := rfl
@[simp] theorem State.unlock_fw (s : State) (ck op : Nat) : (s.unlock ck op).fw = s.fw := rfl
@[simp] theorem State.unlock_links (s : State) (ck op : Nat) : (s.unlock ck op).links = s.links := rfl
@[simp] theorem State.unlock_dports (s : State) (ck op : Nat) : (s.unlock ck op).dports = s.dports := rfl
@[simp] theorem State.unlock_dlinks (s : State) (ck op : Nat) : (s.unlock ck op).dlinks = s.dlinks := rfl
@[simp] theorem State.unlock_parts (s : State) (ck op : Nat) : (s.unlock ck op).parts = s.parts := rfl
@[simp] theorem State.unlock_ctxs (s : State) (ck op : Nat) : (s.unlock ck op).ctxs = s.ctxs := rfl
@[simp] theorem State.unlock_cores (s : State) (ck op : Nat) : (s.unlock ck op).cores = s.cores := rfl
@[simp] theorem State.unlock_groups (s : State) (ck op : Nat) : (s.unlock ck op).groups = s.groups := rfl
@[simp] theorem State.unlock_saved (s : State) (ck op : Nat) : (s.unlock ck op).saved = s.saved := rfl
@[simp] theorem State.unlock_teams (s : State) (ck op : Nat) : (s.unlock ck op).teams = s.teams := rfl
@[simp] theorem State.unlock_engines (s : State) (ck op : Nat) : (s.unlock ck op).engines = s.engines := rfl
@[simp] theorem State.unlock_bulks (s : State) (ck op : Nat) : (s.unlock ck op).bulks = s.bulks := rfl
@[simp] theorem State.unlock_mmabs (s : State) (ck op : Nat) : (s.unlock ck op).mmabs = s.mmabs := rfl
@[simp] theorem State.unlock_colls (s : State) (ck op : Nat) : (s.unlock ck op).colls = s.colls := rfl
@[simp] theorem State.unlock_samples (s : State) (ck op : Nat) : (s.unlock ck op).samples = s.samples := rfl
@[simp] theorem State.unlock_tlb (s : State) (ck op : Nat) : (s.unlock ck op).tlb = s.tlb := rfl
@[simp] theorem State.unlock_mem (s : State) (ck op : Nat) : (s.unlock ck op).mem = s.mem := rfl
@[simp] theorem State.unlock_pois (s : State) (ck op : Nat) : (s.unlock ck op).pois = s.pois := rfl
@[simp] theorem State.unlock_corrected (s : State) (ck op : Nat) : (s.unlock ck op).corrected = s.corrected := rfl
@[simp] theorem State.unlock_out (s : State) (ck op : Nat) : (s.unlock ck op).out = s.out := rfl
@[simp] theorem State.unlock_serial (s : State) (ck op : Nat) : (s.unlock ck op).serial = s.serial := rfl
@[simp] theorem State.unlock_free (s : State) (ck op : Nat) : (s.unlock ck op).free = s.free := rfl

@[simp] theorem State.emit_agenda (s : State) (o : Out) : (s.emit o).agenda = s.agenda := rfl
@[simp] theorem State.emit_cur (s : State) (o : Out) : (s.emit o).cur = s.cur := rfl
@[simp] theorem State.emit_clock (s : State) (o : Out) : (s.emit o).clock = s.clock := rfl
@[simp] theorem State.emit_sub (s : State) (o : Out) : (s.emit o).sub = s.sub := rfl
@[simp] theorem State.emit_timer (s : State) (o : Out) : (s.emit o).timer = s.timer := rfl
@[simp] theorem State.emit_power (s : State) (o : Out) : (s.emit o).power = s.power := rfl
@[simp] theorem State.emit_fw (s : State) (o : Out) : (s.emit o).fw = s.fw := rfl
@[simp] theorem State.emit_links (s : State) (o : Out) : (s.emit o).links = s.links := rfl
@[simp] theorem State.emit_dports (s : State) (o : Out) : (s.emit o).dports = s.dports := rfl
@[simp] theorem State.emit_dlinks (s : State) (o : Out) : (s.emit o).dlinks = s.dlinks := rfl
@[simp] theorem State.emit_parts (s : State) (o : Out) : (s.emit o).parts = s.parts := rfl
@[simp] theorem State.emit_ctxs (s : State) (o : Out) : (s.emit o).ctxs = s.ctxs := rfl
@[simp] theorem State.emit_cores (s : State) (o : Out) : (s.emit o).cores = s.cores := rfl
@[simp] theorem State.emit_groups (s : State) (o : Out) : (s.emit o).groups = s.groups := rfl
@[simp] theorem State.emit_saved (s : State) (o : Out) : (s.emit o).saved = s.saved := rfl
@[simp] theorem State.emit_teams (s : State) (o : Out) : (s.emit o).teams = s.teams := rfl
@[simp] theorem State.emit_engines (s : State) (o : Out) : (s.emit o).engines = s.engines := rfl
@[simp] theorem State.emit_bulks (s : State) (o : Out) : (s.emit o).bulks = s.bulks := rfl
@[simp] theorem State.emit_mmabs (s : State) (o : Out) : (s.emit o).mmabs = s.mmabs := rfl
@[simp] theorem State.emit_colls (s : State) (o : Out) : (s.emit o).colls = s.colls := rfl
@[simp] theorem State.emit_locks (s : State) (o : Out) : (s.emit o).locks = s.locks := rfl
@[simp] theorem State.emit_samples (s : State) (o : Out) : (s.emit o).samples = s.samples := rfl
@[simp] theorem State.emit_tlb (s : State) (o : Out) : (s.emit o).tlb = s.tlb := rfl
@[simp] theorem State.emit_mem (s : State) (o : Out) : (s.emit o).mem = s.mem := rfl
@[simp] theorem State.emit_pois (s : State) (o : Out) : (s.emit o).pois = s.pois := rfl
@[simp] theorem State.emit_corrected (s : State) (o : Out) : (s.emit o).corrected = s.corrected := rfl
@[simp] theorem State.emit_serial (s : State) (o : Out) : (s.emit o).serial = s.serial := rfl
@[simp] theorem State.emit_free (s : State) (o : Out) : (s.emit o).free = s.free := rfl

@[simp] theorem State.setGroup_agenda (s : State) (key : Nat) (g : Group) : (s.setGroup key g).agenda = s.agenda := rfl
@[simp] theorem State.setGroup_cur (s : State) (key : Nat) (g : Group) : (s.setGroup key g).cur = s.cur := rfl
@[simp] theorem State.setGroup_clock (s : State) (key : Nat) (g : Group) : (s.setGroup key g).clock = s.clock := rfl
@[simp] theorem State.setGroup_sub (s : State) (key : Nat) (g : Group) : (s.setGroup key g).sub = s.sub := rfl
@[simp] theorem State.setGroup_timer (s : State) (key : Nat) (g : Group) : (s.setGroup key g).timer = s.timer := rfl
@[simp] theorem State.setGroup_power (s : State) (key : Nat) (g : Group) : (s.setGroup key g).power = s.power := rfl
@[simp] theorem State.setGroup_fw (s : State) (key : Nat) (g : Group) : (s.setGroup key g).fw = s.fw := rfl
@[simp] theorem State.setGroup_links (s : State) (key : Nat) (g : Group) : (s.setGroup key g).links = s.links := rfl
@[simp] theorem State.setGroup_dports (s : State) (key : Nat) (g : Group) : (s.setGroup key g).dports = s.dports := rfl
@[simp] theorem State.setGroup_dlinks (s : State) (key : Nat) (g : Group) : (s.setGroup key g).dlinks = s.dlinks := rfl
@[simp] theorem State.setGroup_parts (s : State) (key : Nat) (g : Group) : (s.setGroup key g).parts = s.parts := rfl
@[simp] theorem State.setGroup_ctxs (s : State) (key : Nat) (g : Group) : (s.setGroup key g).ctxs = s.ctxs := rfl
@[simp] theorem State.setGroup_cores (s : State) (key : Nat) (g : Group) : (s.setGroup key g).cores = s.cores := rfl
@[simp] theorem State.setGroup_saved (s : State) (key : Nat) (g : Group) : (s.setGroup key g).saved = s.saved := rfl
@[simp] theorem State.setGroup_teams (s : State) (key : Nat) (g : Group) : (s.setGroup key g).teams = s.teams := rfl
@[simp] theorem State.setGroup_engines (s : State) (key : Nat) (g : Group) : (s.setGroup key g).engines = s.engines := rfl
@[simp] theorem State.setGroup_bulks (s : State) (key : Nat) (g : Group) : (s.setGroup key g).bulks = s.bulks := rfl
@[simp] theorem State.setGroup_mmabs (s : State) (key : Nat) (g : Group) : (s.setGroup key g).mmabs = s.mmabs := rfl
@[simp] theorem State.setGroup_colls (s : State) (key : Nat) (g : Group) : (s.setGroup key g).colls = s.colls := rfl
@[simp] theorem State.setGroup_locks (s : State) (key : Nat) (g : Group) : (s.setGroup key g).locks = s.locks := rfl
@[simp] theorem State.setGroup_samples (s : State) (key : Nat) (g : Group) : (s.setGroup key g).samples = s.samples := rfl
@[simp] theorem State.setGroup_tlb (s : State) (key : Nat) (g : Group) : (s.setGroup key g).tlb = s.tlb := rfl
@[simp] theorem State.setGroup_mem (s : State) (key : Nat) (g : Group) : (s.setGroup key g).mem = s.mem := rfl
@[simp] theorem State.setGroup_pois (s : State) (key : Nat) (g : Group) : (s.setGroup key g).pois = s.pois := rfl
@[simp] theorem State.setGroup_corrected (s : State) (key : Nat) (g : Group) : (s.setGroup key g).corrected = s.corrected := rfl
@[simp] theorem State.setGroup_out (s : State) (key : Nat) (g : Group) : (s.setGroup key g).out = s.out := rfl
@[simp] theorem State.setGroup_serial (s : State) (key : Nat) (g : Group) : (s.setGroup key g).serial = s.serial := rfl
@[simp] theorem State.setGroup_free (s : State) (key : Nat) (g : Group) : (s.setGroup key g).free = s.free := rfl

@[simp] theorem State.modGroup_agenda (s : State) (key : Nat) (f : Group → Group) : (s.modGroup key f).agenda = s.agenda := rfl
@[simp] theorem State.modGroup_cur (s : State) (key : Nat) (f : Group → Group) : (s.modGroup key f).cur = s.cur := rfl
@[simp] theorem State.modGroup_clock (s : State) (key : Nat) (f : Group → Group) : (s.modGroup key f).clock = s.clock := rfl
@[simp] theorem State.modGroup_sub (s : State) (key : Nat) (f : Group → Group) : (s.modGroup key f).sub = s.sub := rfl
@[simp] theorem State.modGroup_timer (s : State) (key : Nat) (f : Group → Group) : (s.modGroup key f).timer = s.timer := rfl
@[simp] theorem State.modGroup_power (s : State) (key : Nat) (f : Group → Group) : (s.modGroup key f).power = s.power := rfl
@[simp] theorem State.modGroup_fw (s : State) (key : Nat) (f : Group → Group) : (s.modGroup key f).fw = s.fw := rfl
@[simp] theorem State.modGroup_links (s : State) (key : Nat) (f : Group → Group) : (s.modGroup key f).links = s.links := rfl
@[simp] theorem State.modGroup_dports (s : State) (key : Nat) (f : Group → Group) : (s.modGroup key f).dports = s.dports := rfl
@[simp] theorem State.modGroup_dlinks (s : State) (key : Nat) (f : Group → Group) : (s.modGroup key f).dlinks = s.dlinks := rfl
@[simp] theorem State.modGroup_parts (s : State) (key : Nat) (f : Group → Group) : (s.modGroup key f).parts = s.parts := rfl
@[simp] theorem State.modGroup_ctxs (s : State) (key : Nat) (f : Group → Group) : (s.modGroup key f).ctxs = s.ctxs := rfl
@[simp] theorem State.modGroup_cores (s : State) (key : Nat) (f : Group → Group) : (s.modGroup key f).cores = s.cores := rfl
@[simp] theorem State.modGroup_saved (s : State) (key : Nat) (f : Group → Group) : (s.modGroup key f).saved = s.saved := rfl
@[simp] theorem State.modGroup_teams (s : State) (key : Nat) (f : Group → Group) : (s.modGroup key f).teams = s.teams := rfl
@[simp] theorem State.modGroup_engines (s : State) (key : Nat) (f : Group → Group) : (s.modGroup key f).engines = s.engines := rfl
@[simp] theorem State.modGroup_bulks (s : State) (key : Nat) (f : Group → Group) : (s.modGroup key f).bulks = s.bulks := rfl
@[simp] theorem State.modGroup_mmabs (s : State) (key : Nat) (f : Group → Group) : (s.modGroup key f).mmabs = s.mmabs := rfl
@[simp] theorem State.modGroup_colls (s : State) (key : Nat) (f : Group → Group) : (s.modGroup key f).colls = s.colls := rfl
@[simp] theorem State.modGroup_locks (s : State) (key : Nat) (f : Group → Group) : (s.modGroup key f).locks = s.locks := rfl
@[simp] theorem State.modGroup_samples (s : State) (key : Nat) (f : Group → Group) : (s.modGroup key f).samples = s.samples := rfl
@[simp] theorem State.modGroup_tlb (s : State) (key : Nat) (f : Group → Group) : (s.modGroup key f).tlb = s.tlb := rfl
@[simp] theorem State.modGroup_mem (s : State) (key : Nat) (f : Group → Group) : (s.modGroup key f).mem = s.mem := rfl
@[simp] theorem State.modGroup_pois (s : State) (key : Nat) (f : Group → Group) : (s.modGroup key f).pois = s.pois := rfl
@[simp] theorem State.modGroup_corrected (s : State) (key : Nat) (f : Group → Group) : (s.modGroup key f).corrected = s.corrected := rfl
@[simp] theorem State.modGroup_out (s : State) (key : Nat) (f : Group → Group) : (s.modGroup key f).out = s.out := rfl
@[simp] theorem State.modGroup_serial (s : State) (key : Nat) (f : Group → Group) : (s.modGroup key f).serial = s.serial := rfl
@[simp] theorem State.modGroup_free (s : State) (key : Nat) (f : Group → Group) : (s.modGroup key f).free = s.free := rfl

@[simp] theorem State.modPart_agenda (s : State) (p : Nat) (f : Part → Part) : (s.modPart p f).agenda = s.agenda := rfl
@[simp] theorem State.modPart_cur (s : State) (p : Nat) (f : Part → Part) : (s.modPart p f).cur = s.cur := rfl
@[simp] theorem State.modPart_clock (s : State) (p : Nat) (f : Part → Part) : (s.modPart p f).clock = s.clock := rfl
@[simp] theorem State.modPart_sub (s : State) (p : Nat) (f : Part → Part) : (s.modPart p f).sub = s.sub := rfl
@[simp] theorem State.modPart_timer (s : State) (p : Nat) (f : Part → Part) : (s.modPart p f).timer = s.timer := rfl
@[simp] theorem State.modPart_power (s : State) (p : Nat) (f : Part → Part) : (s.modPart p f).power = s.power := rfl
@[simp] theorem State.modPart_fw (s : State) (p : Nat) (f : Part → Part) : (s.modPart p f).fw = s.fw := rfl
@[simp] theorem State.modPart_links (s : State) (p : Nat) (f : Part → Part) : (s.modPart p f).links = s.links := rfl
@[simp] theorem State.modPart_dports (s : State) (p : Nat) (f : Part → Part) : (s.modPart p f).dports = s.dports := rfl
@[simp] theorem State.modPart_dlinks (s : State) (p : Nat) (f : Part → Part) : (s.modPart p f).dlinks = s.dlinks := rfl
@[simp] theorem State.modPart_ctxs (s : State) (p : Nat) (f : Part → Part) : (s.modPart p f).ctxs = s.ctxs := rfl
@[simp] theorem State.modPart_cores (s : State) (p : Nat) (f : Part → Part) : (s.modPart p f).cores = s.cores := rfl
@[simp] theorem State.modPart_groups (s : State) (p : Nat) (f : Part → Part) : (s.modPart p f).groups = s.groups := rfl
@[simp] theorem State.modPart_saved (s : State) (p : Nat) (f : Part → Part) : (s.modPart p f).saved = s.saved := rfl
@[simp] theorem State.modPart_teams (s : State) (p : Nat) (f : Part → Part) : (s.modPart p f).teams = s.teams := rfl
@[simp] theorem State.modPart_engines (s : State) (p : Nat) (f : Part → Part) : (s.modPart p f).engines = s.engines := rfl
@[simp] theorem State.modPart_bulks (s : State) (p : Nat) (f : Part → Part) : (s.modPart p f).bulks = s.bulks := rfl
@[simp] theorem State.modPart_mmabs (s : State) (p : Nat) (f : Part → Part) : (s.modPart p f).mmabs = s.mmabs := rfl
@[simp] theorem State.modPart_colls (s : State) (p : Nat) (f : Part → Part) : (s.modPart p f).colls = s.colls := rfl
@[simp] theorem State.modPart_locks (s : State) (p : Nat) (f : Part → Part) : (s.modPart p f).locks = s.locks := rfl
@[simp] theorem State.modPart_samples (s : State) (p : Nat) (f : Part → Part) : (s.modPart p f).samples = s.samples := rfl
@[simp] theorem State.modPart_tlb (s : State) (p : Nat) (f : Part → Part) : (s.modPart p f).tlb = s.tlb := rfl
@[simp] theorem State.modPart_mem (s : State) (p : Nat) (f : Part → Part) : (s.modPart p f).mem = s.mem := rfl
@[simp] theorem State.modPart_pois (s : State) (p : Nat) (f : Part → Part) : (s.modPart p f).pois = s.pois := rfl
@[simp] theorem State.modPart_corrected (s : State) (p : Nat) (f : Part → Part) : (s.modPart p f).corrected = s.corrected := rfl
@[simp] theorem State.modPart_out (s : State) (p : Nat) (f : Part → Part) : (s.modPart p f).out = s.out := rfl
@[simp] theorem State.modPart_serial (s : State) (p : Nat) (f : Part → Part) : (s.modPart p f).serial = s.serial := rfl
@[simp] theorem State.modPart_free (s : State) (p : Nat) (f : Part → Part) : (s.modPart p f).free = s.free := rfl

@[simp] theorem State.modTeam_agenda (s : State) (t : Nat) (f : Team → Team) : (s.modTeam t f).agenda = s.agenda := rfl
@[simp] theorem State.modTeam_cur (s : State) (t : Nat) (f : Team → Team) : (s.modTeam t f).cur = s.cur := rfl
@[simp] theorem State.modTeam_clock (s : State) (t : Nat) (f : Team → Team) : (s.modTeam t f).clock = s.clock := rfl
@[simp] theorem State.modTeam_sub (s : State) (t : Nat) (f : Team → Team) : (s.modTeam t f).sub = s.sub := rfl
@[simp] theorem State.modTeam_timer (s : State) (t : Nat) (f : Team → Team) : (s.modTeam t f).timer = s.timer := rfl
@[simp] theorem State.modTeam_power (s : State) (t : Nat) (f : Team → Team) : (s.modTeam t f).power = s.power := rfl
@[simp] theorem State.modTeam_fw (s : State) (t : Nat) (f : Team → Team) : (s.modTeam t f).fw = s.fw := rfl
@[simp] theorem State.modTeam_links (s : State) (t : Nat) (f : Team → Team) : (s.modTeam t f).links = s.links := rfl
@[simp] theorem State.modTeam_dports (s : State) (t : Nat) (f : Team → Team) : (s.modTeam t f).dports = s.dports := rfl
@[simp] theorem State.modTeam_dlinks (s : State) (t : Nat) (f : Team → Team) : (s.modTeam t f).dlinks = s.dlinks := rfl
@[simp] theorem State.modTeam_parts (s : State) (t : Nat) (f : Team → Team) : (s.modTeam t f).parts = s.parts := rfl
@[simp] theorem State.modTeam_ctxs (s : State) (t : Nat) (f : Team → Team) : (s.modTeam t f).ctxs = s.ctxs := rfl
@[simp] theorem State.modTeam_cores (s : State) (t : Nat) (f : Team → Team) : (s.modTeam t f).cores = s.cores := rfl
@[simp] theorem State.modTeam_groups (s : State) (t : Nat) (f : Team → Team) : (s.modTeam t f).groups = s.groups := rfl
@[simp] theorem State.modTeam_saved (s : State) (t : Nat) (f : Team → Team) : (s.modTeam t f).saved = s.saved := rfl
@[simp] theorem State.modTeam_engines (s : State) (t : Nat) (f : Team → Team) : (s.modTeam t f).engines = s.engines := rfl
@[simp] theorem State.modTeam_bulks (s : State) (t : Nat) (f : Team → Team) : (s.modTeam t f).bulks = s.bulks := rfl
@[simp] theorem State.modTeam_mmabs (s : State) (t : Nat) (f : Team → Team) : (s.modTeam t f).mmabs = s.mmabs := rfl
@[simp] theorem State.modTeam_colls (s : State) (t : Nat) (f : Team → Team) : (s.modTeam t f).colls = s.colls := rfl
@[simp] theorem State.modTeam_locks (s : State) (t : Nat) (f : Team → Team) : (s.modTeam t f).locks = s.locks := rfl
@[simp] theorem State.modTeam_samples (s : State) (t : Nat) (f : Team → Team) : (s.modTeam t f).samples = s.samples := rfl
@[simp] theorem State.modTeam_tlb (s : State) (t : Nat) (f : Team → Team) : (s.modTeam t f).tlb = s.tlb := rfl
@[simp] theorem State.modTeam_mem (s : State) (t : Nat) (f : Team → Team) : (s.modTeam t f).mem = s.mem := rfl
@[simp] theorem State.modTeam_pois (s : State) (t : Nat) (f : Team → Team) : (s.modTeam t f).pois = s.pois := rfl
@[simp] theorem State.modTeam_corrected (s : State) (t : Nat) (f : Team → Team) : (s.modTeam t f).corrected = s.corrected := rfl
@[simp] theorem State.modTeam_out (s : State) (t : Nat) (f : Team → Team) : (s.modTeam t f).out = s.out := rfl
@[simp] theorem State.modTeam_serial (s : State) (t : Nat) (f : Team → Team) : (s.modTeam t f).serial = s.serial := rfl
@[simp] theorem State.modTeam_free (s : State) (t : Nat) (f : Team → Team) : (s.modTeam t f).free = s.free := rfl

@[simp] theorem State.charge_agenda (s : State) (part pasid amount : Nat) : (s.charge part pasid amount).agenda = s.agenda := rfl
@[simp] theorem State.charge_cur (s : State) (part pasid amount : Nat) : (s.charge part pasid amount).cur = s.cur := rfl
@[simp] theorem State.charge_clock (s : State) (part pasid amount : Nat) : (s.charge part pasid amount).clock = s.clock := rfl
@[simp] theorem State.charge_sub (s : State) (part pasid amount : Nat) : (s.charge part pasid amount).sub = s.sub := rfl
@[simp] theorem State.charge_timer (s : State) (part pasid amount : Nat) : (s.charge part pasid amount).timer = s.timer := rfl
@[simp] theorem State.charge_power (s : State) (part pasid amount : Nat) : (s.charge part pasid amount).power = s.power := rfl
@[simp] theorem State.charge_fw (s : State) (part pasid amount : Nat) : (s.charge part pasid amount).fw = s.fw := rfl
@[simp] theorem State.charge_links (s : State) (part pasid amount : Nat) : (s.charge part pasid amount).links = s.links := rfl
@[simp] theorem State.charge_dports (s : State) (part pasid amount : Nat) : (s.charge part pasid amount).dports = s.dports := rfl
@[simp] theorem State.charge_dlinks (s : State) (part pasid amount : Nat) : (s.charge part pasid amount).dlinks = s.dlinks := rfl
@[simp] theorem State.charge_parts (s : State) (part pasid amount : Nat) : (s.charge part pasid amount).parts = s.parts := rfl
@[simp] theorem State.charge_cores (s : State) (part pasid amount : Nat) : (s.charge part pasid amount).cores = s.cores := rfl
@[simp] theorem State.charge_groups (s : State) (part pasid amount : Nat) : (s.charge part pasid amount).groups = s.groups := rfl
@[simp] theorem State.charge_saved (s : State) (part pasid amount : Nat) : (s.charge part pasid amount).saved = s.saved := rfl
@[simp] theorem State.charge_teams (s : State) (part pasid amount : Nat) : (s.charge part pasid amount).teams = s.teams := rfl
@[simp] theorem State.charge_engines (s : State) (part pasid amount : Nat) : (s.charge part pasid amount).engines = s.engines := rfl
@[simp] theorem State.charge_bulks (s : State) (part pasid amount : Nat) : (s.charge part pasid amount).bulks = s.bulks := rfl
@[simp] theorem State.charge_mmabs (s : State) (part pasid amount : Nat) : (s.charge part pasid amount).mmabs = s.mmabs := rfl
@[simp] theorem State.charge_colls (s : State) (part pasid amount : Nat) : (s.charge part pasid amount).colls = s.colls := rfl
@[simp] theorem State.charge_locks (s : State) (part pasid amount : Nat) : (s.charge part pasid amount).locks = s.locks := rfl
@[simp] theorem State.charge_samples (s : State) (part pasid amount : Nat) : (s.charge part pasid amount).samples = s.samples := rfl
@[simp] theorem State.charge_tlb (s : State) (part pasid amount : Nat) : (s.charge part pasid amount).tlb = s.tlb := rfl
@[simp] theorem State.charge_mem (s : State) (part pasid amount : Nat) : (s.charge part pasid amount).mem = s.mem := rfl
@[simp] theorem State.charge_pois (s : State) (part pasid amount : Nat) : (s.charge part pasid amount).pois = s.pois := rfl
@[simp] theorem State.charge_corrected (s : State) (part pasid amount : Nat) : (s.charge part pasid amount).corrected = s.corrected := rfl
@[simp] theorem State.charge_out (s : State) (part pasid amount : Nat) : (s.charge part pasid amount).out = s.out := rfl
@[simp] theorem State.charge_serial (s : State) (part pasid amount : Nat) : (s.charge part pasid amount).serial = s.serial := rfl
@[simp] theorem State.charge_free (s : State) (part pasid amount : Nat) : (s.charge part pasid amount).free = s.free := rfl

end Sys2Proof.Machine
end

