-- ==== Sys2Proof/Laws/Compute.lean ====
section
/-! SUPPORT. What the common runners of instructions do: a path that runs an act, operands fetched, results written. -/

namespace Sys2Proof.Machine

/-! A path runs. -/

theorem Runs.lanes_ne {s : State} {iss : Issue} {g : Group} (h : Runs s iss g) : iss.lanes ≠ 0 := by
  intro e
  have := h.some_lane
  rw [e] at this
  exact this (by decide)

/-- An act that succeeds in the state where the path has moved on is the instruction's next state. -/
theorem runAct_ok {s t : State} {iss : Issue} {g : Group} (h : Runs s iss g) (f : Act)
    (hf : f iss (g.stepPast iss) (s.setGroup iss.key (g.stepPast iss)) = .ok t) : runAct f s = .next t := by
  simp only [runAct, h.issuing, h.group, h.lanes_ne, if_false, hf, h.clean]

/-- An act that meets a trap leaves what taking the trap leaves. -/
theorem runAct_error {s : State} {iss : Issue} {g : Group} {tr : Trap} (h : Runs s iss g) (f : Act)
    (hf : f iss (g.stepPast iss) (s.setGroup iss.key (g.stepPast iss)) = .error tr) :
    runAct f s = .next (takeTrap s iss g tr) := by
  simp only [runAct, h.issuing, h.group, h.lanes_ne, if_false, hf, h.clean, Trap.first]

/-- Everything that an act of a path can answer: it acts, or takes a trap of its own or one found before it. -/
theorem runAct_cases {f : Act} {s t : State} (h : runAct f s = .next t) :
    ∃ iss g, s.cur = some iss ∧ s.group? iss.key = some g ∧
      ((iss.late = none ∧ iss.lanes = 0 ∧ t = s.setGroup iss.key (g.stepPast iss)) ∨
       (iss.late = none ∧ f iss (g.stepPast iss) (s.setGroup iss.key (g.stepPast iss)) = .ok t) ∨
       (∃ l, iss.late = some l ∧ t = takeTrap s iss g (.plain l.1 l.2)) ∨
       ∃ tr, f iss (g.stepPast iss) (s.setGroup iss.key (g.stepPast iss)) = .error tr ∧
         t = takeTrap s iss g (tr.first iss.late)) := by
  unfold runAct at h
  split at h
  · cases h
  · next iss hc =>
    split at h
    · cases h
    · next g hg =>
      refine ⟨iss, g, hc, hg, ?_⟩
      simp only at h
      split at h
      · next r l h1 h2 =>
        cases h
        by_cases h0 : iss.lanes = 0
        · rw [if_pos h0] at h1
          cases h1; exact .inl ⟨h2, h0, rfl⟩
        · rw [if_neg h0] at h1
          exact .inr (.inl ⟨h2, h1⟩)
      · next l h2 => cases h; exact .inr (.inr (.inl ⟨_, h2, rfl⟩))
      · next tr h1 =>
        cases h
        by_cases h0 : iss.lanes = 0
        · rw [if_pos h0] at h1
          cases h1
        · rw [if_neg h0] at h1
          exact .inr (.inr (.inr ⟨tr, h1, rfl⟩))

@[simp] theorem State.group?_setGroup (s : State) (k : Nat) (g : Group) : (s.setGroup k g).group? k = some g := by
  simp [State.group?, State.setGroup]

theorem State.group?_setGroup_ne (s : State) {k k' : Nat} (h : k' ≠ k) (g : Group) :
    (s.setGroup k g).group? k' = s.group? k' := by
  simp [State.group?, State.setGroup, h]

@[simp] theorem State.setGroup_setGroup (s : State) (k : Nat) (g g' : Group) :
    (s.setGroup k g).setGroup k g' = s.setGroup k g' := by
  simp [State.setGroup, tset_tset]

/-! The path moved on. -/

@[simp] theorem Group.stepPast_length (g : Group) (iss : Issue) : (g.stepPast iss).lanes.length = g.lanes.length := by
  simp [Group.stepPast]

@[simp] theorem Group.stepPast_w (g : Group) (iss : Issue) : (g.stepPast iss).w = g.w := rfl

theorem Group.lane_stepPast (g : Group) (iss : Issue) (i : Nat) :
    (g.stepPast iss).lane i =
      if bit iss.path i = true ∧ i < g.lanes.length then { g.lane i with pc := iss.pc + 12 } else g.lane i := by
  rw [Group.stepPast, Group.lane_eachLane]

@[simp] theorem regOf_stepPast (g : Group) (iss : Issue) (i : Nat) (o : Opnd) (j : Nat) :
    regOf (g.stepPast iss) i o j = regOf g i o j := by
  cases o <;> simp only [regOf, Group.stepPast_w, Group.lane_stepPast] <;> split <;> rfl

@[simp] theorem pred_stepPast (g : Group) (iss : Issue) (i k : Nat) :
    ((g.stepPast iss).lane i).pred k = (g.lane i).pred k := by
  rw [Group.lane_stepPast]; split <;> rfl

@[simp] theorem readOp_stepPast (g : Group) (iss : Issue) (i : Nat) (ty : Ty) (n : Nat) (o : Opnd) :
    readOp (g.stepPast iss) i ty n o = readOp g i ty n o := by
  have e : regOf (g.stepPast iss) i o = regOf g i o := funext fun j => by simp
  cases o <;> simp [readOp, pred_stepPast, e]

theorem movedOn_of_pc {iss : Issue} {g g' : Group} (h : ∀ i, (g'.lane i).pc = ((g.stepPast iss).lane i).pc) :
    MovedOn iss g g' := by
  intro i hi
  rw [h, Group.lane_stepPast]
  by_cases hb : bit iss.path i = true <;> simp [hb, hi]

theorem sameButRegs_stepPast (g : Group) (iss : Issue) : SameButRegs g (g.stepPast iss) := by
  refine ⟨rfl, by simp, fun i => ?_⟩
  rw [Group.lane_stepPast]; split <;> rfl

/-! Fetching. -/

theorem walked_stepPast (iss : Issue) (ops : List Opnd) (g : Group) :
    walked iss (g.stepPast iss) ops = (walked iss g ops).stepPast iss := by
  induction ops generalizing g with
  | nil => rfl
  | cons o os ih =>
    cases o <;> first
      | exact ih g
      | exact ih { g with sregs := lmod _ (·.advance iss.lanes) g.sregs }

theorem walked_cons (iss : Issue) (g : Group) (o : Opnd) (os : List Opnd) :
    walked iss g (o :: os) = walked iss (walked iss g [o]) os := by
  cases o <;> rfl

/-- Walks touch stream registers alone. -/
theorem walked_sregs (iss : Issue) (ops : List Opnd) (g : Group) :
    walked iss g ops = { g with sregs := (walked iss g ops).sregs } := by
  induction ops generalizing g with
  | nil => rfl
  | cons o os ih =>
    cases o <;> first
      | exact ih g
      | exact ih { g with sregs := lmod _ (·.advance iss.lanes) g.sregs }

theorem walked_lane (iss : Issue) (ops : List Opnd) (g : Group) (i : Nat) : (walked iss g ops).lane i = g.lane i := by
  rw [walked_sregs]; rfl

theorem regOf_walked (iss : Issue) (ops : List Opnd) (g : Group) (i : Nat) (o : Opnd) (j : Nat) :
    regOf (walked iss g ops) i o j = regOf g i o j := by
  rw [walked_sregs]; rfl

theorem readOp_walked (iss : Issue) (ops : List Opnd) (g : Group) (i : Nat) (ty : Ty) (n : Nat) (o : Opnd) :
    readOp (walked iss g ops) i ty n o = readOp g i ty n o := by
  rw [walked_sregs]; rfl

theorem wrap_intVal (size v : Nat) (h : 0 < size) :
    wrap 32 (intVal true (8 * size) v) = ((BitVec.ofNat (8 * size) v).signExtend 32).toNat := by
  rw [wrap_eq, intVal_signed _ _ (by omega)]; rfl

/-- Every executing lane's element may be taken. -/
theorem walkAddrs_ok {s : State} {iss : Issue} {g : Group} {k : Nat} {store : Bool} (h : mayWalk s iss g store (.s k))
    (s' : State) (g' : Group) (hs : s'.teams = s.teams) (hl : s'.locks = s.locks) (hg : g'.sregs = g.sregs)
    (ht : g'.team = g.team) :
    walkAddrs s' iss.key g' iss.lanes k store = .ok (iss.ls.map fun i => (i, takesAt iss g k i)) := by
  obtain ⟨hb, htm, ha⟩ := h
  have hsr : g'.sreg k = g.sreg k := by simp only [Group.sreg, hg]
  have hls : s'.lstoreOf g' = s.lstoreOf g := by simp only [State.lstoreOf, State.teamOf, hs, ht]
  have hlk : ∀ a n, s'.locked (coreOf iss.key) a n store = s.locked (coreOf iss.key) a n store := fun a n => by
    simp only [State.locked, hl]
  have h1 : ∀ (ok : Nat → Bool) (t : List Nat → Trap), (∀ i ∈ lanesOf iss.lanes, ok i = true) →
      requireAll (lanesOf iss.lanes) ok t = .ok () := by
    intro ok t hok
    have : (lanesOf iss.lanes).filter (fun i => !ok i) = [] := by
      rw [List.filter_eq_nil_iff]; intro i hi; simp [hok i hi]
    simp only [requireAll, this]
  unfold walkAddrs
  simp only [hsr, hls, ht, hlk]
  rw [h1, h1]
  · rfl
  · intro i hi
    have := (ha i hi).2
    simp only [takesAt, takes, Issue.ls] at this
    simp [this]
  · intro i hi
    have := (ha i hi).1
    simp only [takes, Issue.ls] at this
    simp [hb, htm, this]

/-- A source operand is read in the state in which the path has moved on. -/
theorem fetch_ok {s : State} {iss : Issue} {g : Group} {o : Opnd} (h : mayWalk s iss g false o) (gx : Group) (ty : Ty)
    (n : Nat) :
    fetch (s.setGroup iss.key gx) iss.key (g.stepPast iss) iss.lanes ty n o =
      .ok (iss.ls.map fun i => (i, laneVal ty n o s iss g i), (walked iss g [o]).stepPast iss) := by
  cases o with
  | s k =>
    have e : (g.stepPast iss).sreg k = g.sreg k := rfl
    simp only [fetch, readStream, walkAddrs_ok h (s.setGroup iss.key gx) (g.stepPast iss) rfl rfl rfl rfl, bind, Except.bind,
      pure, Except.pure, List.map_map, e]
    refine congrArg Except.ok (Prod.ext ?_ rfl)
    refine List.map_congr_left fun i _ => ?_
    simp only [Function.comp, laneVal, wrap_intVal _ _ (Nat.two_pow_pos _)]
    rfl
  | _ => simp only [fetch, readOp_stepPast]; rfl

/-! Writing. -/

/-- A group after the results of the lanes have been written to D and the latch. -/
def Group.wrote (g : Group) (d : Opnd) (n : Nat) (vals : Vals) : Group :=
  (vals.foldl (fun g p => writeOp g p.1 d n p.2) g |> fun g => vals.foldl (fun g p => writeLat g p.1 p.2) g)

theorem store_setGroup (s : State) (k : Nat) (g : Group) (a : Nat) (bs : List Byte) (p : Bool) :
    (s.setGroup k g).store a bs p = (s.store a bs p).setGroup k g := by
  have h : ∀ (F : State → Nat → State), (∀ s x, F (s.setGroup k g) x = (F s x).setGroup k g) →
      ∀ (l : List Nat) (s : State), l.foldl F (s.setGroup k g) = (l.foldl F s).setGroup k g := by
    intro F hF l
    induction l with
    | nil => intro s; rfl
    | cons x l ih => intro s; rw [List.foldl_cons, List.foldl_cons, hF, ih]
  refine h _ (fun s x => ?_) _ (s.setBytes a bs)
  split
  · rfl
  · split <;> rfl

theorem storesStream_setGroup (s : State) (iss : Issue) (g gx : Group) (k : Nat) (v : Nat → Val) :
    storesStream (s.setGroup iss.key gx) iss g k v = (storesStream s iss g k v).setGroup iss.key gx := by
  unfold storesStream
  induction iss.ls generalizing s with
  | nil => rfl
  | cons i l ih => rw [List.foldl_cons, List.foldl_cons, store_setGroup, ih]

theorem finish_flat {d : Opnd} (h : flat d = true) (iss : Issue) (s : State) (g : Group) (n : Nat) (vals : Vals) :
    finish iss s g n d vals = .ok (s.setGroup iss.key (g.wrote d n vals)) := by
  cases d <;> first | rfl | simp [flat] at h

theorem writeOp_stream (k n : Nat) (g : Group) (i : Nat) (v : Val) : writeOp g i (.s k) n v = g := by
  unfold writeOp
  induction n with
  | zero => rfl
  | succ n ih => rw [List.range_succ, List.foldl_append, ih]; rfl

theorem foldl_writeOp_stream (k n : Nat) (vals : Vals) (g : Group) :
    vals.foldl (fun g p => writeOp g p.1 (.s k) n p.2) g = g := by
  induction vals generalizing g with
  | nil => rfl
  | cons p l ih => rw [List.foldl_cons, ih, writeOp_stream]

theorem foldl_tget {σ : Type} (F : σ → Nat → Val → σ) (A : Nat → Nat) (v : Nat → Val) (ls l : List Nat)
    (hl : ∀ i ∈ l, i ∈ ls) (s : σ) :
    (l.map fun i => (i, A i)).foldl (fun s x => F s x.2 (tget (ls.map fun i => (i, v i)) x.1 (0, false))) s =
      l.foldl (fun s i => F s (A i) (v i)) s := by
  induction l generalizing s with
  | nil => rfl
  | cons i l ih =>
    have hi : tget (ls.map fun i => (i, v i)) i (0, false) = v i := tget_map _ _ _ _ (hl i (by simp))
    rw [List.map_cons, List.foldl_cons, List.foldl_cons, ih (fun j hj => hl j (by simp [hj])), hi]

theorem deliver_stream {s : State} {iss : Issue} {g : Group} {k : Nat} (h : mayWalk s iss g true (.s k)) (gx gy : Group)
    (n : Nat) (v : Nat → Val) (hs : gy.sregs = g.sregs) (ht : gy.team = g.team) :
    deliver (s.setGroup iss.key gx) iss.key gy iss.lanes n (.s k) (iss.ls.map fun i => (i, v i)) =
      .ok ((storesStream s iss g k v).setGroup iss.key gx,
        { gy with sregs := lmod k (·.advance iss.lanes) gy.sregs, touched := true, progress := true }) := by
  have e : gy.sreg k = g.sreg k := by simp only [Group.sreg, hs]
  rw [← storesStream_setGroup]
  unfold deliver storesStream
  simp only [walkAddrs_ok h (s.setGroup iss.key gx) gy rfl rfl hs ht, e, bind, Except.bind, pure, Except.pure]
  have hf := foldl_tget (fun (s : State) a (v : Val) => s.store a (leBytes (2 ^ (g.sreg k).esz) v.1) v.2) (takesAt iss g k) v
    iss.ls iss.ls (fun _ h => h) (s.setGroup iss.key gx)
  exact congrArg Except.ok (Prod.ext hf rfl)

/-- Results delivered through a stream register. -/
theorem finish_stream {s : State} {iss : Issue} {g : Group} {k : Nat} (h : mayWalk s iss g true (.s k)) (gx gy : Group)
    (n : Nat) (v : Nat → Val) (hs : gy.sregs = g.sregs) (ht : gy.team = g.team) :
    finish iss (s.setGroup iss.key gx) gy n (.s k) (iss.ls.map fun i => (i, v i)) =
      .ok ((storesStream s iss g k v).setGroup iss.key
        (Group.wrote { gy with sregs := lmod k (·.advance iss.lanes) gy.sregs, touched := true, progress := true } (.s k) n
          (iss.ls.map fun i => (i, v i)))) := by
  unfold finish Group.wrote
  rw [foldl_writeOp_stream, deliver_stream h gx gy n v hs ht]
  simp only [bind, Except.bind, pure, Except.pure, State.setGroup_setGroup]

theorem sameRest_wrote (g : Group) (d : Opnd) (n : Nat) (vals : Vals) : SameRest g (g.wrote d n vals) :=
  (sameRest_foldl _ (fun g p => sameRest_writeOp g p.1 d n p.2) vals g).trans
    (sameRest_foldl _ (fun g p => sameRest_writeLat g p.1 p.2) vals _)

theorem SameRest.pc {g g' : Group} (h : SameRest g g') (i : Nat) : (g'.lane i).pc = (g.lane i).pc := by
  rw [← h.lane i]

theorem SameRest.pred {g g' : Group} (h : SameRest g g') (i k : Nat) : (g'.lane i).pred k = (g.lane i).pred k := by
  rw [← h.lane i]; rfl

theorem SameRest.sameButRegs {g g' : Group} (h : SameRest g g') : SameButRegs g g' := by
  refine ⟨h.rest, h.length, fun i => ?_⟩
  rw [← h.lane i]

theorem SameButRegs.trans {a b c : Group} (h : SameButRegs a b) (k : SameButRegs b c) : SameButRegs a c := by
  refine ⟨?_, k.2.1.trans h.2.1, fun i => ?_⟩
  · rw [← h.1, ← k.1]
  · rw [← h.2.2 i, ← k.2.2 i]

theorem regOf_foldl_writeLat (g : Group) (vals : Vals) (i : Nat) (o : Opnd) (ho : o ≠ .lat) :
    regOf (vals.foldl (fun g p => writeLat g p.1 p.2) g) i o 0 = regOf g i o 0 := by
  induction vals generalizing g with
  | nil => rfl
  | cons p l ih => rw [List.foldl_cons, ih, regOf_writeLat _ _ _ _ _ ho]

theorem lat_foldl_writeLat (g : Group) (ls : List Nat) (v : Nat → Val) (i : Nat) (hi : i < g.lanes.length) :
    regOf ((ls.map fun i => (i, v i)).foldl (fun g p => writeLat g p.1 p.2) g) i .lat 0 =
      if i ∈ ls then valWord (v i) 0 else regOf g i .lat 0 := by
  induction ls generalizing g with
  | nil => simp
  | cons a l ih =>
    have hl := (sameRest_writeLat g a (v a)).length
    simp only [List.map_cons, List.foldl_cons]
    rw [ih _ (by omega), lat_writeLat _ _ _ _ hi]
    by_cases hm : i ∈ l
    · simp [hm]
    · by_cases e : i = a <;> simp [hm, e]

/-- Every register after the results of the lanes ls have been written. -/
theorem regOf_wrote (g : Group) (d : Opnd) (n : Nat) (ls : List Nat) (v : Nat → Val) (i : Nat) (o : Opnd)
    (hi : i < g.lanes.length) :
    regOf (g.wrote d n (ls.map fun i => (i, v i))) i o 0 = regAfter g ls d n v i o := by
  have hl := (sameRest_foldl (fun g (p : Nat × Val) => writeOp g p.1 d n p.2) (fun g p => sameRest_writeOp g p.1 d n p.2)
    (ls.map fun i => (i, v i)) g).length
  by_cases ho : o = .lat
  · subst ho
    rw [Group.wrote, lat_foldl_writeLat _ _ _ _ (by omega)]
    by_cases hm : i ∈ ls
    · simp [regAfter, hm]
    · simp only [regAfter, hm, if_false]
      exact lat_foldl_writeOp g ls i d n v hm
  · rw [Group.wrote, regOf_foldl_writeLat _ _ _ _ ho, regOf_foldl_writeOp _ _ _ _ _ _ _ hi ho]
    cases o <;> simp only [regAfter, sharedReg, Bool.false_eq_true, if_false, if_true] <;> first
      | exact absurd rfl ho
      | rfl
      | (cases destIndex d n _ <;> rfl)
      | (cases destIndex d n _ <;> cases ls.getLast? <;> rfl)

/-- What a write of the lanes' results to D leaves, from the state in which the path has moved on. -/
theorem wrote_of {s : State} {iss : Issue} {g : Group} (d : Opnd) (n : Nat) (ls : List Nat) (v : Nat → Val) :
    Wrote s iss g ls d n v
      (s.setGroup iss.key ((g.stepPast iss).wrote d n (ls.map fun i => (i, v i)))) := by
  have hr := sameRest_wrote (g.stepPast iss) d n (ls.map fun i => (i, v i))
  refine ⟨_, rfl, fun i o hi => ?_, fun i k _ => ?_, movedOn_of_pc hr.pc, (sameButRegs_stepPast g iss).trans hr.sameButRegs⟩
  · rw [regOf_wrote _ _ _ _ _ _ _ (by simpa using hi)]
    cases o <;> simp [regAfter]
  · rw [hr.pred, pred_stepPast]

/-- The results v of some lanes are written to a destination that is no stream register. -/
theorem reaches_wrote {s : State} {iss : Issue} {g : Group} (h : Runs s iss g) {f : Act} {d : Opnd} {n : Nat}
    {ls : List Nat} {v : Nat → Val} (hd : flat d = true)
    (hf : f iss (g.stepPast iss) (s.setGroup iss.key (g.stepPast iss)) =
      finish iss (s.setGroup iss.key (g.stepPast iss)) (g.stepPast iss) n d (ls.map fun i => (i, v i))) :
    Reaches (runAct f s) (Wrote s iss g ls d n v) := by
  refine ⟨_, runAct_ok h f (hf.trans (finish_flat hd ..)), ?_⟩
  rw [State.setGroup_setGroup]
  exact wrote_of d n ls v

/-- The operands are read and the lanes' results v are written: what is left of an instruction. -/
theorem reaches_finish {s : State} {iss : Issue} {g : Group} (h : Runs s iss g) {f : Act} {d : Opnd} {n : Nat}
    {srcs : List Opnd} {v : Nat → Val} (hd : mayWalk s iss (walked iss g srcs) true d)
    (hf : f iss (g.stepPast iss) (s.setGroup iss.key (g.stepPast iss)) =
      finish iss (s.setGroup iss.key (g.stepPast iss)) ((walked iss g srcs).stepPast iss) n d
        (iss.ls.map fun i => (i, v i))) :
    Reaches (runAct f s) (Delivered s iss g d n srcs v) := by
  by_cases hfl : flat d = true
  · refine ⟨_, runAct_ok h f (hf.trans (finish_flat hfl ..)), ?_⟩
    rw [State.setGroup_setGroup]
    have hw := wrote_of (s := s) (iss := iss) (g := walked iss g srcs) d n iss.ls v
    cases d <;> first | exact hw | simp [flat] at hfl
  · cases d with
    | s k =>
      refine ⟨_, runAct_ok h f (hf.trans (finish_stream hd _ _ n v rfl rfl)), ?_⟩
      exact wrote_of (s := storesStream s iss (walked iss g srcs) k v)
        (g := { walked iss (walked iss g srcs) [.s k] with touched := true, progress := true }) (.s k) n iss.ls v
    | _ => exact absurd rfl hfl

theorem alu1_reaches {s : State} {iss : Issue} {g : Group} (h : Runs s iss g) {d a : Opnd} (nd : Nat) (ta : Ty) (na : Nat)
    (f : Nat → Nat) (ha : mayRead s iss g [a]) (hd : mayWalk s iss (walked iss g [a]) true d) :
    Reaches (runAct (alu1 d nd ta na a f) s) (Delivered s iss g d nd [a] (val1 ta na a f s iss g)) := by
  refine reaches_finish h hd ?_
  simp only [alu1, fetch_ok ha.1, bind, Except.bind, List.map_map, val1]
  rfl

theorem alu2_reaches {s : State} {iss : Issue} {g : Group} (h : Runs s iss g) {d a b : Opnd} (nd : Nat) (ta : Ty) (na : Nat)
    (tb : Ty) (nb : Nat) (f : Nat → Nat → Nat) (hs : mayRead s iss g [a, b])
    (hd : mayWalk s iss (walked iss g [a, b]) true d) :
    Reaches (runAct (alu2 d nd ta na a tb nb b f) s) (Delivered s iss g d nd [a, b] (val2 ta na a tb nb b f s iss g)) := by
  refine reaches_finish h hd ?_
  simp only [alu2, fetch_ok hs.1, fetch_ok hs.2.1, bind, Except.bind, List.map_map, val2, walked_cons iss g a [b]]
  congr 1
  refine List.map_congr_left fun i hi => ?_
  simp [tget_map _ _ _ _ hi]

theorem alu3_reaches {s : State} {iss : Issue} {g : Group} (h : Runs s iss g) {d a b c : Opnd} (nd : Nat) (ta : Ty)
    (na : Nat) (tb : Ty) (nb : Nat) (tc : Ty) (nc : Nat) (f : Nat → Nat → Nat → Nat) (hs : mayRead s iss g [a, b, c])
    (hd : mayWalk s iss (walked iss g [a, b, c]) true d) :
    Reaches (runAct (alu3 d nd ta na a tb nb b tc nc c f) s)
      (Delivered s iss g d nd [a, b, c] (val3 ta na a tb nb b tc nc c f s iss g)) := by
  refine reaches_finish h hd ?_
  simp only [alu3, fetch_ok hs.1, fetch_ok hs.2.1, fetch_ok hs.2.2.1, bind, Except.bind, List.map_map, val3,
    walked_cons iss g a [b, c], walked_cons iss g a [b], walked_cons iss (walked iss g [a]) b [c]]
  congr 1
  refine List.map_congr_left fun i hi => ?_
  simp [tget_map _ _ _ _ hi]

/-! Predicates. -/

/-- A group that differs from another in predicates and latches only. -/
structure SamePred (g g' : Group) : Prop where
  rest : { g' with lanes := g.lanes } = g
  length : g'.lanes.length = g.lanes.length
  lane : ∀ i, { g'.lane i with p := (g.lane i).p, lat := (g.lane i).lat } = g.lane i

theorem SamePred.w {g g' : Group} (h : SamePred g g') : g'.w = g.w := by
  have e := congrArg (fun x : Group => x.w) h.rest
  exact e

theorem samePred_setLane (g : Group) (a : Nat) (f : Lane → Lane) (hf : ∀ l, { f l with p := l.p, lat := l.lat } = l) :
    SamePred g (g.setLane a f) := by
  refine ⟨rfl, by simp, fun i => ?_⟩
  rw [Group.lane_setLane]
  split
  · next h => rw [h.1]; exact hf _
  · rfl

theorem SamePred.trans {a b c : Group} (h : SamePred a b) (k : SamePred b c) : SamePred a c := by
  refine ⟨?_, k.length.trans h.length, fun i => ?_⟩
  · rw [← h.rest, ← k.rest]
  · rw [← h.lane i, ← k.lane i]

theorem samePred_writePred (g : Group) (a : Nat) (o : Opnd) (v : Tri) (p : Bool) : SamePred g (writePred g a o v p) := by
  unfold writePred
  split
  · exact ⟨rfl, rfl, fun _ => rfl⟩
  · exact samePred_setLane g a _ fun _ => rfl
  · exact ⟨rfl, rfl, fun _ => rfl⟩

theorem samePred_writeLat (g : Group) (a : Nat) (v : Val) : SamePred g (writeLat g a v) :=
  samePred_setLane g a _ fun _ => rfl

theorem pred_writePred (g : Group) (a i k : Nat) (o : Opnd) (v : Tri) (p : Bool) (hi : i < g.lanes.length) :
    ((writePred g a o v p).lane i).pred k = if o = .p k ∧ k ≠ 0 ∧ i = a then ⟨v, p⟩ else (g.lane i).pred k := by
  unfold writePred
  split
  · next => simp; omega
  · next j hj =>
    rw [Group.lane_setLane_of _ _ hi]
    by_cases e : i = a
    · subst e
      by_cases hk : k = 0
      · subst hk; simp [Lane.pred]
      · by_cases hjk : j = k
        · subst hjk; simp [Lane.pred, hk]
        · simp [Lane.pred, hk, hjk, Ne.symm hjk]
    · simp [e]
  · next h1 h2 =>
    have : o ≠ .p k := fun e => h2 k e
    simp [this]

theorem regOf_writePred (g : Group) (a i : Nat) (o q : Opnd) (j : Nat) (v : Tri) (p : Bool) :
    regOf (writePred g a o v p) i q j = regOf g i q j := by
  unfold writePred
  split
  · rfl
  · cases q <;> first
      | rfl
      | (simp only [regOf, Group.lane_setLane]; split <;> simp_all)
  · rfl

theorem pred_writeLat (g : Group) (a i k : Nat) (v : Val) : ((writeLat g a v).lane i).pred k = (g.lane i).pred k := by
  rw [writeLat, Group.lane_setLane]
  split
  · next h => rw [h.1]; rfl
  · rfl

/-- A group after the lanes' predicates have been written. -/
def Group.wrotePred (g : Group) (pd : Opnd) (vals : Tbl (Tri × Bool)) : Group :=
  vals.foldl (fun g p => writeLat (writePred g p.1 pd p.2.1 p.2.2) p.1 (triNum p.2.1, p.2.2)) g

theorem samePred_wrotePred (g : Group) (pd : Opnd) (vals : Tbl (Tri × Bool)) : SamePred g (g.wrotePred pd vals) := by
  unfold Group.wrotePred
  induction vals generalizing g with
  | nil => exact ⟨rfl, rfl, fun _ => rfl⟩
  | cons p l ih => exact ((samePred_writePred g ..).trans (samePred_writeLat _ ..)).trans (ih _)

theorem pred_wrotePred (g : Group) (pd : Opnd) (ls : List Nat) (v : Nat → Tri × Bool) (i k : Nat)
    (hi : i < g.lanes.length) :
    ((g.wrotePred pd (ls.map fun i => (i, v i))).lane i).pred k = predAfter g ls pd v i k := by
  unfold Group.wrotePred
  induction ls generalizing g with
  | nil => simp [predAfter]
  | cons a ls ih =>
    have hl := ((samePred_writePred g a pd (v a).1 (v a).2).trans (samePred_writeLat _ a (triNum (v a).1, (v a).2))).length
    simp only [List.map_cons, List.foldl_cons]
    rw [ih _ (by omega)]
    simp only [predAfter, pred_writeLat, pred_writePred _ _ _ _ _ _ _ hi, List.mem_cons]
    by_cases h1 : pd = .p k <;> by_cases h2 : k = 0 <;> by_cases h3 : i ∈ ls <;> by_cases h4 : i = a <;>
      simp_all

theorem regOf_wrotePred (g : Group) (pd : Opnd) (ls : List Nat) (v : Nat → Tri × Bool) (i : Nat) (o : Opnd)
    (hi : i < g.lanes.length) :
    regOf (g.wrotePred pd (ls.map fun i => (i, v i))) i o 0 =
      if o = .lat ∧ i ∈ ls then valWord (triNum (v i).1, (v i).2) 0 else regOf g i o 0 := by
  unfold Group.wrotePred
  induction ls generalizing g with
  | nil => simp
  | cons a ls ih =>
    have hl := ((samePred_writePred g a pd (v a).1 (v a).2).trans (samePred_writeLat _ a (triNum (v a).1, (v a).2))).length
    simp only [List.map_cons, List.foldl_cons]
    rw [ih _ (by omega)]
    by_cases ho : o = .lat
    · subst ho
      rw [lat_writeLat _ _ _ _ (by rw [(samePred_writePred ..).length]; exact hi), regOf_writePred]
      by_cases h3 : i ∈ ls <;> by_cases h4 : i = a <;> simp_all
    · rw [regOf_writeLat _ _ _ _ _ ho, regOf_writePred]; simp [ho]

theorem wrotePred_of {s : State} {iss : Issue} {g : Group} (pd : Opnd) (ls : List Nat) (v : Nat → Tri × Bool) :
    WrotePred s iss g ls pd v
      (s.setGroup iss.key ((g.stepPast iss).wrotePred pd (ls.map fun i => (i, v i)))) := by
  have hr := samePred_wrotePred (g.stepPast iss) pd (ls.map fun i => (i, v i))
  refine ⟨_, rfl, fun i o hi => ?_, fun i k hi => ?_, movedOn_of_pc fun i => ?_,
    (sameButRegs_stepPast g iss).trans ⟨?_, hr.length, fun i => ?_⟩⟩
  · rw [regOf_wrotePred _ _ _ _ _ _ (by simpa using hi)]; simp [codeAfter]
  · rw [pred_wrotePred _ _ _ _ _ _ (by simpa using hi)]; simp [predAfter]
  · rw [← hr.lane i]
  · have hw : ((g.stepPast iss).wrotePred pd (ls.map fun i => (i, v i))).w = (g.stepPast iss).w := hr.w
    rw [← hw]
    exact hr.rest
  · rw [← hr.lane i]

/-- The operands are read and the lanes' predicates v are written. -/
theorem reaches_finishPred {s : State} {iss : Issue} {g : Group} (h : Runs s iss g) {f : Act} {pd : Opnd}
    {srcs : List Opnd} {v : Nat → Tri × Bool}
    (hf : f iss (g.stepPast iss) (s.setGroup iss.key (g.stepPast iss)) =
      .ok (finishPred iss (s.setGroup iss.key (g.stepPast iss)) ((walked iss g srcs).stepPast iss) pd
        (iss.ls.map fun i => (i, v i)))) :
    Reaches (runAct f s) (WrotePred s iss (walked iss g srcs) iss.ls pd v) := by
  refine ⟨_, runAct_ok h f hf, ?_⟩
  rw [finishPred, State.setGroup_setGroup]
  exact wrotePred_of pd iss.ls v

theorem test1_reaches {s : State} {iss : Issue} {g : Group} (h : Runs s iss g) {a : Opnd} (pd : Opnd) (ta : Ty) (na : Nat)
    (f : Nat → Tri) (ha : mayRead s iss g [a]) :
    Reaches (runAct (test1 pd ta na a f) s) (WrotePred s iss (walked iss g [a]) iss.ls pd (tri1 ta na a f s iss g)) := by
  refine reaches_finishPred h ?_
  simp only [test1, fetch_ok ha.1, bind, Except.bind, pure, Except.pure, List.map_map, tri1]
  rfl

theorem test2_reaches {s : State} {iss : Issue} {g : Group} (h : Runs s iss g) {a b : Opnd} (pd : Opnd) (ta : Ty) (na : Nat)
    (tb : Ty) (nb : Nat) (f : Nat → Nat → Tri) (hs : mayRead s iss g [a, b]) :
    Reaches (runAct (test2 pd ta na a tb nb b f) s)
      (WrotePred s iss (walked iss g [a, b]) iss.ls pd (tri2 ta na a tb nb b f s iss g)) := by
  refine reaches_finishPred h ?_
  simp only [test2, fetch_ok hs.1, fetch_ok hs.2.1, bind, Except.bind, pure, Except.pure, List.map_map, tri2,
    walked_cons iss g a [b]]
  congr 2
  refine List.map_congr_left fun i hi => ?_
  simp [tget_map _ _ _ _ hi]

/-! Whole instructions: what their values are, from the runner that they call. -/

theorem computes1 {i : Instr} {d a : Opnd} {nd na : Nat} {ta : Ty} {f f' : Nat → Nat}
    (he : ∀ s, exec i s = runAct (alu1 d nd ta na a f) s) (hv : wf i = true → ∀ x, f x = f' x) :
    Computes i d nd [a] (val1 ta na a f') := by
  intro s iss g hw hr hs hd
  rw [he s, ← show f = f' from funext (hv hw)]
  exact alu1_reaches hr nd ta na f hs hd

theorem computes2 {i : Instr} {d a b : Opnd} {nd na nb : Nat} {ta tb : Ty} {f f' : Nat → Nat → Nat}
    (he : ∀ s, exec i s = runAct (alu2 d nd ta na a tb nb b f) s) (hv : wf i = true → ∀ x y, f x y = f' x y) :
    Computes i d nd [a, b] (val2 ta na a tb nb b f') := by
  intro s iss g hw hr hs hd
  rw [he s, ← show f = f' from funext fun x => funext (hv hw x)]
  exact alu2_reaches hr nd ta na tb nb f hs hd

theorem computes3 {i : Instr} {d a b c : Opnd} {nd na nb nc : Nat} {ta tb tc : Ty} {f f' : Nat → Nat → Nat → Nat}
    (he : ∀ s, exec i s = runAct (alu3 d nd ta na a tb nb b tc nc c f) s)
    (hv : wf i = true → ∀ x y z, f x y z = f' x y z) :
    Computes i d nd [a, b, c] (val3 ta na a tb nb b tc nc c f') := by
  intro s iss g hw hr hs hd
  rw [he s, ← show f = f' from funext fun x => funext fun y => funext (hv hw x y)]
  exact alu3_reaches hr nd ta na tb nb tc nc f hs hd

theorem decides1 {i : Instr} {pd a : Opnd} {na : Nat} {ta : Ty} {f f' : Nat → Tri}
    (he : ∀ s, exec i s = runAct (test1 pd ta na a f) s) (hv : wf i = true → ∀ x, f x = f' x) :
    Decides i pd [a] (tri1 ta na a f') := by
  intro s iss g hw hr hs
  rw [he s, ← show f = f' from funext (hv hw)]
  exact test1_reaches hr pd ta na f hs

theorem decides2 {i : Instr} {pd a b : Opnd} {na nb : Nat} {ta tb : Ty} {f f' : Nat → Nat → Tri}
    (he : ∀ s, exec i s = runAct (test2 pd ta na a tb nb b f) s) (hv : wf i = true → ∀ x y, f x y = f' x y) :
    Decides i pd [a, b] (tri2 ta na a tb nb b f') := by
  intro s iss g hw hr hs
  rw [he s, ← show f = f' from funext fun x => funext (hv hw x)]
  exact test2_reaches hr pd ta na tb nb f hs

end Sys2Proof.Machine
end

