-- ==== Sys2Proof/Laws/Encoding.lean ====
section
/-! SUPPORT. What the decoder reads back from each body that the encoder lays out (R343 to R350). -/

namespace Sys2Proof

/-! Operand fields. -/

/-- The operand reads back from its own 12-bit code. -/
def OpOk (o : Opnd) : Prop := Opnd.ofCode o.code = o

theorem opOk_zero : OpOk .zero := rfl

theorem code_lt {o : Opnd} (h : OpOk o) : o.code < 2 ^ 12 := by
  unfold OpOk at h
  refine Nat.lt_of_not_le fun hn => ?_
  have : Opnd.ofCode o.code = .zero := by
    unfold Opnd.ofCode
    repeat' split
    all_goals first | rfl | omega
  rw [this] at h
  rw [← h] at hn
  exact absurd hn (by decide)

theorem opOk_x {n : Nat} (h : n < 256) : OpOk (.x n) := by simp [OpOk, Opnd.code, Opnd.ofCode, h]

theorem opOk_w {n : Nat} (h : n < 384) : OpOk (.w n) := by
  show Opnd.ofCode (0x100 + n) = _
  unfold Opnd.ofCode
  rw [if_neg (by omega), if_pos (by omega), Nat.add_sub_cancel_left]

theorem opOk_p {n : Nat} (h : n < 8) : OpOk (.p n) := by
  show Opnd.ofCode (0x280 + n) = _
  unfold Opnd.ofCode
  rw [if_neg (by omega), if_neg (by omega), if_pos (by omega), Nat.add_sub_cancel_left]

theorem opOk_e {n : Nat} (h : n < 8) : OpOk (.e n) := by
  show Opnd.ofCode (0x288 + n) = _
  unfold Opnd.ofCode
  rw [if_neg (by omega), if_neg (by omega), if_neg (by omega), if_pos (by omega), Nat.add_sub_cancel_left]

theorem opOk_s {n : Nat} (h : n < 8) : OpOk (.s n) := by
  show Opnd.ofCode (0x290 + n) = _
  unfold Opnd.ofCode
  rw [if_neg (by omega), if_neg (by omega), if_neg (by omega), if_neg (by omega), if_pos (by omega),
    Nat.add_sub_cancel_left]

theorem opOk_c {n : Nat} (h : n < 8) : OpOk (.c n) := by
  show Opnd.ofCode (0x400 + n) = _
  unfold Opnd.ofCode
  rw [if_neg (by omega), if_neg (by omega), if_neg (by omega), if_neg (by omega), if_neg (by omega),
    if_pos (by omega), Nat.add_sub_cancel_left]

theorem opOk_lat : OpOk .lat := rfl

theorem opOk_range {n : Nat} (hn : 0 < n) {o : Opnd} (h : o.range n = true) : OpOk o := by
  cases o <;> simp [Opnd.range] at h
  · exact opOk_x (by omega)
  · exact opOk_w (by omega)

theorem opOk_rangeX {n : Nat} (hn : 0 < n) {o : Opnd} (h : o.rangeX n = true) : OpOk o := by
  cases o <;> simp [Opnd.rangeX] at h
  exact opOk_x (by omega)

theorem opOk_reg32 {o : Opnd} (h : o.reg32 = true) : OpOk o := by
  cases o <;> simp [Opnd.reg32] at h
  · exact opOk_x h
  · exact opOk_w h
  · exact opOk_c h
  · exact opOk_lat

theorem opOk_reg32z {o : Opnd} (h : o.reg32z = true) : OpOk o := by
  cases o <;> first | exact opOk_zero | exact opOk_reg32 h

theorem opOk_dst {n : Nat} (hn : 0 < n) {o : Opnd} (h : o.dst n = true) : OpOk o := by
  unfold Opnd.dst at h
  split at h
  · exact opOk_reg32 h
  · exact opOk_range hn h

theorem opOk_src {n : Nat} (hn : 0 < n) {o : Opnd} (h : o.src n = true) : OpOk o := by
  cases o <;> first | exact opOk_zero | exact opOk_dst hn h

theorem opOk_sreg {o : Opnd} (h : o.sreg = true) : OpOk o := by
  cases o <;> simp [Opnd.sreg] at h
  exact opOk_s h

theorem opOk_dstS {n : Nat} (hn : 0 < n) {o : Opnd} (h : o.dstS n = true) : OpOk o := by
  simp only [Opnd.dstS, Bool.or_eq_true, Bool.and_eq_true] at h
  rcases h with h | h
  · exact opOk_dst hn h
  · exact opOk_sreg h.2

theorem opOk_srcS {n : Nat} (hn : 0 < n) {o : Opnd} (h : o.srcS n = true) : OpOk o := by
  simp only [Opnd.srcS, Bool.or_eq_true, Bool.and_eq_true] at h
  rcases h with h | h
  · exact opOk_src hn h
  · exact opOk_sreg h.2

theorem opOk_srcI {n : Nat} (hn : 0 < n) {o : Opnd} (h : o.srcI n = true) : OpOk o ∨ o.isImm = true := by
  simp only [Opnd.srcI, Bool.or_eq_true] at h
  exact h.imp_left (opOk_srcS hn)

theorem opOk_lowX {n : Nat} {o : Opnd} (h : o.lowX n = true) : ∃ k, o = .x k ∧ k < 128 := by
  cases o <;> simp [Opnd.lowX] at h
  exact ⟨_, rfl, h.2⟩

theorem opOk_psrc {o : Opnd} (h : o.psrc = true) : OpOk o := by
  cases o <;> simp [Opnd.psrc] at h
  exact opOk_p h

theorem opOk_pdst {o : Opnd} (h : o.pdst = true) : OpOk o := by
  cases o <;> simp [Opnd.pdst] at h
  exact opOk_p h.2

theorem opOk_ereg {o : Opnd} (h : o.ereg = true) : OpOk o := by
  cases o <;> simp [Opnd.ereg] at h
  exact opOk_e h

theorem opOk_ivSrc {n : Nat} (hn : 0 < n) {o : Opnd} (h : o.ivSrc n = true) : OpOk o := by
  cases o <;> first | exact opOk_zero | exact opOk_range hn h

theorem opOk_base64 {o : Opnd} (h : o.base64 = true) : OpOk o := by
  cases o <;> first | exact opOk_zero | exact opOk_range (n := 2) (by decide) h

theorem opOk_isZero {o : Opnd} (h : o.isZero = true) : OpOk o := by
  cases o <;> simp [Opnd.isZero] at h
  exact opOk_zero

theorem opOk_uniformPair {o : Opnd} (h : o.uniformPair = true) : OpOk o := by
  cases o <;> simp [Opnd.uniformPair] at h
  exact opOk_w (by omega)

theorem opOk_uniform {o : Opnd} (h : o.uniform = true) : OpOk o := by
  cases o <;> simp [Opnd.uniform] at h
  · exact opOk_w h
  · exact opOk_zero

theorem regs_pos (ty : Ty) : 0 < ty.regs := by cases ty <;> decide

/-- An operand that is not the immediate. -/
theorem isImm_cases (o : Opnd) : o.isImm = false ∨ ∃ v, o = .imm v := by
  cases o <;> simp [Opnd.isImm]

theorem not_imm {o : Opnd} (h : OpOk o) : o.isImm = false := by
  rcases isImm_cases o with h' | ⟨v, rfl⟩
  · exact h'
  · cases h

/-! Codes of modifiers. -/

@[simp] theorem ty_ofCode_code (t : Ty) : Ty.ofCode t.code = some t := by cases t <;> rfl
theorem ty_code_lt (t : Ty) : t.code < 2 ^ 4 := by cases t <;> decide
@[simp] theorem rnd_ofCode_code (r : Rnd) : Rnd.ofCode r.code = r := by cases r <;> rfl
theorem rnd_code_lt (r : Rnd) : r.code < 4 := by cases r <;> decide
@[simp] theorem rel_ofCode_code (r : Rel) : Rel.ofCode r.code = r := by cases r <;> rfl
theorem rel_code_lt (r : Rel) : r.code < 8 := by cases r <;> decide
@[simp] theorem shflMode_ofCode_code (m : ShflMode) : ShflMode.ofCode m.code = m := by cases m <;> rfl
theorem shflMode_code_lt (m : ShflMode) : m.code < 8 := by cases m <;> decide
@[simp] theorem voteMode_ofCode_code (m : VoteMode) : VoteMode.ofCode m.code = m := by cases m <;> rfl
theorem voteMode_code_lt (m : VoteMode) : m.code < 16 := by cases m <;> decide
@[simp] theorem reduxOp_ofCode_code (m : ReduxOp) : ReduxOp.ofCode m.code = m := by cases m <;> rfl
theorem reduxOp_code_lt (m : ReduxOp) : m.code < 16 := by cases m <;> decide
@[simp] theorem subWord_ofCode_code (m : SubWord) : SubWord.ofCode m.code = m := by cases m <;> rfl
theorem subWord_code_lt (m : SubWord) : m.code < 4 := by cases m <;> decide
@[simp] theorem cache_ofCode_code (m : Cache) : Cache.ofCode m.code = m := by cases m <;> rfl
theorem cache_code_lt (m : Cache) : m.code < 8 := by cases m <;> decide
@[simp] theorem scope_ofCode_code (m : Scope) : Scope.ofCode m.code = m := by cases m <;> rfl
theorem scope_code_lt (m : Scope) : m.code < 8 := by cases m <;> decide
@[simp] theorem atomOp_ofCode_code (m : AtomOp) : AtomOp.ofCode m.code = m := by cases m <;> rfl
theorem atomOp_code_lt (m : AtomOp) : m.code < 16 := by cases m <;> decide
@[simp] theorem settKind_ofCode_code (m : SettKind) : SettKind.ofCode m.code = m := by cases m <;> rfl
theorem settKind_code_lt (m : SettKind) : m.code < 16 := by cases m <;> decide

/-! Bit fields. -/

theorem b2n_le (b : Bool) : b2n b ≤ 1 := by cases b <;> decide

/-- A bit reads back from a number that holds it. -/
theorem bit_of {v k : Nat} {b : Bool} (h : v / 2 ^ k % 2 = b2n b) : bit v k = b := by
  unfold bit; rw [h]; cases b <;> rfl

theorem bits_of {v lo n x : Nat} (h : v / 2 ^ lo % 2 ^ n = x) : bits v lo n = x := h

/-! The T body (R344). -/

/-- What the decoder reads from a T body. -/
structure ReadsT (r : Raw) (d a b c : Opnd) (rnd : Nat) (fl : Flags) (xsub : Nat) : Prop where
  d : r.d = d
  a : r.a = a
  b : r.b = b
  c : r.c = c
  fl : r.fl = fl
  rnd : rndT r = Rnd.ofCode rnd
  xsub : bits r.body 0 8 = xsub

theorem bodyT_lt {d a b c : Opnd} {rnd : Nat} (fl : Flags) {xsub : Nat} (hd : OpOk d) (ha : OpOk a) (hb : OpOk b)
    (hc : OpOk c) (hr : rnd < 8) (hx : xsub < 256) : bodyT d a b c rnd fl xsub < 2 ^ 64 := by
  have := code_lt hd; have := code_lt ha; have := code_lt hb; have := code_lt hc
  have := b2n_le fl.negA; have := b2n_le fl.negB; have := b2n_le fl.negC; have := b2n_le fl.absA
  have := b2n_le fl.sat
  unfold bodyT
  omega

theorem readsT {r : Raw} {d a b c : Opnd} {rnd : Nat} {fl : Flags} {xsub : Nat}
    (h : r.body = bodyT d a b c rnd fl xsub) (hd : OpOk d) (ha : OpOk a) (hb : OpOk b) (hc : OpOk c) (hr : rnd < 8)
    (hx : xsub < 256) : ReadsT r d a b c rnd fl xsub := by
  have h1 := code_lt hd; have h2 := code_lt ha; have h3 := code_lt hb; have h4 := code_lt hc
  have h5 := b2n_le fl.negA; have h6 := b2n_le fl.negB; have h7 := b2n_le fl.negC; have h8 := b2n_le fl.absA
  have h9 := b2n_le fl.sat
  refine ⟨?_, ?_, ?_, ?_, ?_, ?_, ?_⟩
  · exact (congrArg Opnd.ofCode (by rw [h]; unfold bits bodyT; omega)).trans hd
  · exact (congrArg Opnd.ofCode (by rw [h]; unfold bits bodyT; omega)).trans ha
  · exact (congrArg Opnd.ofCode (by rw [h]; unfold bits bodyT; omega)).trans hb
  · exact (congrArg Opnd.ofCode (by rw [h]; unfold bits bodyT; omega)).trans hc
  · unfold Raw.fl
    rw [h, bit_of (b := fl.negA), bit_of (b := fl.negB), bit_of (b := fl.negC), bit_of (b := fl.absA),
      bit_of (b := fl.sat)] <;> (unfold bodyT; omega)
  · exact congrArg Rnd.ofCode (by rw [h]; unfold bits bodyT; omega)
  · rw [h]; unfold bits bodyT; omega

/-! The I body and its TI arrangement (R345). -/

/-- What the decoder reads from an I body. -/
structure ReadsI (r : Raw) (d : Opnd) (a : Nat) (v : Word) (rnd : Nat) (sat : Bool) : Prop where
  d : r.d = d
  a : r.a = Opnd.ofCode a
  imm : imm32 r = .imm v
  rnd : Rnd.ofCode (bits r.body 5 3) = Rnd.ofCode rnd
  sat : bit r.body 0 = sat

theorem bodyI_lt {d : Opnd} {a rnd : Nat} (v : Word) (sat : Bool) (hd : OpOk d) (ha : a < 2 ^ 12) (hr : rnd < 8) :
    bodyI d a v rnd sat < 2 ^ 64 := by
  have := code_lt hd; have := v.isLt; have := b2n_le sat
  unfold bodyI
  omega

theorem readsI {r : Raw} {d : Opnd} {a rnd : Nat} {v : Word} {sat : Bool} (h : r.body = bodyI d a v rnd sat)
    (hd : OpOk d) (ha : a < 2 ^ 12) (hr : rnd < 8) : ReadsI r d a v rnd sat := by
  have h1 := code_lt hd; have h2 := v.isLt; have h3 := b2n_le sat
  refine ⟨?_, ?_, ?_, ?_, ?_⟩
  · exact (congrArg Opnd.ofCode (by rw [h]; unfold bits bodyI; omega)).trans hd
  · exact congrArg Opnd.ofCode (by rw [h]; unfold bits bodyI; omega)
  · have : bits r.body 8 32 = v.toNat := by rw [h]; unfold bits bodyI; omega
    unfold imm32; rw [this, BitVec.ofNat_toNat, BitVec.setWidth_eq]
  · exact congrArg Rnd.ofCode (by rw [h]; unfold bits bodyI; omega)
  · rw [h]; exact bit_of (by unfold bodyI; omega)

/-- What the decoder reads from a TI body. -/
structure ReadsTI (r : Raw) (d a b : Opnd) (v : Word) (negB : Bool) : Prop where
  d : r.d = d
  a : r.a = a
  b : Opnd.x (bits r.body 0 7) = b
  imm : imm32 r = .imm v
  negB : bit r.body 7 = negB

theorem bodyTI_lt {d a : Opnd} (b : Opnd) (v : Word) (negB : Bool) (hd : OpOk d) (ha : OpOk a) :
    bodyTI d a b v negB < 2 ^ 64 := by
  have := code_lt hd; have := code_lt ha; have := v.isLt; have := b2n_le negB
  unfold bodyTI
  omega

theorem readsTI {r : Raw} {d a : Opnd} {k : Nat} {v : Word} {negB : Bool} (h : r.body = bodyTI d a (.x k) v negB)
    (hd : OpOk d) (ha : OpOk a) (hk : k < 128) : ReadsTI r d a (.x k) v negB := by
  have h1 := code_lt hd; have h2 := code_lt ha; have h3 := v.isLt; have h4 := b2n_le negB
  refine ⟨?_, ?_, ?_, ?_, ?_⟩
  · exact (congrArg Opnd.ofCode (by rw [h]; unfold bits bodyTI; omega)).trans hd
  · exact (congrArg Opnd.ofCode (by rw [h]; unfold bits bodyTI; omega)).trans ha
  · refine congrArg Opnd.x ?_
    rw [h]; unfold bits bodyTI; simp only [Opnd.code]; omega
  · have : bits r.body 8 32 = v.toNat := by rw [h]; unfold bits bodyTI; omega
    unfold imm32; rw [this, BitVec.ofNat_toNat, BitVec.setWidth_eq]
  · rw [h]; exact bit_of (by unfold bodyTI; omega)

/-! The M body (R347). -/

/-- What the decoder reads from an M body. -/
structure ReadsM (r : Raw) (d a b : Opnd) (off : BitVec 20) (scope cache mflags : Nat) : Prop where
  d : r.d = d
  a : r.a = a
  b : r.b = b
  off : offM r = off
  scope : scopeM r = Scope.ofCode scope
  cache : cacheOf r = Cache.ofCode cache
  mflags : bits r.body 0 2 = mflags

theorem bodyM_lt {d a b : Opnd} (off : BitVec 20) {scope cache mflags : Nat} (hd : OpOk d) (ha : OpOk a)
    (hb : OpOk b) (hs : scope < 8) (hc : cache < 8) (hm : mflags < 4) : bodyM d a b off scope cache mflags < 2 ^ 64 := by
  have := code_lt hd; have := code_lt ha; have := code_lt hb; have := off.isLt
  unfold bodyM
  omega

theorem readsM {r : Raw} {d a b : Opnd} {off : BitVec 20} {scope cache mflags : Nat}
    (h : r.body = bodyM d a b off scope cache mflags) (hd : OpOk d) (ha : OpOk a) (hb : OpOk b) (hs : scope < 8)
    (hc : cache < 8) (hm : mflags < 4) : ReadsM r d a b off scope cache mflags := by
  have h1 := code_lt hd; have h2 := code_lt ha; have h3 := code_lt hb; have h4 := off.isLt
  refine ⟨?_, ?_, ?_, ?_, ?_, ?_, ?_⟩
  · exact (congrArg Opnd.ofCode (by rw [h]; unfold bits bodyM; omega)).trans hd
  · exact (congrArg Opnd.ofCode (by rw [h]; unfold bits bodyM; omega)).trans ha
  · exact (congrArg Opnd.ofCode (by rw [h]; unfold bits bodyM; omega)).trans hb
  · have : bits r.body 8 20 = off.toNat := by rw [h]; unfold bits bodyM; omega
    unfold offM; rw [this, BitVec.ofNat_toNat, BitVec.setWidth_eq]
  · exact congrArg Scope.ofCode (by rw [h]; unfold bits bodyM; omega)
  · exact congrArg Cache.ofCode (by rw [h]; unfold bits bodyM; omega)
  · rw [h]; unfold bits bodyM; omega

/-! The C body (R348). -/

/-- What the decoder reads from a C body. -/
structure ReadsC (r : Raw) (off : Word) (a b : Opnd) (cflags : Nat) : Prop where
  off : offC r = off
  a : fieldCA r = a
  b : fieldCB r = b
  cflags : bits r.body 0 8 = cflags

theorem bodyC_lt (off : Word) {a b : Opnd} {cflags : Nat} (ha : OpOk a) (hb : OpOk b) (hc : cflags < 256) :
    bodyC off a b cflags < 2 ^ 64 := by
  have := code_lt ha; have := code_lt hb; have := off.isLt
  unfold bodyC
  omega

theorem readsC {r : Raw} {off : Word} {a b : Opnd} {cflags : Nat} (h : r.body = bodyC off a b cflags) (ha : OpOk a)
    (hb : OpOk b) (hc : cflags < 256) : ReadsC r off a b cflags := by
  have h1 := code_lt ha; have h2 := code_lt hb; have h3 := off.isLt
  refine ⟨?_, ?_, ?_, ?_⟩
  · have : bits r.body 32 32 = off.toNat := by rw [h]; unfold bits bodyC; omega
    unfold offC; rw [this, BitVec.ofNat_toNat, BitVec.setWidth_eq]
  · exact (congrArg Opnd.ofCode (by rw [h]; unfold bits bodyC; omega)).trans ha
  · exact (congrArg Opnd.ofCode (by rw [h]; unfold bits bodyC; omega)).trans hb
  · rw [h]; unfold bits bodyC; omega

/-! The E body (R349). -/

/-- The operand's code fits its field: a register, zero or the immediate. -/
def OpE (o : Opnd) : Prop := OpOk o ∨ o.isImm28 = true

theorem opE_code_lt {o : Opnd} (h : OpE o) : o.code < 2 ^ 12 := by
  rcases h with h | h
  · exact code_lt h
  · cases o <;> simp [Opnd.isImm28] at h
    exact (by decide : 0xC00 < 2 ^ 12)

theorem immE_lt {o : Opnd} (h : OpE o) : o.immE < 2 ^ 28 := by
  rcases h with h | h
  · cases o <;> first | exact (by decide : 0 < 2 ^ 28) | exact absurd (not_imm h) (by simp [Opnd.isImm])
  · cases o <;> simp [Opnd.isImm28] at h
    exact h

theorem code_ne_imm {o : Opnd} (h : OpOk o) : o.code ≠ 0xC00 := fun e => by
  have hz : Opnd.ofCode o.code = .zero := by rw [e]; rfl
  rw [h] at hz
  rw [hz] at e
  exact absurd e (by decide)

/-- An E-body operand reads back, register or immediate. -/
theorem immOr_eq {r : Raw} {o o' : Opnd} {lo : Nat} (h : OpE o) (hc : bits r.body lo 12 = o.code)
    (hi : o.isImm = true → bits r.body 0 28 = o.immE) (ho : o' = Opnd.ofCode (bits r.body lo 12)) :
    immOr r o' lo = o := by
  unfold immOr
  rcases h with h | h
  · rw [if_neg (by rw [hc]; exact code_ne_imm h), ho, hc]; exact h
  · cases o <;> simp [Opnd.isImm28] at h
    have hc' : bits r.body lo 12 = 0xC00 := hc
    rw [if_pos hc', hi rfl]
    simp [Opnd.immE]

/-- What the decoder reads from an E body. -/
structure ReadsE (r : Raw) (d a b : Opnd) (imm : Nat) : Prop where
  cA : bits r.body 40 12 = a.code
  cB : bits r.body 28 12 = b.code
  d : r.d = Opnd.ofCode d.code
  a : r.a = Opnd.ofCode a.code
  b : r.b = Opnd.ofCode b.code
  imm : bits r.body 0 28 = imm

theorem bodyE_lt {d a b : Opnd} {imm : Nat} (hd : OpOk d) (ha : OpE a) (hb : OpE b) (hi : imm < 2 ^ 28) :
    bodyE d a b imm < 2 ^ 64 := by
  have := code_lt hd; have := opE_code_lt ha; have := opE_code_lt hb
  unfold bodyE
  omega

theorem readsE {r : Raw} {d a b : Opnd} {imm : Nat} (h : r.body = bodyE d a b imm) (hd : OpOk d) (ha : OpE a)
    (hb : OpE b) (hi : imm < 2 ^ 28) : ReadsE r d a b imm := by
  have h1 := code_lt hd; have h2 := opE_code_lt ha; have h3 := opE_code_lt hb
  refine ⟨?_, ?_, ?_, ?_, ?_, ?_⟩
  · rw [h]; unfold bits bodyE; omega
  · rw [h]; unfold bits bodyE; omega
  · exact congrArg Opnd.ofCode (by rw [h]; unfold bits bodyE; omega)
  · exact congrArg Opnd.ofCode (by rw [h]; unfold bits bodyE; omega)
  · exact congrArg Opnd.ofCode (by rw [h]; unfold bits bodyE; omega)
  · rw [h]; unfold bits bodyE; omega

/-! The masks of REGION and PHASE (R350). -/

theorem bodyR_lt (m : Masks) : bodyR m < 2 ^ 64 := by
  have := m.x.isLt; have := m.w.isLt; have := m.p.isLt; have := m.e.isLt
  unfold bodyR
  omega

theorem masksOf_eq {r : Raw} {m : Masks} (h : r.body = bodyR m) : masksOf r = m := by
  have h1 := m.x.isLt; have h2 := m.w.isLt; have h3 := m.p.isLt; have h4 := m.e.isLt
  have e1 : bits r.body 32 32 = m.x.toNat := by rw [h]; unfold bits bodyR; omega
  have e2 : bits r.body 20 12 = m.w.toNat := by rw [h]; unfold bits bodyR; omega
  have e3 : bits r.body 12 8 = m.p.toNat := by rw [h]; unfold bits bodyR; omega
  have e4 : bits r.body 4 8 = m.e.toNat := by rw [h]; unfold bits bodyR; omega
  unfold masksOf
  rw [e1, e2, e3, e4]
  simp

/-! The header (R343). -/

theorem headBits_lt {h : Header} (hh : h.wf = true) {e : Enc} (ho : e.opc < 2 ^ 10) (ht : e.ty < 2 ^ 4)
    (hs : e.sub < 2 ^ 4) : headBits h e < 2 ^ 32 := by
  simp only [Header.wf, Bool.and_eq_true, decide_eq_true_eq] at hh
  have := b2n_le h.y; have := b2n_le h.wl; have := b2n_le e.ru
  unfold headBits
  omega

/-- The header of an encoded word, its type, subop, opcode and RU, and its body, read back. -/
theorem word_reads {h : Header} (hh : h.wf = true) {e : Enc} (ho : e.opc < 2 ^ 10) (ht : e.ty < 2 ^ 4)
    (hs : e.sub < 2 ^ 4) (hb : e.body < 2 ^ 64) :
    headerOf (headBits h e * 2 ^ 64 + e.body) = h ∧ bits (headBits h e * 2 ^ 64 + e.body) 68 4 = e.ty ∧
    bits (headBits h e * 2 ^ 64 + e.body) 86 10 = e.opc ∧ bits (headBits h e * 2 ^ 64 + e.body) 64 4 = e.sub ∧
    bit (headBits h e * 2 ^ 64 + e.body) 72 = e.ru ∧ bits (headBits h e * 2 ^ 64 + e.body) 0 64 = e.body := by
  have hhw := hh
  simp only [Header.wf, Bool.and_eq_true, decide_eq_true_eq] at hhw
  have h1 := b2n_le h.y; have h2 := b2n_le h.wl; have h3 := b2n_le e.ru
  refine ⟨?_, ?_, ?_, ?_, ?_, ?_⟩
  · have e1 : bits (headBits h e * 2 ^ 64 + e.body) 83 3 = h.gpred := by unfold bits headBits; omega
    have e2 : bits (headBits h e * 2 ^ 64 + e.body) 80 3 = h.gmask := by unfold bits headBits; omega
    have e3 : bits (headBits h e * 2 ^ 64 + e.body) 75 5 = h.stall := by unfold bits headBits; omega
    have e4 : bit (headBits h e * 2 ^ 64 + e.body) 74 = h.y := bit_of (by unfold headBits; omega)
    have e5 : bit (headBits h e * 2 ^ 64 + e.body) 73 = h.wl := bit_of (by unfold headBits; omega)
    unfold headerOf
    rw [e1, e2, e3, e4, e5]
  · unfold bits headBits; omega
  · unfold bits headBits; omega
  · unfold bits headBits; omega
  · exact bit_of (by unfold headBits; omega)
  · unfold bits headBits; omega

/-- An encoded instruction decodes to itself where the parser names it from its own fields. -/
theorem decodeWord_of {h : Header} {i : Instr} {e : Enc} {ty : Ty} (hh : h.wf = true) (hw : wf i = true)
    (hg : guardOk h i = true) (he : encFields i = some e) (ho : e.opc < 2 ^ 10) (ht : e.ty = ty.code)
    (hs : e.sub < 2 ^ 4) (hb : e.body < 2 ^ 64) (hp : parse e.opc ⟨ty, e.sub, e.ru, e.body⟩ = some i) :
    ∃ w, encode h i = some w ∧ w < 2 ^ 96 ∧ decodeWord w = .ok (h, i) := by
  have htl : e.ty < 2 ^ 4 := ht ▸ ty_code_lt ty
  obtain ⟨r1, r2, r3, r4, r5, r6⟩ := word_reads hh ho htl hs hb
  have hlt := headBits_lt hh ho htl hs
  have henc : encode h i = some (headBits h e * 2 ^ 64 + e.body) := by simp [encode, he]
  refine ⟨_, henc, by omega, ?_⟩
  have hgm : h.gmask ≠ 0 := by
    simp only [Header.wf, Bool.and_eq_true, decide_eq_true_eq] at hh
    omega
  unfold decodeWord
  simp only [r1, r2, r3, r4, r5, r6]
  rw [if_neg hgm]
  simp only [ht, ty_ofCode_code, hp]
  simp [hg, hw, henc]

end Sys2Proof
end

