-- ==== Sys2Proof/Laws/Memory.lean ====
section
/-! SUPPORT. Memory keeps its canonical form under every operation that writes it; a byte reads as what was last written to
it, and a write leaves every other byte alone. -/

namespace Sys2Proof.Machine

/-! Rising keys. -/

theorem risingFrom_cons {α : Type} {b : Option Nat} {k : Nat} {a : α} {t : Tbl α} :
    risingFrom b ((k, a) :: t) = true ↔ (∀ n, b = some n → n < k) ∧ risingFrom (some k) t = true := by
  cases b <;> simp [risingFrom]

theorem risingFrom_lower {α : Type} {b c : Nat} (h : c ≤ b) {t : Tbl α} (ht : risingFrom (some b) t = true) :
    risingFrom (some c) t = true := by
  cases t with
  | nil => rfl
  | cons e t =>
    obtain ⟨k, a⟩ := e
    rw [risingFrom_cons] at ht ⊢
    exact ⟨fun n hn => by cases hn; exact Nat.lt_of_le_of_lt h (ht.1 b rfl), ht.2⟩

theorem risingFrom_none {α : Type} {b : Option Nat} {t : Tbl α} (ht : risingFrom b t = true) :
    risingFrom none t = true := by
  cases t with
  | nil => rfl
  | cons e t => obtain ⟨k, a⟩ := e; rw [risingFrom_cons] at ht ⊢; exact ⟨by simp, ht.2⟩

theorem risingFrom_skip {α : Type} {b : Option Nat} {k : Nat} {t : Tbl α} (hb : ∀ n, b = some n → n < k)
    (ht : risingFrom (some k) t = true) : risingFrom b t = true := by
  cases b with
  | none => exact risingFrom_none ht
  | some n => exact risingFrom_lower (Nat.le_of_lt (hb n rfl)) ht

theorem risingFrom_filter {α : Type} (p : Nat × α → Bool) {b : Option Nat} {t : Tbl α} (ht : risingFrom b t = true) :
    risingFrom b (t.filter p) = true := by
  induction t generalizing b with
  | nil => rfl
  | cons e t ih =>
    obtain ⟨k, a⟩ := e
    rw [risingFrom_cons] at ht
    rw [List.filter_cons]
    split
    · rw [risingFrom_cons]; exact ⟨ht.1, ih ht.2⟩
    · exact risingFrom_skip ht.1 (ih ht.2)

theorem risingFrom_terase {α : Type} (k : Nat) {b : Option Nat} {t : Tbl α} (ht : risingFrom b t = true) :
    risingFrom b (terase k t) = true := by
  induction t generalizing b with
  | nil => rfl
  | cons e t ih =>
    obtain ⟨j, a⟩ := e
    rw [risingFrom_cons] at ht
    simp only [terase]
    split
    · exact risingFrom_skip ht.1 (ih ht.2)
    · rw [risingFrom_cons]; exact ⟨ht.1, ih ht.2⟩

theorem risingFrom_tset {α : Type} {k : Nat} (a : α) {b : Option Nat} {t : Tbl α} (hb : ∀ n, b = some n → n < k)
    (ht : risingFrom b t = true) : risingFrom b (tset k a t) = true := by
  induction t generalizing b with
  | nil => simp only [tset, risingFrom_cons]; exact ⟨hb, rfl⟩
  | cons e t ih =>
    obtain ⟨j, c⟩ := e
    rw [risingFrom_cons] at ht
    simp only [tset]
    split
    · next hj => rw [risingFrom_cons]; exact ⟨ht.1, ih (fun n hn => by cases hn; exact hj) ht.2⟩
    · split
      · next hj => subst hj; rw [risingFrom_cons]; exact ⟨hb, ht.2⟩
      · next h1 h2 =>
        rw [risingFrom_cons, risingFrom_cons]
        exact ⟨hb, fun n hn => by cases hn; omega, ht.2⟩

/-! The canonical form. -/

theorem mem_tset {α : Type} {k : Nat} {a : α} {t : Tbl α} {e : Nat × α} (h : e ∈ tset k a t) : e = (k, a) ∨ e ∈ t := by
  induction t with
  | nil => simpa [tset] using h
  | cons f t ih =>
    obtain ⟨j, c⟩ := f
    simp only [tset] at h
    split at h
    · rcases List.mem_cons.1 h with h | h
      · exact .inr (h ▸ List.mem_cons_self)
      · exact (ih h).imp_right (List.mem_cons_of_mem _)
    · split at h
      · rcases List.mem_cons.1 h with h | h
        · exact .inl h
        · exact .inr (List.mem_cons_of_mem _ h)
      · exact List.mem_cons.1 h

theorem mem_terase {α : Type} {k : Nat} {t : Tbl α} {e : Nat × α} (h : e ∈ terase k t) : e ∈ t := by
  induction t with
  | nil => exact h
  | cons f t ih =>
    obtain ⟨j, c⟩ := f
    simp only [terase] at h
    split at h
    · exact List.mem_cons_of_mem _ (ih h)
    · rcases List.mem_cons.1 h with h | h
      · exact h ▸ List.mem_cons_self
      · exact List.mem_cons_of_mem _ (ih h)

theorem memWf_iff {m : List Host.Cell} : memWf m = true ↔ risingFrom none m = true ∧ ∀ c ∈ m, c.2 ≠ unwritten := by
  simp [memWf]

theorem memWf_nil : memWf [] = true := rfl

/-- A byte written keeps the canonical form. -/
theorem memWf_memPut {m : List Host.Cell} (h : memWf m = true) (a : Nat) (b : Byte) : memWf (memPut m a b) = true := by
  rw [memWf_iff] at h ⊢
  unfold memPut tput
  split
  · exact ⟨risingFrom_terase a h.1, fun c hc => h.2 c (mem_terase hc)⟩
  · next hb =>
    refine ⟨risingFrom_tset b (by simp) h.1, fun c hc => ?_⟩
    rcases mem_tset hc with rfl | hc
    · exact hb
    · exact h.2 c hc

theorem memWf_memPutBytes {m : List Host.Cell} (h : memWf m = true) (a : Nat) (bs : List Byte) :
    memWf (memPutBytes m a bs) = true := by
  induction bs generalizing m a with
  | nil => exact h
  | cons b bs ih => exact ih (memWf_memPut h a b) (a + 1)

theorem memWf_memClear {m : List Host.Cell} (h : memWf m = true) (lo hi : Nat) : memWf (memClear m lo hi) = true := by
  rw [memWf_iff] at h ⊢
  exact ⟨risingFrom_filter _ h.1, fun c hc => h.2 c (List.mem_filter.1 hc).1⟩

theorem memWf_reset : memWf State.reset.mem = true := rfl

/-! Reading after writing. -/

/-- A byte reads as what was written to it. -/
@[simp] theorem memGet_memPut_self (m : List Host.Cell) (a : Nat) (b : Byte) : memGet (memPut m a b) a = b :=
  tget_tput_self unwritten a b m

/-- A write leaves every other byte alone. -/
@[simp] theorem memGet_memPut_ne (m : List Host.Cell) {a a' : Nat} (h : a' ≠ a) (b : Byte) :
    memGet (memPut m a b) a' = memGet m a' :=
  tget_tput_ne h unwritten b m

/-- A run of bytes written reads back. -/
theorem memGet_memPutBytes (m : List Host.Cell) (a : Nat) (bs : List Byte) (a' : Nat) :
    memGet (memPutBytes m a bs) a' = if a ≤ a' then (bs[a' - a]?).getD (memGet m a') else memGet m a' := by
  induction bs generalizing m a with
  | nil => simp [memPutBytes]
  | cons b bs ih =>
    rw [memPutBytes, ih]
    rcases Nat.lt_trichotomy a' a with h | h | h
    · rw [if_neg (by omega), if_neg (by omega), memGet_memPut_ne m (by omega)]
    · subst h
      rw [if_neg (by omega), if_pos (Nat.le_refl _), Nat.sub_self, memGet_memPut_self]; rfl
    · obtain ⟨d, rfl⟩ : ∃ d, a' = a + 1 + d := ⟨a' - (a + 1), by omega⟩
      rw [if_pos (by omega), if_pos (by omega), show a + 1 + d - a = d + 1 by omega, Nat.add_sub_cancel_left,
        List.getElem?_cons_succ, memGet_memPut_ne m (by omega)]

theorem memGet_memPutBytes_out (m : List Host.Cell) (a : Nat) (bs : List Byte) (a' : Nat)
    (h : a' < a ∨ a + bs.length ≤ a') : memGet (memPutBytes m a bs) a' = memGet m a' := by
  rw [memGet_memPutBytes]
  split
  · rw [List.getElem?_eq_none (by omega)]; rfl
  · rfl

theorem tget?_filter_true {α : Type} (p : Nat × α → Bool) (k : Nat) (t : Tbl α) (h : ∀ a, p (k, a) = true) :
    tget? k (t.filter p) = tget? k t := by
  induction t with
  | nil => rfl
  | cons e t ih =>
    obtain ⟨j, a⟩ := e
    rw [List.filter_cons]
    split
    · simp [tget?, ih]
    · next hn =>
      have hj : j ≠ k := fun e => hn (e ▸ h a)
      simp [tget?, hj, ih]

theorem tget?_filter_false {α : Type} (p : Nat × α → Bool) (k : Nat) (t : Tbl α) (h : ∀ a, p (k, a) = false) :
    tget? k (t.filter p) = none := by
  induction t with
  | nil => rfl
  | cons e t ih =>
    obtain ⟨j, a⟩ := e
    rw [List.filter_cons]
    split
    · next hp =>
      have hj : j ≠ k := fun e => by subst e; rw [h a] at hp; cases hp
      simp [tget?, hj, ih]
    · exact ih

/-- A cleared run reads as unwritten, and every other byte as before. -/
theorem memGet_memClear (m : List Host.Cell) (lo hi a : Nat) :
    memGet (memClear m lo hi) a = if lo ≤ a ∧ a < hi then unwritten else memGet m a := by
  unfold memGet memClear tget
  split
  · next h => rw [tget?_filter_false _ a m (fun _ => by simp; omega)]; rfl
  · next h => rw [tget?_filter_true _ a m (fun _ => by simp; omega)]

/-! The state's operations over memory. -/

@[simp] theorem State.setByte_mem (s : State) (a : Nat) (b : Byte) : (s.setByte a b).mem = memPut s.mem a b := rfl
@[simp] theorem State.setBytes_mem (s : State) (a : Nat) (bs : List Byte) :
    (s.setBytes a bs).mem = memPutBytes s.mem a bs := rfl
@[simp] theorem State.zeroRange_mem (s : State) (lo hi : Nat) : (s.zeroRange lo hi).mem = memClear s.mem lo hi := rfl

@[simp] theorem State.byte_setByte_self (s : State) (a : Nat) (b : Byte) : (s.setByte a b).byte a = b :=
  memGet_memPut_self s.mem a b

theorem State.byte_setByte_ne (s : State) {a a' : Nat} (h : a' ≠ a) (b : Byte) : (s.setByte a b).byte a' = s.byte a' :=
  memGet_memPut_ne s.mem h b

theorem State.byte_setBytes_out (s : State) (a : Nat) (bs : List Byte) (a' : Nat)
    (h : a' < a ∨ a + bs.length ≤ a') : (s.setBytes a bs).byte a' = s.byte a' :=
  memGet_memPutBytes_out s.mem a bs a' h

/-- A fold whose every step keeps a property of the state keeps it. -/
theorem foldl_keeps {σ α : Type} (P : σ → Prop) (f : σ → α → σ) (hf : ∀ s a, P s → P (f s a)) (l : List α) (s : σ)
    (h : P s) : P (l.foldl f s) := by
  induction l generalizing s with
  | nil => exact h
  | cons a l ih => exact ih _ (hf s a h)

/-- Poison marks leave memory as it is. -/
theorem foldl_mem_eq {α : Type} (f : State → α → State) (hf : ∀ s a, (f s a).mem = s.mem) (l : List α) (s : State) :
    (l.foldl f s).mem = s.mem :=
  foldl_keeps (fun t => t.mem = s.mem) f (fun t a h => (hf t a).trans h) l s rfl

@[simp] theorem State.store_mem (s : State) (a : Nat) (bs : List Byte) (p : Bool) :
    (s.store a bs p).mem = memPutBytes s.mem a bs := by
  unfold State.store
  rw [foldl_mem_eq]
  · rfl
  · intro t g; split
    · rfl
    · split <;> rfl

theorem memWf_store {s : State} (h : memWf s.mem = true) (a : Nat) (bs : List Byte) (p : Bool) :
    memWf (s.store a bs p).mem = true := by
  rw [State.store_mem]; exact memWf_memPutBytes h a bs

theorem memWf_zeroRange {s : State} (h : memWf s.mem = true) (lo hi : Nat) : memWf (s.zeroRange lo hi).mem = true :=
  memWf_memClear h lo hi

/-- One encrypted byte written. -/
theorem memWf_writeKeyed {s : State} (h : memWf s.mem = true) (key a : Nat) (b : Byte) :
    memWf (s.writeKeyed key a b).mem = true := by
  unfold State.writeKeyed
  split
  · rw [State.setByte_mem]; exact memWf_memPut h a b
  · rw [State.setBytes_mem]; exact memWf_memPutBytes h _ _

/-- Bytes put under a key id. -/
theorem memWf_putKeyed {s : State} (h : memWf s.mem = true) (key phys : Nat) (bs : List Byte) :
    memWf (s.putKeyed key phys bs).mem = true := by
  unfold State.putKeyed
  split
  · exact memWf_memPutBytes h phys bs
  · exact foldl_keeps (fun t : State => memWf t.mem = true) _ (fun t _ ht => memWf_writeKeyed ht _ _ _) _ _ h

/-- A write that a link accepts. -/
theorem memWf_sendWrite {s : State} (h : memWf s.mem = true) (w : HostWrite) : memWf (s.sendWrite w).mem = true :=
  memWf_putKeyed h w.key w.phys w.bytes

/-- The oldest writes of a link accepted. -/
theorem memWf_sendWrites {s : State} (h : memWf s.mem = true) (link n : Nat) : memWf (s.sendWrites link n).mem = true := by
  unfold State.sendWrites
  split
  · exact h
  · exact foldl_keeps (fun t : State => memWf t.mem = true) _ (fun t w ht => memWf_sendWrite ht w) _ _ h

/-- Every waiting write accepted. -/
theorem memWf_flushWrites {s : State} (h : memWf s.mem = true) : memWf s.flushWrites.mem = true :=
  foldl_keeps (fun t : State => memWf t.mem = true) _ (fun _ _ ht => memWf_sendWrites ht _ _) _ _ h

/-- One access's bytes written. -/
theorem memWf_writeRun {s : State} (h : memWf s.mem = true) (who : Option Nat) (key phys : Nat) (bs : List Byte) (p : Bool) :
    memWf (s.writeRun who key phys bs p).mem = true := by
  have hput := memWf_putKeyed h key phys bs
  unfold State.writeRun
  split
  · exact h
  · dsimp only
    split
    · rw [foldl_mem_eq (fun (s : State) g => s.setPoison g true) (fun _ _ => rfl)]; exact hput
    · exact hput

/-- A write accepted at once. -/
theorem memWf_writeNow {s : State} (h : memWf s.mem = true) (who : Option Nat) (key phys : Nat) (bs : List Byte) (p : Bool) :
    memWf (s.writeNow who key phys bs p).mem = true := memWf_flushWrites (memWf_writeRun h who key phys bs p)

/-- Buffered stores that a selection names drained. -/
theorem memWf_drainBytes {s : State} (h : memWf s.mem = true) (key : Nat) (sel : BufByte → Bool) :
    memWf (s.drainBytes key sel).mem = true := by
  unfold State.drainBytes
  split
  · exact h
  · refine foldl_keeps (fun t : State => memWf t.mem = true) _ (fun t r ht => ?_) _ _ h
    split
    · exact ht
    · exact memWf_writeRun ht _ _ _ _ _

/-- Buffered stores of lanes drained. -/
theorem memWf_drain {s : State} (h : memWf s.mem = true) (key lanes : Nat) : memWf (s.drain key lanes).mem = true :=
  memWf_drainBytes h key _

/-- Buffered stores drained that a load is ordered after. -/
theorem memWf_drainBehind {s : State} (h : memWf s.mem = true) (key : Nat) (xs : List (Nat × Option Nat)) :
    memWf (s.drainBehind key xs).mem = true :=
  foldl_keeps (fun t : State => memWf t.mem = true) _ (fun _ _ ht => memWf_drainBytes ht _ _) _ _ h

/-- Firmware's placing of a program keeps the form. -/
theorem memWf_placeWord {s : State} (h : memWf s.mem = true) (bs : List Byte) : memWf (s.placeWord bs).mem = true :=
  memWf_memPutBytes h _ bs

end Sys2Proof.Machine
end

