-- ==== Sys2Proof/Laws/PerInstr.lean ====
section
/-! SUPPORT. For every instruction: a well-formed instruction has a word of 96 bits, and the decoder reads it back, header,
operands and all. -/

/-- A well-formed instruction under a well-formed header has a word, which decodes to both. A step that is no program
instruction has no word, and is not well formed. -/
def Sys2Proof.Laws.RoundTrip.Statement (i : Sys2Proof.Instr) : Prop :=
  ∀ h : Sys2Proof.Header, h.wf = true → Sys2Proof.wf i = true → Sys2Proof.guardOk h i = true →
    ∃ w, Sys2Proof.encode h i = some w ∧ w < 2 ^ 96 ∧ Sys2Proof.decodeWord w = .ok (h, i)

namespace Sys2Proof

open Sys2Proof.Laws.RoundTrip (Statement)

/-! The two forms of classes 000 and 001. -/

theorem rnd2_T {r : Raw} (h : immForm r = false) : rnd2 r = rndT r := by simp [rnd2, h]
theorem rnd2_I {r : Raw} (h : immForm r = true) : rnd2 r = Rnd.ofCode (bits r.body 5 3) := by simp [rnd2, h]
theorem rnd3_T {r : Raw} (h : immForm r = false) : rnd3 r = rndT r := by simp [rnd3, h]
theorem rnd3_I {r : Raw} (h : immForm r = true) : rnd3 r = Rnd.ofCode (r.sub % 8) := by simp [rnd3, h]
theorem par2_T {r : Raw} (h : immForm r = false) (f : Ty → Flags → Opnd → Opnd → Opnd → Instr) :
    par2 r f = f r.ty r.fl r.d r.a r.b := by simp [par2, h]
theorem par2_I {r : Raw} (h : immForm r = true) (f : Ty → Flags → Opnd → Opnd → Opnd → Instr) :
    par2 r f = f r.ty ⟨false, false, false, false, bit r.body 0⟩ r.d r.a (imm32 r) := by simp [par2, h]
theorem par1_T {r : Raw} (h : immForm r = false) (f : Ty → Flags → Opnd → Opnd → Instr) :
    par1 r f = f r.ty r.fl r.d r.a := by simp [par1, h]
theorem par1_I {r : Raw} (h : immForm r = true) (f : Ty → Flags → Opnd → Opnd → Instr) :
    par1 r f = f r.ty ⟨false, false, false, false, bit r.body 0⟩ r.d (imm32 r) := by simp [par1, h]
theorem par3_T {r : Raw} (h : immForm r = false) (f : Ty → Flags → Opnd → Opnd → Opnd → Opnd → Instr) :
    par3 r f = f r.ty r.fl r.d r.a r.b r.c := by simp [par3, h]
theorem par3_I {r : Raw} (h : immForm r = true) (f : Ty → Flags → Opnd → Opnd → Opnd → Opnd → Instr) :
    par3 r f = f r.ty ⟨false, bit r.body 7, false, false, false⟩ r.d r.a (.x (bits r.body 0 7)) (imm32 r) := by
  simp [par3, h]

/-! One lemma for each body. -/

theorem rtT {i : Instr} {opc sub : Nat} {ty : Ty} {d a b c : Opnd} {rnd : Nat} {fl : Flags} {xsub : Nat}
    (he : encFields i = some ⟨opc, ty.code, sub, false, bodyT d a b c rnd fl xsub⟩) (ho : opc < 2 ^ 10)
    (hok : wf i = true → sub < 16 ∧ OpOk d ∧ OpOk a ∧ OpOk b ∧ OpOk c ∧ rnd < 8 ∧ xsub < 256)
    (hp : ∀ r : Raw, r.ty = ty → r.sub = sub → ReadsT r d a b c rnd fl xsub → parse opc r = some i) : Statement i := by
  intro h hh hw hg
  obtain ⟨h1, h2, h3, h4, h5, h6, h7⟩ := hok hw
  exact decodeWord_of hh hw hg he ho rfl h1 (bodyT_lt fl h2 h3 h4 h5 h6 h7)
    (hp _ rfl rfl (readsT rfl h2 h3 h4 h5 h6 h7))

theorem within_sat {fl : Flags} {s : Bool} (h : fl.within false false false false s = true) :
    (⟨false, false, false, false, fl.sat⟩ : Flags) = fl := by
  obtain ⟨a, b, c, d, e⟩ := fl
  simp [Flags.within] at h ⊢
  simp [h]

theorem within_negB {fl : Flags} {s : Bool} (h : fl.within false s false false false = true) :
    (⟨false, fl.negB, false, false, false⟩ : Flags) = fl := by
  obtain ⟨a, b, c, d, e⟩ := fl
  simp [Flags.within] at h ⊢
  simp [h]

/-- The operands of a two-source instruction of classes 000 and 001. -/
def Ok2 (d a b : Opnd) (fl : Flags) : Prop :=
  OpOk d ∧ OpOk a ∧ (OpOk b ∨ b.isImm = true) ∧ (b.isImm = true → (⟨false, false, false, false, fl.sat⟩ : Flags) = fl)

theorem ok2_none {d a b : Opnd} (hd : OpOk d) (ha : OpOk a) (hb : OpOk b ∨ b.isImm = true) :
    Ok2 d a b Flags.none := ⟨hd, ha, hb, fun _ => rfl⟩

theorem rt2 {i : Instr} {opc sub : Nat} {ty : Ty} {d a b : Opnd} {rnd : Nat} {fl : Flags}
    (he : encFields i = some (enc2 opc ty sub d a b rnd fl)) (ho : opc < 2 ^ 10) (hr : rnd < 8)
    (hok : wf i = true → sub < 8 ∧ Ok2 d a b fl)
    (hp : ∀ r : Raw, r.sub % 8 = sub → rnd2 r = Rnd.ofCode rnd → (∀ f, par2 r f = f ty fl d a b) → parse opc r = some i) :
    Statement i := by
  intro h hh hw hg
  obtain ⟨h1, h2, h3, h4, h5⟩ := hok hw
  have hac := code_lt h3
  rcases isImm_cases b with hb | ⟨v, rfl⟩
  · have hbo : OpOk b := h4.resolve_right (by simp [hb])
    have he' : enc2 opc ty sub d a b rnd fl = ⟨opc, ty.code, sub, false, bodyT d a b .zero rnd fl 0⟩ := by
      unfold enc2; split
      · simp [Opnd.isImm] at hb
      · rfl
    rw [he'] at he
    have hrd := readsT (r := ⟨ty, sub, false, bodyT d a b .zero rnd fl 0⟩) rfl h2 h3 hbo opOk_zero hr (by decide)
    have him : immForm ⟨ty, sub, false, bodyT d a b .zero rnd fl 0⟩ = false := by simp [immForm]; omega
    refine decodeWord_of hh hw hg he ho rfl (show sub < 2 ^ 4 by omega) (bodyT_lt fl h2 h3 hbo opOk_zero hr (by decide))
      (hp _ (Nat.mod_eq_of_lt h1) ?_ fun f => ?_)
    · exact (rnd2_T him).trans hrd.rnd
    · rw [par2_T him, hrd.fl, hrd.d, hrd.a, hrd.b]
  · have he' : enc2 opc ty sub d a (.imm v) rnd fl = ⟨opc, ty.code, 8 + sub, false, bodyI d a.code v rnd fl.sat⟩ := rfl
    rw [he'] at he
    have hrd := readsI (r := ⟨ty, 8 + sub, false, bodyI d a.code v rnd fl.sat⟩) rfl h2 hac hr
    have him : immForm ⟨ty, 8 + sub, false, bodyI d a.code v rnd fl.sat⟩ = true := by simp [immForm]
    refine decodeWord_of hh hw hg he ho rfl (show 8 + sub < 2 ^ 4 by omega) (bodyI_lt v fl.sat h2 hac hr)
      (hp _ (show (8 + sub) % 8 = sub by omega) ?_ fun f => ?_)
    · exact (rnd2_I him).trans hrd.rnd
    · rw [par2_I him, hrd.d, hrd.a, hrd.imm, hrd.sat, h3, h5 rfl]

theorem rt1 {i : Instr} {opc : Nat} {ty : Ty} {d a : Opnd} {rnd : Nat} {fl : Flags}
    (he : encFields i = some (enc1 opc ty d a rnd fl)) (ho : opc < 2 ^ 10) (hr : rnd < 8)
    (hok : wf i = true → Ok2 d .zero a fl)
    (hp : ∀ r : Raw, rnd2 r = Rnd.ofCode rnd → (∀ f, par1 r f = f ty fl d a) → parse opc r = some i) :
    Statement i := by
  intro h hh hw hg
  obtain ⟨h2, _, h4, h5⟩ := hok hw
  rcases isImm_cases a with hb | ⟨v, rfl⟩
  · have hbo : OpOk a := h4.resolve_right (by simp [hb])
    have he' : enc1 opc ty d a rnd fl = ⟨opc, ty.code, 0, false, bodyT d a .zero .zero rnd fl 0⟩ := by
      unfold enc1; split
      · simp [Opnd.isImm] at hb
      · rfl
    rw [he'] at he
    have hrd := readsT (r := ⟨ty, 0, false, bodyT d a .zero .zero rnd fl 0⟩) rfl h2 hbo opOk_zero opOk_zero hr (by decide)
    have him : immForm ⟨ty, 0, false, bodyT d a .zero .zero rnd fl 0⟩ = false := by simp [immForm]
    refine decodeWord_of hh hw hg he ho rfl (show 0 < 2 ^ 4 by decide)
      (bodyT_lt fl h2 hbo opOk_zero opOk_zero hr (by decide)) (hp _ ?_ fun f => ?_)
    · exact (rnd2_T him).trans hrd.rnd
    · rw [par1_T him, hrd.fl, hrd.d, hrd.a]
  · have he' : enc1 opc ty d (.imm v) rnd fl = ⟨opc, ty.code, 8, false, bodyI d 0xC00 v rnd fl.sat⟩ := rfl
    rw [he'] at he
    have hrd := readsI (r := ⟨ty, 8, false, bodyI d 0xC00 v rnd fl.sat⟩) rfl h2 (by decide) hr
    have him : immForm ⟨ty, 8, false, bodyI d 0xC00 v rnd fl.sat⟩ = true := by simp [immForm]
    refine decodeWord_of hh hw hg he ho rfl (show 8 < 2 ^ 4 by decide) (bodyI_lt v fl.sat h2 (by decide) hr)
      (hp _ ?_ fun f => ?_)
    · exact (rnd2_I him).trans hrd.rnd
    · rw [par1_I him, hrd.d, hrd.imm, hrd.sat, h5 rfl]

/-- The operands of a three-source instruction: B is in x0 to x127 beside an immediate C (R345). -/
def Ok3 (d a b c : Opnd) (fl : Flags) : Prop :=
  OpOk d ∧ OpOk a ∧ ((OpOk b ∧ OpOk c) ∨
    c.isImm = true ∧ (∃ k, b = .x k ∧ k < 128) ∧ (⟨false, fl.negB, false, false, false⟩ : Flags) = fl)

theorem rt3 {i : Instr} {opc : Nat} {ty : Ty} {d a b c : Opnd} {rnd : Nat} {fl : Flags}
    (he : encFields i = some (enc3 opc ty d a b c rnd fl)) (ho : opc < 2 ^ 10) (hr : rnd < 4)
    (hok : wf i = true → Ok3 d a b c fl)
    (hp : ∀ r : Raw, rnd3 r = Rnd.ofCode rnd → (∀ f, par3 r f = f ty fl d a b c) → parse opc r = some i) :
    Statement i := by
  intro h hh hw hg
  obtain ⟨h2, h3, h4⟩ := hok hw
  rcases h4 with ⟨hbo, hco⟩ | ⟨hc, ⟨k, rfl, hk⟩, hfl⟩
  · have hb := not_imm hco
    have he' : enc3 opc ty d a b c rnd fl = ⟨opc, ty.code, 0, false, bodyT d a b c rnd fl 0⟩ := by
      unfold enc3; split
      · simp [Opnd.isImm] at hb
      · rfl
    rw [he'] at he
    have hrd := readsT (r := ⟨ty, 0, false, bodyT d a b c rnd fl 0⟩) rfl h2 h3 hbo hco (by omega) (by decide)
    have him : immForm ⟨ty, 0, false, bodyT d a b c rnd fl 0⟩ = false := by simp [immForm]
    refine decodeWord_of hh hw hg he ho rfl (show 0 < 2 ^ 4 by decide)
      (bodyT_lt fl h2 h3 hbo hco (by omega) (by decide)) (hp _ ?_ fun f => ?_)
    · exact (rnd3_T him).trans hrd.rnd
    · rw [par3_T him, hrd.fl, hrd.d, hrd.a, hrd.b, hrd.c]
  · rcases isImm_cases c with hb | ⟨v, rfl⟩
    · simp [hb] at hc
    have he' : enc3 opc ty d a (.x k) (.imm v) rnd fl = ⟨opc, ty.code, 8 + rnd, false, bodyTI d a (.x k) v fl.negB⟩ := rfl
    rw [he'] at he
    have hrd := readsTI (r := ⟨ty, 8 + rnd, false, bodyTI d a (.x k) v fl.negB⟩) rfl h2 h3 hk
    have him : immForm ⟨ty, 8 + rnd, false, bodyTI d a (.x k) v fl.negB⟩ = true := by simp [immForm]
    refine decodeWord_of hh hw hg he ho rfl (show 8 + rnd < 2 ^ 4 by omega) (bodyTI_lt _ v fl.negB h2 h3)
      (hp _ ?_ fun f => ?_)
    · exact (rnd3_I him).trans <| congrArg Rnd.ofCode (show (8 + rnd) % 8 = rnd by omega)
    · rw [par3_I him, hrd.d, hrd.a, hrd.b, hrd.imm, hrd.negB, hfl]

theorem rtM {i : Instr} {opc sub : Nat} {ty : Ty} {d a b : Opnd} {off : BitVec 20} {scope cache mflags : Nat}
    (he : encFields i = some (encM opc ty.code sub d a b off scope cache mflags)) (ho : opc < 2 ^ 10)
    (hok : wf i = true → sub < 16 ∧ OpOk d ∧ OpOk a ∧ OpOk b ∧ scope < 8 ∧ cache < 8 ∧ mflags < 4)
    (hp : ∀ r : Raw, r.ty = ty → r.sub = sub → ReadsM r d a b off scope cache mflags → parse opc r = some i) :
    Statement i := by
  intro h hh hw hg
  obtain ⟨h1, h2, h3, h4, h5, h6, h7⟩ := hok hw
  exact decodeWord_of hh hw hg he ho rfl h1 (bodyM_lt off h2 h3 h4 h5 h6 h7)
    (hp _ rfl rfl (readsM rfl h2 h3 h4 h5 h6 h7))

theorem rtC {i : Instr} {opc : Nat} {off : Word} {a b : Opnd} {cflags : Nat}
    (he : encFields i = some (encC opc off a b cflags)) (ho : opc < 2 ^ 10)
    (hok : wf i = true → OpOk a ∧ OpOk b ∧ cflags < 256)
    (hp : ∀ r : Raw, ReadsC r off a b cflags → parse opc r = some i) : Statement i := by
  intro h hh hw hg
  obtain ⟨h1, h2, h3⟩ := hok hw
  exact decodeWord_of (ty := .i32) hh hw hg he ho rfl (show 0 < 2 ^ 4 by decide) (bodyC_lt off h1 h2 h3)
    (hp _ (readsC rfl h1 h2 h3))

theorem rtE {i : Instr} {opc sub : Nat} {ty : Ty} {ru : Bool} {d a b : Opnd} {imm : Nat}
    (he : encFields i = some ⟨opc, ty.code, sub, ru, bodyE d a b imm⟩) (ho : opc < 2 ^ 10)
    (hok : wf i = true → sub < 16 ∧ OpOk d ∧ OpE a ∧ OpE b ∧ imm < 2 ^ 28)
    (hp : ∀ r : Raw, wf i = true → r.ty = ty → r.sub = sub → r.ru = ru → ReadsE r d a b imm → parse opc r = some i) :
    Statement i := by
  intro h hh hw hg
  obtain ⟨h1, h2, h3, h4, h5⟩ := hok hw
  exact decodeWord_of hh hw hg he ho rfl h1 (bodyE_lt h2 h3 h4 h5)
    (hp _ hw rfl rfl rfl (readsE rfl h2 h3 h4 h5))

theorem rtR {i : Instr} {opc : Nat} {m : Masks} (he : encFields i = some ⟨opc, 0, 0, false, bodyR m⟩)
    (ho : opc < 2 ^ 10) (hp : ∀ r : Raw, masksOf r = m → parse opc r = some i) : Statement i := by
  intro h hh hw hg
  exact decodeWord_of (ty := .i32) hh hw hg he ho rfl (show 0 < 2 ^ 4 by decide) (bodyR_lt m) (hp _ (masksOf_eq rfl))

/-- A step that is no program instruction. -/
theorem rtNone {i : Instr} (h : wf i = false) : Statement i := fun _ _ hw => by rw [h] at hw; cases hw

/-! Operands of the shared well-formedness checks. -/

theorem ok2_int2 {ty : Ty} {fl : Flags} {neg sat : Bool} {d a b : Opnd} (h : wfInt2 ty fl neg sat d a b = true) :
    0 < 8 ∧ Ok2 d a b fl := by
  simp only [wfInt2, Bool.and_eq_true, and_assoc] at h
  obtain ⟨_, h1, h2, h3, h4⟩ := h
  refine ⟨by decide, opOk_dstS (regs_pos _) h1, opOk_srcS (regs_pos _) h2, opOk_srcI (regs_pos _) h3, fun hi => ?_⟩
  rw [if_pos hi] at h4
  exact within_sat h4

theorem ok2_bits2 {ty : Ty} {nb : Nat} {d a b : Opnd} (hn : 0 < nb) (h : wfBits2 ty nb d a b = true) :
    0 < 8 ∧ Ok2 d a b Flags.none := by
  simp only [wfBits2, Bool.and_eq_true, and_assoc] at h
  obtain ⟨_, h1, h2, h3⟩ := h
  exact ⟨by decide, ok2_none (opOk_dstS (regs_pos _) h1) (opOk_srcS (regs_pos _) h2) (opOk_srcI hn h3)⟩

theorem ok2_fp2 {ty : Ty} {fl : Flags} {ok sat : Bool} {d a b : Opnd} (h : wfFp2 ok ty fl sat d a b = true) :
    0 < 8 ∧ Ok2 d a b fl := by
  simp only [wfFp2, Bool.and_eq_true, and_assoc] at h
  obtain ⟨_, h1, h2, h3, h4⟩ := h
  refine ⟨by decide, opOk_dstS (regs_pos _) h1, opOk_srcS (regs_pos _) h2, opOk_srcI (regs_pos _) h3, fun hi => ?_⟩
  rw [if_pos hi] at h4
  exact within_sat h4

theorem ok2_fp1 {ty : Ty} {fl : Flags} {ok sat : Bool} {d a : Opnd} (h : wfFp1 ok ty fl sat d a = true) :
    Ok2 d .zero a fl := by
  simp only [wfFp1, Bool.and_eq_true, and_assoc] at h
  obtain ⟨_, h1, h2, h3⟩ := h
  refine ⟨opOk_dstS (regs_pos _) h1, opOk_zero, opOk_srcI (regs_pos _) h2, fun hi => ?_⟩
  rw [if_pos hi] at h3
  exact within_sat h3

theorem ok_iv {ty : Ty} {d : Opnd} {l : List Opnd} (h : wfIv ty d l = true) : OpOk d ∧ ∀ o ∈ l, OpOk o := by
  simp only [wfIv, Bool.and_eq_true, List.all_eq_true, and_assoc] at h
  exact ⟨opOk_range (regs_pos _) h.2.1, fun o ho => opOk_ivSrc (regs_pos _) (h.2.2 o ho)⟩

theorem ok_mem {ty : Ty} {sw : SubWord} {data base : Bool} {idx : Opnd} (h : wfMem ty sw data base idx = true) :
    data = true ∧ base = true ∧ OpOk idx := by
  simp only [wfMem, Bool.and_eq_true, and_assoc] at h
  exact ⟨h.2.2.1, h.2.2.2.1, opOk_reg32z h.2.2.2.2⟩

theorem opE_zero : OpE .zero := .inl opOk_zero

theorem opE_z28 {o : Opnd} (h : (o.reg32z || o.isImm28) = true) : OpE o := by
  simp only [Bool.or_eq_true] at h
  exact h.imp_left opOk_reg32z

theorem opE_r28 {o : Opnd} (h : (o.reg32 || o.isImm28) = true) : OpE o := by
  simp only [Bool.or_eq_true] at h
  exact h.imp_left opOk_reg32

/-- An operand of an E body that holds the immediate, or no immediate at all. -/
theorem readsE_immB {r : Raw} {d a b : Opnd} (h : ReadsE r d a b b.immE) (hb : OpE b) : immOr r r.b 28 = b :=
  immOr_eq hb h.cB (fun _ => h.imm) rfl

theorem readsE_immA {r : Raw} {d a b : Opnd} (h : ReadsE r d a b a.immE) (ha : OpE a) : immOr r r.a 40 = a :=
  immOr_eq ha h.cA (fun _ => h.imm) rfl

theorem ok_mma {ty : Ty} {d a : Opnd} (h : wfMmaTy ty d a = true) : OpOk d ∧ OpOk a := by
  cases ty <;> simp only [wfMmaTy, Bool.and_eq_true] at h <;>
    first | exact ⟨opOk_rangeX (by decide) h.1, opOk_rangeX (by decide) h.2⟩ | cases h

theorem ok_ccnt {ty : Ty} {d : Opnd} (h : wf (.ccnt ty d) = true) : OpOk d := by
  simp only [wf, Bool.or_eq_true, Bool.and_eq_true] at h
  rcases h with h | h
  · exact opOk_rangeX (by decide) h.2
  · exact opOk_reg32 h.2

theorem ok_rand {ty : Ty} {d : Opnd} (h : wf (.rand ty d) = true) : OpOk d := by
  simp only [wf, Bool.or_eq_true, Bool.and_eq_true] at h
  rcases h with h | h
  · exact opOk_range (by decide) h.2
  · exact opOk_reg32 h.2

theorem ok_psnt {ty : Ty} {d a : Opnd} (h : wf (.psnt ty d a) = true) : OpOk d ∧ OpOk a := by
  simp only [wf, Bool.or_eq_true, Bool.and_eq_true] at h
  rcases h with ⟨h1, h2 | h2⟩
  · exact ⟨opOk_pdst h1, opOk_reg32 h2.2⟩
  · exact ⟨opOk_pdst h1, opOk_range (by decide) h2.2⟩

theorem ok_psntClr {ty : Ty} {d a : Opnd} (h : wf (.psntClr ty d a) = true) : OpOk d ∧ OpOk a := by
  simp only [wf, Bool.or_eq_true, Bool.and_eq_true, and_assoc] at h
  rcases h with h | h
  · exact ⟨opOk_reg32 h.2.1, opOk_reg32 h.2.2⟩
  · exact ⟨opOk_range (by decide) h.2.1, opOk_range (by decide) h.2.2⟩

theorem opE_sel {o : Opnd} (h : wfSelector o = true) : OpE o := by
  cases o <;> first
    | exact .inl (opOk_reg32 h)
    | exact .inr (by simp only [wfSelector, Bool.and_eq_true] at h; exact h.1)

/-- A selector that names none of the rows from 0x100 to 0x108 at once. -/
theorem parSyswr_sel {d a b : Opnd} (h : wfSelector a = true) : parSyswr d a b = .syswrGctl d a b := by
  cases a <;> try rfl
  next v =>
    simp only [wfSelector, Bool.and_eq_true, Bool.not_eq_true', Bool.and_eq_false_iff, decide_eq_true_eq,
      decide_eq_false_iff_not] at h
    have h2 := h.2
    unfold parSyswr
    dsimp only
    split <;> first | rfl | (exfalso; omega)

end Sys2Proof

namespace Sys2Proof.Laws.RoundTrip

open Sys2Proof

set_option linter.unusedSimpArgs false
set_option linter.unusedVariables false
set_option Elab.async false

theorem iadd (ty : Ty) (fl : Flags) (d a b : Opnd) : Statement (.iadd ty fl d a b) :=
  rt2 rfl (by decide) (by decide) (fun hw => ok2_int2 hw) fun r hs hr hf => by simp [parse, parse000, hf]

theorem isub (ty : Ty) (fl : Flags) (d a b : Opnd) : Statement (.isub ty fl d a b) :=
  rt2 rfl (by decide) (by decide) (fun hw => ok2_int2 hw) fun r hs hr hf => by simp [parse, parse000, hf]

theorem imul (ty : Ty) (fl : Flags) (d a b : Opnd) : Statement (.imul ty fl d a b) :=
  rt2 rfl (by decide) (by decide) (fun hw => ok2_int2 hw) fun r hs hr hf => by simp [parse, parse000, hf]

theorem imulh (ty : Ty) (fl : Flags) (d a b : Opnd) : Statement (.imulh ty fl d a b) :=
  rt2 rfl (by decide) (by decide) (fun hw => ok2_int2 hw) fun r hs hr hf => by simp [parse, parse000, hf]

theorem imin (ty : Ty) (fl : Flags) (d a b : Opnd) : Statement (.imin ty fl d a b) :=
  rt2 rfl (by decide) (by decide) (fun hw => ok2_int2 hw) fun r hs hr hf => by simp [parse, parse000, hf]

theorem imax (ty : Ty) (fl : Flags) (d a b : Opnd) : Statement (.imax ty fl d a b) :=
  rt2 rfl (by decide) (by decide) (fun hw => ok2_int2 hw) fun r hs hr hf => by simp [parse, parse000, hf]

theorem and (ty : Ty) (d a b : Opnd) : Statement (.and ty d a b) :=
  rt2 rfl (by decide) (by decide) (fun hw => ok2_bits2 (regs_pos _) hw) fun r hs hr hf => by simp [parse, parse000, hf]

theorem or (ty : Ty) (d a b : Opnd) : Statement (.or ty d a b) :=
  rt2 rfl (by decide) (by decide) (fun hw => ok2_bits2 (regs_pos _) hw) fun r hs hr hf => by simp [parse, parse000, hf]

theorem xor (ty : Ty) (d a b : Opnd) : Statement (.xor ty d a b) :=
  rt2 rfl (by decide) (by decide) (fun hw => ok2_bits2 (regs_pos _) hw) fun r hs hr hf => by simp [parse, parse000, hf]

theorem andn (ty : Ty) (d a b : Opnd) : Statement (.andn ty d a b) :=
  rt2 rfl (by decide) (by decide) (fun hw => ok2_bits2 (regs_pos _) hw) fun r hs hr hf => by simp [parse, parse000, hf]

theorem shl (ty : Ty) (d a b : Opnd) : Statement (.shl ty d a b) :=
  rt2 rfl (by decide) (by decide) (fun hw => ok2_bits2 (by decide) hw) fun r hs hr hf => by simp [parse, parse000, hf]

theorem shr (ty : Ty) (d a b : Opnd) : Statement (.shr ty d a b) :=
  rt2 rfl (by decide) (by decide) (fun hw => ok2_bits2 (by decide) hw) fun r hs hr hf => by simp [parse, parse000, hf]

theorem sar (ty : Ty) (d a b : Opnd) : Statement (.sar ty d a b) :=
  rt2 rfl (by decide) (by decide) (fun hw => ok2_bits2 (by decide) hw) fun r hs hr hf => by simp [parse, parse000, hf]

theorem rol (ty : Ty) (d a b : Opnd) : Statement (.rol ty d a b) :=
  rt2 rfl (by decide) (by decide) (fun hw => ok2_bits2 (by decide) hw) fun r hs hr hf => by simp [parse, parse000, hf]

theorem iabs (ty : Ty) (sat : Bool) (d a : Opnd) : Statement (.iabs ty sat d a) :=
  rtT rfl (by decide) (fun hw => by
    simp only [wf, Bool.and_eq_true, and_assoc] at hw
    obtain ⟨_, h1, h2⟩ := hw
    exact ⟨by decide, opOk_dstS (regs_pos _) h1, opOk_srcS (regs_pos _) h2, opOk_zero, opOk_zero, by decide, by decide⟩)
  fun r ht hs hr => by simp [parse, parse000, ht, hs, hr.d, hr.a, hr.b, hr.c, hr.fl, hr.rnd, hr.xsub]

theorem popc (ty : Ty) (d a : Opnd) : Statement (.popc ty d a) :=
  rtT rfl (by decide) (fun hw => by
    simp only [wf, Bool.and_eq_true, and_assoc] at hw
    obtain ⟨_, h1, h2⟩ := hw
    exact ⟨by decide, opOk_dstS (by decide) h1, opOk_srcS (regs_pos _) h2, opOk_zero, opOk_zero, by decide, by decide⟩)
  fun r ht hs hr => by simp [parse, parse000, ht, hs, hr.d, hr.a, hr.b, hr.c, hr.fl, hr.rnd, hr.xsub]

theorem clz (ty : Ty) (d a : Opnd) : Statement (.clz ty d a) :=
  rtT rfl (by decide) (fun hw => by
    simp only [wf, Bool.and_eq_true, and_assoc] at hw
    obtain ⟨_, h1, h2⟩ := hw
    exact ⟨by decide, opOk_dstS (by decide) h1, opOk_srcS (regs_pos _) h2, opOk_zero, opOk_zero, by decide, by decide⟩)
  fun r ht hs hr => by simp [parse, parse000, ht, hs, hr.d, hr.a, hr.b, hr.c, hr.fl, hr.rnd, hr.xsub]

theorem ctz (ty : Ty) (d a : Opnd) : Statement (.ctz ty d a) :=
  rtT rfl (by decide) (fun hw => by
    simp only [wf, Bool.and_eq_true, and_assoc] at hw
    obtain ⟨_, h1, h2⟩ := hw
    exact ⟨by decide, opOk_dstS (by decide) h1, opOk_srcS (regs_pos _) h2, opOk_zero, opOk_zero, by decide, by decide⟩)
  fun r ht hs hr => by simp [parse, parse000, ht, hs, hr.d, hr.a, hr.b, hr.c, hr.fl, hr.rnd, hr.xsub]

theorem brev (ty : Ty) (d a : Opnd) : Statement (.brev ty d a) :=
  rtT rfl (by decide) (fun hw => by
    simp only [wf, Bool.and_eq_true, and_assoc] at hw
    obtain ⟨_, h1, h2⟩ := hw
    exact ⟨by decide, opOk_dstS (regs_pos _) h1, opOk_srcS (regs_pos _) h2, opOk_zero, opOk_zero, by decide, by decide⟩)
  fun r ht hs hr => by simp [parse, parse000, ht, hs, hr.d, hr.a, hr.b, hr.c, hr.fl, hr.rnd, hr.xsub]

theorem mov (ty : Ty) (d a : Opnd) : Statement (.mov ty d a) :=
  rt1 rfl (by decide) (by decide) (fun hw => by
    simp only [wf, Bool.and_eq_true, Bool.or_eq_true, and_assoc] at hw
    rcases hw with ⟨_, h1, h2⟩ | ⟨_, h1, h2⟩
    · exact ok2_none (opOk_dstS (regs_pos _) h1) opOk_zero (opOk_srcI (regs_pos _) h2)
    · exact ok2_none (opOk_range (regs_pos _) h1) opOk_zero (.inl (opOk_range (regs_pos _) h2)))
  fun r hr hf => by simp [parse, parse000, hf]

theorem movi (ty : Ty) (d : Opnd) (v : Word) : Statement (.movi ty d v) := by
  intro h hh hw hg
  have hw' := hw
  simp only [wf, Bool.and_eq_true, and_assoc] at hw'
  have hd := opOk_dstS (regs_pos _) hw'.2
  have h1 := code_lt hd
  have h2 := v.isLt
  refine decodeWord_of (ty := ty) hh hw hg rfl (by decide : 0x1e < 2 ^ 10) rfl (by decide : 0 < 2 ^ 4)
    (show d.code * 2 ^ 52 + v.toNat * 2 ^ 20 < 2 ^ 64 by omega) ?_
  have e1 : bits (d.code * 2 ^ 52 + v.toNat * 2 ^ 20) 52 12 = d.code := by unfold bits; omega
  have e2 : bits (d.code * 2 ^ 52 + v.toNat * 2 ^ 20) 20 32 = v.toNat := by unfold bits; omega
  have hd' : Opnd.ofCode d.code = d := hd
  generalize d.code * 2 ^ 52 + v.toNat * 2 ^ 20 = n at e1 e2 ⊢
  simp [parse, parse000, Raw.d, e1, e2, hd']

theorem imad (ty : Ty) (fl : Flags) (d a b c : Opnd) : Statement (.imad ty fl d a b c) :=
  rt3 rfl (by decide) (by decide) (fun hw => by
    simp only [wf, Bool.and_eq_true, and_assoc] at hw
    obtain ⟨_, h1, h2, h3⟩ := hw
    refine ⟨opOk_dstS (regs_pos _) h1, opOk_srcS (regs_pos _) h2, ?_⟩
    rcases isImm_cases c with hc | ⟨v, rfl⟩
    · rw [hc, if_neg (by decide)] at h3
      simp only [Bool.and_eq_true, and_assoc] at h3
      exact .inl ⟨opOk_srcS (regs_pos _) h3.1, opOk_srcS (regs_pos _) h3.2.1⟩
    · rw [if_pos (show (Opnd.imm v).isImm = true from rfl)] at h3
      simp only [Bool.and_eq_true, and_assoc] at h3
      exact .inr ⟨rfl, opOk_lowX h3.1, within_negB h3.2⟩)
  fun r hr hf => by simp [parse, parse000, hf]

theorem imadw (ty : Ty) (sat : Bool) (d a b c : Opnd) : Statement (.imadw ty sat d a b c) :=
  rt3 rfl (by decide) (by decide) (fun hw => by
    simp only [wf, Bool.and_eq_true, and_assoc] at hw
    obtain ⟨_, h1, h2, h3⟩ := hw
    refine ⟨opOk_range (by decide) h1, opOk_srcS (by decide) h2, ?_⟩
    rcases isImm_cases c with hc | ⟨v, rfl⟩
    · rw [hc, if_neg (by decide)] at h3
      simp only [Bool.and_eq_true, and_assoc] at h3
      exact .inl ⟨opOk_srcS (by decide) h3.1, opOk_ivSrc (by decide) h3.2⟩
    · rw [if_pos (show (Opnd.imm v).isImm = true from rfl)] at h3
      simp only [Bool.and_eq_true, and_assoc] at h3
      exact .inr ⟨rfl, opOk_lowX h3.1, by simp at h3; simp [h3.2]⟩)
  fun r hr hf => by simp [parse, parse000, hf]

theorem lea (ty : Ty) (n : Nat) (d a b : Opnd) : Statement (.lea ty n d a b) :=
  rt2 rfl (by decide) (by decide) (fun hw => by
    simp only [wf, Bool.and_eq_true, and_assoc] at hw
    obtain ⟨_, h1, h2, h3, h4⟩ := hw
    exact ⟨by simpa using h1, ok2_none (opOk_range (by decide) h2) (opOk_range (by decide) h3) (opOk_srcI (by decide) h4)⟩)
  fun r hs hr hf => by simp [parse, parse000, hf, hs]

theorem bfx (ty : Ty) (d a b : Opnd) : Statement (.bfx ty d a b) :=
  rt2 rfl (by decide) (by decide) (fun hw => ok2_bits2 (by decide) hw) fun r hs hr hf => by simp [parse, parse000, hf]

theorem bfi (ty : Ty) (d a b c : Opnd) : Statement (.bfi ty d a b c) :=
  rt3 rfl (by decide) (by decide) (fun hw => by
    simp only [wf, Bool.and_eq_true, and_assoc] at hw
    obtain ⟨_, h1, h2, h3⟩ := hw
    refine ⟨opOk_dstS (regs_pos _) h1, opOk_srcS (regs_pos _) h2, ?_⟩
    rcases isImm_cases c with hc | ⟨v, rfl⟩
    · rw [hc, if_neg (by decide)] at h3
      simp only [Bool.and_eq_true, and_assoc] at h3
      exact .inl ⟨opOk_srcS (by decide) h3.1, opOk_srcS (regs_pos _) h3.2⟩
    · rw [if_pos (show (Opnd.imm v).isImm = true from rfl)] at h3
      exact .inr ⟨rfl, opOk_lowX h3, rfl⟩)
  fun r hr hf => by simp [parse, parse000, hf]

theorem prmt (ty : Ty) (d a b c : Opnd) : Statement (.prmt ty d a b c) :=
  rt3 rfl (by decide) (by decide) (fun hw => by
    simp only [wf, Bool.and_eq_true, and_assoc] at hw
    obtain ⟨_, h1, h2, h3⟩ := hw
    refine ⟨opOk_dstS (by decide) h1, opOk_srcS (by decide) h2, ?_⟩
    rcases isImm_cases c with hc | ⟨v, rfl⟩
    · rw [hc, if_neg (by decide)] at h3
      simp only [Bool.and_eq_true, and_assoc] at h3
      exact .inl ⟨opOk_srcS (by decide) h3.1, opOk_srcS (by decide) h3.2⟩
    · rw [if_pos (show (Opnd.imm v).isImm = true from rfl)] at h3
      exact .inr ⟨rfl, opOk_lowX h3, rfl⟩)
  fun r hr hf => by simp [parse, parse000, hf]

theorem ladd (ty : Ty) (d a b pc : Opnd) : Statement (.ladd ty d a b pc) :=
  rtT rfl (by decide) (fun hw => by
    simp only [wf, Bool.and_eq_true, and_assoc] at hw
    obtain ⟨_, h1, h2, h3, h4⟩ := hw
    exact ⟨by decide, opOk_dstS (by decide) h1, opOk_srcS (by decide) h2, opOk_srcS (by decide) h3, opOk_pdst h4, by decide, by decide⟩)
  fun r ht hs hr => by simp [parse, parse000, ht, hs, hr.d, hr.a, hr.b, hr.c, hr.fl, hr.rnd, hr.xsub]

theorem lsub (ty : Ty) (d a b pc : Opnd) : Statement (.lsub ty d a b pc) :=
  rtT rfl (by decide) (fun hw => by
    simp only [wf, Bool.and_eq_true, and_assoc] at hw
    obtain ⟨_, h1, h2, h3, h4⟩ := hw
    exact ⟨by decide, opOk_dstS (by decide) h1, opOk_srcS (by decide) h2, opOk_srcS (by decide) h3, opOk_pdst h4, by decide, by decide⟩)
  fun r ht hs hr => by simp [parse, parse000, ht, hs, hr.d, hr.a, hr.b, hr.c, hr.fl, hr.rnd, hr.xsub]

theorem sel (ty : Ty) (d a b pc : Opnd) : Statement (.sel ty d a b pc) :=
  rtT rfl (by decide) (fun hw => by
    simp only [wf, Bool.and_eq_true, and_assoc] at hw
    obtain ⟨_, h1, h2, h3, h4⟩ := hw
    exact ⟨by decide, opOk_dstS (regs_pos _) h1, opOk_srcS (regs_pos _) h2, opOk_srcS (regs_pos _) h3, opOk_psrc h4, by decide, by decide⟩)
  fun r ht hs hr => by simp [parse, parse000, ht, hs, hr.d, hr.a, hr.b, hr.c, hr.fl, hr.rnd, hr.xsub]

theorem icmp (ty : Ty) (rel : Rel) (fl : Flags) (pd a b : Opnd) : Statement (.icmp ty rel fl pd a b) :=
  rt2 rfl (by decide) (by decide) (fun hw => by
    simp only [wf, Bool.and_eq_true, and_assoc] at hw
    obtain ⟨_, h1, h2, h3, h4⟩ := hw
    refine ⟨rel_code_lt _, opOk_pdst h1, opOk_srcS (regs_pos _) h2, opOk_srcI (regs_pos _) h3, fun hi => ?_⟩
    rw [if_pos hi] at h4
    exact within_sat h4)
  fun r hs hr hf => by simp [parse, parse000, hf, hs]

theorem shfl (ty : Ty) (mode : ShflMode) (d a b : Opnd) : Statement (.shfl ty mode d a b) :=
  rt2 rfl (by decide) (by decide) (fun hw => by
    simp only [wf, Bool.and_eq_true, Bool.or_eq_true, and_assoc] at hw
    obtain ⟨_, h1, h2, h3⟩ := hw
    exact ⟨shflMode_code_lt _, ok2_none (opOk_dst (regs_pos _) h1) (opOk_src (regs_pos _) h2) (h3.imp_left (opOk_src (by decide)))⟩)
  fun r hs hr hf => by simp [parse, parse000, hf, hs]

theorem vote (mode : VoteMode) (d pa : Opnd) : Statement (.vote mode d pa) :=
  rtT rfl (by decide) (fun hw => by
    simp only [wf, Bool.and_eq_true, and_assoc] at hw
    obtain ⟨h1, h2⟩ := hw
    exact ⟨voteMode_code_lt _, (by cases mode <;> first | exact opOk_pdst h2 | exact opOk_dst (n := 1) (by decide) h2), opOk_psrc h1, opOk_zero, opOk_zero, by decide, by decide⟩)
  fun r ht hs hr => by simp [parse, parse000, ht, hs, hr.d, hr.a, hr.b, hr.c, hr.fl, hr.rnd, hr.xsub]

theorem redux (ty : Ty) (op : ReduxOp) (d a : Opnd) : Statement (.redux ty op d a) :=
  rtT rfl (by decide) (fun hw => by
    simp only [wf, Bool.and_eq_true, and_assoc] at hw
    obtain ⟨_, h1, h2⟩ := hw
    exact ⟨reduxOp_code_lt _, opOk_dst (regs_pos _) h1, opOk_src (regs_pos _) h2, opOk_zero, opOk_zero, by decide, by decide⟩)
  fun r ht hs hr => by simp [parse, parse000, ht, hs, hr.d, hr.a, hr.b, hr.c, hr.fl, hr.rnd, hr.xsub]

theorem readl (ty : Ty) (d a b : Opnd) : Statement (.readl ty d a b) :=
  rt2 rfl (by decide) (by decide) (fun hw => by
    simp only [wf, Bool.and_eq_true, Bool.or_eq_true, and_assoc] at hw
    obtain ⟨_, h1, h2, h3⟩ := hw
    exact ⟨by decide, ok2_none (opOk_dst (regs_pos _) h1) (opOk_src (regs_pos _) h2) (h3.imp_left (opOk_src (by decide)))⟩)
  fun r hs hr hf => by simp [parse, parse000, hf, hs]

theorem elect (pd : Opnd) : Statement (.elect pd) :=
  rtT rfl (by decide) (fun hw => by
    exact ⟨by decide, opOk_pdst hw, opOk_zero, opOk_zero, opOk_zero, by decide, by decide⟩)
  fun r ht hs hr => by simp [parse, parse000, ht, hs, hr.d, hr.a, hr.b, hr.c, hr.fl, hr.rnd, hr.xsub]

theorem pand (negA negB : Bool) (pd pa pb : Opnd) : Statement (.pand negA negB pd pa pb) :=
  rtT (ty := .pred) rfl (by decide) (fun hw => by
    simp only [wf, Bool.and_eq_true, and_assoc] at hw
    obtain ⟨h1, h2, h3⟩ := hw
    exact ⟨by decide, opOk_pdst h1, opOk_psrc h2, opOk_psrc h3, opOk_zero, by decide, by decide⟩)
  fun r ht hs hr => by simp [parse, parse000, ht, hs, hr.d, hr.a, hr.b, hr.c, hr.fl, hr.rnd, hr.xsub]

theorem por (negA negB : Bool) (pd pa pb : Opnd) : Statement (.por negA negB pd pa pb) :=
  rtT (ty := .pred) rfl (by decide) (fun hw => by
    simp only [wf, Bool.and_eq_true, and_assoc] at hw
    obtain ⟨h1, h2, h3⟩ := hw
    exact ⟨by decide, opOk_pdst h1, opOk_psrc h2, opOk_psrc h3, opOk_zero, by decide, by decide⟩)
  fun r ht hs hr => by simp [parse, parse000, ht, hs, hr.d, hr.a, hr.b, hr.c, hr.fl, hr.rnd, hr.xsub]

theorem pnot (negA : Bool) (pd pa : Opnd) : Statement (.pnot negA pd pa) :=
  rtT (ty := .pred) rfl (by decide) (fun hw => by
    simp only [wf, Bool.and_eq_true, and_assoc] at hw
    obtain ⟨h1, h2⟩ := hw
    exact ⟨by decide, opOk_pdst h1, opOk_psrc h2, opOk_zero, opOk_zero, by decide, by decide⟩)
  fun r ht hs hr => by simp [parse, parse000, ht, hs, hr.d, hr.a, hr.b, hr.c, hr.fl, hr.rnd, hr.xsub]

theorem pset (pd a : Opnd) : Statement (.pset pd a) :=
  rt1 rfl (by decide) (by decide) (fun hw => by
    simp only [wf, Bool.and_eq_true, and_assoc] at hw
    exact ok2_none (opOk_pdst hw.1) opOk_zero (opOk_srcI (by decide) hw.2))
  fun r hr hf => by simp [parse, parse000, hf]

theorem pdef (d pa : Opnd) : Statement (.pdef d pa) :=
  rtT rfl (by decide) (fun hw => by
    simp only [wf, Bool.and_eq_true, and_assoc] at hw
    obtain ⟨h1, h2⟩ := hw
    exact ⟨by decide, opOk_dstS (by decide) h1, opOk_psrc h2, opOk_zero, opOk_zero, by decide, by decide⟩)
  fun r ht hs hr => by simp [parse, parse000, ht, hs, hr.d, hr.a, hr.b, hr.c, hr.fl, hr.rnd, hr.xsub]

theorem ptest (m : Nat) (pd pa : Opnd) : Statement (.ptest m pd pa) :=
  rtT rfl (by decide) (fun hw => by
    simp only [wf, Bool.and_eq_true, and_assoc] at hw
    obtain ⟨h0, h1, h2, h3⟩ := hw
    exact ⟨by simp at h1; omega, opOk_pdst h2, opOk_psrc h3, opOk_zero, opOk_zero, by decide, by decide⟩)
  fun r ht hs hr => by simp [parse, parse000, ht, hs, hr.d, hr.a, hr.b, hr.c, hr.fl, hr.rnd, hr.xsub]

theorem fadd (ty : Ty) (rnd : Rnd) (fl : Flags) (d a b : Opnd) : Statement (.fadd ty rnd fl d a b) :=
  rt2 rfl (by decide) (Nat.lt_of_lt_of_le (rnd_code_lt _) (by decide)) (fun hw => ok2_fp2 hw) fun r hs hr hf => by simp [parse, parse001, hf, hr]

theorem fsub (ty : Ty) (rnd : Rnd) (fl : Flags) (d a b : Opnd) : Statement (.fsub ty rnd fl d a b) :=
  rt2 rfl (by decide) (Nat.lt_of_lt_of_le (rnd_code_lt _) (by decide)) (fun hw => ok2_fp2 hw) fun r hs hr hf => by simp [parse, parse001, hf, hr]

theorem fmul (ty : Ty) (rnd : Rnd) (fl : Flags) (d a b : Opnd) : Statement (.fmul ty rnd fl d a b) :=
  rt2 rfl (by decide) (Nat.lt_of_lt_of_le (rnd_code_lt _) (by decide)) (fun hw => ok2_fp2 hw) fun r hs hr hf => by simp [parse, parse001, hf, hr]

theorem ffma (ty : Ty) (rnd : Rnd) (fl : Flags) (d a b c : Opnd) : Statement (.ffma ty rnd fl d a b c) :=
  rt3 rfl (by decide) (Nat.lt_of_lt_of_le (rnd_code_lt _) (by decide)) (fun hw => by
    simp only [wf, Bool.and_eq_true, and_assoc] at hw
    obtain ⟨_, h1, h2, h3⟩ := hw
    refine ⟨opOk_dstS (regs_pos _) h1, opOk_srcS (regs_pos _) h2, ?_⟩
    rcases isImm_cases c with hc | ⟨v, rfl⟩
    · rw [hc, if_neg (by decide)] at h3
      simp only [Bool.and_eq_true, and_assoc] at h3
      exact .inl ⟨opOk_srcS (regs_pos _) h3.1, opOk_srcS (regs_pos _) h3.2.1⟩
    · rw [if_pos (show (Opnd.imm v).isImm = true from rfl)] at h3
      simp only [Bool.and_eq_true, and_assoc] at h3
      exact .inr ⟨rfl, opOk_lowX h3.1, within_negB h3.2⟩)
  fun r hr hf => by simp [parse, parse001, hf, hr]

theorem fmin (ty : Ty) (fl : Flags) (d a b : Opnd) : Statement (.fmin ty fl d a b) :=
  rt2 rfl (by decide) (by decide) (fun hw => ok2_fp2 hw) fun r hs hr hf => by simp [parse, parse001, hf]

theorem fmax (ty : Ty) (fl : Flags) (d a b : Opnd) : Statement (.fmax ty fl d a b) :=
  rt2 rfl (by decide) (by decide) (fun hw => ok2_fp2 hw) fun r hs hr hf => by simp [parse, parse001, hf]

theorem fcmp (ty : Ty) (rel : Rel) (fl : Flags) (pd a b : Opnd) : Statement (.fcmp ty rel fl pd a b) :=
  rt2 rfl (by decide) (by decide) (fun hw => by
    simp only [wf, Bool.and_eq_true, and_assoc] at hw
    obtain ⟨_, h1, h2, h3, h4⟩ := hw
    refine ⟨rel_code_lt _, opOk_pdst h1, opOk_srcS (regs_pos _) h2, opOk_srcI (regs_pos _) h3, fun hi => ?_⟩
    rw [if_pos hi] at h4
    exact within_sat h4)
  fun r hs hr hf => by simp [parse, parse001, hf, hs]

theorem fdiv (ty : Ty) (rnd : Rnd) (fl : Flags) (d a b : Opnd) : Statement (.fdiv ty rnd fl d a b) :=
  rt2 rfl (by decide) (Nat.lt_of_lt_of_le (rnd_code_lt _) (by decide)) (fun hw => ok2_fp2 hw) fun r hs hr hf => by simp [parse, parse001, hf, hr]

theorem fsqrt (ty : Ty) (rnd : Rnd) (fl : Flags) (d a : Opnd) : Statement (.fsqrt ty rnd fl d a) :=
  rt1 rfl (by decide) (Nat.lt_of_lt_of_le (rnd_code_lt _) (by decide)) (fun hw => ok2_fp1 hw) fun r hr hf => by simp [parse, parse001, hf, hr]

theorem frcp (ty : Ty) (rnd : Rnd) (fl : Flags) (d a : Opnd) : Statement (.frcp ty rnd fl d a) :=
  rt1 rfl (by decide) (Nat.lt_of_lt_of_le (rnd_code_lt _) (by decide)) (fun hw => ok2_fp1 hw) fun r hr hf => by simp [parse, parse001, hf, hr]

theorem frsq (ty : Ty) (rnd : Rnd) (fl : Flags) (d a : Opnd) : Statement (.frsq ty rnd fl d a) :=
  rt1 rfl (by decide) (Nat.lt_of_lt_of_le (rnd_code_lt _) (by decide)) (fun hw => ok2_fp1 hw) fun r hr hf => by simp [parse, parse001, hf, hr]

theorem fexp2 (ty : Ty) (rnd : Rnd) (fl : Flags) (d a : Opnd) : Statement (.fexp2 ty rnd fl d a) :=
  rt1 rfl (by decide) (Nat.lt_of_lt_of_le (rnd_code_lt _) (by decide)) (fun hw => ok2_fp1 hw) fun r hr hf => by simp [parse, parse001, hf, hr]

theorem flog2 (ty : Ty) (rnd : Rnd) (fl : Flags) (d a : Opnd) : Statement (.flog2 ty rnd fl d a) :=
  rt1 rfl (by decide) (Nat.lt_of_lt_of_le (rnd_code_lt _) (by decide)) (fun hw => ok2_fp1 hw) fun r hr hf => by simp [parse, parse001, hf, hr]

theorem frnd (ty : Ty) (rnd : Rnd) (fl : Flags) (d a : Opnd) : Statement (.frnd ty rnd fl d a) :=
  rt1 rfl (by decide) (Nat.lt_of_lt_of_le (rnd_code_lt _) (by decide)) (fun hw => ok2_fp1 hw) fun r hr hf => by simp [parse, parse001, hf, hr]

theorem fclass (ty : Ty) (fl : Flags) (d a : Opnd) : Statement (.fclass ty fl d a) :=
  rt1 rfl (by decide) (by decide) (fun hw => by
    simp only [wf, Bool.and_eq_true, and_assoc] at hw
    obtain ⟨_, h1, h2, h3⟩ := hw
    refine ⟨opOk_dstS (by decide) h1, opOk_zero, opOk_srcI (regs_pos _) h2, fun hi => ?_⟩
    rw [if_pos hi] at h3
    exact within_sat h3)
  fun r hr hf => by simp [parse, parse001, hf]

theorem fscale (ty : Ty) (rnd : Rnd) (fl : Flags) (d a b : Opnd) : Statement (.fscale ty rnd fl d a b) :=
  rt2 rfl (by decide) (Nat.lt_of_lt_of_le (rnd_code_lt _) (by decide)) (fun hw => by
    simp only [wf, Bool.and_eq_true, and_assoc] at hw
    obtain ⟨_, h1, h2, h3, h4⟩ := hw
    refine ⟨by decide, opOk_dstS (regs_pos _) h1, opOk_srcS (regs_pos _) h2, opOk_srcI (by decide) h3, fun hi => ?_⟩
    rw [if_pos hi] at h4
    exact within_sat h4)
  fun r hs hr hf => by simp [parse, parse001, hf, hr]

theorem ivadd (ty : Ty) (d a b : Opnd) : Statement (.ivadd ty d a b) :=
  rtT rfl (by decide) (fun hw => by
    have h := ok_iv hw
    exact ⟨by decide, h.1, h.2 _ (by simp), h.2 _ (by simp), opOk_zero, by decide, by decide⟩)
  fun r ht hs hr => by simp [parse, parse010, ht, hs, hr.d, hr.a, hr.b, hr.c, hr.fl, hr.rnd, hr.xsub]

theorem ivsub (ty : Ty) (d a b : Opnd) : Statement (.ivsub ty d a b) :=
  rtT rfl (by decide) (fun hw => by
    have h := ok_iv hw
    exact ⟨by decide, h.1, h.2 _ (by simp), h.2 _ (by simp), opOk_zero, by decide, by decide⟩)
  fun r ht hs hr => by simp [parse, parse010, ht, hs, hr.d, hr.a, hr.b, hr.c, hr.fl, hr.rnd, hr.xsub]

theorem ivmul (ty : Ty) (d a b : Opnd) : Statement (.ivmul ty d a b) :=
  rtT rfl (by decide) (fun hw => by
    have h := ok_iv hw
    exact ⟨by decide, h.1, h.2 _ (by simp), h.2 _ (by simp), opOk_zero, by decide, by decide⟩)
  fun r ht hs hr => by simp [parse, parse010, ht, hs, hr.d, hr.a, hr.b, hr.c, hr.fl, hr.rnd, hr.xsub]

theorem ivdiv (ty : Ty) (d a b : Opnd) : Statement (.ivdiv ty d a b) :=
  rtT rfl (by decide) (fun hw => by
    have h := ok_iv hw
    exact ⟨by decide, h.1, h.2 _ (by simp), h.2 _ (by simp), opOk_zero, by decide, by decide⟩)
  fun r ht hs hr => by simp [parse, parse010, ht, hs, hr.d, hr.a, hr.b, hr.c, hr.fl, hr.rnd, hr.xsub]

theorem ivfma (ty : Ty) (d a b c : Opnd) : Statement (.ivfma ty d a b c) :=
  rtT rfl (by decide) (fun hw => by
    have h := ok_iv hw
    exact ⟨by decide, h.1, h.2 _ (by simp), h.2 _ (by simp), h.2 _ (by simp), by decide, by decide⟩)
  fun r ht hs hr => by simp [parse, parse010, ht, hs, hr.d, hr.a, hr.b, hr.c, hr.fl, hr.rnd, hr.xsub]

theorem ivsqr (ty : Ty) (d a : Opnd) : Statement (.ivsqr ty d a) :=
  rtT rfl (by decide) (fun hw => by
    have h := ok_iv hw
    exact ⟨by decide, h.1, h.2 _ (by simp), opOk_zero, opOk_zero, by decide, by decide⟩)
  fun r ht hs hr => by simp [parse, parse010, ht, hs, hr.d, hr.a, hr.b, hr.c, hr.fl, hr.rnd, hr.xsub]

theorem ivsqrt (ty : Ty) (d a : Opnd) : Statement (.ivsqrt ty d a) :=
  rtT rfl (by decide) (fun hw => by
    have h := ok_iv hw
    exact ⟨by decide, h.1, h.2 _ (by simp), opOk_zero, opOk_zero, by decide, by decide⟩)
  fun r ht hs hr => by simp [parse, parse010, ht, hs, hr.d, hr.a, hr.b, hr.c, hr.fl, hr.rnd, hr.xsub]

theorem ivrcp (ty : Ty) (d a : Opnd) : Statement (.ivrcp ty d a) :=
  rtT rfl (by decide) (fun hw => by
    have h := ok_iv hw
    exact ⟨by decide, h.1, h.2 _ (by simp), opOk_zero, opOk_zero, by decide, by decide⟩)
  fun r ht hs hr => by simp [parse, parse010, ht, hs, hr.d, hr.a, hr.b, hr.c, hr.fl, hr.rnd, hr.xsub]

theorem ivexp2 (ty : Ty) (d a : Opnd) : Statement (.ivexp2 ty d a) :=
  rtT rfl (by decide) (fun hw => by
    have h := ok_iv hw
    exact ⟨by decide, h.1, h.2 _ (by simp), opOk_zero, opOk_zero, by decide, by decide⟩)
  fun r ht hs hr => by simp [parse, parse010, ht, hs, hr.d, hr.a, hr.b, hr.c, hr.fl, hr.rnd, hr.xsub]

theorem ivlog2 (ty : Ty) (d a : Opnd) : Statement (.ivlog2 ty d a) :=
  rtT rfl (by decide) (fun hw => by
    have h := ok_iv hw
    exact ⟨by decide, h.1, h.2 _ (by simp), opOk_zero, opOk_zero, by decide, by decide⟩)
  fun r ht hs hr => by simp [parse, parse010, ht, hs, hr.d, hr.a, hr.b, hr.c, hr.fl, hr.rnd, hr.xsub]

theorem ivabs (ty : Ty) (d a : Opnd) : Statement (.ivabs ty d a) :=
  rtT rfl (by decide) (fun hw => by
    have h := ok_iv hw
    exact ⟨by decide, h.1, h.2 _ (by simp), opOk_zero, opOk_zero, by decide, by decide⟩)
  fun r ht hs hr => by simp [parse, parse010, ht, hs, hr.d, hr.a, hr.b, hr.c, hr.fl, hr.rnd, hr.xsub]

theorem ivneg (ty : Ty) (d a : Opnd) : Statement (.ivneg ty d a) :=
  rtT rfl (by decide) (fun hw => by
    have h := ok_iv hw
    exact ⟨by decide, h.1, h.2 _ (by simp), opOk_zero, opOk_zero, by decide, by decide⟩)
  fun r ht hs hr => by simp [parse, parse010, ht, hs, hr.d, hr.a, hr.b, hr.c, hr.fl, hr.rnd, hr.xsub]

theorem ivmin (ty : Ty) (d a b : Opnd) : Statement (.ivmin ty d a b) :=
  rtT rfl (by decide) (fun hw => by
    have h := ok_iv hw
    exact ⟨by decide, h.1, h.2 _ (by simp), h.2 _ (by simp), opOk_zero, by decide, by decide⟩)
  fun r ht hs hr => by simp [parse, parse010, ht, hs, hr.d, hr.a, hr.b, hr.c, hr.fl, hr.rnd, hr.xsub]

theorem ivmax (ty : Ty) (d a b : Opnd) : Statement (.ivmax ty d a b) :=
  rtT rfl (by decide) (fun hw => by
    have h := ok_iv hw
    exact ⟨by decide, h.1, h.2 _ (by simp), h.2 _ (by simp), opOk_zero, by decide, by decide⟩)
  fun r ht hs hr => by simp [parse, parse010, ht, hs, hr.d, hr.a, hr.b, hr.c, hr.fl, hr.rnd, hr.xsub]

theorem ivhull (ty : Ty) (d a b : Opnd) : Statement (.ivhull ty d a b) :=
  rtT rfl (by decide) (fun hw => by
    have h := ok_iv hw
    exact ⟨by decide, h.1, h.2 _ (by simp), h.2 _ (by simp), opOk_zero, by decide, by decide⟩)
  fun r ht hs hr => by simp [parse, parse010, ht, hs, hr.d, hr.a, hr.b, hr.c, hr.fl, hr.rnd, hr.xsub]

theorem ivisect (ty : Ty) (d a b : Opnd) : Statement (.ivisect ty d a b) :=
  rtT rfl (by decide) (fun hw => by
    have h := ok_iv hw
    exact ⟨by decide, h.1, h.2 _ (by simp), h.2 _ (by simp), opOk_zero, by decide, by decide⟩)
  fun r ht hs hr => by simp [parse, parse010, ht, hs, hr.d, hr.a, hr.b, hr.c, hr.fl, hr.rnd, hr.xsub]

theorem ivmake (ty : Ty) (d p q : Opnd) : Statement (.ivmake ty d p q) :=
  rtT rfl (by decide) (fun hw => by
    simp only [wf, Bool.and_eq_true, and_assoc] at hw
    obtain ⟨_, h1, h2, h3⟩ := hw
    exact ⟨by decide, opOk_range (regs_pos _) h1, opOk_src (regs_pos _) h2, opOk_src (regs_pos _) h3, opOk_zero, by decide, by decide⟩)
  fun r ht hs hr => by simp [parse, parse010, ht, hs, hr.d, hr.a, hr.b, hr.c, hr.fl, hr.rnd, hr.xsub]

theorem ivpt (ty : Ty) (d p : Opnd) : Statement (.ivpt ty d p) :=
  rtT rfl (by decide) (fun hw => by
    simp only [wf, Bool.and_eq_true, and_assoc] at hw
    obtain ⟨_, h1, h2⟩ := hw
    exact ⟨by decide, opOk_range (regs_pos _) h1, opOk_src (regs_pos _) h2, opOk_zero, opOk_zero, by decide, by decide⟩)
  fun r ht hs hr => by simp [parse, parse010, ht, hs, hr.d, hr.a, hr.b, hr.c, hr.fl, hr.rnd, hr.xsub]

theorem ivlo (ty : Ty) (d a : Opnd) : Statement (.ivlo ty d a) :=
  rtT rfl (by decide) (fun hw => by
    simp only [wf, Bool.and_eq_true, and_assoc] at hw
    obtain ⟨_, h1, h2⟩ := hw
    exact ⟨by decide, opOk_dst (regs_pos _) h1, opOk_ivSrc (regs_pos _) h2, opOk_zero, opOk_zero, by decide, by decide⟩)
  fun r ht hs hr => by simp [parse, parse010, ht, hs, hr.d, hr.a, hr.b, hr.c, hr.fl, hr.rnd, hr.xsub]

theorem ivhi (ty : Ty) (d a : Opnd) : Statement (.ivhi ty d a) :=
  rtT rfl (by decide) (fun hw => by
    simp only [wf, Bool.and_eq_true, and_assoc] at hw
    obtain ⟨_, h1, h2⟩ := hw
    exact ⟨by decide, opOk_dst (regs_pos _) h1, opOk_ivSrc (regs_pos _) h2, opOk_zero, opOk_zero, by decide, by decide⟩)
  fun r ht hs hr => by simp [parse, parse010, ht, hs, hr.d, hr.a, hr.b, hr.c, hr.fl, hr.rnd, hr.xsub]

theorem ivmid (ty : Ty) (d a : Opnd) : Statement (.ivmid ty d a) :=
  rtT rfl (by decide) (fun hw => by
    simp only [wf, Bool.and_eq_true, and_assoc] at hw
    obtain ⟨_, h1, h2⟩ := hw
    exact ⟨by decide, opOk_dst (regs_pos _) h1, opOk_ivSrc (regs_pos _) h2, opOk_zero, opOk_zero, by decide, by decide⟩)
  fun r ht hs hr => by simp [parse, parse010, ht, hs, hr.d, hr.a, hr.b, hr.c, hr.fl, hr.rnd, hr.xsub]

theorem ivwid (ty : Ty) (d a : Opnd) : Statement (.ivwid ty d a) :=
  rtT rfl (by decide) (fun hw => by
    simp only [wf, Bool.and_eq_true, and_assoc] at hw
    obtain ⟨_, h1, h2⟩ := hw
    exact ⟨by decide, opOk_dst (regs_pos _) h1, opOk_ivSrc (regs_pos _) h2, opOk_zero, opOk_zero, by decide, by decide⟩)
  fun r ht hs hr => by simp [parse, parse010, ht, hs, hr.d, hr.a, hr.b, hr.c, hr.fl, hr.rnd, hr.xsub]

theorem ivcmp (ty : Ty) (rel : Rel) (pd a b : Opnd) : Statement (.ivcmp ty rel pd a b) :=
  rtT rfl (by decide) (fun hw => by
    simp only [wf, Bool.and_eq_true, and_assoc] at hw
    obtain ⟨_, h1, h2, h3⟩ := hw
    exact ⟨Nat.lt_of_lt_of_le (rel_code_lt _) (by decide), opOk_pdst h1, opOk_ivSrc (regs_pos _) h2, opOk_ivSrc (regs_pos _) h3, opOk_zero, by decide, by decide⟩)
  fun r ht hs hr => by simp [parse, parse010, ht, hs, hr.d, hr.a, hr.b, hr.c, hr.fl, hr.rnd, hr.xsub]

theorem ivin (ty : Ty) (pd p b : Opnd) : Statement (.ivin ty pd p b) :=
  rtT rfl (by decide) (fun hw => by
    simp only [wf, Bool.and_eq_true, and_assoc] at hw
    obtain ⟨_, h1, h2, h3⟩ := hw
    exact ⟨by decide, opOk_pdst h1, opOk_src (regs_pos _) h2, opOk_ivSrc (regs_pos _) h3, opOk_zero, by decide, by decide⟩)
  fun r ht hs hr => by simp [parse, parse010, ht, hs, hr.d, hr.a, hr.b, hr.c, hr.fl, hr.rnd, hr.xsub]

theorem ivsubs (ty : Ty) (pd a b : Opnd) : Statement (.ivsubs ty pd a b) :=
  rtT rfl (by decide) (fun hw => by
    simp only [wf, Bool.and_eq_true, and_assoc] at hw
    obtain ⟨_, h1, h2, h3⟩ := hw
    exact ⟨by decide, opOk_pdst h1, opOk_ivSrc (regs_pos _) h2, opOk_ivSrc (regs_pos _) h3, opOk_zero, by decide, by decide⟩)
  fun r ht hs hr => by simp [parse, parse010, ht, hs, hr.d, hr.a, hr.b, hr.c, hr.fl, hr.rnd, hr.xsub]

theorem ivemp (ty : Ty) (pd a : Opnd) : Statement (.ivemp ty pd a) :=
  rtT rfl (by decide) (fun hw => by
    simp only [wf, Bool.and_eq_true, and_assoc] at hw
    obtain ⟨_, h1, h2⟩ := hw
    exact ⟨by decide, opOk_pdst h1, opOk_ivSrc (regs_pos _) h2, opOk_zero, opOk_zero, by decide, by decide⟩)
  fun r ht hs hr => by simp [parse, parse010, ht, hs, hr.d, hr.a, hr.b, hr.c, hr.fl, hr.rnd, hr.xsub]

theorem ivbis (ty : Ty) (d a b c : Opnd) : Statement (.ivbis ty d a b c) :=
  rtT rfl (by decide) (fun hw => by
    simp only [wf, Bool.and_eq_true, and_assoc] at hw
    obtain ⟨_, h1, h2, h3⟩ := hw
    have hbc : OpOk b ∧ OpOk c := by
      split at h3 <;> simp only [Bool.and_eq_true] at h3
      · exact ⟨opOk_isZero h3.1, opOk_isZero h3.2⟩
      · exact ⟨opOk_reg32z h3.1, opOk_reg32z h3.2⟩
    exact ⟨by decide, opOk_range (regs_pos _) h1, opOk_ivSrc (regs_pos _) h2, hbc.1, hbc.2, by decide, by decide⟩)
  fun r ht hs hr => by simp [parse, parse010, ht, hs, hr.d, hr.a, hr.b, hr.c, hr.fl, hr.rnd, hr.xsub]

theorem ivbfl : Statement .ivbfl :=
  rtT rfl (by decide) (fun hw => by
    exact ⟨by decide, opOk_zero, opOk_zero, opOk_zero, opOk_zero, by decide, by decide⟩)
  fun r ht hs hr => by simp [parse, parse010, ht, hs, hr.d, hr.a, hr.b, hr.c, hr.fl, hr.rnd, hr.xsub]

theorem cvt (dty sty : Ty) (n : Nat) (rnd : Rnd) (fl : Flags) (d a : Opnd) : Statement (.cvt dty sty n rnd fl d a) :=
  rtT rfl (by decide) (fun hw => by
    simp only [wf, Bool.and_eq_true, and_assoc] at hw
    obtain ⟨_, _, _, h1, _, h2, h3⟩ := hw
    exact ⟨by simp at h1; cases sty <;> simp [cvtTop] at h1 <;> omega, opOk_dstS (regs_pos _) h2, opOk_srcS (regs_pos _) h3, opOk_zero, opOk_zero, Nat.lt_of_lt_of_le (rnd_code_lt _) (by decide), Nat.lt_of_lt_of_le (ty_code_lt _) (by decide)⟩)
  fun r ht hs hr => by simp [parse, parse011, ht, hs, hr.d, hr.a, hr.b, hr.c, hr.fl, hr.rnd, hr.xsub]

theorem pack (ty : Ty) (n : Nat) (rnd : Rnd) (fl : Flags) (d a b c : Opnd) : Statement (.pack ty n rnd fl d a b c) :=
  rtT rfl (by decide) (fun hw => by
    simp only [wf, Bool.and_eq_true, and_assoc] at hw
    obtain ⟨_, h1, _, _, h2, h3, h4, h5⟩ := hw
    have hc : OpOk c := by
      split at h5
      · exact opOk_isZero h5
      · exact opOk_srcS (by decide) h5
    exact ⟨by simp at h1; cases ty <;> simp [packTop] at h1 <;> omega, opOk_dstS (by decide) h2, opOk_srcS (by decide) h3, opOk_srcS (by decide) h4, hc, Nat.lt_of_lt_of_le (rnd_code_lt _) (by decide), by decide⟩)
  fun r ht hs hr => by simp [parse, parse011, ht, hs, hr.d, hr.a, hr.b, hr.c, hr.fl, hr.rnd, hr.xsub]

theorem unpk (ty : Ty) (n : Nat) (d a : Opnd) : Statement (.unpk ty n d a) :=
  rtT rfl (by decide) (fun hw => by
    simp only [wf, Bool.and_eq_true, and_assoc] at hw
    obtain ⟨_, h1, h2, h3⟩ := hw
    exact ⟨by simp at h1; cases ty <;> simp [packTop] at h1 <;> omega, opOk_range (by decide) h2, opOk_srcS (by decide) h3, opOk_zero, opOk_zero, by decide, by decide⟩)
  fun r ht hs hr => by simp [parse, parse011, ht, hs, hr.d, hr.a, hr.b, hr.c, hr.fl, hr.rnd, hr.xsub]

theorem qst (k lg : Nat) (cache : Cache) (d base idx : Opnd) (off : BitVec 20) :
    Statement (.qst k lg cache d base idx off) :=
  rtM (ty := .f32) rfl (by decide) (fun hw => by
    simp only [wf, Bool.and_eq_true, and_assoc] at hw
    obtain ⟨h1, h2, h3, h4, h5⟩ := hw
    have hd : OpOk d := by
      split at h3
      · exact opOk_reg32 h3
      · exact opOk_rangeX (Nat.two_pow_pos _) h3
    exact ⟨by simp at h1; omega, hd, opOk_uniformPair h4, opOk_uniform h5, by decide, cache_code_lt _, by simp at h2; omega⟩)
  fun r ht hs hr => by simp [parse, parse011, ht, hs, hr.d, hr.a, hr.b, hr.off, hr.scope, hr.cache, hr.mflags]

theorem qaxis (lane carry : Bool) (d : Opnd) : Statement (.qaxis lane carry d) :=
  rtT rfl (by decide) (fun hw => by
    exact ⟨by cases lane <;> cases carry <;> decide, opOk_ereg hw, opOk_zero, opOk_zero, opOk_zero, by decide, by decide⟩)
  fun r ht hs hr => by cases lane <;> cases carry <;> simp [parse, parse011, hs, hr.d] <;> decide

theorem qclr (d : Opnd) : Statement (.qclr d) :=
  rtT rfl (by decide) (fun hw => by
    exact ⟨by decide, opOk_ereg hw, opOk_zero, opOk_zero, opOk_zero, by decide, by decide⟩)
  fun r ht hs hr => by simp [parse, parse011, ht, hs, hr.d, hr.a, hr.b, hr.c, hr.fl, hr.rnd, hr.xsub]

theorem qget (d a : Opnd) : Statement (.qget d a) :=
  rtT rfl (by decide) (fun hw => by
    simp only [wf, Bool.and_eq_true, and_assoc] at hw
    obtain ⟨h1, h2⟩ := hw
    exact ⟨by decide, opOk_reg32 h1, opOk_ereg h2, opOk_zero, opOk_zero, by decide, by decide⟩)
  fun r ht hs hr => by simp [parse, parse011, ht, hs, hr.d, hr.a, hr.b, hr.c, hr.fl, hr.rnd, hr.xsub]

theorem qset (d a : Opnd) : Statement (.qset d a) :=
  rtT rfl (by decide) (fun hw => by
    simp only [wf, Bool.and_eq_true, and_assoc] at hw
    obtain ⟨h1, h2⟩ := hw
    exact ⟨by decide, opOk_ereg h1, opOk_reg32z h2, opOk_zero, opOk_zero, by decide, by decide⟩)
  fun r ht hs hr => by simp [parse, parse011, ht, hs, hr.d, hr.a, hr.b, hr.c, hr.fl, hr.rnd, hr.xsub]

theorem ld (ty : Ty) (sw : SubWord) (cache : Cache) (d base idx : Opnd) (off : BitVec 20) :
    Statement (.ld ty sw cache d base idx off) :=
  rtM rfl (by decide) (fun hw => by
    obtain ⟨h1, h2, h3⟩ := ok_mem hw
    exact ⟨by decide, opOk_dst (regs_pos _) h1, opOk_base64 h2, h3, by decide, cache_code_lt _, subWord_code_lt _⟩)
  fun r ht hs hr => by simp [parse, parse100, ht, hs, hr.d, hr.a, hr.b, hr.off, hr.scope, hr.cache, hr.mflags]

theorem st (ty : Ty) (sw : SubWord) (cache : Cache) (d base idx : Opnd) (off : BitVec 20) :
    Statement (.st ty sw cache d base idx off) :=
  rtM rfl (by decide) (fun hw => by
    obtain ⟨h1, h2, h3⟩ := ok_mem hw
    exact ⟨by decide, opOk_src (regs_pos _) h1, opOk_base64 h2, h3, by decide, cache_code_lt _, subWord_code_lt _⟩)
  fun r ht hs hr => by simp [parse, parse100, ht, hs, hr.d, hr.a, hr.b, hr.off, hr.scope, hr.cache, hr.mflags]

theorem ldl (ty : Ty) (sw : SubWord) (cache : Cache) (d base idx : Opnd) (off : BitVec 20) :
    Statement (.ldl ty sw cache d base idx off) :=
  rtM rfl (by decide) (fun hw => by
    obtain ⟨h1, h2, h3⟩ := ok_mem hw
    exact ⟨by decide, opOk_dst (regs_pos _) h1, opOk_reg32z h2, h3, by decide, cache_code_lt _, subWord_code_lt _⟩)
  fun r ht hs hr => by simp [parse, parse100, ht, hs, hr.d, hr.a, hr.b, hr.off, hr.scope, hr.cache, hr.mflags]

theorem stl (ty : Ty) (sw : SubWord) (cache : Cache) (d base idx : Opnd) (off : BitVec 20) :
    Statement (.stl ty sw cache d base idx off) :=
  rtM rfl (by decide) (fun hw => by
    obtain ⟨h1, h2, h3⟩ := ok_mem hw
    exact ⟨by decide, opOk_src (regs_pos _) h1, opOk_reg32z h2, h3, by decide, cache_code_lt _, subWord_code_lt _⟩)
  fun r ht hs hr => by simp [parse, parse100, ht, hs, hr.d, hr.a, hr.b, hr.off, hr.scope, hr.cache, hr.mflags]

theorem ldd (ty : Ty) (sw : SubWord) (cache : Cache) (d base idx : Opnd) (off : BitVec 20) :
    Statement (.ldd ty sw cache d base idx off) :=
  rtM rfl (by decide) (fun hw => by
    obtain ⟨h1, h2, h3⟩ := ok_mem hw
    exact ⟨by decide, opOk_dst (regs_pos _) h1, opOk_reg32z h2, h3, by decide, cache_code_lt _, subWord_code_lt _⟩)
  fun r ht hs hr => by simp [parse, parse100, ht, hs, hr.d, hr.a, hr.b, hr.off, hr.scope, hr.cache, hr.mflags]

theorem std (ty : Ty) (sw : SubWord) (cache : Cache) (d base idx : Opnd) (off : BitVec 20) :
    Statement (.std ty sw cache d base idx off) :=
  rtM rfl (by decide) (fun hw => by
    obtain ⟨h1, h2, h3⟩ := ok_mem hw
    exact ⟨by decide, opOk_src (regs_pos _) h1, opOk_reg32z h2, h3, by decide, cache_code_lt _, subWord_code_lt _⟩)
  fun r ht hs hr => by simp [parse, parse100, ht, hs, hr.d, hr.a, hr.b, hr.off, hr.scope, hr.cache, hr.mflags]

theorem ldsp (ty : Ty) (sw : SubWord) (cache : Cache) (d base idx : Opnd) (off : BitVec 20) :
    Statement (.ldsp ty sw cache d base idx off) :=
  rtM rfl (by decide) (fun hw => by
    obtain ⟨h1, h2, h3⟩ := ok_mem hw
    exact ⟨by decide, opOk_dst (regs_pos _) h1, opOk_reg32z h2, h3, by decide, cache_code_lt _, subWord_code_lt _⟩)
  fun r ht hs hr => by simp [parse, parse100, ht, hs, hr.d, hr.a, hr.b, hr.off, hr.scope, hr.cache, hr.mflags]

theorem stsp (ty : Ty) (sw : SubWord) (cache : Cache) (d base idx : Opnd) (off : BitVec 20) :
    Statement (.stsp ty sw cache d base idx off) :=
  rtM rfl (by decide) (fun hw => by
    obtain ⟨h1, h2, h3⟩ := ok_mem hw
    exact ⟨by decide, opOk_src (regs_pos _) h1, opOk_reg32z h2, h3, by decide, cache_code_lt _, subWord_code_lt _⟩)
  fun r ht hs hr => by simp [parse, parse100, ht, hs, hr.d, hr.a, hr.b, hr.off, hr.scope, hr.cache, hr.mflags]

theorem ldiv (ty : Ty) (cache : Cache) (d base idx : Opnd) (off : BitVec 20) :
    Statement (.ldiv ty cache d base idx off) :=
  rtM rfl (by decide) (fun hw => by
    simp only [wf, Bool.and_eq_true, and_assoc] at hw
    obtain ⟨_, h1, h2, h3⟩ := hw
    exact ⟨by decide, opOk_range (regs_pos _) h1, opOk_base64 h2, opOk_reg32z h3, by decide, cache_code_lt _, by decide⟩)
  fun r ht hs hr => by simp [parse, parse100, ht, hs, hr.d, hr.a, hr.b, hr.off, hr.scope, hr.cache, hr.mflags]

theorem stiv (ty : Ty) (cache : Cache) (d base idx : Opnd) (off : BitVec 20) :
    Statement (.stiv ty cache d base idx off) :=
  rtM rfl (by decide) (fun hw => by
    simp only [wf, Bool.and_eq_true, and_assoc] at hw
    obtain ⟨_, h1, h2, h3⟩ := hw
    exact ⟨by decide, opOk_range (regs_pos _) h1, opOk_base64 h2, opOk_reg32z h3, by decide, cache_code_lt _, by decide⟩)
  fun r ht hs hr => by simp [parse, parse100, ht, hs, hr.d, hr.a, hr.b, hr.off, hr.scope, hr.cache, hr.mflags]

theorem atom (ty : Ty) (op : AtomOp) (scope : Scope) (nr : Bool) (d base b : Opnd) (off : BitVec 20) :
    Statement (.atom ty op scope nr d base b off) :=
  rtM rfl (by decide) (fun hw => by
    simp only [wf, Bool.and_eq_true, and_assoc] at hw
    obtain ⟨_, h1, h2, h3⟩ := hw
    have hb : OpOk b := by
      split at h2
      · exact opOk_ivSrc (regs_pos _) h2
      · exact opOk_src (regs_pos _) h2
    have hd : OpOk d := by
      split at h3
      · exact opOk_isZero h3
      · split at h3
        · exact opOk_range (regs_pos _) h3
        · exact opOk_dst (regs_pos _) h3
    exact ⟨atomOp_code_lt _, hd, opOk_base64 h1, hb, scope_code_lt _, by decide, by cases nr <;> decide⟩)
  fun r ht hs hr => by
    have hn : bit r.body 0 = nr := by
      have := hr.mflags
      unfold bits at this
      exact bit_of (by cases nr <;> simp [b2n] at this ⊢ <;> omega)
    simp [parse, parse100, ht, hs, hr.d, hr.a, hr.b, hr.off, hr.scope, hn]

theorem pref (cache : Cache) (base idx : Opnd) (off : BitVec 20) : Statement (.pref cache base idx off) :=
  rtM (ty := .i32) rfl (by decide) (fun hw => by
    simp only [wf, Bool.and_eq_true, and_assoc] at hw
    obtain ⟨h1, h2⟩ := hw
    exact ⟨by decide, opOk_zero, opOk_base64 h1, opOk_reg32z h2, by decide, cache_code_lt _, by decide⟩)
  fun r ht hs hr => by simp [parse, parse100, ht, hs, hr.d, hr.a, hr.b, hr.off, hr.scope, hr.cache, hr.mflags]

theorem bind (s base n : Opnd) (off : BitVec 20) : Statement (.bind s base n off) :=
  rtM (ty := .i32) rfl (by decide) (fun hw => by
    simp only [wf, Bool.and_eq_true, and_assoc] at hw
    obtain ⟨h1, h2, h3⟩ := hw
    exact ⟨by decide, opOk_reg32z h1, opOk_base64 h2, opOk_reg32z h3, by decide, by decide, by decide⟩)
  fun r ht hs hr => by simp [parse, parse100, ht, hs, hr.d, hr.a, hr.b, hr.off, hr.scope, hr.cache, hr.mflags]

theorem unbind (s : Opnd) : Statement (.unbind s) :=
  rtM (ty := .i32) rfl (by decide) (fun hw => by
    exact ⟨by decide, opOk_reg32z hw, opOk_zero, opOk_zero, by decide, by decide, by decide⟩)
  fun r ht hs hr => by simp [parse, parse100, ht, hs, hr.d, hr.a, hr.b, hr.off, hr.scope, hr.cache, hr.mflags]

theorem acq (scope : Scope) (s : Opnd) : Statement (.acq scope s) :=
  rtM (ty := .i32) rfl (by decide) (fun hw => by
    exact ⟨by decide, opOk_zero, opOk_reg32z hw, opOk_zero, scope_code_lt _, by decide, by decide⟩)
  fun r ht hs hr => by simp [parse, parse100, ht, hs, hr.d, hr.a, hr.b, hr.off, hr.scope, hr.cache, hr.mflags]

theorem rel (scope : Scope) (s : Opnd) : Statement (.rel scope s) :=
  rtM (ty := .i32) rfl (by decide) (fun hw => by
    exact ⟨by decide, opOk_zero, opOk_reg32z hw, opOk_zero, scope_code_lt _, by decide, by decide⟩)
  fun r ht hs hr => by simp [parse, parse100, ht, hs, hr.d, hr.a, hr.b, hr.off, hr.scope, hr.cache, hr.mflags]

theorem fence (scope : Scope) : Statement (.fence scope) :=
  rtM (ty := .i32) rfl (by decide) (fun hw => by
    exact ⟨by decide, opOk_zero, opOk_zero, opOk_zero, scope_code_lt _, by decide, by decide⟩)
  fun r ht hs hr => by simp [parse, parse100, ht, hs, hr.d, hr.a, hr.b, hr.off, hr.scope, hr.cache, hr.mflags]

theorem sinit (kind : SettKind) (a b : Opnd) : Statement (.sinit kind a b) :=
  rtE (ty := .i32) rfl (by decide) (fun hw => by
    simp only [wf, Bool.and_eq_true, and_assoc] at hw
    obtain ⟨h1, h2⟩ := hw
    exact ⟨settKind_code_lt _, opOk_zero, .inl (opOk_reg32z h1), opE_z28 h2, immE_lt (opE_z28 h2)⟩)
  fun r hw ht hs hru hr => by
    simp only [wf, Bool.and_eq_true, and_assoc] at hw
    obtain ⟨h1, h2⟩ := hw
    have ea : r.a = _ := hr.a.trans (opOk_reg32z h1)
    have ei := readsE_immB hr (opE_z28 h2)
    simp [parse, parse101, ht, hs, hru, ea, ei]

theorem sarr (scope : Scope) (a b : Opnd) : Statement (.sarr scope a b) :=
  rtE (ty := .i32) rfl (by decide) (fun hw => by
    simp only [wf, Bool.and_eq_true, and_assoc] at hw
    obtain ⟨h1, h2⟩ := hw
    exact ⟨Nat.lt_of_lt_of_le (scope_code_lt _) (by decide), opOk_zero, .inl (opOk_reg32z h1), opE_z28 h2, immE_lt (opE_z28 h2)⟩)
  fun r hw ht hs hru hr => by
    simp only [wf, Bool.and_eq_true, and_assoc] at hw
    obtain ⟨h1, h2⟩ := hw
    have ea : r.a = _ := hr.a.trans (opOk_reg32z h1)
    have ei := readsE_immB hr (opE_z28 h2)
    simp [parse, parse101, ht, hs, hru, ea, ei]

theorem sexp (a b : Opnd) : Statement (.sexp a b) :=
  rtE (ty := .i32) rfl (by decide) (fun hw => by
    simp only [wf, Bool.and_eq_true, and_assoc] at hw
    obtain ⟨h1, h2⟩ := hw
    exact ⟨by decide, opOk_zero, .inl (opOk_reg32z h1), opE_z28 h2, immE_lt (opE_z28 h2)⟩)
  fun r hw ht hs hru hr => by
    simp only [wf, Bool.and_eq_true, and_assoc] at hw
    obtain ⟨h1, h2⟩ := hw
    have ea : r.a = _ := hr.a.trans (opOk_reg32z h1)
    have ei := readsE_immB hr (opE_z28 h2)
    simp [parse, parse101, ht, hs, hru, ea, ei]

theorem swait (pd a b : Opnd) (t : BitVec 28) : Statement (.swait pd a b t) :=
  rtE (ty := .i32) rfl (by decide) (fun hw => by
    simp only [wf, Bool.and_eq_true, and_assoc] at hw
    obtain ⟨h1, h2, h3⟩ := hw
    exact ⟨by decide, opOk_pdst h1, .inl (opOk_reg32z h2), .inl (opOk_reg32z h3), t.isLt⟩)
  fun r hw ht hs hru hr => by
    simp only [wf, Bool.and_eq_true, and_assoc] at hw
    obtain ⟨h1, h2, h3⟩ := hw
    have ed : r.d = _ := hr.d.trans (opOk_pdst h1)
    have ea : r.a = _ := hr.a.trans (opOk_reg32z h2)
    have eb : r.b = _ := hr.b.trans (opOk_reg32z h3)
    simp [parse, parse101, ht, hs, hru, hr.imm, ed, ea, eb]

theorem swaitTimeout (g lane : Nat) : Statement (.swaitTimeout g lane) :=
  rtNone rfl

theorem stry (pd a b : Opnd) : Statement (.stry pd a b) :=
  rtE (ty := .i32) rfl (by decide) (fun hw => by
    simp only [wf, Bool.and_eq_true, and_assoc] at hw
    obtain ⟨h1, h2, h3⟩ := hw
    exact ⟨by decide, opOk_pdst h1, .inl (opOk_reg32z h2), .inl (opOk_reg32z h3), by decide⟩)
  fun r hw ht hs hru hr => by
    simp only [wf, Bool.and_eq_true, and_assoc] at hw
    obtain ⟨h1, h2, h3⟩ := hw
    have ed : r.d = _ := hr.d.trans (opOk_pdst h1)
    have ea : r.a = _ := hr.a.trans (opOk_reg32z h2)
    have eb : r.b = _ := hr.b.trans (opOk_reg32z h3)
    simp [parse, parse101, ht, hs, hru, ed, ea, eb]

theorem bar : Statement .bar :=
  rtE (ty := .i32) rfl (by decide) (fun hw => by
    exact ⟨by decide, opOk_zero, opE_zero, opE_zero, by decide⟩)
  fun r hw ht hs hru hr => by
    simp [parse, parse101, ht, hs, hru]

theorem cbar : Statement .cbar :=
  rtE (ty := .i32) rfl (by decide) (fun hw => by
    exact ⟨by decide, opOk_zero, opE_zero, opE_zero, by decide⟩)
  fun r hw ht hs hru hr => by
    simp [parse, parse101, ht, hs, hru]

theorem bcopyG2l (d a b : Opnd) : Statement (.bcopyG2l d a b) :=
  rtE (ty := .i32) rfl (by decide) (fun hw => by
    simp only [wf, Bool.and_eq_true, and_assoc] at hw
    obtain ⟨h1, h2, h3⟩ := hw
    exact ⟨by decide, opOk_reg32z h1, .inl (opOk_reg32z h2), .inl (opOk_reg32z h3), by decide⟩)
  fun r hw ht hs hru hr => by
    simp only [wf, Bool.and_eq_true, and_assoc] at hw
    obtain ⟨h1, h2, h3⟩ := hw
    have ed : r.d = _ := hr.d.trans (opOk_reg32z h1)
    have ea : r.a = _ := hr.a.trans (opOk_reg32z h2)
    have eb : r.b = _ := hr.b.trans (opOk_reg32z h3)
    simp [parse, parse101, ht, hs, hru, ed, ea, eb]

theorem bcopyL2g (d a b : Opnd) : Statement (.bcopyL2g d a b) :=
  rtE (ty := .i32) rfl (by decide) (fun hw => by
    simp only [wf, Bool.and_eq_true, and_assoc] at hw
    obtain ⟨h1, h2, h3⟩ := hw
    exact ⟨by decide, opOk_reg32z h1, .inl (opOk_reg32z h2), .inl (opOk_reg32z h3), by decide⟩)
  fun r hw ht hs hru hr => by
    simp only [wf, Bool.and_eq_true, and_assoc] at hw
    obtain ⟨h1, h2, h3⟩ := hw
    have ed : r.d = _ := hr.d.trans (opOk_reg32z h1)
    have ea : r.a = _ := hr.a.trans (opOk_reg32z h2)
    have eb : r.b = _ := hr.b.trans (opOk_reg32z h3)
    simp [parse, parse101, ht, hs, hru, ed, ea, eb]

theorem copyComplete (op : Nat) : Statement (.copyComplete op) :=
  rtNone rfl

theorem bqst (d a b : Opnd) : Statement (.bqst d a b) :=
  rtE (ty := .i32) rfl (by decide) (fun hw => by
    simp only [wf, Bool.and_eq_true, and_assoc] at hw
    obtain ⟨h1, h2, h3⟩ := hw
    exact ⟨by decide, opOk_reg32z h1, .inl (opOk_reg32z h2), .inl (opOk_reg32z h3), by decide⟩)
  fun r hw ht hs hru hr => by
    simp only [wf, Bool.and_eq_true, and_assoc] at hw
    obtain ⟨h1, h2, h3⟩ := hw
    have ed : r.d = _ := hr.d.trans (opOk_reg32z h1)
    have ea : r.a = _ := hr.a.trans (opOk_reg32z h2)
    have eb : r.b = _ := hr.b.trans (opOk_reg32z h3)
    simp [parse, parse101, ht, hs, hru, ed, ea, eb]

theorem bqstComplete (op : Nat) : Statement (.bqstComplete op) :=
  rtNone rfl

theorem mma (ty : Ty) (z ru : Bool) (d a b : Opnd) : Statement (.mma ty z ru d a b) :=
  rtE rfl (by decide) (fun hw => by
    simp only [wf, Bool.and_eq_true, and_assoc] at hw
    obtain ⟨h1, _, h3⟩ := hw
    have hda := ok_mma h1
    exact ⟨by cases z <;> decide, hda.1, .inl hda.2, .inl (opOk_reg32z h3), by decide⟩)
  fun r hw ht hs hru hr => by
    simp only [wf, Bool.and_eq_true, and_assoc] at hw
    obtain ⟨h1, _, h3⟩ := hw
    have hda := ok_mma h1
    have ed : r.d = _ := hr.d.trans hda.1
    have ea : r.a = _ := hr.a.trans hda.2
    have eb : r.b = _ := hr.b.trans (opOk_reg32z h3)
    have ez : bit r.sub 0 = z := by rw [hs]; cases z <;> rfl
    simp [parse, parse101, ht, hru, ed, ea, eb, ez]

theorem mmab (a : Opnd) : Statement (.mmab a) :=
  rtE (ty := .i32) rfl (by decide) (fun hw => by
    exact ⟨by decide, opOk_zero, .inl (opOk_reg32z hw), opE_zero, by decide⟩)
  fun r hw ht hs hru hr => by
    have ea : r.a = _ := hr.a.trans (opOk_reg32z hw)
    simp [parse, parse101, ht, hs, hru, ea]

theorem mmabStage (core : Nat) : Statement (.mmabStage core) :=
  rtNone rfl

theorem mmabDone (core : Nat) : Statement (.mmabDone core) :=
  rtNone rfl

theorem sampledTileCheck (core : Nat) : Statement (.sampledTileCheck core) :=
  rtNone rfl

theorem coll (a : Opnd) : Statement (.coll a) :=
  rtE (ty := .i32) rfl (by decide) (fun hw => by
    exact ⟨by decide, opOk_zero, .inl (opOk_reg32z hw), opE_zero, by decide⟩)
  fun r hw ht hs hru hr => by
    have ea : r.a = _ := hr.a.trans (opOk_reg32z hw)
    simp [parse, parse101, ht, hs, hru, ea]

theorem collPartialArrival (op child : Nat) (vals : List Nat) (digests : List (Nat × Nat)) :
    Statement (.collPartialArrival op child vals digests) :=
  rtNone rfl

theorem collDigestArrival (op shard digest : Nat) : Statement (.collDigestArrival op shard digest) :=
  rtNone rfl

theorem collComplete (op : Nat) (vals : List Nat) : Statement (.collComplete op vals) :=
  rtNone rfl

theorem collTimeout (op : Nat) : Statement (.collTimeout op) :=
  rtNone rfl

theorem delowAckTimeout (port : Nat) : Statement (.delowAckTimeout port) :=
  rtNone rfl

theorem sbind (d a : Opnd) : Statement (.sbind d a) :=
  rtE (ty := .i32) rfl (by decide) (fun hw => by
    simp only [wf, Bool.and_eq_true, and_assoc] at hw
    obtain ⟨h1, h2⟩ := hw
    exact ⟨by decide, opOk_sreg h1, opE_z28 h2, opE_zero, immE_lt (opE_z28 h2)⟩)
  fun r hw ht hs hru hr => by
    simp only [wf, Bool.and_eq_true, and_assoc] at hw
    obtain ⟨h1, h2⟩ := hw
    have ed : r.d = _ := hr.d.trans (opOk_sreg h1)
    have ej := readsE_immA hr (opE_z28 h2)
    simp [parse, parse101, ht, hs, hru, ed, ej]

theorem sfree (d : Opnd) : Statement (.sfree d) :=
  rtE (ty := .i32) rfl (by decide) (fun hw => by
    exact ⟨by decide, opOk_sreg hw, opE_zero, opE_zero, by decide⟩)
  fun r hw ht hs hru hr => by
    have ed : r.d = _ := hr.d.trans (opOk_sreg hw)
    simp [parse, parse101, ht, hs, hru, ed]

theorem bra (off : BitVec 32) : Statement (.bra off) :=
  rtC rfl (by decide) (fun hw => by
    exact ⟨opOk_zero, opOk_zero, by decide⟩)
  fun r hr => by
    simp [parse, parse110, hr.off, hr.a, hr.b, hr.cflags]

theorem brx (a b : Opnd) : Statement (.brx a b) :=
  rtC rfl (by decide) (fun hw => by
    simp only [wf, Bool.and_eq_true, and_assoc] at hw
    exact ⟨opOk_range (by decide) hw.1, opOk_reg32z hw.2, by decide⟩)
  fun r hr => by
    simp [parse, parse110, hr.off, hr.a, hr.b, hr.cflags]

theorem call (off : BitVec 32) : Statement (.call off) :=
  rtC rfl (by decide) (fun hw => by
    exact ⟨opOk_zero, opOk_zero, by decide⟩)
  fun r hr => by
    simp [parse, parse110, hr.off, hr.a, hr.b, hr.cflags]

theorem callx (a b : Opnd) : Statement (.callx a b) :=
  rtC rfl (by decide) (fun hw => by
    simp only [wf, Bool.and_eq_true, and_assoc] at hw
    exact ⟨opOk_range (by decide) hw.1, opOk_reg32z hw.2, by decide⟩)
  fun r hr => by
    simp [parse, parse110, hr.off, hr.a, hr.b, hr.cflags]

theorem ret : Statement .ret :=
  rtC rfl (by decide) (fun hw => by
    exact ⟨opOk_zero, opOk_zero, by decide⟩)
  fun r hr => by
    simp [parse, parse110, hr.off, hr.a, hr.b, hr.cflags]

theorem join (pd a b : Opnd) : Statement (.join pd a b) := by
  intro h hh hw hg
  have hw' := hw
  simp only [wf, Bool.and_eq_true, and_assoc] at hw'
  obtain ⟨h1, h2, h3⟩ := hw'
  obtain ⟨k, rfl, hk⟩ : ∃ k, pd = .p k ∧ k < 8 := by
    cases pd <;> simp [Opnd.pdst] at h1
    exact ⟨_, rfl, h1.2⟩
  have e : (Opnd.p k).code - 0x280 = k := Nat.add_sub_cancel_left ..
  have hs : Statement (.join (.p k) a b) := rtC rfl (by decide) (fun _ => ⟨opOk_reg32z h2, opOk_reg32z h3, by rw [e]; omega⟩)
    fun r hr => by simp [parse, parse110, hr.a, hr.b, hr.cflags, e]
  exact hs h hh hw hg

theorem joinTimeout (g pc : Nat) : Statement (.joinTimeout g pc) :=
  rtNone rfl

theorem bse (n : Nat) (s : Opnd) (off : BitVec 32) : Statement (.bse n s off) :=
  rtC rfl (by decide) (fun hw => by
    simp only [wf, Bool.and_eq_true, and_assoc] at hw
    have := hw.1
    exact ⟨opOk_sreg hw.2, opOk_zero, by simp at this; omega⟩)
  fun r hr => by
    simp [parse, parse110, hr.off, hr.a, hr.b, hr.cflags]

theorem region (m : Masks) : Statement (.region m) :=
  rtR rfl (by decide) fun r hr => by simp [parse, parse110, hr]

theorem phase (m : Masks) : Statement (.phase m) :=
  rtR rfl (by decide) fun r hr => by simp [parse, parse110, hr]

theorem phaseResume (g : Nat) : Statement (.phaseResume g) :=
  rtNone rfl

theorem xacq : Statement .xacq :=
  rtC rfl (by decide) (fun hw => by
    exact ⟨opOk_zero, opOk_zero, by decide⟩)
  fun r hr => by
    simp [parse, parse110, hr.off, hr.a, hr.b, hr.cflags]

theorem xrel : Statement .xrel :=
  rtC rfl (by decide) (fun hw => by
    exact ⟨opOk_zero, opOk_zero, by decide⟩)
  fun r hr => by
    simp [parse, parse110, hr.off, hr.a, hr.b, hr.cflags]

theorem yield : Statement .yield :=
  rtC rfl (by decide) (fun hw => by
    exact ⟨opOk_zero, opOk_zero, by decide⟩)
  fun r hr => by
    simp [parse, parse110, hr.off, hr.a, hr.b, hr.cflags]

theorem nop : Statement .nop :=
  rtC rfl (by decide) (fun hw => by
    exact ⟨opOk_zero, opOk_zero, by decide⟩)
  fun r hr => by
    simp [parse, parse110, hr.off, hr.a, hr.b, hr.cflags]

theorem waitc : Statement .waitc :=
  rtC rfl (by decide) (fun hw => by
    exact ⟨opOk_zero, opOk_zero, by decide⟩)
  fun r hr => by
    simp [parse, parse110, hr.off, hr.a, hr.b, hr.cflags]

theorem exit : Statement .exit :=
  rtC rfl (by decide) (fun hw => by
    exact ⟨opOk_zero, opOk_zero, by decide⟩)
  fun r hr => by
    simp [parse, parse110, hr.off, hr.a, hr.b, hr.cflags]

theorem spawn (queue pin : Bool) (d a b : Opnd) : Statement (.spawn queue pin d a b) :=
  rtE (ty := .i32) rfl (by decide) (fun hw => by
    simp only [wf, Bool.and_eq_true, and_assoc] at hw
    obtain ⟨h1, h2, h3⟩ := hw
    exact ⟨by cases queue <;> cases pin <;> decide, opOk_range (by decide) h1, .inl (opOk_reg32z h2), .inl (opOk_range (by decide) h3), by decide⟩)
  fun r hw ht hs hru hr => by
    simp only [wf, Bool.and_eq_true, and_assoc] at hw
    obtain ⟨h1, h2, h3⟩ := hw
    have ed : r.d = _ := hr.d.trans (opOk_range (by decide) h1)
    have ea : r.a = _ := hr.a.trans (opOk_reg32z h2)
    have eb : r.b = _ := hr.b.trans (opOk_range (by decide) h3)
    have e0 : bit r.sub 0 = queue := by rw [hs]; cases queue <;> cases pin <;> rfl
    have e1 : bit r.sub 1 = pin := by rw [hs]; cases queue <;> cases pin <;> rfl
    simp [parse, parse110, ed, ea, eb, e0, e1]

theorem enqueueResume (g : Nat) : Statement (.enqueueResume g) :=
  rtNone rfl

theorem trap (code : Word) (a : Opnd) : Statement (.trap code a) :=
  rtC rfl (by decide) (fun hw => by
    exact ⟨opOk_reg32z hw, opOk_zero, by decide⟩)
  fun r hr => by
    simp [parse, parse110, hr.off, hr.a, hr.b, hr.cflags]

theorem bkpt (code : Word) (a : Opnd) : Statement (.bkpt code a) :=
  rtC rfl (by decide) (fun hw => by
    exact ⟨opOk_reg32z hw, opOk_zero, by decide⟩)
  fun r hr => by
    simp [parse, parse110, hr.off, hr.a, hr.b, hr.cflags]

theorem evpost (d a b : Opnd) : Statement (.evpost d a b) :=
  rtE (ty := .i32) rfl (by decide) (fun hw => by
    simp only [wf, Bool.and_eq_true, and_assoc] at hw
    obtain ⟨h1, h2, h3⟩ := hw
    exact ⟨by decide, opOk_reg32 h1, .inl (opOk_reg32z h2), opE_z28 h3, immE_lt (opE_z28 h3)⟩)
  fun r hw ht hs hru hr => by
    simp only [wf, Bool.and_eq_true, and_assoc] at hw
    obtain ⟨h1, h2, h3⟩ := hw
    have ed : r.d = _ := hr.d.trans (opOk_reg32 h1)
    have ea : r.a = _ := hr.a.trans (opOk_reg32z h2)
    have ei := readsE_immB hr (opE_z28 h3)
    simp [parse, parse111, ht, hs, hru, ed, ea, ei]

theorem evld (d a : Opnd) : Statement (.evld d a) :=
  rtE (ty := .i32) rfl (by decide) (fun hw => by
    simp only [wf, Bool.and_eq_true, and_assoc] at hw
    obtain ⟨h1, h2⟩ := hw
    exact ⟨by decide, opOk_range (by decide) h1, .inl (opOk_range (by decide) h2), opE_zero, by decide⟩)
  fun r hw ht hs hru hr => by
    simp only [wf, Bool.and_eq_true, and_assoc] at hw
    obtain ⟨h1, h2⟩ := hw
    have ed : r.d = _ := hr.d.trans (opOk_range (by decide) h1)
    have ea : r.a = _ := hr.a.trans (opOk_range (by decide) h2)
    simp [parse, parse111, ht, hs, hru, ed, ea]

theorem evrel (a : Opnd) : Statement (.evrel a) :=
  rtE (ty := .i32) rfl (by decide) (fun hw => by
    exact ⟨by decide, opOk_zero, .inl (opOk_range (n := 2) (by decide) hw), opE_zero, by decide⟩)
  fun r hw ht hs hru hr => by
    have ea : r.a = _ := hr.a.trans (opOk_range (n := 2) (by decide) hw)
    simp [parse, parse111, ht, hs, hru, ea]

theorem wmark (a b : Opnd) : Statement (.wmark a b) :=
  rtE (ty := .i32) rfl (by decide) (fun hw => by
    simp only [wf, Bool.and_eq_true, and_assoc] at hw
    obtain ⟨h1, h2⟩ := hw
    exact ⟨by decide, opOk_zero, .inl (opOk_range (by decide) h1), opE_z28 h2, immE_lt (opE_z28 h2)⟩)
  fun r hw ht hs hru hr => by
    simp only [wf, Bool.and_eq_true, and_assoc] at hw
    obtain ⟨h1, h2⟩ := hw
    have ea : r.a = _ := hr.a.trans (opOk_range (by decide) h1)
    have ei := readsE_immB hr (opE_z28 h2)
    simp [parse, parse111, ht, hs, hru, ea, ei]

theorem autld (d a : Opnd) : Statement (.autld d a) :=
  rtE (ty := .i32) rfl (by decide) (fun hw => by
    simp only [wf, Bool.and_eq_true, and_assoc] at hw
    obtain ⟨h1, h2⟩ := hw
    exact ⟨by decide, opOk_reg32 h1, .inl (opOk_reg32z h2), opE_zero, by decide⟩)
  fun r hw ht hs hru hr => by
    simp only [wf, Bool.and_eq_true, and_assoc] at hw
    obtain ⟨h1, h2⟩ := hw
    have ed : r.d = _ := hr.d.trans (opOk_reg32 h1)
    have ea : r.a = _ := hr.a.trans (opOk_reg32z h2)
    simp [parse, parse111, ht, hs, hru, ed, ea]

theorem autctlStop (d a : Opnd) : Statement (.autctlStop d a) :=
  rtE (ty := .i32) rfl (by decide) (fun hw => by
    simp only [wf, Bool.and_eq_true, and_assoc] at hw
    obtain ⟨h1, h2⟩ := hw
    exact ⟨by decide, opOk_reg32 h1, .inl (opOk_reg32z h2), opE_zero, by decide⟩)
  fun r hw ht hs hru hr => by
    simp only [wf, Bool.and_eq_true, and_assoc] at hw
    obtain ⟨h1, h2⟩ := hw
    have ed : r.d = _ := hr.d.trans (opOk_reg32 h1)
    have ea : r.a = _ := hr.a.trans (opOk_reg32z h2)
    simp [parse, parse111, ht, hs, hru, ed, ea, parAutctl]

theorem autctlResume (d a : Opnd) : Statement (.autctlResume d a) :=
  rtE (ty := .i32) rfl (by decide) (fun hw => by
    simp only [wf, Bool.and_eq_true, and_assoc] at hw
    obtain ⟨h1, h2⟩ := hw
    exact ⟨by decide, opOk_reg32 h1, .inl (opOk_reg32z h2), opE_zero, by decide⟩)
  fun r hw ht hs hru hr => by
    simp only [wf, Bool.and_eq_true, and_assoc] at hw
    obtain ⟨h1, h2⟩ := hw
    have ed : r.d = _ := hr.d.trans (opOk_reg32 h1)
    have ea : r.a = _ := hr.a.trans (opOk_reg32z h2)
    simp [parse, parse111, ht, hs, hru, ed, ea, parAutctl]

theorem autctlCkpt (d a b : Opnd) : Statement (.autctlCkpt d a b) :=
  rtE (ty := .i32) rfl (by decide) (fun hw => by
    simp only [wf, Bool.and_eq_true, and_assoc] at hw
    obtain ⟨h1, h2, h3⟩ := hw
    exact ⟨by decide, opOk_reg32 h1, .inl (opOk_reg32z h2), .inl (opOk_range (by decide) h3), by decide⟩)
  fun r hw ht hs hru hr => by
    simp only [wf, Bool.and_eq_true, and_assoc] at hw
    obtain ⟨h1, h2, h3⟩ := hw
    have ed : r.d = _ := hr.d.trans (opOk_reg32 h1)
    have ea : r.a = _ := hr.a.trans (opOk_reg32z h2)
    have eb : r.b = _ := hr.b.trans (opOk_range (by decide) h3)
    simp [parse, parse111, ht, hs, hru, ed, ea, eb, parAutctl]

theorem autctlRemove (d a : Opnd) : Statement (.autctlRemove d a) :=
  rtE (ty := .i32) rfl (by decide) (fun hw => by
    simp only [wf, Bool.and_eq_true, and_assoc] at hw
    obtain ⟨h1, h2⟩ := hw
    exact ⟨by decide, opOk_reg32 h1, .inl (opOk_reg32z h2), opE_zero, by decide⟩)
  fun r hw ht hs hru hr => by
    simp only [wf, Bool.and_eq_true, and_assoc] at hw
    obtain ⟨h1, h2⟩ := hw
    have ed : r.d = _ := hr.d.trans (opOk_reg32 h1)
    have ea : r.a = _ := hr.a.trans (opOk_reg32z h2)
    simp [parse, parse111, ht, hs, hru, ed, ea, parAutctl]

theorem autctlCount (d a : Opnd) : Statement (.autctlCount d a) :=
  rtE (ty := .i32) rfl (by decide) (fun hw => by
    simp only [wf, Bool.and_eq_true, and_assoc] at hw
    obtain ⟨h1, h2⟩ := hw
    exact ⟨by decide, opOk_rangeX (by decide) h1, .inl (opOk_reg32z h2), opE_zero, by decide⟩)
  fun r hw ht hs hru hr => by
    simp only [wf, Bool.and_eq_true, and_assoc] at hw
    obtain ⟨h1, h2⟩ := hw
    have ed : r.d = _ := hr.d.trans (opOk_rangeX (by decide) h1)
    have ea : r.a = _ := hr.a.trans (opOk_reg32z h2)
    simp [parse, parse111, ht, hs, hru, ed, ea, parAutctl]

theorem autctlOpen (d a : Opnd) : Statement (.autctlOpen d a) :=
  rtE (ty := .i32) rfl (by decide) (fun hw => by
    simp only [wf, Bool.and_eq_true, and_assoc] at hw
    obtain ⟨h1, h2⟩ := hw
    exact ⟨by decide, opOk_reg32 h1, .inl (opOk_reg32z h2), opE_zero, by decide⟩)
  fun r hw ht hs hru hr => by
    simp only [wf, Bool.and_eq_true, and_assoc] at hw
    obtain ⟨h1, h2⟩ := hw
    have ed : r.d = _ := hr.d.trans (opOk_reg32 h1)
    have ea : r.a = _ := hr.a.trans (opOk_reg32z h2)
    simp [parse, parse111, ht, hs, hru, ed, ea, parAutctl]

theorem autctlClose (d a : Opnd) : Statement (.autctlClose d a) :=
  rtE (ty := .i32) rfl (by decide) (fun hw => by
    simp only [wf, Bool.and_eq_true, and_assoc] at hw
    obtain ⟨h1, h2⟩ := hw
    exact ⟨by decide, opOk_reg32 h1, .inl (opOk_reg32z h2), opE_zero, by decide⟩)
  fun r hw ht hs hru hr => by
    simp only [wf, Bool.and_eq_true, and_assoc] at hw
    obtain ⟨h1, h2⟩ := hw
    have ed : r.d = _ := hr.d.trans (opOk_reg32 h1)
    have ea : r.a = _ := hr.a.trans (opOk_reg32z h2)
    simp [parse, parse111, ht, hs, hru, ed, ea, parAutctl]

theorem sysrd (d a : Opnd) : Statement (.sysrd d a) :=
  rtE (ty := .n32) rfl (by decide) (fun hw => by
    simp only [wf, Bool.and_eq_true, and_assoc] at hw
    obtain ⟨h1, h2⟩ := hw
    exact ⟨by decide, opOk_reg32 h1, opE_r28 h2, opE_zero, immE_lt (opE_r28 h2)⟩)
  fun r hw ht hs hru hr => by
    simp only [wf, Bool.and_eq_true, and_assoc] at hw
    obtain ⟨h1, h2⟩ := hw
    have ed : r.d = _ := hr.d.trans (opOk_reg32 h1)
    have ej := readsE_immA hr (opE_r28 h2)
    simp [parse, parse111, ht, hs, hru, ed, ej]

theorem syswrGctl (d a b : Opnd) : Statement (.syswrGctl d a b) :=
  rtE (ty := .i32) rfl (by decide) (fun hw => by
    simp only [wf, Bool.and_eq_true, and_assoc] at hw
    obtain ⟨h1, h2, h3⟩ := hw
    exact ⟨by decide, opOk_reg32 h1, opE_sel h3, .inl (opOk_reg32z h2), immE_lt (opE_sel h3)⟩)
  fun r hw ht hs hru hr => by
    simp only [wf, Bool.and_eq_true, and_assoc] at hw
    obtain ⟨h1, h2, h3⟩ := hw
    have ed : r.d = _ := hr.d.trans (opOk_reg32 h1)
    have eb : r.b = _ := hr.b.trans (opOk_reg32z h2)
    have ej := readsE_immA hr (opE_sel h3)
    simp [parse, parse111, ed, eb, ej, parSyswr_sel h3]

theorem syswrContextSet (d b : Opnd) : Statement (.syswrContextSet d b) :=
  rtE (a := .imm 0x100) (ty := .i32) rfl (by decide) (fun hw => by
    simp only [wf, Bool.and_eq_true, and_assoc] at hw
    obtain ⟨h1, h2⟩ := hw
    exact ⟨by decide, opOk_reg32 h1, .inr rfl, .inl (opOk_reg32z h2), by decide⟩)
  fun r hw ht hs hru hr => by
    simp only [wf, Bool.and_eq_true, and_assoc] at hw
    obtain ⟨h1, h2⟩ := hw
    have ed : r.d = _ := hr.d.trans (opOk_reg32 h1)
    have eb : r.b = _ := hr.b.trans (opOk_reg32z h2)
    have ej : immOr r r.a 40 = .imm 0x100 := readsE_immA hr (.inr rfl)
    simp [parse, parse111, ed, eb, ej, parSyswr]

theorem syswrInvalidate (d b : Opnd) : Statement (.syswrInvalidate d b) :=
  rtE (a := .imm 0x101) (ty := .i32) rfl (by decide) (fun hw => by
    simp only [wf, Bool.and_eq_true, and_assoc] at hw
    obtain ⟨h1, h2⟩ := hw
    exact ⟨by decide, opOk_reg32 h1, .inr rfl, .inl (opOk_reg32z h2), by decide⟩)
  fun r hw ht hs hru hr => by
    simp only [wf, Bool.and_eq_true, and_assoc] at hw
    obtain ⟨h1, h2⟩ := hw
    have ed : r.d = _ := hr.d.trans (opOk_reg32 h1)
    have eb : r.b = _ := hr.b.trans (opOk_reg32z h2)
    have ej : immOr r r.a 40 = .imm 0x101 := readsE_immA hr (.inr rfl)
    simp [parse, parse111, ed, eb, ej, parSyswr]

theorem syswrMigrate (d b : Opnd) : Statement (.syswrMigrate d b) :=
  rtE (a := .imm 0x102) (ty := .i32) rfl (by decide) (fun hw => by
    simp only [wf, Bool.and_eq_true, and_assoc] at hw
    obtain ⟨h1, h2⟩ := hw
    exact ⟨by decide, opOk_reg32 h1, .inr rfl, .inl (opOk_reg32z h2), by decide⟩)
  fun r hw ht hs hru hr => by
    simp only [wf, Bool.and_eq_true, and_assoc] at hw
    obtain ⟨h1, h2⟩ := hw
    have ed : r.d = _ := hr.d.trans (opOk_reg32 h1)
    have eb : r.b = _ := hr.b.trans (opOk_reg32z h2)
    have ej : immOr r r.a 40 = .imm 0x102 := readsE_immA hr (.inr rfl)
    simp [parse, parse111, ed, eb, ej, parSyswr]

theorem syswrContextStop (d b : Opnd) : Statement (.syswrContextStop d b) :=
  rtE (a := .imm 0x103) (ty := .i32) rfl (by decide) (fun hw => by
    simp only [wf, Bool.and_eq_true, and_assoc] at hw
    obtain ⟨h1, h2⟩ := hw
    exact ⟨by decide, opOk_reg32 h1, .inr rfl, .inl (opOk_reg32z h2), by decide⟩)
  fun r hw ht hs hru hr => by
    simp only [wf, Bool.and_eq_true, and_assoc] at hw
    obtain ⟨h1, h2⟩ := hw
    have ed : r.d = _ := hr.d.trans (opOk_reg32 h1)
    have eb : r.b = _ := hr.b.trans (opOk_reg32z h2)
    have ej : immOr r r.a 40 = .imm 0x103 := readsE_immA hr (.inr rfl)
    simp [parse, parse111, ed, eb, ej, parSyswr]

theorem syswrContextResume (d b : Opnd) : Statement (.syswrContextResume d b) :=
  rtE (a := .imm 0x104) (ty := .i32) rfl (by decide) (fun hw => by
    simp only [wf, Bool.and_eq_true, and_assoc] at hw
    obtain ⟨h1, h2⟩ := hw
    exact ⟨by decide, opOk_reg32 h1, .inr rfl, .inl (opOk_reg32z h2), by decide⟩)
  fun r hw ht hs hru hr => by
    simp only [wf, Bool.and_eq_true, and_assoc] at hw
    obtain ⟨h1, h2⟩ := hw
    have ed : r.d = _ := hr.d.trans (opOk_reg32 h1)
    have eb : r.b = _ := hr.b.trans (opOk_reg32z h2)
    have ej : immOr r r.a 40 = .imm 0x104 := readsE_immA hr (.inr rfl)
    simp [parse, parse111, ed, eb, ej, parSyswr]

theorem syswrGroup (d b : Opnd) : Statement (.syswrGroup d b) :=
  rtE (a := .imm 0x105) (ty := .i32) rfl (by decide) (fun hw => by
    simp only [wf, Bool.and_eq_true, and_assoc] at hw
    obtain ⟨h1, h2⟩ := hw
    exact ⟨by decide, opOk_reg32 h1, .inr rfl, .inl (opOk_reg32z h2), by decide⟩)
  fun r hw ht hs hru hr => by
    simp only [wf, Bool.and_eq_true, and_assoc] at hw
    obtain ⟨h1, h2⟩ := hw
    have ed : r.d = _ := hr.d.trans (opOk_reg32 h1)
    have eb : r.b = _ := hr.b.trans (opOk_reg32z h2)
    have ej : immOr r r.a 40 = .imm 0x105 := readsE_immA hr (.inr rfl)
    simp [parse, parse111, ed, eb, ej, parSyswr]

theorem syswrQueueCreate (d b : Opnd) : Statement (.syswrQueueCreate d b) :=
  rtE (a := .imm 0x106) (ty := .i32) rfl (by decide) (fun hw => by
    simp only [wf, Bool.and_eq_true, and_assoc] at hw
    obtain ⟨h1, h2⟩ := hw
    exact ⟨by decide, opOk_reg32 h1, .inr rfl, .inl (opOk_reg32z h2), by decide⟩)
  fun r hw ht hs hru hr => by
    simp only [wf, Bool.and_eq_true, and_assoc] at hw
    obtain ⟨h1, h2⟩ := hw
    have ed : r.d = _ := hr.d.trans (opOk_reg32 h1)
    have eb : r.b = _ := hr.b.trans (opOk_reg32z h2)
    have ej : immOr r r.a 40 = .imm 0x106 := readsE_immA hr (.inr rfl)
    simp [parse, parse111, ed, eb, ej, parSyswr]

theorem syswrQueueDestroy (d b : Opnd) : Statement (.syswrQueueDestroy d b) :=
  rtE (a := .imm 0x107) (ty := .i32) rfl (by decide) (fun hw => by
    simp only [wf, Bool.and_eq_true, and_assoc] at hw
    obtain ⟨h1, h2⟩ := hw
    exact ⟨by decide, opOk_reg32 h1, .inr rfl, .inl (opOk_reg32z h2), by decide⟩)
  fun r hw ht hs hru hr => by
    simp only [wf, Bool.and_eq_true, and_assoc] at hw
    obtain ⟨h1, h2⟩ := hw
    have ed : r.d = _ := hr.d.trans (opOk_reg32 h1)
    have eb : r.b = _ := hr.b.trans (opOk_reg32z h2)
    have ej : immOr r r.a 40 = .imm 0x107 := readsE_immA hr (.inr rfl)
    simp [parse, parse111, ed, eb, ej, parSyswr]

theorem syswrQueueSwap (d b : Opnd) : Statement (.syswrQueueSwap d b) :=
  rtE (a := .imm 0x108) (ty := .i32) rfl (by decide) (fun hw => by
    simp only [wf, Bool.and_eq_true, and_assoc] at hw
    obtain ⟨h1, h2⟩ := hw
    exact ⟨by decide, opOk_reg32 h1, .inr rfl, .inl (opOk_reg32z h2), by decide⟩)
  fun r hw ht hs hru hr => by
    simp only [wf, Bool.and_eq_true, and_assoc] at hw
    obtain ⟨h1, h2⟩ := hw
    have ed : r.d = _ := hr.d.trans (opOk_reg32 h1)
    have eb : r.b = _ := hr.b.trans (opOk_reg32z h2)
    have ej : immOr r r.a 40 = .imm 0x108 := readsE_immA hr (.inr rfl)
    simp [parse, parse111, ed, eb, ej, parSyswr]

theorem ccnt (ty : Ty) (d : Opnd) : Statement (.ccnt ty d) :=
  rtE rfl (by decide) (fun hw => by
    exact ⟨by decide, ok_ccnt hw, opE_zero, opE_zero, by decide⟩)
  fun r hw ht hs hru hr => by
    have ed : r.d = _ := hr.d.trans (ok_ccnt hw)
    simp [parse, parse111, ht, ed]

theorem rand (ty : Ty) (d : Opnd) : Statement (.rand ty d) :=
  rtE rfl (by decide) (fun hw => by
    exact ⟨by decide, ok_rand hw, opE_zero, opE_zero, by decide⟩)
  fun r hw ht hs hru hr => by
    have ed : r.d = _ := hr.d.trans (ok_rand hw)
    simp [parse, parse111, ht, ed]

theorem tokwait : Statement .tokwait :=
  rtE (ty := .i32) rfl (by decide) (fun hw => by
    exact ⟨by decide, opOk_zero, opE_zero, opE_zero, by decide⟩)
  fun r hw ht hs hru hr => by
    simp [parse, parse111, ht, hs, hru]

theorem tokpass : Statement .tokpass :=
  rtE (ty := .i32) rfl (by decide) (fun hw => by
    exact ⟨by decide, opOk_zero, opE_zero, opE_zero, by decide⟩)
  fun r hw ht hs hru hr => by
    simp [parse, parse111, ht, hs, hru]

theorem psnt (ty : Ty) (pd a : Opnd) : Statement (.psnt ty pd a) :=
  rtE rfl (by decide) (fun hw => by
    have h := ok_psnt hw
    exact ⟨by decide, h.1, .inl h.2, opE_zero, by decide⟩)
  fun r hw ht hs hru hr => by
    have h := ok_psnt hw
    have ed : r.d = _ := hr.d.trans h.1
    have ea : r.a = _ := hr.a.trans h.2
    simp [parse, parse111, ht, hs, ed, ea]

theorem psntClr (ty : Ty) (d a : Opnd) : Statement (.psntClr ty d a) :=
  rtE rfl (by decide) (fun hw => by
    have h := ok_psntClr hw
    exact ⟨by decide, h.1, .inl h.2, opE_zero, by decide⟩)
  fun r hw ht hs hru hr => by
    have h := ok_psntClr hw
    have ed : r.d = _ := hr.d.trans h.1
    have ea : r.a = _ := hr.a.trans h.2
    simp [parse, parse111, ht, hs, ed, ea]

theorem illegalInstruction : Statement .illegalInstruction :=
  rtNone rfl

theorem loadResultReturn (g idx sector : Nat) : Statement (.loadResultReturn g idx sector) :=
  rtNone rfl

theorem tlbWalkComplete (g : Nat) : Statement (.tlbWalkComplete g) :=
  rtNone rfl

theorem gatherWindowClose (part idx : Nat) : Statement (.gatherWindowClose part idx) :=
  rtNone rfl

theorem pendingOvfRetry (part idx : Nat) : Statement (.pendingOvfRetry part idx) :=
  rtNone rfl

theorem timeSliceExpiry (core pasid : Nat) : Statement (.timeSliceExpiry core pasid) :=
  rtNone rfl

theorem teamEviction (core : Nat) : Statement (.teamEviction core) :=
  rtNone rfl

theorem taskDispatch (core : Nat) : Statement (.taskDispatch core) :=
  rtNone rfl

theorem clusterReserveRequest (core : Nat) : Statement (.clusterReserveRequest core) :=
  rtNone rfl

theorem clusterReserveGrant (core : Nat) : Statement (.clusterReserveGrant core) :=
  rtNone rfl

theorem balanceExchange (part : Nat) : Statement (.balanceExchange part) :=
  rtNone rfl

theorem launchRequest (part : Nat) : Statement (.launchRequest part) :=
  rtNone rfl

theorem automatonEventStep (quarter slot : Nat) : Statement (.automatonEventStep quarter slot) :=
  rtNone rfl

theorem dropExpiredPass (quarter slot : Nat) : Statement (.dropExpiredPass quarter slot) :=
  rtNone rfl

theorem matchEngineStateError (quarter : Nat) : Statement (.matchEngineStateError quarter) :=
  rtNone rfl

theorem epochBoundary (part : Nat) : Statement (.epochBoundary part) :=
  rtNone rfl

theorem eventPacketPost (link port slot : Nat) (pasid : Option Nat) (pkt : Packet) :
    Statement (.eventPacketPost link port slot pasid pkt) :=
  rtNone rfl

theorem eventPacketWatermark (link port slot : Nat) (pasid : Option Nat) (pkt : Packet) :
    Statement (.eventPacketWatermark link port slot pasid pkt) :=
  rtNone rfl

theorem remapHoldoffExpiry (link entry : Nat) : Statement (.remapHoldoffExpiry link entry) :=
  rtNone rfl

theorem refusalWindowClose (link port : Nat) : Statement (.refusalWindowClose link port) :=
  rtNone rfl

theorem slotcntRead (link port slot : Nat) (pasid : Option Nat) : Statement (.slotcntRead link port slot pasid) :=
  rtNone rfl

theorem slotBadRead (link port slot : Nat) (pasid : Option Nat) (off len : Nat) :
    Statement (.slotBadRead link port slot pasid off len) :=
  rtNone rfl

theorem barUnsupportedAccess (acc : BarAccess) : Statement (.barUnsupportedAccess acc) :=
  rtNone rfl

theorem mbstatWrite (link : Nat) (v : Word) : Statement (.mbstatWrite link v) :=
  rtNone rfl

theorem registerWrite (link off : Nat) (v : Word) : Statement (.registerWrite link off v) :=
  rtNone rfl

theorem partCreate (link : Nat) : Statement (.partCreate link) :=
  rtNone rfl

theorem partDestroy (link : Nat) : Statement (.partDestroy link) :=
  rtNone rfl

theorem partQuarters (link : Nat) : Statement (.partQuarters link) :=
  rtNone rfl

theorem delowPorts (link : Nat) : Statement (.delowPorts link) :=
  rtNone rfl

theorem routeSet (link : Nat) : Statement (.routeSet link) :=
  rtNone rfl

theorem evportSet (link : Nat) : Statement (.evportSet link) :=
  rtNone rfl

theorem slotSet (link : Nat) : Statement (.slotSet link) :=
  rtNone rfl

theorem remapSet (link : Nat) : Statement (.remapSet link) :=
  rtNone rfl

theorem streamAssign (link : Nat) : Statement (.streamAssign link) :=
  rtNone rfl

theorem pasidAdd (link : Nat) : Statement (.pasidAdd link) :=
  rtNone rfl

theorem pasidRevoke (link : Nat) : Statement (.pasidRevoke link) :=
  rtNone rfl

theorem keySet (link : Nat) : Statement (.keySet link) :=
  rtNone rfl

theorem keyClear (link : Nat) : Statement (.keyClear link) :=
  rtNone rfl

theorem rangeSet (link : Nat) : Statement (.rangeSet link) :=
  rtNone rfl

theorem setWorld (link : Nat) : Statement (.setWorld link) :=
  rtNone rfl

theorem resetGroup (link : Nat) : Statement (.resetGroup link) :=
  rtNone rfl

theorem resetTeam (link : Nat) : Statement (.resetTeam link) :=
  rtNone rfl

theorem resetCore (link : Nat) : Statement (.resetCore link) :=
  rtNone rfl

theorem resetQuarter (link : Nat) : Statement (.resetQuarter link) :=
  rtNone rfl

theorem resetPartition (link : Nat) : Statement (.resetPartition link) :=
  rtNone rfl

theorem resetMatchEngine (link : Nat) : Statement (.resetMatchEngine link) :=
  rtNone rfl

theorem resetDelowPort (link : Nat) : Statement (.resetDelowPort link) :=
  rtNone rfl

theorem resetPcieFunction (link : Nat) : Statement (.resetPcieFunction link) :=
  rtNone rfl

theorem quote (link : Nat) : Statement (.quote link) :=
  rtNone rfl

theorem patch (link : Nat) : Statement (.patch link) :=
  rtNone rfl

theorem energySet (link : Nat) : Statement (.energySet link) :=
  rtNone rfl

theorem replicaSet (link : Nat) : Statement (.replicaSet link) :=
  rtNone rfl

theorem info (link : Nat) : Statement (.info link) :=
  rtNone rfl

theorem replicaDigestArrival (part digest : Nat) : Statement (.replicaDigestArrival part digest) :=
  rtNone rfl

theorem replicaTimeout (part : Nat) : Statement (.replicaTimeout part) :=
  rtNone rfl

theorem powerOn : Statement .powerOn :=
  rtNone rfl

theorem perstNReleaseLink0 : Statement .perstNReleaseLink0 :=
  rtNone rfl

theorem perstNLink1 (assert : Bool) : Statement (.perstNLink1 assert) :=
  rtNone rfl

theorem pwrfail : Statement .pwrfail :=
  rtNone rfl

theorem thermtrip : Statement .thermtrip :=
  rtNone rfl

theorem powerLimitExceeded (watts : Nat) : Statement (.powerLimitExceeded watts) :=
  rtNone rfl

theorem thermalLimit (eighths : Nat) : Statement (.thermalLimit eighths) :=
  rtNone rfl

theorem thermalHardLimit (eighths : Nat) : Statement (.thermalHardLimit eighths) :=
  rtNone rfl

theorem currentLimit : Statement .currentLimit :=
  rtNone rfl

theorem stepRecovery : Statement .stepRecovery :=
  rtNone rfl

theorem stepChangeComplete : Statement .stepChangeComplete :=
  rtNone rfl

theorem packageTimerTick : Statement .packageTimerTick :=
  rtNone rfl

theorem energyWindowEnd : Statement .energyWindowEnd :=
  rtNone rfl

theorem pcieLinkDown (link : Nat) : Statement (.pcieLinkDown link) :=
  rtNone rfl

theorem hotReset (link : Nat) : Statement (.hotReset link) :=
  rtNone rfl

theorem functionLevelReset (link : Nat) : Statement (.functionLevelReset link) :=
  rtNone rfl

theorem atsInvalidation (link pasid va pages : Nat) : Statement (.atsInvalidation link pasid va pages) :=
  rtNone rfl

theorem atsCompletion (link tag addr : Nat) (read write : Bool) :
    Statement (.atsCompletion link tag addr read write) :=
  rtNone rfl

theorem hostReadCompletion (link tag : Nat) (data : List Byte) : Statement (.hostReadCompletion link tag data) :=
  rtNone rfl

theorem dieLinkCrcError (dlink : Nat) : Statement (.dieLinkCrcError dlink) :=
  rtNone rfl

theorem dieLinkReplayWindow : Statement .dieLinkReplayWindow :=
  rtNone rfl

theorem delowFlitReceive (port : Nat) (bytes : List Byte) : Statement (.delowFlitReceive port bytes) :=
  rtNone rfl

theorem delowRetrainComplete (port : Nat) (ok : Bool) : Statement (.delowRetrainComplete port ok) :=
  rtNone rfl

theorem uncorrectableError (cls target loc : Nat) : Statement (.uncorrectableError cls target loc) :=
  rtNone rfl

theorem pcieLinkUp (link : Nat) (retraining : Bool) : Statement (.pcieLinkUp link retraining) :=
  rtNone rfl

theorem perstNAssertLink0 : Statement .perstNAssertLink0 :=
  rtNone rfl

theorem delowPortUp (port : Nat) : Statement (.delowPortUp port) :=
  rtNone rfl

theorem correctedError (cls target loc : Nat) : Statement (.correctedError cls target loc) :=
  rtNone rfl

end Sys2Proof.Laws.RoundTrip
end

