-- ==== Sys2Proof/Tests/Slice0.lean ====
section
/-! SUPPORT. Tests of single operations, with results worked out from the manual; and for every statement states and operands
that meet its hypotheses. -/

namespace Sys2Proof.Tests

open Sys2Proof Sys2Proof.Machine

/-! Well-formedness: an ill-formed term for each check. -/

/-- Types that an entry does not have (R361, R382, R389, R401). -/
theorem test_wf_types :
    ([.iadd .f32 Flags.none (.x 1) (.x 2) (.x 3), .and .pred (.x 1) (.x 2) (.x 3), .iabs .n32 false (.x 1) (.x 2),
      .popc .f32 (.x 1) (.x 2), .brev .bf16x2 (.x 1) (.x 2), .mov .e4m3 (.x 1) (.x 2), .movi .f32iv (.x 2) 0,
      .imad .f64 Flags.none (.x 2) (.x 4) (.x 6) (.x 8), .imadw .i64 false (.x 2) (.x 4) (.x 6) (.x 8), .lea .n64 0 (.x 2) (.x 4) (.x 6),
      .bfi .f32 (.x 1) (.x 2) (.x 3) (.x 4), .prmt .n64 (.x 2) (.x 4) (.x 6) (.x 8), .ladd .n64 (.x 2) (.x 4) (.x 6) (.p 1),
      .sel .f32iv (.x 2) (.x 4) (.x 6) (.p 1), .icmp .f32 .eq Flags.none (.p 1) (.x 1) (.x 2), .shfl .f32iv .idx (.x 2) (.x 4) (.x 6),
      .redux .f32 .add (.x 1) (.x 2), .fadd .i32 .rne Flags.none (.x 1) (.x 2) (.x 3), .fdiv .bf16x2 .rne Flags.none (.x 1) (.x 2) (.x 3),
      .fcmp .bf16x2 .eq Flags.none (.p 1) (.x 1) (.x 2), .fsqrt .bf16x2 .rne Flags.none (.x 1) (.x 2), .frnd .i32 .rne Flags.none (.x 1) (.x 2),
      .fclass .i32 Flags.none (.x 1) (.x 2), .fscale .i32 .rne Flags.none (.x 1) (.x 2) (.x 3), .ivadd .f32 (.x 2) (.x 4) (.x 6),
      .ivmake .f64 (.x 2) (.x 4) (.x 6), .ivlo .f32 (.x 2) (.x 4), .ivcmp .i32 .eq (.p 1) (.x 2) (.x 4), .cvt .f32 .f32 0 .rne Flags.none (.x 1) (.x 2),
      .cvt .e4m3 .f32 0 .rne Flags.none (.x 1) (.x 2), .pack .f32 0 .rne Flags.none (.x 1) (.x 2) (.x 3) .zero, .unpk .f64 0 (.x 2) (.x 4),
      .ld .f32iv .full .ca (.x 2) (.x 4) .zero 0, .ldiv .f32 .ca (.x 2) (.x 4) .zero 0, .atom .f32 .add .dev false (.x 1) (.x 2) (.x 3) 0,
      .atom .i32 .fadd .dev false (.x 1) (.x 2) (.x 3) 0, .atom .f32 .hull .dev false (.x 1) (.x 2) (.x 3) 0, .mma .f32 false false (.x 0) (.x 64) (.x 1),
      .ccnt .i32 (.x 1), .rand .f64 (.x 2), .psnt .f32 (.p 1) (.x 2), .psntClr .i64 (.x 2) (.x 4)] : List Instr).all (fun i => !wf i) = true := by
  decide

/-- Registers outside their level, ranges that are not aligned, and levels that an operand may not have (R17, R141, R351, R359). -/
theorem test_wf_operands :
    ([.iadd .i32 Flags.none (.x 256) (.x 2) (.x 3), .iadd .i32 Flags.none (.w 384) (.x 2) (.x 3), .iadd .i64 Flags.none (.x 3) (.x 2) (.x 4),
      .iadd .i64 Flags.none (.x 2) (.s 0) (.x 4), .iadd .i32 Flags.none .zero (.x 2) (.x 3), .iadd .i32 Flags.none (.c 8) (.x 2) (.x 3),
      .iadd .i32 Flags.none (.x 1) (.imm 1) (.x 3), .iadd .i32 Flags.none (.s 8) (.x 2) (.x 3), .imad .i32 Flags.none (.x 1) (.x 2) (.x 128) (.imm 1),
      .ladd .i32 (.x 1) (.x 2) (.x 3) (.p 0), .sel .i32 (.x 1) (.x 2) (.x 3) (.p 8), .icmp .i32 .eq Flags.none (.p 0) (.x 1) (.x 2),
      .vote .all (.x 1) (.p 1), .vote .ballot (.p 1) (.p 1), .elect (.p 0), .pand false false (.p 1) (.x 1) (.p 2), .pnot false (.p 0) (.p 1),
      .pset (.p 0) (.x 1), .pdef (.p 1) (.p 2), .ptest 0 (.p 1) (.p 2), .ptest 8 (.p 1) (.p 2), .lea .i32 8 (.x 2) (.x 4) (.x 6),
      .ivadd .f32iv (.x 3) (.x 4) (.x 6), .ivadd .f64iv (.x 2) (.x 4) (.x 8), .ivadd .f32iv (.x 2) (.s 0) (.x 6), .ivpt .f32iv (.x 2) (.s 0),
      .ivin .f32iv (.p 1) (.s 1) (.x 2), .ivbis .f64iv (.x 4) (.x 8) (.x 1) .zero, .ivemp .f32iv (.p 0) (.x 2), .ivsubs .f32iv (.p 1) (.x 3) (.x 4),
      .qst 8 0 .ca (.x 1) (.w 2) .zero 0, .qst 0 4 .ca (.x 1) (.w 2) .zero 0, .qst 0 1 .ca (.w 2) (.w 2) .zero 0, .qst 0 0 .ca (.x 1) (.x 2) .zero 0,
      .qst 0 0 .ca (.x 1) (.w 3) .zero 0, .qst 0 0 .ca (.x 1) (.w 2) (.x 1) 0, .qaxis false false (.e 8), .qclr (.x 1), .qget (.e 1) (.e 2), .qset (.e 1) (.e 2),
      .ld .n32 .full .ca (.x 1) (.x 3) .zero 0, .ld .n64 .b8 .ca (.x 2) (.x 4) .zero 0, .st .n32 .full .ca (.x 1) (.x 2) (.p 1) 0,
      .ldl .n32 .full .ca (.x 1) (.p 1) .zero 0, .atom .i32 .cas .dev true .zero (.x 2) (.x 3) 0, .atom .i32 .add .dev true (.x 1) (.x 2) (.x 3) 0,
      .pref .ca (.x 1) .zero 0, .bind (.p 1) (.x 2) (.x 4) 0, .unbind (.imm 1), .acq .team (.p 1), .rel .team (.s 1)] : List Instr).all (fun i => !wf i) = true := by
  decide

/-- The rest of the operand checks (R238, R345, R349, R372 to R378, R411 to R427). -/
theorem test_wf_more_operands :
    ([.sinit .lock (.x 1) (.imm 0x10000000), .sarr .team (.p 1) (.x 2), .sexp (.x 1) (.p 2), .swait (.p 0) (.x 1) (.x 2) 0, .stry (.x 1) (.x 2) (.x 3),
      .bcopyG2l (.p 1) (.x 2) (.x 3), .bcopyL2g (.x 1) (.imm 2) (.x 3), .bqst (.x 1) (.x 2) (.s 3), .mma .bf16x2 false false (.x 0) (.x 24) (.x 1),
      .mma .e4m3 false false (.w 0) (.x 64) (.x 1), .mma .f64 false false (.x 32) (.x 128) (.x 1), .mma .bf16x2 false false (.x 0) (.x 64) (.p 1), .mmab (.p 1), .coll (.imm 1),
      .sbind (.x 1) (.x 2), .sbind (.s 1) (.imm 0x10000000), .sfree (.x 1), .brx (.x 1) .zero, .callx (.x 2) (.p 1), .join (.p 0) (.x 1) (.x 2),
      .bse 3 (.s 0) 0, .bse 0 (.x 0) 0, .spawn false false (.x 1) (.x 2) (.x 8), .spawn false false (.x 2) (.x 2) (.x 4), .trap 0 (.p 1), .bkpt 0 (.imm 1),
      .evpost .zero (.x 1) (.x 2), .evld (.x 8) (.x 2), .evld (.x 16) (.x 3), .evrel (.x 1), .wmark (.x 1) (.x 2), .autld (.x 1) (.imm 1),
      .autctlStop .zero (.x 1), .autctlResume (.x 1) (.p 1), .autctlCkpt (.x 1) (.x 2) (.x 5), .autctlRemove (.x 256) (.x 1), .autctlCount (.x 2) (.x 1),
      .autctlOpen (.x 1) (.s 0), .autctlClose (.p 1) (.x 1), .sysrd (.x 1) (.imm 0x10000000), .sysrd (.x 1) .zero, .syswrGctl (.x 1) (.imm 0x104) (.x 2),
      .syswrGctl (.x 1) .zero (.x 2), .syswrContextSet .zero (.x 2), .syswrInvalidate (.x 1) (.p 2), .syswrMigrate (.x 1) (.imm 2), .syswrContextStop (.p 1) (.x 2),
      .syswrContextResume (.x 1) (.s 2), .syswrGroup .zero (.x 2), .syswrQueueCreate .zero (.x 2), .syswrQueueDestroy .zero (.x 2), .syswrQueueSwap .zero (.x 2),
      .ccnt .n64 (.w 2), .ccnt .n64 (.x 1), .rand .n64 (.x 1), .psnt .n32 (.p 0) (.x 1), .psnt .n64 (.p 1) (.x 1), .psntClr .n32 (.x 1) .zero,
      .powerOn, .illegalInstruction, .partCreate 0] : List Instr).all (fun i => !wf i) = true := by
  decide

/-- Flags and part numbers that an entry does not have, and a guarded marker (R343, R344, R361, R382 to R386, R394, R395). -/
theorem test_wf_flags :
    ([.iadd .n32 ⟨true, false, false, false, false⟩ (.x 1) (.x 2) (.x 3), .iadd .i32 ⟨false, false, true, false, false⟩ (.x 1) (.x 2) (.x 3),
      .iadd .i32 ⟨true, false, false, false, false⟩ (.x 1) (.x 2) (.imm 3), .imin .i32 ⟨false, false, false, false, true⟩ (.x 1) (.x 2) (.x 3),
      .imad .i32 ⟨true, false, false, false, false⟩ (.x 1) (.x 2) (.x 3) (.imm 4), .imadw .i32 true (.x 2) (.x 4) (.x 5) (.imm 4),
      .icmp .i32 .eq ⟨false, false, false, false, true⟩ (.p 1) (.x 1) (.x 2), .fadd .f32 .rne ⟨false, false, true, false, false⟩ (.x 1) (.x 2) (.x 3),
      .fmin .f32 ⟨false, false, false, false, true⟩ (.x 1) (.x 2) (.x 3), .fsqrt .f32 .rne ⟨false, false, false, false, true⟩ (.x 1) (.x 2),
      .fsqrt .f32 .rne ⟨true, false, false, false, false⟩ (.x 1) (.imm 2), .ffma .f32 .rne ⟨true, false, false, false, false⟩ (.x 1) (.x 2) (.x 3) (.imm 4),
      .fscale .f32 .rne ⟨false, true, false, false, false⟩ (.x 1) (.x 2) (.x 3), .fclass .f32 ⟨false, false, false, false, true⟩ (.x 1) (.x 2),
      .fcmp .f32 .eq ⟨false, false, true, false, false⟩ (.p 1) (.x 1) (.x 2), .cvt .f32 .n32 0 .rne ⟨true, false, false, false, false⟩ (.x 1) (.x 2),
      .cvt .f32 .e4m3 4 .rne Flags.none (.x 1) (.x 2), .cvt .f32 .i32 1 .rne Flags.none (.x 1) (.x 2), .pack .e4m3 2 .rne Flags.none (.x 1) (.x 2) (.x 3) (.x 4),
      .pack .e2m1 0 .rtz Flags.none (.x 1) (.x 2) (.x 3) (.x 4), .pack .bf16x2 0 .rne Flags.none (.x 1) (.x 2) (.x 3) (.x 4),
      .unpk .e2m1 4 (.x 2) (.x 4)] : List Instr).all (fun i => !wf i) = true ∧
    guardOk ⟨1, 7, 0, false, false⟩ (.region ⟨0, 0, 0, 0⟩) = false ∧ guardOk ⟨0, 5, 0, false, false⟩ (.phase ⟨0, 0, 0, 0⟩) = false ∧
    Header.wf ⟨8, 7, 0, false, false⟩ = false ∧ Header.wf ⟨0, 0, 0, false, false⟩ = false ∧ Header.wf ⟨0, 8, 0, false, false⟩ = false ∧
    Header.wf ⟨0, 7, 32, false, false⟩ = false := by
  decide

/-! Decoding: a word of every program instruction, written from the bodies of R343 to R350 and the numbers of R351 to R354. -/

/-- A word decodes to an unguarded instruction. -/
def reads (w : Nat) (i : Instr) : Bool := decide ((decodeWord w).toOption = some (Header.plain, i))

/-- IADD.i32.sat, ISUB.i32.sat, IMUL.i32.sat, IMULH.i64, IMIN.i64, IMAX.i64, AND.n32, OR.n32, XOR.n32. -/
theorem test_words_1 : (reads 0x00070000003005107C011100 (.iadd .i32 ⟨true, false, false, false, true⟩ (.x 3) (.x 5) (.w 7)) &&
    reads 0x00470000003005107C011100 (.isub .i32 ⟨true, false, false, false, true⟩ (.x 3) (.x 5) (.w 7)) &&
    reads 0x00870000003005107C011100 (.imul .i32 ⟨true, false, false, false, true⟩ (.x 3) (.x 5) (.w 7)) &&
    reads 0x00C7002000400600AC010800 (.imulh .i64 ⟨false, true, false, false, false⟩ (.x 4) (.x 6) (.x 10)) &&
    reads 0x0247002000400600AC010800 (.imin .i64 ⟨false, true, false, false, false⟩ (.x 4) (.x 6) (.x 10)) &&
    reads 0x0287002000400600AC010800 (.imax .i64 ⟨false, true, false, false, false⟩ (.x 4) (.x 6) (.x 10)) &&
    reads 0x030700180030051234567800 (.and .n32 (.x 3) (.x 5) (.imm 0x12345678)) &&
    reads 0x034700180030051234567800 (.or .n32 (.x 3) (.x 5) (.imm 0x12345678)) &&
    reads 0x038700180030051234567800 (.xor .n32 (.x 3) (.x 5) (.imm 0x12345678))) = true := by decide

/-- ANDN.n32, SHL.n64, SHR.n64, SAR.n64, ROL.n64, BFX.n64, IABS.i32.sat, POPC.n64, CLZ.n64. -/
theorem test_words_2 : (reads 0x03C700180030051234567800 (.andn .n32 (.x 3) (.x 5) (.imm 0x12345678)) &&
    reads 0x04070030008006109C010000 (.shl .n64 (.x 8) (.x 6) (.w 9)) &&
    reads 0x04470030008006109C010000 (.shr .n64 (.x 8) (.x 6) (.w 9)) &&
    reads 0x04870030008006109C010000 (.sar .n64 (.x 8) (.x 6) (.w 9)) &&
    reads 0x04C70030008006109C010000 (.rol .n64 (.x 8) (.x 6) (.w 9)) &&
    reads 0x06070030008006109C010000 (.bfx .n64 (.x 8) (.x 6) (.w 9)) &&
    reads 0x02C70000103800C01C010100 (.iabs .i32 true (.w 3) .lat) &&
    reads 0x05070030003106C01C010000 (.popc .n64 (.x 3) (.w 6)) &&
    reads 0x05470030003106C01C010000 (.clz .n64 (.x 3) (.w 6))) = true := by decide

/-- CTZ.n64, BREV.n32, MOV.f64, MOVI.n32, IMAD.i32, IMADW.n32, LEA.n32.5, BFI.n32, PRMT.n32. -/
theorem test_words_3 : (reads 0x05870030003106C01C010000 (.ctz .n64 (.x 3) (.w 6)) &&
    reads 0x05C70010402001C01C010000 (.brev .n32 (.c 2) (.x 1)) &&
    reads 0x07470050004108C01C010000 (.mov .f64 (.x 4) (.w 8)) &&
    reads 0x0787001000989ABCDEF00000 (.movi .n32 (.x 9) 0x89ABCDEF) &&
    reads 0x0107000800100200007FFF83 (.imad .i32 ⟨false, true, false, false, false⟩ (.x 1) (.x 2) (.x 3) (.imm 0x7FFF)) &&
    reads 0x0147001000800210300A0000 (.imadw .n32 false (.x 8) (.x 2) (.w 3) (.x 10)) &&
    reads 0x02070015004006008C010000 (.lea .n32 5 (.x 4) (.x 6) (.x 8)) &&
    reads 0x064700100010020030040000 (.bfi .n32 (.x 1) (.x 2) (.x 3) (.x 4)) &&
    reads 0x068700100010020030040000 (.prmt .n32 (.x 1) (.x 2) (.x 3) (.x 4))) = true := by decide

/-- LADD.n32, LSUB.n32, SEL.i64, ICMP.lt.i32, SHFL.rot.n32, VOTE.ballotu, REDUX.max.i32, READL.n32, ELECT. -/
theorem test_words_4 : (reads 0x018700100010020032840000 (.ladd .n32 (.x 1) (.x 2) (.x 3) (.p 4)) &&
    reads 0x01C700100010020032840000 (.lsub .n32 (.x 1) (.x 2) (.x 3) (.p 4)) &&
    reads 0x06C700200020041062800000 (.sel .i64 (.x 2) (.x 4) (.w 6) (.p 0)) &&
    reads 0x07070002283001002C011000 (.icmp .i32 .lt ⟨true, false, false, false, false⟩ (.p 3) (.x 1) (.x 2)) &&
    reads 0x080700190010020000000500 (.shfl .n32 .rot (.x 1) (.x 2) (.imm 5)) &&
    reads 0x08470014001283C01C010000 (.vote .ballotu (.x 1) (.p 3)) &&
    reads 0x08870002101003C01C010000 (.redux .i32 .max (.w 1) (.x 3)) &&
    reads 0x08C70010001002003C010000 (.readl .n32 (.x 1) (.x 2) (.x 3)) &&
    reads 0x090700D0282C01C01C010000 (.elect (.p 2))) = true := by decide

/-- PAND, POR, PNOT, PSET, PDEF, PTEST.6, FADD.f32.rdn.sat, FSUB.f32.rdn.sat, FMUL.f32.rdn.sat. -/
theorem test_words_5 : (reads 0x0A0700D0281282283C011000 (.pand true false (.p 1) (.p 2) (.p 3)) &&
    reads 0x0A4700D0281282283C010800 (.por false true (.p 1) (.p 2) (.p 3)) &&
    reads 0x0A8700D0281282C01C010000 (.pnot false (.p 1) (.p 2)) &&
    reads 0x0AC70010281002C01C010000 (.pset (.p 1) (.x 2)) &&
    reads 0x0B070010001282C01C010000 (.pdef (.x 1) (.p 2)) &&
    reads 0x0B4700D6281282C01C010000 (.ptest 6 (.p 1) (.p 2)) &&
    reads 0x20070040001002003C014B00 (.fadd .f32 .rdn ⟨false, true, false, true, true⟩ (.x 1) (.x 2) (.x 3)) &&
    reads 0x20470040001002003C014B00 (.fsub .f32 .rdn ⟨false, true, false, true, true⟩ (.x 1) (.x 2) (.x 3)) &&
    reads 0x20870040001002003C014B00 (.fmul .f32 .rdn ⟨false, true, false, true, true⟩ (.x 1) (.x 2) (.x 3))) = true := by decide

/-- FFMA.f64.rup, FMIN.bf16x2, FMAX.bf16x2, FCMP.ge.f64, FDIV.f32.rtz, FSQRT.f32.rup, FRCP.f32.rup, FRSQ.f32.rup, FEXP2.f32.rup. -/
theorem test_words_6 : (reads 0x20C7005B0020043F80000086 (.ffma .f64 .rup ⟨false, true, false, false, false⟩ (.x 2) (.x 4) (.x 6) (.imm 0x3F800000)) &&
    reads 0x21070060001002003C010000 (.fmin .bf16x2 Flags.none (.x 1) (.x 2) (.x 3)) &&
    reads 0x21470060001002003C010000 (.fmax .bf16x2 Flags.none (.x 1) (.x 2) (.x 3)) &&
    reads 0x21870055281002004C010000 (.fcmp .f64 .ge Flags.none (.p 1) (.x 2) (.x 4)) &&
    reads 0x21C70040001002003C012000 (.fdiv .f32 .rtz Flags.none (.x 1) (.x 2) (.x 3)) &&
    reads 0x22070040001002C01C017200 (.fsqrt .f32 .rup ⟨true, false, false, true, false⟩ (.x 1) (.x 2)) &&
    reads 0x22470040001002C01C017200 (.frcp .f32 .rup ⟨true, false, false, true, false⟩ (.x 1) (.x 2)) &&
    reads 0x22870040001002C01C017200 (.frsq .f32 .rup ⟨true, false, false, true, false⟩ (.x 1) (.x 2)) &&
    reads 0x22C70040001002C01C017200 (.fexp2 .f32 .rup ⟨true, false, false, true, false⟩ (.x 1) (.x 2))) = true := by decide

/-- FLOG2.f32.rup, FRND.f32.rup, FCLASS.f32, FSCALE.f32.rdn, IVADD.f64iv, IVSUB.f64iv, IVMUL.f64iv, IVDIV.f64iv, IVMIN.f64iv. -/
theorem test_words_7 : (reads 0x23070040001002C01C017200 (.flog2 .f32 .rup ⟨true, false, false, true, false⟩ (.x 1) (.x 2)) &&
    reads 0x23470040001002C01C017200 (.frnd .f32 .rup ⟨true, false, false, true, false⟩ (.x 1) (.x 2)) &&
    reads 0x23870048001C003F80000000 (.fclass .f32 Flags.none (.x 1) (.imm 0x3F800000)) &&
    reads 0x23C700480010020000000740 (.fscale .f32 .rdn Flags.none (.x 1) (.x 2) (.imm 7)) &&
    reads 0x4007008000410800CC010000 (.ivadd .f64iv (.x 4) (.w 8) (.x 12)) &&
    reads 0x4047008000410800CC010000 (.ivsub .f64iv (.x 4) (.w 8) (.x 12)) &&
    reads 0x4087008000410800CC010000 (.ivmul .f64iv (.x 4) (.w 8) (.x 12)) &&
    reads 0x40C7008000410800CC010000 (.ivdiv .f64iv (.x 4) (.w 8) (.x 12)) &&
    reads 0x4307008000410800CC010000 (.ivmin .f64iv (.x 4) (.w 8) (.x 12))) = true := by decide

/-- IVMAX.f64iv, IVHULL.f64iv, IVISECT.f64iv, IVFMA.f32iv, IVSQR.bf16iv, IVSQRT.bf16iv, IVRCP.bf16iv, IVEXP2.bf16iv, IVLOG2.bf16iv. -/
theorem test_words_8 : (reads 0x4347008000410800CC010000 (.ivmax .f64iv (.x 4) (.w 8) (.x 12)) &&
    reads 0x4387008000410800CC010000 (.ivhull .f64iv (.x 4) (.w 8) (.x 12)) &&
    reads 0x43C7008000410800CC010000 (.ivisect .f64iv (.x 4) (.w 8) (.x 12)) &&
    reads 0x410700700020040060080000 (.ivfma .f32iv (.x 2) (.x 4) (.x 6) (.x 8)) &&
    reads 0x41470090003005C01C010000 (.ivsqr .bf16iv (.x 3) (.x 5)) &&
    reads 0x41870090003005C01C010000 (.ivsqrt .bf16iv (.x 3) (.x 5)) &&
    reads 0x41C70090003005C01C010000 (.ivrcp .bf16iv (.x 3) (.x 5)) &&
    reads 0x42070090003005C01C010000 (.ivexp2 .bf16iv (.x 3) (.x 5)) &&
    reads 0x42470090003005C01C010000 (.ivlog2 .bf16iv (.x 3) (.x 5))) = true := by decide

/-- IVABS.bf16iv, IVNEG.bf16iv, IVMAKE.f32iv, IVPT.f64iv, IVLO.f32iv, IVHI.f32iv, IVMID.f32iv, IVWID.f32iv, IVCMP.ne.f32iv. -/
theorem test_words_9 : (reads 0x42870090003005C01C010000 (.ivabs .bf16iv (.x 3) (.x 5)) &&
    reads 0x42C70090003005C01C010000 (.ivneg .bf16iv (.x 3) (.x 5)) &&
    reads 0x44070070002005007C010000 (.ivmake .f32iv (.x 2) (.x 5) (.x 7)) &&
    reads 0x44470080004006C01C010000 (.ivpt .f64iv (.x 4) (.x 6)) &&
    reads 0x44870070003006C01C010000 (.ivlo .f32iv (.x 3) (.x 6)) &&
    reads 0x44C70070003006C01C010000 (.ivhi .f32iv (.x 3) (.x 6)) &&
    reads 0x45070070003006C01C010000 (.ivmid .f32iv (.x 3) (.x 6)) &&
    reads 0x45470070003006C01C010000 (.ivwid .f32iv (.x 3) (.x 6)) &&
    reads 0x45870071282004006C010000 (.ivcmp .f32iv .ne (.p 2) (.x 4) (.x 6))) = true := by decide

/-- IVIN.f32iv, IVSUBS.f32iv, IVEMP.f32iv, IVBIS.f32iv, IVBFL, CVT.f32.e4m3.rtz, PACK.e5m2.1, UNPK.e2m1.3, QST.e3.v4. -/
theorem test_words_10 : (reads 0x45C70070282005006C010000 (.ivin .f32iv (.p 2) (.x 5) (.x 6)) &&
    reads 0x46070070282004006C010000 (.ivsubs .f32iv (.p 2) (.x 4) (.x 6)) &&
    reads 0x46470070282004C01C010000 (.ivemp .f32iv (.p 2) (.x 4)) &&
    reads 0x4687007000400600900B0000 (.ivbis .f32iv (.x 4) (.x 6) (.x 9) (.x 11)) &&
    reads 0x46C70000C01C01C01C010000 (.ivbfl) &&
    reads 0x60070043001002C01C01200A (.cvt .f32 .e4m3 3 .rtz ⟨false, false, false, false, false⟩ (.x 1) (.x 2)) &&
    reads 0x604700B10010020030040000 (.pack .e5m2 1 .rne ⟨false, false, false, false, false⟩ (.x 1) (.x 2) (.x 3) (.x 4)) &&
    reads 0x608700C3004009C01C010000 (.unpk .e2m1 3 (.x 4) (.x 9)) &&
    reads 0x620700430081061090000202 (.qst 3 2 .ca (.x 8) (.w 6) (.w 9) 2)) = true := by decide

/-- QAXIS.lane.carry, QCLR, QGET, QSET, LD.n32.b16.cs, ST.n32.b16.cs, LDL.f64.ck, STL.f64.ck, LDD.f64.ck. -/
theorem test_words_11 : (reads 0x6247000328DC01C01C010000 (.qaxis true true (.e 5)) &&
    reads 0x6287000028CC01C01C010000 (.qclr (.e 4)) &&
    reads 0x62C7004000328AC01C010000 (.qget (.x 3) (.e 2)) &&
    reads 0x6307004028A003C01C010000 (.qset (.e 2) (.x 3)) &&
    reads 0x80070010003004007FFFFA06 (.ld .n32 .b16 .cs (.x 3) (.x 4) (.x 7) (-6)) &&
    reads 0x80470010003004007FFFFA06 (.st .n32 .b16 .cs (.x 3) (.x 4) (.x 7) (-6)) &&
    reads 0x80870050004005C010001008 (.ldl .f64 .full .ck (.x 4) (.x 5) .zero 16) &&
    reads 0x80C70050004005C010001008 (.stl .f64 .full .ck (.x 4) (.x 5) .zero 16) &&
    reads 0x81070050004005C010001008 (.ldd .f64 .full .ck (.x 4) (.x 5) .zero 16)) = true := by decide

/-- STD.f64.ck, LDSP.f64.ck, STSP.f64.ck, LDIV.f64iv, STIV.f64iv, ATOM.max.i32.dev, PREF.cb, BIND, UNBIND. -/
theorem test_words_12 : (reads 0x81470050004005C010001008 (.std .f64 .full .ck (.x 4) (.x 5) .zero 16) &&
    reads 0x81870050004005C010001008 (.ldsp .f64 .full .ck (.x 4) (.x 5) .zero 16) &&
    reads 0x81C70050004005C010001008 (.stsp .f64 .full .ck (.x 4) (.x 5) .zero 16) &&
    reads 0x820700800040081010002000 (.ldiv .f64iv .ca (.x 4) (.x 8) (.w 1) 32) &&
    reads 0x824700800040081010002000 (.stiv .f64iv .ca (.x 4) (.x 8) (.w 1) 32) &&
    reads 0x8287000200300400500008A0 (.atom .i32 .max .dev false (.x 3) (.x 4) (.x 5) 8) &&
    reads 0x82C70000C01004006000010C (.pref .cb (.x 4) (.x 6) 1) &&
    reads 0x840700000010020050004000 (.bind (.x 1) (.x 2) (.x 5) 64) &&
    reads 0x84470000001C01C010000000 (.unbind (.x 1))) = true := by decide

/-- ACQ.team, REL.sys, FENCE.clu, SINIT.bar, SARR.grp, SEXP, SWAIT, STRY, BAR. -/
theorem test_words_13 : (reads 0x84870000C01003C010000040 (.acq .team (.x 3)) &&
    reads 0x84C70000C01003C0100000C0 (.rel .sys (.x 3)) &&
    reads 0x85070000C01C01C010000060 (.fence .clu) &&
    reads 0xA0070002C010010020000000 (.sinit .bar (.x 1) (.x 2)) &&
    reads 0xA0470001C01001C000000009 (.sarr .grp (.x 1) (.imm 9)) &&
    reads 0xA0870000C010010020000000 (.sexp (.x 1) (.x 2)) &&
    reads 0xA0C700002810020030000064 (.swait (.p 1) (.x 2) (.x 3) 100) &&
    reads 0xA10700002810020030000000 (.stry (.p 1) (.x 2) (.x 3)) &&
    reads 0xA1470000C01C01C010000000 (.bar)) = true := by decide

/-- CBAR, BCOPY.g2l, BCOPY.l2g, BQST, MMA.bf16x2, MMAB, COLL, SBIND, SFREE. -/
theorem test_words_14 : (reads 0xA1870000C01C01C010000000 (.cbar) &&
    reads 0xA20700000010020030000000 (.bcopyG2l (.x 1) (.x 2) (.x 3)) &&
    reads 0xA20700010010020030000000 (.bcopyL2g (.x 1) (.x 2) (.x 3)) &&
    reads 0xA24700000010020030000000 (.bqst (.x 1) (.x 2) (.x 3)) &&
    reads 0xA28700600400080030000000 (.mma .bf16x2 false false (.x 64) (.x 8) (.x 3)) &&
    reads 0xA2C70000C01002C010000000 (.mmab (.x 2)) &&
    reads 0xA3070000C01002C010000000 (.coll (.x 2)) &&
    reads 0xA4070000293002C010000000 (.sbind (.s 3) (.x 2)) &&
    reads 0xA4470000293C01C010000000 (.sfree (.s 3))) = true := by decide

/-- BRA, BRX, CALL, CALLX, RET, JOIN, BSE.1, REGION, XACQ. -/
theorem test_words_15 : (reads 0xC0070000FFFFFFFEC01C0100 (.bra (-2)) &&
    reads 0xC04700000000000000200500 (.brx (.x 2) (.x 5)) &&
    reads 0xC087000000000003C01C0100 (.call 3) &&
    reads 0xC0C700000000000000200500 (.callx (.x 2) (.x 5)) &&
    reads 0xC107000000000000C01C0100 (.ret) &&
    reads 0xC14700000000000000300402 (.join (.p 2) (.x 3) (.x 4)) &&
    reads 0xC187000000000004293C0101 (.bse 1 (.s 3) 4) &&
    reads 0xC1C70000F000000180185420 (.region ⟨0xF0000001, 0x801, 0x85, 0x42⟩) &&
    reads 0xC207000000000000C01C0100 (.xacq)) = true := by decide

/-- XREL, YIELD, NOP, EXIT, PHASE, SPAWN.queue.pin, TRAP, BKPT, WAITC. -/
theorem test_words_16 : (reads 0xC247000000000000C01C0100 (.xrel) &&
    reads 0xC287000000000000C01C0100 (.yield) &&
    reads 0xC2C7000000000000C01C0100 (.nop) &&
    reads 0xC307000000000000C01C0100 (.exit) &&
    reads 0xC34700000000000100204080 (.phase ⟨0x1, 0x2, 0x4, 0x8⟩) &&
    reads 0xC38700030020050080000000 (.spawn true true (.x 2) (.x 5) (.x 8)) &&
    reads 0xC3C70000DEADBEEF003C0100 (.trap 0xDEADBEEF (.x 3)) &&
    reads 0xC407000000000007C01C0100 (.bkpt 7 .zero) &&
    reads 0xC447000000000000C01C0100 (.waitc)) = true := by decide

/-- EVPOST, EVLD, EVREL, WMARK, AUTLD, AUTCTL.stop, AUTCTL.resume, AUTCTL.ckpt, AUTCTL.remove. -/
theorem test_words_17 : (reads 0xE0070000001002C000000005 (.evpost (.x 1) (.x 2) (.imm 5)) &&
    reads 0xE0470000010002C010000000 (.evld (.x 16) (.x 2)) &&
    reads 0xE0870000C01002C010000000 (.evrel (.x 2)) &&
    reads 0xE0C70000C010020050000000 (.wmark (.x 2) (.x 5)) &&
    reads 0xE1070000001002C010000000 (.autld (.x 1) (.x 2)) &&
    reads 0xE1470000001002C010000000 (.autctlStop (.x 1) (.x 2)) &&
    reads 0xE1470001001002C010000000 (.autctlResume (.x 1) (.x 2)) &&
    reads 0xE14700020010020040000000 (.autctlCkpt (.x 1) (.x 2) (.x 4)) &&
    reads 0xE1470003001002C010000000 (.autctlRemove (.x 1) (.x 2))) = true := by decide

/-- AUTCTL.count, AUTCTL.open, AUTCTL.close, SYSRD, SYSWR, SYSWR, SYSWR, SYSWR, SYSWR. -/
theorem test_words_18 : (reads 0xE1470004004002C010000000 (.autctlCount (.x 4) (.x 2)) &&
    reads 0xE1470005001002C010000000 (.autctlOpen (.x 1) (.x 2)) &&
    reads 0xE1470006001002C010000000 (.autctlClose (.x 1) (.x 2)) &&
    reads 0xE2070010001C00C010000033 (.sysrd (.x 1) (.imm 0x33)) &&
    reads 0xE2470000001C000030000010 (.syswrGctl (.x 1) (.imm 0x10) (.x 3)) &&
    reads 0xE2470000001C000030000100 (.syswrContextSet (.x 1) (.x 3)) &&
    reads 0xE2470000001C000030000101 (.syswrInvalidate (.x 1) (.x 3)) &&
    reads 0xE2470000001C000030000102 (.syswrMigrate (.x 1) (.x 3)) &&
    reads 0xE2470000001C000030000103 (.syswrContextStop (.x 1) (.x 3))) = true := by decide

/-- SYSWR, SYSWR, SYSWR, SYSWR, SYSWR, CCNT.n64, RAND.f32, TOKWAIT, TOKPASS. -/
theorem test_words_19 : (reads 0xE2470000001C000030000104 (.syswrContextResume (.x 1) (.x 3)) &&
    reads 0xE2470000001C000030000105 (.syswrGroup (.x 1) (.x 3)) &&
    reads 0xE2470000001C000030000106 (.syswrQueueCreate (.x 1) (.x 3)) &&
    reads 0xE2470000001C000030000107 (.syswrQueueDestroy (.x 1) (.x 3)) &&
    reads 0xE2470000001C000030000108 (.syswrQueueSwap (.x 1) (.x 3)) &&
    reads 0xE2870030002C01C010000000 (.ccnt .n64 (.x 2)) &&
    reads 0xE2C70040003C01C010000000 (.rand .f32 (.x 3)) &&
    reads 0xE3070000C01C01C010000000 (.tokwait) &&
    reads 0xE3470000C01C01C010000000 (.tokpass)) = true := by decide

/-- PSNT.n32, PSNT.clr.n32. -/
theorem test_words_20 : (reads 0xE3870010281002C010000000 (.psnt .n32 (.p 1) (.x 2)) &&
    reads 0xE3870011001002C010000000 (.psntClr .n32 (.x 1) (.x 2))) = true := by decide

/-- Words that the manual calls illegal: bits that a body marks zero, an unused field that is not 0xC01, a type that the entry does not
have, an empty guard, a negation beside an immediate, p0 as a destination, and fewer than twelve bytes (R14, R343 to R355). -/
theorem test_refused_words :
    (decodeWord 0xC2C7000000000001C01C0100).toOption = none ∧ (decodeWord 0xC2C7000000000000C01C0000).toOption = none ∧
    (decodeWord 0xC2C7000100000000C01C0100).toOption = none ∧ (decodeWord 0x00070040003005007C010000).toOption = none ∧
    (decodeWord 0xC2C0000000000000C01C0100).toOption = none ∧ (decodeWord 0xC2C700E000000000C01C0100).toOption = none ∧
    (decodeWord 0x0007000800300500000001FF).toOption = none ∧ (decodeWord 0x000700000030050070010001).toOption = none ∧
    (decodeWord 0x0907000D2800C01C01C01000).toOption = none ∧ (decode (List.replicate 11 0)).toOption = none := by decide

/-! Single operations on a small state. -/

/-- The one group of a loaded grid, its lanes 0 and 1 issuing at its PC. -/
def iss : Issue := ⟨0, 0x10000, 3, 3, none⟩

/-- A state in which that group issues. -/
def st : State := { State.reset.placeWord [] with agenda := [], cur := some iss }

/-- The group. -/
def g0 : Group := (st.group? 0).getD (Group.fresh loadTask loadGrid none 0 0 0 0 .no [])

/-- The state with the group changed. -/
def upd (f : Group → Group) : State := st.setGroup 0 (f g0)

/-- x registers of every lane, by the lane's number. -/
def xs (l : List (Nat × (Nat → Nat))) (g : Group) : Group :=
  { g with lanes := g.lanes.zipIdx.map fun (l', i) => { l' with x := l.map fun (k, f) => (k, ⟨BitVec.ofNat 32 (f i), false⟩) } }

/-- Predicates of every lane, by the lane's number. -/
def ps (l : List (Nat × (Nat → Tri))) (g : Group) : Group :=
  { g with lanes := g.lanes.zipIdx.map fun (l', i) => { l' with p := l.map fun (k, f) => (k, ⟨f i, false⟩) } }

/-- The state after a step; the one before it where the step stops. -/
def after (i : Instr) (s : State) : State :=
  match exec i s with
  | .next t => t
  | _ => s

/-- A register of lane i of the group. -/
def reg (s : State) (i : Nat) (o : Opnd) : Nat := ((s.group? 0).map fun g => (regOf g i o 0).bits.toNat).getD 0

/-- A predicate of lane i of the group. -/
def pr (s : State) (i k : Nat) : Tri := ((s.group? 0).map fun g => ((g.lane i).pred k).v).getD .F

/-- The PC of lane i of the group. -/
def pcOf (s : State) (i : Nat) : Nat := ((s.group? 0).map fun g => (g.lane i).pc).getD 0

/-- A two-source operation on two numbers: the register that it writes in lane 1. -/
def two (i : Opnd → Opnd → Opnd → Instr) (a b : Nat) : Nat :=
  reg (after (i (.x 4) (.x 1) (.x 2)) (upd (xs [(1, fun _ => a), (2, fun _ => b)]))) 1 (.x 4)

/-- A one-source operation. -/
def one (i : Opnd → Opnd → Instr) (a : Nat) : Nat := two (fun d x _ => i d x) a 0

/-- A three-source operation. -/
def three (i : Opnd → Opnd → Opnd → Opnd → Instr) (a b c : Nat) : Nat :=
  reg (after (i (.x 4) (.x 1) (.x 2) (.x 3)) (upd (xs [(1, fun _ => a), (2, fun _ => b), (3, fun _ => c)]))) 1 (.x 4)

/-- A predicate that an operation writes in lane 1. -/
def cmp2 (i : Opnd → Opnd → Opnd → Instr) (a b : Nat) : Tri :=
  pr (after (i (.p 1) (.x 1) (.x 2)) (upd (xs [(1, fun _ => a), (2, fun _ => b)]))) 1 1

def sat : Flags := ⟨false, false, false, false, true⟩

theorem test_iadd : two (.iadd .i32 sat) 0x7FFFFFFF 1 = 0x7FFFFFFF ∧ two (.iadd .i32 Flags.none) 0x7FFFFFFF 1 = 0x80000000 := by decide
theorem test_isub : two (.isub .n32 sat) 3 5 = 0 ∧ two (.isub .n32 Flags.none) 3 5 = 0xFFFFFFFE := by decide
theorem test_imul : two (.imul .i32 ⟨true, false, false, false, true⟩) 0x10000 0x10000 = 0x80000000 ∧ two (.imul .n32 Flags.none) 0x10001 0x10001 = 0x20001 := by decide
theorem test_imulh : two (.imulh .i32 Flags.none) 0xFFFFFFFF 2 = 0xFFFFFFFF ∧ two (.imulh .n32 Flags.none) 0xFFFFFFFF 2 = 1 := by decide
theorem test_imin : two (.imin .i32 Flags.none) 0xFFFFFFFF 1 = 0xFFFFFFFF ∧ two (.imin .n32 Flags.none) 0xFFFFFFFF 1 = 1 := by decide
theorem test_imax : two (.imax .i32 Flags.none) 0xFFFFFFFF 1 = 1 ∧ two (.imax .n32 Flags.none) 0xFFFFFFFF 1 = 0xFFFFFFFF := by decide
theorem test_bitwise : two (.and .n32) 12 10 = 8 ∧ two (.or .n32) 12 10 = 14 ∧ two (.xor .n32) 12 10 = 6 ∧ two (.andn .n32) 12 10 = 4 := by decide
theorem test_shl : two (.shl .n32) 1 31 = 0x80000000 ∧ two (.shl .n32) 1 32 = 0 := by decide
theorem test_shr : two (.shr .n32) 0x80000000 31 = 1 ∧ two (.shr .i32) 0x80000000 32 = 0 := by decide
theorem test_sar : two (.sar .i32) 0x80000000 4 = 0xF8000000 ∧ two (.sar .i32) 0x80000000 40 = 0xFFFFFFFF := by decide
theorem test_rol : two (.rol .n32) 0x80000001 33 = 3 := by decide
theorem test_iabs : one (.iabs .i32 true) 0x80000000 = 0x7FFFFFFF ∧ one (.iabs .i32 false) 0xFFFFFFFE = 2 := by decide
theorem test_counts : one (.popc .n32) 0xF0F = 8 ∧ one (.clz .n32) 1 = 31 ∧ one (.clz .n32) 0 = 32 ∧ one (.ctz .n32) 8 = 3 ∧ one (.ctz .n32) 0 = 32 ∧
    one (.brev .n32) 1 = 0x80000000 := by decide
theorem test_moves : one (.mov .n32) 77 = 77 ∧ reg (after (.movi .i64 (.x 4) 0xFFFFFFFE) st) 1 (.x 5) = 0xFFFFFFFF := by decide
theorem test_imad : three (.imad .i32 ⟨true, false, false, false, false⟩) 3 5 20 = 5 := by decide
theorem test_imadw : reg (after (.imadw .i32 false (.x 4) (.x 1) (.x 2) (.x 6)) (upd (xs [(1, fun _ => 0xFFFFFFFF), (2, fun _ => 2)]))) 1 (.x 5) = 0xFFFFFFFF ∧
    reg (after (.imadw .n32 false (.x 4) (.x 1) (.x 2) (.x 6)) (upd (xs [(1, fun _ => 0xFFFFFFFF), (2, fun _ => 2)]))) 1 (.x 5) = 1 := by decide
theorem test_lea : reg (after (.lea .i32 2 (.x 4) (.x 6) (.x 1)) (upd (xs [(1, fun _ => 0xFFFFFFFF), (6, fun _ => 3)]))) 1 (.x 5) = 0xFFFFFFFF ∧
    reg (after (.lea .n32 2 (.x 4) (.x 6) (.x 1)) (upd (xs [(1, fun _ => 0xFFFFFFFF), (6, fun _ => 3)]))) 1 (.x 5) = 3 := by decide
theorem test_bfx : two (.bfx .n32) 0xABCD1234 (8 * 256 + 4) = 0x23 ∧ two (.bfx .i32) 0xF0 (4 * 256 + 4) = 0xFFFFFFFF := by decide +kernel
theorem test_bfi : three (.bfi .n32) 0x3 (8 * 256 + 4) 0xFFFFFFFF = 0xFFFFF03F := by decide
theorem test_prmt : three (.prmt .n32) 0x33221100 0x77665544 0x0000 = 0x00000000 ∧ three (.prmt .n32) 0x33221100 0x77665544 0x0FAC = 0x77665544 := by decide
theorem test_ladd : let s := after (.ladd .n32 (.x 4) (.x 1) (.x 2) (.p 1)) (upd fun g => ps [(1, fun _ => .T)] (xs [(1, fun _ => 0xFFFFFFFF)] g))
    reg s 1 (.x 4) = 0 ∧ pr s 1 1 = .T := by decide
theorem test_lsub : let s := after (.lsub .n32 (.x 4) (.x 1) (.x 2) (.p 1)) (upd (ps [(1, fun i => if i = 0 then .T else .U)]))
    reg s 0 (.x 4) = 0xFFFFFFFF ∧ pr s 0 1 = .T ∧ reg s 1 (.x 4) = 0 ∧ pr s 1 1 = .U := by decide
theorem test_sel : let s := after (.sel .n32 (.x 4) (.x 1) (.x 2) (.p 1)) (upd fun g => ps [(1, fun i => if i = 0 then .T else .U)] (xs [(1, fun _ => 5), (2, fun _ => 6)] g))
    reg s 0 (.x 4) = 5 ∧ reg s 1 (.x 4) = 6 := by decide
theorem test_icmp : cmp2 (.icmp .i32 .lt Flags.none) 0xFFFFFFFF 1 = .T ∧ cmp2 (.icmp .n32 .lt Flags.none) 0xFFFFFFFF 1 = .F := by decide
theorem test_shfl : let s := after (.shfl .n32 .xor (.x 4) (.x 1) (.imm 1)) (upd (xs [(1, fun i => 10 + i)]))
    reg s 0 (.x 4) = 11 ∧ reg s 1 (.x 4) = 10 := by decide
theorem test_vote : let s := upd (ps [(1, fun i => if i = 0 then .T else .U)])
    pr (after (.vote .all (.p 2) (.p 1)) s) 0 2 = .U ∧ pr (after (.vote .any (.p 2) (.p 1)) s) 1 2 = .T ∧
    reg (after (.vote .ballot (.x 4) (.p 1)) s) 1 (.x 4) = 1 ∧ reg (after (.vote .ballotu (.x 4) (.p 1)) s) 0 (.x 4) = 2 := by decide
theorem test_redux : let s := upd (xs [(1, fun i => 7 + i)])
    reg (after (.redux .n32 .add (.x 4) (.x 1)) s) 0 (.x 4) = 15 ∧ reg (after (.redux .i32 .max (.x 4) (.x 1)) s) 0 (.x 4) = 8 := by decide
theorem test_readl : let s := upd (xs [(1, fun i => 7 + i)])
    reg (after (.readl .n32 (.x 4) (.x 1) (.imm 1)) s) 0 (.x 4) = 8 ∧ reg (after (.readl .n32 (.x 4) (.x 1) (.imm 5)) s) 1 (.x 4) = 7 := by decide
theorem test_elect : let s := after (.elect (.p 1)) st
    pr s 0 1 = .T ∧ pr s 1 1 = .F ∧ reg s 0 .lat = 1 := by decide
theorem test_predicates : let s := upd (ps [(1, fun i => if i = 0 then .F else .T), (2, fun _ => .U)])
    pr (after (.pand false false (.p 3) (.p 1) (.p 2)) s) 0 3 = .F ∧ pr (after (.pand false false (.p 3) (.p 1) (.p 2)) s) 1 3 = .U ∧
    pr (after (.por false false (.p 3) (.p 1) (.p 2)) s) 1 3 = .T ∧ pr (after (.pnot false (.p 3) (.p 2)) s) 1 3 = .U ∧
    pr (after (.pset (.p 3) (.imm 3)) s) 1 3 = .U ∧ reg (after (.pdef (.x 4) (.p 2)) s) 1 (.x 4) = 2 ∧
    pr (after (.ptest 6 (.p 3) (.p 2)) s) 1 3 = .F ∧ pr (after (.ptest 1 (.p 3) (.p 2)) s) 1 3 = .T := by decide

theorem test_fadd : two (.fadd .f32 .rne Flags.none) 0x3F800000 0x33800000 = 0x3F800000 ∧ two (.fadd .f32 .rup Flags.none) 0x3F800000 0x33800000 = 0x3F800001 := by decide
theorem test_fsub : two (.fsub .f32 .rdn Flags.none) 0x3F800000 0x3F800000 = 0x80000000 := by decide
theorem test_fmul : two (.fmul .f32 .rne sat) 0x7F7FFFFF 0x40000000 = 0x7F7FFFFF ∧ two (.fmul .bf16x2 .rne Flags.none) 0x40003F80 0x40004040 = 0x40804040 := by decide
theorem test_fdiv : two (.fdiv .f32 .rne Flags.none) 0x3F800000 0x40400000 = 0x3EAAAAAB ∧ two (.fdiv .f32 .rtz Flags.none) 0x3F800000 0x40400000 = 0x3EAAAAAA := by decide +kernel
theorem test_ffma : three (.ffma .f32 .rne Flags.none) 0x3F800001 0x3F800001 0xBF800002 = 0x28800000 := by decide +kernel
theorem test_fsqrt : one (.fsqrt .f32 .rne Flags.none) 0x40000000 = 0x3FB504F3 := by decide +kernel
theorem test_frcp : one (.frcp .f32 .rne Flags.none) 0x80000000 = 0xFF800000 ∧ one (.frsq .f32 .rne Flags.none) 0x40800000 = 0x3F000000 := by decide +kernel
theorem test_fexp2 : one (.fexp2 .f32 .rne Flags.none) 0x40400000 = 0x41000000 ∧ one (.flog2 .f32 .rne Flags.none) 0x41000000 = 0x40400000 := by decide
theorem test_frnd : one (.frnd .f32 .rne Flags.none) 0x40200000 = 0x40000000 ∧ one (.frnd .f32 .rup Flags.none) 0x40200000 = 0x40400000 := by decide
theorem test_fmin : two (.fmin .f32 Flags.none) 0 0x80000000 = 0x80000000 ∧ two (.fmin .f32 Flags.none) 0x7FC00000 0x3F800000 = 0x3F800000 := by decide
theorem test_fmax : two (.fmax .f32 Flags.none) 0 0x80000000 = 0 ∧ two (.fmax .f32 Flags.none) 0x7FC00001 0x7FC00000 = 0x7FC00000 := by decide
theorem test_fcmp : cmp2 (.fcmp .f32 .ne Flags.none) 0x7FC00000 0 = .U ∧ cmp2 (.fcmp .f32 .eq Flags.none) 0 0x80000000 = .T := by decide
theorem test_fclass : one (.fclass .f32 Flags.none) 0x80000000 = 8 ∧ one (.fclass .f32 Flags.none) 0x7F800001 = 256 := by decide
theorem test_fscale : two (.fscale .f32 .rne Flags.none) 0x3F800000 0xFFFFFFFF = 0x3F000000 := by decide

/-- An f32 interval operation on two intervals, as the bounds that it writes in lane 1. -/
def iv2 (i : Opnd → Opnd → Opnd → Instr) (a b : Nat × Nat) : Nat × Nat :=
  let s := after (i (.x 8) (.x 2) (.x 4)) (upd (xs [(2, fun _ => a.1), (3, fun _ => a.2), (4, fun _ => b.1), (5, fun _ => b.2)]))
  (reg s 1 (.x 8), reg s 1 (.x 9))

theorem test_ivadd : iv2 (.ivadd .f32iv) (0x3F800000, 0x40000000) (0x40400000, 0x40800000) = (0x40800000, 0x40C00000) := by decide
theorem test_ivsub : iv2 (.ivsub .f32iv) (0x3F800000, 0x40000000) (0x40400000, 0x40800000) = (0xC0400000, 0xBF800000) := by decide
theorem test_ivmul : iv2 (.ivmul .f32iv) (0xBF800000, 0x40000000) (0x40400000, 0x40800000) = (0xC0800000, 0x41000000) := by decide
theorem test_ivdiv : iv2 (.ivdiv .f32iv) (0x3F800000, 0x3F800000) (0x40400000, 0x40400000) = (0x3EAAAAAA, 0x3EAAAAAB) := by decide +kernel
theorem test_ivsqr : iv2 (fun d a _ => .ivsqr .f32iv d a) (0xC0000000, 0x3F800000) (0, 0) = (0, 0x40800000) := by decide
theorem test_ivsqrt : iv2 (fun d a _ => .ivsqrt .f32iv d a) (0x40800000, 0x41100000) (0, 0) = (0x40000000, 0x40400000) := by decide +kernel
theorem test_ivneg : iv2 (fun d a _ => .ivneg .f32iv d a) (0x3F800000, 0x40000000) (0, 0) = (0xC0000000, 0xBF800000) := by decide
theorem test_ivabs : iv2 (fun d a _ => .ivabs .f32iv d a) (0xC0000000, 0x3F800000) (0, 0) = (0, 0x40000000) := by decide
theorem test_ivhull : iv2 (.ivhull .f32iv) (0x3F800000, 0x40000000) (0x40400000, 0x40800000) = (0x3F800000, 0x40800000) := by decide
theorem test_ivisect : iv2 (.ivisect .f32iv) (0x3F800000, 0x40400000) (0x40000000, 0x40800000) = (0x40000000, 0x40400000) := by decide
theorem test_ivmake : iv2 (fun d a _ => .ivmake .f32iv d a (.x 3)) (0x3F800000, 0x40000000) (0, 0) = (0x3F800000, 0x40000000) := by decide
theorem test_ivlo : (iv2 (fun d a _ => .ivlo .f32iv d a) (0x3F800000, 0x40000000) (0, 0)).1 = 0x3F800000 ∧
    (iv2 (fun d a _ => .ivhi .f32iv d a) (0x3F800000, 0x40000000) (0, 0)).1 = 0x40000000 ∧
    (iv2 (fun d a _ => .ivmid .f32iv d a) (0x3F800000, 0x40400000) (0, 0)).1 = 0x40000000 ∧
    (iv2 (fun d a _ => .ivwid .f32iv d a) (0x3F800000, 0x40400000) (0, 0)).1 = 0x40000000 := by decide
theorem test_ivcmp : pr (after (.ivcmp .f32iv .lt (.p 1) (.x 2) (.x 4)) (upd (xs [(2, fun _ => 0x3F800000), (3, fun i => if i = 0 then 0x3F800000 else 0x40400000), (4, fun _ => 0x40000000), (5, fun _ => 0x40400000)]))) 0 1 = .T ∧
    pr (after (.ivcmp .f32iv .lt (.p 1) (.x 2) (.x 4)) (upd (xs [(2, fun _ => 0x3F800000), (3, fun i => if i = 0 then 0x3F800000 else 0x40400000), (4, fun _ => 0x40000000), (5, fun _ => 0x40400000)]))) 1 1 = .U := by decide

theorem test_cvt : one (.cvt .i32 .f32 0 .rtz Flags.none) 0xC0200000 = 0xFFFFFFFE ∧ one (.cvt .f32 .e4m3 1 .rne Flags.none) 0x3800 = 0x3F800000 := by decide
theorem test_pack : three (.pack .e4m3 1 .rne Flags.none) 0x3F800000 0x40000000 0x1234 = 0x40381234 := by decide
theorem test_unpk : reg (after (.unpk .bf16x2 0 (.x 4) (.x 1)) (upd (xs [(1, fun _ => 0x40003F80)]))) 1 (.x 5) = 0x40000000 := by decide
theorem test_residues : let s := after (.qset (.e 2) (.imm 0)) (after (.qset (.e 2) (.x 1)) (upd (xs [(1, fun _ => 0x3F800000)])))
    reg (after (.qset (.e 2) (.x 1)) (upd (xs [(1, fun i => if i = 0 then 0x3F800000 else 0x7F800000)]))) 0 (.e 2) = 0x3F800000 ∧
    reg (after (.qset (.e 2) (.x 1)) (upd (xs [(1, fun i => if i = 0 then 0x3F800000 else 0x7F800000)]))) 1 (.e 2) = 0 ∧ reg (after (.qclr (.e 2)) s) 0 (.e 2) = 0 := by decide

/-- The bytes of local store after a step on a group. -/
def lbytes (i : Instr) (f : Group → Group) (a n : Nat) : Nat := (after i (upd f)).readNat (localAddr 0 a) n

theorem test_stl : lbytes (.stl .n32 .full .ca (.x 1) (.x 2) .zero 4) (xs [(1, fun i => 0x11111111 * (i + 1)), (2, fun i => 0x100 + 4 * i)]) 0x104 8 = 0x2222222211111111 ∧
    lbytes (.stl .n32 .b8 .ca (.x 1) (.x 2) .zero 0) (xs [(1, fun i => 0xABC0 + i), (2, fun _ => 0x100)]) 0x100 4 = 0xC1 := by decide
theorem test_ldl : ((after (.ldl .i32 .b8 .ca (.x 4) (.x 2) .zero 0) ((upd (xs [(2, fun i => 0x100 + i)])).setBytes (localAddr 0 0x100) [0x80, 0x7F])).group? 0).map
    (fun g => (g.loads, g.pend.map fun p => p.sectors.map fun ws => ws.map fun w => (w.lane, w.val.bits.toNat))) =
    some (1, [[[(0, 0xFFFFFF80), (1, 0x7F)]]]) := by decide
theorem test_sett : let s := after (.sinit .bar (.x 1) (.imm 2)) (upd (xs [(1, fun i => 0x200 + 32 * i)]))
    (s.settKind (localAddr 0 0x200), settWords s (localAddr 0 0x200)) = (2, (0, 2, 0, 2)) ∧
    settWords (after (.sarr .team (.x 1) (.imm 3)) s) (localAddr 0 0x220) = (1, 2, 1, 2) := by decide
theorem test_lock : let s := after (.sinit .lock (.x 1) .zero) (upd (xs [(1, fun _ => 0x200)]))
    settWords (after (.stry (.p 1) (.x 1) .zero) s) (localAddr 0 0x200) = (0, 0, 0, 2 ^ 31 + 1) := by decide
theorem test_branch : pcOf (after (.bra (-1)) st) 1 = 0xFFF4 ∧ pcOf (after (.bra 3) st) 1 = 0x10024 ∧ pcOf (after (.bra 3) st) 2 = 0x10000 := by decide
theorem test_call : let s := after (.call 3) st
    pcOf s 0 = 0x10024 ∧ (s.group? 0).map (fun g => ((g.lane 0).stack, (g.lane 1).must)) = some ([0x1000C], .afterCall) := by decide
theorem test_brx : pcOf (after (.brx (.x 2) (.x 4)) (upd (xs [(2, fun i => 0x20000 + 4 * i), (4, fun _ => 0xFFFFFFFF)]))) 1 = (0x20004 + 12 * 0xFFFFFFFF) % 2 ^ 56 := by decide
theorem test_region : ((after (.region ⟨1, 0, 0, 0⟩) (upd (xs [(1, fun i => 5 + i), (9, fun _ => 7)]))).group? 0).map
    (fun g => (g.lane 1).entry.map fun e => (e.pc, e.x)) = some (some (0x10000, [(1, ⟨6, false⟩)])) := by decide
theorem test_exit : ((after .exit st).group? 0).map (fun g => ((g.lane 0).live, (g.lane 2).live)) = some (false, true) := by decide
theorem test_bar : ((after .bar st).group? 0).map (fun g => ((g.lane 1).wait, (g.lane 2).wait)) = some (.bar, .none) := by decide
theorem test_waitc : ((after .waitc (upd fun g => { g with loads := 1 })).group? 0).map (fun g => (g.lane 1).wait) = some .loads := by decide
theorem test_join : ((after (.join (.p 1) (.imm 0) (.imm 0)) st).group? 0).map (fun g => (g.lane 1).pc) = some 0x1000C := by decide
theorem test_psnt : pr (after (.psnt .n32 (.p 1) (.x 1)) (upd fun g => { g with lanes := g.lanes.map fun l => { l with x := [(1, ⟨0, true⟩)] } })) 1 1 = .T := by decide
theorem test_sysrd : ((after (.sysrd (.x 1) (.imm 0)) st).group? 0).map (·.loads) = some 1 := by decide

/-! Witnesses: for every statement, states and operands that meet its hypotheses together, one for each clause that has any. -/

theorem runs_upd (f : Group → Group) : Runs (upd f) iss (f g0) := ⟨rfl, rfl, by decide, rfl, by decide⟩

theorem runs_st : Runs st iss g0 := ⟨rfl, rfl, by decide, rfl, by decide⟩

/-- The hypotheses of Computes, of Decides and of Carries. -/
def Meets (i : Instr) (d : Opnd) (srcs : List Opnd) (s : State) (g : Group) : Prop :=
  wf i = true ∧ Runs s iss g ∧ mayRead s iss g srcs ∧ mayWalk s iss (walked iss g srcs) true d

theorem mayRead_flat (s : State) (g : Group) (os : List Opnd) (h : os.all flat = true) : mayRead s iss g os := by
  induction os generalizing g with
  | nil => trivial
  | cons o os ih =>
    simp only [List.all_cons, Bool.and_eq_true] at h
    refine ⟨?_, ih _ h.2⟩
    cases o <;> first | trivial | cases h.1

theorem meets_flat {i : Instr} {d : Opnd} {srcs : List Opnd} (h : (wf i && srcs.all flat && flat d) = true) :
    Meets i d srcs st g0 := by
  simp only [Bool.and_eq_true] at h
  refine ⟨h.1.1, runs_st, mayRead_flat _ _ _ h.1.2, ?_⟩
  cases d <;> first | trivial | cases h.2

/-- A stream register bound to 4-byte elements from an offset, two of them before it wraps. -/
def bound (base : Nat) : SReg := ⟨true, 0, base, 1, false, 2, 2, 0, 0, 4, 0, 0, 1, 0, 0, 0⟩

/-- A group whose stream registers 0 to 2 are bound, the last to the end of the local store. -/
def streams (g : Group) : Group := { g with sregs := [bound 0x100, bound 0x200, bound (2 ^ 20 - 8)] ++ List.replicate 5 SReg.free }

/-- Stream registers as sources and as a destination, at the last element and at the last bytes of local store (R415). -/
theorem meets_streams : Meets (.iadd .i32 ⟨true, true, false, true, true⟩ (.s 2) (.s 0) (.s 1)) (.s 2) [.s 0, .s 1] (upd streams) (streams g0) := by
  refine ⟨by decide, runs_upd _, ⟨⟨rfl, rfl, by decide⟩, ⟨rfl, rfl, by decide⟩, trivial⟩, rfl, rfl, by decide⟩

/-- IntegerArithmeticResults. -/
theorem witness_integer_arithmetic :
    Meets (.iadd .i32 ⟨true, true, false, true, true⟩ (.s 2) (.s 0) (.s 1)) (.s 2) [.s 0, .s 1] (upd streams) (streams g0) ∧
    Meets (.iadd .n64 sat (.x 254) (.w 382) (.imm 0xFFFFFFFF)) (.x 254) [.w 382, .imm 0xFFFFFFFF] st g0 ∧
    Meets (.isub .i64 sat (.x 4) (.x 4) .zero) (.x 4) [.x 4, .zero] st g0 ∧ Meets (.imul .i32 sat (.c 7) .lat (.x 255)) (.c 7) [.lat, .x 255] st g0 ∧
    Meets (.imulh .i32 Flags.none .lat (.w 383) (.c 0)) .lat [.w 383, .c 0] st g0 ∧ Meets (.imin .n32 Flags.none (.x 1) (.x 2) (.imm 1)) (.x 1) [.x 2, .imm 1] st g0 ∧
    Meets (.imax .i32 ⟨false, true, false, true, false⟩ (.x 1) (.x 2) (.x 3)) (.x 1) [.x 2, .x 3] st g0 ∧ Meets (.iabs .i64 true (.w 2) (.x 2)) (.w 2) [.x 2] st g0 ∧
    Meets (.imad .i32 ⟨true, true, true, true, true⟩ (.x 1) (.x 2) (.x 3) (.x 4)) (.x 1) [.x 2, .x 3, .x 4] st g0 ∧
    Meets (.imad .n32 Flags.none (.x 1) (.x 2) (.x 127) (.imm 5)) (.x 1) [.x 2, .x 127, .imm 5] st g0 ∧
    Meets (.imadw .i32 true (.x 2) (.x 4) (.x 5) (.x 6)) (.x 2) [.x 4, .x 5, .x 6] st g0 ∧ Meets (.imadw .n32 false (.x 2) (.x 4) (.x 127) (.imm 1)) (.x 2) [.x 4, .x 127, .imm 1] st g0 ∧
    Meets (.lea .i32 7 (.x 2) (.w 4) (.x 6)) (.x 2) [.w 4, .x 6] st g0 :=
  ⟨meets_streams, meets_flat rfl, meets_flat rfl, meets_flat rfl, meets_flat rfl, meets_flat rfl, meets_flat rfl, meets_flat rfl, meets_flat rfl,
    meets_flat rfl, meets_flat rfl, meets_flat rfl, meets_flat rfl⟩

/-- BitwiseAndShiftResults. -/
theorem witness_bitwise_and_shift :
    (∀ ty ∈ [Ty.i32, .n32, .i64, .n64], Meets (.and ty (.x 2) (.w 4) (.x 6)) (.x 2) [.w 4, .x 6] st g0 ∧ Meets (.or ty (.x 2) (.w 4) (.imm 6)) (.x 2) [.w 4, .imm 6] st g0 ∧
      Meets (.xor ty (.x 2) .zero (.x 6)) (.x 2) [.zero, .x 6] st g0 ∧ Meets (.andn ty (.x 2) (.x 2) (.x 2)) (.x 2) [.x 2, .x 2] st g0 ∧
      Meets (.shl ty (.x 2) (.w 4) (.imm 32)) (.x 2) [.w 4, .imm 32] st g0 ∧ Meets (.shr ty (.x 2) (.w 4) (.x 5)) (.x 2) [.w 4, .x 5] st g0 ∧
      Meets (.sar ty (.x 2) (.w 4) .lat) (.x 2) [.w 4, .lat] st g0 ∧ Meets (.rol ty (.x 2) (.w 4) (.c 5)) (.x 2) [.w 4, .c 5] st g0) := by
  intro ty hty
  simp only [List.mem_cons, List.not_mem_nil, or_false] at hty
  rcases hty with rfl | rfl | rfl | rfl <;>
    exact ⟨meets_flat rfl, meets_flat rfl, meets_flat rfl, meets_flat rfl, meets_flat rfl, meets_flat rfl, meets_flat rfl, meets_flat rfl⟩

/-- BitCountMoveAndFieldResults and CarryAndSelectResults. -/
theorem witness_moves_and_carries :
    Meets (.popc .n64 (.x 3) (.w 6)) (.x 3) [.w 6] st g0 ∧ Meets (.clz .i32 (.w 3) .zero) (.w 3) [.zero] st g0 ∧ Meets (.ctz .n32 (.x 3) (.x 3)) (.x 3) [.x 3] st g0 ∧
    Meets (.brev .n64 (.x 2) (.x 4)) (.x 2) [.x 4] st g0 ∧ Meets (.mov .f64iv (.x 4) (.w 380)) (.x 4) [.w 380] st g0 ∧ Meets (.mov .bf16x2 (.x 4) (.imm 7)) (.x 4) [.imm 7] st g0 ∧
    Meets (.movi .i64 (.x 4) 0x80000000) (.x 4) [] st g0 ∧ Meets (.bfx .i64 (.x 4) (.x 6) (.imm 0xFFFF)) (.x 4) [.x 6, .imm 0xFFFF] st g0 ∧
    Meets (.bfi .n64 (.x 4) (.x 6) (.x 127) (.imm 1)) (.x 4) [.x 6, .x 127, .imm 1] st g0 ∧ Meets (.prmt .n32 (.x 4) (.x 6) (.x 7) (.x 8)) (.x 4) [.x 6, .x 7, .x 8] st g0 ∧
    Meets (.ladd .n32 (.x 4) (.x 6) (.x 7) (.p 7)) (.x 4) [.x 6, .x 7] st g0 ∧ Meets (.lsub .i32 (.x 4) .zero (.x 7) (.p 1)) (.x 4) [.zero, .x 7] st g0 ∧
    Meets (.sel .f64 (.x 4) (.x 6) (.w 8) (.p 0)) (.x 4) [.x 6, .w 8] st g0 :=
  ⟨meets_flat rfl, meets_flat rfl, meets_flat rfl, meets_flat rfl, meets_flat rfl, meets_flat rfl, meets_flat rfl, meets_flat rfl, meets_flat rfl,
    meets_flat rfl, meets_flat rfl, meets_flat rfl, meets_flat rfl⟩

/-- PredicateResults. -/
theorem witness_predicates :
    Meets (.icmp .i32 .ge ⟨true, true, false, true, false⟩ (.p 7) (.x 6) (.x 7)) (.p 7) [.x 6, .x 7] st g0 ∧ Meets (.icmp .n64 .eq Flags.none (.p 1) (.x 6) (.imm 0)) (.p 1) [.x 6, .imm 0] st g0 ∧
    Meets (.pand true false (.p 1) (.p 0) (.p 7)) (.p 1) [] st g0 ∧ Meets (.por false true (.p 1) (.p 1) (.p 1)) (.p 1) [] st g0 ∧ Meets (.pnot true (.p 7) (.p 0)) (.p 7) [] st g0 ∧
    Meets (.pset (.p 1) (.imm 3)) (.p 1) [.imm 3] st g0 ∧ Meets (.pdef (.x 255) (.p 0)) (.x 255) [] st g0 ∧ Meets (.ptest 7 (.p 1) (.p 2)) (.p 1) [] st g0 ∧
    Meets (.ptest 1 (.p 1) (.p 2)) (.p 1) [] st g0 :=
  ⟨meets_flat rfl, meets_flat rfl, meets_flat rfl, meets_flat rfl, meets_flat rfl, meets_flat rfl, meets_flat rfl, meets_flat rfl, meets_flat rfl⟩

/-- LaneNetworkResults. -/
theorem witness_lane_network : Runs st iss g0 ∧
    ([.shfl .f64 .rev (.x 2) (.x 4) (.x 6), .shfl .n32 .idx (.w 2) .zero (.imm 31), .vote .all (.p 1) (.p 0), .vote .any (.p 7) (.p 1), .vote .ballot (.x 1) (.p 1),
      .vote .ballotf (.w 1) (.p 1), .vote .ballotu (.c 1) (.p 1), .redux .i64 .min (.x 2) (.x 4), .redux .n32 .xor .lat (.x 4), .readl .n64 (.x 2) (.x 4) (.imm 31),
      .elect (.p 7)] : List Instr).all wf = true := ⟨runs_st, by decide⟩

/-- PointArithmeticResults. -/
theorem witness_point_arithmetic :
    (∀ r ∈ [Rnd.rne, .rtz, .rdn, .rup],
      Meets (.fadd .f32 r ⟨true, true, false, true, true⟩ (.x 2) (.x 4) (.x 6)) (.x 2) [.x 4, .x 6] st g0 ∧ Meets (.fsub .f64 r sat (.x 2) (.x 4) (.imm 6)) (.x 2) [.x 4, .imm 6] st g0 ∧
      Meets (.fmul .bf16x2 r sat (.x 2) (.x 4) (.x 6)) (.x 2) [.x 4, .x 6] st g0 ∧ Meets (.fdiv .f64 r sat (.x 2) (.x 4) (.x 6)) (.x 2) [.x 4, .x 6] st g0 ∧
      Meets (.ffma .f32 r ⟨true, true, true, true, true⟩ (.x 2) (.x 4) (.x 6) (.x 8)) (.x 2) [.x 4, .x 6, .x 8] st g0 ∧
      Meets (.ffma .f64 r ⟨false, true, false, false, false⟩ (.x 2) (.x 4) (.x 126) (.imm 8)) (.x 2) [.x 4, .x 126, .imm 8] st g0 ∧
      Meets (.fsqrt .f32 r ⟨true, false, false, true, false⟩ (.x 2) (.x 4)) (.x 2) [.x 4] st g0 ∧ Meets (.frcp .f64 r sat (.x 2) (.x 4)) (.x 2) [.x 4] st g0 ∧
      Meets (.frsq .f32 r sat (.x 2) (.x 4)) (.x 2) [.x 4] st g0 ∧ Meets (.fexp2 .f32 r sat (.x 2) (.imm 4)) (.x 2) [.imm 4] st g0 ∧
      Meets (.flog2 .f64 r Flags.none (.x 2) (.x 4)) (.x 2) [.x 4] st g0 ∧ Meets (.frnd .bf16x2 r Flags.none (.x 2) (.x 4)) (.x 2) [.x 4] st g0 ∧
      Meets (.fscale .bf16x2 r sat (.x 2) (.x 4) (.imm 0x80000000)) (.x 2) [.x 4, .imm 0x80000000] st g0) ∧
    Meets (.fmin .f32 ⟨true, true, false, true, false⟩ (.x 2) (.x 4) (.x 6)) (.x 2) [.x 4, .x 6] st g0 ∧ Meets (.fmax .bf16x2 Flags.none (.x 2) (.x 4) (.imm 6)) (.x 2) [.x 4, .imm 6] st g0 ∧
    Meets (.fcmp .f64 .ne ⟨true, true, false, true, false⟩ (.p 1) (.x 4) (.x 6)) (.p 1) [.x 4, .x 6] st g0 ∧ Meets (.fclass .f64 ⟨true, false, false, true, false⟩ (.x 2) (.x 4)) (.x 2) [.x 4] st g0 := by
  refine ⟨fun r hr => ?_, meets_flat rfl, meets_flat rfl, meets_flat rfl, meets_flat rfl⟩
  simp only [List.mem_cons, List.not_mem_nil, or_false] at hr
  rcases hr with rfl | rfl | rfl | rfl <;>
    exact ⟨meets_flat rfl, meets_flat rfl, meets_flat rfl, meets_flat rfl, meets_flat rfl, meets_flat rfl, meets_flat rfl, meets_flat rfl, meets_flat rfl,
      meets_flat rfl, meets_flat rfl, meets_flat rfl, meets_flat rfl⟩

/-- The f32 intervals [1, 2] and [3, 4] in x4 and x6, and the empty one in x8. -/
def ivs (g : Group) : Group := xs [(4, fun _ => 0x3F800000), (5, fun _ => 0x40000000), (6, fun _ => 0x40400000), (7, fun _ => 0x40800000), (8, fun _ => 0x7F800000), (9, fun _ => 0xFF800000)] g

/-- With the empty interval allowed (R276). -/
def lax (g : Group) : Group := { ivs g with eif := false }

/-- IntervalResults: under EIF without an empty operand or result, and without EIF with an empty operand. -/
theorem witness_intervals : Runs (upd ivs) iss (ivs g0) ∧ Runs (upd lax) iss (lax g0) ∧
    ([.ivadd .f32iv (.x 2) (.x 4) (.x 6), .ivsub .f64iv (.x 4) (.w 380) .zero, .ivmul .bf16iv (.x 3) (.x 4) (.x 6), .ivdiv .f32iv (.x 2) (.x 4) (.x 6),
      .ivfma .f32iv (.x 2) (.x 4) (.x 6) .zero, .ivsqr .f32iv (.x 2) (.x 4), .ivsqrt .f32iv (.x 2) (.x 4), .ivrcp .f32iv (.x 2) (.x 4), .ivexp2 .f32iv (.x 2) (.x 4),
      .ivlog2 .f32iv (.x 2) (.x 4), .ivabs .f32iv (.x 2) (.x 4), .ivneg .f32iv (.x 2) (.x 4), .ivmin .f32iv (.x 2) (.x 4) (.x 6), .ivmax .f32iv (.x 2) (.x 4) (.x 6),
      .ivisect .f32iv (.x 2) (.x 4) (.x 6), .ivhull .f32iv (.x 2) (.x 4) (.x 6), .ivmake .f32iv (.x 2) (.x 4) (.x 5), .ivpt .f32iv (.x 2) (.x 4)] : List Instr).all wf = true ∧
    ivLegal iss (ivs g0) .f32iv [.iv (.x 4), .iv (.x 6), .iv .zero] false (fun vs => imgEmpty .f32iv (ivImage .f32iv (fun vs => ivAdd (vs.getD 0 .empty) (vs.getD 1 .empty)) vs)) ∧
    ivLegal iss (ivs g0) .f32iv [.pt (.x 4), .pt (.x 5)] true (fun vs => imgEmpty .f32iv (ivOut .f32iv (ivMake (pointVal .f32iv (vs.getD 0 0)) (pointVal .f32iv (vs.getD 1 0))))) ∧
    ivLegal iss (lax g0) .f32iv [.iv (.x 4), .iv (.x 8)] false (fun _ => true) := by
  refine ⟨runs_upd _, runs_upd _, by decide, ?_, ?_, ?_⟩ <;> (unfold ivLegal; decide +kernel)

/-- IntervalPointAndPredicateResults: the point results and the predicates, at an interval and at the empty one. -/
theorem witness_interval_points : Runs (upd lax) iss (lax g0) ∧
    ([.ivlo .f32iv (.x 2) (.x 4), .ivhi .f64iv (.x 2) .zero, .ivmid .f32iv (.x 2) (.x 8), .ivwid .bf16iv (.x 2) (.x 4), .ivcmp .f32iv .lt (.p 1) (.x 4) (.x 6),
      .ivin .f32iv (.p 1) (.x 8) (.x 4), .ivsubs .f32iv (.p 7) (.x 8) (.x 4), .ivemp .f32iv (.p 1) (.x 8)] : List Instr).all wf = true ∧
    ivLegal iss (lax g0) .f32iv [.iv (.x 4)] false (fun _ => false) ∧ ivLegal iss (lax g0) .f32iv [.iv (.x 8), .iv (.x 4)] false (fun _ => false) ∧
    ivLegal iss (lax g0) .f32iv [.pt (.x 8), .iv (.x 4)] false (fun _ => false) ∧
    (∀ i ∈ iss.ls, (ivOf .f32iv (readOp (lax g0) i .f32iv 2 (.x 8)).1).isInvalid = false) := by
  refine ⟨runs_upd _, by decide, ?_, ?_, ?_, ?_⟩ <;> first | (unfold ivLegal; decide +kernel) | decide +kernel

/-- A state whose team has a pool of a number of batches, the filling one with n entries. -/
def pool (batches n : Nat) (f : Group → Group) : State :=
  { upd f with teams := tmod 0 (fun t => { t with pb := batches, poff := 0x1000, pn := n }) (upd f).teams }

/-- The team of that state. -/
def poolTeam (batches n : Nat) (f : Group → Group) : Team := (tget? 0 (pool batches n f).teams).getD (Team.fresh 0 0 loadTask loadGrid [])

/-- IntervalPointAndPredicateResults: IVBIS with room for the executing lanes' halves, at the largest count that keeps the batch open, and
one entry appended; IVBFL with and without entries, and the task of a batch. -/
theorem witness_interval_pool :
    (let s := pool 2 29 ivs
     wf (.ivbis .f32iv (.x 2) (.x 4) (.x 10) (.x 11)) = true ∧ Runs s iss (ivs g0) ∧ (ivs g0).team = some 0 ∧ tget? 0 s.teams = some (poolTeam 2 29 ivs) ∧
     ivLegal iss (ivs g0) .f32iv [.iv (.x 4)] false (fun _ => false) ∧ s.lacksToken iss.key (ivs g0) = false ∧
     2 ≤ poolRoom (poolTeam 2 29 ivs) ∧ (poolTeam 2 29 ivs).pn + 2 < 32 ∧
     (iss.ls.filter fun i => !imgEmpty .f32iv (readOp (ivs g0) i .f32iv 2 (.x 4)).1).length = 2) ∧
    (∃ t, tget? 0 (pool 2 30 id).teams = some t ∧ t.pn + 1 < 32) ∧
    (∃ v x, (ivOf .f32iv v).holds x ∧ Ty.isIv .f32iv = true ∧ v = 0x400000003F800000 ∧ x = FVal.fin false 3 (-1)) ∧
    (Runs (pool 2 0 id) iss g0 ∧ (pool 2 0 id).lacksToken iss.key g0 = false ∧ (poolTeam 2 0 id).pn = 0) ∧
    ((poolTeam 0 1 id).pn ≠ 0 ∧ (poolTeam 0 1 id).pb = 0 ∧ (pool 0 1 id).queueRoom 0 = true) ∧
    ((poolTeam 2 1 id).pn ≠ 0 ∧ (poolTeam 2 1 id).pb ≠ 0 ∧ (pool 2 1 id).queueRoom 0 = true ∧ tget? 0 (pool 2 1 id).teams = some (poolTeam 2 1 id)) ∧
    (Runs { st with groups := tset 0 { g0 with team := none } st.groups } iss { g0 with team := none }) := by
  refine ⟨⟨by decide, ⟨rfl, rfl, by decide, rfl, by decide⟩, rfl, rfl, ?_, by decide, by decide, by decide, by decide +kernel⟩, ⟨_, rfl, by decide⟩, ⟨_, _, ?_, rfl, rfl, rfl⟩,
    ⟨⟨rfl, rfl, by decide, rfl, by decide⟩, by decide, by decide⟩, by decide, ⟨by decide, by decide, by decide, rfl⟩, rfl, rfl, by decide, rfl, by decide⟩
  · unfold ivLegal; decide +kernel
  · unfold Iv.holds; decide +kernel

/-- IntervalsEnclose: reals in two f32 intervals, at a bound and inside, and in both at once; a real between the two of them, and
the empty interval beside one (R274). -/
theorem witness_enclose : Ty.isIv .f32iv = true ∧ (ivOf .f32iv 0x400000003F800000).holds (.fin false 1 0) ∧ (ivOf .f32iv 0x408000003F800000).holds (.fin false 3 0) ∧
    (ivOf .f32iv 0x408000003F800000).holds (.fin false 1 0) ∧ ((ivOf .f32iv 0x408000003F800000).isInvalid = false ∧ (ivOf .f32iv 0xFF8000007F800000).isInvalid = false ∧
    (ivOf .f32iv 0xFF8000007F800000).isEmpty = true) ∧ ((FVal.fin false 1 0).le (.fin false 5 (-1)) = true ∧ (FVal.fin false 5 (-1)).le (.fin false 3 0) = true) := by
  unfold Iv.holds; decide +kernel

/-- A group with an invalid interval and a NaN in lane 1, and the empty interval in lane 0. -/
def odd (g : Group) : Group := xs [(4, fun i => if i = 1 then 0x40000000 else 0x7F800000), (5, fun i => if i = 1 then 0x3F800000 else 0xFF800000), (6, fun i => if i = 1 then 0x7FC00000 else 0)] g

/-- A group with the empty interval in lane 1. -/
def void (g : Group) : Group := xs [(4, fun i => if i = 1 then 0x7F800000 else 0), (5, fun i => if i = 1 then 0xFF800000 else 0)] g

/-- IntervalFaults: lane 1 with an invalid interval or a NaN point of IVMAKE, and lane 1 with the empty interval as an operand, or as the
result of two intervals that do not meet. -/
theorem witness_interval_faults :
    ([.ivadd .f32iv (.x 2) (.x 4) .zero, .ivpt .f32iv (.x 2) (.x 6), .ivmake .f32iv (.x 2) (.x 6) (.x 5), .ivneg .f32iv (.x 2) (.x 4),
      .ivin .f32iv (.p 1) (.x 6) (.x 4), .ivemp .f32iv (.p 1) (.x 4), .ivbis .f32iv (.x 2) (.x 4) (.x 6) (.x 7), .ivisect .f32iv (.x 2) (.x 4) (.x 6)] : List Instr).all wf = true ∧
    Runs (upd odd) iss (odd g0) ∧ Runs (upd void) iss (void g0) ∧ Runs (upd ivs) iss (ivs g0) ∧
    ((iss.ls.filter fun k => [IvOp.iv (.x 4), .iv .zero].any fun o => ivBad .f32iv false o (ivRead (odd g0) .f32iv k o).1) = [1]) ∧
    ((iss.ls.filter fun k => [IvOp.pt (.x 6), .pt (.x 5)].any fun o => ivBad .f32iv true o (ivRead (odd g0) .f32iv k o).1) = [1]) ∧
    ((void g0).eif = true ∧ (iss.ls.filter fun k => [IvOp.iv (.x 4)].any fun o => ivBad .f32iv false o (ivRead (void g0) .f32iv k o).1) = [] ∧
      (iss.ls.filter fun k => [IvOp.iv (.x 4)].any fun o => ivEmptyOp .f32iv o (ivRead (void g0) .f32iv k o).1) = [1]) ∧
    ((ivs g0).eif = true ∧ (iss.ls.filter fun k => [IvOp.iv (.x 4), .iv (.x 6)].any fun o => ivEmptyOp .f32iv o (ivRead (ivs g0) .f32iv k o).1) = [] ∧
      (iss.ls.filter fun k => imgEmpty .f32iv (ivImage .f32iv (fun vs => ivIsect (vs.getD 0 .empty) (vs.getD 1 .empty))
        ([IvOp.iv (.x 4), .iv (.x 6)].map fun o => (ivRead (ivs g0) .f32iv k o).1))) = [0, 1]) := by
  refine ⟨by decide, runs_upd _, runs_upd _, runs_upd _, ?_, ?_, ⟨rfl, ?_, ?_⟩, rfl, ?_, ?_⟩ <;> decide +kernel

/-- ConversionResults. -/
theorem witness_conversions :
    Meets (.cvt .i64 .f64 0 .rup ⟨true, false, false, true, true⟩ (.x 2) (.x 4)) (.x 2) [.x 4] st g0 ∧ Meets (.cvt .bf16x2 .e2m1 7 .rne sat (.x 2) (.x 4)) (.x 2) [.x 4] st g0 ∧
    Meets (.pack .bf16x2 0 .rdn ⟨true, true, false, true, true⟩ (.x 2) (.x 4) (.x 5) .zero) (.x 2) [.x 4, .x 5, .zero] st g0 ∧
    Meets (.pack .e4m3 1 .rtz sat (.x 2) (.x 4) (.x 5) (.x 6)) (.x 2) [.x 4, .x 5, .x 6] st g0 ∧ Meets (.pack .e5m2 0 .rne sat (.x 2) (.x 4) (.x 5) (.x 6)) (.x 2) [.x 4, .x 5, .x 6] st g0 ∧
    Meets (.pack .e2m1 3 .rne sat (.x 2) (.x 4) (.x 5) (.x 6)) (.x 2) [.x 4, .x 5, .x 6] st g0 ∧ Meets (.unpk .e2m1 3 (.x 2) (.x 4)) (.x 2) [.x 4] st g0 ∧
    Meets (.unpk .bf16x2 0 (.x 254) (.w 383)) (.x 254) [.w 383] st g0 :=
  ⟨meets_flat rfl, meets_flat rfl, meets_flat rfl, meets_flat rfl, meets_flat rfl, meets_flat rfl, meets_flat rfl, meets_flat rfl⟩

/-- RoundingIsCorrect: a value between two f32 numbers, codes of real numbers in each format, and numbers that overflow: halfway to the
next binade under rne, and just above the greatest real where the mode leads away from zero. -/
theorem witness_rounding : realCode Fmt.f32 (Fmt.f32.round (.fin false 0x2000003 0) .rup false) ∧ realCode Fmt.bf16 0x7F7F ∧ realCode Fmt.e5m2 0x7B ∧ realCode Fmt.e4m3 0x7E ∧
    realCode Fmt.e2m1 7 ∧ realCode Fmt.f32 1 ∧ realCode Fmt.f64 1 ∧ Fmt.e4m3.overflows .rne false (.fin false 465 0) ∧ ¬ Fmt.e4m3.overflows .rne false (.fin false 464 0) ∧
    Fmt.e5m2.overflows .rne false (.fin false 61440 0) ∧ Fmt.bf16.overflows .rup false (.fin false 257 120) ∧ Fmt.f32.overflows .rtz true (.fin true 1 128) ∧
    ¬ realCode Fmt.e4m3 (Fmt.e4m3.round (.fin false 465 0) .rne false) := by
  unfold realCode Fmt.overflows; decide +kernel

/-- ResidueMoves. -/
theorem witness_residues : wf (.qaxis true false (.e 7)) = true ∧ Runs st iss g0 ∧ Meets (.qclr (.e 7)) (.e 7) [] st g0 ∧ Meets (.qget (.x 4) (.e 0)) (.x 4) [.e 0] st g0 ∧
    Meets (.qset (.e 3) .zero) (.e 3) [.zero] st g0 := ⟨by decide, runs_st, meets_flat rfl, meets_flat rfl, meets_flat rfl⟩

/-- The partition of the loaded grid. -/
def part0 : Part := (st.part? 0).getD loadPart

/-- Page 2 of the context, of format E4M3 (R175). -/
def fmtEntry : TlbEntry := { loadEntry with vpage := 2, frame := 0x20000, fmt := 1 }

/-- The state with the format page, and the group changed. -/
def paged (f : Group → Group) : State := { upd f with tlb := fmtEntry :: st.tlb }

/-- A base register pair x2 and x3 that names generic address a plus the lane's number times n, and data in x4 and x5. -/
def ptr (a n : Nat) (g : Group) : Group := xs [(2, fun i => a + n * i), (4, fun i => 0x3F800000 + i), (5, fun _ => 1)] g

theorem runs_paged (f : Group → Group) : Runs (paged f) iss (f g0) := ⟨rfl, rfl, by decide, rfl, by decide⟩

/-- QuantisingStoreCompletes: a footprint on the format page, from the base in w2. -/
theorem witness_quantising_store :
    let f := fun g : Group => { g with w := [(2, ⟨0x20000, false⟩)] }
    let s := paged f
    let g := f g0
    wf (.qst 3 0 .ca (.x 8) (.w 2) .zero 0) = true ∧ Runs s iss g ∧ s.part? (partOf iss.key) = some part0 ∧ cleanAddrs .generic iss g (.w 2) .zero ∧
    laneAddr .generic g (.w 2) .zero 0 0 = 0x20000 ∧
    (let x := (accesses s iss.key g .generic 32 .w [(0, 0x20000)]).headD ⟨0, 0x20000, []⟩
     allFound [x] ∧ qstFaults s iss.key g x = [] ∧ x.entry.elim 0 (·.fmt) = 1 ∧
     (let sh := qstShape g iss.lanes (pfmtOf 1) 1 1 3 (.x 8)
      let ws := qstStores part0 x.entries.eraseDups iss.lanes (g.axisLane 3) (pfmtOf 1) 1 0x20000 sh
      ws ≠ [] ∧ (bufLines (putBytes g.buf (ws.flatMap bufOf))).length ≤ 64)) := by
  refine ⟨by decide, runs_paged _, rfl, ?_, by decide, ?_, ?_, ?_, ?_, ?_⟩ <;> first | (unfold cleanAddrs; decide +kernel) | (unfold allFound; decide +kernel) | decide +kernel

/-- The hypotheses of Loads. -/
def LoadMeets (i : Instr) (sp : Space) (n : Nat) (elemOk : Bool) (base idx : Opnd) (off : BitVec 20) (s : State) (g : Group) : Prop :=
  wf i = true ∧ Runs s iss g ∧ g.atPhase = false ∧ s.part? (partOf iss.key) = some part0 ∧ cleanAddrs sp iss g base idx ∧
    let as := laneAccesses s iss g sp n .r base idx off
    as.length = 2 ∧ allFound as ∧ loadFormat elemOk as = [] ∧ lockFaults s iss.key g false as = [] ∧ hostNeeds s iss.key (as.flatMap (loadPlaces part0)) = [] ∧ g.loads < 63

/-- The hypotheses of Stores. -/
def StoreMeets (i : Instr) (sp : Space) (n : Nat) (v : Group → Nat → Val) (elemOk : Bool) (base idx : Opnd) (off : BitVec 20) (s : State) (g : Group) : Prop :=
  wf i = true ∧ Runs s iss g ∧ cleanAddrs sp iss g base idx ∧
    let as := laneAccesses s iss g sp n .w base idx off
    let held := (laneStores as n (v g)).filter fun w => w.held sp
    as.length = 2 ∧ allFound as ∧ storeFormat elemOk as = [] ∧ lockFaults s iss.key g true as = [] ∧ tokenFaults s iss.key g as = [] ∧ overflowFaults g held = []

/-- LoadResults: every space, at its first and last bytes, with the load counter at 62; and an element of a format page. -/
theorem witness_loads :
    LoadMeets (.ld .n32 .full .ca (.x 8) (.x 2) .zero 0) .generic 4 false (.x 2) .zero 0 (upd fun g => { ptr 0x10000 0xFFFC g with loads := 62 }) { ptr 0x10000 0xFFFC g0 with loads := 62 } ∧
    LoadMeets (.ld .f32 .full .ca (.x 8) (.x 2) .zero 0) .generic 4 true (.x 2) .zero 0 (paged (ptr 0x2FFFE 1)) (ptr 0x2FFFE 1 g0) ∧
    LoadMeets (.ldl .f64 .full .ca (.x 8) (.x 2) .zero (-8)) .localStore 8 false (.x 2) .zero (-8) (upd (ptr 8 (2 ^ 20 - 8))) (ptr 8 (2 ^ 20 - 8) g0) ∧
    LoadMeets (.ldd .i32 .b8 .ca (.x 8) (.x 2) .zero 0) .die 1 false (.x 2) .zero 0 (upd (ptr 0x10000 1)) (ptr 0x10000 1 g0) ∧
    LoadMeets (.ldsp .i32 .b16 .ca (.x 8) (.x 2) .zero 0) .spill 2 false (.x 2) .zero 0 (upd (ptr 0x100 2)) (ptr 0x100 2 g0) ∧
    LoadMeets (.ldiv .f64iv .ca (.x 8) (.x 2) .zero 0) .generic 16 false (.x 2) .zero 0 (upd (ptr 0x10000 0xFFF0)) (ptr 0x10000 0xFFF0 g0) := by
  refine ⟨?_, ?_, ?_, ?_, ?_, ?_⟩ <;>
    (refine ⟨by decide, ⟨rfl, rfl, by decide, rfl, by decide⟩, by decide, rfl, ?_, ?_⟩ <;> first | (unfold cleanAddrs; decide +kernel) | (simp only [allFound]; decide +kernel))

/-- StoreResults. -/
theorem witness_stores :
    StoreMeets (.st .n32 .full .ca (.x 4) (.x 2) .zero 0) .generic 4 (fun g i => readOp g i .n32 1 (.x 4)) false (.x 2) .zero 0 (upd (ptr 0x10000 0xFFFC)) (ptr 0x10000 0xFFFC g0) ∧
    StoreMeets (.st .f32 .full .ca (.x 4) (.x 2) .zero 0) .generic 4 (fun g i => readOp g i .f32 1 (.x 4)) true (.x 2) .zero 0 (paged (ptr 0x2FFFE 1)) (ptr 0x2FFFE 1 g0) ∧
    StoreMeets (.st .n32 .full .ca (.x 4) (.x 2) .zero 0) .generic 4 (fun g i => readOp g i .n32 1 (.x 4)) false (.x 2) .zero 0 (upd (ptr 0x10000 2)) (ptr 0x10000 2 g0) ∧
    StoreMeets (.stl .f64 .full .ca (.x 4) (.x 2) .zero (-8)) .localStore 8 (fun g i => readOp g i .f64 2 (.x 4)) false (.x 2) .zero (-8) (upd (ptr 8 (2 ^ 20 - 8))) (ptr 8 (2 ^ 20 - 8) g0) ∧
    StoreMeets (.std .i32 .b8 .ca (.x 4) (.x 2) .zero 0) .die 1 (fun g i => readOp g i .i32 1 (.x 4)) false (.x 2) .zero 0 (upd (ptr 0x10000 1)) (ptr 0x10000 1 g0) ∧
    StoreMeets (.stsp .i32 .b16 .ca (.x 4) (.x 2) .zero 0) .spill 2 (fun g i => readOp g i .i32 1 (.x 4)) false (.x 2) .zero 0 (upd (ptr 0x100 2)) (ptr 0x100 2 g0) ∧
    StoreMeets (.stiv .f32iv .ca (.x 4) (.x 2) .zero 0) .generic 8 (fun g i => readOp g i .f32iv 2 (.x 4)) false (.x 2) .zero 0 (upd (ptr 0x10000 0xFFF8)) (ptr 0x10000 0xFFF8 g0) := by
  refine ⟨?_, ?_, ?_, ?_, ?_, ?_, ?_⟩ <;>
    (refine ⟨by decide, ⟨rfl, rfl, by decide, rfl, by decide⟩, ?_, ?_⟩ <;> first | (unfold cleanAddrs; decide +kernel) | (simp only [allFound]; decide +kernel))

/-- A group with one outstanding result of a number of sectors, whose first writes x8 of lane 0, and what it is still owed. -/
def due (n : Nat) (owed : List (Nat × Nat)) (g : Group) : Group :=
  { g with loads := 1, pend := [⟨[⟨0, 8, ⟨5, false⟩⟩] :: List.replicate n [⟨1, 8, ⟨6, false⟩⟩], owed⟩] }

/-- The hypotheses about a result that returns. -/
def Returns (f : Group → Group) (sectors : Nat) (ready : Bool) : Prop :=
  ∃ p ws, (upd f).group? 0 = some (f g0) ∧ (f g0).pend[0]? = some p ∧ p.sectors[0]? = some ws ∧ (f g0).live ≠ 0 ∧ p.sectors.length = sectors ∧ p.ready ws = ready

/-- LoadResults: the last sector of a result, one of several, one whose lane is still owed its answer, and a group that waits at a PHASE; and
answers of two lanes. -/
theorem witness_load_returns :
    Returns (due 0 []) 1 true ∧ Returns (due 1 []) 2 true ∧ Returns (due 0 [(7, 0)]) 1 false ∧ (due 0 [(7, 0)] g0).atPhase = false ∧
    Returns (fun g => due 0 [] { g with lanes := g.lanes.map fun l => { l with wait := .phase } }) 1 true ∧
    (st.group? 0 = some g0 ∧ g0.atPhase = false ∧ [(0, 7), (1, 8)].map (·.1) = lanesOf 3 ∧ fits (.x 254) 2 ∧ fits (.c 7) 1 ∧ fits .lat 1) :=
  ⟨⟨_, _, rfl, rfl, rfl, by decide, rfl, rfl⟩, ⟨_, _, rfl, rfl, rfl, by decide, rfl, rfl⟩, ⟨_, _, rfl, rfl, rfl, by decide, rfl, rfl⟩, by decide,
    ⟨_, _, rfl, rfl, rfl, by decide, rfl, rfl⟩, rfl, by decide, by decide, by unfold fits; decide, by unfold fits; decide, trivial⟩

/-- StoreResults: buffers in which bytes that combine lie once. -/
theorem witness_buffers : (([⟨0, true, 0x10000, 5, false, some 1, some 0, 0⟩, ⟨1, false, 0x10001, 6, true, none, none, 1⟩] : List BufByte).filter (·.combines)).map (·.addr) = [0x10000, 0x10001] := by decide

/-- AtomResults: two lanes at one place and at the end of a page, with and without an old value; and two numbers. -/
theorem witness_atom :
    (let g := ptr 0x1FFFC 0 g0
     let s := upd (ptr 0x1FFFC 0)
     let found := accesses s iss.key g .generic 4 .a (iss.ls.map fun i => (i, laneAddr .generic g (.x 2) .zero 0 i - laneAddr .generic g (.x 2) .zero 0 i % 4))
     wf (.atom .i32 .max .dev false (.x 8) (.x 2) (.x 4) 0) = true ∧ wf (.atom .i32 .add .grp true .zero (.x 2) (.x 4) 0) = true ∧ Runs s iss g ∧
     s.part? (partOf iss.key) = some part0 ∧ cleanAddrs .generic iss g (.x 2) .zero ∧ g.loads < 63 ∧ found.length = 2 ∧ allFound found ∧
     atomFaults s iss.key part0 g .i32 .max (.x 4) found = []) ∧
    (Ty.isInt .i64 = true ∧ 2 ^ 63 < 2 ^ tyWidth .i64 ∧ 2 ^ 64 - 1 < 2 ^ tyWidth .i64) ∧ ((ptr 0x1FFFC 0 g0).atPhase = false) ∧
    ((⟨0x10000, 0, none, none⟩ : Place).key = 0 ∧ isHost 0x10000 = false) ∧
    (Ty.isIv .f32iv = true ∧ (ivOf .f32iv 0x3F80000040000000).isInvalid = true ∧ (ivOf .f32iv 0xFF8000007F800000).isEmpty = true ∧
      (ivOf .f32iv 0x400000003F800000).isNonEmpty = true ∧ 0x400000003F800000 < 2 ^ tyWidth .f32iv) := by
  refine ⟨⟨by decide, by decide, runs_upd _, rfl, ?_, by decide, ?_, ?_, ?_⟩, by decide, by decide, by decide, by decide +kernel⟩ <;>
    first | (unfold cleanAddrs; decide +kernel) | (unfold allFound; decide +kernel) | decide +kernel

/-- HintsFencesAndBindingResults: hints; setts at local offsets 0x200 and 0x220, of which one binds the lines of two pages; and an unbinding. -/
theorem witness_binding :
    (wf (.pref .cb (.x 2) .zero 0) = true ∧ Runs st iss g0 ∧ cleanAddrs .generic iss g0 (.x 2) .zero) ∧
    (let f := xs [(1, fun i => 0x200 + 32 * i), (2, fun i => 0x10080 + 128 * i), (4, fun _ => 1)]
     let s := upd f
     let g := f g0
     let lo := fun i => 0x10080 + 128 * i
     wf (.bind (.x 1) (.x 2) (.x 4) 0) = true ∧ wf (.unbind (.x 1)) = true ∧ Runs s iss g ∧ s.part? (partOf iss.key) = some part0 ∧
     clean32 iss g (.x 4) ∧ (∀ i ∈ iss.ls, (read64 g i (.x 2)).2 = false) ∧
     ∃ refs, namesSetts s iss g (.x 1) refs ∧ refs.map (·.lane) = [0, 1] ∧
       (∀ r ∈ refs, (bindable (lo r.lane) (read32 g r.lane (.x 4)).1).isSome = true) ∧ part0.bindings = [] ∧
       (∀ r ∈ refs, ∀ q ∈ refs, q.lane ≠ r.lane → (⟨0, true, lo r.lane / 128, 1, r.gen⟩ : Binding).overlaps ⟨0, true, lo q.lane / 128, 1, q.gen⟩ = false)) := by
  refine ⟨⟨by decide, runs_st, by unfold cleanAddrs; decide +kernel⟩, by decide, by decide, runs_upd _, rfl, by unfold clean32; decide +kernel, by decide +kernel,
    [⟨0, localAddr 0 0x200, 0xFE000000000200⟩, ⟨1, localAddr 0 0x220, 0xFE000000000220⟩], ?_, rfl, ?_, rfl, ?_⟩
  · unfold namesSetts; rfl
  · decide +kernel
  · decide +kernel

/-- Memory with the four words of a sett at local offset 0x200, of a kind (R221). -/
def settAt (w : List Nat) (s : State) : State := s.setBytes (localAddr 0 0x200) (w.flatMap (leBytes 4))

/-- SettOperations: a lock that is free, held by the asker and by another; a barrier without and with a target; a byte sett below and at its
target. -/
theorem witness_sett_operations :
    let a := localAddr 0 0x200
    st.poisonAt a 32 = false ∧ (settWords (settAt [0, 0, 0, 1] st) a, (settAt [0, 0, 0, 1] st).settKind a) = ((0, 0, 0, 1), 1) ∧
    bit (settWords (settAt [0, 0, 0, 2 ^ 31 + 1] st) a).2.2.2 31 = true ∧ (settWords (settAt [0, 0, 0, 2 ^ 31 + 5 * 2 ^ 16 + 1] st) a).2.2.2 / 2 ^ 16 % 2 ^ 15 = 5 ∧
    (settAt [0, 0, 0, 2 ^ 31 + 5 * 2 ^ 16 + 1] st).settKind a = 1 ∧
    ((settAt [0, 0, 0, 2] st).settKind a = 2 ∧ (settWords (settAt [0, 0, 0, 2] st) a).2.1 = 0) ∧ ((settAt [3, 2, 1, 2] st).settKind a = 2 ∧ settWords (settAt [3, 2, 1, 2] st) a = (3, 2, 1, 2)) ∧
    ((settAt [3, 0, 0, 3] st).settKind a = 3 ∧ (settAt [3, 10, 9, 3] st).settKind a = 3 ∧ settWords (settAt [3, 10, 9, 3] st) a = (3, 10, 9, 3)) ∧
    (¬ ((1 : Nat) = 1 ∧ (0 : Nat) ≠ 0) ∧ ¬ ((2 : Nat) = 2 ∧ (1 : Nat) = 0)) := by decide +kernel

/-- The setts that lanes 0 and 1 name, both at local offset 0x200. -/
def setRefs : List SettRef := [⟨0, localAddr 0 0x200, 0xFE000000000200⟩, ⟨1, localAddr 0 0x200, 0xFE000000000200⟩]

/-- Lanes name the sett at local offset 0x200 in x1; x2 holds a number. -/
def names (n : Nat) (g : Group) : Group := xs [(1, fun _ => 0x200), (2, fun _ => n)] g

theorem names_setts (n : Nat) (w : List Nat) (hn : n = 0 ∨ n = 2) : namesSetts (settAt w (upd (names n))) iss (names n g0) (.x 1) setRefs := by
  have h : ∀ s : State, namesSetts (settAt w s) iss (names n g0) (.x 1) setRefs = namesSetts s iss (names n g0) (.x 1) setRefs := fun s => rfl
  rw [h]
  rcases hn with rfl | rfl <;> (unfold namesSetts; rfl)

/-- SettInstructions: initialisation, expectation, arrivals, a lock taken, a release by its holder, and an acquisition. -/
theorem witness_sett_instructions :
    let g := names 2 g0
    let s := fun w => settAt w (upd (names 2))
    ([.sinit .bar (.x 1) (.x 2), .sexp (.x 1) (.x 2), .stry (.p 1) (.x 1) (.x 2), .acq .team (.x 1), .sarr .sys (.x 1) (.x 2), .rel .grp (.x 1)] : List Instr).all wf = true ∧
    (∀ w, Runs (s w) iss g) ∧ clean32 iss g (.x 2) ∧ g.loads < 63 ∧ (∀ w, namesSetts (s w) iss g (.x 1) setRefs) ∧ (∀ w, settsNear (s w) iss g setRefs) ∧
    (settRun (movedOn (s [0, 0, 0, 0]) iss g) 0 (setRefs.map fun r => (r, .init 2 2))).toOption.isSome = true ∧
    (settRun (movedOn (s [0, 0, 0, 3]) iss g) 0 (setRefs.map fun r => (r, .exp 2))).toOption.isSome = true ∧
    (settRun (movedOn (s [0, 0, 0, 1]) iss g) 0 (setRefs.map fun r => (r, .try_ 2))).toOption.isSome = true ∧
    (settRun (movedOn (s [0, 2, 0, 2]) iss g) 0 (setRefs.map fun r => (r, .arr 2))).toOption.isSome = true ∧
    (settRun (committed (s [0, 2, 0, 2]) iss g) 0 (setRefs.map fun r => (r, .arr 2))).toOption.isSome = true ∧
    (settRun (movedOn (s [0, 2, 0, 2]) iss g) 0 (setRefs.map fun r => (r, .rel))).toOption.isSome = true ∧
    (settRun (committed (s [0, 2, 0, 2]) iss g) 0 (setRefs.map fun r => (r, .rel))).toOption.isSome = true ∧
    (∀ r ∈ setRefs, (s [0, 0, 0, 0]).poisonAt r.phys 32 = false) := by
  refine ⟨by decide, fun _ => ⟨rfl, rfl, by decide, rfl, by decide⟩, by unfold clean32; decide +kernel, by decide, fun _ => names_setts 2 _ (.inr rfl), fun _ => .inl rfl, ?_⟩
  decide +kernel

/-- Deterministic mode, with the sett in die store of the context's quarter. -/
def detUpd (f : Group → Group) : State := (upd f).modPart 0 fun p => { p with det := some Det.new }

/-- A lane of the group that waits at SWAIT, from clock 0 with a limit. -/
def waits (lim : Nat) (g : Group) : Group :=
  { g with resident := 10, lanes := g.lanes.zipIdx.map fun (l, i) => if i = 1 then { l with wait := .swait (localAddr 0 0x200) 0 0 lim 1 } else l }

/-- SwaitResults: setts that have and have not left the awaited generation, and a timeout at its very tick; a sett far away in deterministic
mode. -/
theorem witness_swait :
    (let g := names 0 g0
     let s := fun w => settAt w (upd (names 0))
     wf (.swait (.p 1) (.x 1) (.x 2) 0xFFFFFFF) = true ∧ (∀ w, Runs (s w) iss g) ∧ clean32 iss g (.x 2) ∧ (∀ w, namesSetts (s w) iss g (.x 1) setRefs) ∧ (∀ w, settsNear (s w) iss g setRefs) ∧
     (∀ r ∈ setRefs, (s [0, 2, 0, 2]).poisonAt r.phys 32 = false ∧ (s [0, 2, 0, 2]).settKind r.phys ≠ 1 ∧ (s [0, 2, 0, 2]).settGen r.phys = 0) ∧
     (∀ r ∈ setRefs, (s [1, 2, 0, 2]).poisonAt r.phys 32 = false ∧ (s [1, 2, 0, 2]).settKind r.phys ≠ 1 ∧ (s [1, 2, 0, 2]).settGen r.phys = 1)) ∧
    ((upd (waits 10)).group? 0 = some (waits 10 g0) ∧ 1 < (waits 10 g0).lanes.length ∧ ((waits 10 g0).lane 1).live = true ∧
      ((waits 10 g0).lane 1).wait = .swait (localAddr 0 0x200) 0 0 10 1 ∧ (10 : Nat) ≠ 0 ∧ 0 + 10 ≤ (waits 10 g0).resident) ∧
    (let f := xs [(1, fun i => 0x40000000 + 32 * i)]
     let s := detUpd f
     Runs s iss (f g0) ∧ s.normalMode (partOf iss.key) = false ∧ clean32 iss (f g0) (.x 2) ∧ (f g0).loads < 63 ∧
     ([.sinit .bar (.x 1) (.x 2), .sexp (.x 1) (.x 2), .stry (.p 1) (.x 1) (.x 2), .acq .team (.x 1), .sarr .sys (.x 1) (.x 2), .rel .grp (.x 1)] : List Instr).all wf = true ∧
     ∃ refs, namesSetts s iss (f g0) (.x 1) refs ∧ refs ≠ [] ∧ ∀ r ∈ refs, homeSett (f g0) r.phys = false) := by
  refine ⟨⟨by decide, fun _ => ⟨rfl, rfl, by decide, rfl, by decide⟩, by unfold clean32; decide +kernel, fun _ => names_setts 0 _ (.inl rfl), fun _ => .inl rfl, by decide +kernel, by decide +kernel⟩,
    by decide +kernel, ⟨rfl, rfl, by decide, rfl, by decide⟩, rfl, by unfold clean32; decide +kernel, by decide, by decide,
    [⟨0, dieAddr 0 0, 0xFD000000000000⟩, ⟨1, dieAddr 0 32, 0xFD000000000020⟩], by unfold namesSetts; rfl, by decide +kernel, by decide +kernel⟩

/-- A group whose lanes satisfy a change, by the lane's number. -/
def ln (f : Nat → Lane → Lane) (g : Group) : Group := { g with lanes := g.lanes.zipIdx.map fun (l, i) => f i l }

/-- A group that lives in lanes 0 and 1 alone. -/
def pair (g : Group) : Group := ln (fun i l => { l with live := decide (i < 2) }) g

/-- A group whose lanes but 0 and 1 wait at a barrier. -/
def rest (w : Wait) (g : Group) : Group := ln (fun i l => if i < 2 then l else { l with wait := w }) g

/-- The team of a state. -/
def team0 (s : State) : Team := (tget? 0 s.teams).getD (Team.fresh 0 0 loadTask loadGrid [])

/-- BarriersWait: a team of one group, all of whose lanes wait at BAR, and one of whose lanes does not; lanes 0 and 1 arrive as the last, at BAR
and at CBAR, and so do those of a group of a task of its own. -/
theorem witness_barriers :
    Runs st iss g0 ∧
    (let f := fun g => ln (fun _ l => { l with wait := .bar }) g
     (upd f).group? 0 = some (f g0) ∧ ofTeam 0 (f g0) ∧ tget? 0 (upd f).teams = some (team0 (upd f)) ∧ teamArrived (upd f) 0 .bar ∧ (upd f).teamGroups 0 ≠ []) ∧
    ((upd (rest .bar)).group? 0 = some (rest .bar g0) ∧ ¬ teamArrived (upd (rest .bar)) 0 .bar) ∧
    (let f := fun g => ln (fun _ l => { l with wait := .cbar }) g
     (∃ u ∈ (upd f).clusterTeams (team0 (upd f)), (upd f).teamGroups u.1 ≠ []) ∧ ∀ u ∈ (upd f).clusterTeams (team0 (upd f)), teamArrived (upd f) u.1 .cbar) := by
  refine ⟨runs_st, ⟨rfl, by unfold ofTeam; decide, rfl, ?_, ?_⟩, ⟨rfl, ?_⟩, ?_⟩ <;> first | (unfold teamArrived; decide +kernel) | decide +kernel

theorem witness_last_at_barrier :
    (Runs (upd (rest .bar)) iss (rest .bar g0) ∧ ofTeam 0 (rest .bar g0) ∧ tget? 0 (upd (rest .bar)).teams = some (team0 (upd (rest .bar))) ∧
      (∀ i ∈ iss.ls, ((rest .bar g0).lane i).live = true) ∧ teamArrived (atBarrier (upd (rest .bar)) iss (rest .bar g0) .bar) 0 .bar) ∧
    (Runs (upd (rest .cbar)) iss (rest .cbar g0) ∧ (upd (rest .cbar)).normalMode (team0 (upd (rest .cbar))).part = true ∧
      ∀ u ∈ (upd (rest .cbar)).clusterTeams (team0 (upd (rest .cbar))), teamArrived (atBarrier (upd (rest .cbar)) iss (rest .cbar g0) .cbar) u.1 .cbar) ∧
    (let own := fun g => { rest .bar g with kind := .spawn }
     Runs (upd own) iss (own g0) ∧ (own g0).kind ≠ .team ∧ (own g0).atBkpt = false ∧ (∀ i ∈ iss.ls, ((own g0).lane i).live = true) ∧
     ∀ i, i < (own g0).lanes.length → ((own g0).lane i).live = true → i ∈ iss.ls ∨ ((own g0).lane i).wait = .bar) := by
  refine ⟨⟨runs_upd _, by unfold ofTeam; decide, rfl, ?_, ?_⟩, ⟨runs_upd _, ?_, ?_⟩, runs_upd _, ?_, ?_, ?_, ?_⟩ <;> first | (unfold teamArrived; decide +kernel) | decide +kernel

/-- DrainWrites: two bytes of lane 0 at one address, the first and the last of die store, and one of a lane that does not drain. -/
theorem witness_drain :
    let bufs : List BufByte := [⟨0, true, dieAddr 0 0, 5, false, none, none, 0⟩, ⟨1, true, dieAddr 0 1, 6, false, none, none, 0⟩, ⟨0, true, dieAddr 0 0, 7, true, some 1, none, 2⟩]
    let f := fun g : Group => { g with buf := bufs }
    (upd f).group? 0 = some (f g0) ∧ ∀ b ∈ (f g0).buf, bit 1 b.lane = true → (upd f).rangeKey (partOf 0) b.range = 0 ∧ isHost b.addr = false := by
  refine ⟨rfl, ?_⟩; decide +kernel

/-- Registers x1 and x2 that hold a target PC, x3 a count of instructions. -/
def goes (a n : Nat) (g : Group) : Group := xs [(2, fun _ => a), (3, fun _ => 0xFFFFFFFF), (4, fun _ => n)] g

/-- BranchResults: a target whose sum passes 2^56, and a stream register whose flag bits are set. -/
theorem witness_branches :
    Runs st iss g0 ∧
    (wf (.brx (.x 2) (.x 4)) = true ∧ Runs (upd (goes 0xFFFFFFFC 1)) iss (goes 0xFFFFFFFC 1 g0) ∧
      ∀ i ∈ iss.ls, (read64 (goes 0xFFFFFFFC 1 g0) i (.x 2)).2 = false ∧ (read32 (goes 0xFFFFFFFC 1 g0) i (.x 4)).2 = false ∧ registerTarget (goes 0xFFFFFFFC 1 g0) (.x 2) (.x 4) i = 8) ∧
    (wf (.bse 2 (.s 3) (-1)) = true ∧ wf (.bse 0 (.s 0) 1) = true) := by
  refine ⟨runs_st, ⟨by decide, runs_upd _, by decide +kernel⟩, by decide⟩

/-- Lanes with a return stack of some entries, of which some lie in the spill window. -/
def stacked (n sp : Nat) (g : Group) : Group := ln (fun _ l => { l with stack := List.replicate n 0x40, spilled := sp }) g

/-- CallResults: depths 31 and 32, one entry and none in the core, and a target that is no multiple of 4. -/
theorem witness_calls :
    (Runs (upd (stacked 16 15)) iss (stacked 16 15 g0) ∧ ∀ i ∈ iss.ls, i < (stacked 16 15 g0).lanes.length ∧ ((stacked 16 15 g0).lane i).depth = 31) ∧
    (let f := fun g => stacked 0 0 (goes 0x20000 1 g)
     wf (.callx (.x 2) (.x 4)) = true ∧ Runs (upd f) iss (f g0) ∧ (∀ i ∈ iss.ls, i < (f g0).lanes.length ∧ ((f g0).lane i).depth < 32) ∧
     ∀ i ∈ iss.ls, (read64 (f g0) i (.x 2)).2 = false ∧ (read32 (f g0) i (.x 4)).2 = false ∧ registerTarget (f g0) (.x 2) (.x 4) i % 4 = 0) ∧
    (Runs (upd (stacked 1 1)) iss (stacked 1 1 g0) ∧ ∀ i ∈ iss.ls, i < (stacked 1 1 g0).lanes.length ∧ ((stacked 1 1 g0).lane i).stack ≠ []) ∧
    (Runs (upd (stacked 16 16)) iss (stacked 16 16 g0) ∧ ∀ i ∈ iss.ls, 32 ≤ ((stacked 16 16 g0).lane i).depth) ∧
    (Runs st iss g0 ∧ ∀ i ∈ iss.ls, (g0.lane i).depth = 0) ∧
    (wf (.brx (.x 2) (.x 4)) = true ∧ Runs (upd (goes 2 1)) iss (goes 2 1 g0) ∧ ∃ i ∈ iss.ls, registerTarget (goes 2 1 g0) (.x 2) (.x 4) i % 4 ≠ 0) := by
  refine ⟨⟨runs_upd _, ?_⟩, ⟨by decide, runs_upd _, ?_, ?_⟩, ⟨runs_upd _, ?_⟩, ⟨runs_upd _, ?_⟩, ⟨runs_st, ?_⟩, by decide, runs_upd _, ?_⟩ <;> decide +kernel

/-- A group that waits at a JOIN for the lanes of a mask, lanes 0 and 1 being there since clock 0. -/
def joined (mask lim now : Nat) (g : Group) : Group :=
  { ln (fun i l => if i < 2 then { l with wait := .join } else l) g with joins := [⟨0x10000, mask, 0, lim, 3, 1⟩], resident := now }

/-- JoinResults: an instance at this PC and none; one that is full, and one that is not, at its timeout and one clock before it. -/
theorem witness_joins :
    wf (.join (.p 1) (.x 2) (.x 4)) = true ∧ (Runs (upd (joined 7 9 9)) iss (joined 7 9 9 g0) ∧ ∃ j ∈ (joined 7 9 9 g0).joins, j.pc = iss.pc) ∧
    (Runs (upd (goes 3 0)) iss (goes 3 0 g0) ∧ (∀ j ∈ (goes 3 0 g0).joins, j.pc ≠ iss.pc) ∧ (read32 (goes 3 0 g0) (iss.ls.headD 0) (.x 2)).2 = false ∧ (read32 (goes 3 0 g0) (iss.ls.headD 0) (.x 4)).2 = false) ∧
    (let full := fun (g : Group) (j : Join) => ∀ i ∈ lanesOf j.mask, bit j.lanes i = true ∨ (g.lane i).live = false
     ((joined 3 0 0 g0).joins = [⟨0x10000, 3, 0, 0, 3, 1⟩] ∧ full (joined 3 0 0 g0) ⟨0x10000, 3, 0, 0, 3, 1⟩) ∧
     ((joined 7 9 9 g0).joins = [⟨0x10000, 7, 0, 9, 3, 1⟩] ∧ ¬ full (joined 7 9 9 g0) ⟨0x10000, 7, 0, 9, 3, 1⟩) ∧
     ((upd (joined 7 9 9)).group? 0 = some (joined 7 9 9 g0) ∧ (9 : Nat) ≠ 0 ∧ 0 + 9 ≤ (joined 7 9 9 g0).resident) ∧
     ((upd (joined 7 9 8)).group? 0 = some (joined 7 9 8 g0) ∧ ¬ full (joined 7 9 8 g0) ⟨0x10000, 7, 0, 9, 3, 1⟩ ∧ (joined 7 9 8 g0).resident < 0 + 9)) := by
  refine ⟨by decide, ⟨runs_upd _, by decide +kernel⟩, ⟨runs_upd _, ?_⟩, ⟨rfl, ?_⟩, ⟨rfl, ?_⟩, ⟨rfl, ?_⟩, rfl, ?_, ?_⟩ <;> decide +kernel

/-- RegionResults. -/
theorem witness_region : Runs st iss g0 := runs_st

/-- A group whose live lanes all wait at a PHASE that carries some registers. -/
def phased (h : Halt) (g : Group) : Group :=
  { ln (fun _ l => { l with wait := .phase }) g with halt := h, phasePc := 0x10000, phaseMasks := ⟨1, 0, 2, 1⟩ }

/-- A group has arrived whole at a PHASE, its lanes at one or at several. -/
def Arrived (f : Group → Group) (one : Bool) (fits ext : Bool) : Prop :=
  let g := f g0
  (upd f).group? 0 = some g ∧ g.halt = .running ∧ g.live ≠ 0 ∧ g.atPhase = true ∧ (∀ p ∈ g.pend, p.owed = []) ∧
  decide (∀ i ∈ lanesOf g.live, ∀ j ∈ lanesOf g.live, (g.lane i).pc = (g.lane j).pc) = one ∧ decide (phaseSize g.phaseMasks ≤ 4096) = fits ∧ g.holdsExt = ext

/-- PhaseResults: a record that is saved, with a result outstanding; lanes at two PHASEs; a record that is too long; a held extension; a group
that does not meet; and one that may resume. -/
theorem witness_phase :
    Runs st iss g0 ∧ Arrived (phased .running) true true false ∧ Arrived (fun g => due 1 [] (phased .running g)) true true false ∧
    Arrived (fun g => ln (fun i l => if i = 3 then { l with pc := 12 } else l) (phased .running g)) false true false ∧
    Arrived (fun g => { phased .running g with phaseMasks := ⟨0xFFFFFFFF, 0, 0, 0⟩ }) true false false ∧
    Arrived (fun g => { phased .running g with holdsExt := true }) true true true ∧
    (st.group? 0 = some g0 ∧ g0.atPhase = false) ∧
    ((upd (phased .phase)).group? 0 = some (phased .phase g0) ∧ (upd (phased .phase)).phaseReady 0 (phased .phase g0) = true) := by
  refine ⟨runs_st, ⟨rfl, ?_⟩, ⟨rfl, ?_⟩, ⟨rfl, ?_⟩, ⟨rfl, ?_⟩, ⟨rfl, ?_⟩, ⟨rfl, by decide⟩, rfl, ?_⟩ <;> decide +kernel

theorem tget?_none_of_lanes (g : Group) (i k : Nat) (h : ∀ l ∈ g.lanes, l.x = []) : tget? k (g.lane i).x = none := by
  have : (g.lane i).x = [] := by
    unfold Group.lane
    rw [List.getD_eq_getElem?_getD]
    cases e : g.lanes[i]? with
    | none => rfl
    | some l => exact h l (List.mem_of_getElem? e)
  rw [this]; rfl

/-- A state in which the group 0 holds the extension of its team of two, and group 1 waits for it. -/
def extState : State :=
  let g : Group := { g0 with holdsExt := true }
  let h : Group := { ln (fun _ l => { l with wait := .xacq }) g0 with uid := 99, gidx := 1 }
  { st.setGroup 0 g with groups := tset 1 h (tset 0 g st.groups), teams := st.teams.map fun (n, t) => (n, { t with groups := [0, 1], extHolder := some 0, extQueue := [1] }) }

/-- ExtensionAndWaitResults: a holder, a group without the extension, one with no team; loads outstanding and none; a request that waits. -/
theorem witness_extension :
    (Runs (upd fun g => { g with holdsExt := true }) iss { g0 with holdsExt := true } ∧ Runs st iss g0 ∧ g0.holdsExt = false ∧ g0.team = some 0 ∧
      Runs (upd fun g => { g with team := none }) iss { g0 with team := none } ∧ g0.loads = 0 ∧ Runs (upd fun g => { g with loads := 63 }) iss { g0 with loads := 63 }) ∧
    (∃ g h, tget? 0 extState.teams = some (team0 extState) ∧ (team0 extState).extHolder = some 0 ∧ (team0 extState).extQueue = 1 :: [] ∧ (1 : Nat) ≠ 0 ∧ extState.saved = [] ∧
      extState.group? 0 = some g ∧ g.team = some 0 ∧ g.lanes.length = 32 ∧ extState.group? 1 = some h ∧ h.team = some 0 ∧ h.lanes.length = 32 ∧
      (∀ i k, 64 ≤ k → tget? k (h.lane i).x = none) ∧ ∀ i k, 256 ≤ k → tget? k (g.lane i).x = none) := by
  refine ⟨⟨runs_upd _, runs_st, rfl, rfl, runs_upd _, rfl, runs_upd _⟩, _, _, rfl, rfl, rfl, by decide, rfl, rfl, rfl, rfl, rfl, rfl, rfl, ?_, ?_⟩
  all_goals
    intro i k _
    have h := (tget?_none_of_lanes · i k)
    exact h _ (by decide +kernel)

/-- ExitResults: lanes 0 and 1 exit beside others that live, and as the last; a job with tasks left and with none. -/
theorem witness_exit :
    (Runs st iss g0 ∧ g0.joins = [] ∧ (∃ i, i < 32 ∧ i < g0.lanes.length ∧ i ∉ iss.ls ∧ (g0.lane i).live = true ∧ (g0.lane i).wait = .none) ∧ g0.halt = .running) ∧
    (Runs (upd pair) iss (pair g0) ∧ (pair g0).joins = [] ∧ (∀ i, i < 32 → ((pair g0).lane i).live = true → i ∈ iss.ls) ∧ (pair g0).loads = 0 ∧ (upd pair).busyEngine iss.key = false) ∧
    (∃ p j, st.part? 0 = some p ∧ tget? 0 p.jobs = some j ∧ j.count ≠ 0) ∧
    (∃ p j, (st.modPart 0 fun p => { p with jobs := [(0, ⟨0, 1, 0, 0, 0, some 0, none⟩)] }).part? 0 = some p ∧ tget? 0 p.jobs = some j ∧ j.count = 0 ∧ p.replica = none) := by
  refine ⟨⟨runs_st, rfl, ⟨31, ?_⟩, rfl⟩, ⟨runs_upd _, rfl, ?_, rfl, rfl⟩, ⟨_, _, rfl, rfl, ?_⟩, _, _, rfl, rfl, rfl, rfl⟩ <;> decide +kernel

/-- SpawnResults: a target core with room, and the first core that does not exist. -/
theorem witness_spawn :
    wf (.spawn false true (.x 2) (.x 4) (.x 8)) = true ∧ Runs st iss g0 ∧ (∀ i ∈ iss.ls, (read64 g0 i (.x 2)).2 = false) ∧ st.lacksToken iss.key g0 = false ∧
    st.group? 0 = some g0 ∧ st.part? (partOf 0) = some part0 ∧ part0.det = none ∧ (15 < 16 * part0.quarters.length ∧ st.queueRoom (partOf 0 * 256 + 15) = true) ∧ 16 * part0.quarters.length ≤ 16 := by
  refine ⟨by decide, runs_st, ?_, rfl, rfl, rfl, rfl, ?_, ?_⟩ <;> decide +kernel

/-- TrapAndBreakpointResults. -/
theorem witness_traps : wf (.trap 0xFFFF (.w 2)) = true ∧ wf (.bkpt 0 .zero) = true ∧ Runs st iss g0 := ⟨by decide, by decide, runs_st⟩

/-- The loaded group beside one of no team. -/
def mate : Group := { g0 with kind := .spawn, team := none, uid := 9 }
def withMate : State := { st with groups := st.groups ++ [(7, mate)] }

/-- FaultEndsTheTask: a task of one group, with the greatest code, access and PASID; and a group of another. -/
theorem witness_task_fault : st.group? 0 = some g0 ∧ (∃ k h, (k, h) ∈ st.everyGroup ∧ inTask 0 g0 k h) ∧
    (withMate.group? 0 = some g0 ∧ (7, mate) ∈ withMate.everyGroup ∧ mate.team ≠ g0.team ∧ ∀ x ∈ withMate.taskGroups 0 g0, ¬ (x.1 = 7 ∧ x.2.uid = mate.uid)) ∧
    (let f : FaultInfo := ⟨255, 15, 3, 0, 0, 0⟩
     f.code < 256 ∧ f.acc < 16 ∧ g0.pasid < 2 ^ 20 ∧ { g0 with pasid := 2 ^ 20 - 1 }.pasid < 2 ^ 20) :=
  ⟨rfl, ⟨0, g0, by decide +kernel, rfl, rfl⟩, ⟨rfl, by decide +kernel, by decide, by decide +kernel⟩, by decide⟩

/-! Engine operations. -/

/-- A tensor record from its words and its dimensions (R230). -/
def record (w0 w8 w12 : Nat) (ext box str : List Nat) : List Byte :=
  let dims := fun (l : List Nat) (n k : Nat) => (List.range k).flatMap fun i => leBytes n (l.getD i 0)
  leBytes 8 w0 ++ leBytes 4 w8 ++ leBytes 4 w12 ++ dims ext 2 5 ++ dims box 2 5 ++ dims [] 2 5 ++ leBytes 2 0 ++ dims str 4 4

/-- A block of an MMAB of bf16, 32 by 32, with some stages of 16, its setts at 0x600 and upward (R248). -/
def mmabBytes (k : Nat) : List Byte :=
  leBytes 2 32 ++ leBytes 2 32 ++ leBytes 4 k ++ [6, 4, 1, 1] ++ leBytes 2 16 ++ leBytes 2 0 ++
    [0x8000, 0x800, 0x600, 0x620, 0, 0x4000, 0x640].flatMap (leBytes 4) ++ List.replicate 20 0

/-- A request block of a collective with one shard and a sett at local offset 0x200, of a kind, an operation and a type (R54). -/
def collBytesOf (kind op type : Nat) : List Byte :=
  leBytes 8 0x10000 ++ leBytes 8 0x11000 ++ leBytes 8 0x12000 ++ leBytes 8 (0xFE * 2 ^ 48 + 0x200) ++ leBytes 4 4 ++ leBytes 2 1 ++ leBytes 2 0 ++
    [BitVec.ofNat 8 kind, BitVec.ofNat 8 op, BitVec.ofNat 8 type, 0] ++ leBytes 4 7 ++ leBytes 8 0x13000 ++ leBytes 4 1 ++ leBytes 4 0

/-- The state with memory that holds some bytes in the team's local store, and nothing else. -/
def holding (l : List (Nat × List Byte)) (s : State) : State :=
  { s with mem := l.flatMap fun x => (x.2.zipIdx.filter fun b => b.1 != 0).map fun b => (localAddr 0 (x.1 + b.2), b.1) }

/-- Local store with records: a copy of die store at 0x40, a BQST to page 2 at 0x80, an MMAB at 0x100, a collective at 0x140, a B tile at 0x240,
and its elements at 0x8000; the format page is in the TLB. -/
def engSt (f : Group → Group) : State :=
  holding [(0x40, record (0xFD * 2 ^ 48) (2 ^ 29) 0 [32] [32] []), (0x80, record (2 ^ 56 + 0x20000) (2 ^ 29 + 2 ^ 24) 0x800 [32] [32] []), (0x100, mmabBytes 16),
    (0x140, collBytesOf 1 0 0), (0x240, record (0xFE * 2 ^ 48 + 0x8000) (2 * 2 ^ 29 + 2 ^ 27) 0 [16, 32] [16, 32] [16])] (paged f)

/-- A group whose x1 holds an offset for data, x2 one for a record or block, and x3 a sett. -/
def eng (r : Nat) (g : Group) : Group := xs [(1, fun i => 0x400 + 0x400 * i), (2, fun _ => r), (3, fun _ => 0x200)] g

theorem runs_eng (f : Group → Group) : Runs (engSt f) iss (f g0) := ⟨rfl, rfl, by decide, rfl, by decide⟩

/-- The hypotheses of EngineIssues: the requests stand after the drain; and there is nothing to drain. -/
def IssueMeets {α : Type} (i : Instr) (ops : List Opnd) (token : Bool) (req : State → Issue → Group → Nat → Except (Nat × Nat × Nat) α)
    (room : State → Nat → List α → Prop) (s : State) (g : Group) : Prop :=
  wf i = true ∧ Runs s iss g ∧ (∀ o ∈ ops, clean32 iss g o) ∧ (token = true → s.lacksToken iss.key g = false) ∧
  (∀ k ∈ iss.ls, ∃ r, req (movedOn s iss g) iss (g.stepPast iss) k = .ok r) ∧
  (∃ rs, iss.ls.map (req (committed s iss g) iss (committedGroup s iss g)) = rs.map .ok ∧ room s (coreOf iss.key) rs) ∧
  nothingToDrain s iss g ∧ ∃ rs, iss.ls.map (req (movedOn s iss g) iss (g.stepPast iss)) = rs.map .ok ∧ room s (coreOf iss.key) rs

theorem map_ok {α β ε : Type} (f : α → Except ε β) : ∀ l : List α, l.all (fun k => (f k).toOption.isSome) = true →
    l.map f = (l.filterMap fun k => (f k).toOption).map .ok
  | [], _ => rfl
  | a :: l, h => by
    rw [List.all_cons, Bool.and_eq_true] at h
    cases e : f a with
    | error x => rw [e] at h; cases h.1
    | ok b => simp [e, Except.toOption, map_ok f l h.2]

theorem ok_of_some {α ε : Type} (x : Except ε α) (h : x.toOption.isSome = true) : ∃ r, x = .ok r := by
  cases x with
  | ok r => exact ⟨r, rfl⟩
  | error e => cases h

theorem issueMeets {α : Type} {i : Instr} {ops : List Opnd} {token : Bool} {req : State → Issue → Group → Nat → Except (Nat × Nat × Nat) α}
    {room : State → Nat → List α → Prop} {s : State} {g : Group} (h1 : wf i = true) (h2 : Runs s iss g)
    (h3 : ∀ o ∈ ops, clean32 iss g o) (h4 : s.lacksToken iss.key g = false)
    (h5 : (iss.ls.all fun k => (req (movedOn s iss g) iss (g.stepPast iss) k).toOption.isSome) = true)
    (h6 : (iss.ls.all fun k => (req (committed s iss g) iss (committedGroup s iss g) k).toOption.isSome) = true)
    (h7 : room s (coreOf iss.key) (iss.ls.filterMap fun k => (req (committed s iss g) iss (committedGroup s iss g) k).toOption))
    (h8 : g.buf = []) (h9 : s.links.all (fun l => l.writes == []) = true)
    (h10 : room s (coreOf iss.key) (iss.ls.filterMap fun k => (req (movedOn s iss g) iss (g.stepPast iss) k).toOption)) :
    IssueMeets i ops token req room s g :=
  ⟨h1, h2, h3, fun _ => h4, fun k hk => ok_of_some _ (List.all_eq_true.mp h5 k hk), ⟨_, map_ok _ _ h6, h7⟩,
    ⟨fun b hb => (by rw [h8] at hb; cases hb), fun l hl => by simpa using List.all_eq_true.mp h9 l hl⟩, _, map_ok _ _ h5, h10⟩

/-- EngineOperationsIssue. -/
theorem witness_copies_issue :
    IssueMeets (.bcopyG2l (.x 1) (.x 2) (.x 3)) [.x 1, .x 2, .x 3] false
      (fun s iss g i => bcopyReq s iss g false (.x 2) i (read32 g i (.x 1)).1 (read32 g i (.x 2)).1 (read32 g i (.x 3)).1) bulkRoom (engSt (eng 0x40)) (eng 0x40 g0) ∧
    IssueMeets (.bcopyL2g (.x 1) (.x 2) (.x 3)) [.x 1, .x 2, .x 3] true
      (fun s iss g i => bcopyReq s iss g true (.x 2) i (read32 g i (.x 1)).1 (read32 g i (.x 2)).1 (read32 g i (.x 3)).1) bulkRoom (engSt (eng 0x40)) (eng 0x40 g0) ∧
    IssueMeets (.bqst (.x 1) (.x 2) (.x 3)) [.x 1, .x 2, .x 3] true
      (fun s iss g i => bqstReq s iss g (.x 2) i (read32 g i (.x 1)).1 (read32 g i (.x 2)).1 (read32 g i (.x 3)).1) bulkRoom (engSt (eng 0x80)) (eng 0x80 g0) := by
  refine ⟨?_, ?_, ?_⟩ <;>
    exact issueMeets (by decide) (runs_eng _) (by unfold clean32; decide +kernel) (by decide +kernel) (by decide +kernel) (by decide +kernel)
      (by unfold bulkRoom; decide +kernel) (by decide +kernel) (by decide +kernel) (by unfold bulkRoom; decide +kernel)

theorem witness_matrix_and_collective_issue :
    IssueMeets (.mmab (.x 2)) [.x 2] false (fun s iss g i => mmabReq s iss g (.x 2) i (read32 g i (.x 2)).1)
      (fun s ck rs => (s.mmabsOf ck).length + rs.length ≤ 4 ∧ (tget s.locks ck []).length + rs.length ≤ 64) (engSt (eng 0x100)) (eng 0x100 g0) ∧
    IssueMeets (.coll (.x 2)) [.x 2] true (fun s iss g i => collAt s iss.key g (Opnd.x 2).code i (read32 g i (.x 2)).1)
      (fun s ck rs => s.collCount ck + rs.length ≤ 8 ∧ (tget s.locks ck []).length + 2 * rs.length ≤ 64) (engSt (eng 0x140)) (eng 0x140 g0) := by
  refine ⟨?_, ?_⟩ <;>
    exact issueMeets (by decide) (runs_eng _) (by unfold clean32; decide +kernel) (by decide +kernel) (by decide +kernel) (by decide +kernel)
      (by decide +kernel) (by decide +kernel) (by decide +kernel) (by decide +kernel)

theorem some_of_bind {α β ε : Type} {x : Except ε α} {f : α → Option β} (h : ((x.toOption).bind f).isSome = true) : ∃ r t, x = .ok r ∧ f r = some t := by
  cases x with
  | error e => cases h
  | ok r => exact ⟨r, _, rfl, (Option.some_get h).symm⟩

/-- EngineOperationsIssue: requests that pass their checks, and their issue; a collective's block in die store. -/
theorem witness_requests :
    (∃ r t, bcopyReq (engSt (eng 0x40)) iss (eng 0x40 g0) false (.x 2) 0 0x400 0x40 0x200 = .ok r ∧ (engSt (eng 0x40)).bulkIssue r = some t) ∧
    (∃ r t, bqstReq (engSt (eng 0x80)) iss (eng 0x80 g0) (.x 2) 0 0x400 0x80 0x200 = .ok r ∧ (engSt (eng 0x80)).bulkIssue r = some t) ∧
    (∃ r t, mmabReq (engSt (eng 0x100)) iss (eng 0x100 g0) (.x 2) 0 0x100 = .ok r ∧ (engSt (eng 0x100)).mmabIssue r = some t) ∧
    (∃ r t, collAt (engSt (eng 0x140)) 0 (eng 0x140 g0) (Opnd.x 2).code 0 0x140 = .ok r ∧ (engSt (eng 0x140)).collIssue iss (eng 0x140 g0) r.1 r.2 = some t) ∧
    (∃ r, collAt ({ engSt (eng 0) with mem := (collBytesOf 1 0 0).zipIdx.filterMap fun b => if b.1 = 0 then none else some (dieAddr 0 b.2, b.1) }) 0 (eng 0 g0) (Opnd.x 2).code 0 (2 ^ 30) = .ok r) := by
  refine ⟨some_of_bind ?_, some_of_bind ?_, some_of_bind ?_, some_of_bind ?_, ok_of_some _ ?_⟩ <;> decide +kernel

/-! Completions of engine operations. -/

/-- What an attempt of an engine operation has, where it has the pages. -/
def gotPages : EngTry → List EngPage
  | .pages xs => xs
  | _ => []

/-- Whether it has them. -/
def hasPages : EngTry → Bool
  | .pages _ => true
  | _ => false

theorem pages_got (e : EngTry) (h : hasPages e = true) : e = .pages (gotPages e) := by
  cases e with
  | pages xs => rfl
  | waits s => cases h
  | stop c p g => cases h

/-- A bulk operation of the loaded group on a tensor, with its receiver in its own team. -/
def bulkOp (kind : Nat) (t : List Byte) : BulkOp :=
  { part := 0, core := 0, group := 0, team := 0, pc := 0x10000, pasid := 0, lid := 0, job := 0, kind, tensor := tensorOf t, off := 0x400,
    sett := localAddr 0 0x200, settOff := 0x200, receivers := [0], size := 32, suspended := none, due := 0 }

/-- The state with the two pages' entries in the core's walk-ahead TLB. -/
def ahead (s : State) : State := { s with tlb := [{ fmtEntry with home := 2 ^ 41 }, { loadEntry with home := 2 ^ 41 }] }

/-- And with a bulk operation numbered 5. -/
def bulkSt (b : BulkOp) : State := { ahead st with bulks := [(5, b)] }

/-- A copy of a row of 33 bytes of die store of which the last is out of bounds; a row of a page; a BQST to the format page. -/
def opG2l : BulkOp := bulkOp 0 (record (0xFD * 2 ^ 48) (2 ^ 29) 0 [32] [32] [])
def opL2g : BulkOp := bulkOp 1 (record 0x1FFE0 (2 ^ 29) 0 [32] [32] [])
def opBqst : BulkOp := bulkOp 2 (record (2 ^ 56 + 0x20000) (2 ^ 29 + 2 ^ 24) 0x800 [4] [4] [])

/-- A BQST of a block format whose only block starts 16 bytes off. -/
def opAskew : BulkOp := bulkOp 2 (record (3 * 2 ^ 56 + 0x20010) (2 ^ 29 + 2 ^ 24) 0x800 [32] [32] [])
def askewSt : State := { bulkSt opAskew with tlb := [{ fmtEntry with home := 2 ^ 41, fmt := 3 }] }

/-- The attempt of a copy, and of a write. -/
def tryOf (b : BulkOp) (acc : Acc) : EngTry :=
  engTry (bulkSt b) 5 b.part b.core b.pasid b.tensor.fmt acc (b.tensor.elems.flatMap b.tensor.elemAddrs)

/-- CopiesComplete. -/
theorem witness_copies :
    (∃ xs, tget? 5 (bulkSt opG2l).bulks = some opG2l ∧ opG2l.suspended = none ∧ (bulkSt opG2l).normalMode opG2l.part = true ∧ opG2l.kind = 0 ∧
      (bulkSt opG2l).part? opG2l.part = some part0 ∧ tryOf opG2l .r = .pages xs ∧
      poisonedAddr (bulkSt opG2l) part0 xs (opG2l.tensor.elems.flatMap opG2l.tensor.elemAddrs) = none ∧
      ∀ x ∈ g2lImage (bulkSt opG2l) part0 opG2l.tensor xs, opG2l.off + x.1 < 2 ^ 20) ∧
    (∃ xs, tget? 5 (bulkSt opL2g).bulks = some opL2g ∧ opL2g.suspended = none ∧ (bulkSt opL2g).normalMode opL2g.part = true ∧ opL2g.kind = 1 ∧
      (bulkSt opL2g).part? opL2g.part = some part0 ∧ tryOf opL2g .w = .pages xs ∧
      plainPlaces ((l2gWrites (bulkSt opL2g) part0 opL2g xs).map (·.place)) ∧ (l2gWrites (bulkSt opL2g) part0 opL2g xs).length = 32) ∧
    (∃ xs, tget? 5 (bulkSt opBqst).bulks = some opBqst ∧ opBqst.suspended = none ∧ (bulkSt opBqst).normalMode opBqst.part = true ∧ opBqst.kind = 2 ∧
      (bulkSt opBqst).bqstBlocked 5 opBqst = false ∧ (bulkSt opBqst).part? opBqst.part = some part0 ∧ tryOf opBqst .w = .pages xs ∧
      let shape := bqstShape (bulkSt opBqst) opBqst
      let ws := bqstWrites part0 opBqst xs shape.1 shape.2.1
      opBqst.tensor.partBlock = none ∧ plainPlaces (ws.map (·.place)) ∧ (∀ x ∈ ws, isLocal x.place.phys = false) ∧ ws.length = 4) ∧
    (∃ xs, engTry askewSt 5 0 0 0 3 .w (opAskew.tensor.elems.flatMap opAskew.tensor.elemAddrs) = .pages xs ∧ tget? 5 askewSt.bulks = some opAskew ∧ opAskew.suspended = none ∧
      askewSt.normalMode opAskew.part = true ∧ opAskew.kind = 2 ∧ askewSt.bqstBlocked 5 opAskew = false ∧ opAskew.tensor.partBlock = some 0x20010) := by
  refine ⟨⟨_, rfl, rfl, rfl, rfl, rfl, pages_got _ ?_, ?_, ?_⟩, ⟨_, rfl, rfl, rfl, rfl, rfl, pages_got _ ?_, ?_, ?_⟩,
    ⟨_, rfl, rfl, rfl, rfl, rfl, rfl, pages_got _ ?_, ?_, ?_, ?_, ?_⟩, _, pages_got _ ?_, rfl, rfl, rfl, rfl, rfl, ?_⟩
  all_goals (try unfold plainPlaces); decide +kernel

/-- A group whose x1 names the B tile's record at 0x240. -/
def tile (g : Group) : Group := xs [(1, fun _ => 0x240)] g

/-- An MMAB whose first stage is due, of two chunks or of one; and the state that holds it, with its full sett one generation on. -/
def mmabOp (k st : Nat) (fin : Bool) : MmabOp :=
  { part := 0, core := 0, group := 0, team := 0, pc := 0x10000, pasid := 0, lid := 0, job := 0, block := mmabBytes k, stage := st,
    acc := List.replicate 1024 0, pois := List.replicate 1024 false, chk := List.replicate 1024 0, finished := fin, due := 0, left := none, tile := 0 }
def mmabSt (m : MmabOp) : State := { holding [(0x600, leBytes 4 (m.stage + 1) ++ leBytes 4 0 ++ leBytes 4 0 ++ leBytes 4 2)] st with mmabs := [(5, m)] }

/-- That state with a checker that is busy as the next tile is sampled. -/
def busyChecker (s : State) : State := { s.modPart 0 fun p => { p with sampling := 1, tiles := [(0, 1)] } with samples := [(0, [7])] }

/-- MatrixResults: an MMA whose B tile lies in local store; stages of an MMAB that wait, begin, take their clocks and end, and one whose full
sett is a lock; one that has finished, with its checker idle and busy; a sample that waits and none. -/
theorem witness_matrix :
    (let s := engSt tile
     let g := tile g0
     let bytes := memBytes s.mem (localAddr 0 0x240) 64
     let t := tensorOf bytes
     let bOffs := fun n => (List.range 16).flatMap fun k => (mmaBOffs .bf16x2 t (t.base % 2 ^ 20) k n).elim [] (·.1)
     wf (.mma .bf16x2 true true (.x 32) (.x 64) (.x 1)) = true ∧ wf (.mma .bf16x2 false false (.x 32) (.x 64) (.x 1)) = true ∧ Runs s iss g ∧ g.team = some 0 ∧
     (read32 g (iss.ls.headD 0) (.x 1)).2 = false ∧ (read32 g (iss.ls.headD 0) (.x 1)).1 = 0x240 ∧ 0x240 + 64 ≤ s.lstoreOf g ∧
     s.poisonAt (localAddr 0 0x240) 64 = false ∧ mmaRecordOk .bf16x2 bytes (vcoreOf (coreOf iss.key)) (s.lstoreOf g) = true ∧
     (∀ n, n < 32 → ∀ o ∈ bOffs n, s.locked (coreOf iss.key) (localAddr 0 o) 1 false = false) ∧
     s.sampled (coreOf iss.key) (s.tilesOf (coreOf iss.key) + 1) = false) ∧
    (let ok := fun (s : State) (m : MmabOp) => s.normalMode (partOfCore 0) = true ∧ s.mmabsOf 0 = [(5, m)] ∧ (mmabOf m.block).ty = some .bf16x2
     let first := mmabOp 32 0 false
     let last := { mmabOp 32 2 true with tile := 0 }
     let lock := { mmabSt first with mem := (holding [(0x600, leBytes 12 0 ++ leBytes 4 1)] st).mem }
     (ok (mmabSt first) first ∧ first.left = none ∧ (mmabSt first).stageMisused first = false ∧ (mmabSt first).stageReady first = true ∧ (tget (mmabSt first).locks 0 []).length < 64) ∧
     (ok { mmabSt first with mem := [] } first ∧ ({ mmabSt first with mem := [] } : State).stageMisused first = false ∧ ({ mmabSt first with mem := [] } : State).stageReady first = false) ∧
     (ok lock first ∧ lock.stageMisused first = true) ∧
     (∀ k ∈ [0, 1], ∀ l ∈ [0, 7], let m := { mmabOp 32 k false with left := some l }
       ok (mmabSt m) m ∧ m.finished = false ∧ m.acc.length = 32 * 32 ∧ m.pois.length = 32 * 32 ∧ m.chk.length = 32 * 32) ∧
     (ok (mmabSt last) last ∧ last.finished = true ∧ last.tile ≤ 1 ∧ (mmabSt last).checkerBusy 0 = false ∧ ((mmabSt last).mmabTiles last (mmabOf last.block) .bf16x2 1 0).2 = 1 ∧
       last.pois.length = last.acc.length) ∧
     (ok (busyChecker (mmabSt last)) last ∧ ((busyChecker (mmabSt last)).mmabTiles last (mmabOf last.block) .bf16x2 1 0).2 = 0)) ∧
    ({ st with samples := [(0, [7])] }.samples.find? (·.1 == 0) = some (0, [7]) ∧ st.samples.find? (·.1 == 0) = none) := by
  refine ⟨⟨by decide, by decide, ⟨rfl, rfl, by decide, rfl, by decide⟩, rfl, ?_, ?_, ?_, ?_, ?_, ?_, ?_⟩, ?_, ?_⟩
  all_goals decide +kernel

/-- A collective of one shard, of a kind and type, that has read its node, whose parent is given. -/
def collOp (kind type parent : Nat) (vals : Option (List Nat)) : CollOp :=
  { part := 0, core := 0, group := 0, pc := 0x10000, pasid := 0, lid := 0, job := 0, block := collBytesOf kind (if type = 7 then 3 else 0) type, tag := 7, self := 0,
    nodes := leBytes 2 parent ++ List.replicate 30 0, map := List.replicate 8 0, done := localAddr 0 0x200, timeoutAt := 9, own := [1, 2, 3, 4],
    partials := [(3, [8])], digests := [(0, 55)], passed := 0, sent := false, result := vals, due := 0, suspended := none }
def collSt (c : CollOp) : State := { st with colls := [(5, c)], timer := 9 }

/-- Two shards of a collective on one package, on cores 0 and 1, the second the child of the first. -/
def pairOp (self : Nat) : CollOp :=
  { collOp 1 0 0xFFFF none with
    self, core := self, nodes := leBytes 2 0xFFFF ++ [1, 0] ++ leBytes 2 1 ++ List.replicate 26 0 ++ List.replicate 32 0, map := List.replicate 8 0 ++ [0, 0, 1] ++ List.replicate 5 0 }
def pairSt : State := { st with fw := { st.fw with packageId := 0 }, colls := [(5, pairOp 0), (6, pairOp 1)] }

/-- CollectivesComplete: a child on the package, to which a result passes. -/
theorem witness_collective_child : 1 ∈ (pairOp 0).node.kids ∧ pairSt.shardHere (pairOp 0) 1 = true ∧ pairSt.shardOp (pairOp 0) 1 = some 6 ∧
    tget? 6 pairSt.colls = some (pairOp 1) ∧ (pairOp 1).result = none := by decide +kernel

/-- CollectivesComplete: arrivals that may and may not hold an invalid interval, a root's and a foreign digest, a leaf below the root and a
root, and the timeout's tick and the one before it. -/
theorem witness_collectives :
    (tget? 5 (collSt (collOp 0 7 0xFFFF none)).colls = some (collOp 0 7 0xFFFF none) ∧ ∀ v ∈ [0x400000003F800000, 0], collNan (collBlock (collOp 0 7 0xFFFF none).block).type (v % 2 ^ 128) = false) ∧
    ((collOp 0 0 0xFFFF (some [0])).result.isSome = true ∧ (collBlock (collOp 0 6 0xFFFF none).block).type = 6) ∧
    (let c := collOp 1 0 0xFFFF none
     tget? 5 (collSt c).colls = some c ∧ c.node.parent = 0xFFFF ∧ c.result = none ∧ c.own ≠ [] ∧ c.nodes ≠ [] ∧ c.suspended = none ∧ c.digests.head? = some (0, 55) ∧
     (∀ x ∈ c.digests, x.1 ≠ 1) ∧ 56 ≠ (0, 55).2) ∧
    (let c := collOp 0 0 4 none
     (collSt c).normalMode c.part = true ∧ c.node.kids = [] ∧ (collBlock c.block).kind = 0 ∧ c.node.parent ≠ 0xFFFF) ∧
    (let c := collOp 1 0 0xFFFF none
     let b := collBlock c.block
     let s := { ahead st with colls := [(5, c)] }
     tget? 5 s.colls = some c ∧ c.result = none ∧ c.nodes ≠ [] ∧ c.suspended = none ∧ s.normalMode c.part = true ∧ c.node.kids = [] ∧ b.kind ≠ 0 ∧ s.part? c.part = some part0 ∧
     ∃ xs, engTry s 5 c.part c.core c.pasid 0 .w ((List.range (4 * b.count)).map (b.dst + ·)) = .pages xs ∧
       plainPlaces (((List.range b.count).flatMap fun k => (List.range 4).flatMap fun q => (engPlaces part0 xs (b.dst + 4 * k + q)).take 1))) ∧
    ((collOp 0 0 4 none).timeoutAt ≤ (collSt (collOp 0 0 4 none)).timer ∧ { collSt (collOp 0 0 4 none) with timer := 8 }.timer < (collOp 0 0 4 none).timeoutAt) := by
  refine ⟨⟨rfl, ?_⟩, ?_, ⟨rfl, ?_⟩, ?_, ⟨rfl, rfl, ?_, rfl, rfl, ?_, ?_, rfl, _, pages_got _ ?_, ?_⟩, ?_⟩
  all_goals (try unfold plainPlaces); decide +kernel

/-! Streams, automata and system operations. -/

/-- A stream with a ring at the start of die store, with two events posted and none below its base. -/
def stream (hold : Bool) : Stream := ⟨0xFD * 2 ^ 48, 0, 4, 2, false, false, hold, 2, 0, 0, none, some 10, some 9, [8, 9]⟩

/-- An automaton on the root's table, in slot 1 of quarter 0's engine. -/
def aut (stop : Bool) : Automaton := { Automaton.fresh (autTableOf (rootImage 0)) 8 0 0 (0xFD * 2 ^ 48 + 0x8000) [0] with stopped := stop }

/-- The loaded state with streams 0 and 7 open and 8 assigned, and with the automaton. -/
def evSt (hold stop : Bool) (f : Group → Group) : State :=
  { (upd f).modPart 0 fun p => { p with streams := [(0, stream false), (7, stream hold)], assigned := [7, 8] } with
    engines := [(0, { Engine.empty with slots := [(1, aut stop)] })] }

/-- The partition of that state. -/
def partEv (hold : Bool) : Part := { loadPart with streams := [(0, stream false), (7, stream hold)], assigned := [7, 8] }

/-- A group whose x1 holds the offset of a block, x2 and x3 the handle of event 1 of stream 7, x4 a stream, and x5 an automaton's number. -/
def handles (g : Group) : Group := xs [(1, fun i => 64 + 64 * i), (2, fun _ => 1), (3, fun _ => 7 * 2 ^ 16), (4, fun _ => 7), (5, fun _ => 1)] g

theorem runs_ev (hold stop : Bool) (f : Group → Group) : Runs (evSt hold stop f) iss (f g0) := by
  cases hold <;> cases stop <;> exact ⟨rfl, rfl, by decide, rfl, by decide⟩

/-- Blocks in the local store of a state. -/
theorem blocks_at (s : State) (g : Group) (o : Opnd) (al n pn : Nat) (h : g.team = some 0)
    (h' : (iss.ls.all fun i => decide ((read32 g i o).1 % al = 0 ∧ (read32 g i o).1 + n ≤ s.lstoreOf g ∧ s.poisonAt (localAddr 0 (read32 g i o).1) pn = false)) = true) :
    namesBlocks s g iss.ls o al n pn :=
  ⟨0, h, fun i hi => of_decide_eq_true (List.all_eq_true.mp h' i hi)⟩

/-- A post of the group, of a class, an operation and a time. -/
def postOf (op time : Nat) : Post := ⟨op, time, 0x100, [], false, false, 0, false, .group 0⟩

/-- EventInstructions: posts; a stream that is not open; a time below the last; an event read, and one below the stream's base; releases with
and without HOLD; a system stream and another. -/
theorem witness_events :
    (wf (.evpost (.x 8) (.x 1) (.x 4)) = true ∧ Runs (evSt true false handles) iss (handles g0) ∧ (handles g0).loads < 63 ∧ (evSt true false handles).lacksToken iss.key (handles g0) = false ∧
      clean32 iss (handles g0) (.x 1) ∧ clean32 iss (handles g0) (.x 4) ∧ namesBlocks (evSt true false handles) (handles g0) iss.ls (.x 1) 64 64 16) ∧
    (evSt true false id).stream? (partOf 0) 8 = none ∧
    ((evSt true false id).stream? (partOf 0) 7 = some (stream true) ∧ bits (fieldOf (memBytes (evSt true false id).mem (localAddr 0 64) 64) 8 8) 62 2 = 0 ∧
      fieldOf (memBytes (evSt true false id).mem (localAddr 0 64) 64) 8 8 % 2 ^ 62 = 0 ∧ ∀ k, k < 12 → (evSt true false id).poisonAt (localAddr 0 64 + 16 + 4 * k) 4 = false) ∧
    ((evSt true false id).stream? 0 7 = some (stream true) ∧ (postOf 1 8).op ≠ 2 ∧ ∃ t, (stream true).last = some t ∧ (postOf 1 8).time < t) ∧
    (∃ t q, (evSt true false id).post 0 7 (postOf 0 11) = .ok (t, some q)) ∧
    (isHost (dieAddr 0 0) = false ∧ ∀ l ∈ (evSt true false id).links, l.writes = []) ∧
    (wf (.evld (.x 16) (.x 2)) = true ∧ (handles g0).atPhase = false ∧ clean64 iss (handles g0) (.x 2) ∧
      (∀ i ∈ iss.ls, ∃ sid st q, (evSt true false handles).handle? (partOf iss.key) (read64 (handles g0) i (.x 2)).1 = some (sid, st, q) ∧ st.low ≤ q ∧ q < st.tail ∧
        0xFD * 2 ^ 48 + 64 = st.entry q) ∧
      (let found := accesses (evSt true false handles) iss.key (handles g0) .generic 64 .r (iss.ls.map fun i => (i, 0xFD * 2 ^ 48 + 64))
       allFound found ∧ loadFormat false found = [] ∧ lockFaults (evSt true false handles) iss.key (handles g0) false found = [] ∧
       hostNeeds (evSt true false handles) iss.key (found.flatMap fun x => x.places.map (·.1)) = [])) ∧
    (wf (.evrel (.x 2)) = true ∧ wf (.wmark (.x 2) (.x 4)) = true) ∧
    ((evSt true false id).handle? 0 (7 * 2 ^ 48 + 1) = some (7, stream true, 1) ∧ (evSt false false id).handle? 0 (7 * 2 ^ 48 + 1) = some (7, stream false, 1)) ∧
    ((evSt true false id).stream? 0 0 = some (stream false) ∧ (0 * 16 ≤ 0 ∧ 0 ≤ 0 * 16 + 4)) := by
  refine ⟨⟨by decide, runs_ev _ _ _, by decide, rfl, ?_, ?_, blocks_at _ _ _ _ _ _ rfl ?_⟩, rfl, ⟨rfl, ?_⟩, ⟨rfl, by decide, 9, rfl, by decide⟩, ?_, ?_, ⟨by decide, by decide, ?_, ?_, ?_, ?_, ?_, ?_⟩,
    by decide, ⟨rfl, rfl⟩, rfl, by decide⟩
  · unfold clean32; decide +kernel
  · unfold clean32; decide +kernel
  · decide +kernel
  · decide +kernel
  · have h : ((evSt true false id).post 0 7 (postOf 0 11)).toOption.any (·.2.isSome) = true := by decide +kernel
    cases e : (evSt true false id).post 0 7 (postOf 0 11) with
    | error x => rw [e] at h; cases h
    | ok r =>
      obtain ⟨t, q⟩ := r
      rw [e] at h
      cases q with
      | none => cases h
      | some q => exact ⟨t, q, rfl⟩
  · decide +kernel
  · unfold clean64; decide +kernel
  · intro i hi
    rcases (by simpa [iss, Issue.ls, lanesOf] using (show i ∈ [0, 1] from hi) : i = 0 ∨ i = 1) with rfl | rfl <;>
      exact ⟨7, stream true, 1, rfl, by decide, by decide, by decide⟩
  · unfold allFound; decide +kernel
  all_goals decide +kernel

/-- A handle whose event is at the stream's tail. -/
def beyond (g : Group) : Group := xs [(2, fun _ => 2), (3, fun _ => 7 * 2 ^ 16)] g

/-- EventInstructions: handles of an event that the stream does not hold. -/
theorem witness_stale_handles : wf (.evld (.x 16) (.x 2)) = true ∧ Runs (evSt true false beyond) iss (beyond g0) ∧ clean64 iss (beyond g0) (.x 2) ∧ iss.ls ≠ [] ∧
    ∀ i ∈ iss.ls, (evSt true false beyond).handle? (partOf iss.key) (read64 (beyond g0) i (.x 2)).1 = some (7, stream true, 2) ∧ (stream true).tail ≤ 2 := by
  refine ⟨by decide, runs_ev _ _ _, by unfold clean64; decide +kernel, by decide, by decide +kernel⟩

/-- SystemRegisterResults: a stream pattern of three elements at offset 0x40; a deterministic share whose holder is another group. -/
theorem witness_system_registers :
    ([.sysrd (.x 8) (.imm 5), .sysrd (.x 8) (.x 1), .ccnt .n32 (.x 8), .ccnt .n64 (.x 8), .rand .f32 (.x 8), .psnt .n32 (.p 1) (.x 2), .psntClr .n32 (.x 8) (.x 2),
      .sbind (.s 3) (.x 1), .sfree (.s 3)] : List Instr).all wf = true ∧
    (Runs (upd handles) iss (handles g0) ∧ clean32 iss (handles g0) (.x 1) ∧ (handles g0).loads < 63 ∧ (upd handles).lacksToken iss.key (handles g0) = false) ∧
    (let s := (upd handles).modPart 0 fun p => { p with det := some { Det.new with holder := some 77 } }
     Runs s iss (handles g0) ∧ s.lacksToken iss.key (handles g0) = true) ∧
    (let s := holding [(0x40, leBytes 4 0x1000 ++ leBytes 4 (2 + 16) ++ leBytes 2 3 ++ List.replicate 6 0 ++ leBytes 4 4 ++ List.replicate 12 0)] (upd handles)
     Runs s iss (handles g0) ∧ (handles g0).team = some 0 ∧ (read32 (handles g0) (iss.ls.headD 0) (.x 1)) = (0x40, false) ∧ 0x40 % 32 = 0 ∧ 0x40 + 32 ≤ s.lstoreOf (handles g0) ∧
     s.poisonAt (localAddr 0 0x40) 32 = false ∧ patternOk (memBytes s.mem (localAddr 0 0x40) 32) = true) := by
  refine ⟨by decide, ⟨runs_upd _, by unfold clean32; decide +kernel, by decide, rfl⟩, ⟨⟨rfl, rfl, by decide, rfl, by decide⟩, by decide +kernel⟩, ⟨rfl, rfl, by decide, rfl, by decide⟩, rfl, ?_, ?_, ?_, ?_, ?_⟩ <;>
    decide +kernel

/-- An install block of the root's table into slot 2 of quarter 0, and a state that holds it and the table. -/
def installBytes : List Byte := leBytes 8 (0xFD * 2 ^ 48 + 0x1000) ++ leBytes 8 (0xFD * 2 ^ 48 + 0x10000) ++ leBytes 8 0 ++ leBytes 4 5 ++ [0, 2, 0, 0] ++ List.replicate 32 0
def instSt : State := (evSt true false id).setBytes (dieAddr 0 0x1000) (rootImage 0)

/-- The state with an operation on the automaton that waits, and with an output of it in the queue. -/
def waiting (s : State) : State := { s with engines := tmod 0 (fun e => { e with ops := [⟨3, .stop, 1, 0, 0, false⟩] }) s.engines }
def outputs (s : State) : State := { s with engines := tmod 0 (fun e => { e with out := [.raise 1 7 5] }) s.engines }

/-- AutomatonInstructions: blocks and operands; a running and a stopped automaton; numbers that name none; streams that are open, assigned,
and the system's; an installation. -/
theorem witness_automata :
    ([.autld (.x 8) (.x 1), .autctlOpen (.x 8) (.x 1), .autctlClose (.x 8) (.x 4), .autctlResume (.x 8) (.x 5), .autctlCkpt (.x 8) (.x 5) (.x 2), .autctlCount (.x 8) (.x 5),
      .autctlStop (.x 8) (.x 5), .autctlRemove (.x 8) (.x 5)] : List Instr).all wf = true ∧
    (Runs (evSt true true handles) iss (handles g0) ∧ (handles g0).loads < 63 ∧ (evSt true true handles).lacksToken iss.key (handles g0) = false ∧
      clean32 iss (handles g0) (.x 1) ∧ clean32 iss (handles g0) (.x 5) ∧ clean64 iss (handles g0) (.x 2) ∧ namesBlocks (evSt true true handles) (handles g0) iss.ls (.x 1) 64 64 64) ∧
    ((evSt true true id).named 0 0 1 = .ok (0, 1, aut true) ∧ (evSt true true id).hasOutputs 0 1 = false ∧ (aut true).stopped = true ∧
      (evSt true false id).named 0 0 1 = .ok (0, 1, aut false) ∧ (evSt true false id).hasOutputs 0 1 = false) ∧
    ((evSt true true id).named 0 0 0 = .error 3 ∧ (evSt true true id).named 0 0 2 = .error 1 ∧ (32 : Nat) % 64 ≠ 0) ∧
    ((evSt true true id).stream? 0 7 ≠ none ∧ (evSt true true id).stream? 0 8 = none ∧ ¬ (0 * 16 ≤ 8 ∧ 8 ≤ 0 * 16 + 4)) ∧
    (let bs := leBytes 7 (0xFD * 2 ^ 48) ++ [0] ++ leBytes 2 8 ++ [4, 2, 1] ++ List.replicate 19 0
     (evSt true true id).part? 0 = some (partEv true) ∧ streamOf 0 bs = some (8, { stream true with tail := 0, wm := none, last := none, times := [] }) ∧ 8 ∈ (partEv true).assigned ∧
     thas 8 (partEv true).streams = false ∧ ringInside (partEv true) (0xFD * 2 ^ 48) 4 = true ∧ thas 7 (partEv true).streams = true) ∧
    installBad [0, 0, 0, 0, 0, 0, 0, 1] = true := by
  refine ⟨by decide, ⟨runs_ev _ _ _, by decide, rfl, ?_, ?_, ?_, blocks_at _ _ _ _ _ _ rfl ?_⟩, ⟨rfl, rfl, rfl, rfl, rfl⟩, ⟨rfl, rfl, by decide⟩, ⟨?_, rfl, by decide⟩, ⟨rfl, ?_⟩, ?_⟩
  · unfold clean32; decide +kernel
  · unfold clean32; decide +kernel
  · unfold clean64; decide +kernel
  all_goals decide +kernel

/-- AutomatonInstructions: an operation behind another on its automaton, and one that finds none before it; a stopped automaton with outputs;
a resumption; and a checkpoint. -/
theorem witness_automaton_order :
    (let o : AutOp := ⟨0, .resume, 1, 0, 0, false⟩
     (∃ x ∈ ((waiting (evSt true true id)).engine o.quarter).ops, x.slot = o.slot) ∧ (waiting (evSt true true id)).named o.part o.pasid o.value = .ok (0, 1, aut true) ∧
     (∀ x ∈ ((evSt true true id).engine o.quarter).ops, x.slot ≠ o.slot) ∧ ∃ t v, autTry (.group 0) o (evSt true true id) = .ok (t, some v)) ∧
    ((outputs (evSt true true id)).named 0 0 1 = .ok (0, 1, aut true) ∧ (outputs (evSt true true id)).hasOutputs 0 1 = true) ∧
    (let a := { aut true with next := [2] }
     let s := (evSt true false id).setAutomaton 0 1 a
     let a' := { a with stopped := false, cause := 0, ctxStop := false }
     s.named 0 0 1 = .ok (0, 1, a) ∧ a.evictedSeg = false ∧ (∀ sid ∈ a.table.watch, (s.stream? 0 sid).isSome = true) ∧ (s.setAutomaton 0 1 a').nextEvent 0 a' = none) ∧
    ∃ t, (evSt true true id).ctxWrite (.group 0) 0 false 0 (0xFD * 2 ^ 48 + 0x2000) (spoorBytes (aut true) 0) = .ok t := by
  refine ⟨⟨⟨⟨3, .stop, 1, 0, 0, false⟩, ?_, ?_⟩, rfl, ?_, _, _, rfl⟩, ⟨rfl, rfl⟩, ⟨rfl, rfl, ?_, ?_⟩, ok_of_some _ ?_⟩ <;> decide +kernel

/-- AutomatonInstructions: an installation. -/
theorem witness_installation :
    let b := installOf installBytes
    instSt.part? 0 = some (partEv true) ∧ installBad installBytes = false ∧ b.restore = false ∧
    ∃ image e seg next, instSt.readTable (.group 0) 0 false 0 b.table = .ok image ∧ areaOk (partEv true) b.area (autTableOf image).budget = true ∧ b.quarter ∈ (partEv true).quarters ∧ b.slot ≠ 0 ∧
      instSt.automaton? b.quarter b.slot = none ∧ autTableOk (partEv true) image = true ∧ (instSt.engine b.quarter).makeRun (autTableOf image).budget = some (e, seg) ∧
      instSt.startNext 0 (autTableOf image) = some next := by
  refine ⟨rfl, by decide +kernel, by decide +kernel, rootImage 0, { Engine.empty with slots := [(1, aut false)] }, 72, [2], ?_, by decide +kernel⟩
  have h : (instSt.readTable (.group 0) 0 false 0 (0xFD * 2 ^ 48 + 0x1000)).toOption = some (rootImage 0) := by decide +kernel
  have ok : ∀ x : Except XErr (List Byte), x.toOption = some (rootImage 0) → x = .ok (rootImage 0) := by
    intro x h
    cases x with
    | error e => cases h
    | ok v => cases h; rfl
  exact ok _ h

/-- A state whose partition has two queues, the second a swapped one of generation 3. -/
def queued : State := (upd handles).modPart 0 fun p => { p with queues := [(0, ⟨true, 0, 0, 0, 0, 4, false, 0, 0, []⟩), (1, ⟨true, 3, 0, 0, 0, 4, true, 0, 1, [loadTask]⟩)] }

/-- A state whose group 0 is halted at BKPT. -/
def stopped : State := upd fun g => { g with halt := .bkpt 0x10000 3 7 9 0 }

/-- What an operation answers: nothing yet, a status, or that it has to ask a link first. -/
def answer (x : Except XErr (State × Option Nat)) : Option (Option Nat) := x.toOption.map (·.2)

/-- A context whose page 1 is mapped by five levels of tables, and a block that migrates it to frame 4. -/
def migBytes : List Byte := leBytes 4 0 ++ leBytes 4 0 ++ leBytes 8 0x10000 ++ leBytes 8 0x40000 ++ leBytes 8 0 ++ List.replicate 32 0
def migPart : Part := { loadPart with ranges := [⟨true, 0, 0xFFFF, 0, true, true, true, false, false, 0, false, 0⟩] }
def migSt : State :=
  let table := fun (k next : Nat) (s : State) => s.setBytes (0x100000 + 0x2000 * k) (leBytes 8 (2 ^ 63 + next))
  let s := { upd handles with parts := tset 0 migPart (upd handles).parts }
  let s := { s with ctxs := tset 0 { Ctx.new with root := some 0x100000 } s.ctxs }
  let s := table 3 0x108000 (table 2 0x106000 (table 1 0x104000 (table 0 0x102000 s)))
  s.setBytes 0x108010 (leBytes 8 (2 ^ 63 + 2 ^ 62 + 0x30000 + 7 * 2 ^ 13))

/-- The migration that the block begins. -/
def mig : Migration := ⟨3, 0, false, 1, 1, 0x108010, 2 ^ 63 + 2 ^ 62 + 0x30000 + 7 * 2 ^ 13, 0, 0x40000, 0⟩

theorem ok_ok_of_some {α β ε : Type} {x : Except ε α} {f : α → Except ε β} (h : ((x.toOption).bind fun a => (f a).toOption).isSome = true) :
    ∃ u w, x = .ok u ∧ f u = .ok w := by
  cases x with
  | error e => cases h
  | ok u =>
    obtain ⟨w, hw⟩ := ok_of_some (f u) h
    exact ⟨u, w, rfl, hw⟩

/-- SystemWrites: a migration begins; it copies its page and writes the leaf; two sectors in plain memory. -/
theorem witness_migration :
    answer (sysOne 0 0x102 0 migBytes migSt) = some none ∧ migSt.part? 0 = some migPart ∧ migSt.flushWrites.migrationNeeds migPart mig = [] ∧
    (∃ u w, (mig.frames.foldlM (fun s (x : Nat × Nat × Nat) => s.copyFrame (.mover mig.serial) 0 migPart mig.secure mig.pasid x.1 x.2.1 x.2.2) migSt.flushWrites) = .ok u ∧
      u.putLeaf migPart mig (mig.lo - bits mig.lo 16 40 * 0x10000 + mig.data) (mig.hi - bits mig.hi 12 44 * 0x1000 + mig.side) = .ok w) ∧
    ((⟨0x30000, 0, none, some 0⟩ : Place).key = 0 ∧ isHost 0x30000 = false ∧ ∀ l ∈ migSt.links, l.writes = []) := by
  refine ⟨by decide +kernel, rfl, by decide +kernel, ok_ok_of_some ?_, by decide +kernel⟩
  decide +kernel

/-- SystemWrites: selectors in registers and as immediates, with blocks; a halted group that continues and one that ends; a context; queues. -/
theorem witness_system_writes :
    ([.syswrGctl (.x 8) (.imm 0x10) (.x 1), .syswrGctl (.x 8) (.x 4) (.x 1), .syswrContextSet (.x 8) (.x 1), .syswrInvalidate (.x 8) (.x 1), .syswrMigrate (.x 8) (.x 1),
      .syswrContextStop (.x 8) (.x 1), .syswrContextResume (.x 8) (.x 1), .syswrGroup (.x 8) (.x 1), .syswrQueueCreate (.x 8) (.x 1), .syswrQueueDestroy (.x 8) (.x 1),
      .syswrQueueSwap (.x 8) (.x 1)] : List Instr).all wf = true ∧
    (Runs (upd handles) iss (handles g0) ∧ (handles g0).loads < 63 ∧ (upd handles).lacksToken iss.key (handles g0) = false ∧ clean32 iss (handles g0) (.x 4) ∧ clean32 iss (handles g0) (.x 1) ∧
      (iss.ls.filter fun k => (read32 (handles g0) k (.x 4)).1 != 0x010) = [0, 1] ∧ namesBlocks (upd handles) (handles g0) iss.ls (.x 1) 64 64 64) ∧
    (answer (sysOne 0 0x0FF 0 [] st) = some (some (refusedWith 1)) ∧ (0x0FF : Nat) ≠ 0x010 ∧ 0x0FF < 0x100 ∧ st.part? (partOf 0) = some part0) ∧
    (let bs := leBytes 4 0 ++ [15] ++ List.replicate 3 0 ++ leBytes 8 0x1000 ++ leBytes 8 0x10000 ++ leBytes 4 2 ++ leBytes 4 1 ++ List.replicate 32 0
     answer (sysOne 0 0x100 0 bs st) = some (some 0) ∧ bit (fieldOf bs 4 1) 0 = true ∧ bit (fieldOf bs 4 1) 1 = true ∧ bit (fieldOf bs 4 1) 2 = true ∧ bit (fieldOf bs 4 1) 3 = true ∧
     fieldOf (leBytes 4 9) 0 4 ∉ part0.pasids) ∧
    (let bs := leBytes 4 0 ++ leBytes 4 0 ++ leBytes 8 0x10000 ++ leBytes 4 1 ++ List.replicate 44 0
     answer (sysOne 0 0x101 0 bs st) = some (some 0)) ∧
    (answer (sysOne 0 0x103 0 (List.replicate 64 0) st) = some (some 0) ∧ answer (sysOne 0 0x104 0 (List.replicate 64 0) st) = some (some 0)) ∧
    (let bs := fun act => leBytes 4 0 ++ leBytes 4 0 ++ leBytes 4 act ++ List.replicate 52 0
     fieldOf (bs 1) 0 4 < 256 ∧ fieldOf (bs 1) 4 4 < 48 ∧ zeroBytes (bs 1) 12 64 = true ∧ fieldOf (bs 0) 8 4 = 0 ∧ fieldOf (bs 1) 8 4 = 1 ∧
     ∃ g, stopped.group? ((partOf 0 * 256 + fieldOf (bs 1) 0 4) * 48 + fieldOf (bs 1) 4 4) = some g ∧ g.halt = .bkpt 0x10000 3 7 9 0) ∧
    (∃ p, queued.part? (partOf 0) = some p ∧ (∀ j, j < 2 → (tget p.queues j Queue.new).created = true) ∧ (tget p.queues 2 Queue.new).created = false ∧
      (let bs := leBytes 4 15 ++ leBytes 4 0 ++ leBytes 8 0x10000 ++ leBytes 4 0x10000 ++ List.replicate 44 0
       zeroBytes bs 20 64 = true ∧ fieldOf bs 4 4 ∈ p.pasids ∧ fieldOf bs 4 4 < 2 ^ 20 ∧ fieldOf bs 8 8 % 64 = 0 ∧ fieldOf bs 8 8 < 2 ^ 56 ∧
       fieldOf bs 16 4 = 2 ^ 16 ∧ fieldOf bs 0 4 < 16 * p.quarters.length) ∧
      (let bs := leBytes 4 (3 * 2 ^ 16 + 1) ++ leBytes 4 1 ++ List.replicate 56 0
       zeroBytes (leBytes 4 (3 * 2 ^ 16 + 1) ++ List.replicate 60 0) 4 64 = true ∧ zeroBytes bs 8 64 = true ∧ fieldOf bs 4 4 = 1 ∧
       (liveQueue p (fieldOf bs 0 4)).isSome = true ∧ (liveQueue p 0).isSome = true)) := by
  refine ⟨by decide, ⟨runs_upd _, by decide, rfl, ?_, ?_, rfl, blocks_at _ _ _ _ _ _ rfl ?_⟩, ?_, ?_, ?_, ?_, ⟨?_, ?_, ?_, ?_, ?_, ⟨_, rfl, rfl⟩⟩, ⟨_, rfl, ?_⟩⟩
  · unfold clean32; decide +kernel
  · unfold clean32; decide +kernel
  all_goals decide +kernel

/-- SystemWrites: a swapped queue with a task that has room where it goes. -/
theorem witness_swap_in :
    let bs := leBytes 4 (3 * 2 ^ 16 + 1) ++ List.replicate 60 0
    zeroBytes bs 8 64 = true ∧ fieldOf bs 4 4 = 0 ∧ ∃ p q t, queued.part? 0 = some p ∧ liveQueue p (fieldOf bs 0 4) = some (1, q) ∧ q.tasks = [loadTask] ∧
      q.tasks.foldlM (fun (s : State) t => if s.queueRoom q.core then some (s.enqueue q.core t) else none) queued = some t := by
  refine ⟨by decide +kernel, by decide +kernel, _, ⟨true, 3, 0, 0, 0, 4, true, 0, 1, [loadTask]⟩, _, rfl, by decide +kernel, rfl, rfl⟩

/-! Steps of the machine. -/

/-- The loaded state with its partition changed. -/
def partSt (f : Part → Part) : State := st.modPart 0 f

/-- With a core's queue, and no group and no team on it. -/
def bare (f : Part → Part) (cores : Tbl CoreSt) : State := { partSt f with groups := [], teams := [], cores := cores }

/-- A core with a queue and requests. -/
def coreWith (q : List Task) (rs : List (Nat × Nat)) : CoreSt := { CoreSt.empty with queue := q, requests := rs }

/-- A grid of one cluster of n teams in a row, whose groups fill a core's registers or hold none but the least. -/
def clustered (n groups : Nat) : Grid := { loadGrid with cw := n, teams := n, map := List.range n, left := n, lstore := 0, groups := groups }

/-- A gathering window, with and without waiters, and a retry, both due at clock 5. -/
def windowOf (ws : List Waiter) : Window := ⟨0, 2, 1, 1, 0, 0, 5, ws, 0, 0, 0x10000⟩
def waitSt (ws : List Waiter) (now : Nat) : State := { partSt fun p => { p with windows := [windowOf ws], retries := [⟨5, 0, 2, [.group 0]⟩] } with clock := now }

/-- A context whose slice of one unit is used but for some clocks, beside queued tasks. -/
def sliceSt (n : Nat) (q : List Task) (f : Group → Group) : State :=
  { upd f with ctxs := [(0, { Ctx.new with slice := 1, used := [(0, n)] })], cores := [(0, coreWith q [])] }

/-- A group of context 1 that has been halted in place beside the loaded one. -/
def beside : Group := { g0 with pasid := 1, uid := 9, pre := .inPlace 3 false }

/-- A SPAWN group halted in place, with a save area in die store, while a task that fills the core waits. -/
def evictSt : State :=
  { partSt fun p => { p with grids := [(0, clustered 1 48)] } with
    groups := [(0, { g0 with kind := .spawn, team := none, pre := .inPlace 3 false })], teams := [], ctxs := [(0, { Ctx.new with save := some (0xFD * 2 ^ 48) })],
    cores := [(0, coreWith [{ loadTask with pasid := 1 }] [])] }

/-- A state whose only range lies behind link 0 and is translated by ATS, with a context's root in it. -/
def hostPart : Part := { loadPart with ranges := [⟨true, 0, 0xFFFF, 0, true, true, true, false, true, 0, true, 0⟩] }
def hostSt (f : Group → Group) : State :=
  { upd f with parts := tset 0 hostPart st.parts, ctxs := tset 0 { Ctx.new with root := some 0x100000 } st.ctxs }

/-- SchedulerSteps: a page in the core's TLB, in the die's, of a walk that succeeds, of one that fails, and of one that has to ask a link. -/
theorem witness_walks :
    ((hostSt fun g => { g with walks := [2] }).group? 0 = some { g0 with walks := [2] } ∧ { g0 with walks := [2] }.walks ≠ [] ∧
      (((hostSt fun g => { g with walks := [2] }).fillTlb 0 { g0 with walks := [2] } 2).2 = true)) ∧
    ((∀ s ∈ [st, hostSt id], ∃ p, s.part? (partOf 0) = some p) ∧ st.tlbHit (coreOf 0) (partOf 0) g0.pasid 1 = some loadEntry) ∧
    (let s := { st with tlb := [{ loadEntry with home := dieTlb (dieOf (st.coreQuarter (coreOf 0))) }] }
     s.tlbHit (coreOf 0) (partOf 0) g0.pasid 1 = none ∧ (s.tlbHit (dieTlb (dieOf (s.coreQuarter (coreOf 0)))) (partOf 0) g0.pasid 1).isSome = true) ∧
    (∃ e, ({ migSt with tlb := [] }.walkPage (.group 0) (coreOf 0) 0 migPart (st.coreSecure (coreOf 0)) 0 1) = .ok e) ∧
    (st.tlbHit (coreOf 0) (partOf 0) g0.pasid 2 = none ∧ st.walkPage (.group 0) (coreOf 0) 0 part0 (st.coreSecure (coreOf 0)) 0 2 = .error (.flt 0x01 0) ∧ (XErr.flt 0x01 0).asks = false) ∧
    ((hostSt id).walkPage (.group 0) (coreOf 0) 0 hostPart ((hostSt id).coreSecure (coreOf 0)) 0 2 = .error (.ats 0 0 16) ∧ (XErr.ats 0 0 16).asks = true) := by
  refine ⟨⟨rfl, by decide, by decide +kernel⟩, ⟨?_, by decide +kernel⟩, ⟨by decide +kernel, by decide +kernel⟩, ok_of_some _ (by decide +kernel), ⟨by decide +kernel, rfl, rfl⟩, rfl, rfl⟩
  intro s hs
  rcases (by simpa using hs : s = st ∨ s = hostSt id) with rfl | rfl <;> exact ⟨_, rfl⟩

/-- A lane that waits at a barrier. -/
def barred (g : Group) : Group := ln (fun i l => if i = 0 then { l with wait := .bar } else l) g

/-- The group after a state's results have returned. -/
def returned (s : State) : Group := ((s.returnAll 0).group? 0).getD g0

/-- SchedulerSteps: groups that halt: one that is kept whole in either mode, one that is not, and one that waits for pages; a slice's end in
deterministic mode. -/
theorem witness_halts :
    (st.group? 0 = some g0 ∧ g0.pre = .no ∧ (st.returnAll 0).group? 0 = some (returned st) ∧ (st.returnAll 0).normalMode (partOf 0) = true ∧ (returned st).whole = false ∧
      (returned st).halt = .running ∧ ((returned st).lane 0).live = true ∧ ((returned st).lane 0).committed = false ∧ ((st.returnAll 0).markerAt 0 (returned st) 0).isSome = false) ∧
    ((returned (upd barred)).whole = true ∧ (returned (upd barred)).halt = .running) ∧
    (((detUpd id).returnAll 0).normalMode (partOf 0) = false ∧ (detUpd id).normalMode (partOfCore 0) = false) ∧
    (let s := upd fun g => { g with halt := .aborted [] }
     s.group? 0 = some { g0 with halt := .aborted [] } ∧ (returned s).halt = .aborted []) ∧
    (0 < g0.lanes.length) := by
  decide +kernel

/-- SchedulerSteps: windows and retries at their clock and one before it; slices at their end and one clock before it, with nobody
waiting, a starved task, and a halted context; an eviction; a task of each kind. -/
theorem witness_scheduler :
    Runs st iss g0 ∧
    ((upd fun g => { g with walks := [2] }).group? 0 = some { g0 with walks := [2] } ∧ { g0 with walks := [2] }.walks ≠ [] ∧ ((upd fun g => { g with walks := [2] }).fillTlb 0 { g0 with walks := [2] } 2).2 = false) ∧
    (∃ p, (waitSt [.group 0] 5).part? 0 = some p ∧ p.windows[0]? = some (windowOf [.group 0]) ∧ p.retries[0]? = some ⟨5, 0, 2, [.group 0]⟩ ∧ (windowOf [.group 0]).closes ≤ (waitSt [.group 0] 5).clock ∧
      (windowOf [.group 0]).waiters ≠ [] ∧ (waitSt [.group 0] 5).recordFull 0 = false ∧ p.pending.length < 4096 ∧ (p.pending.find? fun e => e.pasid == 0 && e.page == 2) = none ∧
      (waitSt [] 4).clock < (windowOf []).closes ∧ (windowOf []).waiters = []) ∧
    ((upd fun g => { g with halt := .aborted [] }).group? 0 = some { g0 with halt := .aborted [] }) ∧
    ((sliceSt 1023 [] id).normalMode (partOfCore 0) = true ∧ tget (tget (sliceSt 1023 [] id).ctxs (ctxKey 0 0) Ctx.new).used 0 0 < 1024 * 1 ∧
      1024 * 1 ≤ tget (tget (sliceSt 1024 [] id).ctxs (ctxKey 0 0) Ctx.new).used 0 0 ∧ (sliceSt 1024 [] id).starved 0 0 = none ∧ (sliceSt 1024 [] id).longestHalted 0 0 = none ∧
      (sliceSt 1024 [{ loadTask with pasid := 1 }] id).starved 0 0 = some { loadTask with pasid := 1 } ∧ (sliceSt 1024 [{ loadTask with pasid := 1 }] id).longestHalted 0 0 = none ∧
      { sliceSt 1024 [] id with groups := [(0, g0), (1, beside)] }.longestHalted 0 0 = some 1) ∧
    st.evictable 0 = none ∧
    (∃ g w, evictSt.evictable 0 = some ⟨none, [0]⟩ ∧ ([0] : List Nat).head?.bind evictSt.group? = some g ∧
      (∀ k ∈ [0], ((([0] : List Nat).foldl State.returnAll evictSt).group? k).isSome = true) ∧
      (([0] : List Nat).foldl State.returnAll evictSt).writeUnit 0 g.pasid ⟨none, [0]⟩ = .ok w) ∧
    (let ok := fun (s : State) (t : Task) => s.normalMode (partOfCore 0) = true ∧ s.dispatchable 0 = some t ∧ s.gridOf (partOfCore 0) t.grid = some loadGrid ∧
       loadGrid.groups ≤ (s.freeSlots 0).length ∧ s.freeSlots 0 ≠ []
     let spawn := { loadTask with kind := .spawn }
     let pool := { loadTask with kind := .pool, team := some 0, count := 5 }
     ok (bare id [(0, coreWith [loadTask] [])]) loadTask ∧ ok { st with cores := [(0, coreWith [spawn] [])] } spawn ∧ ok { st with cores := [(0, coreWith [pool] [])] } pool) := by
  refine ⟨runs_st, ⟨rfl, by decide, by decide +kernel⟩, ⟨_, rfl, rfl, rfl, ?_⟩, rfl, ?_, by decide +kernel, ?_, ?_⟩
  · decide +kernel
  · decide +kernel
  · have h : (evictSt.group? 0).isSome = true := rfl
    have h' : ((([0] : List Nat).foldl State.returnAll evictSt).writeUnit 0 0 ⟨none, [0]⟩).toOption.isSome = true := by decide +kernel
    obtain ⟨w, hw⟩ := ok_of_some _ h'
    exact ⟨_, w, by decide +kernel, rfl, by decide +kernel, hw⟩
  · decide +kernel

theorem error_of {α ε : Type} [DecidableEq ε] {x : Except ε α} {e : ε}
    (h : (match x with | .error y => decide (y = e) | .ok _ => false) = true) : x = .error e := by
  cases x with
  | error y => rw [of_decide_eq_true h]
  | ok v => cases h

theorem ok_of {α ε : Type} [DecidableEq α] {x : Except ε α} {v : α}
    (h : (match x with | .ok y => decide (y = v) | .error _ => false) = true) : x = .ok v := by
  cases x with
  | error y => cases h
  | ok y => rw [of_decide_eq_true h]

/-- A state with a grid of one cluster of n cores whose tasks wait at their cores, of which core 1 has a request and rank 0 a reservation. -/
def clusterSt (n : Nat) : State :=
  { bare (fun p => { p with grids := [(0, clustered n 1)], reservations := [⟨0, 0, [0], some 1⟩] })
      ((List.range n).map fun i => (i, coreWith [{ loadTask with sub := i }] (if i = 1 then [(0, 0)] else []))) with clock := 2048 }

/-- The same before any reservation. -/
def clusterSt0 : State := bare (fun p => { p with grids := [(0, clustered 2 1)] }) [(0, coreWith [loadTask] []), (1, coreWith [{ loadTask with sub := 1 }] [])]

/-- A template for one team of one group on core 0, and a launch that names it, in die store (R132). -/
def templateBytes : List Byte := leBytes 8 0x10000 ++ leBytes 8 (0xFD * 2 ^ 48 + 0x2000) ++ [1, 1, 1, 0, 0, 0x11, 0x10, 0] ++ List.replicate 232 0
def launch (t : Nat) : Launch := ⟨0xFD * 2 ^ 48 + t, [], 5, 0, 0, false⟩
def launchSt (t : Nat) : State := (partSt fun p => { p with launches := [launch t, launch 0] }).setBytes (dieAddr 0 0x1000) templateBytes

/-- ClusterBalanceAndLaunchSteps: a reservation; a grant that asks a third core, and the last grant; an exchange at a multiple of 1024 clocks
and at clock 0 in deterministic mode; a launch that is admitted, and one whose template's version is 0. -/
theorem witness_clusters :
    (∃ p, clusterSt0.normalMode (partOfCore 0) = true ∧ clusterSt0.reservable 0 = some (loadTask, clustered 2 1) ∧ clusterSt0.part? (partOfCore 0) = some p ∧
      nextAsked ((clustered 2 1).clusterCores 0 0) [0] = some 1) ∧
    (∀ n ∈ [2, 3], ∃ p, (clusterSt n).normalMode (partOfCore 1) = true ∧ (clusterSt n).grantable 1 = some (0, 0, { loadTask with sub := 1 }) ∧ (clusterSt n).part? (partOfCore 1) = some p ∧
      (p.reservations.find? fun r => r.grid == 0 && r.cluster == 0) = some ⟨0, 0, [0], some 1⟩ ∧
      nextAsked (((clusterSt n).gridOf 0 0).elim [] fun g => g.clusterCores 0 0) [0, 1] = if n = 3 then some 2 else none) ∧
    (∃ p q, (clusterSt 2).part? 0 = some p ∧ p.det = none ∧ (clusterSt 2).clock % 1024 = 0 ∧ (partSt fun p => { p with det := some Det.new }).part? 0 = some q ∧ q.det ≠ none) ∧
    (∃ p, (launchSt 0x1000).normalMode 0 = true ∧ (launchSt 0x1000).part? 0 = some p ∧ p.halted = false ∧ p.placing = none ∧ p.launches = launch 0x1000 :: [launch 0] ∧
      (checkLaunch ((launchSt 0x1000).modPart 0 fun p => { p with launches := [launch 0] }) 0 { p with launches := [launch 0] } (launch 0x1000)).toOption = some (templateOf templateBytes, 1, [0]) ∧
      (∀ j, j < 1 → thas j p.grids = true) ∧ thas 1 p.grids = false) ∧
    (∃ p, (launchSt 0x3000).part? 0 = some p ∧ checkLaunch ((launchSt 0x3000).modPart 0 fun p => { p with launches := [launch 0] }) 0 { p with launches := [launch 0] } (launch 0x3000) = .error (2, noTeam)) := by
  refine ⟨⟨_, rfl, by decide +kernel, rfl, by decide⟩, ?_, ⟨_, _, rfl, rfl, rfl, rfl, by decide⟩, ⟨_, rfl, rfl, rfl, rfl, rfl, by decide +kernel, by decide +kernel, by decide +kernel⟩, _, rfl, error_of (by decide +kernel)⟩
  intro n hn
  rcases (by simpa using hn : n = 2 ∨ n = 3) with rfl | rfl <;> exact ⟨_, rfl, by decide +kernel, rfl, rfl, by decide +kernel⟩

/-- A stream with an event of time 9 not yet processed, and one with all processed, below a watermark of 10; and the automaton that
watches it, with a budget's candidates. -/
def matchSt (seen : Nat) (out : List Output) : State :=
  { (evSt true false id).modPart 0 fun p => { p with streams := [(0, { stream false with times := [8, 9] })] } with
    engines := [(0, { Engine.empty with slots := [(1, { aut false with next := [seen] })], out := out })] }

/-- The automaton of that state. -/
def watching (seen : Nat) : Automaton := { aut false with next := [seen] }

/-- The state of a deterministic share at a boundary, and with a holder that passes or none. -/
def detSt (d : Det) : State := partSt fun p => { p with det := some d }

/-- MatchEngineAndBoundarySteps. -/
theorem witness_match_engine :
    (∃ pos e, (matchSt 1 []).scannable 0 1 = some (0, watching 1) ∧ (matchSt 1 []).nextEvent 0 (watching 1) = some pos ∧
      ((matchSt 1 []).setEngine 0 { (matchSt 1 []).engine 0 with rot := 1 }).takeEvent 0 0 1 (watching 1) pos = .ok e) ∧
    (∃ pos, (matchSt 1 []).nextEvent 0 (watching 1) = some pos ∧
      (((matchSt 1 []).setPoison (dieAddr 0 0x40) true).setEngine 0 { (matchSt 1 []).engine 0 with rot := 1 }).takeEvent 0 0 1 (watching 1) pos = .error (.flt 0x23 0)) ∧
    (0 < (watching 1).table.budget ∧ (watching 1).cands.length ≤ (watching 1).table.budget) ∧
    ((matchSt 2 []).scannable 0 1 = some (0, watching 2) ∧ (matchSt 2 []).passDue 0 (watching 2) = some 10) ∧
    (matchSt 2 []).partOfQuarter 0 = some 0 ∧
    (let d := { Det.new with round := 256, applied := some 0, ring := [⟨9, 0, none, none, false⟩, ⟨0, 0, some 0, none, false⟩], holder := some 9 }
     (detSt d).detOf 0 = some d ∧ d.atBoundary = true ∧ (∀ x ∈ (detSt d).samples, partOfCore x.1 ≠ 0) ∧ ((detSt d).dueActs 0 d).length = 0 ∧
     (let d := { d with passing := true }
      (detSt d).detOf 0 = some d ∧ d.holder = some 9 ∧ d.passing = true ∧ (detSt d).heldUid 0 d 9 = false ∧ (d.search (d.place 9 + 1)).map (·.uid) = some 0) ∧
     (let d := { d with holder := none }
      (detSt d).detOf 0 = some d ∧ d.holder = none ∧ d.search d.lastHolder = some ⟨0, 0, some 0, none, false⟩) ∧
     ((detSt d).group? 0 = some g0 ∧ partOf 0 = 0) ∧ { d with round := 255 }.atBoundary = false) := by
  refine ⟨⟨(9, 0, 1), ⟨9, 0, false, List.replicate 12 0, 0, 1⟩, rfl, by decide +kernel, ?_⟩, ⟨(9, 0, 1), by decide +kernel, error_of (by decide +kernel)⟩, ⟨by decide, by decide⟩, ⟨rfl, rfl⟩, rfl, rfl, rfl, by decide +kernel, by decide +kernel, ⟨rfl, rfl, rfl, rfl, rfl⟩, ⟨rfl, rfl, rfl⟩, ⟨rfl, rfl⟩, rfl⟩
  exact ok_of (by decide +kernel)

/-- ClusterBalanceAndLaunchSteps: a template behind a link, which is asked for first. -/
theorem witness_launch_asks :
    let l : Launch := ⟨0x20000, [], 5, 0, 0, false⟩
    let p := { hostPart with launches := [l] }
    let s := { hostSt id with parts := tset 0 p st.parts }
    s.normalMode 0 = true ∧ s.part? 0 = some p ∧ p.halted = false ∧ p.placing = none ∧ launchAsks s 0 l = some (.ats 0 0 16) := by
  refine ⟨rfl, rfl, rfl, rfl, ?_⟩; decide +kernel

/-- The scanner's state with the watched stream's ring behind a link. -/
def farSt : State :=
  { matchSt 1 [] with
    parts := tset 0 { hostPart with streams := [(0, { stream false with base := 0x20000, times := [8, 9] }), (7, stream true)] } st.parts
    ctxs := tset 0 { Ctx.new with root := some 0x100000 } st.ctxs }

/-- An engine whose queue holds 32 entries. -/
def fullQueue : State := matchSt 1 (List.replicate 32 (.report 1 0 7 0 0 []))

/-- MatchEngineAndBoundarySteps: an event that has to be asked for; a queue of 32 entries and one more; an automaton with a frame; an act
that is due. -/
theorem witness_match_engine_waits :
    (∃ pos, farSt.scannable 0 1 = some (0, watching 1) ∧ farSt.nextEvent 0 (watching 1) = some pos ∧
      (farSt.setEngine 0 { farSt.engine 0 with rot := 1 }).takeEvent 0 0 1 (watching 1) pos = .error (.ats 0 0 16) ∧ (XErr.ats 0 0 16).asks = true) ∧
    ((fullQueue.engine 0).queued ≤ 32 ∧ ((fullQueue.queueOutputs 0 [.report 1 0 7 0 0 []]).engine 0).spill ≠ []) ∧
    (let s := (evSt true false id).firstFrame 0 1 (aut false)
     ∃ a bs, s.automaton? 0 1 = some a ∧ s.latestFrame a = some bs) ∧
    (let d := { Det.new with round := 256, applied := some 0 }
     (({ detSt d with bulks := [(5, opG2l)] }).dueActs 0 d).map DueAct.op = [5]) := by
  refine ⟨⟨(9, 0, 1), by decide +kernel, by decide +kernel, error_of (by decide +kernel), rfl⟩, by decide +kernel, ?_, by decide +kernel⟩
  have h : ((((evSt true false id).firstFrame 0 1 (aut false)).automaton? 0 1).bind
      ((evSt true false id).firstFrame 0 1 (aut false)).latestFrame).isSome = true := by decide +kernel
  obtain ⟨bs, hb⟩ := Option.isSome_iff_exists.mp h
  obtain ⟨a, ha, hf⟩ := Option.bind_eq_some_iff.mp hb
  exact ⟨a, bs, ha, hf⟩

/-! The host and firmware. -/

/-- The state with link 0's port 0 enabled for partition 0, and slot 3 mapped to stream 7; a window that closes at tick 9; an interrupt entry. -/
def portOf (pend : Nat) : Port := { Port.new with en := true, slots := [(3, { Slot.new with map := true, w := true, stream := 7 })], window := some 9, pendCount := pend }
def portSt (pend : Nat) (e : Remap) (now : Nat) : State :=
  { (evSt true false id) with timer := now, links := [{ Link.new with ports := [(0, portOf pend)], remaps := [(5, e)] }, Link.new] }

/-- A packet at time 11. -/
def packet : Packet := ⟨11, 0x100, 0, 0, []⟩

/-- The state with stream 7's ring on page 2 of the context, which nothing maps, or with a root behind link 0. -/
def ringSt (far : Bool) : State :=
  { portSt 0 Remap.new 0 with
    parts := tset 0 { (if far then hostPart else loadPart) with streams := [(7, { stream true with base := 0x20000 })], assigned := [7] } st.parts
    ctxs := tset 0 { Ctx.new with root := if far then some 0x100000 else none } st.ctxs }

/-- A post of the packet. -/
def posting (pkt : Packet) (s : State) : Except PostStop (State × Option Nat) :=
  s.postActs 0 7 ⟨pkt.op, pkt.time, pkt.cls, pkt.payload.map (·.toNat), false, false, 0, s.securePort 0 0, .ring⟩

/-- HostAccesses: no packet waits; one that is refused by its stream, one whose ring faults, one whose ring has to be asked for, and one that
waits behind another. -/
theorem witness_packets :
    (∀ s ∈ [portSt 0 Remap.new 0, ringSt false, ringSt true], ∃ l, s.links[0]? = some l ∧ ¬ l.parked ≠ []) ∧
    (packetReason (portSt 0 Remap.new 0) (portOf 0) ((portOf 0).slot 3) true (some 0) { packet with time := 8 } = none ∧ posting { packet with time := 8 } (portSt 0 Remap.new 0) = .error (.refused 7)) ∧
    (packetReason (ringSt false) (portOf 0) ((portOf 0).slot 3) true (some 0) packet = none ∧ posting packet (ringSt false) = .error (.ring 1 0) ∧
      (ringSt false).stream? 0 7 = some { stream true with base := 0x20000 }) ∧
    (packetReason (ringSt true) (portOf 0) ((portOf 0).slot 3) true (some 0) packet = none ∧ posting packet (ringSt true) = .error (.waits (.ats 0 0 16))) ∧
    (∃ l, ((portSt 0 Remap.new 0).park 0 0 3 none packet).links[0]? = some l ∧ l.parked ≠ [] ∧ l.parked = [(0, 3, none, packet)]) := by
  refine ⟨?_, ⟨by decide +kernel, error_of (by decide +kernel)⟩, ⟨by decide +kernel, error_of (by decide +kernel), rfl⟩, ⟨by decide +kernel, error_of (by decide +kernel)⟩, _, rfl, by decide, rfl⟩
  intro s hs
  rcases (by simpa using hs : s = portSt 0 Remap.new 0 ∨ s = ringSt false ∨ s = ringSt true) with rfl | rfl | rfl <;> exact ⟨_, rfl, by decide⟩

/-- HostAccesses: accesses at the BARs: a read of the mailbox, a write of BAR 2 of two packets, and one that is no sequence of packets. -/
theorem witness_bars :
    (let acc : BarAccess := ⟨0, 0, 0x13C, 4, none, false, 0, true⟩
     acc.bar = 0 ∧ acc.write = false ∧ acc.off < 0x140 ∧ acc.off % 4 = 0 ∧ acc.len = 4 ∧ acc.pasid = none ∧ st.links[acc.link]? = some Link.new) ∧
    (let acc : BarAccess := ⟨0, 2, 2 ^ 21 - 128, 128, none, true, 0, true⟩
     acc.bar = 2 ∧ acc.off + acc.len ≤ 2 ^ 21 ∧ acc.write = true ∧ packetsOk acc = true ∧ packetsOk { acc with full := false } = false ∧ { acc with len := 64 }.len = 64 ∧ acc.off % 64 = 0) := by decide

/-- HostAccesses. -/
theorem witness_host :
    (packetReason (portSt 0 Remap.new 0) (portOf 0) ((portOf 0).slot 3) (((portSt 0 Remap.new 0).links[0]?).elim false (·.enabled)) (some 0) packet = none ∧ (portSt 0 Remap.new 0).port 0 0 = portOf 0 ∧
      ∃ t q, (portSt 0 Remap.new 0).postActs 0 7 ⟨0, 11, 0x100, [], false, false, 0, false, .ring⟩ = .ok (t, some q)) ∧
    (packetReason (portSt 0 Remap.new 0) (portOf 0) ((portOf 0).slot 4) true (some 0) packet = some 3 ∧ packetReason (portSt 0 Remap.new 0) (portOf 0) ((portOf 0).slot 3) true none packet = some 4) ∧
    (1 < (portSt 0 Remap.new 0).links.length ∧ packetReason (portSt 0 Remap.new 0) (portOf 0) ((portOf 0).slot 3) true (some 0) { packet with op := 2 } = none ∧
      (portSt 0 Remap.new 0).stream? 0 7 = some (stream true) ∧ (stream true).timed = false) ∧
    (let e := { Remap.new with pend := true, mask := false, mod := 4, lastSent := some 5 }
     (∃ l, (portSt 0 e 9).links[0]? = some l ∧ tget l.remaps 5 Remap.new = e) ∧ e.due 8 = false ∧ e.due 9 = true) ∧
    (((portSt 1 Remap.new 9).port 0 0).window = some 9 ∧ 9 ≤ (portSt 1 Remap.new 9).timer ∧ ((portSt 1 Remap.new 9).port 0 0).pendCount ≠ 0 ∧ ((portSt 0 Remap.new 9).port 0 0).pendCount = 0 ∧
      (portSt 1 Remap.new 8).timer < 9) ∧
    (((portSt 0 Remap.new 0).links[0]?).elim false (·.enabled) = true ∧ (some 0 = some (portOf 0).pasid ∧ (portSt 0 Remap.new 0).livePasid (portOf 0) = true) ∧
      ((4 : Nat) ≠ 8 ∨ 0 % 8 ≠ 0 ∨ 64 ≤ 0) ∧ ((8 : Nat) ≠ 8 ∨ 64 % 8 ≠ 0 ∨ 64 ≤ 64)) ∧
    (let acc : BarAccess := ⟨0, 0, 0x140, 4, none, true, 0, true⟩
     acc.bar = 0 ∧ 0x140 ≤ acc.off ∧ inMsix acc.off acc.len = false) ∧
    (st.links[1]? = some Link.new ∧ Link.new.mailbox.go = false ∧ bit (0x80050001#32).toNat 31 = true ∧ (31 : Nat) < 32 ∧ ((0xC0 : Nat) % 4 ≠ 0 ∨ (0xC0 ≤ 0xC0 ∧ 0xC0 < 0x80000))) := by
  refine ⟨⟨by decide +kernel, rfl, ?_⟩, ⟨by decide +kernel, by decide +kernel⟩, ⟨by decide, by decide +kernel, rfl, rfl⟩, ⟨⟨_, rfl, rfl⟩, by decide, by decide⟩, ?_, ?_, ?_, rfl, ?_⟩
  · have h : ((portSt 0 Remap.new 0).postActs 0 7 ⟨0, 11, 0x100, [], false, false, 0, false, .ring⟩).toOption.any (·.2.isSome) = true := by decide +kernel
    cases e : (portSt 0 Remap.new 0).postActs 0 7 ⟨0, 11, 0x100, [], false, false, 0, false, .ring⟩ with
    | error x => rw [e] at h; cases h
    | ok r =>
      obtain ⟨t, q⟩ := r
      rw [e] at h
      cases q with
      | none => cases h
      | some q => exact ⟨t, q, rfl⟩
  all_goals decide +kernel

/-- The state with a command and its arguments in link 0's mailbox. -/
def cmd (opcode : Nat) (args : List Nat) (s : State) : State :=
  { s with links := lmod 0 (fun l => { l with mailbox := { l.mailbox with
      go := true, opcode := opcode, args := (args ++ List.replicate (32 - args.length) 0).map (BitVec.ofNat 32) } }) s.links }
def link0 (s : State) : Link := (s.links[0]?).getD Link.new

/-- The hypotheses of Commands, CommandsTo and Declines. -/
def CmdMeets (opcode : Nat) (scope : Option Nat) (args : List Nat) (s : State) (met : Nat → (Nat → Nat) → State → Prop) : Prop :=
  Commanded (cmd opcode args s) 0 opcode scope (link0 (cmd opcode args s)) ∧ met 0 (argWord (link0 (cmd opcode args s))) (cmd opcode args s)

theorem cmd_meets {opcode : Nat} {scope : Option Nat} {args : List Nat} {s : State} {met : Nat → (Nat → Nat) → State → Prop}
    (h : let c := cmd opcode args s
      (c.links[0]?.isSome && c.firmwareTurn 0 && c.fw.available && (link0 c).mailbox.opcode == opcode && scope.all (argWord (link0 c) 0 == ·)) = true)
    (h' : met 0 (argWord (link0 (cmd opcode args s))) (cmd opcode args s)) : CmdMeets opcode scope args s met := by
  simp only [Bool.and_eq_true, beq_iff_eq] at h
  obtain ⟨⟨⟨⟨h1, h2⟩, h3⟩, h4⟩, h5⟩ := h
  refine ⟨⟨?_, h2, h3, h4, ?_⟩, h'⟩
  · unfold link0
    obtain ⟨l, hl⟩ := Option.isSome_iff_exists.mp h1
    rw [hl]; rfl
  · intro k hk
    cases hk
    simpa using h5

/-- A second partition beside the first, with a range, keys 5 and 6 of partitions 0 and 1, and ports 3 and 4 of Delow with them. -/
def twoParts : State :=
  { st with parts := [(0, { loadPart with quarters := [0, 1], assigned := [30], ranges := loadPart.ranges.set 7 ⟨true, 16, 31, 16, true, true, true, false, false, 0, false, 0⟩ }), (1, { Part.create 1 [3] true 0 0 0 with assigned := [40] })]
            dports := [(3, { DPort.new with owner := some 0 }), (4, { DPort.new with owner := some 1 })]
            fw := { st.fw with keys := [(5, (0, [])), (6, (1, []))] }
            links := [{ Link.new with ide := true, ports := [(0, { Port.new with en := true }), (1, { Port.new with en := true, part := 1 })] }, Link.new] }

/-- The two partitions. -/
def pA : Part := (twoParts.part? 0).getD loadPart
def pB : Part := (twoParts.part? 1).getD loadPart

/-- MailboxCompletion. -/
theorem witness_mailbox : st.links[0]? = some Link.new ∧ st.firmwareTurn 0 = false ∧ (cmd 1 [] st).firmwareTurn 0 = true ∧ { Firmware.new with available := false }.available = false ∧ st.fw.available = true ∧
    ((link0 (cmd 0 [] st)).mailbox.opcode = 0 ∧ 0x15 < (link0 (cmd 0x16 [] st)).mailbox.opcode) ∧ CmdMeets 0x10 none [8] st (fun _ a _ => 7 < a 0) := by
  refine ⟨rfl, rfl, rfl, rfl, rfl, by decide, cmd_meets (by decide +kernel) (by decide +kernel)⟩

/-- PartitionCommands: for each command arguments that have its effect, and arguments that it declines. -/
theorem witness_partitions :
    (let clean := fun (a : Nat → Nat) => a 0 < 16 ∧ 0 < a 1 ∧ a 1 < 2 ^ 16 ∧ bits (a 2) 1 7 = 0 ∧ bits (a 2) 21 11 = 0
     CmdMeets 0x1 none [15, 0x8004, 1, 9] twoParts (fun _ a s => clean a ∧ thas (a 0) s.parts = false ∧ ∀ q ∈ quartersOf (a 1), q ∉ s.ownedQuarters) ∧
     CmdMeets 0x1 none [15, 4, 2] twoParts (fun _ a _ => bits (a 2) 1 7 ≠ 0 ∨ bits (a 2) 21 11 ≠ 0) ∧
     CmdMeets 0x1 none [15, 5] twoParts (fun _ a s => clean a ∧ (thas (a 0) s.parts = true ∨ ∃ q ∈ quartersOf (a 1), q ∈ s.ownedQuarters))) ∧
    (CmdMeets 0x2 none [1] twoParts (fun _ a s => a 0 < 16 ∧ ofPart s (a 0) fun _ => True) ∧ twoParts.part? 1 = some pB) ∧
    (let fits := fun (a : Nat → Nat) => a 0 < 16 ∧ a 1 < 2 ^ 16 ∧ a 2 < 2 ^ 16 ∧ a 1 &&& a 2 = 0
     CmdMeets 0x3 none [0, 4, 2] twoParts (fun _ a s => fits a ∧ (∀ q ∈ quartersOf (a 1), q ∉ s.ownedQuarters) ∧ ofPart s (a 0) fun p =>
       ∀ q ∈ quartersOf (a 2), q ∈ p.quarters ∧ q ≠ p.home ∧ s.quarterBusy (a 0) p q = false) ∧
     CmdMeets 0x3 none [0, 4, 1] twoParts (fun _ a s => fits a ∧ ofPart s (a 0) fun p => p.home ∈ quartersOf (a 2) ∨ ∃ q ∈ quartersOf (a 2), s.quarterBusy (a 0) p q = true)) ∧
    (CmdMeets 0x4 none [0, 2 ^ 3 + 2 ^ 5, 2 ^ 31, 0] twoParts (fun _ a s => a 0 < 16 ∧ a 3 = 0 ∧ (ofPart s (a 0) fun _ => True) ∧
       ∀ p ∈ portsOf (arg64 a 1), (s.dport p).owner = none ∨ (s.dport p).owner = some (a 0)) ∧
     CmdMeets 0x4 none [0, 2 ^ 4, 0, 0] twoParts (fun _ a s => a 0 < 16 ∧ a 3 = 0 ∧ (ofPart s (a 0) fun _ => True) ∧ ∃ p ∈ portsOf (arg64 a 1), ∃ n, (s.dport p).owner = some n ∧ n ≠ a 0)) ∧
    (CmdMeets 0x5 none [0, 1023, 2 ^ 3] twoParts (fun _ a s => a 0 < 16 ∧ a 1 < 1024 ∧ (ofPart s (a 0) fun _ => True) ∧ ∀ p ∈ portsOf (arg64 a 2), (s.dport p).owner = some (a 0)) ∧
     CmdMeets 0x5 none [0, 1023, 2 ^ 4] twoParts (fun _ a s => a 0 < 16 ∧ a 1 < 1024 ∧ (ofPart s (a 0) fun _ => True) ∧ ∃ p ∈ portsOf (arg64 a 2), (s.dport p).owner ≠ some (a 0))) ∧
    (CmdMeets 0x6 none [0, 511, 0, 2 ^ 20 - 1] twoParts (fun _ a s => a 0 < 2 ∧ a 1 < 512 ∧ a 2 < 16 ∧ a 3 < 2 ^ 20 ∧ (ofPart s (a 2) fun _ => True) ∧
       ((s.port (a 0) (a 1)).en = false ∨ (s.port (a 0) (a 1)).part = a 2)) ∧
     CmdMeets 0x6 none [0, 1, 0, 0] twoParts (fun _ a s => a 0 < 2 ∧ a 1 < 512 ∧ a 2 < 16 ∧ a 3 < 2 ^ 20 ∧ (ofPart s (a 2) fun _ => True) ∧ (s.port (a 0) (a 1)).en = true ∧ (s.port (a 0) (a 1)).part ≠ a 2)) ∧
    (let fits := fun (a : Nat → Nat) => a 0 < 2 ∧ a 1 < 512 ∧ a 2 < 64 ∧ bits (a 3) 27 2 = 0 ∧ bits (a 3) 10 5 = 0
     let timed := fun (a : Nat → Nat) (s : State) => (s.openStream (bits (a 3) 15 12)).elim false (·.timed)
     let held := fun (a : Nat → Nat) (s : State) => ofPart s (s.port (a 0) (a 1)).part fun p => p.holds (s.port (a 0) (a 1)).part (bits (a 3) 15 12) = true
     CmdMeets 0x7 none [0, 0, 63, 2 ^ 31 + 2 ^ 30 + 2 ^ 29 + 30 * 2 ^ 15] twoParts (fun _ a s => fits a ∧ (s.port (a 0) (a 1)).en = true ∧
       (bit (a 3) 31 = true → (bit (a 3) 30 = true → timed a s = false) ∧ held a s ∧
         (bit (a 3) 29 = true → ∀ l, s.links[a 0]? = some l → (tget l.remaps (bits (a 3) 0 10) Remap.new).part = (s.port (a 0) (a 1)).part))) ∧
     CmdMeets 0x7 none [0, 0, 63, 2 ^ 31 + 40 * 2 ^ 15] twoParts (fun _ a s => fits a ∧ (s.port (a 0) (a 1)).en = true ∧ bit (a 3) 31 = true ∧ timed a s = false ∧ ¬ held a s) ∧
     CmdMeets 0x7 none [0, 0, 63, 2 ^ 31 + 2 ^ 30 + 1 * 2 ^ 15] twoParts (fun _ a s => bit (a 3) 31 = true ∧ bit (a 3) 30 = true ∧ timed a s = true) ∧
     CmdMeets 0x7 none [1, 0, 63, 0] twoParts (fun _ a s => fits a ∧ bit (a 3) 31 = false ∧ (s.port (a 0) (a 1)).en = false) ∧
     CmdMeets 0x7 none [0, 0, 0, 2 ^ 10] twoParts (fun _ a _ => bits (a 3) 27 2 ≠ 0 ∨ bits (a 3) 10 5 ≠ 0)) ∧
    CmdMeets 0x8 none [1, 1023, 0xFFFF0000, 2 ^ 31 + 0x3F0000] twoParts (fun _ a _ => a 0 < 2 ∧ a 1 < 1024 ∧ bits (arg64 a 2) 54 3 = 0 ∧ bits (arg64 a 2) 0 16 = 0) ∧
    (let fits := fun (a : Nat → Nat) (s : State) => a 0 < 16 ∧ a 1 < 2 ^ 12 ∧ (ofPart s (a 0) fun _ => True)
     CmdMeets 0x9 none [0, 4095, 0] twoParts (fun _ a s => fits a s ∧ a 2 = 0 ∧ (s.parts.all fun (n, q) => n == a 0 || !q.holds n (a 1)) = true) ∧
     CmdMeets 0x9 none [0, 40, 0] twoParts (fun _ a s => fits a s ∧ a 2 = 0 ∧ (s.parts.any fun (n, q) => n != a 0 && q.holds n (a 1)) = true) ∧
     CmdMeets 0x9 none [0, 30, 1] twoParts (fun _ a s => fits a s ∧ a 2 = 1 ∧ isSystemStream (a 0) (a 1) = false ∧ ofPart s (a 0) fun p => a 1 ∈ p.assigned) ∧
     CmdMeets 0x9 none [0, 4, 1] twoParts (fun _ a s => fits a s ∧ a 2 = 1 ∧ isSystemStream (a 0) (a 1) = true) ∧
     CmdMeets 0x9 none [0, 5, 1] twoParts (fun _ a s => fits a s ∧ a 2 = 1 ∧ ofPart s (a 0) fun p => p.holds (a 0) (a 1) = false)) ∧
    (let fits := fun (a : Nat → Nat) (s : State) => a 0 < 16 ∧ a 1 < 2 ^ 20 ∧ (ofPart s (a 0) fun _ => True)
     CmdMeets 0xA none [0, 2 ^ 20 - 1] twoParts (fun _ a s => fits a s) ∧ CmdMeets 0xB none [0, 0] twoParts (fun _ a s => fits a s)) ∧
    CmdMeets 0x13 none [0, 0, 9, 0] twoParts (fun _ a s => a 0 < 16 ∧ a 1 < 2 ^ 20 ∧ ofPart s (a 0) fun p => a 1 ∈ p.pasids) := by
  refine ⟨⟨cmd_meets (by decide +kernel) ?_, cmd_meets (by decide +kernel) ?_, cmd_meets (by decide +kernel) ?_⟩,
    ⟨cmd_meets (by decide +kernel) ⟨by decide +kernel, pB, rfl, trivial⟩, rfl⟩,
    ⟨cmd_meets (by decide +kernel) ⟨?_, ?_, pA, rfl, ?_⟩, cmd_meets (by decide +kernel) ⟨?_, pA, rfl, ?_⟩⟩,
    ⟨cmd_meets (by decide +kernel) ⟨?_, ?_, ⟨pA, rfl, trivial⟩, ?_⟩, cmd_meets (by decide +kernel) ⟨?_, ?_, ⟨pA, rfl, trivial⟩, 4, ?_, 1, ?_, ?_⟩⟩,
    ⟨cmd_meets (by decide +kernel) ⟨?_, ?_, ⟨pA, rfl, trivial⟩, ?_⟩, cmd_meets (by decide +kernel) ⟨?_, ?_, ⟨pA, rfl, trivial⟩, ?_⟩⟩,
    ⟨cmd_meets (by decide +kernel) ⟨?_, ?_, ?_, ?_, ⟨pA, rfl, trivial⟩, ?_⟩, cmd_meets (by decide +kernel) ⟨?_, ?_, ?_, ?_, ⟨pA, rfl, trivial⟩, ?_⟩⟩,
    ⟨cmd_meets (by decide +kernel) ⟨?_, ?_, fun _ => ⟨fun _ => ?_, ⟨pA, rfl, ?_⟩, fun _ l h => ?_⟩⟩, cmd_meets (by decide +kernel) ⟨?_, ?_, ?_, ?_, fun h => ?_⟩, cmd_meets (by decide +kernel) ?_,
      cmd_meets (by decide +kernel) ?_, cmd_meets (by decide +kernel) ?_⟩,
    cmd_meets (by decide +kernel) ?_,
    ⟨cmd_meets (by decide +kernel) ⟨⟨?_, ?_, pA, rfl, trivial⟩, ?_⟩, cmd_meets (by decide +kernel) ⟨⟨?_, ?_, pA, rfl, trivial⟩, ?_⟩, cmd_meets (by decide +kernel) ⟨⟨?_, ?_, pA, rfl, trivial⟩, ?_, ?_, pA, rfl, ?_⟩,
      cmd_meets (by decide +kernel) ⟨⟨?_, ?_, pA, rfl, trivial⟩, ?_⟩, cmd_meets (by decide +kernel) ⟨⟨?_, ?_, pA, rfl, trivial⟩, ?_, pA, rfl, ?_⟩⟩,
    ⟨cmd_meets (by decide +kernel) ⟨?_, ?_, pA, rfl, trivial⟩, cmd_meets (by decide +kernel) ⟨?_, ?_, pA, rfl, trivial⟩⟩, cmd_meets (by decide +kernel) ⟨?_, ?_, pA, rfl, ?_⟩⟩
  all_goals first
    | decide +kernel
    | (cases h; decide +kernel)
    | (obtain ⟨p, h1, h2⟩ := h; cases h1; revert h2; decide +kernel)

/-- A range of partition 0 as words of a command: guest units first to last, at an HBM unit, with permissions and a key. -/
def rangeArgs (first last host key : Nat) : List Nat :=
  [0, 8, first * 2 ^ 16, 2 ^ 31, last * 2 ^ 16, 0, host * 2 ^ 16, 0, 2 ^ 31 + 2 ^ 30 + key, 0]

/-- The first block of host memory has returned to firmware, poisoned or not. -/
def gotImage (pois : Bool) : State := { twoParts with links := lmod 0 (fun l => { l with returned := [(.ring, hostAddr 0 0, pois)] }) twoParts.links }

/-- KeyRangeAndPatchCommands: for each command arguments that have its effect, and arguments that it declines. A patch's signature is the
part's own affair: its command either has its effect or is declined. -/
theorem witness_keys :
    (let fits := fun (a : Nat → Nat) (s : State) => a 0 < 16 ∧ 1 ≤ a 1 ∧ a 1 < 4096 ∧ (ofPart s (a 0) fun _ => True)
     CmdMeets 0xC none [0, 4095] twoParts (fun link a s => fits a s ∧ s.linkIde link = true ∧ ∀ o ws, tget? (a 1) s.fw.keys = some (o, ws) → o = a 0) ∧
     CmdMeets 0xC none [0, 5] st (fun link a s => fits a s ∧ s.linkIde link = false) ∧
     CmdMeets 0xC none [0, 6] twoParts (fun link a s => fits a s ∧ s.linkIde link = true ∧ ∃ o ws, tget? (a 1) s.fw.keys = some (o, ws) ∧ o ≠ a 0)) ∧
    (CmdMeets 0xD none [5] twoParts (fun link a s => 1 ≤ a 0 ∧ a 0 < 4096 ∧ thas (a 0) s.fw.keys = true ∧ s.linkIde link = true) ∧
     CmdMeets 0xD none [5] { twoParts with links := st.links } (fun link a s => 1 ≤ a 0 ∧ a 0 < 4096 ∧ thas (a 0) s.fw.keys = true ∧ s.linkIde link = false)) ∧
    (let entry := fun (a : Nat → Nat) => rangeOf fun k => a (2 + k)
     let fits := fun (a : Nat → Nat) => a 0 < 16 ∧ a 1 < 48 ∧ (rangeClean fun k => a (2 + k)) = true
     let keyed := fun (a : Nat → Nat) (s : State) => (entry a).key = 0 ∨ ∃ ws, tget? (entry a).key s.fw.keys = some (a 0, ws)
     CmdMeets 0xE none (rangeArgs 32 40 64 5) twoParts (fun _ a s => fits a ∧ keyed a s ∧ ofPart s (a 0) fun p => (entry a).valid = true → rangeFits s (a 0) p (entry a) = true ∧
       ∀ k o, p.ranges[k]? = some o → k ≠ a 1 → o.valid = true → (entry a).glast < o.gbase ∨ o.glast < (entry a).gbase) ∧
     CmdMeets 0xE none [0, 8, 0, 0, 0, 0, 0, 0, 2 ^ 30 + 6, 0] twoParts (fun _ a s => fits a ∧ ¬ keyed a s) ∧
     CmdMeets 0xE none (rangeArgs 32 31 64 0) twoParts (fun _ a _ => fits a ∧ (entry a).valid = true ∧ rangeSpan (entry a) = false) ∧
     CmdMeets 0xE none (2 :: (rangeArgs 32 40 64 0).tail) twoParts (fun _ a s => fits a ∧ keyed a s ∧ ((entry a).valid = true → rangeSpan (entry a) = true) ∧ s.part? (a 0) = none) ∧
     (let met := fun (a : Nat → Nat) (s : State) => fits a ∧ ofPart s (a 0) fun p => (entry a).valid = true ∧ ((∃ q, q < 16 ∧ q ∉ p.quarters ∧ (entry a).reaches q = true) ∨
        ∃ k o, p.ranges[k]? = some o ∧ k ≠ a 1 ∧ o.valid = true ∧ (entry a).gbase ≤ o.glast ∧ o.gbase ≤ (entry a).glast)
      CmdMeets 0xE none (rangeArgs 31 40 64 0) twoParts (fun _ a s => met a s) ∧ CmdMeets 0xE none [0, 8, 32 * 2 ^ 16, 2 ^ 31, 40 * 2 ^ 16, 0, 0, 2 ^ 5, 2 ^ 31 + 2 ^ 30, 0] twoParts (fun _ a s => met a s))) ∧
    (let fits := fun (a : Nat → Nat) => a 2 < 2 ∧ ((a 0 = 0 ∧ a 1 < 16) ∨ (a 0 = 1 ∧ a 1 < 64) ∨ (a 0 = 2 ∧ a 1 < 1024))
     CmdMeets 0xF none [2, 1023, 1] twoParts (fun _ a s => fits a ∧ s.blockAssigned (a 0) (a 1) = false) ∧
     CmdMeets 0xF none [0, 3, 0] twoParts (fun _ a s => fits a ∧ s.blockAssigned (a 0) (a 1) = true)) ∧
    (CmdMeets 0x11 none [0xFF] twoParts (fun _ a s => a 0 = 0xFF ∨ (a 0 < 16 ∧ ofPart s (a 0) fun _ => True)) ∧
     CmdMeets 0x11 none [1] twoParts (fun _ a s => a 0 = 0xFF ∨ (a 0 < 16 ∧ ofPart s (a 0) fun _ => True))) ∧
    (let image := fun (a : Nat → Nat) (s : State) => memBytes s.mem (hostAddr 0 (arg64 a 0 % 2 ^ 56)) (a 2)
     let good := fun (a : Nat → Nat) (s : State) => Config.signatureHolds (image a s) = true ∧ s.fw.fusedLevel ≤ Config.patchLevel (image a s) ∧
       ∀ b ∈ hostBlocks (hostAddr 0 (arg64 a 0 % 2 ^ 56)) (a 2), (s.returnedTo .ring b.1).getD false = false
     CmdMeets 0x12 none [0, 0, 2 ^ 20] twoParts (fun _ a s => 1 ≤ a 2 ∧ a 2 ≤ 2 ^ 20 ∧ s.patchNeeds 0 ≠ []) ∧
     (CmdMeets 0x12 none [0, 0, 1] (gotImage false) (fun _ a s => 1 ≤ a 2 ∧ a 2 ≤ 2 ^ 20 ∧ s.patchNeeds 0 = [] ∧ good a s) ∨
      CmdMeets 0x12 none [0, 0, 1] (gotImage false) (fun _ a s => 1 ≤ a 2 ∧ a 2 ≤ 2 ^ 20 ∧ s.patchNeeds 0 = [] ∧ ¬ good a s)) ∧
     CmdMeets 0x12 none [0, 0, 1] (gotImage true) (fun _ a s => 1 ≤ a 2 ∧ a 2 ≤ 2 ^ 20 ∧ s.patchNeeds 0 = [] ∧ ¬ good a s)) ∧
    (CmdMeets 0x14 none [1, 1023, 15] twoParts (fun _ a s => a 0 < 16 ∧ a 1 < 1024 ∧ a 2 < 16 ∧ ofPart s (a 0) fun p => p.det ≠ none) ∧
     CmdMeets 0x14 none [0, 0, 0] twoParts (fun _ a s => a 0 < 16 ∧ ofPart s (a 0) fun p => p.det = none)) ∧
    CmdMeets 0x15 none [] twoParts (fun _ _ _ => True) := by
  refine ⟨⟨cmd_meets (by decide +kernel) ⟨⟨?_, ?_, ?_, pA, rfl, trivial⟩, ?_, fun o ws h => ?_⟩, cmd_meets (by decide +kernel) ⟨⟨?_, ?_, ?_, part0, rfl, trivial⟩, ?_⟩,
      cmd_meets (by decide +kernel) ⟨⟨?_, ?_, ?_, pA, rfl, trivial⟩, ?_, 1, [], rfl, ?_⟩⟩,
    ⟨cmd_meets (by decide +kernel) ?_, cmd_meets (by decide +kernel) ?_⟩,
    ⟨cmd_meets (by decide +kernel) ⟨?_, .inr ⟨[], rfl⟩, pA, rfl, fun _ => ⟨?_, fun k o h1 h2 h3 => ?_⟩⟩, cmd_meets (by decide +kernel) ⟨?_, ?_⟩, cmd_meets (by decide +kernel) ⟨?_, ?_, ?_⟩,
      cmd_meets (by decide +kernel) ⟨?_, .inl ?_, ?_, ?_⟩, cmd_meets (by decide +kernel) ⟨?_, pA, rfl, ?_, .inr ⟨7, _, rfl, ?_, ?_, ?_, ?_⟩⟩,
      cmd_meets (by decide +kernel) ⟨?_, pA, rfl, ?_, .inl ⟨2, ?_, ?_, ?_⟩⟩⟩,
    ⟨cmd_meets (by decide +kernel) ?_, cmd_meets (by decide +kernel) ?_⟩,
    ⟨cmd_meets (by decide +kernel) (.inl ?_), cmd_meets (by decide +kernel) (.inr ⟨?_, pB, rfl, trivial⟩)⟩,
    ⟨cmd_meets (by decide +kernel) ⟨?_, ?_, ?_⟩, ?either, cmd_meets (by decide +kernel) ⟨?_, ?_, ?_, fun h => ?_⟩⟩,
    ⟨cmd_meets (by decide +kernel) ⟨?_, ?_, ?_, pB, rfl, ?_⟩, cmd_meets (by decide +kernel) ⟨?_, pA, rfl, ?_⟩⟩, cmd_meets (by decide +kernel) trivial⟩
  case either =>
    by_cases h : (let s := cmd 0x12 [0, 0, 1] (gotImage false); let a := argWord (link0 s)
        Config.signatureHolds (memBytes s.mem (hostAddr 0 (arg64 a 0 % 2 ^ 56)) (a 2)) = true ∧ s.fw.fusedLevel ≤ Config.patchLevel (memBytes s.mem (hostAddr 0 (arg64 a 0 % 2 ^ 56)) (a 2)) ∧
        ∀ b ∈ hostBlocks (hostAddr 0 (arg64 a 0 % 2 ^ 56)) (a 2), (s.returnedTo .ring b.1).getD false = false)
    · exact .inl (cmd_meets (by decide +kernel) ⟨by decide +kernel, by decide +kernel, by decide +kernel, h⟩)
    · exact .inr (cmd_meets (by decide +kernel) ⟨by decide +kernel, by decide +kernel, by decide +kernel, h⟩)
  all_goals first
    | decide +kernel
    | (cases h; done)
    | (exact absurd (h.2.2 (hostAddr 0 0, 1) (by decide +kernel)) (by decide +kernel))
    | (have hk : k < 48 := (List.getElem?_eq_some_iff.mp h1).1
       have h7 : ∀ k, k < 48 → ∀ o ∈ pA.ranges[k]?, o.valid = true → k = 7 := by decide +kernel
       cases h7 k hk o h1 h3
       cases h1
       decide +kernel)
    | (rintro (h | ⟨ws, h⟩)
       · revert h; decide +kernel
       · have hk : (tget? 6 twoParts.fw.keys) = some (1, []) := rfl
         cases (hk.symm.trans h))

/-- The loaded partition with two quarters, a deterministic one, and one all of whose hosts have retired; and a task of which
some groups have not ended. -/
def resetSt (open_ : Nat) : State :=
  { st with parts := [(0, { loadPart with quarters := [0, 1] }), (1, { Part.create 1 [3] true 0 0 0 with retired := [] }), (2, { Part.create 2 [4] true 0 0 0 with retired := List.range 256 })]
            teams := st.teams.map fun (n, t) => (n, { t with open_ := open_ }), dports := [(3, { DPort.new with owner := some 0, up := true })] }

/-- ResetCommands: for each scope a target, and one that it declines. -/
theorem witness_resets :
    (∃ key g, (resetSt 2).groupOf 0 = some (key, g) ∧ ∀ x ∈ (resetSt 2).taskGroups key g, (resetSt 2).opPc x.1 = none) ∧
    (let s := { resetSt 2 with bulks := [(5, opG2l)] }
     ∃ key g before k h after pc, s.groupOf 0 = some (key, g) ∧ s.taskGroups key g = before ++ (k, h) :: after ∧ (∀ x ∈ before, s.opPc x.1 = none) ∧ s.opPc k = some pc) ∧
    (∃ p, (launchSt 0x1000).part? 0 = some p ∧ p.launches ≠ []) ∧
    (let key := fun (a : Nat → Nat) => a 1 * 256 * 48 + a 2
     let others := fun (s : State) (k : Nat) (g : Group) => s.opPc k = none ∧ (∀ ms, g.halt ≠ .aborted ms) ∧ ∃ t, g.kind = .team ∧ s.teamOf g = some t ∧ 1 < t.open_
     CmdMeets 0x10 (some 0) [0, 0, 0, 0] (resetSt 1) (fun _ a s => (resetMet (256 * 48) 0 a s fun _ => True) ∧ ∃ g, s.anyGroup (key a) = some g ∧ ¬ others s (key a) g) ∧
     CmdMeets 0x10 (some 0) [0, 0, 0, 0] (resetSt 2) (fun _ a s => (resetMet (256 * 48) 0 a s fun _ => True) ∧ ∃ g, s.anyGroup (key a) = some g ∧ others s (key a) g) ∧
     CmdMeets 0x10 (some 0) [0, 0, 256 * 48 - 1, 0] (resetSt 2) (fun _ a s => (resetMet (256 * 48) 0 a s fun _ => True) ∧ s.anyGroup (key a) = none)) ∧
    (let team := fun (a : Nat → Nat) (s : State) => s.teams.find? fun (_, t) => t.part == a 1 && t.core == a 2
     CmdMeets 0x10 (some 1) [1, 0, 0, 0] (resetSt 2) (fun _ a s => (resetMet 256 0 a s fun p => a 2 < 16 * p.quarters.length) ∧ team a s ≠ none) ∧
     CmdMeets 0x10 (some 1) [1, 0, 255, 0] (resetSt 2) (fun _ a s => (resetMet 256 0 a s fun _ => True) ∧ team a s = none)) ∧
    (CmdMeets 0x10 (some 2) [2, 0, 31, 0] (resetSt 2) (fun _ a s => (resetMet 256 2 a s fun p => a 2 < 16 * p.quarters.length) ∧ bit (a 3) 1 = false) ∧
     CmdMeets 0x10 (some 2) [2, 1, 15, 2] (resetSt 2) (fun _ a s => bit (a 3) 1 = true ∧ resetMet 256 2 a s fun p => a 2 < 16 * p.quarters.length ∧ p.det ≠ none ∧ p.newHost (a 2) ≠ none) ∧
     CmdMeets 0x10 (some 2) [2, 0, 0, 2] (resetSt 2) (fun _ a s => bit (a 3) 1 = true ∧ resetMet 256 2 a s fun p => p.det = none) ∧
     CmdMeets 0x10 (some 2) [2, 2, 0, 2] (resetSt 2) (fun _ a s => bit (a 3) 1 = true ∧ resetMet 256 2 a s fun p => a 2 < 16 * p.quarters.length ∧ p.det ≠ none ∧ p.newHost (a 2) = none)) ∧
    CmdMeets 0x10 (some 3) [3, 0, 1, 0] (resetSt 2) (fun _ a s => resetMet 16 0 a s fun p => a 2 ∈ p.quarters) ∧
    CmdMeets 0x10 (some 4) [4, 0, 7, 0] (resetSt 2) (fun _ a s => a 1 < 16 ∧ a 3 = 0 ∧ ofPart s (a 1) fun _ => True) ∧
    (CmdMeets 0x10 (some 5) [5, 0, 1, 0] (resetSt 2) (fun _ a s => resetMet 16 1 a s fun p => a 2 ∈ p.quarters) ∧
     CmdMeets 0x10 (some 5) [5, 0, 1, 1] (resetSt 2) (fun _ a s => resetMet 16 1 a s fun p => a 2 ∈ p.quarters)) ∧
    CmdMeets 0x10 (some 6) [6, 0, 3, 0] (resetSt 2) (fun _ a s => (resetMet 64 0 a s fun _ => True) ∧ (s.dport (a 2)).owner = some (a 1)) ∧
    CmdMeets 0x10 (some 6) [6, 0, 4, 0] (resetSt 2) (fun _ a s => (resetMet 64 0 a s fun _ => True) ∧ (s.dport (a 2)).owner ≠ some (a 1)) ∧
    CmdMeets 0x10 (some 7) [7, 0, 1, 0] (resetSt 2) (fun _ a s => (resetMet 2 0 a s fun _ => True) ∧ s.power.released.getD (a 2) true = true) ∧
    CmdMeets 0x10 (some 7) [7, 0, 1, 0] { resetSt 2 with power := { st.power with released := [true, false] } } (fun _ a s => (resetMet 2 0 a s fun _ => True) ∧ s.power.released.getD (a 2) true = false) ∧
    (∃ x, ((resetSt 2).part? 1).bind (·.newHost 15) = some x) := by
  have P0 : ∀ {op : Nat} {args : List Nat} {n : Nat}, (cmd op args (resetSt n)).part? 0 = some { loadPart with quarters := [0, 1] } := rfl
  have P1 : ∀ {op : Nat} {args : List Nat} {n : Nat}, (cmd op args (resetSt n)).part? 1 = some (Part.create 1 [3] true 0 0 0) := rfl
  have P2 : ∀ {op : Nat} {args : List Nat} {n : Nat}, (cmd op args (resetSt n)).part? 2 = some { Part.create 2 [4] true 0 0 0 with retired := List.range 256 } := rfl
  refine ⟨⟨_, _, rfl, by decide +kernel⟩, ⟨_, _, [], _, _, [], _, rfl, rfl, by decide, rfl⟩, ⟨_, rfl, by decide +kernel⟩,
    ⟨cmd_meets (by decide +kernel) ⟨⟨?_, ?_, ?_, _, P0, trivial⟩, _, rfl, ?_⟩, cmd_meets (by decide +kernel) ⟨⟨?_, ?_, ?_, _, P0, trivial⟩, _, rfl, rfl, (fun ms h => nomatch h), _, rfl, rfl, ?_⟩,
      cmd_meets (by decide +kernel) ⟨⟨?_, ?_, ?_, _, P0, trivial⟩, rfl⟩⟩,
    ⟨cmd_meets (by decide +kernel) ⟨⟨?_, ?_, ?_, _, P0, ?_⟩, ?_⟩, cmd_meets (by decide +kernel) ⟨⟨?_, ?_, ?_, _, P0, trivial⟩, ?_⟩⟩,
    ⟨cmd_meets (by decide +kernel) ⟨⟨?_, ?_, ?_, _, P0, ?_⟩, ?_⟩, cmd_meets (by decide +kernel) ⟨?_, ?_, ?_, ?_, _, P1, ?_, ?_, ?_⟩, cmd_meets (by decide +kernel) ⟨?_, ?_, ?_, ?_, _, P0, rfl⟩,
      cmd_meets (by decide +kernel) ⟨?_, ?_, ?_, ?_, _, P2, ?_, ?_, ?_⟩⟩,
    cmd_meets (by decide +kernel) ⟨?_, ?_, ?_, _, P0, ?_⟩, cmd_meets (by decide +kernel) ⟨?_, ?_, _, P0, trivial⟩, ⟨cmd_meets (by decide +kernel) ⟨?_, ?_, ?_, _, P0, ?_⟩, cmd_meets (by decide +kernel) ⟨?_, ?_, ?_, _, P0, ?_⟩⟩,
    cmd_meets (by decide +kernel) ⟨⟨?_, ?_, ?_, _, P0, trivial⟩, ?_⟩, cmd_meets (by decide +kernel) ⟨⟨?_, ?_, ?_, _, P0, trivial⟩, ?_⟩, cmd_meets (by decide +kernel) ⟨⟨?_, ?_, ?_, _, P0, trivial⟩, ?_⟩,
    cmd_meets (by decide +kernel) ⟨⟨?_, ?_, ?_, _, rfl, trivial⟩, ?_⟩, Option.isSome_iff_exists.mp (by decide +kernel)⟩
  all_goals first
    | decide +kernel
    | (rintro ⟨-, -, t, -, h, h'⟩; cases h; revert h'; decide)

/-! Power, links, errors, steps and invariants. -/

/-- The state with its power changed. -/
def powered (f : Power → Power) (now : Nat) : State := { st with power := f st.power, timer := now }

/-- PowerClockAndTimerSteps: each limit and the value above it, a standing cause, a change in progress that completes at this clock's last and at
another clock, recovery at its tick and one before it, a kept patch, and one context with an energy budget. -/
theorem witness_power :
    (st.power.on = true ∧ { Power.new with on := false }.on = false ∧ st.power.released.getD 0 true = true ∧ { Power.new with released := [false, true] }.released.getD 0 true = false ∧
      ({ st with fw := { st.fw with patch := some (1, []) } } : State).fw.patch = some (1, [])) ∧
    ((6000 : Nat) ≤ 6000 ∧ 840 ≤ 8 * 105 ∧ 920 ≤ 8 * 115 ∧ 6000 < 6001 ∧ 8 * 105 < 841 ∧ 8 * 115 < 921) ∧
    (st.power.changing = none ∧ min 3 (st.power.step + 1) ≠ st.power.step ∧ (powered (fun p => { p with step := 3 }) 0).power.step ≤ 3 ∧
      min 3 ((powered (fun p => { p with step := 3 }) 0).power.step + 1) = (powered (fun p => { p with step := 3 }) 0).power.step) ∧
    ((powered (fun p => { p with changing := some (1, 1, 7) }) 0).power.changing = some (1, 1, 7) ∧ 7 ≠ (powered (fun p => { p with changing := some (1, 1, 7) }) 0).clock + 64 ∧
      (powered (fun p => { p with changing := some (1, 1, 7) }) 0).power.pending = none ∧ (powered (fun p => { p with changing := some (3, 1, 64) }) 0).power.changing = some (3, 1, 0 + 64) ∧
      (powered (fun p => { p with changing := some (3, 1, 64), step := 3 }) 0).power.step = 3) ∧
    (let s := fun now => powered (fun p => { p with step := 1, lastCause := 5, lastUp := 2 }) now
     0 < (s 4005).power.step ∧ (s 4005).power.changing = none ∧ (s 4005).power.active = false ∧ (s 4005).power.lastCause + 4000 ≤ (s 4005).timer ∧ (s 4005).power.lastUp + 4000 ≤ (s 4005).timer ∧
     (s 4004).timer < (s 4004).power.lastCause + 4000 ∧ (powered (fun p => { p with step := 1, watts := 6001 }) 5000).power.active = true) ∧
    (let p := fun p : Power => { p with changing := some (2, 1, 7), pending := some (3, 8) }
     (powered p 0).power.changing = some (2, 1, 7) ∧ (powered p 0).power.pending = some (3, 8) ∧ (3 : Nat) ≠ 2) ∧
    ({ st with ctxs := [(0, { Ctx.new with energy := 700, budget := some 6 })] }.ctxs = [(0, { Ctx.new with energy := 700, budget := some 6 })] ∧ tget? 0 st.ctxs = some Ctx.new) := by decide +kernel

/-- A link with a read, a translation request, a write and cached translations outstanding, an enabled one with a port of the loaded partition,
and die links the last of which has replayed. -/
def busyLink : Link :=
  { Link.new with up := true, reads := [⟨1, hostAddr 0 0x40, 32, 0, .group 0, 3⟩], ats := [⟨2, 0, 5, .group 0, 3⟩], writes := [⟨some 0, 0, hostAddr 0 0x60000, [7]⟩]
                  atc := [⟨0, 4, 0, true, true⟩, ⟨0, 5, 0x50000, true, true⟩] }
def linkSt : State :=
  { st with links := [busyLink, { Link.new with ports := [(4, { Port.new with en := true })], writes := [⟨none, 0, hostAddr 1 0, [7]⟩] }], dlinks := List.replicate 7 ⟨0, 0⟩ ++ [⟨3, 1⟩] }

/-- The link carries a read of the collective 5. -/
def collLink : State := { collSt (collOp 1 0 0xFFFF none) with links := [{ Link.new with reads := [⟨1, hostAddr 0 0x40, 32, 0, .engine 5, 1⟩] }, Link.new] }

/-- LinkSteps: outstanding reads, writes and requests and none; a collective on the link; a group that waits for its only answer; an invalidation
whose page is in use and one whose page is not; the last die link with replays; a system stream that is empty and one that is full. -/
theorem witness_links :
    (linkSt.links[0]? = some busyLink ∧ busyLink.collOps = [] ∧ busyLink.reads ≠ [] ∧ (busyLink.ats.find? fun x => x.tag == 2) = some ⟨2, 0, 5, .group 0, 3⟩ ∧
      (busyLink.reads.find? fun x => x.tag == 1) = some ⟨1, hostAddr 0 0x40, 32, 0, .group 0, 3⟩ ∧ (List.replicate 32 (7 : Byte)).length = 32 ∧ linkSt.group? 0 = some g0) ∧
    (∃ l c, collLink.links[0]? = some l ∧ l.collOps = [5] ∧ tget? 5 collLink.colls = some c ∧ ∀ x ∈ collLink.colls, x.2.result = none) ∧
    (let s := { linkSt with links := [{ busyLink with reads := [] }, Link.new] }
     ∃ t, exec (.atsCompletion 0 2 0x50000 true true) s = .next t ∧ t.remoteBusy (.group 0) = false ∧ s.group? 0 = some g0) ∧
    (let hit := fun (va pages : Nat) (e : AtcEntry) => e.pasid == 0 && decide (va / 2 ^ 16 ≤ e.page) && decide (e.page < va / 2 ^ 16 + pages)
     let frames := fun va pages => (busyLink.atc.filter (hit va pages)).map fun e => hostAddr 0 e.addr / 2 ^ 16
     busyLink.invals = [] ∧ (∃ q ∈ busyLink.reads, q.addr / 2 ^ 16 ∈ frames 0x40000 1) ∧
     ¬ ((∃ q ∈ busyLink.reads, q.addr / 2 ^ 16 ∈ frames 0x50000 1) ∨ (∃ w ∈ busyLink.writes, w.phys / 2 ^ 16 ∈ frames 0x50000 1) ∨ linkSt.bufferedAt (frames 0x50000 1) = true)) ∧
    (∃ po l st, linkSt.links[1]? = some l ∧ l.reads = [] ∧ l.ats = [] ∧ l.invals = [] ∧ l.ports = [(4, po)] ∧ po.en = true ∧ po.part = 0 ∧ linkSt.stream? 0 (16 * 0 + 4) = some st) ∧
    (linkSt.dlinks[7]? = some ⟨3, 1⟩ ∧ linkSt.dlinks = List.replicate 7 ⟨0, 0⟩ ++ [⟨3, 1⟩] ∧ 0 < (⟨3, 1⟩ : DieLink).replays) ∧
    (∃ sm, st.part? 0 = some part0 ∧ st.stream? 0 (0 * 16 + 3) = some sm ∧ 3 < 5 ∧ part0.home < 16 ∧ sm.lgent = 12 ∧ sm.tail < 2 ^ 40 ∧ (∀ l ∈ st.links, l.writes = []) ∧
      sm.tail - (st.rebased 0 3 sm (sm.tail + 1)).low ≠ 4096) ∧
    (let s := st.modPart 0 fun p => { p with streams := p.streams.map fun (k, x) => (k, { x with lgret := 12, tail := 4096, low := 0, hold := true }) }
     ∃ sm, s.stream? 0 (0 * 16 + 3) = some sm ∧ sm.tail - (s.rebased 0 3 sm (sm.tail + 1)).low = 4096) := by
  refine ⟨?_, ⟨_, _, rfl, by decide, rfl, by decide +kernel⟩, ⟨_, rfl, by decide +kernel, rfl⟩, ?_, ⟨_, _, _, rfl, rfl, rfl, rfl, rfl, rfl, rfl, rfl⟩, ?_,
    ⟨_, rfl, rfl, by decide, by decide, rfl, by decide, by decide +kernel, by decide +kernel⟩, _, rfl, by decide +kernel⟩ <;> decide +kernel

/-- A flit of sequence number seq, with every field within its bits. -/
def flitNo (part seq rsv : Nat) : Flit := ⟨5, 3, part, 1023, 1, seq, 4095, 255, 3, 1, 65535, rsv, List.replicate 32 9⟩

/-- A Delow port of partition 0 that is up and has one write in flight, last sent at tick 0. -/
def delowSt (f : DPort → DPort) (now : Nat) : State :=
  { st with timer := now, dports := [(3, f { DPort.new with owner := some 0, up := true, got := some 4, replay := [⟨9, flitNo 0 9 0, 0, 2, 0⟩] })] }

/-- DelowPortSteps: ports that are down, retraining and up; a flit at its fields' bounds; flits that are malformed, of another partition, before,
after and in order; an acknowledgement's tick and one before it; resends; and a route with a port that is up and with none. The error correction of
a flit is Config's own: a flit comes back from it or none does. -/
theorem witness_delow :
    (((delowSt (fun d => { d with up := false }) 0).dport 3).up = false ∧ ((delowSt (fun d => { d with retraining := true }) 0).dport 3).retraining = true) ∧
    (∀ bs, Config.flitFec bs = none ∨ ∃ body, Config.flitFec bs = some body) ∧
    (let f := flitNo 15 4095 (2 ^ 43 - 1)
     f.type < 16 ∧ f.vc < 8 ∧ f.part < 16 ∧ f.dpkg < 1024 ∧ f.spkg < 1024 ∧ f.seq < 4096 ∧ f.ack < 4096 ∧ f.credits < 256 ∧ f.cvc < 8 ∧ f.sectors < 8 ∧ f.tag < 2 ^ 16 ∧
     f.reserved < 2 ^ 43 ∧ f.data.length = 32 * f.sectors) ∧
    (let d := (delowSt id 0).dport 3
     d.up = true ∧ d.retraining = false ∧ flitMalformed (flitNo 0 5 1) = true ∧ flitMalformed (flitNo 1 5 0) = false ∧ d.owner = some 0 ∧ 0 ≠ (flitNo 1 5 0).part ∧
     d.owner = some (flitNo 0 5 0).part ∧ (flitNo 0 5 0).seq < 4096 ∧ (d.got.elim 0 fun g => (g + 1) % 4096) = 5 ∧ (0 < (6 + 4096 - 5) % 4096 ∧ (2053 + 4096 - 5) % 4096 = 2048) ∧
     2048 < (4 + 4096 - 5) % 4096 ∧ (flitNo 0 5 0).seq = 5 ∧ d.waiting = [] ∧ ∀ x ∈ d.replay, x.carries ≠ 3) ∧
    (∃ x rest, ((delowSt id 8).dport 3).replay = x :: rest ∧ x.at_ + 8 ≤ (delowSt id 8).timer ∧ ¬ x.at_ + 8 ≤ (delowSt id 7).timer) ∧
    (((delowSt (fun d => { d with replay := [] }) 0).dport 3).replay = [] ∧ ((delowSt (fun d => { d with replays := 7 }) 0).dport 3).replays + 1 = 8) ∧
    (let s := (delowSt id 0).modPart 0 fun p => { p with routes := [(7, 2 ^ 3 + 2 ^ 63)] }
     (∃ pt, s.part? 0 = some pt) ∧ s.routePort 0 7 128 = some 3 ∧ s.routePort 0 8 128 = none) := by
  refine ⟨?_, fun bs => ?_, ?_, ?_, ⟨_, _, rfl, by decide, by decide⟩, ?_, ⟨_, rfl⟩, ?_⟩
  case refine_2 => cases Config.flitFec bs <;> simp
  all_goals decide +kernel

/-- The loaded state with replica checking, and with own digests that wait. -/
def repSt (own : List (Nat × Nat)) (now : Nat) : State := { partSt fun p => { p with replica := some ⟨1, 1, 0, 0, 4, 0, own, []⟩ } with timer := now }

/-- ErrorAndReplicaSteps: an error in a quarter of the partition, in local store, in die store and elsewhere; a port, a link, a partition and the
management core; digests that are equal and differ, with another behind them, and a timeout at its tick and one before it. -/
theorem witness_errors :
    (st.partOfQuarter 0 = some 0 ∧ isLocal (localAddr 0 0) = true ∧ isLocal (dieAddr 0 0) = false ∧ isDieStore (dieAddr 0 0) = true ∧ (63 : Nat) < 64 ∧
      ((delowSt id 0).dport 3).owner = some 0 ∧ st.part? 0 = some part0 ∧ 0 < 16 ∧ 16 ≤ 16 ∧ st.part? 16 = none ∧ granule (dieAddr 0 128) ≠ granule (dieAddr 0 0)) ∧
    (∃ p r, (repSt [] 0).part? 0 = some p ∧ p.replica = some r ∧ r.own = []) ∧
    (let s := repSt [(55, 9), (57, 11)]
     ∃ p r, (s 9).part? 0 = some p ∧ p.replica = some r ∧ r.own = (55, 9) :: [(57, 11)] ∧ (55 : Nat) = 55 ∧ (55 : Nat) ≠ 56 ∧ 9 ≤ (s 9).timer ∧ (s 8).timer < 9) :=
  ⟨by decide +kernel, ⟨_, _, rfl, rfl, rfl⟩, _, _, rfl, rfl, rfl, rfl, by decide, by decide, by decide⟩

/-- The loaded state about to issue a word, and the state in which it has chosen its path. -/
def atWord (w : Nat) : State := State.reset.placeWord (wordBytes w)
def chosen (w : Nat) : State := (State.choosePaths { atWord w with agenda := [] } 0).1

/-- An IADD of x3, x5 and w7 under plain guard (R343). -/
def addWord : Nat := 0x00070000003005107C011100

/-- StepRunsTheDecodedInstruction: a word that decodes; a secondary path; a word that does not decode, and one off its boundary; an event, no act,
and no clock. -/
theorem witness_step :
    (∃ g bs h i tl, (atWord addWord).clocksRun = true ∧ (atWord addWord).agenda = .issue 0 :: [] ∧
      State.choosePaths { atWord addWord with agenda := [] } 0 = (chosen addWord, some (0x10000, 2 ^ 32 - 1)) ∧ (chosen addWord).group? 0 = some g ∧ 0x10000 % 4 = 0 ∧
      fetchWord (chosen addWord) ⟨0, 0x10000, 2 ^ 32 - 1, 2 ^ 32 - 1, none⟩ g = .ok bs ∧ decode bs = .ok (h, i, tl) ∧ ¬ (∃ m, i = .region m) ∧ h.wl = false ∧
      i = .iadd .i32 ⟨true, false, false, false, true⟩ (.x 3) (.x 5) (.w 7) ∧ (chosen addWord).blocked 0 g h i (2 ^ 32 - 1) = false ∧
      checks ⟨0, 0x10000, 2 ^ 32 - 1, g.guarded h (2 ^ 32 - 1), lateFault (chosen addWord) ⟨0, 0x10000, 2 ^ 32 - 1, g.guarded h (2 ^ 32 - 1), none⟩ g h i⟩ g h i = .ok 0) ∧
    (let s := { atWord addWord with agenda := [.second 0 0x10000 3] }
     s.clocksRun = true ∧ s.agenda = .second 0 0x10000 3 :: [] ∧ s.normalMode (partOf 0) = true ∧ State.stillThere { s with agenda := [] } 0 0x10000 3 ≠ 0) ∧
    (∃ g bs, (atWord 0).group? 0 = some g ∧ fetchWord (atWord 0) ⟨0, 0x10000, 3, 3, none⟩ g = .ok bs ∧ (∃ e, decode bs = .error e) ∧ 12 ≤ bs.length ∧ lanesOf 3 ≠ [] ∧ (3 : Nat) < 2 ^ 32 ∧
      leNat (bs.take 12) = 0 ∧ decodeWord 0 = .error .emptyGuard) ∧
    (∃ bs, fetchWord (atWord addWord) ⟨0, 0x10002, 3, 3, none⟩ g0 = .ok bs) ∧ 0x10002 % 4 ≠ 0 ∧
    ({ st with agenda := [.event .packageTimerTick] }.agenda = .event .packageTimerTick :: [] ∧ State.reset.agenda = [] ∧ State.reset.clocksRun = true ∧
      { State.reset with power := { Power.new with thermtrip := true } }.clocksRun = false) := by
  refine ⟨⟨g0, wordBytes addWord, Header.plain, .iadd .i32 ⟨true, false, false, false, true⟩ (.x 3) (.x 5) (.w 7), [], rfl, rfl, Prod.ext rfl (by decide +kernel), ?_, rfl, ok_of (by decide +kernel),
      ok_of (by decide +kernel), fun ⟨_, h⟩ => (nomatch h), rfl, rfl, ?_, ok_of (by decide +kernel)⟩, ?_,
    ⟨g0, wordBytes 0, rfl, ok_of (by decide +kernel), ⟨.emptyGuard, error_of (by decide +kernel)⟩, by decide, by decide,
      by decide, by decide +kernel, error_of (by decide +kernel)⟩, ok_of_some _ (by decide +kernel), by decide, ?_⟩
  all_goals decide +kernel

/-- EncodingsRoundTrip: every field of a header at its bound, an instruction, and an opcode of each unallocated range. -/
theorem witness_round_trip :
    (let h : Header := ⟨7, 1, 31, true, true⟩
     h.wf = true ∧ wf (.iadd .i32 ⟨true, false, false, false, true⟩ (.x 3) (.x 5) (.w 7)) = true ∧
     guardOk h (.iadd .i32 ⟨true, false, false, false, true⟩ (.x 3) (.x 5) (.w 7)) = true ∧
     (encode Header.plain (.iadd .i32 ⟨true, false, false, false, true⟩ (.x 3) (.x 5) (.w 7))) = some addWord) ∧
    (unallocated.all fun r => unallocated.any fun q => decide (q.1 ≤ bits (r.2 * 2 ^ 86) 86 10) && decide (bits (r.2 * 2 ^ 86) 86 10 ≤ q.2)) = true := by decide +kernel

/-- MemoryStaysCanonical: memory in its canonical form with the first address, and a step from it. -/
theorem witness_canonical : memWf [(0, (1 : Byte)), (5, 2)] = true ∧ (∃ t, step State.reset = .next t) ∧ (∃ t, exec .packageTimerTick st = .next t) ∧ memWf st.mem = true :=
  ⟨by decide, ⟨_, rfl⟩, ⟨_, rfl⟩, by decide⟩

/-- ProgramsLeaveFirmwareAlone: an instruction of a program that completes. -/
theorem witness_programs : wf (.st .n32 .full .ca (.x 4) (.x 2) .zero 0) = true ∧ ∃ t, exec (.bra 1) st = .next t := ⟨by decide, _, rfl⟩

end Sys2Proof.Tests
end

section
/-! PROOFS. O59: every step keeps memory canonical. A few operations write the list of bytes, and Laws/Memory.lean proves
what they leave canonical. Everything else is built from them by record updates that leave memory alone, by sequencing,
branches and folds. So there is one lemma per operation, in the order of the model's files: `canon_f` for one on the
state, `keepsMem_f` for the act of an instruction, `keepsCmd_f` for a command of firmware; each lemma follows the branches
of its operation. The rules for an outcome, `nextCanon_f`, then carry them through dispatch, turns and steps. -/

namespace Sys2Proof.Machine

/-! What is kept: of a state, and of what an operation that can fail yields. -/

/-- Memory stands in its canonical form. (A definition of its own: two states' memories are then compared only where a
lemma says so, and not by evaluating the states.) -/
def State.Canon (s : State) : Prop := memWf s.mem = true

/-- What an operation that can fail yields, it yields with a property. -/
def Satisfies {ε σ : Type} (P : σ → Prop) (r : Except ε σ) : Prop := ∀ a, r = .ok a → P a

/-- What there is of an optional value has a property. -/
def Maybe {σ : Type} (P : σ → Prop) (o : Option σ) : Prop := ∀ a, o = some a → P a

/-- Whatever state an operation that can fail yields, its memory is canonical. -/
abbrev YieldsWf {ε : Type} (r : Except ε State) : Prop := Satisfies State.Canon r

/-- The same for an operation that yields a state with a value. -/
abbrev YieldsWfFst {ε α : Type} (r : Except ε (State × α)) : Prop := Satisfies (fun p => p.1.Canon) r

/-- Where there is a state, its memory is canonical. -/
abbrev MaybeWf (o : Option State) : Prop := Maybe State.Canon o

/-- An instruction's act keeps memory canonical. -/
def KeepsMem (f : Act) : Prop := ∀ ⦃iss g s⦄, s.Canon → YieldsWf (f iss g s)

/-- A firmware command keeps memory canonical. -/
def KeepsCmd (f : Command) : Prop := ∀ ⦃link a s⦄, s.Canon → YieldsWfFst (f link a s)

/-! Sequencing, branches and folds. -/

section
variable {ε α β σ : Type} {P : σ → Prop} {s t : State} {x : α} {c : Prop} [Decidable c]

theorem satisfies_ok {a : σ} (h : P a) : Satisfies P (.ok a : Except ε σ) := by
  rintro b ⟨⟩
  exact h

theorem satisfies_error {e : ε} : Satisfies P (.error e : Except ε σ) := nofun

theorem satisfies_bind_of {Q : α → Prop} {r : Except ε α} {f : α → Except ε σ} (hr : Satisfies Q r)
    (hf : ∀ a, Q a → Satisfies P (f a)) : Satisfies P (r >>= f) := by
  cases r with
  | error e => exact satisfies_error
  | ok a => exact hf a (hr a rfl)

theorem satisfies_bind {r : Except ε α} {f : α → Except ε σ} (h : ∀ a, Satisfies P (f a)) : Satisfies P (r >>= f) :=
  satisfies_bind_of (Q := fun _ => True) (fun _ _ => trivial) fun a _ => h a

theorem yields_bind {r : Except ε State} {f : State → Except ε σ} (hr : YieldsWf r)
    (hf : ∀ t, t.Canon → Satisfies P (f t)) : Satisfies P (r >>= f) := satisfies_bind_of hr hf

theorem yields_bind_fst {r : Except ε (State × α)} {f : State × α → Except ε σ} (hr : YieldsWfFst r)
    (hf : ∀ p, p.1.Canon → Satisfies P (f p)) : Satisfies P (r >>= f) := satisfies_bind_of hr hf

theorem maybe_some {a : σ} (h : P a) : Maybe P (some a) := by
  rintro b ⟨⟩
  exact h

theorem maybe_none : Maybe P (none : Option σ) := nofun

theorem maybe_map {Q : σ → Prop} {f : σ → σ} {o : Option σ} (h : ∀ a, P a → Q (f a)) (ho : Maybe P o) :
    Maybe Q (o.map f) := by
  cases o with
  | none => exact maybe_none
  | some a => exact maybe_some (h a (ho a rfl))

theorem maybe_map_any {f : α → σ} {o : Option α} (h : ∀ a, P (f a)) : Maybe P (o.map f) := by
  cases o with
  | none => exact maybe_none
  | some a => exact maybe_some (h a)

theorem canon_of_ok {r : Except ε State} (e : r = .ok t) (h : YieldsWf r) : t.Canon := h t e

theorem canon_of_ok_fst {r : Except ε (State × α)} (e : r = .ok (t, x)) (h : YieldsWfFst r) : t.Canon := h (t, x) e

theorem canon_of_some {o : Option State} (e : o = some t) (h : MaybeWf o) : t.Canon := h t e

theorem canon_of_fst {p : State × α} (e : p = (t, x)) (h : p.1.Canon) : t.Canon := by
  subst e
  exact h

theorem canon_mk (h : s.Canon) : (s, x).1.Canon := h

theorem canon_getD {o : Option State} (ho : MaybeWf o) (h : s.Canon) : (o.getD s).Canon := by
  cases o with
  | none => exact h
  | some t => exact canon_of_some rfl ho

theorem canon_ite (hs : s.Canon) (ht : t.Canon) : (if c then s else t).Canon := by split <;> assumption

theorem canon_ite_fst {p q : State × α} (hp : p.1.Canon) (hq : q.1.Canon) : (if c then p else q).1.Canon := by
  split <;> assumption

theorem satisfies_ite {r q : Except ε σ} (hr : Satisfies P r) (hq : Satisfies P q) :
    Satisfies P (if c then r else q) := by split <;> assumption

theorem maybe_ite {o q : Option σ} (ho : Maybe P o) (hq : Maybe P q) : Maybe P (if c then o else q) := by
  split <;> assumption

theorem canon_foldl {f : State → α → State} {l : List α} (hf : ∀ t x, t.Canon → (f t x).Canon) (h : s.Canon) :
    (l.foldl f s).Canon := foldl_keeps State.Canon f hf l s h

theorem canon_foldl_fst {f : State × β → α → State × β} {l : List α} {p : State × β}
    (hf : ∀ t x, t.1.Canon → (f t x).1.Canon) (h : p.1.Canon) : (l.foldl f p).1.Canon :=
  foldl_keeps (fun p : State × β => p.1.Canon) f hf l p h

theorem satisfies_foldlM {f : σ → α → Except ε σ} {l : List α} {a : σ} (hf : ∀ t x, P t → Satisfies P (f t x))
    (h : P a) : Satisfies P (l.foldlM f a) := by
  induction l generalizing a with
  | nil => exact satisfies_ok h
  | cons x l ih => exact satisfies_bind_of (hf a x h) fun _ => ih

theorem maybe_foldlM {f : σ → α → Option σ} {l : List α} {a : σ} (hf : ∀ t x, P t → Maybe P (f t x)) (h : P a) :
    Maybe P (l.foldlM f a) := by
  induction l generalizing a with
  | nil => exact maybe_some h
  | cons x l ih =>
    rw [List.foldlM_cons]
    cases hx : f a x with
    | none => exact maybe_none
    | some t => exact ih (hf a x h t hx)

end

section
variable {s : State} {link n key lanes part pasid page sid k port slot reason uid serial ck pc : Nat}
    {a b d pd base idx : Opnd} {ta ty : Ty} {bs : List Byte} {g : Group} {w : Waiter} {vals payload : List Nat}
    {iss : Issue} {secure : Bool} {off : BitVec 20} {who : Option Nat}

/-! The operations that write memory. -/

theorem canon_setByte {a : Nat} {b : Byte} (h : s.Canon) : (s.setByte a b).Canon :=
  memWf_memPut h a b

theorem canon_setBytes {a : Nat} (h : s.Canon) : (s.setBytes a bs).Canon :=
  memWf_memPutBytes h a bs

theorem canon_store {a : Nat} {p : Bool} (h : s.Canon) : (s.store a bs p).Canon :=
  memWf_store h a bs p

theorem canon_zeroRange {lo hi : Nat} (h : s.Canon) : (s.zeroRange lo hi).Canon :=
  memWf_zeroRange h lo hi

theorem canon_sendWrites (h : s.Canon) : (s.sendWrites link n).Canon :=
  memWf_sendWrites h link n

theorem canon_flushWrites (h : s.Canon) : s.flushWrites.Canon :=
  memWf_flushWrites h

theorem canon_writeRun {phys : Nat} {p : Bool} (h : s.Canon) : (s.writeRun who key phys bs p).Canon :=
  memWf_writeRun h who key phys bs p

theorem canon_writeNow {phys : Nat} {p : Bool} (h : s.Canon) : (s.writeNow who key phys bs p).Canon :=
  memWf_writeNow h who key phys bs p

theorem canon_drain (h : s.Canon) : (s.drain key lanes).Canon :=
  memWf_drain h key lanes

theorem canon_drainBehind {xs : List (Nat × Option Nat)} (h : s.Canon) : (s.drainBehind key xs).Canon :=
  memWf_drainBehind h key xs

theorem canon_reset : State.reset.Canon := memWf_reset

theorem canon_setMmabs {ms : Tbl MmabOp} (h : s.Canon) : ({ s with mmabs := ms } : State).Canon := h

/-! Physical memory (Machine/Mem.lean). -/

theorem canon_setPoison {a : Nat} {p : Bool} (h : s.Canon) : (s.setPoison a p).Canon := h

/-! Groups, parts and teams (Machine/Trap.lean). -/

theorem canon_setGroup (h : s.Canon) : (s.setGroup key g).Canon := h

theorem canon_modGroup {f : Group → Group} (h : s.Canon) : (s.modGroup key f).Canon := h

theorem canon_modPart {p : Nat} {f : Part → Part} (h : s.Canon) : (s.modPart p f).Canon := h

theorem canon_modTeam {t : Nat} {f : Team → Team} (h : s.Canon) : (s.modTeam t f).Canon := h

theorem canon_charge {amount : Nat} (h : s.Canon) : (s.charge part pasid amount).Canon := h

/-! Registers and operands (Machine/Operands.lean). -/

theorem canon_deliver {m : Nat} {o : Opnd} {vals : Vals} (h : s.Canon) :
    YieldsWfFst (deliver s key g m n o vals) := by
  unfold deliver
  split
  · exact satisfies_bind fun _ => satisfies_ok (canon_mk (canon_foldl (fun _ _ ht => canon_store ht) h))
  · exact satisfies_ok h

theorem canon_finish {vals : Vals} (h : s.Canon) : YieldsWf (finish iss s g n d vals) := by
  unfold finish
  exact yields_bind_fst (canon_deliver h) (fun _ ht => satisfies_ok ht)

theorem keepsMem_alu1 {nd na : Nat} {f : Nat → Nat} : KeepsMem (alu1 d nd ta na a f) := by
  unfold alu1
  exact fun _ _ _ hs => satisfies_bind fun _ => canon_finish hs

theorem keepsMem_alu2 {nd na : Nat} {tb : Ty} {nb : Nat} {f : Nat → Nat → Nat} :
    KeepsMem (alu2 d nd ta na a tb nb b f) := by
  unfold alu2
  exact fun _ _ _ hs => satisfies_bind fun _ => satisfies_bind fun _ => canon_finish hs

theorem keepsMem_alu3 {nd na : Nat} {tb : Ty} {nb : Nat} {tc : Ty} {nc : Nat} {c : Opnd} {f : Nat → Nat → Nat → Nat} :
    KeepsMem (alu3 d nd ta na a tb nb b tc nc c f) := by
  unfold alu3
  exact fun _ _ _ hs => satisfies_bind fun _ => satisfies_bind fun _ => satisfies_bind fun _ => canon_finish hs

theorem canon_finishPred {vals : Tbl (Tri × Bool)} (h : s.Canon) : (finishPred iss s g pd vals).Canon := h

theorem keepsMem_test1 {na : Nat} {f : Nat → Tri} : KeepsMem (test1 pd ta na a f) := by
  unfold test1
  exact fun _ _ _ hs => satisfies_bind fun _ => satisfies_ok hs

theorem keepsMem_test2 {na : Nat} {tb : Ty} {nb : Nat} {f : Nat → Nat → Tri} :
    KeepsMem (test2 pd ta na a tb nb b f) := by
  unfold test2
  exact fun _ _ _ hs => satisfies_bind fun _ => satisfies_bind fun _ => satisfies_ok hs

/-! Translation and what is asked of a link (Machine/Translate.lean). -/

theorem canon_tlbInsert {e : TlbEntry} (h : s.Canon) : (s.tlbInsert e).Canon := by
  unfold State.tlbInsert
  dsimp only [State.Canon]
  refine canon_ite h ?_
  split <;> exact h

theorem canon_emit {o : Out} (h : s.Canon) : (s.emit o).Canon := h

theorem canon_askAts (h : s.Canon) : (s.askAts w lanes link pasid page).Canon := by
  unfold State.askAts
  dsimp only
  split
  · exact canon_flushWrites h
  · refine canon_ite ?_ ?_
    · dsimp only [State.Canon]
      exact canon_flushWrites h
    · refine canon_ite (canon_flushWrites h) ?_
      refine canon_emit ?_
      dsimp only [State.Canon]
      exact canon_flushWrites h

theorem canon_askHost {sector len : Nat} (h : s.Canon) : (s.askHost w who key lanes sector len).Canon := by
  unfold State.askHost
  dsimp only
  split
  · exact canon_flushWrites h
  · refine canon_ite ?_ ?_
    · dsimp only [State.Canon]
      exact canon_flushWrites h
    · refine canon_ite (canon_flushWrites h) ?_
      refine canon_emit ?_
      dsimp only [State.Canon]
      exact canon_flushWrites h

theorem canon_askFor {e : XErr} (h : s.Canon) : (s.askFor w pasid e).Canon := by
  unfold State.askFor
  split
  · exact canon_askAts h
  · exact canon_askHost h
  · exact h
  · exact h

/-! Streams and their posts (Machine/Stream.lean). -/

theorem canon_setStream {st : Stream} (h : s.Canon) : (s.setStream part sid st).Canon := h

theorem canon_rebase (h : s.Canon) : (s.rebase part sid).Canon := by
  unfold State.rebase
  split <;> exact h

theorem canon_sendMsix {vec : Nat} (h : s.Canon) : (s.sendMsix link vec).Canon := by
  unfold State.sendMsix
  dsimp only
  split
  · exact canon_flushWrites h
  · refine canon_ite ?_ (canon_emit (canon_flushWrites h))
    dsimp only [State.Canon]
    exact canon_flushWrites h

theorem canon_remapEvent (h : s.Canon) : (s.remapEvent link k).Canon := by
  unfold State.remapEvent
  split
  · exact h
  · exact canon_ite h (canon_sendMsix h)

theorem canon_interrupts {cls : Nat} (h : s.Canon) : (s.interrupts part sid cls).Canon := by
  unfold State.interrupts
  refine canon_foldl ?_ h
  intro t x ht
  split
  · exact ht
  · exact canon_foldl (fun _ _ ht2 => canon_remapEvent ht2) ht

theorem canon_append {st : Stream} {pl : Place} {cls time flags : Nat} {pois : Bool} (h : s.Canon) :
    (s.append who part sid st pl cls time flags payload pois).Canon := by
  unfold State.append
  refine canon_interrupts ?_
  refine canon_rebase ?_
  refine canon_setStream ?_
  refine canon_ite (canon_writeNow h) ?_
  split
  · exact canon_writeNow h
  · exact canon_charge (canon_writeNow h)

theorem canon_post {p : Post} (h : s.Canon) : YieldsWfFst (s.post part sid p) := by
  unfold State.post
  split
  · exact satisfies_error
  · refine satisfies_ite (satisfies_ite satisfies_error (satisfies_ok (canon_mk (canon_ite h h)))) ?_
    refine satisfies_ite satisfies_error ?_
    refine satisfies_ite satisfies_error ?_
    refine satisfies_ite satisfies_error ?_
    split
    · exact satisfies_error
    · exact satisfies_error
    · refine satisfies_ok ?_
      refine canon_ite ?_ (canon_append h)
      split
      · exact canon_append h
      · exact canon_setStream (canon_append h)

theorem canon_sysPost {kind cls : Nat} (h : s.Canon) : (s.sysPost part kind cls payload).Canon := by
  unfold State.sysPost
  dsimp only
  split
  · exact canon_ite h (canon_append h)
  · exact h

theorem canon_postRecord (h : s.Canon) : (s.postRecord part payload).Canon := by
  unfold State.postRecord
  exact canon_ite (canon_modPart (canon_sysPost h)) (canon_sysPost h)

theorem canon_sysPostAll {kind cls : Nat} (h : s.Canon) : (s.sysPostAll kind cls payload).Canon := by
  unfold State.sysPostAll
  exact canon_foldl (fun _ _ ht => canon_sysPost ht) h

theorem canon_setPort {po : Port} (h : s.Canon) : (s.setPort link port po).Canon := h

theorem canon_refuse {pasid : Option Nat} {first8 : Nat} (h : s.Canon) :
    (s.refuse link port slot reason pasid first8).Canon := by
  unfold State.refuse
  refine canon_ite h ?_
  dsimp only
  split
  · exact canon_setPort (canon_sysPost h)
  · exact h

/-! Jobs, barriers, and the ends of groups and tasks (Machine/Task.lean). -/

theorem canon_modDet {f : Det → Det} (h : s.Canon) : (s.modDet part f).Canon := h

theorem canon_postDue {kind cls : Nat} (h : s.Canon) : (s.postDue part uid kind cls payload).Canon := by
  unfold State.postDue
  split
  · exact h
  · exact canon_ite (canon_postRecord h) (canon_sysPost h)

theorem canon_modJob {job : Nat} {f : Job → Job} (h : s.Canon) : (s.modJob part job f).Canon := h

theorem canon_replicaHalt {r : Replica} {own twin : List Word} (h : s.Canon) :
    (s.replicaHalt part r own twin reason).Canon := by
  unfold State.replicaHalt
  exact canon_modPart (canon_sysPost (canon_sysPost h))

theorem canon_replicaStep {cls : Option Nat} (h : s.Canon) : (s.replicaStep part cls pasid).Canon := by
  unfold State.replicaStep
  split
  · exact h
  · refine canon_ite h ?_
    dsimp only
    split
    · exact h
    · exact canon_ite h (canon_replicaHalt h)

theorem canon_jobCheck {job : Nat} (h : s.Canon) : (s.jobCheck part job).Canon := by
  unfold State.jobCheck
  split
  · exact h
  · exact canon_ite h (canon_replicaStep (canon_sysPost h))

theorem canon_jobEnd {job : Nat} {faulted : Bool} (h : s.Canon) : (s.jobEnd part uid job faulted).Canon := by
  unfold State.jobEnd
  split
  · exact h
  · exact canon_jobCheck h

theorem canon_jobMore {job : Nat} (h : s.Canon) : (s.jobMore part uid job).Canon := by
  unfold State.jobMore
  split <;> exact h

theorem canon_jobRefused {job : Nat} (h : s.Canon) : (s.jobRefused part job).Canon := by
  unfold State.jobRefused
  exact canon_jobCheck h

theorem canon_gridEnd {grid : Nat} (h : s.Canon) : (s.gridEnd part grid).Canon := h

theorem canon_mapGroups {f : Nat → Group → Group} (h : s.Canon) : (s.mapGroups f).Canon := h

theorem canon_grantExt (h : s.Canon) : (s.grantExt serial).Canon := by
  unfold State.grantExt
  split
  · exact h
  · split <;> exact h

theorem canon_releaseExt (h : s.Canon) : (s.releaseExt serial key).Canon := by
  unfold State.releaseExt
  split
  · exact h
  · exact canon_ite (canon_grantExt h) h

theorem canon_barCheck (h : s.Canon) : (s.barCheck serial).Canon := by
  unfold State.barCheck
  exact canon_ite h h

theorem canon_cbarCheck {t : Team} (h : s.Canon) : (s.cbarCheck t).Canon := by
  unfold State.cbarCheck
  exact canon_ite h h

theorem canon_barriers {team : Option Nat} (h : s.Canon) : (s.barriers team).Canon := by
  unfold State.barriers
  split
  · exact h
  · dsimp only
    split
    · exact canon_barCheck h
    · exact canon_ite (canon_barCheck h) (canon_cbarCheck (canon_barCheck h))

theorem canon_unlock {op : Nat} (h : s.Canon) : (s.unlock ck op).Canon := h

theorem canon_wakeEngine (h : s.Canon) : (s.wakeEngine ck).Canon := h

theorem canon_collAbandon {op : Nat} (h : s.Canon) : (s.collAbandon op reason).Canon := by
  unfold State.collAbandon
  split
  · exact h
  · exact canon_sysPost h

theorem canon_abandonOps (h : s.Canon) : (s.abandonOps key).Canon := by
  unfold State.abandonOps
  exact canon_wakeEngine (canon_foldl (fun _ _ ht => canon_collAbandon ht)
    (canon_foldl (fun _ _ ht => canon_unlock ht) h))

theorem canon_unwait (h : s.Canon) : (s.unwait part w).Canon := h

theorem canon_tokenDrop (h : s.Canon) : (s.tokenDrop part uid).Canon := h

theorem canon_ringExit (h : s.Canon) : (s.ringExit part uid).Canon := h

theorem canon_teamRelease (h : s.Canon) : (s.teamRelease serial).Canon := by
  unfold State.teamRelease
  split
  · exact h
  · exact canon_ite (canon_modPart (canon_zeroRange h)) h

theorem canon_removeGroup (h : s.Canon) : (s.removeGroup key g).Canon := by
  unfold State.removeGroup
  dsimp only [State.Canon]
  refine canon_ringExit ?_
  refine canon_tokenDrop ?_
  refine canon_unwait ?_
  refine canon_abandonOps ?_
  split
  · exact h
  · exact canon_releaseExt h

theorem canon_taskEnd {faulted : Bool} (h : s.Canon) : (s.taskEnd key g faulted).Canon := by
  unfold State.taskEnd
  refine canon_jobEnd ?_
  refine canon_gridEnd ?_
  split
  · split <;> exact h
  · refine canon_teamRelease ?_
    split <;> exact h

theorem canon_groupEnd (h : s.Canon) : (s.groupEnd key g).Canon := by
  unfold State.groupEnd
  dsimp only
  split
  · refine canon_ite ?_ (canon_barriers (canon_modTeam (canon_removeGroup h)))
    split
    · exact canon_taskEnd (canon_modTeam (canon_removeGroup h))
    · exact canon_ite (canon_taskEnd (canon_modTeam (canon_removeGroup h)))
        (canon_cbarCheck (canon_taskEnd (canon_modTeam (canon_removeGroup h))))
  · exact canon_taskEnd (canon_removeGroup h)

theorem canon_taskFault {f : FaultInfo} (h : s.Canon) : (s.taskFault key g f pc).Canon := by
  unfold State.taskFault
  dsimp only
  split
  · exact canon_postDue (canon_taskEnd (canon_foldl (fun _ _ ht => canon_removeGroup ht) h))
  · exact canon_ite (canon_cbarCheck (canon_postDue (canon_taskEnd (canon_foldl
      (fun _ _ ht => canon_removeGroup ht) h)))) (canon_postDue (canon_taskEnd
        (canon_foldl (fun _ _ ht => canon_removeGroup ht) h)))

/-! Region aborts and pages that become resident (Machine/Abort.lean). -/

theorem canon_drawBool (h : s.Canon) : s.drawBool.1.Canon := h

theorem canon_gather {cluster job core : Nat} {m : Missed} (h : s.Canon) :
    (s.gather part cluster pasid job core pc m w).Canon := h

theorem canon_regionAbort {ms : List Missed} (h : s.Canon) : (s.regionAbort key g pc ms).Canon := by
  unfold State.regionAbort
  exact canon_foldl (fun _ _ ht => canon_gather ht) h

theorem canon_releaseGroup (h : s.Canon) : (s.releaseGroup key).Canon := h

theorem canon_resumeOp {op : Nat} (h : s.Canon) : (s.resumeOp part op).Canon := h

theorem canon_releaseWaiter (h : s.Canon) : (s.releaseWaiter part w).Canon := by
  unfold State.releaseWaiter
  split <;> exact h

theorem canon_engineFault {f : FaultInfo} (h : s.Canon) : (s.engineFault key pc f).Canon := by
  unfold State.engineFault
  split
  · exact h
  · exact canon_taskFault h

theorem canon_failWaiter (h : s.Canon) : (s.failWaiter part page w).Canon := by
  unfold State.failWaiter
  split
  · split
    · exact h
    · split
      · split
        · exact h
        · exact canon_taskFault h
      · exact h
  · exact h
  · exact h
  · exact h
  · exact h
  · dsimp only
    split
    · exact canon_engineFault h
    · split
      · exact h
      · exact canon_engineFault h

theorem canon_pageResident {w : List Nat} (h : s.Canon) : (s.pageResident part w).Canon := by
  unfold State.pageResident
  refine canon_ite ?_ h
  dsimp only
  split
  · exact h
  · exact canon_foldl (fun _ _ ht => canon_ite (canon_releaseWaiter ht) (canon_failWaiter ht)) h

theorem canon_postActs {p : Post} (h : s.Canon) : YieldsWfFst (s.postActs part sid p) := by
  unfold State.postActs
  split
  · exact satisfies_error
  next t e =>
    have ht := canon_of_ok_fst e (canon_post h)
    exact satisfies_ok ht
  next t _ e =>
    have ht := canon_of_ok_fst e (canon_post h)
    exact satisfies_ok (canon_mk (canon_ite (canon_pageResident ht) ht))

theorem canon_closeWindow (h : s.Canon) : (s.closeWindow part k).Canon := by
  unfold State.closeWindow
  split
  · exact h
  · split
    · exact h
    · exact canon_ite h (canon_ite (canon_modPart (canon_postRecord h)) (canon_modPart (canon_postRecord h)))

theorem canon_restartWhere {except? : Option Nat} {test : Nat → Group → BufByte → Bool} (h : s.Canon) :
    (s.restartWhere except? test).Canon := by
  unfold State.restartWhere
  exact canon_foldl (fun _ _ ht => canon_modGroup (canon_drawBool ht)) h

theorem canon_invalidate {first count : Nat} {except? : Option Nat} (h : s.Canon) :
    (s.invalidate part pasid first count except?).Canon := by
  unfold State.invalidate
  exact canon_restartWhere h

/-! How a path runs an instruction (Machine/Ops.lean). -/

theorem canon_dropReturned (h : s.Canon) : (s.dropReturned w).Canon := h

theorem canon_takeTrap {t : Trap} (h : s.Canon) : (takeTrap s iss g t).Canon := by
  unfold takeTrap
  split
  · exact canon_taskFault h
  · exact canon_regionAbort h
  · exact h
  · exact h
  · exact h
  · exact canon_ite (canon_foldl (fun _ _ ht => canon_askHost ht)
      (canon_foldl (fun _ _ ht => canon_askAts ht) (canon_setGroup (canon_drainBehind h))))
        (canon_modGroup (canon_foldl (fun _ _ ht => canon_askHost ht)
          (canon_foldl (fun _ _ ht => canon_askAts ht) (canon_setGroup (canon_drainBehind h)))))

theorem canon_commit (h : s.Canon) : (commit iss s).Canon := by
  unfold commit
  exact canon_modGroup (canon_flushWrites (canon_drain h))

theorem keepsMem_committing {check act : Act} (hcheck : KeepsMem check) (hact : KeepsMem act) :
    KeepsMem (committing check act) := by
  unfold committing
  exact fun _ _ _ hs => yields_bind (hcheck hs) (fun _ ht => hact (canon_commit ht))

theorem canon_pay {v : Nat} (h : s.Canon) : (s.pay serial v).Canon := h

/-! Loads and stores of lanes (Machine/Access.lean). -/

theorem keepsMem_loadAct {sp : Space} {regs : Nat} {ext : Nat → Nat} {elemOk : Bool} :
    KeepsMem (loadAct sp ty n regs ext elemOk d base idx off) := by
  intro iss g s hs
  unfold loadAct
  refine satisfies_bind fun _ => ?_
  refine satisfies_bind fun _ => ?_
  refine satisfies_bind fun _ => ?_
  refine satisfies_bind fun _ => ?_
  refine satisfies_bind fun _ => ?_
  split
  · exact satisfies_error
  · exact satisfies_ok (canon_setGroup (canon_charge (canon_dropReturned (canon_drainBehind hs))))

theorem canon_directStores {xs : List LaneStore} (h : s.Canon) : (directStores s part pasid xs).Canon := by
  unfold directStores
  exact canon_foldl (fun _ _ ht => canon_foldl (fun _ _ ht2 => canon_charge (canon_store ht2)) ht) h

theorem canon_putStores {sp : Space} {fs : List LaneFault} {ws : List LaneStore} (h : s.Canon) :
    YieldsWf (putStores iss g s sp fs ws) := by
  unfold putStores
  exact satisfies_bind fun _ => satisfies_ok (canon_setGroup (canon_directStores h))

theorem keepsMem_storeAct {sp : Space} {data : Group → Nat → Val} {elemOk : Bool} :
    KeepsMem (storeAct sp n data elemOk base idx off) := by
  unfold storeAct
  exact fun _ _ _ hs => satisfies_bind fun _ => satisfies_bind fun _ => canon_putStores hs

/-! The noise-shaping store (Machine/Quantise.lean). -/

theorem keepsMem_qstAct {lg : Nat} : KeepsMem (qstAct k lg d base idx off) := by
  unfold qstAct
  exact fun _ _ _ hs => satisfies_bind fun _ => satisfies_bind fun _ => satisfies_bind fun _ =>
    satisfies_bind fun _ => satisfies_bind fun _ => satisfies_ok hs

theorem keepsMem_qaxisAct {lane carry : Bool} : KeepsMem (qaxisAct lane carry d) := by
  unfold qaxisAct
  exact fun _ _ _ hs => satisfies_ok hs

/-! Tasks and their queues (Machine/Queue.lean). -/

theorem canon_modCore {f : CoreSt → CoreSt} (h : s.Canon) : (s.modCore ck f).Canon := h

theorem canon_enqueue {t : Task} (h : s.Canon) : (s.enqueue ck t).Canon := h

theorem canon_makeTask {t : Task} (h : s.Canon) : (s.makeTask key g t).1.Canon := h

theorem canon_gridMore {grid : Nat} (h : s.Canon) : (s.gridMore part grid).Canon := h

theorem canon_refuseEnqueue {handle : Nat} (h : s.Canon) : (s.refuseEnqueue key g reason handle).Canon := by
  unfold State.refuseEnqueue
  refine canon_postDue ?_
  split
  · exact h
  · exact canon_jobRefused h

theorem canon_writeVirtual {a : Nat} {pois : Bool} (h : s.Canon) :
    (s.writeVirtual part secure pasid a bs pois).Canon := by
  unfold State.writeVirtual
  split
  · exact canon_writeNow h
  · exact h

theorem canon_ringAppend {idx : Nat} {q : Queue} {t : Task} (h : s.Canon) : (s.ringAppend part idx q t).Canon := by
  unfold State.ringAppend
  exact canon_modPart (canon_writeVirtual h)

theorem canon_spawnOne {queue pin : Bool} {h : Val} {args : List Reg} (hs : s.Canon) :
    MaybeWf (s.spawnOne key queue pin pc h args) := by
  unfold State.spawnOne
  dsimp only
  split
  · split
    · exact maybe_some (canon_refuseEnqueue (canon_jobMore hs))
    · exact maybe_some (canon_ringAppend (canon_makeTask (canon_gridMore (canon_jobMore hs))))
    · exact maybe_ite (maybe_some (canon_enqueue (canon_makeTask (canon_gridMore (canon_jobMore hs)))))
        maybe_none
  · exact maybe_some hs

theorem canon_inTurn {one : State → Nat → Option State} (hone : ∀ ⦃t i⦄, t.Canon → MaybeWf (one t i)) {s : State}
    {is : List Nat} (h : s.Canon) : (inTurn one s is).1.Canon := by
  induction is generalizing s with
  | nil => exact h
  | cons i is ih =>
    unfold inTurn
    split
    · exact h
    next t e => exact ih (canon_of_some e (hone h))

theorem keepsMem_spawnAct {queue pin : Bool} : KeepsMem (spawnAct queue pin d a b) := by
  unfold spawnAct
  exact keepsMem_committing (fun _ _ _ hs => satisfies_bind fun _ => satisfies_bind fun _ => satisfies_ok hs)
    (fun _ _ _ hs => satisfies_ite (satisfies_ok (canon_inTurn (fun _ _ ht => canon_spawnOne ht) hs))
      (satisfies_ok (canon_modGroup (canon_inTurn (fun _ _ ht => canon_spawnOne ht) hs))))

theorem canon_makePoolTask (h : s.Canon) : (s.makePoolTask key serial k).Canon := by
  unfold State.makePoolTask
  split
  · exact canon_enqueue (canon_makeTask (canon_gridMore (canon_jobMore h)))
  · exact h

theorem canon_poolAppend {words : List Reg} (h : s.Canon) : (s.poolAppend key serial words).Canon := by
  unfold State.poolAppend
  split
  · exact h
  · exact canon_ite (canon_makePoolTask (canon_modTeam (canon_foldl (fun _ _ ht => canon_store ht) h)))
      (canon_modTeam (canon_foldl (fun _ _ ht => canon_store ht) h))

/-! Setts and barriers (Machine/Setts.lean). -/

theorem canon_setSettWord {a v : Nat} (h : s.Canon) : (s.setSettWord a k v).Canon := by
  unfold State.setSettWord
  exact canon_setBytes h

theorem canon_settle {a : Nat} (h : s.Canon) : (s.settle a).Canon := by
  unfold State.settle
  exact canon_setSettWord (canon_setSettWord (canon_setSettWord h))

theorem canon_settDo {owner a gen : Nat} {op : SettOp} (h : s.Canon) : YieldsWfFst (settDo s owner a gen op) := by
  unfold settDo
  refine satisfies_ite satisfies_error ?_
  split
  · exact satisfies_ite satisfies_error (satisfies_ok (canon_mk (canon_setBytes h)))
  · exact satisfies_ite (satisfies_ok (canon_mk (canon_settle (canon_setSettWord h)))) satisfies_error
  · exact satisfies_ite (satisfies_ok (canon_mk (canon_settle (canon_setSettWord h)))) satisfies_error
  · exact satisfies_ite (satisfies_ite (satisfies_ok h) (satisfies_ok (canon_mk (canon_setSettWord h))))
      (satisfies_ok h)
  · exact satisfies_ok h
  · exact satisfies_ite (satisfies_ite (satisfies_ok (canon_mk (canon_setSettWord h))) satisfies_error)
      (satisfies_ok h)

theorem canon_settRun {ops : List (SettRef × SettOp)} (h : s.Canon) : YieldsWfFst (settRun s key ops) := by
  unfold settRun
  dsimp only
  split
  · refine satisfies_ok ?_
    refine canon_foldl_fst ?_ h
    intro t x ht
    split
    next t2 _ e =>
      have ht2 := canon_of_ok_fst e (canon_settDo ht)
      exact ht2
    · exact ht
  · exact satisfies_error

theorem keepsMem_settAct {pd operand : Option Opnd} {imm : Group → Nat → SettOp} :
    KeepsMem (settAct pd a operand imm) := by
  unfold settAct
  exact fun _ _ _ hs => satisfies_bind fun _ => satisfies_bind fun _ => satisfies_ite
    (satisfies_bind fun _ => yields_bind_fst (canon_settRun hs) (fun _ ht => satisfies_ok (canon_setGroup
      (canon_ite ht ht)))) (yields_bind_fst (canon_settRun hs) (fun _ ht => satisfies_ok (canon_setGroup
        (canon_ite ht ht))))

theorem keepsMem_swaitAct {t : BitVec 28} : KeepsMem (swaitAct pd a b t) := by
  intro iss g s hs
  unfold swaitAct
  refine satisfies_bind fun _ => ?_
  refine satisfies_bind fun _ => ?_
  dsimp only
  split
  · exact satisfies_error
  · exact satisfies_ok hs

theorem canon_swaitExpire {g lane : Nat} (h : s.Canon) : (swaitExpire g lane s).Canon := by
  unfold swaitExpire
  split
  · exact h
  · split
    · exact canon_ite h (canon_ite h (canon_ite h h))
    · exact h

theorem canon_swaitFault {far : Bool} (h : s.Canon) : (s.swaitFault key far).Canon := by
  unfold State.swaitFault
  split
  · exact h
  · split
    · exact canon_taskFault h
    · exact h

theorem canon_swaitPoll {far : Bool} (h : s.Canon) : (s.swaitPoll key far).Canon := by
  unfold State.swaitPoll
  split
  · exact h
  · exact canon_ite h h

theorem canon_deferredInstr {ds : List DeferredSett} (h : s.Canon) : (s.deferredInstr key uid pc ds).Canon := by
  unfold State.deferredInstr
  dsimp only
  split
  · exact canon_taskFault h
  · exact h
  next t _ e _ =>
    have ht := canon_of_ok_fst e (canon_settRun h)
    exact ht
  next t _ _ e _ =>
    have ht := canon_of_ok_fst e (canon_settRun h)
    exact canon_foldl (fun _ _ ht2 => canon_ite (canon_modGroup ht2) ht2) ht

theorem canon_arrive {a b : Nat} (h : s.Canon) : (s.arrive a b).Canon := by
  unfold State.arrive
  exact canon_ite h (canon_ite (canon_settle (canon_setSettWord h)) (canon_setSettWord h))

theorem canon_soloBarrier (h : s.Canon) : (s.soloBarrier key).Canon := by
  unfold State.soloBarrier
  split
  · exact h
  · exact canon_ite h h

theorem canon_barriersOf (h : s.Canon) : (s.barriersOf key).Canon := by
  unfold State.barriersOf
  split
  · exact h
  · exact canon_ite (canon_barriers h) (canon_soloBarrier h)

theorem keepsMem_barrierAct {w : Wait} : KeepsMem (barrierAct w) := by
  unfold barrierAct
  exact keepsMem_committing (fun _ _ _ hs => satisfies_ok hs) (fun _ _ _ hs => satisfies_ok (canon_barriersOf hs))

theorem keepsMem_bindAct {n : Opnd} : KeepsMem (bindAct d base n off) := by
  unfold bindAct
  exact fun _ _ _ hs => satisfies_bind fun _ => satisfies_bind fun _ => satisfies_bind fun _ =>
    satisfies_bind fun _ => satisfies_bind fun _ => satisfies_bind fun _ => satisfies_ok hs

theorem keepsMem_unbindAct : KeepsMem (unbindAct d) := by
  unfold unbindAct
  exact fun _ _ _ hs => satisfies_bind fun _ => satisfies_ok hs

/-! Bulk copies (Machine/Bulk.lean). -/

theorem canon_walkAhead {b : BulkOp} (h : s.Canon) : (s.walkAhead n b).Canon := by
  unfold State.walkAhead
  split
  · exact h
  · refine canon_foldl ?_ h
    intro t x ht
    refine canon_ite ht ?_
    split
    · exact canon_tlbInsert ht
    · exact ht

theorem canon_bulkIssue {r : BulkReq} (h : s.Canon) : MaybeWf (s.bulkIssue r) := by
  unfold State.bulkIssue
  exact maybe_ite (maybe_some (canon_walkAhead h)) maybe_none

theorem keepsMem_bulkAct {token : Bool} {req : State → Issue → Group → Nat → Except (Nat × Nat × Nat) BulkReq} :
    KeepsMem (bulkAct token d a b req) := by
  unfold bulkAct
  refine keepsMem_committing (fun _ _ _ hs => satisfies_bind fun _ => satisfies_ite
    (satisfies_bind fun _ => satisfies_ite (satisfies_bind fun _ => satisfies_ok hs) (satisfies_ok hs))
      (satisfies_bind fun _ => satisfies_ite (satisfies_bind fun _ => satisfies_ok hs) (satisfies_ok hs))) ?_
  intro iss g s hs
  refine satisfies_ite (satisfies_ok (canon_modGroup ?_)) (satisfies_ok (canon_modGroup (canon_modGroup ?_)))
  all_goals
    refine canon_inTurn (fun t i ht => ?_) hs
    split
    · exact canon_bulkIssue ht
    · exact maybe_some ht

theorem canon_engTry {t : State} {op fmt : Nat} {acc : Acc} {as : List Nat} (h : s.Canon)
    (e : engTry s op part ck pasid fmt acc as = .waits t) : t.Canon := by
  unfold engTry at e
  split at e
  · cases e
  · cases e
    exact canon_askAts h
  · cases e
    exact canon_askHost h
  · cases e
  · split at e
    · split at e
      · cases e
      · dsimp only at e
        split at e
        · cases e
        · cases e
          exact canon_foldl (fun _ _ ht => canon_askHost ht) h
    · cases e

theorem canon_lateExit (h : s.Canon) : (s.lateExit key).Canon := by
  unfold State.lateExit
  split
  · exact h
  · exact canon_ite (canon_groupEnd h) h

theorem canon_bulkGone {op : Nat} {b : BulkOp} (h : s.Canon) : (s.bulkGone op b).Canon := h

theorem canon_bulkStop {op : Nat} {b : BulkOp} {acc code guest : Nat} (h : s.Canon) :
    (s.bulkStop op b acc code page guest).Canon := by
  unfold State.bulkStop
  refine canon_ite ?_ (canon_engineFault h)
  refine canon_ite h ?_
  split <;> exact h

theorem canon_copyArrive {b : BulkOp} (h : s.Canon) : (s.copyArrive b).Canon := by
  unfold State.copyArrive
  exact canon_ite (canon_foldl (fun _ _ ht => canon_ite (canon_arrive ht) ht) h) (canon_arrive h)

theorem canon_g2lDone {op : Nat} {b : BulkOp} (h : s.Canon) : (s.g2lDone op b).Canon := by
  unfold State.g2lDone
  dsimp only
  split
  next t e =>
    have ht := canon_engTry h e
    exact ht
  · exact canon_bulkStop h
  · split
    · exact h
    · split
      · exact canon_engineFault h
      · exact canon_lateExit (canon_copyArrive (canon_bulkGone (canon_charge
          (canon_foldl (fun _ _ ht => canon_ite (canon_foldl (fun _ _ ht2 => canon_setPoison ht2)
            (canon_foldl (fun _ _ ht2 => canon_setByte ht2) ht)) ht) h))))

theorem canon_engWrite {b : BulkOp} {ws : List EngWrite} (h : s.Canon) : (s.engWrite b ws).Canon := by
  unfold State.engWrite
  exact canon_foldl (fun _ _ ht => canon_charge (canon_writeRun ht)) h

theorem canon_l2gDone {op : Nat} {b : BulkOp} (h : s.Canon) : (s.l2gDone op b).Canon := by
  unfold State.l2gDone
  split
  next t e =>
    have ht := canon_engTry h e
    exact ht
  · exact canon_bulkStop h
  · split
    · exact h
    · exact canon_lateExit (canon_copyArrive (canon_bulkGone (canon_charge (canon_engWrite h))))

theorem canon_copyComplete {op : Nat} (h : s.Canon) : (copyComplete op s).Canon := by
  unfold copyComplete
  split
  · exact h
  · exact canon_ite h (canon_ite (canon_g2lDone h) (canon_ite (canon_l2gDone h) h))

theorem canon_bqstComplete {op : Nat} (h : s.Canon) : (bqstComplete op s).Canon := by
  unfold bqstComplete
  split
  · exact h
  · refine canon_ite h ?_
    split
    next t e => exact canon_engTry h e
    · exact canon_bulkStop h
    · split
      · exact h
      · exact canon_bulkStop h
      · split
        exact canon_lateExit (canon_arrive (canon_bulkGone (canon_charge
          (canon_foldl (fun _ _ ht => canon_store ht) (canon_engWrite h)))))

/-! Delow ports (Machine/Delow.lean). -/

theorem canon_modDport {p : Nat} {f : DPort → DPort} (h : s.Canon) : (s.modDport p f).Canon := h

theorem canon_sendNow {p : Nat} {x : SentFlit} (h : s.Canon) : (s.sendNow p x).Canon := h

theorem canon_sendWaiting {p : Nat} (h : s.Canon) : (s.sendWaiting p n).Canon := by
  induction n generalizing s with
  | zero => exact h
  | succ n ih =>
    unfold State.sendWaiting
    split
    · exact h
    · exact canon_ite (ih (canon_sendNow (canon_modDport h))) h

theorem canon_sendFlits {p : Nat} {xs : List SentFlit} (h : s.Canon) : (s.sendFlits p xs).Canon := by
  unfold State.sendFlits
  exact canon_sendWaiting h

theorem canon_replayAll {p : Nat} (h : s.Canon) : (s.replayAll p).Canon := by
  unfold State.replayAll
  exact canon_foldl (fun _ _ ht => canon_emit ht) h

theorem canon_resend {p : Nat} (h : s.Canon) : (s.resend p).Canon := by
  unfold State.resend
  exact canon_ite h (canon_modDport (canon_replayAll h))

theorem canon_portEvent {p state reads writes : Nat} (h : s.Canon) : (s.portEvent p state reads writes).Canon := by
  unfold State.portEvent
  split
  · exact h
  · exact canon_sysPost h

theorem canon_collKill {tag : Nat} (h : s.Canon) : (s.collKill part tag reason).Canon := by
  unfold State.collKill
  exact canon_ite h (canon_foldl (fun _ _ ht => canon_lateExit (canon_collAbandon ht)) h)

theorem canon_portReset {p : Nat} (h : s.Canon) : (s.portReset p).Canon := by
  unfold State.portReset
  refine canon_foldl ?_ (canon_portEvent h)
  intro t x ht
  split
  · exact ht
  · exact canon_collKill ht

theorem canon_unroutable (h : s.Canon) : (s.unroutable part).Canon := by
  unfold State.unroutable
  exact canon_sysPost h

theorem canon_flitTaken {p : Nat} {f : Flit} (h : s.Canon) : (s.flitTaken p f).Canon := by
  unfold State.flitTaken
  exact canon_ite h (canon_ite (canon_portEvent h) (canon_ite (canon_ite h (canon_resend h)) (canon_sendWaiting
    (canon_ite (canon_sendFlits h) h))))

theorem canon_flitReceive {p : Nat} (h : s.Canon) : (flitReceive p bs s).Canon := by
  unfold flitReceive
  refine canon_ite h ?_
  split
  · exact canon_resend h
  · exact canon_flitTaken h

theorem canon_retrainEnd {p : Nat} {ok : Bool} (h : s.Canon) : (retrainEnd p ok s).Canon := by
  unfold retrainEnd
  exact canon_ite h (canon_ite (canon_sendWaiting (canon_replayAll h)) (canon_portReset h))

theorem canon_delowUp {p : Nat} (h : s.Canon) : (delowUp p s).Canon := by
  unfold delowUp
  exact canon_sendWaiting (canon_portEvent h)

/-! Collectives (Machine/Coll.lean). -/

theorem canon_modColl {op : Nat} {f : CollOp → CollOp} (h : s.Canon) : (s.modColl op f).Canon := h

theorem canon_collSend {op : Nat} {c : CollOp} (h : s.Canon) : (s.collSend op c k bs).Canon := by
  unfold State.collSend
  dsimp only
  split
  · exact canon_unroutable h
  · exact canon_charge (canon_sendFlits h)

theorem canon_toParent {op : Nat} {c : CollOp} {ds : List (Nat × Nat)} (h : s.Canon) :
    MaybeWf (s.toParent op c vals ds) := by
  unfold State.toParent
  exact maybe_ite (maybe_map_any (fun _ => h)) (maybe_some (canon_collSend h))

theorem canon_toKids {op : Nat} {c : CollOp} (h : s.Canon) :
    (s.toKids op c vals n).Canon := by
  induction n generalizing s op c with
  | zero => exact h
  | succ n ih =>
    unfold State.toKids
    refine canon_foldl ?_ h
    intro t k ht
    refine canon_ite ?_ (canon_collSend ht)
    split
    · exact ht
    · exact canon_ite ht (ih (canon_modColl ht))

theorem canon_collResult {op : Nat} {c : CollOp} (h : s.Canon) : (s.collResult op c vals).Canon := by
  unfold State.collResult
  exact canon_toKids h

theorem canon_collStop {op : Nat} {c : CollOp} {acc code guest : Nat} (h : s.Canon) :
    (s.collStop op c acc code page guest).Canon := by
  unfold State.collStop
  refine canon_ite ?_ (canon_engineFault h)
  refine canon_ite h ?_
  split <;> exact h

theorem canon_collRead {op : Nat} {c : CollOp} {a : Nat} (h : s.Canon) : (s.collRead op c a n).1.Canon := by
  unfold State.collRead
  dsimp only
  split
  next t e =>
    have ht := canon_engTry h e
    exact ht
  · exact canon_mk (canon_collStop h)
  · split <;> exact h

theorem canon_collStart {op : Nat} {c : CollOp} (h : s.Canon) : (s.collStart op c).Canon := by
  unfold State.collStart
  dsimp only
  split
  next t e =>
    have ht := canon_of_fst e (canon_collRead h)
    exact ht
  next t _ e =>
    have ht := canon_of_fst e (canon_collRead h)
    split
    next t2 e =>
      have ht2 := canon_of_fst e (canon_collRead ht)
      exact ht2
    next t2 _ e =>
      have ht2 := canon_of_fst e (canon_collRead ht)
      exact canon_ite (canon_engineFault ht2) (canon_ite ht2 (canon_collKill ht2))

theorem canon_collContribute {op : Nat} {c : CollOp} (h : s.Canon) : (s.collContribute op c).Canon := by
  unfold State.collContribute
  dsimp only
  split
  next t e =>
    have ht := canon_of_fst e (canon_collRead h)
    exact ht
  next t _ e =>
    have ht := canon_of_fst e (canon_collRead h)
    exact canon_ite (canon_collKill ht) ht

theorem canon_collFinish {op : Nat} {c : CollOp} (h : s.Canon) : (s.collFinish op c vals).Canon := by
  unfold State.collFinish
  refine canon_ite (canon_lateExit (canon_arrive h)) ?_
  dsimp only
  split
  next t e =>
    have ht := canon_engTry h e
    exact ht
  · exact canon_collStop h
  · split
    · exact h
    · refine canon_lateExit ?_
      refine canon_arrive ?_
      refine canon_wakeEngine ?_
      refine canon_dropReturned ?_
      refine canon_unlock ?_
      dsimp only [State.Canon]
      refine canon_foldl ?_ h
      intro t x ht
      refine canon_foldl ?_ ht
      intro t x ht2
      split
      · exact ht2
      · exact canon_charge (canon_writeRun ht2)

theorem canon_collMove {op : Nat} {c : CollOp} (h : s.Canon) : (s.collMove op c).Canon := by
  unfold State.collMove
  dsimp only
  split
  · exact canon_ite (canon_collFinish h) h
  · refine canon_ite (canon_collContribute h) ?_
    refine canon_ite (canon_ite (canon_collKill h) (canon_ite (canon_collResult (canon_sysPost h)) h)) ?_
    refine canon_ite ?_ (canon_ite (canon_getD (maybe_map (fun _ ht => ht) (canon_toParent h)) h) h)
    split
    · exact h
    · exact canon_getD (maybe_map (fun _ ht => ht) (canon_toParent h)) h

theorem canon_collRun {op : Nat} (h : s.Canon) : (s.collRun op).Canon := by
  unfold State.collRun
  split
  · exact h
  · exact canon_ite h (canon_ite (canon_collStart h) (canon_collMove h))

theorem canon_collPoll (h : s.Canon) : s.collPoll.Canon := by
  unfold State.collPoll
  exact canon_foldl (fun _ _ ht => canon_collRun ht) h

theorem canon_collIssue {done : Nat} (h : s.Canon) : MaybeWf (s.collIssue iss g bs done) := by
  unfold State.collIssue
  exact maybe_ite (maybe_some h) maybe_none

theorem keepsMem_collAct : KeepsMem (collAct a) := by
  unfold collAct
  refine keepsMem_committing (fun _ _ _ hs => satisfies_bind fun _ => satisfies_ite
    (satisfies_bind fun _ => satisfies_bind fun _ => satisfies_ok hs)
      (satisfies_bind fun _ => satisfies_bind fun _ => satisfies_ok hs)) ?_
  intro iss g s hs
  refine satisfies_ite (satisfies_ok (canon_modGroup ?_)) (satisfies_ok (canon_modGroup (canon_modGroup ?_)))
  all_goals
    refine canon_inTurn (fun t i ht => ?_) hs
    split
    · exact canon_collIssue ht
    · exact maybe_some ht

theorem canon_collPartial {op child : Nat} {ds : List (Nat × Nat)} (h : s.Canon) :
    (collPartial op child vals ds s).Canon := by
  unfold collPartial
  split
  · exact h
  · exact canon_ite (canon_collKill h) (canon_collRun h)

theorem canon_collDigest {op shard digest : Nat} (h : s.Canon) : (collDigest op shard digest s).Canon := by
  unfold collDigest
  exact canon_collRun h

theorem canon_collComplete {op : Nat} (h : s.Canon) : (collComplete op vals s).Canon := by
  unfold collComplete
  split
  · exact h
  · exact canon_ite h (canon_collRun (canon_collResult h))

theorem canon_collTimeout {op : Nat} (h : s.Canon) : (collTimeout op s).Canon := by
  unfold collTimeout
  split
  · exact h
  · exact canon_ite h (canon_collKill h)

/-! Control flow (Machine/Control.lean). -/

theorem keepsMem_braAct {off : BitVec 32} : KeepsMem (braAct off) := by
  unfold braAct
  exact fun _ _ _ hs => satisfies_ok hs

theorem keepsMem_brxAct : KeepsMem (brxAct a b) := by
  unfold brxAct
  exact fun _ _ _ hs => satisfies_bind fun _ => satisfies_ok hs

theorem canon_push {i v : Nat} (h : s.Canon) : (s.push key i v).Canon := by
  unfold State.push
  split
  · exact h
  · exact canon_ite h (canon_setGroup (canon_store h))

theorem canon_pop {i : Nat} (h : s.Canon) : (s.pop key i).Canon := by
  unfold State.pop
  split
  · exact h
  · split
    · exact h
    · exact canon_ite h h

theorem canon_afterCall (h : s.Canon) : (s.afterCall iss).Canon := h

theorem canon_stopLanes {code : Nat} (h : s.Canon) : (s.stopLanes iss code lanes).Canon := by
  unfold State.stopLanes
  split
  · exact h
  · exact canon_ite h (canon_taskFault h)

theorem canon_callTo {ts : Tbl Nat} (h : s.Canon) : (callTo iss g s ts).Canon := by
  unfold callTo
  exact canon_stopLanes (canon_afterCall (canon_modGroup (canon_foldl (fun _ _ ht => canon_push ht) h)))

theorem keepsMem_callAct {off : BitVec 32} : KeepsMem (callAct off) := by
  unfold callAct
  exact fun _ _ _ hs => satisfies_ok (canon_callTo hs)

theorem keepsMem_callxAct : KeepsMem (callxAct a b) := by
  unfold callxAct
  exact fun _ _ _ hs => satisfies_bind fun _ => satisfies_ok (canon_callTo hs)

theorem keepsMem_retAct : KeepsMem retAct := by
  unfold retAct
  exact fun _ _ _ hs => satisfies_ok (canon_stopLanes (canon_afterCall (canon_foldl (fun _ _ ht => canon_pop ht) hs)))

theorem keepsMem_bseAct {o : Opnd} {off : BitVec 32} : KeepsMem (bseAct n o off) := by
  unfold bseAct
  exact fun _ _ _ hs => satisfies_ok hs

theorem keepsMem_joinAct : KeepsMem (joinAct pd a b) := by
  intro iss g s hs
  unfold joinAct
  dsimp only
  split
  · exact satisfies_ok hs
  · exact satisfies_bind fun _ => satisfies_ok hs

theorem keepsMem_regionAct {m : Masks} : KeepsMem (regionAct m) := by
  unfold regionAct
  exact fun _ _ _ hs => satisfies_ok (canon_modGroup (canon_drain hs))

theorem canon_phaseCheck (h : s.Canon) : (s.phaseCheck key).Canon := by
  unfold State.phaseCheck
  split
  · exact h
  · exact canon_ite h (canon_ite (canon_taskFault h) (canon_ite (canon_taskFault h) (canon_ite (canon_taskFault h)
      (canon_setGroup (canon_setBytes (canon_drain h))))))

/-! How a path runs an instruction (Machine/Ops.lean, continued). -/

theorem canon_returnAll (h : s.Canon) : (s.returnAll key).Canon := by
  unfold State.returnAll
  exact canon_phaseCheck h

/-! Control flow (Machine/Control.lean, continued). -/

theorem keepsMem_phaseAct {m : Masks} : KeepsMem (phaseAct m) := by
  unfold phaseAct
  exact fun _ _ _ hs => satisfies_ok (canon_phaseCheck (canon_modGroup (canon_drain hs)))

theorem canon_phaseResume (h : s.Canon) : (phaseResume key s).Canon := by
  unfold phaseResume
  split
  · exact h
  · exact canon_ite h h

theorem keepsMem_xacqAct : KeepsMem xacqAct := by
  intro iss g s hs
  unfold xacqAct
  refine satisfies_ite (satisfies_ok hs) ?_
  dsimp only
  split <;> exact satisfies_ok hs

theorem keepsMem_xrelAct : KeepsMem xrelAct := by
  intro iss g s hs
  unfold xrelAct
  split
  · exact satisfies_ok hs
  · exact satisfies_ok (canon_releaseExt hs)

theorem keepsMem_yieldAct : KeepsMem yieldAct := by
  unfold yieldAct
  exact fun _ _ _ hs => satisfies_ok (canon_ite hs hs)

theorem keepsMem_waitcAct : KeepsMem waitcAct := by
  unfold waitcAct
  exact fun _ _ _ hs => satisfies_ok (canon_ite hs hs)

theorem keepsMem_exitAct : KeepsMem exitAct := by
  intro iss g s hs
  unfold exitAct
  dsimp only
  split
  · exact satisfies_ok (canon_lateExit (canon_modGroup (canon_drain hs)))
  · exact satisfies_ok (canon_phaseCheck (canon_ite (canon_barriersOf (canon_lateExit
      (canon_modGroup (canon_drain hs)))) (canon_ite (canon_barriers (canon_lateExit
        (canon_modGroup (canon_drain hs)))) (canon_lateExit (canon_modGroup (canon_drain hs))))))

theorem keepsMem_trapAct {code : Word} : KeepsMem (trapAct code a) := by
  unfold trapAct
  exact fun _ _ _ hs => satisfies_error

theorem keepsMem_bkptAct {code : Word} : KeepsMem (bkptAct code a) := by
  unfold bkptAct
  exact fun _ _ _ hs => satisfies_ok (canon_postDue hs)

/-! The match engines (Machine/Automata.lean). -/

theorem canon_ctxWrite {a : Nat} (h : s.Canon) : YieldsWf (s.ctxWrite w part secure pasid a bs) := by
  unfold State.ctxWrite
  exact satisfies_bind fun _ => satisfies_ok (canon_foldl (fun _ _ ht => canon_writeNow ht) h)

theorem canon_setEngine {q : Nat} {e : Engine} (h : s.Canon) : (s.setEngine q e).Canon := h

theorem canon_setAutomaton {q : Nat} {a : Automaton} (h : s.Canon) : (s.setAutomaton q k a).Canon := h

theorem canon_rebaseAll {sids : List Nat} (h : s.Canon) : (s.rebaseAll part sids).Canon := by
  unfold State.rebaseAll
  exact canon_foldl (fun _ _ ht => canon_rebase ht) h

theorem canon_writeFrame {q : Nat} {a : Automaton} (h : s.Canon) : (s.writeFrame q k a).Canon := by
  unfold State.writeFrame
  dsimp only
  split
  · exact canon_setAutomaton (canon_setBytes h)
  · exact canon_rebaseAll (canon_setAutomaton (canon_setBytes h))

theorem canon_firstFrame {q : Nat} {a : Automaton} (h : s.Canon) : (s.firstFrame q k a).Canon := by
  unfold State.firstFrame
  exact canon_writeFrame (canon_setBytes h)

theorem canon_stopAutomaton {q : Nat} {a : Automaton} {cause code handle : Nat} (h : s.Canon) :
    (s.stopAutomaton q k a cause code handle).Canon := by
  unfold State.stopAutomaton
  refine canon_ite (canon_writeFrame h) ?_
  split
  · exact canon_writeFrame h
  · exact canon_sysPost (canon_writeFrame h)

/-- A report leaves either no state or a canonical one. -/
theorem satisfies_report {time : Nat}
    (h : s.Canon) : Satisfies MaybeWf (s.report w part secure sid pasid time payload) := by
  unfold State.report
  split
  · exact satisfies_ok maybe_none
  · refine satisfies_ite (satisfies_ok maybe_none) (satisfies_ite (satisfies_ok maybe_none) ?_)
    split
    · exact satisfies_ok maybe_none
    · exact satisfies_error
    · exact satisfies_ok (maybe_some (canon_append h))

theorem canon_putOutput {q : Nat} {o : Output} (h : s.Canon) : YieldsWf (s.putOutput part q o) := by
  unfold State.putOutput
  dsimp only
  split
  · exact satisfies_ite (satisfies_ok h) (satisfies_ite satisfies_error (satisfies_ok h))
  · refine satisfies_ite (satisfies_ok h) ?_
    split
    · exact satisfies_error
    next t e =>
      exact satisfies_ok (canon_of_some rfl (satisfies_report (canon_setEngine h) _ e))
    · refine satisfies_ok ?_
      split <;> exact h
  · refine satisfies_ok ?_
    split <;> exact h

theorem canon_putOutputs {q : Nat} {os : List Output} (h : s.Canon) :
    (putOutputs part q s os).1.Canon := by
  induction os generalizing s with
  | nil => exact h
  | cons o os ih =>
    unfold putOutputs
    split
    · exact h
    · exact canon_askFor h
    next t e => exact ih (canon_of_ok e (canon_putOutput h))

theorem canon_drainOnce {q : Nat} (h : s.Canon) : (s.drainOnce q).Canon := by
  unfold State.drainOnce
  split
  · exact h
  · exact h
  · exact canon_setEngine (canon_putOutputs h)

theorem canon_drainMany {q : Nat} (h : s.Canon) : (s.drainMany q n).Canon := by
  induction n generalizing s with
  | zero => exact h
  | succ n ih => exact ih (canon_drainOnce h)

theorem canon_engineDrain {q : Nat} (h : s.Canon) : (s.engineDrain q).Canon := by
  unfold State.engineDrain
  exact canon_drainMany h

theorem canon_queueOutputs {q : Nat} {os : List Output} (h : s.Canon) : (s.queueOutputs q os).Canon := h

theorem canon_chargeEvent {q : Nat} {a : Automaton} {e : Nat × Nat × Nat} (h : s.Canon) :
    (s.chargeEvent part q k a e).Canon := by
  unfold State.chargeEvent
  split
  · exact h
  · split <;> exact h

theorem canon_eventStep {q : Nat} (h : s.Canon) : (eventStep q k s).Canon := by
  unfold eventStep
  split
  · exact h
  · split
    · exact h
    · dsimp only
      split
      · exact canon_ite (canon_askFor h) (canon_stopAutomaton h)
      · exact canon_engineDrain (canon_ite (canon_stopAutomaton (canon_queueOutputs (canon_setAutomaton
          (canon_dropReturned (canon_chargeEvent h))))) (canon_rebaseAll (canon_queueOutputs
            (canon_setAutomaton (canon_dropReturned (canon_chargeEvent h))))))

theorem canon_passStep {q : Nat} (h : s.Canon) : (passStep q k s).Canon := by
  unfold passStep
  split
  · exact h
  · split
    · exact h
    · exact canon_engineDrain (canon_ite (canon_writeFrame h) (canon_rebaseAll h))

/-! Event instructions (Machine/Events.lean). -/

theorem canon_giveStatus {vals : Tbl Nat} (h : s.Canon) : (giveStatus iss d n vals s).Canon := h

theorem canon_laneStatusOr {one : State → Nat → Except XErr (State × Nat)} {lanes : List Nat}
    (hone : ∀ ⦃t i⦄, t.Canon → YieldsWfFst (one t i)) (h : s.Canon) : YieldsWfFst (laneStatusOr one lanes s) := by
  unfold laneStatusOr
  refine satisfies_foldlM ?_ h
  intro t x ht2
  split
  next t3 _ e =>
    have ht3 := canon_of_ok_fst e (hone ht2)
    exact satisfies_ok ht3
  · exact satisfies_error

theorem canon_laneStatus {one : State → Nat → State × Nat} {lanes : List Nat}
    (hone : ∀ ⦃t i⦄, t.Canon → (one t i).1.Canon) (h : s.Canon) : (laneStatus one lanes s).1.Canon := by
  unfold laneStatus
  exact canon_foldl_fst (fun _ _ ht2 => canon_mk (hone ht2)) h

theorem canon_evpostOne {at_ : Nat} (h : s.Canon) : YieldsWfFst (evpostOne key g at_ sid s) := by
  unfold evpostOne
  dsimp only
  split
  · exact satisfies_ok h
  · refine satisfies_ite (satisfies_ok h) ?_
    refine satisfies_ite (satisfies_ok h) ?_
    split
    · exact satisfies_ok h
    · exact satisfies_ok h
    · exact satisfies_error
    next t _ e =>
      have ht := canon_of_ok_fst e (canon_postActs h)
      exact satisfies_ok ht

theorem keepsMem_evpostAct : KeepsMem (evpostAct d a b) := by
  unfold evpostAct
  exact keepsMem_committing (fun _ _ _ hs => satisfies_bind fun _ => satisfies_bind fun _ => satisfies_bind fun _ =>
    satisfies_ok hs) (fun _ _ _ hs => yields_bind_fst (canon_laneStatusOr (fun _ _ ht => canon_evpostOne ht) hs)
      (fun _ ht => satisfies_ok ht))

theorem keepsMem_evldAct : KeepsMem (evldAct d a) := by
  intro iss g s hs
  unfold evldAct
  refine satisfies_bind fun _ => ?_
  refine satisfies_bind fun _ => ?_
  refine satisfies_bind fun _ => ?_
  refine satisfies_bind fun _ => ?_
  split
  · exact satisfies_error
  · exact satisfies_bind fun _ => satisfies_ok hs

theorem canon_evrelOne {h : Nat} (hs : s.Canon) : (evrelOne part h s).Canon := by
  unfold evrelOne
  split
  · exact hs
  · exact canon_ite (canon_rebase hs) hs

theorem keepsMem_evrelAct : KeepsMem (evrelAct a) := by
  unfold evrelAct
  refine keepsMem_committing (fun _ _ _ hs => satisfies_bind fun _ => satisfies_bind fun _ => satisfies_ok hs) ?_
  intro iss g s hs
  refine satisfies_ok ?_
  refine canon_foldl ?_ hs
  intro t x ht
  split
  · exact canon_evrelOne ht

theorem canon_wmarkOne {time : Nat} (h : s.Canon) : (wmarkOne part time sid s).Canon := by
  unfold wmarkOne
  split
  · exact h
  · exact canon_ite h h

theorem keepsMem_wmarkAct : KeepsMem (wmarkAct a b) := by
  unfold wmarkAct
  refine keepsMem_committing (fun _ _ _ hs => satisfies_bind fun _ => satisfies_bind fun _ => satisfies_ok hs) ?_
  intro iss g s hs
  refine satisfies_ok ?_
  refine canon_foldl ?_ hs
  intro t x ht
  split
  · exact canon_wmarkOne ht

/-! Automata installed and steered (Machine/AutLoad.lean). -/

theorem canon_setGate {q v : Nat} (h : s.Canon) : (s.setGate q k v).Canon := h

theorem canon_recoverSlot {q : Nat} {empty : Bool} (h : s.Canon) : (s.recoverSlot q k empty).Canon := by
  unfold State.recoverSlot
  split
  · exact h
  · split
    · exact h
    · exact canon_firstFrame h

theorem canon_recoverEngine {q : Nat} {empty : Bool} (h : s.Canon) : (s.recoverEngine q empty).Canon := by
  unfold State.recoverEngine
  refine canon_foldl ?_ h
  intro t x ht
  split
  · exact canon_ite ht (canon_recoverSlot ht)
  · exact ht

theorem canon_installRoot {home : Nat} (h : s.Canon) : (s.installRoot part home).Canon := by
  unfold State.installRoot
  exact canon_firstFrame (canon_setGate (canon_setBytes h))

theorem canon_install {b : Install} {e : Engine} {a : Automaton} (h : s.Canon) : (s.install b e a).Canon := by
  unfold State.install
  exact canon_firstFrame h

theorem canon_autldOne (h : s.Canon) : YieldsWfFst (autldOne w part secure pasid bs s) := by
  unfold autldOne
  split
  · exact satisfies_ok h
  · refine satisfies_ite (satisfies_ok h) ?_
    dsimp only
    split
    · exact satisfies_ite satisfies_error (satisfies_ite (satisfies_ok h)
        (satisfies_ite (satisfies_ok h) (satisfies_ok h)))
    · refine satisfies_ite (satisfies_ok h) ?_
      refine satisfies_ite (satisfies_ok h) ?_
      split
      · exact satisfies_ite satisfies_error (satisfies_ok h)
      · refine satisfies_ite (satisfies_ok h) ?_
        split
        · exact satisfies_ok h
        · refine satisfies_ite (satisfies_ite (satisfies_ok (canon_mk (canon_install h))) (satisfies_ok h)) ?_
          split
          · exact satisfies_ok h
          · exact satisfies_ok (canon_mk (canon_install h))

theorem keepsMem_autldAct : KeepsMem (autldAct d a) := by
  unfold autldAct
  exact keepsMem_committing (fun _ _ _ hs => satisfies_bind fun _ => satisfies_bind fun _ => satisfies_bind fun _ =>
    satisfies_ok hs) (fun _ _ _ hs => yields_bind_fst (canon_laneStatusOr (fun _ _ ht => canon_autldOne ht) hs)
      (fun _ ht => satisfies_ok ht))

theorem canon_resumeAutomaton {q : Nat} {a : Automaton} (h : s.Canon) : (s.resumeAutomaton part q k a).Canon := by
  unfold State.resumeAutomaton
  refine canon_ite (canon_stopAutomaton h) ?_
  split
  · exact h
  · split
    · exact canon_ite h (canon_stopAutomaton h)
    · exact h

theorem canon_reviveAutomaton {q : Nat} {a : Automaton} (h : s.Canon) : (s.reviveAutomaton part q k a).Canon := by
  unfold State.reviveAutomaton
  refine canon_ite ?_ (canon_resumeAutomaton h)
  split
  · exact canon_resumeAutomaton (canon_firstFrame h)
  · exact h

theorem canon_freeSlot {q : Nat} {a : Automaton} (h : s.Canon) : (s.freeSlot part q k a).Canon := by
  unfold State.freeSlot
  exact canon_rebaseAll h

theorem canon_autOpen (h : s.Canon) : (autOpen part pasid bs s).1.Canon := by
  unfold autOpen
  split
  · exact canon_ite_fst h h
  · exact h

theorem canon_unmapStream (h : s.Canon) : (s.unmapStream sid).Canon := h

theorem canon_closeStream (h : s.Canon) : (s.closeStream part sid).Canon := by
  unfold State.closeStream
  exact canon_unmapStream (canon_foldl (fun _ _ ht => canon_ite (canon_stopAutomaton ht) ht) h)

theorem canon_autClose (h : s.Canon) : (autClose part sid s).1.Canon := by
  unfold autClose
  refine canon_ite_fst h ?_
  split
  · exact h
  · exact canon_mk (canon_closeStream h)

theorem canon_autCkpt {v at_ : Nat} (h : s.Canon) : YieldsWfFst (autCkpt w part secure pasid v at_ s) := by
  unfold autCkpt
  split
  · exact satisfies_ok h
  · refine satisfies_ite (satisfies_ok h) ?_
    split
    · exact satisfies_ite satisfies_error (satisfies_ok h)
    next t e =>
      have ht := canon_of_ok e (canon_ctxWrite h)
      exact satisfies_ok (canon_mk (canon_writeFrame ht))

theorem canon_autResume {v : Nat} (h : s.Canon) : (autResume part pasid v s).1.Canon := by
  unfold autResume
  split
  · exact h
  · exact canon_mk (canon_ite (canon_reviveAutomaton h) h)

theorem canon_autCount {v : Nat} (h : s.Canon) : (autCount part pasid v s).1.Canon := by
  unfold autCount
  split <;> exact h

theorem canon_autStop {remove : Bool} {v : Nat} (h : s.Canon) : (autStop remove part pasid v s).1.Canon := by
  unfold autStop
  split
  · exact h
  · exact canon_ite_fst (canon_mk (canon_ite h (canon_stopAutomaton h)))
      (canon_ite_fst (canon_mk (canon_freeSlot (canon_ite h (canon_stopAutomaton h))))
        (canon_mk (canon_ite h (canon_stopAutomaton h))))

theorem canon_autTry {o : AutOp} (h : s.Canon) : YieldsWfFst (autTry w o s) := by
  unfold autTry
  split
  · exact satisfies_ok (canon_autStop h)
  · exact satisfies_ok (canon_autStop h)
  · exact satisfies_ok (canon_mk (canon_autResume h))
  · exact satisfies_ok (canon_mk (canon_autCount h))
  · exact yields_bind_fst (canon_autCkpt h) (fun _ ht => satisfies_ok ht)

theorem canon_retryOps {q : Nat} {busy : List Nat} {os : List AutOp} (h : s.Canon) :
    (retryOps q s busy os).1.Canon := by
  induction os generalizing s busy with
  | nil => exact h
  | cons o os ih =>
    unfold retryOps
    refine canon_ite_fst (ih h) ?_
    split
    next t v e => exact ih (canon_pay (canon_of_ok_fst e (canon_autTry h)))
    next t e => exact ih (canon_of_ok_fst e (canon_autTry h))
    · exact ih (canon_askFor h)

theorem canon_engineTurn {q : Nat} (h : s.Canon) : (s.engineTurn q).Canon := by
  unfold State.engineTurn
  exact canon_ite (canon_retryOps (canon_engineDrain h)) (canon_setEngine (canon_retryOps (canon_engineDrain h)))

theorem canon_autIssue {o : AutOp} (h : s.Canon) : YieldsWfFst (autIssue w o s) := by
  unfold autIssue
  refine satisfies_ite (satisfies_ok h) (yields_bind_fst (canon_autTry h) fun r hr => satisfies_ok ?_)
  split
  · exact hr
  · exact hr

theorem keepsMem_autCheck {ops : List (Opnd × Nat × Nat)} : KeepsMem (autCheck ops) := by
  unfold autCheck
  exact fun _ _ _ hs => satisfies_bind fun _ => satisfies_bind fun _ => satisfies_bind fun _ => satisfies_ok hs

theorem canon_issueLanes {one : State → Nat → Except XErr (State × Option Nat)} {lanes : List Nat}
    (hone : ∀ ⦃t i⦄, t.Canon → YieldsWfFst (one t i)) (h : s.Canon) : YieldsWfFst (issueLanes one lanes s) := by
  unfold issueLanes
  refine satisfies_foldlM ?_ h
  intro t x ht2
  split
  next t3 _ e =>
    have ht3 := canon_of_ok_fst e (hone ht2)
    exact satisfies_ok ht3
  next t3 e =>
    have ht3 := canon_of_ok_fst e (hone ht2)
    exact satisfies_ok ht3
  · exact satisfies_error

theorem keepsMem_autAct {ops : List (Opnd × Nat × Nat)} {act : Group → Nat → AutAct} :
    KeepsMem (autAct d a ops n act) := by
  unfold autAct
  exact keepsMem_committing keepsMem_autCheck (fun _ _ _ hs => yields_bind_fst (canon_issueLanes
    (fun _ _ ht => canon_autIssue ht) hs) (fun _ ht => satisfies_ok ht))

/-! System registers, counting and drawing (Machine/System.lean). -/

theorem keepsMem_sysrdAct : KeepsMem (sysrdAct d a) := by
  unfold sysrdAct
  exact fun _ _ _ hs => satisfies_bind fun _ => satisfies_bind fun _ => satisfies_ok hs

theorem keepsMem_ccntAct : KeepsMem (ccntAct ty d) := by
  unfold ccntAct
  exact fun _ _ _ hs => satisfies_ok hs

theorem keepsMem_randAct : KeepsMem (randAct ty d) := by
  unfold randAct
  exact fun _ _ _ hs => satisfies_bind fun _ => satisfies_ok hs

theorem keepsMem_tokwaitAct : KeepsMem tokwaitAct := by
  unfold tokwaitAct
  exact fun _ _ _ hs => satisfies_bind fun _ => satisfies_ok (canon_ite hs hs)

theorem keepsMem_tokpassAct : KeepsMem tokpassAct := by
  unfold tokpassAct
  exact keepsMem_committing (fun _ _ _ hs => satisfies_bind fun _ => satisfies_ok hs)
    (fun _ _ _ hs => satisfies_ok hs)

theorem keepsMem_psntAct : KeepsMem (psntAct ty pd a) := by
  unfold psntAct
  exact fun _ _ _ hs => satisfies_ok hs

theorem keepsMem_psntClrAct : KeepsMem (psntClrAct ty d a) := by
  unfold psntClrAct
  exact fun _ _ _ hs => satisfies_ok hs

/-! Stream registers (Machine/Walks.lean). -/

theorem keepsMem_sbindAct : KeepsMem (sbindAct d a) := by
  intro iss g s hs
  unfold sbindAct
  refine satisfies_bind fun _ => ?_
  dsimp only
  split <;> exact satisfies_bind fun _ => satisfies_bind fun _ => satisfies_bind fun _ => satisfies_bind fun _ =>
    satisfies_ok hs

theorem keepsMem_sfreeAct : KeepsMem (sfreeAct d) := by
  unfold sfreeAct
  exact fun _ _ _ hs => satisfies_ok hs

/-! Pre-emption (Machine/Preempt.lean). -/

theorem canon_haltGroup (h : s.Canon) : (s.haltGroup key).Canon := by
  unfold State.haltGroup
  split
  · exact h
  · refine canon_ite h ?_
    dsimp only
    split
    · exact canon_modGroup (canon_returnAll h)
    · exact canon_modGroup (canon_returnAll h)
    · exact canon_ite (canon_modGroup (canon_drain (canon_returnAll h)))
        (canon_ite (canon_modGroup (canon_modGroup (canon_drain (canon_returnAll h))))
          (canon_modGroup (canon_modGroup (canon_drawBool (canon_drain (canon_returnAll h))))))

theorem canon_haltContext (h : s.Canon) : (s.haltContext ck pasid).Canon := by
  unfold State.haltContext
  exact canon_foldl (fun _ _ ht => canon_ite (canon_haltGroup ht) ht) h

theorem canon_schedule (h : s.Canon) : (s.schedule ck pasid).Canon := by
  unfold State.schedule
  exact canon_ite h h

theorem canon_saveWords {a : Nat} {ws : List Reg} (h : s.Canon) : YieldsWf (s.saveWords part secure pasid a ws) := by
  unfold State.saveWords
  refine satisfies_foldlM ?_ h
  intro t x ht
  refine satisfies_ite (satisfies_ok ht) ?_
  split
  · exact satisfies_error
  · exact satisfies_ok (canon_foldl (fun _ _ ht2 => canon_ite (canon_setPoison ht2) ht2)
      (canon_charge (canon_writeNow ht)))

theorem canon_writeUnit {u : Unit_} (h : s.Canon) : YieldsWf (s.writeUnit ck pasid u) := by
  unfold State.writeUnit
  dsimp only
  split
  all_goals
    refine satisfies_bind fun _ => ?_
    refine yields_bind ?_ ?_
    · refine satisfies_foldlM ?_ h
      intro t x ht
      split
      · exact satisfies_ok ht
      · exact canon_saveWords ht
    · intro t ht
      split
      · exact satisfies_ok ht
      · exact canon_saveWords ht

theorem canon_spreadStacks (h : s.Canon) : (s.spreadStacks key g).Canon := by
  unfold State.spreadStacks
  exact canon_foldl (fun _ _ ht => canon_foldl (fun _ _ ht2 => canon_setBytes ht2) ht) h

theorem canon_evictUnit {u : Unit_} (h : s.Canon) : (s.evictUnit ck u).Canon := by
  unfold State.evictUnit
  split
  · exact h
  · refine canon_ite (canon_foldl (fun _ _ ht => canon_returnAll ht) h) ?_
    split
    · exact canon_ite (canon_askFor (canon_foldl (fun _ _ ht => canon_returnAll ht) h))
        (canon_taskFault (canon_foldl (fun _ _ ht => canon_returnAll ht) h))
    next t e =>
      have ht := canon_of_ok e (canon_writeUnit (canon_foldl (fun _ _ ht => canon_returnAll ht) h))
      exact ht

theorem canon_readTeam {save : Nat} {t : Team} (h : s.Canon) :
    YieldsWf (s.readTeam part secure pasid save serial t) := by
  unfold State.readTeam
  exact satisfies_bind fun _ => satisfies_ok (canon_mapGroups (canon_modTeam (canon_charge (canon_setBytes h))))

theorem canon_readUnit {u : Unit_} {keep : Bool} (h : s.Canon) : YieldsWf (s.readUnit ck pasid u keep) := by
  unfold State.readUnit
  dsimp only
  split
  all_goals
    refine satisfies_bind fun _ => ?_
    refine yields_bind ?_ ?_
    · refine satisfies_foldlM ?_ h
      intro t x ht
      split
      · exact satisfies_error
      · split
        · exact satisfies_ok ht
        · exact satisfies_ok (canon_charge (canon_setGroup (canon_spreadStacks ht)))
    · intro t ht
      split
      · exact satisfies_ok ht
      · exact canon_readTeam ht

theorem canon_restoreUnits (h : s.Canon) : (s.restoreUnits ck).Canon := by
  unfold State.restoreUnits
  refine canon_foldl ?_ h
  intro t x ht
  split
  · exact ht
  · refine canon_ite ?_ ht
    dsimp only
    split
    next t2 e =>
      have ht2 := canon_of_ok e (canon_readUnit (canon_drawBool ht))
      exact canon_dropReturned ht2
    · exact canon_ite (canon_askFor (canon_drawBool ht)) (canon_taskFault (canon_drawBool ht))

theorem canon_sliceExpiry (h : s.Canon) : (sliceExpiry ck pasid s).Canon := by
  unfold sliceExpiry
  refine canon_ite h ?_
  refine canon_ite h ?_
  split
  · exact h
  · dsimp only
    split
    · dsimp only [State.Canon]
      exact canon_haltContext h
    · refine canon_schedule ?_
      dsimp only [State.Canon]
      exact canon_haltContext h

theorem canon_teamEviction (h : s.Canon) : (teamEviction ck s).Canon := by
  unfold teamEviction
  split
  · exact h
  · exact canon_evictUnit h

theorem canon_reschedule (h : s.Canon) : (s.reschedule ck).Canon := by
  unfold State.reschedule
  refine canon_ite h ?_
  split
  · exact h
  · exact canon_ite h (canon_schedule h)

theorem canon_contextStop (h : s.Canon) : (s.contextStop part pasid).Canon := by
  unfold State.contextStop
  refine canon_foldl (fun _ _ ht => canon_ite ht (canon_stopAutomaton ht)) ?_
  split
  · exact h
  · exact canon_ite h (canon_foldl (fun _ _ ht => canon_haltContext ht) h)

theorem canon_scheduleAll (h : s.Canon) : (s.scheduleAll part pasid).Canon := by
  unfold State.scheduleAll
  split
  · exact h
  · exact canon_foldl (fun _ _ ht => canon_schedule ht) h

theorem canon_contextResume (h : s.Canon) : (s.contextResume part pasid).Canon := by
  unfold State.contextResume
  exact canon_foldl (fun _ _ ht => canon_ite (canon_reviveAutomaton ht) ht) (canon_ite h (canon_scheduleAll h))

/-! SYSWR and its operations (Machine/Syswr.lean). -/

theorem canon_forContext {p : Part} {ok : Bool} {act : Nat → State → State × Nat}
    (hact : ∀ ⦃i t⦄, t.Canon → (act i t).1.Canon) (h : s.Canon) : (forContext p bs ok act s).1.Canon := by
  unfold forContext
  exact canon_ite_fst h (canon_ite_fst h (hact h))

theorem canon_contextSet {p : Part} (h : s.Canon) : (contextSet part p bs s).1.Canon := by
  unfold contextSet
  exact canon_forContext (fun _ _ ht => ht) h

theorem canon_invalidateOp {p : Part} (h : s.Canon) : (invalidateOp part key p bs s).1.Canon := by
  unfold invalidateOp
  exact canon_forContext (fun _ _ ht => canon_mk (canon_invalidate (canon_flushWrites (canon_drain ht)))) h

theorem canon_copySector {src dst : Place} (h : s.Canon) : (s.copySector w pasid src dst).Canon := by
  unfold State.copySector
  exact canon_ite (canon_writeNow h) (canon_ite (canon_setPoison (canon_writeNow h)) (canon_writeNow h))

theorem canon_copyFrame {p : Part} {src dst : Nat} (h : s.Canon) :
    YieldsWf (s.copyFrame w part p secure pasid src dst n) := by
  unfold State.copyFrame
  exact satisfies_foldlM (fun _ _ ht => satisfies_bind fun _ => satisfies_bind fun _ => satisfies_ok
    (canon_charge (canon_copySector ht))) h

theorem canon_putLeaf {p : Part} {m : Migration} {lo hi : Nat} (h : s.Canon) : YieldsWf (s.putLeaf p m lo hi) := by
  unfold State.putLeaf
  exact satisfies_bind fun _ => satisfies_ok (canon_writeNow h)

theorem canon_releaseMigrated {first count : Nat} (h : s.Canon) :
    (s.releaseMigrated part pasid first count).Canon := by
  unfold State.releaseMigrated
  exact canon_foldl (fun _ _ ht => canon_releaseGroup ht) (canon_foldl (fun _ _ ht => canon_resumeOp ht) h)

theorem canon_migrationEnd {m : Migration} (h : s.Canon) :
    (migrationEnd part m s).Canon := by
  have hs := canon_flushWrites h
  unfold migrationEnd
  split
  · exact h
  · dsimp only
    split
    · exact canon_foldl (fun _ _ ht => canon_askHost ht) hs
    · split
      next t e =>
        have ht := canon_of_ok e (yields_bind (satisfies_foldlM (fun _ _ ht => canon_copyFrame ht) hs) fun _ ht =>
          canon_putLeaf ht)
        exact canon_pay (canon_releaseMigrated (canon_dropReturned (canon_modPart ht)))
      · refine canon_ite (canon_askFor hs) (canon_pay (canon_releaseMigrated (canon_dropReturned (canon_modPart ?_))))
        split
        next t e => exact canon_of_ok e (canon_putLeaf hs)
        · exact hs

theorem canon_migrate {p : Part} {va data side : Nat} (h : s.Canon) :
    YieldsWfFst (migrate part key p secure pasid va data side s) := by
  unfold migrate
  dsimp only
  split
  · exact satisfies_ite satisfies_error (satisfies_ok h)
  · refine satisfies_ite (satisfies_ok h) ?_
    refine satisfies_ite (satisfies_ok h) ?_
    split
    · exact satisfies_ite satisfies_error (satisfies_ok h)
    · split
      · exact satisfies_ite satisfies_error (satisfies_ok h)
      next t e =>
        have ht := canon_of_ok e (canon_putLeaf (canon_drain h))
        refine satisfies_ok ?_
        refine canon_modPart ?_
        dsimp only [State.Canon]
        exact canon_invalidate ht

theorem canon_migrateOp {p : Part} (h : s.Canon) : YieldsWfFst (migrateOp part key p bs s) := by
  unfold migrateOp
  exact satisfies_ite (satisfies_ok h) (satisfies_ite (satisfies_ok h) (canon_migrate h))

theorem canon_contextStopOp {p : Part} (h : s.Canon) : (contextStopOp part p bs s).1.Canon := by
  unfold contextStopOp
  exact canon_forContext (fun _ _ ht => canon_mk (canon_contextStop ht)) h

theorem canon_contextResumeOp {p : Part} (h : s.Canon) : (contextResumeOp part p bs s).1.Canon := by
  unfold contextResumeOp
  exact canon_forContext (fun _ _ ht => canon_mk (canon_contextResume ht)) h

theorem canon_groupOp (h : s.Canon) : (groupOp part bs s).1.Canon := by
  unfold groupOp
  refine canon_ite_fst h ?_
  refine canon_ite_fst h ?_
  split
  · exact h
  · split
    · exact canon_mk (canon_ite h (canon_taskFault h))
    · exact h

theorem canon_dropTask {t : Task} (h : s.Canon) : (s.dropTask part t).Canon := by
  unfold State.dropTask
  refine canon_ringExit ?_
  refine canon_jobEnd ?_
  refine canon_gridEnd ?_
  split
  · exact canon_teamRelease h
  · exact h

theorem canon_takeTasks {test : Task → Bool} (h : s.Canon) : (s.takeTasks part test).1.Canon := by
  unfold State.takeTasks
  exact canon_mk (canon_foldl (fun _ _ ht => canon_modCore ht) h)

theorem canon_queueCreate {p : Part} (h : s.Canon) : (queueCreate part p bs s).1.Canon := by
  unfold queueCreate
  refine canon_ite_fst h ?_
  refine canon_ite_fst h ?_
  refine canon_ite_fst h ?_
  split <;> exact h

theorem canon_queueEnd {q : Queue} (h : s.Canon) : (s.queueEnd part k q).Canon := by
  unfold State.queueEnd
  exact canon_foldl (fun _ _ ht => canon_dropTask ht) (canon_takeTasks h)

theorem canon_queueDestroy {p : Part} (h : s.Canon) : (queueDestroy part p bs s).1.Canon := by
  unfold queueDestroy
  refine canon_ite_fst h ?_
  split
  · exact h
  · exact canon_mk (canon_queueEnd h)

theorem canon_queueSwap {p : Part} (h : s.Canon) :
    (queueSwap part p bs s).1.Canon := by
  unfold queueSwap
  refine canon_ite_fst h ?_
  split
  · exact h
  · refine canon_ite_fst h ?_
    dsimp only
    split
    · exact h
    next t e =>
      exact canon_modPart (canon_of_some e (maybe_foldlM (fun _ _ ht => maybe_ite (maybe_some
        (canon_enqueue ht)) maybe_none) h))

theorem canon_sysOne {sel b : Nat} (h : s.Canon) : YieldsWfFst (sysOne key sel b bs s) := by
  unfold sysOne
  dsimp only
  split
  · exact satisfies_ok h
  · split
    · exact satisfies_ok h
    · exact satisfies_ok (canon_mk (canon_contextSet h))
    · exact satisfies_ok (canon_mk (canon_invalidateOp h))
    · exact canon_migrateOp h
    · exact satisfies_ok (canon_mk (canon_contextStopOp h))
    · exact satisfies_ok (canon_mk (canon_contextResumeOp h))
    · exact satisfies_ok (canon_mk (canon_groupOp h))
    · exact satisfies_ok (canon_mk (canon_queueCreate h))
    · exact satisfies_ok (canon_mk (canon_queueDestroy h))
    · exact satisfies_ok (canon_mk (canon_queueSwap h))
    · exact satisfies_ok h

theorem keepsMem_syswrAct {a : Option Opnd} {sel : Group → Nat → Nat} : KeepsMem (syswrAct a sel d b) := by
  unfold syswrAct
  exact keepsMem_committing (fun _ _ _ hs => satisfies_bind fun _ => satisfies_bind fun _ => satisfies_bind fun _ =>
    satisfies_ok hs) (fun _ _ _ hs => yields_bind_fst (canon_issueLanes (fun _ _ ht => canon_sysOne ht) hs)
      (fun _ ht => satisfies_ite (satisfies_ok ht) (satisfies_ok ht)))

/-! Dispatch, balancing and launches (Machine/Dispatching.lean). -/

theorem canon_ringKey (h : s.Canon) : (s.ringKey part uid key).Canon := h

theorem canon_dispatchTask {t : Task} (h : s.Canon) : (s.dispatchTask ck t).Canon := by
  unfold State.dispatchTask
  dsimp only
  split
  · exact h
  · split
    · exact canon_foldl (fun _ _ ht => canon_ringKey (canon_setGroup ht)) h
    · exact h
    · exact h

theorem canon_dispatchOne (h : s.Canon) : (s.dispatchOne ck).Canon := by
  unfold State.dispatchOne
  split
  · exact h
  · exact canon_dispatchTask h

theorem canon_reserveRequest (h : s.Canon) : (s.reserveRequest ck).Canon := by
  unfold State.reserveRequest
  split
  · exact h
  · dsimp only
    split <;> exact h

theorem canon_startCluster {r : Reservation} {cores : List Nat} (h : s.Canon) :
    (s.startCluster part r cores).Canon := by
  unfold State.startCluster
  refine canon_modPart ?_
  refine canon_foldl ?_ (canon_foldl (fun _ _ ht => canon_modCore ht) h)
  intro t x ht
  split
  · exact ht
  · exact canon_dispatchTask ht

theorem canon_reserveGrant (h : s.Canon) : (s.reserveGrant ck).Canon := by
  unfold State.reserveGrant
  dsimp only
  split
  · split
    · exact h
    · split
      · exact canon_startCluster h
      · exact h
  · exact h

theorem canon_moveTasks {src dst : Nat} (h : s.Canon) : (s.moveTasks src dst n).Canon := by
  induction n generalizing s with
  | zero => exact h
  | succ n ih =>
    unfold State.moveTasks
    split
    · exact h
    · exact canon_ite (ih (canon_enqueue (canon_modCore h))) h

theorem canon_balanceCore {p : Part} {depths : List Nat} {v : Nat} (h : s.Canon) :
    (s.balanceCore part p depths v).Canon := by
  unfold State.balanceCore
  dsimp only
  split
  · exact h
  · exact canon_moveTasks h

theorem canon_balance (h : s.Canon) : (balance part s).Canon := by
  unfold balance
  split
  · exact h
  · exact canon_ite h (canon_foldl (fun _ _ ht => canon_balanceCore ht) h)

theorem canon_refuseLaunch {l : Launch} {team : Nat} (h : s.Canon) : (s.refuseLaunch part l reason team).Canon := by
  unfold State.refuseLaunch
  dsimp only
  split
  · exact canon_modDet (canon_postDue h)
  · exact canon_jobRefused (canon_postDue h)

theorem canon_placeTeams {g : Grid} {is : List Nat} (h : s.Canon) :
    (s.placeTeams part k g is).Canon := by
  induction is generalizing s with
  | nil => exact canon_modPart h
  | cons i is ih =>
    unfold State.placeTeams
    exact canon_ite (ih (canon_enqueue h)) (canon_modPart h)

theorem canon_acceptLaunch {l : Launch} {t : Template} {vs : List Nat} (h : s.Canon) :
    (s.acceptLaunch part k l t n vs).Canon := by
  unfold State.acceptLaunch
  exact canon_placeTeams h

theorem canon_launchOne {l : Launch} (h : s.Canon) : MaybeWf (s.launchOne part l) := by
  unfold State.launchOne
  split
  · exact maybe_none
  · refine maybe_ite maybe_none ?_
    split
    · exact maybe_some (canon_refuseLaunch h)
    · split
      · exact maybe_none
      · exact maybe_some (canon_acceptLaunch h)

theorem canon_launchStep (h : s.Canon) : (launchStep part s).Canon := by
  unfold launchStep
  split
  · exact h
  · split
    · split
      · exact h
      · exact canon_placeTeams h
    · split
      · exact h
      · split
        · exact canon_askFor h
        · split
          · exact h
          next t e =>
            have ht := canon_of_some e (canon_launchOne h)
            exact ht

/-! The matrix engine (Machine/Matrix.lean). -/

theorem canon_tileDone {job : Nat} {es : List (Nat × Nat × Nat × Nat)} (h : s.Canon) :
    (s.tileDone ck pasid job ty es).Canon := by
  unfold State.tileDone
  exact canon_ite h h

theorem canon_sampleCheck (h : s.Canon) : (sampleCheck ck s).Canon := by
  unfold sampleCheck
  split
  · exact h
  · exact canon_wakeEngine (canon_sysPost h)

theorem keepsMem_mmaAct {z ru : Bool} : KeepsMem (mmaAct ty z ru d a b) := by
  intro iss g s hs
  unfold mmaAct
  refine satisfies_bind fun _ => ?_
  refine satisfies_bind fun _ => ?_
  refine satisfies_bind fun _ => ?_
  refine satisfies_bind fun _ => ?_
  refine satisfies_bind fun _ => ?_
  dsimp only
  split
  · exact satisfies_error
  · exact satisfies_bind fun _ => satisfies_ok (canon_ite hs (canon_tileDone hs))

theorem canon_mmabIssue {m : MmabOp} (h : s.Canon) : MaybeWf (s.mmabIssue m) := by
  unfold State.mmabIssue
  exact maybe_ite (maybe_some h) maybe_none

theorem keepsMem_mmabAct : KeepsMem (mmabAct a) := by
  unfold mmabAct
  refine keepsMem_committing (fun _ _ _ hs => satisfies_bind fun _ => satisfies_bind fun _ => satisfies_ok hs) ?_
  intro iss g s hs
  refine satisfies_ite (satisfies_ok (canon_modGroup ?_)) (satisfies_ok (canon_modGroup (canon_modGroup ?_)))
  all_goals
    refine canon_inTurn (fun t i ht => ?_) hs
    split
    · exact canon_mmabIssue ht
    · exact maybe_some ht

theorem canon_mmabGone {op : Nat} {m : MmabOp} (h : s.Canon) : (s.mmabGone op m).Canon := h

theorem canon_mmabEnd {op : Nat} {m : MmabOp} {b : MmabBlock} (h : s.Canon) : (s.mmabEnd op m b ty).Canon := by
  unfold State.mmabEnd
  exact canon_arrive h

theorem canon_mmabMisuse {op : Nat} {m : MmabOp} {b : MmabBlock} (h : s.Canon) : (s.mmabMisuse op m b).Canon := by
  unfold State.mmabMisuse
  exact canon_engineFault h

theorem canon_mmabStage (h : s.Canon) : (mmabStage ck s).Canon := by
  unfold mmabStage
  split
  · exact h
  · dsimp only
    split
    · exact h
    · refine canon_ite h ?_
      split
      · exact canon_ite (canon_mmabEnd h) h
      · exact canon_ite (canon_mmabMisuse h) (canon_ite h h)

theorem canon_mmabTile {m : MmabOp} {b : MmabBlock} (h : s.Canon) : (s.mmabTile m b ty k).Canon := by
  unfold State.mmabTile
  exact canon_tileDone h

theorem canon_mmabTiles {m : MmabOp} {b : MmabBlock} (h : s.Canon) :
    (s.mmabTiles m b ty n k).1.Canon := by
  induction n generalizing s k with
  | zero => exact h
  | succ n ih =>
    unfold State.mmabTiles
    exact canon_ite_fst h (ih (canon_mmabTile h))

theorem canon_mmabFinish {op : Nat} {m : MmabOp} {b : MmabBlock} (h : s.Canon) : (s.mmabFinish op m b ty).Canon := by
  unfold State.mmabFinish
  refine canon_lateExit ?_
  refine canon_arrive ?_
  refine canon_mmabGone ?_
  refine canon_charge ?_
  refine canon_foldl ?_ h
  intro t x ht
  split
  · exact canon_store ht

theorem canon_mmabDone (h : s.Canon) : (mmabDone ck s).Canon := by
  unfold mmabDone
  split
  · exact h
  · dsimp only
    split
    · exact h
    · refine canon_ite h ?_
      refine canon_ite ?_ (canon_mmabFinish (canon_mmabTiles h))
      dsimp only [State.Canon]
      exact canon_mmabTiles h

theorem canon_mmabDoneAt {op : Nat} {m : MmabOp} (h : s.Canon) : (mmabDoneAt op m s).Canon := by
  unfold mmabDoneAt
  dsimp only
  split
  · exact h
  · exact canon_mmabFinish (canon_foldl (fun _ _ ht => canon_sampleCheck (canon_mmabTile ht)) h)

/-! The boundary of an epoch (Machine/Epoch.lean). -/

theorem canon_dueReady {d : DueAct} (h : s.Canon) : (s.dueReady d).1.Canon := by
  unfold State.dueReady
  split
  · refine canon_ite_fst h ?_
    dsimp only
    split
    next t e =>
      have ht := canon_engTry h e
      exact ht
    · exact canon_mk (canon_bulkStop h)
    · exact h
  · exact h
  · exact h

theorem canon_applyDue {d : DueAct} (h : s.Canon) : (s.applyDue d).Canon := by
  unfold State.applyDue
  split
  · exact canon_ite (canon_bqstComplete h) (canon_copyComplete h)
  · split
    · exact h
    · exact canon_collFinish h
  · refine canon_ite h (canon_ite (canon_mmabDoneAt h) ?_)
    split
    · exact h
    · exact canon_setMmabs (canon_mmabEnd h)

theorem canon_armMmab {round op : Nat} {m : MmabOp} (h : s.Canon) : (s.armMmab round op m).Canon := by
  unfold State.armMmab
  dsimp only
  split
  · exact h
  · exact canon_ite h (canon_ite h (canon_ite (canon_mmabMisuse h) (canon_ite h h)))

theorem canon_armAll {round : Nat} (h : s.Canon) : (s.armAll part round).Canon := by
  unfold State.armAll
  exact canon_foldl (fun _ _ ht => canon_ite (canon_armMmab ht) ht) h

theorem canon_farWaits (h : s.Canon) : (s.farWaits key).Canon := by
  unfold State.farWaits
  dsimp only
  split
  · exact canon_swaitPoll (canon_swaitFault h)
  · refine canon_foldl ?_ (canon_swaitPoll (canon_swaitFault h))
    intro t x ht
    split
    · exact canon_swaitExpire ht
    · exact ht

theorem canon_boundarySetts {d : Det} (h : s.Canon) : (s.boundarySetts part d).Canon := by
  unfold State.boundarySetts
  refine canon_mapGroups ?_
  refine canon_foldl ?_ h
  intro t x ht
  dsimp only
  split
  · exact canon_ite (canon_farWaits (canon_foldl (fun _ _ ht2 => canon_deferredInstr ht2) ht))
      (canon_foldl (fun _ _ ht2 => canon_deferredInstr ht2) ht)
  · exact canon_foldl (fun _ _ ht2 => canon_deferredInstr ht2) ht

theorem canon_passToken (h : s.Canon) : (s.passToken part).Canon := by
  unfold State.passToken
  split
  · exact h
  · split
    · dsimp only
      split <;> exact h
    · exact h

theorem canon_assignToken (h : s.Canon) : (s.assignToken part).Canon := by
  unfold State.assignToken
  split
  · exact h
  · split <;> exact h

theorem canon_boundaryCbar (h : s.Canon) : (s.boundaryCbar part).Canon := by
  unfold State.boundaryCbar
  exact canon_mapGroups (canon_foldl (fun _ _ ht => canon_cbarCheck ht) h)

theorem canon_jobChange {job code : Nat} (h : s.Canon) : (s.jobChange part job code).Canon := by
  unfold State.jobChange
  split
  · exact h
  · exact canon_jobRefused h
  · exact canon_jobCheck h

theorem canon_postNow {p : DeferredPost} (h : s.Canon) : (s.postNow part p).Canon := by
  unfold State.postNow
  exact canon_ite (canon_postRecord h) (canon_sysPost h)

theorem canon_boundaryJobs {d : Det} (h : s.Canon) : (s.boundaryJobs part d).Canon := by
  unfold State.boundaryJobs
  exact canon_foldl (fun _ _ ht => canon_foldl (fun _ _ ht2 => canon_postNow ht2)
    (canon_foldl (fun _ _ ht2 => canon_jobChange ht2) ht)) h

/-! Dispatch, balancing and launches (Machine/Dispatching.lean, continued). -/

theorem canon_admitAll {xs : List (Nat × Nat × Nat × Nat × Launch)} (h : s.Canon) :
    (s.admitAll part xs).Canon := by
  induction xs generalizing s with
  | nil => exact h
  | cons x xs ih =>
    unfold State.admitAll
    refine canon_ite h ?_
    split
    · exact h
    next t e => exact ih (canon_of_some e (canon_launchOne (canon_modDet h)))

/-! The boundary of an epoch (Machine/Epoch.lean, continued). -/

theorem canon_boundaryAdmits {d : Det} (h : s.Canon) : (s.boundaryAdmits part d).Canon := by
  unfold State.boundaryAdmits
  refine canon_admitAll ?_
  split
  · exact h
  · exact canon_launchStep h

theorem canon_dispatchStep {p : Part} (h : s.Canon) : MaybeWf (s.dispatchStep part p) := by
  unfold State.dispatchStep
  dsimp only
  split
  · exact maybe_some (canon_dispatchOne h)
  · split
    · exact maybe_some (canon_reserveGrant h)
    · split
      · exact maybe_some (canon_reserveRequest h)
      · split
        · exact maybe_some (canon_teamEviction h)
        · exact maybe_none

theorem canon_dispatchAll {p : Part} (h : s.Canon) :
    (s.dispatchAll part p n).Canon := by
  induction n generalizing s with
  | zero => exact h
  | succ n ih =>
    unfold State.dispatchAll
    split
    · exact h
    next t e => exact ih (canon_of_some e (canon_dispatchStep h))

theorem canon_wakeEnqueue (h : s.Canon) : (s.wakeEnqueue part).Canon := h

theorem canon_boundary {d : Det} {acts : List DueAct} (h : s.Canon) : (s.boundary part d acts).Canon := by
  unfold State.boundary
  dsimp only
  split
  · exact canon_boundaryAdmits (canon_boundaryJobs (canon_boundaryCbar (canon_passToken
      (canon_armAll (canon_boundarySetts (canon_foldl (fun _ _ ht => canon_applyDue ht) h))))))
  · exact canon_modDet (canon_wakeEnqueue (canon_assignToken (canon_dispatchAll (canon_foldl
      (fun _ _ ht => canon_restoreUnits ht) (canon_boundaryAdmits (canon_boundaryJobs (canon_boundaryCbar
        (canon_passToken (canon_armAll (canon_boundarySetts (canon_foldl (fun _ _ ht =>
          canon_applyDue ht) h)))))))))))

theorem canon_epochBoundary (h : s.Canon) : (epochBoundary part s).Canon := by
  unfold epochBoundary
  split
  · exact h
  · exact canon_ite h (canon_ite (canon_boundary (canon_foldl_fst (fun _ _ ht => canon_mk (canon_dueReady ht)) h))
      (canon_foldl_fst (fun _ _ ht => canon_mk (canon_dueReady ht)) h))

/-! Paths, and what surrounds an instruction (Machine/Issue.lean). -/

theorem canon_markWl (h : s.Canon) : (s.markWl key).Canon := by
  unfold State.markWl
  split
  · exact h
  · exact canon_ite h h

theorem canon_choosePaths (h : s.Canon) : (s.choosePaths key).1.Canon := by
  unfold State.choosePaths
  dsimp only
  split
  · exact canon_mk (canon_markWl h)
  · refine canon_ite_fst (canon_mk (canon_markWl h)) ?_
    split
    · exact canon_mk (canon_markWl h)
    · split
      · exact canon_mk (canon_setGroup (canon_markWl h))
      · refine canon_ite_fst (canon_mk (canon_setGroup (canon_markWl h))) ?_
        dsimp only [State.Canon]
        exact canon_setGroup (canon_markWl h)

theorem canon_dueWalks (h : s.Canon) : (s.dueWalks key).Canon := by
  unfold State.dueWalks
  exact canon_ite h h

theorem canon_afterIssue {hd : Header} {i : Instr} {bad : Nat} {t : State} (h : t.Canon) :
    (afterIssue hd i bad s t).Canon := by
  unfold afterIssue
  dsimp only
  split
  · exact h
  · split
    · exact h
    · refine canon_ite (canon_stopLanes (canon_dueWalks h)) (canon_stopLanes ?_)
      split
      · exact canon_ite h h
      · exact h

/-! PCIe links (Machine/Links.lean). -/

theorem canon_modLink {f : Link → Link} (h : s.Canon) : (s.modLink link f).Canon := h

theorem canon_remoteDone (h : s.Canon) : (s.remoteDone w).Canon := by
  unfold State.remoteDone
  split
  · exact h
  · exact h
  · exact h
  · exact h
  · exact h
  · exact canon_ite h h

theorem canon_invalsDone (h : s.Canon) : (s.invalsDone link).Canon := by
  unfold State.invalsDone
  split
  · exact h
  · exact canon_foldl (fun _ _ ht => canon_emit ht) h

theorem canon_linkEvent {state reads writes : Nat} (h : s.Canon) : (s.linkEvent link state reads writes).Canon := by
  unfold State.linkEvent
  exact canon_foldl (fun _ _ ht => canon_sysPost ht) h

theorem canon_linkDrop {state : Nat} {up : Bool} (h : s.Canon) : (s.linkDrop link state up).Canon := by
  unfold State.linkDrop
  split
  · exact h
  · refine canon_foldl ?_ (canon_linkEvent (canon_invalsDone (canon_foldl (fun _ _ ht => canon_remoteDone ht) h)))
    intro t x ht
    split
    · exact ht
    · exact canon_collKill ht

theorem canon_linkDown (h : s.Canon) : (linkDown link s).Canon := by
  unfold linkDown
  exact canon_linkDrop h

theorem canon_functionReset (h : s.Canon) : (functionReset link s).Canon := by
  unfold functionReset
  exact canon_linkDrop h

theorem canon_linkUp {retraining : Bool} (h : s.Canon) : (linkUp link retraining s).Canon := by
  unfold linkUp
  exact canon_ite (canon_linkEvent h) (canon_linkEvent h)

theorem canon_atsCompletion {tag addr : Nat} {read write : Bool} (h : s.Canon) :
    (atsCompletion link tag addr read write s).Canon := by
  unfold atsCompletion
  split
  · exact h
  · split
    · exact h
    · exact canon_remoteDone h

theorem canon_atsInvalidate {va pages : Nat} (h : s.Canon) : (atsInvalidate link pasid va pages s).Canon := by
  unfold atsInvalidate
  exact canon_invalsDone h

theorem canon_hostReadDone {tag : Nat} {data : List Byte} (h : s.Canon) : (hostReadDone link tag data s).Canon := by
  unfold hostReadDone
  split
  · exact h
  · split
    · exact h
    · exact canon_invalsDone (canon_remoteDone (canon_modLink (canon_setBytes h)))

theorem canon_dieLinkWindow (h : s.Canon) : (dieLinkWindow s).Canon := by
  unfold dieLinkWindow
  dsimp only [State.Canon]
  exact canon_foldl (fun _ _ ht => canon_ite ht (canon_sysPostAll ht)) h

/-! What the host does at the BARs (Machine/HostPorts.lean). -/

theorem canon_postFault {code guest : Nat} (h : s.Canon) : (s.postFault part pasid page code guest).Canon := by
  unfold State.postFault
  exact canon_postRecord h

theorem canon_park {pasid : Option Nat} {pkt : Packet} (h : s.Canon) : (s.park link port slot pasid pkt).Canon := h

theorem canon_hostPacket {pasid : Option Nat} {pkt : Packet} (h : s.Canon) :
    (hostPacket link port slot pasid pkt s).Canon := by
  unfold hostPacket
  refine canon_ite h ?_
  split
  · exact canon_refuse h
  · dsimp only
    split
    · exact canon_park (canon_askFor h)
    · exact canon_refuse (canon_postFault h)
    · exact canon_refuse h
    next t _ e =>
      have ht := canon_of_ok_fst e (canon_postActs h)
      exact ht

theorem canon_unpark (h : s.Canon) : (s.unpark link).Canon := by
  unfold State.unpark
  split
  · exact h
  · exact canon_ite h (canon_foldl (fun _ _ ht => canon_hostPacket ht) h)

theorem canon_slotRead {pasid : Option Nat} {off len : Nat} (h : s.Canon) :
    (slotRead link port slot pasid off len s).Canon := by
  unfold slotRead
  exact canon_ite h (canon_ite (canon_refuse h) (canon_ite (canon_refuse h) (canon_ite (canon_refuse h)
    (canon_ite h (canon_ite h h)))))

theorem canon_refusalClose (h : s.Canon) : (refusalClose link port s).Canon := by
  unfold refusalClose
  dsimp only
  split
  · exact h
  · exact canon_ite h (canon_ite h (canon_setPort (canon_sysPost h)))

theorem canon_remapTick (h : s.Canon) : (remapTick link k s).Canon := by
  unfold remapTick
  split
  · exact h
  · exact canon_ite (canon_sendMsix h) h

theorem canon_mbctlWrite {v : Nat} (h : s.Canon) : (mbctlWrite link v s).Canon := by
  unfold mbctlWrite
  split
  · exact h
  · exact canon_ite h h

theorem canon_msixUnmasked {vec : Nat} (h : s.Canon) : (s.msixUnmasked link vec).Canon := by
  unfold State.msixUnmasked
  split
  · exact h
  · exact canon_ite h h

theorem canon_msixWrite {off v : Nat} (h : s.Canon) : (msixWrite link off v s).Canon := by
  unfold msixWrite
  exact canon_msixUnmasked h

theorem canon_registerWrite {off : Nat} {v : Word} (h : s.Canon) : (registerWrite link off v s).Canon := by
  unfold registerWrite
  exact canon_ite h (canon_ite (canon_mbctlWrite h) (canon_ite h (canon_ite h
    (canon_ite h (canon_ite (canon_msixWrite h) h)))))

theorem canon_postPackets {a : BarAccess} (h : s.Canon) : (postPackets a s).Canon := by
  unfold postPackets
  exact canon_foldl (fun _ _ ht => canon_hostPacket ht) h

theorem canon_barAnswer {a : BarAccess} (h : s.Canon) : (barAnswer a s).Canon := by
  unfold barAnswer
  split
  · exact h
  · exact canon_ite h (canon_ite (canon_msixWrite (canon_msixWrite h)) h)

theorem canon_barUnsupported {a : BarAccess} (h : s.Canon) : (barUnsupported a s).Canon := by
  unfold barUnsupported
  exact canon_ite (canon_ite (canon_ite (canon_barAnswer h) h) (canon_ite (canon_barAnswer h) (canon_ite h h)))
    (canon_ite (canon_ite h (canon_ite (canon_postPackets h) (canon_foldl (fun _ _ ht => canon_refuse ht) h)))
      (canon_ite h h))

/-! Partitions (Machine/Partition.lean). -/

theorem canon_createPart {number : Nat} {p : Part} (h : s.Canon) : (s.createPart number p).Canon := by
  unfold State.createPart
  exact canon_installRoot h

theorem canon_clearQuarter {q : Nat} (h : s.Canon) : (s.clearQuarter q).Canon := by
  unfold State.clearQuarter
  dsimp only [State.Canon]
  exact canon_zeroRange (canon_foldl (fun _ _ ht => canon_dropReturned ht)
    (canon_foldl (fun _ _ ht => canon_pay ht) h))

theorem canon_disablePorts {test : Port → Bool} (h : s.Canon) : (s.disablePorts test).Canon := h

theorem canon_endWork (h : s.Canon) : (s.endWork part).Canon := by
  unfold State.endWork
  dsimp only [State.Canon]
  exact canon_foldl (fun _ _ ht => canon_zeroRange ht) h

theorem canon_destroyPart (h : s.Canon) : (s.destroyPart part).Canon := by
  unfold State.destroyPart
  split
  · exact h
  · dsimp only [State.Canon]
    exact canon_foldl (fun _ _ ht => canon_ite (canon_modDport ht) ht)
      (canon_disablePorts (canon_foldl (fun _ _ ht => canon_unmapStream ht)
        (canon_foldl (fun _ _ ht => canon_clearQuarter ht) (canon_endWork h))))

theorem canon_startManagement (h : s.Canon) : s.startManagement.Canon := by
  unfold State.startManagement
  exact canon_ite h h

theorem canon_rekey {v : Nat → Nat} (h : s.Canon) : (s.rekey part v).Canon := h

theorem canon_putRange {r : Range} (h : s.Canon) : (s.putRange part k r).Canon := by
  unfold State.putRange
  exact canon_restartWhere h

theorem canon_setQuarters {p : Part} {new : List Nat} (h : s.Canon) : (s.setQuarters part p new).Canon := by
  unfold State.setQuarters
  exact canon_modPart (canon_rekey (canon_foldl (fun _ _ ht => canon_putRange ht)
    (canon_foldl (fun _ _ ht => canon_clearQuarter ht) (canon_foldl (fun _ _ ht => canon_queueEnd ht) h))))

/-! The commands of firmware (Machine/Firmware.lean). -/

theorem canon_complete {status : Nat} {rs : List Nat} (h : s.Canon) : (s.complete link status rs).Canon := by
  unfold State.complete
  dsimp only
  split
  · exact h
  · exact canon_ite (canon_sendMsix h) h

theorem canon_runCommand {opcode : Nat} {scope : Option Nat} {cmd : Command} (hcmd : KeepsCmd cmd) (h : s.Canon) :
    (runCommand opcode scope cmd link s).Canon := by
  unfold runCommand
  split
  · exact h
  · refine canon_ite h ?_
    refine canon_ite (canon_complete h) ?_
    refine canon_ite (canon_complete h) ?_
    refine canon_ite h ?_
    refine canon_ite (canon_complete h) ?_
    refine canon_ite h ?_
    split
    · exact canon_complete h
    next t2 _ e =>
      have ht2 := canon_of_ok_fst e (hcmd h)
      exact canon_complete ht2

theorem keepsCmd_partCreate : KeepsCmd partCreate := by
  unfold partCreate
  exact fun _ _ _ hs => satisfies_bind fun _ => satisfies_bind fun _ => satisfies_ok (canon_mk (canon_createPart hs))

theorem keepsCmd_partDestroy : KeepsCmd partDestroy := by
  unfold partDestroy
  exact fun _ _ _ hs => satisfies_bind fun _ => satisfies_bind fun _ => satisfies_ok (canon_mk (canon_destroyPart hs))

theorem keepsCmd_partQuarters : KeepsCmd partQuarters := by
  unfold partQuarters
  exact fun _ _ _ hs => satisfies_bind fun _ => satisfies_bind fun _ => satisfies_bind fun _ => satisfies_ok
    (canon_mk (canon_setQuarters hs))

theorem keepsCmd_delowPorts : KeepsCmd delowPorts := by
  unfold delowPorts
  exact fun _ _ _ hs => satisfies_bind fun _ => satisfies_bind fun _ => satisfies_ite
    (satisfies_bind fun _ => satisfies_ok (canon_mk (canon_foldl (fun _ _ ht => canon_modDport ht) hs)))
      (satisfies_bind fun _ => satisfies_bind fun _ => satisfies_ok
        (canon_mk (canon_modPart (canon_foldl (fun _ _ ht => canon_modDport ht) hs))))

theorem keepsCmd_routeSet : KeepsCmd routeSet := by
  unfold routeSet
  exact fun _ _ _ hs => satisfies_bind fun _ => satisfies_bind fun _ => satisfies_bind fun _ => satisfies_ok hs

theorem keepsCmd_evportSet : KeepsCmd evportSet := by
  unfold evportSet
  exact fun _ _ _ hs => satisfies_bind fun _ => satisfies_ite (satisfies_ok hs)
    (satisfies_bind fun _ => satisfies_bind fun _ => satisfies_ok hs)

theorem keepsCmd_slotSet : KeepsCmd slotSet := by
  unfold slotSet
  exact fun _ _ _ hs => satisfies_bind fun _ => satisfies_bind fun _ => satisfies_bind fun _ => satisfies_ok hs

theorem keepsCmd_remapSet : KeepsCmd remapSet := by
  unfold remapSet
  exact fun _ _ _ hs => satisfies_bind fun _ => satisfies_ok (canon_mk (canon_remapTick hs))

theorem keepsCmd_streamAssign : KeepsCmd streamAssign := by
  unfold streamAssign
  exact fun _ _ _ hs => satisfies_bind fun _ => satisfies_bind fun _ => satisfies_ite
    (satisfies_bind fun _ => satisfies_ite (satisfies_ok hs) (satisfies_ok hs))
      (satisfies_bind fun _ => satisfies_bind fun _ => satisfies_ok (canon_mk (canon_modPart (canon_closeStream hs))))

theorem keepsCmd_pasidAdd : KeepsCmd pasidAdd := by
  unfold pasidAdd
  exact fun _ _ _ hs => satisfies_bind fun _ => satisfies_bind fun _ => satisfies_ok hs

theorem keepsCmd_pasidRevoke : KeepsCmd pasidRevoke := by
  unfold pasidRevoke
  exact fun _ _ _ hs => satisfies_bind fun _ => satisfies_bind fun _ => satisfies_ok hs

theorem keepsCmd_energySet : KeepsCmd energySet := by
  unfold energySet
  exact fun _ _ _ hs => satisfies_bind fun _ => satisfies_bind fun _ => satisfies_bind fun _ => satisfies_ok hs

theorem keepsCmd_keySet : KeepsCmd keySet := by
  unfold keySet
  exact fun _ _ _ hs => satisfies_bind fun _ => satisfies_bind fun _ => satisfies_bind fun _ =>
    satisfies_bind fun _ => satisfies_ok hs

theorem keepsCmd_keyClear : KeepsCmd keyClear := by
  unfold keyClear
  exact fun _ _ _ hs => satisfies_bind fun _ => satisfies_bind fun _ => satisfies_bind fun _ => satisfies_ok hs

theorem keepsCmd_rangeSet : KeepsCmd rangeSet := by
  unfold rangeSet
  exact fun _ _ _ hs => satisfies_bind fun _ => satisfies_bind fun _ => satisfies_bind fun _ => satisfies_ok
    (canon_mk (canon_putRange hs))

theorem keepsCmd_setWorld : KeepsCmd setWorld := by
  unfold setWorld
  exact fun _ _ _ hs => satisfies_bind fun _ => satisfies_bind fun _ => satisfies_ok hs

theorem keepsCmd_quote : KeepsCmd quote := by
  unfold quote
  exact fun _ _ _ hs => satisfies_bind fun _ => satisfies_ite (satisfies_ok (canon_mk (canon_writeNow hs)))
    (satisfies_bind fun _ => satisfies_ok (canon_mk (canon_writeNow hs)))

theorem keepsCmd_patchCmd : KeepsCmd patchCmd := by
  unfold patchCmd
  exact fun _ _ _ hs => satisfies_bind fun _ => satisfies_bind fun _ => satisfies_bind fun _ => satisfies_ok hs

theorem canon_patchStep (h : s.Canon) : (patchStep link s).Canon := by
  unfold patchStep
  dsimp only
  split
  · exact canon_foldl (fun _ _ ht => canon_askHost ht) h
  · exact canon_dropReturned (canon_runCommand keepsCmd_patchCmd h)

theorem keepsCmd_replicaSet : KeepsCmd replicaSet := by
  unfold replicaSet
  exact fun _ _ _ hs => satisfies_bind fun _ => satisfies_bind fun _ => satisfies_bind fun _ => satisfies_ok hs

theorem keepsCmd_infoCmd : KeepsCmd infoCmd := by
  unfold infoCmd
  exact fun _ _ _ hs => satisfies_ok hs

theorem canon_replicaDigest {digest : Nat} (h : s.Canon) : (replicaDigest part digest s).Canon := by
  unfold replicaDigest
  split
  · exact h
  · split
    · exact h
    · exact canon_ite h (canon_replicaHalt h)

theorem canon_replicaTimeout (h : s.Canon) : (replicaTimeout part s).Canon := by
  unfold replicaTimeout
  split
  · exact h
  · split
    · exact h
    · exact canon_ite h (canon_replicaHalt h)

/-! Resets and errors (Machine/Resets.lean). -/

theorem canon_resetTask {scope target : Nat} (h : s.Canon) : (s.resetTask scope target uid).1.Canon := by
  unfold State.resetTask
  split
  · exact h
  · split <;> exact canon_mk (canon_taskFault h)

theorem canon_resetTasks {scope target : Nat} {uids : List Nat} (h : s.Canon) :
    (s.resetTasks scope target uids).1.Canon := by
  unfold State.resetTasks
  exact canon_foldl_fst (fun _ _ ht => canon_mk (canon_resetTask ht)) h

theorem canon_resetQueued {scope target : Nat} {test : Nat → Task → Bool} (h : s.Canon) :
    (s.resetQueued part scope target test).1.Canon := by
  unfold State.resetQueued
  exact canon_mk (canon_foldl (fun _ _ ht => canon_postDue (canon_dropTask ht))
    (canon_foldl (fun _ _ ht => canon_modCore ht) h))

theorem canon_unreserve {r : Reservation} (h : s.Canon) : (s.unreserve part r).Canon := h

theorem canon_unreserveAt {test : Nat → Bool} (h : s.Canon) : (s.unreserveAt part test).Canon := by
  unfold State.unreserveAt
  split
  · exact h
  · exact canon_foldl (fun _ _ ht => canon_unreserve ht) h

theorem canon_resetCores {scope target : Nat} {cks : List Nat} (h : s.Canon) :
    (s.resetCores part scope target cks).1.Canon := by
  unfold State.resetCores
  dsimp only
  exact canon_resetQueued (canon_unreserveAt (canon_resetTasks h))

theorem canon_dropEngine {q : Nat} (h : s.Canon) : (s.dropEngine q).1.Canon := by
  unfold State.dropEngine
  exact canon_mk (canon_recoverEngine h)

theorem canon_resetDone {scope target tasks cands : Nat} (h : s.Canon) :
    (s.resetDone part scope target tasks cands).1.Canon := by
  unfold State.resetDone
  exact canon_mk (canon_sysPost h)

theorem keepsCmd_resetGroup : KeepsCmd resetGroup := by
  intro link a s hs
  unfold resetGroup
  refine satisfies_bind fun _ => ?_
  dsimp only
  split
  · exact satisfies_error
  · exact satisfies_ok (canon_resetDone (canon_ite_fst (canon_mk (canon_barriers
      (canon_modTeam (canon_removeGroup hs)))) (canon_resetTask hs)))

theorem keepsCmd_resetTeam : KeepsCmd resetTeam := by
  intro link a s hs
  unfold resetTeam
  refine satisfies_bind fun _ => satisfies_bind fun _ => ?_
  dsimp only
  split
  · exact satisfies_error
  · exact satisfies_ok (canon_resetDone (canon_resetQueued (canon_resetTasks hs)))

theorem canon_retireHost {p : Part} {v : Nat} (h : s.Canon) : YieldsWf (retireHost part p v s) := by
  unfold retireHost
  refine satisfies_bind fun _ => ?_
  split
  · exact satisfies_error
  · exact satisfies_ok h

theorem keepsCmd_resetCore : KeepsCmd resetCore := by
  unfold resetCore
  exact fun _ _ _ hs => satisfies_bind fun _ => satisfies_bind fun _ => satisfies_ite
    (yields_bind (canon_retireHost hs) (fun _ ht => satisfies_ok (canon_resetDone ht)))
      (satisfies_ok (canon_resetDone (canon_resetCores hs)))

theorem canon_dropLaunches {scope target : Nat} {mine : Launch → Bool} {here : Nat → Bool} (h : s.Canon) :
    (s.dropLaunches part scope target mine here).1.Canon := by
  unfold State.dropLaunches
  split
  · exact h
  · dsimp only
    split
    · exact canon_mk (canon_foldl (fun _ _ ht => canon_jobCheck (canon_modJob ht)) h)
    · exact canon_mk (canon_foldl (fun _ _ ht => canon_postDue (canon_dropTask ht))
        (canon_foldl (fun _ _ ht => canon_jobCheck (canon_modJob ht)) h))

theorem keepsCmd_resetQuarter : KeepsCmd resetQuarter := by
  intro link a s hs
  unfold resetQuarter
  dsimp only
  exact satisfies_bind fun _ => satisfies_bind fun _ =>
    satisfies_ok (canon_resetDone (canon_dropEngine (canon_dropLaunches (canon_resetCores hs))))

theorem keepsCmd_resetPartition : KeepsCmd resetPartition := by
  intro link a s hs
  unfold resetPartition
  dsimp only
  exact satisfies_bind fun _ => satisfies_ok (canon_resetDone (canon_installRoot (canon_setEngine (canon_modPart
    (canon_foldl_fst (fun _ _ ht => canon_mk (canon_dropEngine ht))
      (canon_mk (canon_dropLaunches (canon_resetCores hs))))))))

theorem keepsCmd_resetMatchEngine : KeepsCmd resetMatchEngine := by
  unfold resetMatchEngine
  exact fun _ _ _ hs => satisfies_bind fun _ => satisfies_bind fun _ => satisfies_ok
    (canon_resetDone (canon_recoverEngine hs))

theorem keepsCmd_resetDelowPort : KeepsCmd resetDelowPort := by
  unfold resetDelowPort
  exact fun _ _ _ hs => satisfies_bind fun _ => satisfies_bind fun _ => satisfies_ok
    (canon_resetDone (canon_portReset hs))

theorem keepsCmd_resetPcieFunction : KeepsCmd resetPcieFunction := by
  unfold resetPcieFunction
  exact fun _ _ _ hs => satisfies_bind fun _ => satisfies_bind fun _ => satisfies_ok
    (canon_resetDone (canon_functionReset hs))

theorem canon_engineError {q : Nat} (h : s.Canon) : (engineError q s).Canon := by
  unfold engineError
  split
  · exact h
  · exact canon_sysPost (canon_recoverEngine h)

theorem canon_uncorrectable {cls target loc : Nat} (h : s.Canon) : (uncorrectable cls target loc s).Canon := by
  unfold uncorrectable
  refine canon_foldl (fun _ _ ht => canon_sysPost ht) ?_
  split
  · exact canon_ite h h
  · exact h
  · split
    · exact h
    · exact canon_recoverEngine h
  · exact canon_ite h (canon_functionReset h)
  · exact canon_ite h h
  · exact h

/-! Power, clock steps and resets of the package (Machine/Power.lean). -/

theorem canon_modPower {f : Power → Power} (h : s.Canon) : (s.modPower f).Canon := h

theorem canon_unpowered : s.unpowered.Canon := by
  unfold State.unpowered
  exact canon_reset

theorem canon_startPart (h : s.Canon) : s.startPart.Canon := by
  unfold State.startPart
  exact canon_ite (canon_startManagement h) h

theorem canon_powerOn (h : s.Canon) : (powerOn s).Canon := by
  unfold powerOn
  exact canon_ite h (canon_startPart (canon_modPower canon_unpowered))

theorem canon_railFails : (railFails s).Canon := by
  unfold railFails
  exact canon_emit (canon_modPower canon_unpowered)

theorem canon_wholeReset (h : s.Canon) : s.wholeReset.Canon := h

theorem canon_perstRelease0 (h : s.Canon) : (perstRelease0 s).Canon := by
  unfold perstRelease0
  exact canon_ite h (canon_startPart (canon_wholeReset (canon_foldl (fun _ _ ht => canon_destroyPart ht) h)))

theorem canon_perstAssert0 (h : s.Canon) : (perstAssert0 s).Canon := by
  unfold perstAssert0
  exact canon_functionReset h

theorem canon_perst1 {low : Bool} (h : s.Canon) : (perst1 low s).Canon := by
  unfold perst1
  exact canon_ite (canon_functionReset h) h

theorem canon_powerLimit {watts : Nat} (h : s.Canon) : (powerLimit watts s).Canon := by
  unfold powerLimit
  exact canon_ite h h

theorem canon_thermal {eighths : Nat} (h : s.Canon) : (thermal eighths s).Canon := by
  unfold thermal
  exact canon_ite h h

theorem canon_thermalHard {eighths : Nat} (h : s.Canon) : (thermalHard eighths s).Canon := by
  unfold thermalHard
  exact canon_ite h h

theorem canon_stepRecovery (h : s.Canon) : (stepRecovery s).Canon := by
  unfold stepRecovery
  exact canon_ite h h

theorem canon_stepComplete (h : s.Canon) : (stepComplete s).Canon := by
  unfold stepComplete
  split
  · exact h
  · exact canon_sysPostAll h

theorem canon_energyEnd (h : s.Canon) : (energyEnd s).Canon := by
  unfold energyEnd
  dsimp only
  exact canon_foldl (fun _ _ ht => canon_sysPost ht) h

/-! What returns later (Machine/Returns.lean). -/

theorem canon_loadReturn {idx sector : Nat} (h : s.Canon) : (loadReturn key idx sector s).Canon := by
  unfold loadReturn
  exact canon_phaseCheck (canon_lateExit h)

theorem canon_fillTlb {vpage : Nat} (h : s.Canon) : (s.fillTlb key g vpage).1.Canon := by
  unfold State.fillTlb
  dsimp only
  split
  · exact h
  · refine canon_ite_fst h ?_
    split
    · exact canon_mk (canon_tlbInsert h)
    · split
      · exact canon_mk (canon_tlbInsert (canon_tlbInsert h))
      · exact canon_ite_fst (canon_mk (canon_askFor h)) h

theorem canon_walkDone (h : s.Canon) : (walkDone key s).Canon := by
  unfold walkDone
  split
  · exact h
  · refine canon_ite h ?_
    refine canon_ite (canon_setGroup (canon_foldl_fst (fun _ _ ht => canon_mk (canon_fillTlb ht)) h)) ?_
    dsimp only [State.Canon]
    exact canon_setGroup (canon_foldl_fst (fun _ _ ht => canon_mk (canon_fillTlb ht)) h)

theorem canon_windowClose {idx : Nat} (h : s.Canon) : (windowClose part idx s).Canon := by
  unfold windowClose
  split
  · exact h
  · exact canon_ite (canon_closeWindow h) h

theorem canon_retryDue {idx : Nat} (h : s.Canon) : (retryDue part idx s).Canon := by
  unfold retryDue
  split
  · exact h
  · exact canon_ite (canon_foldl (fun _ _ ht => canon_releaseWaiter ht) h) h

/-! A clock (Machine/Choose.lean). -/

theorem canon_beginClock (h : s.Canon) : s.beginClock.Canon := h

theorem canon_slotPick {j : Nat} (h : s.Canon) : (s.slotPick ck j).1.Canon := by
  unfold State.slotPick
  exact canon_mk (canon_foldl (fun _ _ ht => canon_modGroup ht) h)

theorem canon_corePicks (h : s.Canon) : (s.corePicks ck).1.Canon := by
  unfold State.corePicks
  generalize List.range 4 = slots
  have hm := canon_foldl (l := s.coreGroups ck) (fun _ x ht => canon_markWl (key := x.1) ht) h
  exact canon_foldl_fst (fun _ _ ht => canon_slotPick ht) hm

theorem canon_beginTurn (h : s.Canon) : (s.beginTurn part key).Canon := by
  unfold State.beginTurn
  exact canon_returnAll h

theorem canon_coreTurn (h : s.Canon) : (s.coreTurn part ck).1.Canon := by
  unfold State.coreTurn
  split
  · exact h
  · refine canon_ite_fst h ?_
    split
    · exact canon_ite_fst h h
    · refine canon_ite_fst h ?_
      split
      · exact h
      · split
        · exact h
        · exact canon_ite_fst (canon_mk (canon_modGroup (canon_beginTurn h))) h

theorem canon_select (h : s.Canon) : s.select.Canon := by
  unfold State.select
  dsimp only
  exact canon_foldl_fst (fun _ _ ht => canon_ite_fst (canon_mk (canon_corePicks ht)) (canon_mk (canon_coreTurn ht))) h

theorem canon_settleExt (h : s.Canon) : (s.settleExt serial).Canon := by
  unfold State.settleExt
  exact canon_grantExt h

theorem canon_deadlock (h : s.Canon) : (s.deadlock serial).Canon := by
  unfold State.deadlock
  split
  · exact h
  · split
    · split
      · exact h
      · exact canon_ite h (canon_taskFault h)
    · exact h

theorem canon_endTurn (h : s.Canon) : (s.endTurn key).Canon := by
  unfold State.endTurn
  dsimp only [State.Canon]
  exact canon_modDet (canon_foldl (fun _ _ ht => canon_settleExt ht)
    (canon_foldl (fun _ _ ht => canon_swaitPoll (canon_swaitFault ht)) h))

theorem canon_closeClock (h : s.Canon) : s.closeClock.Canon := by
  unfold State.closeClock
  dsimp only [State.Canon]
  exact canon_collPoll (canon_foldl (fun _ _ ht => canon_ite (canon_swaitPoll ht) ht) h)

theorem canon_roundContext {round : Nat} (h : s.Canon) : (s.roundContext part pasid round).Canon := by
  unfold State.roundContext
  dsimp only
  split
  · exact canon_ite (canon_foldl (fun _ _ ht => canon_haltGroup ht) h) h
  · exact canon_ite h (canon_scheduleAll h)

theorem canon_endRound (h : s.Canon) : (s.endRound part).Canon := by
  unfold State.endRound
  split
  · exact h
  · exact canon_ite h (canon_foldl (fun _ _ ht => canon_roundContext ht) h)

theorem canon_settleLink (h : s.Canon) : (s.settleLink link).Canon := by
  unfold State.settleLink
  refine canon_unpark ?_
  refine canon_invalsDone ?_
  refine canon_ite h ?_
  dsimp only [State.Canon]
  exact canon_sendWrites h

theorem canon_settleMigrations (h : s.Canon) : (s.settleMigrations part).Canon := by
  unfold State.settleMigrations
  exact canon_foldl (fun _ _ ht => canon_ite (canon_migrationEnd (canon_drawBool ht)) (canon_drawBool ht)) h

theorem canon_settleClock (h : s.Canon) : s.settleClock.Canon := by
  unfold State.settleClock
  exact canon_foldl (fun _ _ ht => canon_endRound ht) (canon_foldl (fun _ _ ht => canon_reschedule
    (canon_restoreUnits ht)) (canon_foldl (fun _ _ ht => canon_engineTurn ht)
      (canon_foldl (fun _ _ ht => canon_settleMigrations ht) (canon_foldl (fun _ _ ht => canon_settleLink ht)
        (canon_foldl (fun _ _ ht => canon_deadlock (canon_settleExt ht)) h)))))

/-! Point arithmetic (Machine/Float.lean). -/

theorem keepsMem_fp2 {fl : Flags} {f : Nat → Nat → Nat} : KeepsMem (fp2 ty fl d a b f) := by
  unfold fp2
  exact keepsMem_alu2

theorem keepsMem_fp1 {fl : Flags} {f : Nat → Nat} : KeepsMem (fp1 ty fl d a f) := by
  unfold fp1
  exact keepsMem_alu1

/-! Integer operations (Machine/Integer.lean). -/

theorem keepsMem_int2 {fl : Flags} {f : Nat → Nat → Nat} : KeepsMem (int2 ty fl d a b f) := by
  unfold int2
  exact keepsMem_alu2

theorem keepsMem_shift2 {f : Nat → Nat → Nat} : KeepsMem (shift2 ty d a b f) := by
  unfold shift2
  exact keepsMem_alu2

theorem keepsMem_carryChain {sub : Bool} {pc : Opnd} : KeepsMem (carryChain sub d a b pc) := by
  unfold carryChain
  exact fun _ _ _ hs => satisfies_bind fun _ => satisfies_bind fun _ => canon_finish hs

theorem keepsMem_selAct {pc : Opnd} : KeepsMem (selAct ty d a b pc) := by
  unfold selAct
  exact fun _ _ _ hs => satisfies_bind fun _ => satisfies_bind fun _ => canon_finish hs

/-! Intervals (Machine/IvOps.lean). -/

theorem keepsMem_ivResult {ops : List IvOp} {nan : Bool} {f : List Nat → Nat} :
    KeepsMem (ivResult ty d ops nan f) := by
  unfold ivResult
  exact fun _ _ _ hs => satisfies_bind fun _ => canon_finish hs

theorem keepsMem_ivPoint {f : Nat → Nat} : KeepsMem (ivPoint ty d a f) := by
  unfold ivPoint
  exact fun _ _ _ hs => satisfies_bind fun _ => canon_finish hs

theorem keepsMem_ivPred {ops : List IvOp} {empties : Bool} {f : List Nat → Tri} :
    KeepsMem (ivPred ty pd ops empties f) := by
  unfold ivPred
  exact fun _ _ _ hs => satisfies_bind fun _ => satisfies_ok hs

theorem keepsMem_iv1 {f : Iv → Iv} : KeepsMem (iv1 ty d a f) := by
  unfold iv1
  exact keepsMem_ivResult

theorem keepsMem_iv2 {f : Iv → Iv → Iv} : KeepsMem (iv2 ty d a b f) := by
  unfold iv2
  exact keepsMem_ivResult

/-! The bisection pool (Machine/IvPool.lean). -/

theorem keepsMem_ivbisAct {c : Opnd} : KeepsMem (ivbisAct ty d a b c) := by
  unfold ivbisAct
  refine keepsMem_committing (fun _ _ _ hs => satisfies_bind fun _ => satisfies_bind fun _ => satisfies_bind fun _ =>
    satisfies_bind fun _ => satisfies_ok hs) ?_
  intro iss g s hs
  refine canon_finish ?_
  split
  · exact hs
  · exact canon_foldl (fun _ _ ht => canon_ite ht (canon_poolAppend ht)) hs

theorem keepsMem_ivbflAct : KeepsMem ivbflAct := by
  unfold ivbflAct
  refine keepsMem_committing (fun _ _ _ hs => satisfies_bind fun _ => satisfies_bind fun _ => satisfies_ok hs) ?_
  intro iss g s hs
  dsimp only
  split
  · exact satisfies_ok (canon_ite hs (canon_makePoolTask hs))
  · exact satisfies_ok hs

/-! The lane network (Machine/LanePred.lean). -/

theorem keepsMem_shflAct {mode : ShflMode} : KeepsMem (shflAct ty mode d a b) := by
  unfold shflAct
  exact fun _ _ _ hs => canon_finish hs

theorem keepsMem_voteAct {mode : VoteMode} {pa : Opnd} : KeepsMem (voteAct mode d pa) := by
  intro iss g s hs
  unfold voteAct
  dsimp only
  split
  · exact satisfies_ok hs
  · exact satisfies_ok hs
  · exact canon_finish hs
  · exact canon_finish hs
  · exact canon_finish hs

theorem keepsMem_reduxAct {op : ReduxOp} : KeepsMem (reduxAct ty op d a) := by
  intro iss g s hs
  unfold reduxAct
  dsimp only
  split
  · exact satisfies_ok hs
  · exact canon_finish hs

theorem keepsMem_readlAct : KeepsMem (readlAct ty d a b) := by
  unfold readlAct
  exact fun _ _ _ hs => canon_finish hs

/-! Memory instructions (Machine/Memory.lean). -/

theorem keepsMem_plainLoad {sp : Space} {sw : SubWord} : KeepsMem (plainLoad sp ty sw d base idx off) := by
  unfold plainLoad
  exact keepsMem_loadAct

theorem keepsMem_plainStore {sp : Space} {sw : SubWord} : KeepsMem (plainStore sp ty sw d base idx off) := by
  unfold plainStore
  exact keepsMem_storeAct

theorem canon_atomStep {who : Nat} {pl : Place} {op : AtomOp} {v expected : Val} (h : s.Canon) :
    (atomStep s who pl ty op v expected).1.Canon := by
  unfold atomStep
  dsimp only
  split
  · exact h
  · exact canon_writeRun h

theorem keepsMem_atomAct {op : AtomOp} {nr : Bool} : KeepsMem (atomAct ty op nr d base b off) := by
  unfold atomAct
  refine keepsMem_committing (fun _ _ _ hs => satisfies_bind fun _ => satisfies_bind fun _ => satisfies_bind fun _ =>
    satisfies_bind fun _ => satisfies_bind fun _ => satisfies_ok hs) ?_
  intro iss g s hs
  refine satisfies_bind fun _ => ?_
  refine satisfies_ok ?_
  refine canon_setGroup ?_
  refine canon_foldl_fst ?_ hs
  intro t x ht
  dsimp only
  split
  · exact ht
  · exact canon_mk (canon_charge (canon_atomStep ht))

theorem keepsMem_prefAct : KeepsMem (prefAct base idx off) := by
  unfold prefAct
  exact fun _ _ _ hs => satisfies_bind fun _ => satisfies_ok hs

theorem keepsMem_fenceAct : KeepsMem fenceAct := by
  unfold fenceAct
  exact fun _ _ _ hs => satisfies_ok hs

/-! Turns (Machine/Turns.lean). -/

theorem canon_settleResults (h : s.Canon) : (s.settleResults key).Canon := by
  unfold State.settleResults
  exact canon_ite h (canon_returnAll h)

end

/-! The meaning of an instruction: its act under the trap rule of R330, or a step that always completes. -/

/-- Where an outcome is a next state, that state's memory is canonical. -/
abbrev NextCanon (o : Host.Outcome State Fault Refusal) : Prop := ∀ t, o = .next t → t.Canon

theorem nextCanon_next (h : s.Canon) : NextCanon (.next s) := by
  rintro t ⟨⟩
  exact h

theorem nextCanon_fault {f : Fault} : NextCanon (.fault f) := nofun

theorem nextCanon_refused {r : Refusal} : NextCanon (.refused r) := nofun

theorem nextCanon_runStep {f : State → State} (h : (f s).Canon) : NextCanon (runStep f s) :=
  nextCanon_next h

theorem nextCanon_runAct {f : Act} (hf : KeepsMem f) (h : s.Canon) : NextCanon (runAct f s) := by
  unfold runAct
  split
  · exact nextCanon_fault
  next iss _ =>
    split
    · exact nextCanon_fault
    next g _ =>
      have hact : YieldsWf (if iss.lanes = 0 then .ok (s.setGroup iss.key (g.stepPast iss))
          else f iss (g.stepPast iss) (s.setGroup iss.key (g.stepPast iss))) :=
        satisfies_ite (satisfies_ok (canon_setGroup h)) (hf (canon_setGroup h))
      dsimp only
      split
      next e _ => exact nextCanon_next (canon_of_ok e hact)
      · exact nextCanon_next (canon_takeTrap h)
      · exact nextCanon_next (canon_takeTrap h)

theorem nextCanon_execSyswrGctl (h : s.Canon) : NextCanon (execSyswrGctl d a b s) := by
  unfold execSyswrGctl
  split <;> exact nextCanon_runAct keepsMem_syswrAct h

theorem nextCanon_execIllegalInstruction (h : s.Canon) : NextCanon (execIllegalInstruction s) := by
  unfold execIllegalInstruction
  split
  · exact nextCanon_fault
  · split
    · exact nextCanon_fault
    · exact nextCanon_next (canon_takeTrap h)

/-! Acts and steps that have no name of their own. -/

theorem nextCanon_execNop (h : s.Canon) : NextCanon (execNop s) := by
  unfold execNop
  exact nextCanon_runAct (fun _ _ _ hs => satisfies_ok hs) h

theorem nextCanon_execElect (h : s.Canon) : NextCanon (execElect pd s) := by
  unfold execElect
  exact nextCanon_runAct (fun _ _ _ hs => satisfies_ok (canon_finishPred hs)) h

theorem nextCanon_execQclr (h : s.Canon) : NextCanon (execQclr d s) := by
  unfold execQclr
  exact nextCanon_runAct (fun _ _ _ hs => canon_finish hs) h

/-- The check of SARR and REL runs their act and discards what it did. -/
theorem keepsMem_checkedBy {act : Act} : KeepsMem fun iss g s => act iss g s >>= fun _ => .ok s :=
  fun _ _ _ hs => satisfies_bind fun _ => satisfies_ok hs

theorem nextCanon_execSarr {scope : Scope} (h : s.Canon) :
    NextCanon (execSarr scope a b s) := by
  unfold execSarr
  exact nextCanon_runAct (keepsMem_committing keepsMem_checkedBy keepsMem_settAct) h

theorem nextCanon_execRel {scope : Scope} (h : s.Canon) : NextCanon (execRel scope a s) := by
  unfold execRel
  exact nextCanon_runAct (keepsMem_committing keepsMem_checkedBy keepsMem_settAct) h

theorem nextCanon_execAutctlOpen (h : s.Canon) : NextCanon (execAutctlOpen d a s) := by
  unfold execAutctlOpen
  refine nextCanon_runAct (keepsMem_committing ?_ ?_) h
  · exact fun _ _ _ hs =>
      satisfies_bind fun _ => satisfies_bind fun _ => satisfies_bind fun _ => satisfies_ok hs
  · intro iss g t ht
    dsimp only
    exact satisfies_ok (canon_giveStatus (canon_laneStatus (fun _ _ hu => canon_autOpen hu) ht))

theorem nextCanon_execAutctlClose (h : s.Canon) : NextCanon (execAutctlClose d a s) := by
  unfold execAutctlClose
  refine nextCanon_runAct (keepsMem_committing keepsMem_autCheck ?_) h
  intro iss g t ht
  dsimp only
  exact satisfies_ok (canon_giveStatus (canon_laneStatus (fun _ _ hu => canon_autClose hu) ht))

theorem nextCanon_execFunctionLevelReset (h : s.Canon) :
    NextCanon (execFunctionLevelReset link s) := by
  unfold execFunctionLevelReset
  exact nextCanon_runStep (canon_linkDrop h)

/-- Every instruction, event and command, by the act or step that gives it its meaning. -/
theorem nextCanon_exec {i : Instr} (h : s.Canon) : NextCanon (exec i s) := by
  cases i with
  | iadd | isub | imul | imulh | imin | imax | and | or | xor | andn => exact nextCanon_runAct keepsMem_int2 h
  | shl | shr | sar | rol => exact nextCanon_runAct keepsMem_shift2 h
  | iabs | popc | clz | ctz | brev | mov | movi | pdef | fclass | cvt | unpk | qget | qset =>
    exact nextCanon_runAct keepsMem_alu1 h
  | imad | imadw | bfi | prmt | ffma | pack => exact nextCanon_runAct keepsMem_alu3 h
  | lea | bfx | fscale => exact nextCanon_runAct keepsMem_alu2 h
  | ladd | lsub => exact nextCanon_runAct keepsMem_carryChain h
  | sel => exact nextCanon_runAct keepsMem_selAct h
  | icmp | pand | por | fcmp => exact nextCanon_runAct keepsMem_test2 h
  | shfl => exact nextCanon_runAct keepsMem_shflAct h
  | vote => exact nextCanon_runAct keepsMem_voteAct h
  | redux => exact nextCanon_runAct keepsMem_reduxAct h
  | readl => exact nextCanon_runAct keepsMem_readlAct h
  | elect => exact nextCanon_execElect h
  | nop => exact nextCanon_execNop h
  | pnot | pset | ptest => exact nextCanon_runAct keepsMem_test1 h
  | fadd | fsub | fmul | fmin | fmax | fdiv => exact nextCanon_runAct keepsMem_fp2 h
  | fsqrt | frcp | frsq | fexp2 | flog2 | frnd => exact nextCanon_runAct keepsMem_fp1 h
  | ivadd | ivsub | ivmul | ivdiv | ivmin | ivmax | ivhull | ivisect => exact nextCanon_runAct keepsMem_iv2 h
  | ivfma | ivmake | ivpt => exact nextCanon_runAct keepsMem_ivResult h
  | ivsqr | ivsqrt | ivrcp | ivexp2 | ivlog2 | ivabs | ivneg => exact nextCanon_runAct keepsMem_iv1 h
  | ivlo | ivhi | ivmid | ivwid => exact nextCanon_runAct keepsMem_ivPoint h
  | ivcmp | ivin | ivsubs | ivemp => exact nextCanon_runAct keepsMem_ivPred h
  | ivbis => exact nextCanon_runAct keepsMem_ivbisAct h
  | ivbfl => exact nextCanon_runAct keepsMem_ivbflAct h
  | qst => exact nextCanon_runAct keepsMem_qstAct h
  | qaxis => exact nextCanon_runAct keepsMem_qaxisAct h
  | qclr => exact nextCanon_execQclr h
  | ld | ldl | ldd | ldsp => exact nextCanon_runAct keepsMem_plainLoad h
  | st | stl | std | stsp => exact nextCanon_runAct keepsMem_plainStore h
  | ldiv => exact nextCanon_runAct keepsMem_loadAct h
  | stiv => exact nextCanon_runAct keepsMem_storeAct h
  | atom => exact nextCanon_runAct keepsMem_atomAct h
  | pref => exact nextCanon_runAct keepsMem_prefAct h
  | bind => exact nextCanon_runAct keepsMem_bindAct h
  | unbind => exact nextCanon_runAct keepsMem_unbindAct h
  | acq | sinit | sexp | stry => exact nextCanon_runAct keepsMem_settAct h
  | rel scope => exact nextCanon_execRel (scope := scope) h
  | sarr scope => exact nextCanon_execSarr (scope := scope) h
  | fence => exact nextCanon_runAct keepsMem_fenceAct h
  | swait => exact nextCanon_runAct keepsMem_swaitAct h
  | swaitTimeout => exact nextCanon_runStep (canon_swaitExpire h)
  | bar | cbar => exact nextCanon_runAct keepsMem_barrierAct h
  | bcopyG2l | bcopyL2g | bqst => exact nextCanon_runAct keepsMem_bulkAct h
  | copyComplete => exact nextCanon_runStep (canon_ite (canon_copyComplete h) h)
  | bqstComplete => exact nextCanon_runStep (canon_ite (canon_bqstComplete h) h)
  | mma => exact nextCanon_runAct keepsMem_mmaAct h
  | mmab => exact nextCanon_runAct keepsMem_mmabAct h
  | mmabStage => exact nextCanon_runStep (canon_ite (canon_mmabStage h) h)
  | mmabDone => exact nextCanon_runStep (canon_ite (canon_mmabDone h) h)
  | sampledTileCheck => exact nextCanon_runStep (canon_sampleCheck h)
  | coll => exact nextCanon_runAct keepsMem_collAct h
  | collPartialArrival => exact nextCanon_runStep (canon_collPartial h)
  | collDigestArrival => exact nextCanon_runStep (canon_collDigest h)
  | collComplete => exact nextCanon_runStep (canon_collComplete h)
  | collTimeout => exact nextCanon_runStep (canon_collTimeout h)
  | sbind => exact nextCanon_runAct keepsMem_sbindAct h
  | sfree => exact nextCanon_runAct keepsMem_sfreeAct h
  | bra => exact nextCanon_runAct keepsMem_braAct h
  | brx => exact nextCanon_runAct keepsMem_brxAct h
  | call => exact nextCanon_runAct keepsMem_callAct h
  | callx => exact nextCanon_runAct keepsMem_callxAct h
  | ret => exact nextCanon_runAct keepsMem_retAct h
  | join => exact nextCanon_runAct keepsMem_joinAct h
  | joinTimeout | enqueueResume | mbstatWrite | thermtrip | currentLimit | packageTimerTick
  | dieLinkCrcError | correctedError => exact nextCanon_runStep h
  | bse => exact nextCanon_runAct keepsMem_bseAct h
  | region => exact nextCanon_runAct keepsMem_regionAct h
  | phase => exact nextCanon_runAct keepsMem_phaseAct h
  | phaseResume => exact nextCanon_runStep (canon_phaseResume h)
  | xacq => exact nextCanon_runAct keepsMem_xacqAct h
  | xrel => exact nextCanon_runAct keepsMem_xrelAct h
  | yield => exact nextCanon_runAct keepsMem_yieldAct h
  | waitc => exact nextCanon_runAct keepsMem_waitcAct h
  | exit => exact nextCanon_runAct keepsMem_exitAct h
  | spawn => exact nextCanon_runAct keepsMem_spawnAct h
  | trap => exact nextCanon_runAct keepsMem_trapAct h
  | bkpt => exact nextCanon_runAct keepsMem_bkptAct h
  | evpost => exact nextCanon_runAct keepsMem_evpostAct h
  | evld => exact nextCanon_runAct keepsMem_evldAct h
  | evrel => exact nextCanon_runAct keepsMem_evrelAct h
  | wmark => exact nextCanon_runAct keepsMem_wmarkAct h
  | autld => exact nextCanon_runAct keepsMem_autldAct h
  | autctlStop | autctlResume | autctlCkpt | autctlRemove | autctlCount =>
    exact nextCanon_runAct keepsMem_autAct h
  | autctlOpen => exact nextCanon_execAutctlOpen h
  | autctlClose => exact nextCanon_execAutctlClose h
  | sysrd => exact nextCanon_runAct keepsMem_sysrdAct h
  | syswrGctl => exact nextCanon_execSyswrGctl h
  | syswrContextSet | syswrInvalidate | syswrMigrate | syswrContextStop | syswrContextResume
  | syswrGroup | syswrQueueCreate | syswrQueueDestroy | syswrQueueSwap =>
    exact nextCanon_runAct keepsMem_syswrAct h
  | ccnt => exact nextCanon_runAct keepsMem_ccntAct h
  | rand => exact nextCanon_runAct keepsMem_randAct h
  | tokwait => exact nextCanon_runAct keepsMem_tokwaitAct h
  | tokpass => exact nextCanon_runAct keepsMem_tokpassAct h
  | psnt => exact nextCanon_runAct keepsMem_psntAct h
  | psntClr => exact nextCanon_runAct keepsMem_psntClrAct h
  | illegalInstruction => exact nextCanon_execIllegalInstruction h
  | loadResultReturn => exact nextCanon_runStep (canon_loadReturn h)
  | tlbWalkComplete => exact nextCanon_runStep (canon_walkDone h)
  | gatherWindowClose => exact nextCanon_runStep (canon_windowClose h)
  | pendingOvfRetry => exact nextCanon_runStep (canon_retryDue h)
  | timeSliceExpiry => exact nextCanon_runStep (canon_sliceExpiry h)
  | teamEviction => exact nextCanon_runStep (canon_teamEviction h)
  | taskDispatch => exact nextCanon_runStep (canon_ite (canon_dispatchOne h) h)
  | clusterReserveRequest => exact nextCanon_runStep (canon_ite (canon_reserveRequest h) h)
  | clusterReserveGrant => exact nextCanon_runStep (canon_ite (canon_reserveGrant h) h)
  | balanceExchange => exact nextCanon_runStep (canon_balance h)
  | launchRequest => exact nextCanon_runStep (canon_ite (canon_launchStep h) h)
  | automatonEventStep => exact nextCanon_runStep (canon_eventStep h)
  | dropExpiredPass => exact nextCanon_runStep (canon_passStep h)
  | matchEngineStateError => exact nextCanon_runStep (canon_engineError h)
  | epochBoundary => exact nextCanon_runStep (canon_epochBoundary h)
  | eventPacketPost | eventPacketWatermark => exact nextCanon_runStep (canon_hostPacket h)
  | remapHoldoffExpiry => exact nextCanon_runStep (canon_remapTick h)
  | refusalWindowClose => exact nextCanon_runStep (canon_refusalClose h)
  | slotcntRead | slotBadRead => exact nextCanon_runStep (canon_slotRead h)
  | barUnsupportedAccess => exact nextCanon_runStep (canon_barUnsupported h)
  | registerWrite => exact nextCanon_runStep (canon_registerWrite h)
  | partCreate => exact nextCanon_runStep (canon_runCommand keepsCmd_partCreate h)
  | partDestroy => exact nextCanon_runStep (canon_runCommand keepsCmd_partDestroy h)
  | partQuarters => exact nextCanon_runStep (canon_runCommand keepsCmd_partQuarters h)
  | delowPorts => exact nextCanon_runStep (canon_runCommand keepsCmd_delowPorts h)
  | routeSet => exact nextCanon_runStep (canon_runCommand keepsCmd_routeSet h)
  | evportSet => exact nextCanon_runStep (canon_runCommand keepsCmd_evportSet h)
  | slotSet => exact nextCanon_runStep (canon_runCommand keepsCmd_slotSet h)
  | remapSet => exact nextCanon_runStep (canon_runCommand keepsCmd_remapSet h)
  | streamAssign => exact nextCanon_runStep (canon_runCommand keepsCmd_streamAssign h)
  | pasidAdd => exact nextCanon_runStep (canon_runCommand keepsCmd_pasidAdd h)
  | pasidRevoke => exact nextCanon_runStep (canon_runCommand keepsCmd_pasidRevoke h)
  | keySet => exact nextCanon_runStep (canon_runCommand keepsCmd_keySet h)
  | keyClear => exact nextCanon_runStep (canon_runCommand keepsCmd_keyClear h)
  | rangeSet => exact nextCanon_runStep (canon_runCommand keepsCmd_rangeSet h)
  | setWorld => exact nextCanon_runStep (canon_runCommand keepsCmd_setWorld h)
  | resetGroup => exact nextCanon_runStep (canon_runCommand keepsCmd_resetGroup h)
  | resetTeam => exact nextCanon_runStep (canon_runCommand keepsCmd_resetTeam h)
  | resetCore => exact nextCanon_runStep (canon_runCommand keepsCmd_resetCore h)
  | resetQuarter => exact nextCanon_runStep (canon_runCommand keepsCmd_resetQuarter h)
  | resetPartition => exact nextCanon_runStep (canon_runCommand keepsCmd_resetPartition h)
  | resetMatchEngine => exact nextCanon_runStep (canon_runCommand keepsCmd_resetMatchEngine h)
  | resetDelowPort => exact nextCanon_runStep (canon_runCommand keepsCmd_resetDelowPort h)
  | resetPcieFunction => exact nextCanon_runStep (canon_runCommand keepsCmd_resetPcieFunction h)
  | quote => exact nextCanon_runStep (canon_runCommand keepsCmd_quote h)
  | patch => exact nextCanon_runStep (canon_patchStep h)
  | energySet => exact nextCanon_runStep (canon_runCommand keepsCmd_energySet h)
  | replicaSet => exact nextCanon_runStep (canon_runCommand keepsCmd_replicaSet h)
  | info => exact nextCanon_runStep (canon_runCommand keepsCmd_infoCmd h)
  | replicaDigestArrival => exact nextCanon_runStep (canon_replicaDigest h)
  | replicaTimeout => exact nextCanon_runStep (canon_replicaTimeout h)
  | powerOn => exact nextCanon_runStep (canon_powerOn h)
  | perstNReleaseLink0 => exact nextCanon_runStep (canon_perstRelease0 h)
  | perstNLink1 => exact nextCanon_runStep (canon_perst1 h)
  | pwrfail => exact nextCanon_runStep canon_railFails
  | powerLimitExceeded => exact nextCanon_runStep (canon_powerLimit h)
  | thermalLimit => exact nextCanon_runStep (canon_thermal h)
  | thermalHardLimit => exact nextCanon_runStep (canon_thermalHard h)
  | stepRecovery => exact nextCanon_runStep (canon_stepRecovery h)
  | stepChangeComplete => exact nextCanon_runStep (canon_stepComplete h)
  | energyWindowEnd => exact nextCanon_runStep (canon_energyEnd h)
  | pcieLinkDown => exact nextCanon_runStep (canon_linkDown h)
  | hotReset => exact nextCanon_runStep (canon_functionReset h)
  | functionLevelReset => exact nextCanon_execFunctionLevelReset h
  | atsInvalidation => exact nextCanon_runStep (canon_atsInvalidate h)
  | atsCompletion => exact nextCanon_runStep (canon_atsCompletion h)
  | hostReadCompletion => exact nextCanon_runStep (canon_hostReadDone h)
  | dieLinkReplayWindow => exact nextCanon_runStep (canon_dieLinkWindow h)
  | delowFlitReceive => exact nextCanon_runStep (canon_flitReceive h)
  | delowAckTimeout => exact nextCanon_runStep (canon_ite (canon_resend h) h)
  | delowRetrainComplete => exact nextCanon_runStep (canon_retrainEnd h)
  | uncorrectableError => exact nextCanon_runStep (canon_uncorrectable h)
  | pcieLinkUp => exact nextCanon_runStep (canon_linkUp h)
  | perstNAssertLink0 => exact nextCanon_runStep (canon_perstAssert0 h)
  | delowPortUp => exact nextCanon_runStep (canon_delowUp h)

/-! A path's issue, a turn, a step. -/

/-- The state that a path's preparation leaves, whether or not an instruction acts in it. -/
def Ready.state : Ready → State
  | .done s => s
  | .run _ _ s _ => s

theorem canon_ready_ite {c : Prop} [Decidable c] {x y : Ready} (hx : x.state.Canon) (hy : y.state.Canon) :
    (if c then x else y).state.Canon := by split <;> assumption

theorem canon_prepare {path : Nat} (h : s.Canon) : (prepare s key pc path).state.Canon := by
  unfold prepare
  split
  · exact h
  · dsimp only
    split
    · exact canon_dueWalks (canon_takeTrap h)
    · split
      · exact h
      · refine canon_ready_ite (canon_setGroup h) (canon_ready_ite (canon_setGroup h) (canon_ready_ite h ?_))
        split
        · exact canon_takeTrap h
        · exact h

theorem nextCanon_runPath {path : Nat} (h : s.Canon) : NextCanon (runPath s key pc path) := by
  have hready := canon_prepare (key := key) (pc := pc) (path := path) h
  unfold runPath
  split
  next t e =>
    rw [e] at hready
    exact nextCanon_next hready
  next hd i t bad e =>
    rw [e] at hready
    split
    next u e' => exact nextCanon_next (canon_afterIssue (nextCanon_exec hready u e'))
    · exact nextCanon_fault
    · exact nextCanon_refused

theorem nextCanon_runTurn {t : Turn} (h : s.Canon) : NextCanon (runTurn t s) := by
  cases t with
  | event i => exact nextCanon_exec h
  | issue key =>
    have hpaths := canon_choosePaths (key := key) h
    unfold runTurn
    dsimp only
    split
    next e => exact nextCanon_next (canon_of_fst e hpaths)
    next e => exact nextCanon_runPath (canon_of_fst e hpaths)
  | second key pc lanes =>
    unfold runTurn
    dsimp only
    split
    · exact nextCanon_next (canon_settleResults h)
    · exact nextCanon_runPath (canon_settleResults h)
  | turnEnd key => exact nextCanon_next (canon_endTurn h)
  | waits key => exact nextCanon_next (canon_swaitFault h)
  | select => exact nextCanon_next (canon_select h)
  | close => exact nextCanon_next (canon_closeClock h)
  | settle => exact nextCanon_next (canon_settleClock h)

theorem nextCanon_step (h : s.Canon) : NextCanon (step s) := by
  unfold step
  split
  · split
    · exact nextCanon_next (canon_beginClock h)
    · exact nextCanon_fault
  next rest _ =>
    have hrest : ({ s with agenda := rest } : State).Canon := h
    split
    · exact nextCanon_runTurn hrest
    · exact nextCanon_fault

/-! The form is canonical: two lists in it that read alike are the same list. -/

theorem memGet_cons_self (a : Nat) (b : Byte) (m : List Host.Cell) : memGet ((a, b) :: m) a = b := by
  simp [memGet, tget, tget?]

theorem memGet_cons_ne {a a' : Nat} (h : a' ≠ a) (b : Byte) (m : List Host.Cell) :
    memGet ((a, b) :: m) a' = memGet m a' := by
  simp [memGet, tget, tget?, h.symm]

/-- An address that stands before every listed one reads as unwritten. -/
theorem memGet_of_risingFrom {a : Nat} (ha : a ≤ n) {m : List Host.Cell} (hm : risingFrom (some n) m = true) :
    memGet m a = unwritten := by
  induction m generalizing n with
  | nil => rfl
  | cons c m ih =>
    obtain ⟨k, b⟩ := c
    obtain ⟨hk, hrest⟩ := risingFrom_cons.1 hm
    have hlt : a < k := Nat.lt_of_le_of_lt ha (hk n rfl)
    rw [memGet_cons_ne (Nat.ne_of_lt hlt)]
    exact ih (Nat.le_of_lt hlt) hrest

theorem memWf_cons {a : Nat} {b : Byte} {m : List Host.Cell} (h : memWf ((a, b) :: m) = true) :
    b ≠ unwritten ∧ risingFrom (some a) m = true ∧ memWf m = true := by
  obtain ⟨hrise, hwritten⟩ := memWf_iff.1 h
  have hrest := (risingFrom_cons.1 hrise).2
  exact ⟨hwritten _ List.mem_cons_self, hrest,
    memWf_iff.2 ⟨risingFrom_none hrest, fun c hc => hwritten c (List.mem_cons_of_mem _ hc)⟩⟩

/-- Memory in canonical form that lists a byte reads differently at its address from memory that lists later ones. -/
theorem le_of_memGet_eq {a a' : Nat} {b b' : Byte} {m m' : List Host.Cell} (h : memWf ((a, b) :: m) = true)
    (h' : memWf ((a', b') :: m') = true) (heq : ∀ x, memGet ((a, b) :: m) x = memGet ((a', b') :: m') x) :
    a' ≤ a := by
  refine Nat.not_lt.1 fun hlt => ?_
  obtain ⟨hb, -, -⟩ := memWf_cons h
  obtain ⟨-, hrise, -⟩ := memWf_cons h'
  have hread := heq a
  rw [memGet_cons_self, memGet_cons_ne (by omega), memGet_of_risingFrom (by omega) hrise] at hread
  exact hb hread

theorem eq_of_memGet_eq {m m' : List Host.Cell} (h : memWf m = true) (h' : memWf m' = true)
    (heq : ∀ a, memGet m a = memGet m' a) : m = m' := by
  induction m generalizing m' with
  | nil =>
    cases m' with
    | nil => rfl
    | cons c' m' =>
      obtain ⟨a', b'⟩ := c'
      have hread := heq a'
      rw [memGet_cons_self] at hread
      exact absurd hread.symm (memWf_cons h').1
  | cons c m ih =>
    obtain ⟨a, b⟩ := c
    obtain ⟨hb, hrise, hm⟩ := memWf_cons h
    cases m' with
    | nil =>
      have hread := heq a
      rw [memGet_cons_self] at hread
      exact absurd hread hb
    | cons c' m' =>
      obtain ⟨a', b'⟩ := c'
      obtain ⟨-, hrise', hm'⟩ := memWf_cons h'
      obtain rfl : a = a' := Nat.le_antisymm (le_of_memGet_eq h' h fun x => (heq x).symm) (le_of_memGet_eq h h' heq)
      have hbyte := heq a
      rw [memGet_cons_self, memGet_cons_self] at hbyte
      have hrest : ∀ x, memGet m x = memGet m' x := fun x => by
        rcases Decidable.em (x = a) with rfl | hx
        · rw [memGet_of_risingFrom (Nat.le_refl x) hrise, memGet_of_risingFrom (Nat.le_refl x) hrise']
        · have hread := heq x
          rwa [memGet_cons_ne hx, memGet_cons_ne hx] at hread
      rw [hbyte, ih hm hm' hrest]

/-- Settles O59: every operation on the state keeps memory canonical, so every act and every step that dispatch and
  the
turns reach does; and of two rising lists without unwritten bytes that read alike, the first entries are the same. -/
theorem memoryStaysCanonical : Obligations.MemoryStaysCanonical := by
  unfold Obligations.MemoryStaysCanonical
  exact ⟨fun s t h e => nextCanon_step h t e, fun i s t h e => nextCanon_exec h t e,
    fun m m' h h' heq => eq_of_memGet_eq h h' heq⟩

end Sys2Proof.Machine
end
